-- ==== Sys2Proof/Word.lean ====
section
/-! DEFINITION. The byte of the serial lines and the few words made of bytes.  Everything a test could
show wrong stands in the files of Sys2Proof/Machine. -/

namespace Sys2Proof

/-- One byte of a serial line (R184). -/
abbrev Byte := BitVec 8

/-- A text field or an approval number: its characters, one byte each (R184). -/
abbrev Text := List Byte

end Sys2Proof
end

