-- ==== Sys2Proof/Syntax.lean ====
section
/-! DEFINITION. The named sets of the manual that commands and records share, the operands of the
commands, and Instr: one constructor for each row of spec/opcode_table.json, in the table's order.

A request of the kiosk link carries the head of its frame and the payload bytes as received (R184);
the meaning parses the payload, so that step 5 of R186 belongs to the model.  The commands of the other
connections carry the number of the link, reader or job they concern and what the message brings. -/

namespace Sys2Proof

/-- Size classes, ordered S < M < L < XL (00_scope, Classes). -/
inductive SizeClass where
  | S | M | L | XL
  deriving DecidableEq, Repr

/-- One value for each size class, as in F[M]. -/
structure PerClass (α : Type) where
  S : α
  M : α
  L : α
  XL : α
  deriving DecidableEq, Repr

/-- Result of a charge (R149). -/
inductive PayResult where
  | APPROVED | DECLINED | CUSTOMER_CANCEL
  deriving DecidableEq, Repr

/-- Mains strike capacity strap (00_scope, Factory straps): 16, 24 or 32 units. -/
inductive MainsStrap where
  | u16 | u24 | u32
  deriving DecidableEq, Repr

/-- Column links strap (R45): links 1 and 2, or links 1 to 4. -/
inductive LinkStrap where
  | two | four
  deriving DecidableEq, Repr

/-- The factory straps (00_scope, R45, R148). -/
structure Straps where
  mains   : MainsStrap
  links   : LinkStrap
  readers : Fin 5
  deriving DecidableEq, Repr

/-- What a restart finds at the part's inputs (R197, R200, R201): the straps as read, the levels of
MAINS_GOOD and BATTERY_LOW, and the clock cell: `some v` when it kept running and stands at `v`, `none`
when it lost its count. -/
structure RestartInputs where
  straps     : Straps
  mainsGood  : Bool
  batteryLow : Bool
  cell       : Option Nat
  deriving DecidableEq, Repr

/-- One channel's readings in a STATUS (R54). -/
structure Reading where
  hatchOpen : Bool
  occupied  : Bool
  settled   : Bool
  deriving DecidableEq, Repr

/-- Head of a request as the KLI takes it: the station and tag bytes of the frame (R184) and the level of
SERVICE_KEY, which R186 reads as the request is taken. -/
structure ReqHead where
  station : Byte
  tag     : Byte
  keyOn   : Bool
  deriving DecidableEq, Repr

/-- The commands of the part: one constructor for each row of spec/opcode_table.json, in its order. -/
inductive Instr where
  -- requests of the kiosk link, kinds 1 to 41 (R184, R186)
  | status (h : ReqHead) (p : List Byte)
  | fetchEvents (h : ReqHead) (p : List Byte)
  | eventMask (h : ReqHead) (p : List Byte)
  | timeSet (h : ReqHead) (p : List Byte)
  | clockAdvance (h : ReqHead) (p : List Byte)
  | mode (h : ReqHead) (p : List Byte)
  | quote (h : ReqHead) (p : List Byte)
  | readCompartment (h : ReqHead) (p : List Byte)
  | findParcel (h : ReqHead) (p : List Byte)
  | holdMap (h : ReqHead) (p : List Byte)
  | listBoards (h : ReqHead) (p : List Byte)
  | readFaultCapture (h : ReqHead) (p : List Byte)
  | restart (h : ReqHead) (p : List Byte)
  | collect (h : ReqHead) (p : List Byte)
  | pay (h : ReqHead) (p : List Byte)
  | returnDrop (h : ReqHead) (p : List Byte)
  | reserve (h : ReqHead) (p : List Byte)
  | reservationRelease (h : ReqHead) (p : List Byte)
  | deposit (h : ReqHead) (p : List Byte)
  | tag (h : ReqHead) (p : List Byte)
  | untag (h : ReqHead) (p : List Byte)
  | sweep (h : ReqHead) (p : List Byte)
  | sweepCancel (h : ReqHead) (p : List Byte)
  | serviceOpen (h : ReqHead) (p : List Byte)
  | serviceRemove (h : ReqHead) (p : List Byte)
  | clearFault (h : ReqHead) (p : List Byte)
  | hold (h : ReqHead) (p : List Byte)
  | holdRelease (h : ReqHead) (p : List Byte)
  | setOutOfService (h : ReqHead) (p : List Byte)
  | reinstate (h : ReqHead) (p : List Byte)
  | setClass (h : ReqHead) (p : List Byte)
  | sectionDefine (h : ReqHead) (p : List Byte)
  | sectionEnable (h : ReqHead) (p : List Byte)
  | mapWrite (h : ReqHead) (p : List Byte)
  | boardAccept (h : ReqHead) (p : List Byte)
  | linkReset (h : ReqHead) (p : List Byte)
  | tariffLoad (h : ReqHead) (p : List Byte)
  | tariffSchedule (h : ReqHead) (p : List Byte)
  | config (h : ReqHead) (p : List Byte)
  | clearFaultCapture (h : ReqHead) (p : List Byte)
  | factoryClear (h : ReqHead) (p : List Byte)
  /-- A checked frame of a station above 7 or a kind code outside 1 to 41 (R186). -/
  | unknownRequestKind (h : ReqHead) (kind : Byte) (p : List Byte)
  /-- A frame of valid length completes: its length byte, the bytes from station to the end of the
  payload, and the check received (R184, R185). -/
  | kioskFrameComplete (len : Byte) (body : List Byte) (check : BitVec 16)
  /-- A gap of more than 20 ms inside a frame; `next` is the byte that ends the gap (R185). -/
  | frameGapTimeout (next : Byte)
  | mainsGoodChange (level : Bool)
  | batteryLowChange (level : Bool)
  | powerOn (i : RestartInputs)
  | brownout (i : RestartInputs)
  | hostRestart (i : RestartInputs)
  | minuteTick
  | linkExchangeStart (link : Nat)
  /-- The lowest serial bid, which is what the part receives (R49). -/
  | rollCallBid (link serial : Nat)
  | claim (link serial slot channelCode currentCode : Nat)
  /-- A STATUS of the board in `slot`: one reading a channel from channel 0 up, and the strike-done flag. -/
  | boardStatus (link slot : Nat) (readings : List Reading) (strikeDone : Bool)
  | strikeAck (link : Nat)
  | boardBusy (link : Nat)
  | noChannel (link : Nat)
  | boardResponseTimeout (link : Nat)
  | rollCallTimerExpiry (link : Nat)
  | strikeDoneGraceExpiry (link : Nat)
  | strikeDurationExpiry (link : Nat)
  | openWaitExpiry (job : Nat)
  | ajarLimitExpiry (job : Nat)
  | confirmLimitExpiry (job : Nat)
  | busExchangeStart
  | chargeTaken (reader : Nat)
  | readerBusy (reader : Nat)
  | nothingYet (reader : Nat)
  | result (reader ref : Nat) (r : PayResult) (approval : Text)
  | abandoned (reader : Nat)
  | reversed (reader : Nat)
  | reverseFailed (reader : Nat)
  | readerResponseTimeout (reader : Nat)
  | readerPollTimerExpiry (reader : Nat)
  | paymentTimeout (reader : Nat)
  | auditLimitExpiry
  /-- A start marker followed by a length byte outside 4 to 250 (R185). -/
  | frameLengthDiscard (len : Byte)
  deriving DecidableEq, Repr

end Sys2Proof
end

