-- ==== Sys2Proof/Decode.lean ====
section
/-! DEFINITION. The decoder of the opcode table.  The table gives no row any bits: a command of this block is
a frame, a message, a level or a timer, never a word. -/

namespace Sys2Proof

/-- The command that a word spells by the table's bits: none, for the table gives bits to no row. -/
def decodeTableWord (_nbits _w : Nat) : Option Instr := none

end Sys2Proof
end

