-- ==== Sys2Proof/Config.lean ====
section
/-! DEFINITION. The numbers the manual fixes, and the free values it leaves open. -/

namespace Sys2Proof

/-- Greatest value of a bank minute and of a hatch-cycle count (R3, R199): 4,294,967,295. -/
def Config.max32 : Nat := 4294967295
/-- Places of the operation table (R68). -/
def Config.opEntries : Nat := 48
/-- SWEEP operations standing at once, of both courier stations (R70). -/
def Config.sweepLimit : Nat := 24
/-- Places of a priority queue (R71). -/
def Config.prioPlaces : Nat := 6
/-- Places of a bulk queue (R71). -/
def Config.bulkPlaces : Nat := 24
/-- Records of the event queue (R191). -/
def Config.queuePlaces : Nat := 64
/-- Complete frames waiting in the receive buffer (R187). -/
def Config.rxFrames : Nat := 3
/-- Entries of the reversal list (R161). -/
def Config.reversalPlaces : Nat := 8
/-- Entries of the retired-code list (R107). -/
def Config.retiredPlaces : Nat := 128
/-- Age at which a retired code leaves the list, in minutes (R108). -/
def Config.retiredAge : Nat := 2880
/-- Entries of a tag list (R173). -/
def Config.tagPlaces : Nat := 64
/-- Draws of the code issuer for one request (R105). -/
def Config.codeDraws : Nat := 16
/-- Rounds of an enumeration pass (R49). -/
def Config.passRounds : Nat := 16
/-- Unanswered polls that make a slot OFFLINE, and unanswered messages that make a reader so (R56, R150). -/
def Config.missLimit : Nat := 3
/-- Entries of a wrong-code list (R110). -/
def Config.wrongPlaces : Nat := 5
/-- Minutes of a lockout, of the collection-retry window (R113, R124). -/
def Config.window : Nat := 15
/-- Confirm limit in seconds (R82). -/
def Config.confirmSeconds : Nat := 10
/-- Longest dwell the quote counts, in minutes (R137). -/
def Config.maxDwell : Nat := 86400

/-- FREE VALUE. The k-th draw of the code generator, seeded from the internal noise source (R91, R105):
nothing is known of it but its range, 000000 to 999999.  `Alloc.draws` counts the draws made. -/
opaque Config.codeDraw : Nat → Fin 1000000

end Sys2Proof
end

