-- ==== Sys2Proof/Machine/State.lean ====
section
/-! DEFINITION. The state of the part, block by block (00_scope, Functional Blocks), as plain data, with
the queue of the commands that wait, and State.reset. -/

namespace Sys2Proof.Machine

open Sys2Proof

/-! ### Named sets -/

/-- Modes (R197). -/
inductive Mode where
  | OPEN | NIGHT | BATTERY | DORMANT
  deriving DecidableEq, Repr

/-- Base modes (R198). -/
inductive BaseMode where
  | OPEN | NIGHT
  deriving DecidableEq, Repr

/-- Reset causes (R201). -/
inductive ResetCause where
  | POWER_ON | BROWNOUT | HOST_RESTART
  deriving DecidableEq, Repr

/-- Start-up phases (R202); none of them is `none` of the option that holds them. -/
inductive Phase where
  | ENUMERATE | AUDIT | RECONCILE
  deriving DecidableEq, Repr

/-- Compartment states (R1). -/
inductive CompState where
  | FREE | RESERVED | DEPOSITING | LOADED | RETURN_LOADED | OUT_OF_SERVICE
  deriving DecidableEq, Repr

/-- Purposes of operations (R68). The cycle purpose `none` of R1 is `none` of an option. -/
inductive Purpose where
  | DEPOSIT | RETURN_DROP | COLLECT | SWEEP | SERVICE_OPEN | SERVICE_REMOVE
  deriving DecidableEq, Repr

/-- Stages of an operation (chapter 4). -/
inductive Stage where
  | AWAIT_PAYMENT | QUEUED | STRIKING | AWAIT_OPEN | OPEN | AWAIT_CONFIRM
  deriving DecidableEq, Repr

/-- Outcomes (R84). -/
inductive CycleOutcome where
  | COMPLETED | LEFT_OCCUPIED | LEFT_EMPTY | NOT_OPENED | UNCONFIRMED | STRIKE_FAILED | NO_POWER
  | ABORTED_LINK | CANCELLED | HELD | PAYMENT_DECLINED | PAYMENT_TIMEOUT | READER_OFFLINE | RECOVERED
  deriving DecidableEq, Repr

/-- Parcel kinds (R5). -/
inductive ParcelKind where
  | DELIVERY | RETURN
  deriving DecidableEq, Repr

/-- Fault causes (R1, R19), by name. -/
inductive Cause where
  | FORCED | MAP_CHECK | OCCUPANCY_MISMATCH | AUDIT_REQUIRED | OPEN_AT_START
  deriving DecidableEq, Repr

/-- A set of fault causes (R19): a mark for each cause. -/
structure Causes where
  forced        : Bool := false
  mapCheck      : Bool := false
  mismatch      : Bool := false
  auditRequired : Bool := false
  openAtStart   : Bool := false
  deriving DecidableEq, Repr

/-- Courier stations (R173): K1 is station 5, K2 station 6. -/
inductive Courier where
  | K1 | K2
  deriving DecidableEq, Repr

/-- Section modes (R29). -/
inductive SectMode where
  | DIRECT | MAPPED
  deriving DecidableEq, Repr

/-- Directory slot states (R48). -/
inductive SlotState where
  | EMPTY | NEW | PRESENT | OFFLINE | CONFLICT
  deriving DecidableEq, Repr

/-- Reader states (R151). -/
inductive ReaderState where
  | OFFLINE | IDLE | CHARGING | ABANDONING | REVERSING
  deriving DecidableEq, Repr

/-- Fault capture kinds (R65). -/
inductive FaultKind where
  | NO_RESPONSE | NO_CHANNEL | DONE_MISSING | MAP_CHECK | CONFLICT
  deriving DecidableEq, Repr

/-- Tag filters (R173). -/
inductive TagFilter where
  | OVERDUE | RETURNS
  deriving DecidableEq, Repr

/-! ### Compartment Table (R1 to R5) -/

/-- Reservation record (R4). -/
structure Reservation where
  carrier : Nat
  ref     : Nat
  expiry  : Nat
  deriving DecidableEq, Repr

/-- Prior state of a pending parcel (R5, R7). -/
inductive Prior where
  | free
  | reserved (r : Reservation)
  deriving DecidableEq, Repr

/-- Parcel record (R5).  `text` is the consignment reference of a DELIVERY and the label reference of a
RETURN. -/
structure Parcel where
  kind          : ParcelKind
  pending       : Bool
  carrier       : Nat
  text          : Text
  declared      : SizeClass
  page          : Option (Fin 4)
  depositMinute : Nat
  code          : Option Nat
  paid          : Nat
  paidThrough   : Option Nat
  chargeRef     : Option Nat
  chargeReader  : Option Nat
  overdue       : Bool
  unverified    : Bool
  retryUntil    : Option Nat
  prior         : Option Prior
  deriving DecidableEq, Repr

/-- Parcel identity (R5). -/
structure ParcelIdent where
  kind          : ParcelKind
  carrier       : Nat
  text          : Text
  depositMinute : Nat
  code          : Option Nat
  deriving DecidableEq, Repr

/-- Compartment record (R1). -/
structure Compartment where
  state       : CompState
  cls         : SizeClass
  sect        : Option (Fin 8)
  ownHold     : Bool
  causes      : Causes
  tagOwner    : Option Courier
  purpose     : Option Purpose
  hatchCount  : Nat
  reservation : Option Reservation
  parcel      : Option Parcel
  deriving DecidableEq, Repr

/-- Factory values of a compartment record (R2). -/
def Compartment.factory : Compartment where
  state := .FREE
  cls := .S
  sect := none
  ownHold := false
  causes := {}
  tagOwner := none
  purpose := none
  hatchCount := 0
  reservation := none
  parcel := none

/-! ### Section Resolver (R29, R31) -/

/-- Section record (R29). -/
structure Sect where
  first     : Nat
  count     : Nat
  cls       : SizeClass
  mode      : SectMode
  link      : Nat
  firstSlot : Nat
  stride    : Nat
  enabled   : Bool
  hold      : Bool
  deriving DecidableEq, Repr

/-- Factory values of a section record (R30). -/
def Sect.factory : Sect where
  first := 1
  count := 0
  cls := .S
  mode := .DIRECT
  link := 1
  firstSlot := 1
  stride := 4
  enabled := false
  hold := false

/-- A valid hatch map entry (R31); an invalid one is `none` of the option that holds it. -/
structure MapEntry where
  link    : Nat
  slot    : Nat
  channel : Nat
  check   : Nat
  deriving DecidableEq, Repr

/-! ### Column Link Engines (R45, R48, R59, R65) -/

/-- A STATUS as kept (R54). -/
structure BoardStat where
  readings   : List Reading
  strikeDone : Bool
  deriving DecidableEq, Repr

/-- Hatch memory of a channel (R45). -/
inductive HatchMem where
  | unknown | closed | opened
  deriving DecidableEq, Repr

/-- Directory entry of a slot (R48), with the slot's poll state, hatch memories and late-strike marks (R45). -/
structure Slot where
  state        : SlotState
  serial       : Option Nat
  chanCode     : Option Nat
  curCode      : Option Nat
  commissioned : Option Nat
  unanswered   : Nat
  lastStatus   : Option BoardStat
  hatch        : Vector HatchMem 16
  late         : Vector Bool 16
  deriving DecidableEq, Repr

/-- A slot after a restart with no commissioned serial (R45). -/
def Slot.empty : Slot where
  state := .EMPTY
  serial := none
  chanCode := none
  curCode := none
  commissioned := none
  unanswered := 0
  lastStatus := none
  hatch := Vector.replicate 16 .unknown
  late := Vector.replicate 16 false

/-- Strike in flight (R45, R59 to R63).  `ackMinute` is present from STRIKE_ACK on.  `durationRun`: the
strike duration has run since the acknowledgement.  `slotLost`: the slot left PRESENT after it.
`opEnded`: the operation ended while the strike went on.  `late`: it was acknowledged after its operation had ended, so
that the late-strike mark of its channel is its own (R63).  `hatchSeen`: hatch reading of the latest STATUS
since the acknowledgement. -/
structure Strike where
  job         : Nat
  comp        : Nat
  slot        : Nat
  channel     : Nat
  units       : Nat
  failed      : Nat
  duration    : Nat
  ackMinute   : Option Nat
  durationRun : Bool
  slotLost    : Bool
  opEnded     : Bool
  late        : Bool
  hatchSeen   : Option Bool
  deriving DecidableEq, Repr

/-- What the line of a link awaits (R46, R47, R49). -/
inductive LinkMsg where
  | rollCall
  | claim (winner : Nat)
  | poll (slot : Nat)
  | strike (slot channel duration comp : Nat)
  deriving DecidableEq, Repr

/-- The exchange that ended last on a link, as far as R47 asks; `step`: a step of the pass in progress, or of the last
where none is. -/
inductive LastExchange where
  | none | poll (slot : Nat) | step | other
  deriving DecidableEq, Repr

/-- Enumeration pass in progress (R45, R49): its kind, its round count and the BIND that is due. -/
structure Pass where
  full    : Bool
  rounds  : Nat
  bindDue : Option Nat
  deriving DecidableEq, Repr

/-- A column link (R45), with its priority and bulk queues (R71, jobs, oldest first).  `unbindDue`: the
UNBIND of a link reset has not been sent (R64).  `reported`: a full pass has been reported to the Supply
and Clock Unit in this ENUMERATE phase (R202). -/
structure Link where
  slots     : Vector Slot 8
  strike    : Option Strike
  pollTurn  : Option Nat
  line      : Option LinkMsg
  lastEnded : LastExchange
  enumPass  : Option Pass
  rollTimer : Bool
  unbindDue : Bool
  reported  : Bool
  prio      : List Nat
  bulk      : List Nat
  deriving DecidableEq, Repr

/-- A link after a restart with no commissioned serial, idle (R45). -/
def Link.empty : Link where
  slots := Vector.replicate 8 Slot.empty
  strike := none
  pollTurn := none
  line := none
  lastEnded := .none
  enumPass := none
  rollTimer := false
  unbindDue := false
  reported := false
  prio := []
  bulk := []

/-- The fault held by the fault capture record (R65). -/
structure CapturedFault where
  kind    : FaultKind
  link    : Nat
  slot    : Nat
  channel : Option Nat
  comp    : Option Nat
  minute  : Nat
  deriving DecidableEq, Repr

/-- Fault capture record and further-fault count (R65). -/
structure Capture where
  held    : Option CapturedFault
  further : Nat
  deriving DecidableEq, Repr

/-! ### Strike Supply Arbiter and Hatch Cycle Engine (R68, R73) -/

/-- Strike Supply Arbiter (R73). -/
structure Arbiter where
  capacity : Nat
  granted  : Nat
  turn     : Nat
  deriving DecidableEq, Repr

/-- Operation record (R68).  The timers hold the limit read when they started, in seconds (R82); the ajar
timer runs on from the first entry into OPEN (R79).  `faulted` and `refundNotIssued` are the end flags. -/
structure Op where
  job             : Nat
  purpose         : Purpose
  station         : Nat
  comp            : Nat
  link            : Nat
  slot            : Nat
  channel         : Nat
  units           : Nat
  stage           : Stage
  chargeRef       : Option Nat
  amount          : Option Nat
  opened          : Bool
  ajarPosted      : Bool
  openWait        : Option Nat
  ajar            : Option Nat
  confirm         : Option Nat
  faulted         : Bool
  refundNotIssued : Bool
  deriving DecidableEq, Repr

/-- Hatch Cycle Engine: the entries in use of the operation table, in order of creation (R68), and the job
number last assigned (R69). -/
structure Hce where
  ops     : List Op
  lastJob : Nat
  deriving DecidableEq, Repr

/-! ### Allocation Unit and Collection Gate (R91, R107, R110) -/

/-- Entry of the retired-code list (R107). -/
structure RetiredCode where
  code   : Nat
  minute : Nat
  deriving DecidableEq, Repr

/-- Allocation Unit: the retired-code list, oldest first (R107).  `draws` is the MODEL's own field: how
many draws the code generator has made, the argument of the free value Config.codeDraw. -/
structure Alloc where
  retired : List RetiredCode
  draws   : Nat
  deriving DecidableEq, Repr

/-- Collection Gate state of one customer station (R110). -/
structure Gate where
  wrong   : List Nat
  lockout : Option Nat
  deriving DecidableEq, Repr

/-! ### Tariff Store (R128, R129) -/

/-- Fields of a LOADED tariff page (R128). -/
structure Page where
  freeMin     : PerClass Nat
  periodCode  : Nat
  rate        : PerClass Nat
  dayCap      : PerClass Nat
  ceiling     : Nat
  unit        : Nat
  windowStart : Nat
  windowLen   : Nat
  grace       : Nat
  overdueMin  : Nat
  returnFee   : PerClass Nat
  deriving DecidableEq, Repr

/-- Scheduled switch (R129). -/
structure Switch where
  page   : Fin 4
  minute : Nat
  deriving DecidableEq, Repr

/-- Tariff Store: the pages, EMPTY ones `none`, the active page, the scheduled switch and the reference
counts (R128, R129). -/
structure Tariff where
  pages     : Vector (Option Page) 4
  active    : Fin 4
  scheduled : Option Switch
  refs      : Vector Nat 4
  deriving DecidableEq, Repr

/-! ### Payment Bus Controller (R148, R149, R152, R161) -/

/-- Messages of the part on the payment bus (R149). -/
inductive BusMsg where
  | CHARGE (ref amount : Nat)
  | POLL
  | RESULT_ACK (ref : Nat)
  | ABANDON (ref : Nat)
  | REVERSE (ref amount : Nat)
  deriving DecidableEq, Repr

/-- Phases of a charge record (R152). -/
inductive ChargePhase where
  | OFFERED | TAKEN | ABANDON_DUE
  deriving DecidableEq, Repr

/-- Charge record (R152); `timeout` is the payment timeout read at the start, in seconds. -/
structure Charge where
  ref     : Nat
  amount  : Nat
  phase   : ChargePhase
  job     : Option Nat
  comp    : Nat
  ident   : ParcelIdent
  timeout : Option Nat
  offer   : Bool
  deriving DecidableEq, Repr

/-- Poll timer of a reader (R148, R150). -/
inductive PollTimer where
  | stopped | running | expired
  deriving DecidableEq, Repr

/-- State of one reader (R148). -/
structure Reader where
  state       : ReaderState
  outgoing    : List BusMsg
  unanswered  : Nat
  lastSettled : Option Nat
  pollTimer   : PollTimer
  charge      : Option Charge
  deriving DecidableEq, Repr

/-- A reader after a restart with no charge record (R148). -/
def Reader.empty : Reader where
  state := .OFFLINE
  outgoing := []
  unanswered := 0
  lastSettled := none
  pollTimer := .stopped
  charge := none

/-- Origin of a reversal (R161). -/
inductive Origin where
  | job (j : Nat)
  | LATE_RESULT
  | RECOVERED
  deriving DecidableEq, Repr

/-- Reversal entry (R161). -/
structure Reversal where
  ref    : Nat
  amount : Nat
  reader : Nat
  comp   : Nat
  origin : Origin
  deriving DecidableEq, Repr

/-- Payment Bus Controller (R148 to R161).  `line` is the message that awaits its answer and its reader;
`retry` the message to send again (R150, step 1); `lastReader` the reader of the last exchange, 0 when
there was none. -/
structure Pbc where
  readers    : Vector Reader 4
  reversals  : List Reversal
  refCounter : Nat
  line       : Option (Nat × BusMsg)
  retry      : Option (Nat × BusMsg)
  lastReader : Nat
  deriving DecidableEq, Repr

/-! ### Sweep Unit (R173) -/

/-- Entry of a tag list or of a run's pending list (R173). -/
structure TagEntry where
  comp    : Nat
  filter  : TagFilter
  carrier : Nat
  deriving DecidableEq, Repr

/-- RUNNING sweep run (R173); an IDLE one is `none` of the option that holds it. -/
structure Run where
  job          : Nat
  pending      : List TagEntry
  completed    : Nat
  leftOccupied : Nat
  notOpened    : Nat
  cancelled    : Nat
  skipped      : Nat
  unpaid       : Nat
  deriving DecidableEq, Repr

/-- Sweep Unit state of one courier station (R173). -/
structure SweepSide where
  tags : List TagEntry
  run  : Option Run
  deriving DecidableEq, Repr

/-- Sweep Unit: the two courier stations (R173). -/
structure Swu where
  k1 : SweepSide
  k2 : SweepSide
  deriving DecidableEq, Repr

/-! ### Supply and Clock Unit (R196, R203, R205) -/

/-- CONFIG values (R205). -/
structure ConfigVals where
  retryLimit  : Nat
  strikeMs    : PerClass Nat
  openWait    : Nat
  ajar        : PerClass Nat
  payTimeout  : Nat
  walkUp      : PerClass Nat
  deriving DecidableEq, Repr

/-- Defaults of the CONFIG values, their factory values (R205). -/
def ConfigVals.factory : ConfigVals where
  retryLimit := 3
  strikeMs := { S := 400, M := 500, L := 700, XL := 900 }
  openWait := 20
  ajar := { S := 120, M := 120, L := 180, XL := 240 }
  payTimeout := 90
  walkUp := { S := 2, M := 2, L := 2, XL := 2 }

/-- Supply and Clock Unit (R196): the straps as read at the last restart, the levels of MAINS_GOOD and
BATTERY_LOW, and, in the AUDIT phase, the compartments still to be read, those unread from the start and
the audit limit (R203).  `restartDue`: RESTART has been answered and its restart follows (R201). -/
structure Scu where
  straps      : Straps
  mainsGood   : Bool
  batteryLow  : Bool
  mode        : Mode
  base        : BaseMode
  minute      : Nat
  persisted   : Nat
  wallOffset  : Nat
  timeGap     : Bool
  cause       : ResetCause
  phase       : Option Phase
  config      : ConfigVals
  auditWait   : List Nat
  auditUnread : List Nat
  auditTimer  : Bool
  restartDue  : Bool
  deriving DecidableEq, Repr

/-! ### Kiosk Link Interface (R184 to R194) -/

/-- Event kinds, in the order of their codes 1 to 18 (section 10.5). -/
inductive EventKind where
  | HATCH_OPENED | CYCLE_DONE | HATCH_AJAR | HATCH_FORCED | PARCEL_OVERDUE | PARCEL_SWEPT
  | RESERVATION_EXPIRED | SWEEP_DONE | PAYMENT_RESULT | LATE_RESULT | REVERSAL_DONE | REVERSAL_FAILED
  | BOARD_CHANGED | FAULT_CAPTURED | MODE_CHANGED | TARIFF_SWITCHED | TIME_GAP | STARTUP_DONE
  deriving DecidableEq, Repr

/-- Event classes (section 10.5, R192). -/
inductive EventClass where
  | HATCH | PARCEL | PAYMENT | EQUIPMENT | SYSTEM
  deriving DecidableEq, Repr

/-- The flags of item 26 (R190), in the order of their bits. -/
structure EventFlags where
  faulted         : Bool := false
  mismatch        : Bool := false
  unverified      : Bool := false
  refundNotIssued : Bool := false
  honoured        : Bool := false
  reversalQueued  : Bool := false
  unmatched       : Bool := false
  unsettled       : Bool := false
  lateStrike      : Bool := false
  paidUp          : Bool := false
  dwellClamped    : Bool := false
  dayCap          : Bool := false
  ceiling         : Bool := false
  rounded         : Bool := false
  fromLateResult  : Bool := false
  fromAudit       : Bool := false
  deriving DecidableEq, Repr

/-- The counts of item 25 (R190). -/
structure SweepCounts where
  completed    : Nat
  leftOccupied : Nat
  notOpened    : Nat
  cancelled    : Nat
  skipped      : Nat
  deriving DecidableEq, Repr

/-- Event record (R190): its kind, its bank minute and its items, each present or absent, in the order of
their ids.  Item 5 is `outcome` or, for payment events, `result`. -/
structure EventRec where
  kind       : EventKind
  minute     : Nat
  comp       : Option Nat := none
  station    : Option Nat := none
  job        : Option Nat := none
  purpose    : Option (Option Purpose) := none
  outcome    : Option CycleOutcome := none
  result     : Option PayResult := none
  parcelKind : Option ParcelKind := none
  carrier    : Option Nat := none
  text       : Option Text := none
  deposit    : Option Nat := none
  code       : Option Nat := none
  amount     : Option Nat := none
  paid       : Option Nat := none
  chargeRef  : Option Nat := none
  reader     : Option Nat := none
  causes     : Option Causes := none
  page       : Option (Fin 4) := none
  prevPage   : Option (Fin 4) := none
  mode       : Option Mode := none
  prevMode   : Option Mode := none
  link       : Option Nat := none
  slot       : Option Nat := none
  slotState  : Option SlotState := none
  serial     : Option Nat := none
  faultKind  : Option FaultKind := none
  counts     : Option SweepCounts := none
  flags      : Option EventFlags := none
  resRef     : Option Nat := none
  deriving DecidableEq, Repr

/-- An indication for each event class: the pending flags and the event mask (R192, R193). -/
structure ClassSet where
  hatch     : Bool
  parcel    : Bool
  payment   : Bool
  equipment : Bool
  system    : Bool
  deriving DecidableEq, Repr

/-- A checked request frame in the receive buffer (R184, R187). -/
structure RxFrame where
  station : Byte
  kind    : Byte
  tag     : Byte
  payload : List Byte
  deriving DecidableEq, Repr

/-- Reply statuses, numbered 0 to 23 (R189).  ALIAS_FOUND is the status ALIAS. -/
inductive Status where
  | OK | ACCEPTED | BUSY | NO_SPACE | NO_CODE | NOT_FOUND | BAD_CODE | LOCKED_OUT | FEE_DUE | HELD
  | FAULTED | CLOSED | NO_POWER | NO_READER | UNREACHABLE | MAP_FAULT | ALIAS_FOUND | WRONG_STATE
  | WRONG_STATION | KEY_OFF | IN_USE | STARTING | NOTHING_TAGGED | BAD_REQUEST
  deriving DecidableEq, Repr

/-- Quote record (R141). -/
structure Quote where
  due          : Nat
  total        : Nat
  paid         : Nat
  dwell        : Nat
  periods      : Nat
  closed       : Nat
  paidUp       : Bool
  dwellClamped : Bool
  dayCap       : Bool
  ceiling      : Bool
  rounded      : Bool
  deriving DecidableEq, Repr

/-- Ground of a zero due (R117). -/
inductive Ground where
  | RETRY_WINDOW | PAID_UP | quoted (q : Quote)
  deriving DecidableEq, Repr

/-- Items of the STATUS reply (R195). `mode` is `none` where STATUS shows STARTING. -/
structure StatusReply where
  mode       : Option Mode
  base       : BaseMode
  cause      : ResetCause
  phase      : Option Phase
  straps     : Straps
  minute     : Nat
  wallMinute : Nat
  timeGap    : Bool
  free       : PerClass Nat
  ops        : Nat
  queued     : Nat
  overflow   : Bool
  readers    : List ReaderState
  captured   : Bool
  deriving DecidableEq, Repr

/-- What READ_COMPARTMENT says of the section and its map entry (R30, R43). -/
structure SectReply where
  letter   : Fin 8
  first    : Nat
  count    : Nat
  mode     : SectMode
  enabled  : Bool
  hold     : Bool
  entry    : Option MapEntry
  matching : Bool
  deriving DecidableEq, Repr

/-- The READ_COMPARTMENT reply (R27). -/
structure CompReply where
  comp  : Compartment
  held  : Bool
  sect  : Option SectReply
  op    : Option (Nat × Purpose × Stage)
  deriving DecidableEq, Repr

/-- One match of the FIND_PARCEL reply (R28, R146). -/
structure FoundParcel where
  comp       : Nat
  kind       : ParcelKind
  pending    : Bool
  unverified : Bool
  overdue    : Bool
  deriving DecidableEq, Repr

/-- A slot in the LIST_BOARDS reply (R67). -/
structure SlotReply where
  state        : SlotState
  serial       : Option Nat
  commissioned : Option Nat
  channels     : Option Nat
  units        : Option Nat
  unanswered   : Nat
  deriving DecidableEq, Repr

/-- A link in the LIST_BOARDS reply (R67). `pass` is present while a pass runs and says whether it is full. -/
structure LinkReply where
  pass      : Option Bool
  rollTimer : Bool
  striking  : Option Nat
  slots     : List SlotReply
  deriving DecidableEq, Repr

/-- How a RETURN_DROP came to be accepted (R170): paid, with amount and charge reference, or unpaid, with
whether it was prepaid (else it was priced at 0). -/
inductive DropFee where
  | charged (amount ref : Nat)
  | unpaid (prepaid : Bool)
  deriving DecidableEq, Repr

/-- The fields of a reply after its status byte, by the rule that names them. -/
inductive ReplyBody where
  | empty
  | statusOf (r : StatusReply)                                              -- R195
  | events (recs : List EventRec) (left : Nat) (overflow : Bool)            -- R194
  | mask (m : ClassSet)                                                     -- R193
  | wall (offset wallMinute : Nat)                                          -- R199
  | advanced (added minute : Nat)                                           -- R200
  | modes (base : BaseMode) (mode : Mode)                                   -- R198
  | quoted (comp : Nat) (page : Fin 4) (declared : SizeClass) (pending : Bool)
      (paidThrough retryUntil : Option Nat) (q : Quote)                     -- R143
  | compartment (r : CompReply)                                             -- R27
  | found (total : Nat) (first : List FoundParcel)                          -- R28
  | holds (first : Nat) (held : List Bool)                                  -- R18
  | boards (links : List LinkReply)                                         -- R67
  | capture (c : Capture)                                                   -- R66
  | lockedOut (minutes : Nat)                                               -- R111
  | badCode (entries : Nat)                                                 -- R113
  | badCodeLocked (minutes : Nat)                                           -- R113
  | feeDue (q : Quote)                                                      -- R116
  | collecting (job comp : Nat) (cls : SizeClass) (g : Ground)              -- R117
  | paying (job comp : Nat) (cls : SizeClass) (amount ref : Nat) (q : Quote)  -- R120
  | noTariff                                                                -- R168
  | dropping (job comp : Nat) (cls : SizeClass) (upsized : Bool) (f : DropFee)  -- R170
  | noSpaceDrop (free : Nat)                                                -- R169
  | noSpaceReserve (free reserve : Nat)                                     -- R95
  | noSpaceDeposit (free reserve : Nat) (lapsed : Bool)                     -- R99
  | reserved (comps : List Nat) (cls : SizeClass) (expiry : Nat)            -- R95
  | released (freed cleared : Nat)                                          -- R97
  | depositing (job comp : Nat) (cls : SizeClass) (reserved upsized lapsed : Bool)  -- R103
  | tagged (added skipped : Nat)                                            -- R175
  | tagStopped (added skipped comp : Nat)                                   -- R175
  | untagged (left : Nat)                                                   -- R176
  | sweeping (job moved made dropped : Nat)                                 -- R179
  | sweepCancelled (dropped ended running : Nat)                            -- R183
  | servicing (job : Nat)                                                   -- R21
  | causes (c : Causes)                                                     -- R20
  | holdEnded (ended : Nat)                                                 -- R15, R16
  | stillHeld (b : Bool)                                                    -- R17
  | ownHolds (n : Nat)                                                      -- R17
  | overlaps (other : Fin 8)                                                -- R38
  | collides (comp other : Nat)                                             -- R42
  | mapEntry (e : Option MapEntry)                                          -- R41
  | accepted (marked : Nat)                                                 -- R53
  | linkEnded (ended : Nat)                                                 -- R64
  | pageStored (p : Page) (clamped : Bool) (refs : Nat)                     -- R130, R132
  | pageInUse (active scheduled referenced : Bool) (refs : Nat)             -- R131
  | switchCancelled (removed : Option Switch) (refs : Nat)                  -- R133
  | switchStored (w : Switch) (refs : Nat)                                  -- R133
  | switched (old new : Fin 4) (refs : Nat)                                 -- R133
  | configStored (c : ConfigVals) (clamped : Bool)                          -- R205
  deriving DecidableEq, Repr

/-- A reply frame (R184, R186). -/
structure Reply where
  station : Byte
  kind    : Byte
  tag     : Byte
  status  : Status
  body    : ReplyBody
  deriving DecidableEq, Repr

/-- Kiosk Link Interface (R187, R191, R192): the bytes of the frame being received, the complete frames
that wait, the reply formed last, the event queue, the pending flags, the overflow flag, the event mask,
the ATTENTION output (true: asserted) and the SERVICE_KEY input as last read. -/
structure Kli where
  partialRx : List Byte
  rx        : List RxFrame
  reply     : Option Reply
  queue     : List EventRec
  pendingFl : ClassSet
  overflow  : Bool
  mask      : ClassSet
  attention : Bool
  keyOn     : Bool
  deriving DecidableEq, Repr

/-! ### The whole part -/

/-- The state of the part: its blocks, and the queue of the commands that wait, first in first out. -/
structure State where
  comps    : Vector Compartment 240
  sects    : Vector Sect 8
  hatchMap : Vector (Option MapEntry) 240
  links    : Vector Link 4
  capture  : Capture
  arb      : Arbiter
  hce      : Hce
  alloc    : Alloc
  gates    : Vector Gate 4
  tariff   : Tariff
  pbc      : Pbc
  swu      : Swu
  scu      : Scu
  kli      : Kli
  pending  : List Instr
  deriving DecidableEq, Repr

/-- Reasons to stop with a fault.  The manual gives the part none: every command ends in a next state. -/
inductive Fault where
  deriving DecidableEq, Repr

/-- Reasons to refuse a command. -/
inductive Refusal where
  /-- Raised by exec's arm of a command that has no meaning yet; safe (the machine stops). No arm is left. -/
  | notModelled (mnemonic : String)
  deriving DecidableEq, Repr

/-- Straps of the model's reset state: the manual fixes no value (DESIGN CHOICE, log entry 1). -/
def Straps.atReset : Straps where
  mains := .u24
  links := .four
  readers := 4

/-- No class set (R191), every class set (R193). -/
def ClassSet.none : ClassSet where
  hatch := false
  parcel := false
  payment := false
  equipment := false
  system := false

/-- Every class set (R193). -/
def ClassSet.all : ClassSet where
  hatch := true
  parcel := true
  payment := true
  equipment := true
  system := true

/-- The part right after its first restart from the factory state (R2, R30, R45, R68, R73, R91, R110, R129,
R148, R173, R191, R193, R196): every retained item at its factory value, every other item as a restart
leaves it, the ENUMERATE phase begun.  Straps, input levels, a running clock cell and the cause POWER_ON
are the model's choice (log entries 1 and 2). -/
def State.reset : State where
  comps := Vector.replicate 240 Compartment.factory
  sects := Vector.replicate 8 Sect.factory
  hatchMap := Vector.replicate 240 none
  links := Vector.replicate 4 { Link.empty with enumPass := some { full := true, rounds := 0, bindDue := none } }
  capture := { held := none, further := 0 }
  arb := { capacity := 24, granted := 0, turn := 1 }
  hce := { ops := [], lastJob := 0 }
  alloc := { retired := [], draws := 0 }
  gates := Vector.replicate 4 { wrong := [], lockout := none }
  tariff := {
    pages := Vector.replicate 4 none
    active := 0
    scheduled := none
    refs := Vector.replicate 4 0 }
  pbc := {
    readers := Vector.replicate 4 Reader.empty
    reversals := []
    refCounter := 0
    line := none
    retry := none
    lastReader := 0 }
  swu := { k1 := { tags := [], run := none }, k2 := { tags := [], run := none } }
  scu := {
    straps := Straps.atReset
    mainsGood := true
    batteryLow := false
    mode := .OPEN
    base := .OPEN
    minute := 0
    persisted := 0
    wallOffset := 0
    timeGap := false
    cause := .POWER_ON
    phase := some .ENUMERATE
    config := ConfigVals.factory
    auditWait := []
    auditUnread := []
    auditTimer := false
    restartDue := false }
  kli := {
    partialRx := []
    rx := []
    reply := none
    queue := []
    pendingFl := ClassSet.none
    overflow := false
    mask := ClassSet.all
    attention := false
    keyOn := false }
  pending := []

end Sys2Proof.Machine
end

