-- ==== Sys2Proof/Machine/Ops.lean ====
section
/-! DEFINITION. The named operations over the state: block updates, numbered tables, and the reads and
writes every family of commands shares. -/

namespace Sys2Proof

/-- Units of the mains strap (R73). -/
def MainsStrap.units : MainsStrap → Nat
  | .u16 => 16
  | .u24 => 24
  | .u32 => 32

/-- Links fitted by the strap (R45). -/
def LinkStrap.count : LinkStrap → Nat
  | .two => 2
  | .four => 4

/-- Place of a class in the order S < M < L < XL. -/
def SizeClass.rank : SizeClass → Nat
  | .S => 0
  | .M => 1
  | .L => 2
  | .XL => 3

/-- The classes larger than `c`, smallest first. -/
def SizeClass.larger : SizeClass → List SizeClass
  | .S => [.M, .L, .XL]
  | .M => [.L, .XL]
  | .L => [.XL]
  | .XL => []

/-- The value of a class. -/
def PerClass.get {α : Type} (p : PerClass α) : SizeClass → α
  | .S => p.S
  | .M => p.M
  | .L => p.L
  | .XL => p.XL

/-- A value for each class. -/
def PerClass.map {α β : Type} (p : PerClass α) (f : α → β) : PerClass β :=
  { S := f p.S, M := f p.M, L := f p.L, XL := f p.XL }

end Sys2Proof

namespace Sys2Proof.Machine

open Sys2Proof

/-! ### Block updates -/

/-- The state with its comps block changed by `f`. -/
def State.updComps (s : State) (f : Vector Compartment 240 → Vector Compartment 240) : State := { s with comps := f s.comps }

/-- The state with its sects block changed by `f`. -/
def State.updSects (s : State) (f : Vector Sect 8 → Vector Sect 8) : State := { s with sects := f s.sects }

/-- The state with its hatchMap block changed by `f`. -/
def State.updHatchMap (s : State) (f : Vector (Option MapEntry) 240 → Vector (Option MapEntry) 240) : State := { s with hatchMap := f s.hatchMap }

/-- The state with its links block changed by `f`. -/
def State.updLinks (s : State) (f : Vector Link 4 → Vector Link 4) : State := { s with links := f s.links }

/-- The state with its capture block changed by `f`. -/
def State.updCapture (s : State) (f : Capture → Capture) : State := { s with capture := f s.capture }

/-- The state with its arb block changed by `f`. -/
def State.updArb (s : State) (f : Arbiter → Arbiter) : State := { s with arb := f s.arb }

/-- The state with its hce block changed by `f`. -/
def State.updHce (s : State) (f : Hce → Hce) : State := { s with hce := f s.hce }

/-- The state with its alloc block changed by `f`. -/
def State.updAlloc (s : State) (f : Alloc → Alloc) : State := { s with alloc := f s.alloc }

/-- The state with its gates block changed by `f`. -/
def State.updGates (s : State) (f : Vector Gate 4 → Vector Gate 4) : State := { s with gates := f s.gates }

/-- The state with its tariff block changed by `f`. -/
def State.updTariff (s : State) (f : Tariff → Tariff) : State := { s with tariff := f s.tariff }

/-- The state with its pbc block changed by `f`. -/
def State.updPbc (s : State) (f : Pbc → Pbc) : State := { s with pbc := f s.pbc }

/-- The state with its swu block changed by `f`. -/
def State.updSwu (s : State) (f : Swu → Swu) : State := { s with swu := f s.swu }

/-- The state with its scu block changed by `f`. -/
def State.updScu (s : State) (f : Scu → Scu) : State := { s with scu := f s.scu }

/-- The state with its kli block changed by `f`. -/
def State.updKli (s : State) (f : Kli → Kli) : State := { s with kli := f s.kli }

/-! ### Numbered tables: entries 1 to n, as the manual numbers them -/

/-- Entry `i` of a table numbered from 1; `d` for a number outside it. -/
def tget {α : Type} {n : Nat} (v : Vector α n) (d : α) : Nat → α
  | 0 => d
  | k + 1 => v[k]?.getD d

/-- The table with entry `i` written; unchanged for a number outside it. -/
def tput {α : Type} {n : Nat} (v : Vector α n) (i : Nat) (x : α) : Vector α n :=
  match i with
  | 0 => v
  | k + 1 => v.setIfInBounds k x

/-- The compartment numbers, ascending (R1). -/
def compNos : List Nat := List.range' 1 240

/-! ### Time, classes, straps, mode -/

/-- A bank minute and a number of minutes, held at the counter's greatest value (R199). -/
def addMin (a b : Nat) : Nat := min (a + b) Config.max32

/-- `x` clamped to the range lo to hi (00_scope, Numbers). -/
def clamp (lo hi x : Nat) : Nat := if x < lo then lo else if hi < x then hi else x

/-- The bank minute now. -/
def State.now (s : State) : Nat := s.scu.minute

/-- The wall minute of a bank minute (R199).  The sum is formed without the limit that R199 sets to sums of a bank
minute and a number of minutes (DESIGN CHOICE, log entry 47). -/
def State.wallMinute (s : State) : Nat := (s.now + s.scu.wallOffset) % 1440

/-- A start-up phase runs (R202). -/
def State.starting (s : State) : Bool := s.scu.phase.isSome

/-- The mode is OPEN or NIGHT. -/
def Mode.onMains : Mode → Bool
  | .OPEN | .NIGHT => true
  | .BATTERY | .DORMANT => false

/-- The mode a base mode is (R197). -/
def BaseMode.toMode : BaseMode → Mode
  | .OPEN => .OPEN
  | .NIGHT => .NIGHT

/-- Capacity of the strike supply in a mode (R73). -/
def capacityOf (st : Straps) : Mode → Nat
  | .OPEN | .NIGHT => st.mains.units
  | .BATTERY => 8
  | .DORMANT => 0

/-- Number of links fitted (R45). -/
def State.numLinks (s : State) : Nat := s.scu.straps.links.count

/-- The fitted links, ascending. -/
def State.linkNos (s : State) : List Nat := List.range' 1 s.numLinks

/-- Link `l` is fitted (R45). -/
def State.linkFitted (s : State) (l : Nat) : Bool := decide (1 ≤ l ∧ l ≤ s.numLinks)

/-- Reader `r` is fitted (R148). -/
def State.readerFitted (s : State) (r : Nat) : Bool := decide (1 ≤ r ∧ r ≤ s.scu.straps.readers.val)

/-! ### Sets of fault causes (R19) -/

/-- The set holds the cause. -/
def Causes.has (c : Causes) : Cause → Bool
  | .FORCED => c.forced
  | .MAP_CHECK => c.mapCheck
  | .OCCUPANCY_MISMATCH => c.mismatch
  | .AUDIT_REQUIRED => c.auditRequired
  | .OPEN_AT_START => c.openAtStart

/-- The set with the cause in it. -/
def Causes.add (c : Causes) : Cause → Causes
  | .FORCED => { c with forced := true }
  | .MAP_CHECK => { c with mapCheck := true }
  | .OCCUPANCY_MISMATCH => { c with mismatch := true }
  | .AUDIT_REQUIRED => { c with auditRequired := true }
  | .OPEN_AT_START => { c with openAtStart := true }

/-- The set is empty. -/
def Causes.isEmpty (c : Causes) : Bool :=
  !(c.forced || c.mapCheck || c.mismatch || c.auditRequired || c.openAtStart)

/-! ### Compartments, sections, map entries -/

/-- Compartment record `n`; the factory record for a number outside 1 to 240, which no rule reads. -/
def State.comp (s : State) (n : Nat) : Compartment := tget s.comps Compartment.factory n

/-- Compartment record `n` changed by `f`. -/
def State.updComp (s : State) (n : Nat) (f : Compartment → Compartment) : State :=
  s.updComps fun v => tput v n (f (tget v Compartment.factory n))

/-- The parcel record of compartment `n` changed by `f`, if there is one. -/
def State.updParcel (s : State) (n : Nat) (f : Parcel → Parcel) : State :=
  s.updComp n fun c => { c with parcel := c.parcel.map f }

/-- Section record of a letter (R29). -/
def State.sect (s : State) (i : Fin 8) : Sect := s.sects[i]

/-- Section record changed by `f`. -/
def State.updSect (s : State) (i : Fin 8) (f : Sect → Sect) : State :=
  s.updSects fun v => v.set i (f v[i])

/-- Hatch map entry of compartment `n`, if valid (R31). -/
def State.mapEntry (s : State) (n : Nat) : Option MapEntry := tget s.hatchMap none n

/-- Hatch map entry of compartment `n` written. -/
def State.setMapEntry (s : State) (n : Nat) (e : Option MapEntry) : State :=
  s.updHatchMap fun v => tput v n e

/-- Compartments a section covers, ascending (R29). -/
def Sect.covers (x : Sect) : List Nat := List.range' x.first x.count

/-- The section covers compartment `n`. -/
def Sect.coversNo (x : Sect) (n : Nat) : Bool := decide (x.first ≤ n ∧ n < x.first + x.count)

/-- Compartments whose section field names the section, ascending. -/
def State.compsOf (s : State) (i : Fin 8) : List Nat :=
  compNos.filter fun n => decide ((s.comp n).sect = some i)

/-- The hold flag of the compartment's section is set (R13). -/
def State.sectHeld (s : State) (c : Compartment) : Bool :=
  match c.sect with
  | some i => (s.sect i).hold
  | none => false

/-- The compartment is held (R13). -/
def State.heldRec (s : State) (c : Compartment) : Bool := c.ownHold || s.sectHeld c

/-- Compartment `n` is held (R13). -/
def State.held (s : State) (n : Nat) : Bool := s.heldRec (s.comp n)

/-- The compartment lies in an enabled section. -/
def State.enabledRec (s : State) (c : Compartment) : Bool :=
  match c.sect with
  | some i => (s.sect i).enabled
  | none => false

/-- The compartment is counted in the FREE count of its class (R9). -/
def State.freeCounted (s : State) (c : Compartment) : Bool :=
  decide (c.state = .FREE) && !s.heldRec c && c.causes.isEmpty && s.enabledRec c

/-- FREE count of a class (R9). -/
def State.freeCount (s : State) (k : SizeClass) : Nat :=
  (s.comps.toList.filter fun c => decide (c.cls = k) && s.freeCounted c).length

/-- The four FREE counts (R9). -/
def State.freeCounts (s : State) : PerClass Nat :=
  { S := s.freeCount .S, M := s.freeCount .M, L := s.freeCount .L, XL := s.freeCount .XL }

/-- A cause joins the set of compartment `n`; the operation it may end is ended by `addCause` (R19). -/
def State.markCause (s : State) (n : Nat) (c : Cause) : State :=
  s.updComp n fun r => { r with causes := r.causes.add c }

/-! ### Links and slots -/

/-- Link `l`, 1 to 4. -/
def State.link (s : State) (l : Nat) : Link := tget s.links Link.empty l

/-- Link `l` changed by `f`. -/
def State.updLink (s : State) (l : Nat) (f : Link → Link) : State :=
  s.updLinks fun v => tput v l (f (tget v Link.empty l))

/-- Directory entry of slot `k`, 1 to 8. -/
def Link.slotAt (x : Link) (k : Nat) : Slot := tget x.slots Slot.empty k

/-- Slot `k` of a link changed by `f`. -/
def Link.updSlot (x : Link) (k : Nat) (f : Slot → Slot) : Link :=
  { x with slots := tput x.slots k (f (x.slotAt k)) }

/-- Slot `k` of link `l`. -/
def State.slot (s : State) (l k : Nat) : Slot := (s.link l).slotAt k

/-- Slot `k` of link `l` changed by `f`. -/
def State.updSlot (s : State) (l k : Nat) (f : Slot → Slot) : State :=
  s.updLink l fun x => x.updSlot k f

/-- Slot numbers, ascending. -/
def slotNos : List Nat := List.range' 1 8

/-- Channel count of a channel code (R48). -/
def channelsOf (code : Nat) : Nat := 4 * (code + 1)

/-- Strike units of a current code (R48). -/
def unitsOf (code : Nat) : Nat := 2 * (code + 1)

/-- Channel count of the board in a slot, 0 where no codes are held. -/
def Slot.channels (x : Slot) : Nat :=
  match x.chanCode with
  | some c => channelsOf c
  | none => 0

/-- Strike units of the board in a slot, 0 where no codes are held. -/
def Slot.units (x : Slot) : Nat :=
  match x.curCode with
  | some c => unitsOf c
  | none => 0

/-! ### Operations -/

/-- The operation with a job number. -/
def State.opByJob (s : State) (job : Nat) : Option Op := s.hce.ops.find? fun o => o.job == job

/-- The operation on compartment `n` (R11: at most one). -/
def State.opOn (s : State) (n : Nat) : Option Op := s.hce.ops.find? fun o => o.comp == n

/-- Compartment `n` has an operation. -/
def State.hasOp (s : State) (n : Nat) : Bool := (s.opOn n).isSome

/-- The operation with a job number changed by `f`. -/
def State.updOp (s : State) (job : Nat) (f : Op → Op) : State :=
  s.updHce fun h => { h with ops := h.ops.map fun o => if o.job = job then f o else o }

/-- The entry of a job number freed (R85). -/
def State.removeOp (s : State) (job : Nat) : State :=
  s.updHce fun h => { h with ops := h.ops.filter fun o => o.job != job }

/-- Operations in ascending compartment number. -/
def opsByComp (l : List Op) : List Op := l.insertionSort fun a b => a.comp ≤ b.comp

/-- The purpose is SERVICE_OPEN or SERVICE_REMOVE. -/
def Purpose.isService : Purpose → Bool
  | .SERVICE_OPEN | .SERVICE_REMOVE => true
  | _ => false

/-- The stage is STRIKING or later. -/
def Stage.striking : Stage → Bool
  | .AWAIT_PAYMENT | .QUEUED => false
  | _ => true

/-- The first number after `last` in 1 to 65535, wrapping, that is not taken (R69, R152); `fuel` bounds the
numbers passed over. -/
def nextNumber (taken : List Nat) : Nat → Nat → Nat
  | 0, last => last % 65535 + 1
  | fuel + 1, last =>
    let n := last % 65535 + 1
    if taken.contains n then nextNumber taken fuel n else n

/-! ### Customer and courier stations -/

/-- Gate state of customer station `st`, 1 to 4. -/
def State.gate (s : State) (st : Nat) : Gate := tget s.gates { wrong := [], lockout := none } st

/-- Gate state of customer station `st` written. -/
def State.setGate (s : State) (st : Nat) (g : Gate) : State := s.updGates fun v => tput v st g

/-- Courier station of a station number. -/
def courierOf (st : Nat) : Option Courier :=
  match st with
  | 5 => some .K1
  | 6 => some .K2
  | _ => none

/-- Station number of a courier station. -/
def Courier.station : Courier → Nat
  | .K1 => 5
  | .K2 => 6

/-- The other courier station. -/
def Courier.other : Courier → Courier
  | .K1 => .K2
  | .K2 => .K1

/-- Sweep Unit state of a courier station. -/
def State.side (s : State) : Courier → SweepSide
  | .K1 => s.swu.k1
  | .K2 => s.swu.k2

/-- Sweep Unit state of a courier station changed by `f`. -/
def State.updSide (s : State) (c : Courier) (f : SweepSide → SweepSide) : State :=
  s.updSwu fun w =>
    match c with
    | .K1 => { w with k1 := f w.k1 }
    | .K2 => { w with k2 := f w.k2 }

/-- The sweep run of a courier station changed by `f`, if it is RUNNING. -/
def State.updRun (s : State) (c : Courier) (f : Run → Run) : State :=
  s.updSide c fun x => { x with run := x.run.map f }

/-- The job numbers taken: those of operations and of RUNNING sweep runs (R69, R179). -/
def State.jobsTaken (s : State) : List Nat :=
  s.hce.ops.map (·.job) ++ (s.swu.k1.run.map (·.job)).toList ++ (s.swu.k2.run.map (·.job)).toList

/-- The next job number (R69). -/
def State.nextJob (s : State) : Nat := nextNumber s.jobsTaken s.jobsTaken.length s.hce.lastJob

/-! ### Readers and tariff pages -/

/-- Reader `r`, 1 to 4. -/
def State.reader (s : State) (r : Nat) : Reader := tget s.pbc.readers Reader.empty r

/-- Reader `r` changed by `f`. -/
def State.updReader (s : State) (r : Nat) (f : Reader → Reader) : State :=
  s.updPbc fun p => { p with readers := tput p.readers r (f (tget p.readers Reader.empty r)) }

/-- The fitted readers, ascending (R148). -/
def State.readerNos (s : State) : List Nat := List.range' 1 s.scu.straps.readers.val

/-- A tariff page, if LOADED. -/
def State.page (s : State) (i : Fin 4) : Option Page := s.tariff.pages[i]

/-- Reference count of a page (R132). -/
def State.pageRefs (s : State) (i : Fin 4) : Nat := s.tariff.refs[i]

/-- Reference count of a page changed by `f` (R132). -/
def State.updRefs (s : State) (i : Fin 4) (f : Nat → Nat) : State :=
  s.updTariff fun t => { t with refs := t.refs.set i (f t.refs[i]) }

/-- Parcel identity (R5). -/
def Parcel.ident (p : Parcel) : ParcelIdent :=
  { kind := p.kind, carrier := p.carrier, text := p.text, depositMinute := p.depositMinute, code := p.code }

/-- The access codes of parcel records, pending or not: the live codes (R106). -/
def State.liveCodes (s : State) : List Nat :=
  s.comps.toList.filterMap fun c => c.parcel.bind (·.code)

end Sys2Proof.Machine
end

