-- ==== Sys2Proof/Machine/Flags.lean ====
section
/-! DEFINITION. The event queue with its class pending flags, the overflow flag, the event mask and the
ATTENTION output (R191 to R194), and the posting of events and of faults (R65). -/

namespace Sys2Proof.Machine

open Sys2Proof

/-- Class of an event kind (section 10.5). -/
def EventKind.cls : EventKind → EventClass
  | .HATCH_OPENED | .CYCLE_DONE | .HATCH_AJAR | .HATCH_FORCED => .HATCH
  | .PARCEL_OVERDUE | .PARCEL_SWEPT | .RESERVATION_EXPIRED | .SWEEP_DONE => .PARCEL
  | .PAYMENT_RESULT | .LATE_RESULT | .REVERSAL_DONE | .REVERSAL_FAILED => .PAYMENT
  | .BOARD_CHANGED | .FAULT_CAPTURED => .EQUIPMENT
  | .MODE_CHANGED | .TARIFF_SWITCHED | .TIME_GAP | .STARTUP_DONE => .SYSTEM

/-- The indication of a class. -/
def ClassSet.get (m : ClassSet) : EventClass → Bool
  | .HATCH => m.hatch
  | .PARCEL => m.parcel
  | .PAYMENT => m.payment
  | .EQUIPMENT => m.equipment
  | .SYSTEM => m.system

/-- The set with a class set. -/
def ClassSet.raise (m : ClassSet) : EventClass → ClassSet
  | .HATCH => { m with hatch := true }
  | .PARCEL => { m with parcel := true }
  | .PAYMENT => { m with payment := true }
  | .EQUIPMENT => { m with equipment := true }
  | .SYSTEM => { m with system := true }

/-- A class is set in both. -/
def ClassSet.meets (a b : ClassSet) : Bool :=
  (a.hatch && b.hatch) || (a.parcel && b.parcel) || (a.payment && b.payment)
    || (a.equipment && b.equipment) || (a.system && b.system)

/-- The queue holds a record of the class. -/
def queueHas (q : List EventRec) (c : EventClass) : Bool := q.any fun e => decide (e.kind.cls = c)

/-- The classes that stand in a queue (R192). -/
def ClassSet.ofQueue (q : List EventRec) : ClassSet :=
  { hatch := queueHas q .HATCH, parcel := queueHas q .PARCEL, payment := queueHas q .PAYMENT,
    equipment := queueHas q .EQUIPMENT, system := queueHas q .SYSTEM }

/-- The pending flags of the set that still have a record queued (R194). -/
def ClassSet.inter (a b : ClassSet) : ClassSet :=
  { hatch := a.hatch && b.hatch, parcel := a.parcel && b.parcel, payment := a.payment && b.payment,
    equipment := a.equipment && b.equipment, system := a.system && b.system }

/-- ATTENTION set by R192: asserted exactly when the overflow flag is set or an enabled class is pending. -/
def Kli.refresh (k : Kli) : Kli := { k with attention := k.overflow || k.mask.meets k.pendingFl }

/-- A record is posted (R191): it joins the tail and sets its class's pending flag, or, with the queue
full, is discarded and the overflow flag is set.  ATTENTION follows (R192). -/
def Kli.post (k : Kli) (e : EventRec) : Kli :=
  if k.queue.length < Config.queuePlaces then
    Kli.refresh { k with queue := k.queue ++ [e], pendingFl := k.pendingFl.raise e.kind.cls }
  else Kli.refresh { k with overflow := true }

/-- A record is posted (R191). -/
def State.post (s : State) (e : EventRec) : State := s.updKli fun k => k.post e

/-- Several records are posted in order. -/
def State.postAll (s : State) (es : List EventRec) : State := es.foldl State.post s

/-- An empty event record of a kind, posted now (R190). -/
def State.event (s : State) (k : EventKind) : EventRec := { kind := k, minute := s.now }

/-- The items a parcel identity travels as (R190). -/
def EventRec.withIdent (e : EventRec) (i : ParcelIdent) : EventRec :=
  { e with parcelKind := some i.kind, carrier := some i.carrier, text := some i.text,
           deposit := some i.depositMinute, code := i.code }

/-- The flags item, present when a flag is set (R190). -/
def EventRec.withFlags (e : EventRec) (f : EventFlags) : EventRec :=
  { e with flags := if f = {} then none else some f }

/-- A fault is reported (R65): it fills an empty capture record and posts FAULT_CAPTURED, or raises the
further-fault count, which stays at 255. -/
def State.reportFault (s : State) (kind : FaultKind) (link slot : Nat) (channel comp : Option Nat) : State :=
  match s.capture.held with
  | none =>
    (s.updCapture fun c =>
        { c with held := some { kind, link, slot, channel, comp, minute := s.now } }).post
      { s.event .FAULT_CAPTURED with faultKind := some kind, comp := comp }
  | some _ => s.updCapture fun c => { c with further := min (c.further + 1) 255 }

/-- BOARD_CHANGED is posted for a slot as it now stands (R48, R50, R51, R56). -/
def State.postBoardChanged (s : State) (l k : Nat) (serial : Option Nat) : State :=
  s.post { s.event .BOARD_CHANGED with link := some l, slot := some k,
                                        slotState := some (s.slot l k).state, serial := serial }

end Sys2Proof.Machine
end

