-- ==== Sys2Proof/Machine/Bus.lean ====
section
/-! DEFINITION. The Payment Bus Controller's shared operations: charges, the settling of a charge record,
abandons and reversals (R151 to R162). -/

namespace Sys2Proof.Machine

open Sys2Proof

/-! ### Outgoing lists -/

/-- The message is a CHARGE. -/
def BusMsg.isCharge : BusMsg → Bool
  | .CHARGE _ _ => true
  | _ => false

/-- The message is an ABANDON. -/
def BusMsg.isAbandon : BusMsg → Bool
  | .ABANDON _ => true
  | _ => false

/-- The message is a REVERSE. -/
def BusMsg.isReverse : BusMsg → Bool
  | .REVERSE _ _ => true
  | _ => false

/-- The message is a RESULT_ACK. -/
def BusMsg.isAck : BusMsg → Bool
  | .RESULT_ACK _ => true
  | _ => false

/-- The first occurrence of a message leaves the outgoing list (R150). -/
def Reader.unlist (x : Reader) (m : BusMsg) : Reader := { x with outgoing := x.outgoing.erase m }

/-- A message joins the tail of the outgoing list (R150). -/
def Reader.enlist (x : Reader) (m : BusMsg) : Reader := { x with outgoing := x.outgoing ++ [m] }

/-- A message falls due to a reader: it follows the RESULT_ACK, if one is due, and nothing else stands in the list (R150:
at most a RESULT_ACK followed by one of CHARGE, ABANDON and REVERSE). -/
def Reader.owe (x : Reader) (m : BusMsg) : Reader := { x with outgoing := x.outgoing.filter BusMsg.isAck ++ [m] }

/-- RESULT_ACK of a reference becomes the head of the outgoing list; the list holds one (R155, R160). -/
def Reader.ackFirst (x : Reader) (ref : Nat) : Reader :=
  { x with outgoing := .RESULT_ACK ref :: x.outgoing.filter fun m => !m.isAck }

/-! ### Reader states and reversals (R151, R161, R162) -/

/-- The oldest reversal entry naming a reader. -/
def State.oldestReversal (s : State) (r : Nat) : Option Reversal :=
  s.pbc.reversals.find? fun v => v.reader == r

/-- A REVERSE falls due to a reader: the one kept in its list, or that of the entry (R162, R164). -/
def Reader.oweReverse (x : Reader) (v : Reversal) : Reader :=
  x.owe ((x.outgoing.find? BusMsg.isReverse).getD (.REVERSE v.ref v.amount))

/-- A reader would become IDLE: it does, or it becomes REVERSING with the oldest entry naming it (R151). -/
def State.restReader (s : State) (r : Nat) : State :=
  match s.oldestReversal r with
  | some v => s.updReader r fun x => ({ x with state := .REVERSING }).oweReverse v
  | none => s.updReader r fun x => { x with state := .IDLE }

/-- A reversal is requested (R161): the entry joins the list and is taken at once by an IDLE reader, or,
with 8 entries held, nothing changes and the answer is false. -/
def State.queueReversal (s : State) (v : Reversal) : State × Bool :=
  if s.pbc.reversals.length < Config.reversalPlaces then
    let s1 := s.updPbc fun p => { p with reversals := p.reversals ++ [v] }
    if (s.reader v.reader).state = .IDLE then (s1.restReader v.reader, true) else (s1, true)
  else (s, false)

/-- The entry of a reference leaves the reversal list. -/
def State.dropReversal (s : State) (ref : Nat) : State :=
  s.updPbc fun p => { p with reversals := p.reversals.filter fun v => v.ref != ref }

/-- The items of an origin (R190). -/
def EventRec.withOrigin (e : EventRec) : Origin → EventRec
  | .job j => { e with job := some j }
  | .LATE_RESULT => e.withFlags { fromLateResult := true }
  | .RECOVERED => e.withFlags { fromAudit := true }

/-- The record of a reversal carried out or failed (R162, R166). -/
def State.reversalEvent (s : State) (k : EventKind) (v : Reversal) : EventRec :=
  ({ s.event k with chargeRef := some v.ref, amount := some v.amount, comp := some v.comp }).withOrigin v.origin

/-! ### Charge records (R152, R153) -/

/-- The references in use: of charge records, reversal entries, operations and approved RETURN parcels (R152). -/
def State.refsTaken (s : State) : List Nat :=
  s.pbc.readers.toList.filterMap (fun x => x.charge.map (·.ref))
    ++ s.pbc.reversals.map (·.ref)
    ++ s.hce.ops.filterMap (·.chargeRef)
    ++ s.comps.toList.filterMap (fun c =>
        c.parcel.bind fun p => if p.kind = .RETURN then p.chargeRef else none)

/-- The next charge reference (R152). -/
def State.nextRef (s : State) : Nat := nextNumber s.refsTaken s.refsTaken.length s.pbc.refCounter

/-- The charge reference leaves the parcel of compartment `n`, if that parcel holds it. -/
def State.dropParcelRef (s : State) (n ref : Nat) : State :=
  s.updParcel n fun p =>
    if p.chargeRef = some ref then { p with chargeRef := none, chargeReader := none } else p

/-- The charge record of a reader is dropped, and a CHARGE or ABANDON of it that is still due (R152). -/
def State.dropCharge (s : State) (r : Nat) : State :=
  s.updReader r fun x =>
    { x with charge := none, outgoing := x.outgoing.filter fun m => !(m.isCharge || m.isAbandon) }

/-- How the PBC refuses a charge on a reader (R153); OK when it takes it. -/
def State.readerTest (s : State) (r : Nat) : Status :=
  if s.readerFitted r = false then .NO_READER
  else
    match (s.reader r).state with
    | .OFFLINE => .NO_READER
    | .IDLE => .OK
    | .CHARGING | .ABANDONING | .REVERSING => .BUSY

/-- A charge is started (R153) for the operation `job` on compartment `n`, whose parcel is there already. -/
def State.startCharge (s : State) (r amount job n : Nat) : State :=
  let ref := s.nextRef
  match (s.comp n).parcel with
  | none => s
  | some p =>
    let rec0 : Charge :=
      { ref := ref, amount := amount, phase := .OFFERED, job := some job, comp := n, ident := p.ident,
        timeout := some s.scu.config.payTimeout, offer := false }
    let s1 := s.updPbc fun b => { b with refCounter := ref }
    let s2 := s1.updReader r fun x =>
      ({ x with charge := some rec0, state := .CHARGING }).owe (.CHARGE ref amount)
    let s3 := s2.updParcel n fun q =>
      { q with chargeRef := some ref, chargeReader := if q.kind = .RETURN then some r else none }
    s3.updOp job fun o => { o with chargeRef := some ref, amount := some amount }

/-- The record of a reader loses its operation and timeout and, unless the reader is known not to hold the
charge, becomes ABANDON_DUE with ABANDON to send (R156, R157). -/
def State.abandonCharge (s : State) (r : Nat) : State :=
  match (s.reader r).charge with
  | none => s
  | some c =>
    if c.phase = .OFFERED ∧ c.offer = false ∧ s.pbc.line ≠ some (r, .CHARGE c.ref c.amount) then
      ((s.dropCharge r).dropParcelRef c.comp c.ref).restReader r
    else
      s.updReader r fun x =>
        ({ x with charge := some { c with phase := .ABANDON_DUE, job := none, timeout := none },
                  state := .ABANDONING }).owe (.ABANDON c.ref)

/-- The reader whose charge record names an operation. -/
def State.readerOfJob (s : State) (job : Nat) : Option Nat :=
  (List.range' 1 4).find? fun r => (s.reader r).charge.any fun c => c.job == some job

/-- The Hatch Cycle Engine hands over a charge to abandon (R85, R157). -/
def State.abandonOf (s : State) (job : Nat) : State :=
  match s.readerOfJob job with
  | some r => s.abandonCharge r
  | none => s

end Sys2Proof.Machine
end

