-- ==== Sys2Proof/Machine/Fees.lean ====
section
/-! DEFINITION. The quote of a delivery parcel (R136 to R141) and the clamps of TARIFF_LOAD (R130). -/

namespace Sys2Proof.Machine

open Sys2Proof

/-- Minutes of a charging period (R128): 15 × 2^p. -/
def Page.period (p : Page) : Nat := 15 * 2 ^ p.periodCode

/-- The least multiple of `u` not less than `x` (R141). -/
def roundUp (u x : Nat) : Nat := if u = 0 then x else (x + u - 1) / u * u

/-- Dwell before the clamp (R137): 0 where it would be negative. -/
def dwellOf (deposit now : Nat) : Nat := now - deposit

/-- Periods started (R138). -/
def periodsStarted (free period dwell : Nat) : Nat :=
  if dwell ≤ free then 0 else (dwell - free + period - 1) / period

/-- Period starts, as dwell offsets (R138). -/
def periodStarts (free period n : Nat) : List Nat := (List.range n).map fun i => free + i * period

/-- A period that starts at dwell offset `x` is closed (R139). -/
def Page.closedAt (p : Page) (depositWall x : Nat) : Bool :=
  decide (0 < p.windowLen ∧
    ((depositWall + x) % 1440 + 1440 - p.windowStart % 1440) % 1440 < p.windowLen)

/-- Charge of day `d` before the cap (R140). -/
def dayCharge (rate : Nat) (openStarts : List Nat) (d : Nat) : Nat :=
  (openStarts.filter fun x => x / 1440 == d).length * rate

/-- Charge of a day under its cap, 0 meaning none (R140). -/
def capped (cap c : Nat) : Nat := if 0 < cap ∧ cap < c then cap else c

/-- The days of dwell that N periods reach (R139). -/
def dayNos (starts : List Nat) : List Nat :=
  match starts.getLast? with
  | none => []
  | some x => List.range (x / 1440 + 1)

/-- The quote of a parcel at `now` under a wall offset, on the page it names (R136 to R141).  The wall minute of its
deposit is a sum without the limit of R199 (DESIGN CHOICE, log entry 47). -/
def quoteOn (pg : Page) (offset now : Nat) (p : Parcel) : Quote :=
  let raw := dwellOf p.depositMinute now
  let clampedD := decide (Config.maxDwell < raw)
  let dwell := min raw Config.maxDwell
  if (match p.paidThrough with | some t => decide (now ≤ t) | none => false) then
    { due := 0, total := p.paid, paid := p.paid, dwell := dwell, periods := 0, closed := 0, paidUp := true,
      dwellClamped := clampedD, dayCap := false, ceiling := false, rounded := false }
  else
    let free := pg.freeMin.get p.declared
    let n := periodsStarted free pg.period dwell
    let starts := periodStarts free pg.period n
    let wall := (p.depositMinute + offset) % 1440
    let openStarts := starts.filter fun x => !pg.closedAt wall x
    let charges := (dayNos starts).map (dayCharge (pg.rate.get p.declared) openStarts)
    let cap := pg.dayCap.get p.declared
    let sum := (charges.map (capped cap)).sum
    let bounded := min sum pg.ceiling
    let total := roundUp pg.unit bounded
    { due := total - p.paid, total := total, paid := p.paid, dwell := dwell, periods := n,
      closed := n - openStarts.length, paidUp := decide (total ≤ p.paid), dwellClamped := clampedD,
      dayCap := charges.any fun c => decide (0 < cap ∧ cap < c),
      ceiling := decide (pg.ceiling < sum), rounded := decide (total ≠ bounded) }

/-- A page with every field 0: what a quote would read on an EMPTY page, which R136 says no parcel names. -/
def Page.zero : Page where
  freeMin := { S := 0, M := 0, L := 0, XL := 0 }
  periodCode := 0
  rate := { S := 0, M := 0, L := 0, XL := 0 }
  dayCap := { S := 0, M := 0, L := 0, XL := 0 }
  ceiling := 0
  unit := 1
  windowStart := 0
  windowLen := 0
  grace := 0
  overdueMin := 0
  returnFee := { S := 0, M := 0, L := 0, XL := 0 }

/-- The page a parcel names. -/
def State.parcelPage (s : State) (p : Parcel) : Page :=
  match p.page with
  | some i => (s.page i).getD Page.zero
  | none => Page.zero

/-- The quote of a parcel at an evaluation minute (R136). -/
def State.quoteAt (s : State) (now : Nat) (p : Parcel) : Quote :=
  quoteOn (s.parcelPage p) s.scu.wallOffset now p

/-- Rounding unit as stored (R130). -/
def clampUnit (x : Nat) : Nat :=
  if 100 ≤ x then 100 else if 50 ≤ x then 50 else if 10 ≤ x then 10 else if 5 ≤ x then 5 else 1

/-- The fields of TARIFF_LOAD as stored (R128, R130). -/
def Page.clamped (p : Page) : Page :=
  let u := clampUnit p.unit
  let c := min p.ceiling 500000
  { freeMin := p.freeMin.map (clamp 0 2880)
    periodCode := clamp 0 4 p.periodCode
    rate := p.rate.map (clamp 0 9999)
    dayCap := p.dayCap.map (clamp 0 50000)
    ceiling := c - c % u
    unit := u
    windowStart := clamp 0 1439 p.windowStart
    windowLen := clamp 0 720 p.windowLen
    grace := clamp 0 60 p.grace
    overdueMin := clamp 60 20160 p.overdueMin
    returnFee := p.returnFee.map (clamp 0 9999) }

/-- The CONFIG values as stored (R205). -/
def ConfigVals.clamped (c : ConfigVals) : ConfigVals :=
  { retryLimit := clamp 0 7 c.retryLimit
    strikeMs := c.strikeMs.map (clamp 200 1500)
    openWait := clamp 5 60 c.openWait
    ajar := c.ajar.map (clamp 30 900)
    payTimeout := clamp 30 180 c.payTimeout
    walkUp := c.walkUp.map (clamp 0 20) }

end Sys2Proof.Machine
end

