-- ==== Sys2Proof/Machine/Resolver.lean ====
section
/-! DEFINITION. The Section Resolver: check bytes, resolution, reverse resolution and the alias check
(R31 to R36, R42). -/

namespace Sys2Proof.Machine

open Sys2Proof

/-- A latch's place: link, slot and channel. -/
structure Addr where
  link    : Nat
  slot    : Nat
  channel : Nat
  deriving DecidableEq, Repr

/-- What a resolution returns (R32): an address with strike units, UNREACHABLE, or MAP_FAULT with the
address the stored entry names. -/
inductive Resolution where
  | ok (a : Addr) (units : Nat)
  | unreachable
  | mapFault (a : Addr)
  deriving DecidableEq, Repr

/-- The status of a failed resolution; OK for one that succeeds. -/
def Resolution.status : Resolution → Status
  | .ok _ _ => .OK
  | .unreachable => .UNREACHABLE
  | .mapFault _ => .MAP_FAULT

/-- The check byte of an entry for compartment `n` (R31). -/
def checkByte (n link slot channel : Nat) : Nat := (90 + n + 17 * link + 31 * slot + 7 * channel) % 256

/-- The entry's stored check byte is the one formed from it (R31, R33). -/
def MapEntry.matching (e : MapEntry) (n : Nat) : Bool := e.check == checkByte n e.link e.slot e.channel

/-- The address an entry names. -/
def MapEntry.addr (e : MapEntry) : Addr := { link := e.link, slot := e.slot, channel := e.channel }

/-- Address of compartment `n` in a DIRECT section (R32, step 3). -/
def Sect.directAddr (x : Sect) (n : Nat) : Addr :=
  let k := n - x.first
  { link := x.link, slot := x.firstSlot + k / x.stride, channel := k % x.stride }

/-- Step 3 of R32 by the stored numbers alone, without the check-byte comparison (R42, R53). -/
def State.namedAddr (s : State) (n : Nat) : Option Addr :=
  match (s.comp n).sect with
  | none => none
  | some i =>
    match (s.sect i).mode with
    | .DIRECT => some ((s.sect i).directAddr n)
    | .MAPPED => (s.mapEntry n).map MapEntry.addr

/-- Steps 1 to 3 of R32, with R33: the address, or how the resolution ends. -/
def State.located (s : State) (n : Nat) : Except Resolution Addr :=
  match (s.comp n).sect with
  | none => .error .unreachable
  | some i =>
    if (s.sect i).enabled = false then .error .unreachable
    else
      match (s.sect i).mode with
      | .DIRECT => .ok ((s.sect i).directAddr n)
      | .MAPPED =>
        match s.mapEntry n with
        | none => .error .unreachable
        | some e => if e.matching n then .ok e.addr else .error (.mapFault e.addr)

/-- Steps 4 to 7 of R32 on an address. -/
def State.reach (s : State) (a : Addr) : Resolution :=
  if s.linkFitted a.link = false then .unreachable
  else if (s.slot a.link a.slot).state ≠ .PRESENT then .unreachable
  else if (s.slot a.link a.slot).channels ≤ a.channel then .unreachable
  else .ok a (s.slot a.link a.slot).units

/-- The resolution of compartment `n` (R32), with no effect yet. -/
def State.resolution (s : State) (n : Nat) : Resolution :=
  match s.located n with
  | .error r => r
  | .ok a => s.reach a

/-- What a resolution that ends MAP_FAULT does (R34): MAP_CHECK joins the set, and the fault is reported.
The compartments that requests resolve have no operation that the cause could end (R19). -/
def State.mapFaultEffect (s : State) (n : Nat) (a : Addr) : State :=
  (s.markCause n .MAP_CHECK).reportFault .MAP_CHECK a.link a.slot (some a.channel) (some n)

/-- The state after a resolution of compartment `n` (R32, R34). -/
def State.afterResolve (s : State) (n : Nat) : State :=
  match s.resolution n with
  | .mapFault a => s.mapFaultEffect n a
  | _ => s

/-- Reverse resolution (R36): the compartment of an enabled section wired at a link, slot and channel. -/
def State.reverse (s : State) (a : Addr) : Option Nat :=
  if s.linkFitted a.link then
    compNos.find? fun n =>
      match s.located n with
      | .ok b => decide (b = a)
      | .error _ => false
  else none

/-! ### The alias check (R42) -/

/-- The compartments of enabled sections with the address each yields. -/
def State.aliasTable (s : State) : List (Nat × Addr) :=
  compNos.filterMap fun n =>
    if s.enabledRec (s.comp n) then (s.namedAddr n).map fun a => (n, a) else none

/-- The first of `ns` that shares its address with another compartment, with that compartment: the
lowest-numbered one where it shares it with several (DESIGN CHOICE, log entry 34). -/
def aliasAmong (table : List (Nat × Addr)) : List Nat → Option (Nat × Nat)
  | [] => none
  | n :: ns =>
    match table.find? fun e => e.1 == n with
    | none => aliasAmong table ns
    | some e =>
      match table.find? fun e' => e'.1 != n && decide (e'.2 = e.2) with
      | some e' => some (n, e'.1)
      | none => aliasAmong table ns

/-- The alias check on the configuration of `s` for a request that concerns the compartments `ns`: none
when it passes, else the first colliding compartment and the one it collides with.  Where two compartments
collide and none of `ns` does, the first pair of the whole table is named (DESIGN CHOICE, log entry 34). -/
def State.aliasCheck (s : State) (ns : List Nat) : Option (Nat × Nat) :=
  aliasAmong s.aliasTable (ns ++ compNos)

end Sys2Proof.Machine
end

