-- ==== Sys2Proof/Machine/Cycles.lean ====
section
/-! DEFINITION. The Hatch Cycle Engine, the Strike Supply Arbiter and the Sweep Unit's part in them: the
creation and the end of an operation, top-ups and ends of sweep runs, fault causes, holds, and the
arbitration pass (R7, R12, R15, R19, R25, R26, R68 to R90, R174, R178 to R182). -/

namespace Sys2Proof.Machine

open Sys2Proof

/-! ### Compartment changes: confirmation, retirement, undo -/

/-- A pending parcel is confirmed (R12): at UNCONFIRMED and at the audit with the unverified flag set. -/
def State.confirmParcel (s : State) (n : Nat) (unver : Bool) : State :=
  match (s.comp n).parcel with
  | none => s
  | some p =>
    s.updComp n fun c =>
      { c with state := (match p.kind with | .DELIVERY => .LOADED | .RETURN => .RETURN_LOADED)
               parcel := some { p with pending := false, depositMinute := s.now, prior := none,
                                       unverified := unver || p.unverified } }

/-- A code joins the retired-code list, which drops its head at 128 entries (R107). -/
def Alloc.retire (a : Alloc) (code now : Nat) : Alloc :=
  let kept := if a.retired.length < Config.retiredPlaces then a.retired else a.retired.drop 1
  { a with retired := kept ++ [{ code := code, minute := now }] }

/-- The page a parcel names loses a reference (R132). -/
def State.releasePage (s : State) (p : Parcel) : State :=
  match p.page with
  | some i => s.updRefs i (· - 1)
  | none => s

/-- Retirement of the parcel of compartment `n` (R25). -/
def State.retire (s : State) (n : Nat) : State :=
  match (s.comp n).parcel with
  | none => s
  | some p =>
    let s1 := match p.code with
      | some c => s.updAlloc fun a => a.retire c s.now
      | none => s
    (s1.releasePage p).updComp n fun c => { c with parcel := none, state := .FREE, tagOwner := none }

/-- Undo of the pending parcel of compartment `n` (R7, R26), with the reservation that has lapsed, if any. -/
def State.undo (s : State) (n : Nat) : State × Option Reservation :=
  match (s.comp n).parcel with
  | none => (s, none)
  | some p =>
    let s1 := s.releasePage p
    match p.prior with
    | some (.reserved r) =>
      if s.now < r.expiry then
        (s1.updComp n fun c => { c with state := .RESERVED, parcel := none, reservation := some r }, none)
      else (s1.updComp n fun c => { c with state := .FREE, parcel := none }, some r)
    | _ => (s1.updComp n fun c => { c with state := .FREE, parcel := none }, none)

/-- RESERVATION_EXPIRED of compartment `n` (R7, R96). -/
def State.expiredEvent (s : State) (n : Nat) (r : Reservation) : EventRec :=
  { s.event .RESERVATION_EXPIRED with comp := some n, carrier := some r.carrier, resRef := some r.ref }

/-! ### Tag lists and sweep runs (R173, R174, R178, R181, R182) -/

/-- The courier station sweeps with this operation. -/
def Op.sweepOf (o : Op) (c : Courier) : Bool := decide (o.purpose = .SWEEP ∧ o.station = c.station)

/-- The conditions of R174 but for the tag owner. -/
def State.eligible (s : State) (n : Nat) (f : TagFilter) (carrier : Nat) : Bool :=
  let c := s.comp n
  (match f with
    | .OVERDUE => decide (c.state = .LOADED) &&
        (match c.parcel with
          | some p => decide (p.kind = .DELIVERY ∧ p.carrier = carrier) && p.overdue
          | none => false)
    | .RETURNS => decide (c.state = .RETURN_LOADED) &&
        (match c.parcel with
          | some p => decide (p.carrier = carrier)
          | none => false))
    && !s.heldRec c && c.causes.isEmpty && !s.hasOp n

/-- The entry of compartment `n` leaves a list. -/
def withoutComp (l : List TagEntry) (n : Nat) : List TagEntry := l.filter fun e => e.comp != n

/-- SWEEP_DONE of a run (R182). -/
def State.sweepDone (s : State) (c : Courier) (r : Run) : EventRec :=
  { s.event .SWEEP_DONE with
    station := some c.station, job := some r.job, amount := some r.unpaid,
    counts := some { completed := r.completed, leftOccupied := r.leftOccupied, notOpened := r.notOpened,
                     cancelled := r.cancelled, skipped := r.skipped } }

/-- The test of R182: a run with nothing pending and no operation ends. -/
def State.endRun (s : State) (c : Courier) : State :=
  match (s.side c).run with
  | none => s
  | some r =>
    if r.pending = [] ∧ (s.hce.ops.any (Op.sweepOf · c)) = false then
      (s.updSide c fun x => { x with run := none }).post (s.sweepDone c r)
    else s

/-- The tag owner of compartment `n` is cleared and its owner's list or pending list loses it; a pending
compartment is counted skipped, and its run may end (R178, R182). -/
def State.clearTag (s : State) (n : Nat) : State :=
  match (s.comp n).tagOwner with
  | none => s
  | some c =>
    let s1 := s.updComp n fun x => { x with tagOwner := none }
    let s2 := s1.updSide c fun x => { x with tags := withoutComp x.tags n }
    match (s2.side c).run with
    | none => s2
    | some r =>
      if r.pending.any (fun e => e.comp == n) then
        (s2.updRun c fun r => { r with pending := withoutComp r.pending n, skipped := r.skipped + 1 }).endRun c
      else s2

/-- The count of R181 that an outcome raises, and the unpaid fee. -/
def Run.count (r : Run) (out : CycleOutcome) (unpaid : Nat) : Run :=
  let r := { r with unpaid := r.unpaid + unpaid }
  match out with
  | .COMPLETED => { r with completed := r.completed + 1 }
  | .LEFT_OCCUPIED | .UNCONFIRMED => { r with leftOccupied := r.leftOccupied + 1 }
  | .NOT_OPENED | .STRIKE_FAILED | .NO_POWER | .ABORTED_LINK => { r with notOpened := r.notOpened + 1 }
  | .CANCELLED => { r with cancelled := r.cancelled + 1 }
  | _ => { r with skipped := r.skipped + 1 }

/-! ### Creation of operations (R69 to R71) -/

/-- Places taken of a link's priority queue (R71). -/
def State.prioTaken (s : State) (l : Nat) : Nat :=
  (s.link l).prio.length +
    (s.hce.ops.filter fun o => decide (o.stage = .AWAIT_PAYMENT ∧ o.link = l)).length

/-- Operations of a station that are not SWEEP (R70). -/
def State.stationOps (s : State) (st : Nat) : Nat :=
  (s.hce.ops.filter fun o => decide (o.station = st ∧ o.purpose ≠ .SWEEP)).length

/-- SWEEP operations of both courier stations (R70). -/
def State.sweepOps (s : State) : Nat := (s.hce.ops.filter fun o => decide (o.purpose = .SWEEP)).length

/-- Limit of a station's operations that are not SWEEP (R70). -/
def stationLimit (st : Nat) : Nat := if st = 7 then 4 else if st = 5 ∨ st = 6 then 8 else 1

/-- The station has reached its limit (R70). -/
def State.stationFull (s : State) (st : Nat) : Bool := decide (stationLimit st ≤ s.stationOps st)

/-- The checks of R70 and the queue check of R69. -/
def State.roomFor (s : State) (st : Nat) (pu : Purpose) (l : Nat) : Bool :=
  decide (s.hce.ops.length < Config.opEntries) &&
    match pu with
    | .SWEEP => decide (s.sweepOps < Config.sweepLimit ∧ (s.link l).bulk.length < Config.bulkPlaces)
    | _ => !s.stationFull st && decide (s.prioTaken l < Config.prioPlaces)

/-- The record of a new operation (R68). -/
def newOp (job : Nat) (pu : Purpose) (st n : Nat) (a : Addr) (units : Nat) (stage : Stage) : Op :=
  { job := job, purpose := pu, station := st, comp := n, link := a.link, slot := a.slot,
    channel := a.channel, units := units, stage := stage, chargeRef := none, amount := none,
    opened := false, ajarPosted := false, openWait := none, ajar := none, confirm := none,
    faulted := false, refundNotIssued := false }

/-- A job joins the tail of its queue (R71). -/
def Link.join (x : Link) (pu : Purpose) (job : Nat) : Link :=
  match pu with
  | .SWEEP => { x with bulk := x.bulk ++ [job] }
  | _ => { x with prio := x.prio ++ [job] }

/-- A job leaves the queues from wherever it stands (R71). -/
def Link.leave (x : Link) (job : Nat) : Link :=
  { x with prio := x.prio.filter (· != job), bulk := x.bulk.filter (· != job) }

/-- An operation is created (R69): none where the creation is refused BUSY, else the state and the job. -/
def State.createOp (s : State) (pu : Purpose) (st n : Nat) (a : Addr) (units : Nat) (stage : Stage) :
    Option (State × Nat) :=
  if s.roomFor st pu a.link then
    let job := s.nextJob
    let s1 := s.updHce fun h => { ops := h.ops ++ [newOp job pu st n a units stage], lastJob := job }
    match stage with
    | .AWAIT_PAYMENT => some (s1, job)
    | _ => some (s1.updLink a.link fun x => x.join pu job, job)
  else none

/-! ### The top-up of a sweep run (R180) -/

/-- What a top-up did: the operations made and the compartments dropped (R179, R180). -/
structure TopUp where
  made    : Nat
  dropped : Nat
  deriving DecidableEq, Repr

/-- A pending compartment leaves the run, counted skipped, its tag owner none (R180). -/
def State.dropPending (s : State) (c : Courier) (n : Nat) (rest : List TagEntry) : State :=
  (s.updComp n fun x => { x with tagOwner := none }).updRun c
    fun r => { r with pending := rest, skipped := r.skipped + 1 }

/-- The top-up over the pending entries `es` of a run (R180). -/
def topUpOver (c : Courier) : List TagEntry → State → TopUp → State × TopUp
  | [], s, t => (s, t)
  | e :: es, s, t =>
    if s.eligible e.comp e.filter e.carrier && decide ((s.comp e.comp).tagOwner = some c) then
      match s.resolution e.comp with
      | .ok a units =>
        match s.createOp .SWEEP c.station e.comp a units .QUEUED with
        | some (s1, _) =>
          topUpOver c es (s1.updRun c fun r => { r with pending := es }) { t with made := t.made + 1 }
        | none => (s, t)
      | _ => topUpOver c es ((s.afterResolve e.comp).dropPending c e.comp es)
               { t with dropped := t.dropped + 1 }
    else topUpOver c es (s.dropPending c e.comp es) { t with dropped := t.dropped + 1 }

/-- The top-up of a courier station's run, made only in OPEN and NIGHT (R180). -/
def State.topUp (s : State) (c : Courier) : State × TopUp :=
  match (s.side c).run with
  | none => (s, { made := 0, dropped := 0 })
  | some r =>
    if s.scu.mode.onMains then topUpOver c r.pending s { made := 0, dropped := 0 }
    else (s, { made := 0, dropped := 0 })

/-- A top-up and the test of R182 after it. -/
def State.topUpEnd (s : State) (c : Courier) : State := (s.topUp c).1.endRun c

/-! ### The end of an operation (R84 to R89) -/

/-- What the end of an operation leaves for its events (R89, R181). -/
structure EndNote where
  ident      : Option ParcelIdent := none
  unverified : Bool := false
  mismatch   : Bool := false
  causes     : Option Causes := none
  lapsed     : Option Reservation := none
  /-- Paid amount and the quote of a swept DELIVERY parcel; a RETURN parcel has no quote. -/
  swept      : Option (Nat × Option Quote) := none

/-- The note of a parcel as it stands. -/
def EndNote.of (p : Option Parcel) : EndNote :=
  { ident := p.map Parcel.ident, unverified := p.any (·.unverified) }

/-- The sensed occupancy agrees with the compartment's state (R22). -/
def consistent (st : CompState) (occupied : Bool) : Bool :=
  match st with
  | .FREE | .RESERVED | .OUT_OF_SERVICE => !occupied
  | .LOADED | .RETURN_LOADED => occupied
  | .DEPOSITING => false

/-- The causes after the consistency check of R22. -/
def Causes.afterCheck (c : Causes) (ok : Bool) : Causes :=
  if ok then { c with auditRequired := false, mismatch := false, openAtStart := false }
  else { c with mismatch := true }

/-- The end of a DEPOSIT or RETURN_DROP on its compartment (R12, R86). -/
def State.endDeposit (s : State) (n : Nat) (out : CycleOutcome) : State × EndNote :=
  match out with
  | .COMPLETED =>
    let s1 := s.confirmParcel n false
    (s1, .of (s1.comp n).parcel)
  | .UNCONFIRMED =>
    let s1 := (s.confirmParcel n true).markCause n .AUDIT_REQUIRED
    (s1, .of (s1.comp n).parcel)
  | _ =>
    let before := (s.comp n).parcel
    let (s1, lapsed) := s.undo n
    (s1, { EndNote.of before with
            ident := before.map fun p => { p.ident with code := none }, lapsed := lapsed })

/-- The end of a COLLECT on its compartment (R87, R124). -/
def State.endCollect (s : State) (n : Nat) (out : CycleOutcome) : State × EndNote :=
  let note := EndNote.of (s.comp n).parcel
  match out with
  | .COMPLETED => (s.retire n, note)
  | .LEFT_OCCUPIED =>
    (s.updParcel n fun p => { p with retryUntil := some (addMin s.now Config.window) }, note)
  | .UNCONFIRMED => (s.markCause n .AUDIT_REQUIRED, note)
  | _ => (s, note)

/-- The end of a SWEEP on its compartment (R87, R181). -/
def State.endSweep (s : State) (n : Nat) (out : CycleOutcome) : State × EndNote :=
  let note := EndNote.of (s.comp n).parcel
  let s0 := s.updComp n fun c => { c with tagOwner := none }
  match out with
  | .COMPLETED =>
    (s.retire n,
      { note with swept := (s.comp n).parcel.map fun p =>
          (p.paid, if p.kind = .DELIVERY then some (s.quoteAt s.now p) else none) })
  | .UNCONFIRMED => (s0.markCause n .AUDIT_REQUIRED, note)
  | _ => (s0, note)

/-- The end of a SERVICE_OPEN on its compartment, with the reading of a COMPLETED end (R22, R88).  The note reads the
unverified flag after the check has cleared it (R6, R89; DESIGN CHOICE, log entry 41). -/
def State.endServiceOpen (s : State) (n : Nat) (out : CycleOutcome) (occ : Bool) : State × EndNote :=
  match out with
  | .COMPLETED =>
    let ok := consistent (s.comp n).state occ
    let s1 := s.updComp n fun c =>
      { c with causes := c.causes.afterCheck ok
               parcel := if ok then c.parcel.map fun p => { p with unverified := false } else c.parcel }
    (s1, { EndNote.of (s1.comp n).parcel with causes := some (s1.comp n).causes, mismatch := !ok })
  | .UNCONFIRMED =>
    let s1 := s.markCause n .AUDIT_REQUIRED
    (s1, { EndNote.of (s1.comp n).parcel with causes := some (s1.comp n).causes })
  | _ => (s, { EndNote.of (s.comp n).parcel with causes := some (s.comp n).causes })

/-- The end of a SERVICE_REMOVE on its compartment (R22, R88). -/
def State.endServiceRemove (s : State) (n : Nat) (out : CycleOutcome) : State × EndNote :=
  let note := EndNote.of (s.comp n).parcel
  match out with
  | .COMPLETED => (s.retire n, note)
  | .UNCONFIRMED => (s.markCause n .AUDIT_REQUIRED, note)
  | _ => (s, note)

/-- The end of an operation on its compartment, by its purpose (R86 to R88). -/
def State.endEffect (s : State) (o : Op) (out : CycleOutcome) (occ : Bool) : State × EndNote :=
  match o.purpose with
  | .DEPOSIT | .RETURN_DROP => s.endDeposit o.comp out
  | .COLLECT => s.endCollect o.comp out
  | .SWEEP => s.endSweep o.comp out
  | .SERVICE_OPEN => s.endServiceOpen o.comp out occ
  | .SERVICE_REMOVE => s.endServiceRemove o.comp out

/-- The operation is a return drop whose approved charge an undo has to reverse (R86, R172): it holds its
reference after AWAIT_PAYMENT, or as an approval brings it to join its queue. -/
def Op.owesReversal (o : Op) (out : CycleOutcome) : Bool :=
  decide (o.purpose = .RETURN_DROP ∧ out ≠ .COMPLETED ∧ out ≠ .UNCONFIRMED) && o.chargeRef.isSome
    && (decide (o.stage ≠ .AWAIT_PAYMENT) || decide (out = .STRIKE_FAILED))

/-- The reader stored with the reference of a return parcel, else the reader paired with the station. -/
def State.dropReader (s : State) (o : Op) : Nat :=
  ((s.comp o.comp).parcel.bind (·.chargeReader)).getD o.station

/-- The reversal an undone return drop asks for (R86, R161, R172): the state, and whether it was refused. -/
def State.reverseDrop (s : State) (o : Op) (out : CycleOutcome) (r : Nat) : State × Bool :=
  if o.owesReversal out then
    let (s1, admitted) := s.queueReversal
      { ref := o.chargeRef.getD 0, amount := o.amount.getD 0, reader := r, comp := o.comp,
        origin := .job o.job }
    (s1, !admitted)
  else (s, false)

/-- CYCLE_DONE of an operation's end (R89). -/
def State.cycleDone (s : State) (o : Op) (out : CycleOutcome) (note : EndNote) (refused : Bool) : EventRec :=
  let e : EventRec :=
    { s.event .CYCLE_DONE with
      comp := some o.comp, station := some o.station, job := some o.job, purpose := some (some o.purpose),
      outcome := some out, causes := note.causes,
      amount := if o.chargeRef.isSome then o.amount else none, chargeRef := o.chargeRef,
      flags := some { faulted := o.faulted, mismatch := note.mismatch, unverified := note.unverified,
                      refundNotIssued := refused || o.refundNotIssued } }
  match note.ident with
  | some i => e.withIdent i
  | none => e

/-- The flags a quote lends to PARCEL_SWEPT (R181). -/
def Quote.flags (q : Quote) : EventFlags :=
  { paidUp := q.paidUp, dwellClamped := q.dwellClamped, dayCap := q.dayCap, ceiling := q.ceiling,
    rounded := q.rounded }

/-- PARCEL_SWEPT of a SWEEP ended COMPLETED (R181). -/
def State.parcelSwept (s : State) (o : Op) (note : EndNote) (paid : Nat) (q : Option Quote) : EventRec :=
  let e : EventRec :=
    { s.event .PARCEL_SWEPT with
      comp := some o.comp, station := some o.station, job := some o.job, paid := some paid,
      amount := some (match q with | some x => x.due | none => 0), flags := q.map Quote.flags }
  match note.ident with
  | some i => e.withIdent i
  | none => e

/-- The end of a SWEEP operation goes to the Sweep Unit (R85, R181): counted, PARCEL_SWEPT posted, and the
run of its station topped up before that of the other (R180). -/
def State.handSweep (s : State) (o : Op) (out : CycleOutcome) (note : EndNote) : State :=
  match courierOf o.station with
  | none => s
  | some c =>
    let unpaid := match note.swept with
      | some (_, some q) => q.due
      | _ => 0
    let s1 := s.updRun c fun r => r.count out unpaid
    let s2 := match note.swept with
      | some (paid, q) => s1.post (s1.parcelSwept o note paid q)
      | none => s1
    (s2.topUpEnd c).topUpEnd c.other

/-- The end of an operation (R85), with the settled reading of a SERVICE_OPEN that ends COMPLETED. -/
def State.endOp (s : State) (o : Op) (out : CycleOutcome) (occ : Bool := false) : State :=
  let r := s.dropReader o
  let (s1, note) := s.endEffect o out occ
  let (s2, refused) := s1.reverseDrop o out r
  let s3 := s2.updComp o.comp fun c => { c with purpose := none }
  let s4 := (s3.updLink o.link fun x => x.leave o.job).removeOp o.job
  let s5 := s4.post (s4.cycleDone o out note refused)
  let s6 := match note.lapsed with
    | some v => s5.post (s5.expiredEvent o.comp v)
    | none => s5
  let s7 := if o.purpose = .SWEEP then s6.handSweep o out note else s6
  if o.stage = .AWAIT_PAYMENT ∧ out = .HELD then s7.abandonOf o.job else s7

/-- An operation named by its job ends, if it is in the table. -/
def State.endJob (s : State) (job : Nat) (out : CycleOutcome) : State :=
  match s.opByJob job with
  | some o => s.endOp o out
  | none => s

/-- Operations named by their jobs end in turn. -/
def State.endJobs (s : State) (jobs : List Nat) (out : CycleOutcome) : State :=
  jobs.foldl (fun s j => s.endJob j out) s

/-! ### Fault causes and holds (R15, R19) -/

/-- A cause joins the set of compartment `n` and ends its operation as a hold would, flag FAULTED, where it
is not of service and stands in QUEUED or AWAIT_PAYMENT (R19). -/
def State.addCause (s : State) (n : Nat) (c : Cause) : State :=
  if (s.comp n).causes.has c then s
  else
    let s1 := s.markCause n c
    match s1.opOn n with
    | some o =>
      if o.purpose.isService = false ∧ o.stage.striking = false then
        s1.endOp { o with faulted := true } .HELD
      else s1
    | none => s1

/-- Units go back to the arbiter (R75). -/
def State.returnUnits (s : State) (units : Nat) : State :=
  s.updArb fun a => { a with granted := a.granted - units }

/-- The strike in flight of a link becomes none and its units go back (R60 to R64). -/
def State.dropStrike (s : State) (l : Nat) : State :=
  match (s.link l).strike with
  | some k => (s.updLink l fun x => { x with strike := none }).returnUnits k.units
  | none => s

/-- A STRIKE awaits its answer on the line (R63). -/
def Link.striking (x : Link) : Bool :=
  match x.line with
  | some (.strike _ _ _ _) => true
  | _ => false

/-- A strike whose operation has ended before STRIKE_ACK (R63): settled at once where no STRIKE awaits an
answer, else carried on without its operation. -/
def State.strikeLosesOp (s : State) (l : Nat) : State :=
  if (s.link l).striking then
    s.updLink l fun x => { x with strike := x.strike.map fun k => { k with opEnded := true } }
  else s.dropStrike l

/-- The strike of an operation has been acknowledged (R59). -/
def State.acked (s : State) (o : Op) : Bool :=
  match (s.link o.link).strike with
  | some k => decide (k.job = o.job) && k.ackMinute.isSome
  | none => false

/-- The operation table of R15 on compartment `n`, with the number of operations ended. -/
def State.holdOp (s : State) (n : Nat) : State × Nat :=
  match s.opOn n with
  | none => (s, 0)
  | some o =>
    if o.purpose.isService then (s, 0)
    else
      match o.stage with
      | .QUEUED | .AWAIT_PAYMENT => (s.endOp o .HELD, 1)
      | .STRIKING => if s.acked o then (s, 0) else ((s.endOp o .HELD).strikeLosesOp o.link, 1)
      | .AWAIT_OPEN | .OPEN | .AWAIT_CONFIRM => (s, 0)

/-- What a hold does to compartment `n` once its flag is set (R15): the operation table, then the tag. -/
def State.holdComp (s : State) (n : Nat) : State × Nat :=
  let (s1, k) := s.holdOp n
  (s1.clearTag n, k)

/-! ### The Strike Supply Arbiter (R72 to R76) -/

/-- Free units (R73): 0 when the granted units exceed the capacity. -/
def Arbiter.free (a : Arbiter) : Nat := a.capacity - a.granted

/-- The ready head of a link (R72). -/
def State.readyHead (s : State) (l : Nat) : Option Op :=
  let x := s.link l
  if x.strike.isSome then none
  else
    match x.prio with
    | j :: _ => s.opByJob j
    | [] =>
      if s.scu.mode.onMains then
        match x.bulk with
        | j :: _ => s.opByJob j
        | [] => none
      else none

/-- The pointer advances to the next fitted link (R74). -/
def State.advance (s : State) : State :=
  s.updArb fun a => { a with turn := if s.numLinks ≤ a.turn then 1 else a.turn + 1 }

/-- The strike in flight a grant begins (R59, R75). -/
def Strike.ofOp (o : Op) : Strike :=
  { job := o.job, comp := o.comp, slot := o.slot, channel := o.channel, units := o.units, failed := 0,
    duration := 0, ackMinute := none, durationRun := false, slotLost := false, opEnded := false, late := false,
    hatchSeen := none }

/-- A grant (R75). -/
def State.grant (s : State) (o : Op) : State :=
  let s1 := s.updLink o.link fun x => { x.leave o.job with strike := some (Strike.ofOp o) }
  let s2 := s1.updOp o.job fun o => { o with stage := .STRIKING }
  let s3 := s2.updArb fun a => { a with granted := a.granted + o.units }
  s3.updComp o.comp fun c => { c with purpose := some o.purpose }

/-- The arbitration pass (R74); `run` counts the advances in a row without a grant or a NO_POWER end, and
the first argument bounds the links looked at.  The advance that a grant itself makes is not counted in the run that
follows it (DESIGN CHOICE, log entry 40). -/
def passLoop : Nat → Nat → State → State
  | 0, _, s => s
  | fuel + 1, run, s =>
    if s.numLinks ≤ run then s
    else
      match s.readyHead s.arb.turn with
      | none => passLoop fuel (run + 1) s.advance
      | some o =>
        if o.units ≤ s.arb.free then passLoop fuel 0 (s.grant o).advance
        else if s.arb.capacity < o.units then passLoop fuel 0 (s.endOp o .NO_POWER)
        else s

/-- Looks at links that no pass can exceed: each operation now in the table or still to be made by a top-up
is granted or ended at most once, and between two such looks come at most the links fitted. -/
def State.passBound (s : State) : Nat :=
  let pend := fun (x : SweepSide) => (x.run.map fun r => r.pending.length).getD 0
  5 * (s.hce.ops.length + pend s.swu.k1 + pend s.swu.k2 + 2)

/-- An arbitration pass (R74), taken where a command has returned units, changed a ready head or changed
the capacity. -/
def State.pass (s : State) : State := passLoop s.passBound 0 s

end Sys2Proof.Machine
end

