-- ==== Sys2Proof/Machine/Operands.lean ====
section
/-! DEFINITION. The fields of request payloads as R184 lays them out: a codec for each kind of field, the
ways to put fields together, and the payload of each request kind (R186, step 5). -/

namespace Sys2Proof.Machine

open Sys2Proof

/-- A layout of fields: the bytes of a value, the value read from the front of a payload with the bytes
that follow it, and the values the layout can carry. -/
structure Codec (α : Type) where
  enc : α → List Byte
  dec : List Byte → Option (α × List Byte)
  wf  : α → Bool

/-- A payload parses when it holds exactly the fields (R186). -/
def Codec.parse {α : Type} (c : Codec α) (p : List Byte) : Option α :=
  match c.dec p with
  | some (a, []) => some a
  | _ => none

/-- The byte of a number below 256. -/
def byteOf (n : Nat) : Byte := BitVec.ofNat 8 n

/-- The value that `f` reads from the number in the next byte, with the bytes after it. -/
def Codec.next {α : Type} (f : Nat → Option α) (p : List Byte) : Option (α × List Byte) :=
  p.head?.bind fun b => (f b.toNat).map fun a => (a, p.tail)

/-- A number in one byte. -/
def Codec.nat8 : Codec Nat where
  enc n := [byteOf n]
  dec := Codec.next some
  wf n := decide (n < 256)

/-- A number in two bytes, high byte first. -/
def Codec.nat16 : Codec Nat where
  enc n := [byteOf (n / 256), byteOf n]
  dec p := match p with
    | a :: b :: r => some (a.toNat * 256 + b.toNat, r)
    | _ => none
  wf n := decide (n < 65536)

/-- A number in four bytes, high byte first. -/
def Codec.nat32 : Codec Nat where
  enc n := [byteOf (n / 16777216), byteOf (n / 65536), byteOf (n / 256), byteOf n]
  dec p := match p with
    | a :: b :: c :: d :: r =>
      some (a.toNat * 16777216 + b.toNat * 65536 + c.toNat * 256 + d.toNat, r)
    | _ => none
  wf n := decide (n < 4294967296)

/-- The number of a named value of a set of `k` values (R184, R186). -/
def Codec.below (k : Nat) : Codec Nat where
  enc n := [byteOf n]
  dec := Codec.next fun n => if n < k then some n else none
  wf n := decide (n < k ∧ n < 256)

/-- A named value, by its place in the set (R184). -/
def Codec.named {α : Type} (ofNum : Nat → α) (num : α → Nat) (k : Nat) : Codec α where
  enc a := [byteOf (num a)]
  dec := Codec.next fun n => if n < k then some (ofNum n) else none
  wf a := decide (num a < k ∧ num a < 256)

/-- An indication, flag, presence or selector byte: 1 when set, 0 when clear; no other value parses. -/
def Codec.flag : Codec Bool where
  enc b := [if b then 1 else 0]
  dec := Codec.next fun n => if n ≤ 1 then some (n == 1) else none
  wf _ := true

/-- A text field: a length byte of 1 to 20 and that many characters. -/
def Codec.text : Codec Text where
  enc t := byteOf t.length :: t
  dec p := match p with
    | b :: r =>
      if 1 ≤ b.toNat ∧ b.toNat ≤ 20 ∧ b.toNat ≤ r.length then some (r.take b.toNat, r.drop b.toNat) else none
    | [] => none
  wf t := decide (1 ≤ t.length ∧ t.length ≤ 20)

/-- Two decimal digits of a byte, if both half-bytes are digits. -/
def bcdOf (b : Byte) : Option Nat :=
  let hi := b.toNat / 16
  let lo := b.toNat % 16
  if hi ≤ 9 ∧ lo ≤ 9 then some (hi * 10 + lo) else none

/-- The byte of two decimal digits. -/
def bcdByte (n : Nat) : Byte := byteOf (n / 10 % 10 * 16 + n % 10)

/-- A six-digit code in three bytes, the earlier digit of each in its upper half. -/
def Codec.code : Codec Nat where
  enc n := [bcdByte (n / 10000), bcdByte (n / 100), bcdByte n]
  dec p :=
    if 3 ≤ p.length ∧ (p.take 3).all (fun b => (bcdOf b).isSome) then
      some (((p.take 3).filterMap bcdOf).foldl (fun digits two => digits * 100 + two) 0, p.drop 3)
    else none
  wf n := decide (n < 1000000)

/-- No field at all. -/
def Codec.nothing : Codec Unit where
  enc _ := []
  dec p := some ((), p)
  wf _ := true

/-- The payload of a kind that takes no fields: one byte, not read (R184). -/
def Codec.blank : Codec Unit where
  enc _ := [0]
  dec := Codec.next fun _ => some ()
  wf _ := true

/-- One field after another. -/
def Codec.pair {α β : Type} (a : Codec α) (b : Codec β) : Codec (α × β) where
  enc x := a.enc x.1 ++ b.enc x.2
  dec p := (a.dec p).bind fun x => (b.dec x.2).map fun y => ((x.1, y.1), y.2)
  wf x := a.wf x.1 && b.wf x.2

/-- An optional field after its presence byte. -/
def Codec.opt {α : Type} (a : Codec α) : Codec (Option α) where
  enc x := match x with
    | some v => 1 :: a.enc v
    | none => [0]
  dec p := (Codec.flag.dec p).bind fun here =>
    if here.1 then (a.dec here.2).map (Prod.map some id) else some (none, here.2)
  wf x := x.all a.wf

/-- Two alternatives after their selector byte, 0 for the first. -/
def Codec.alt {α β : Type} (a : Codec α) (b : Codec β) : Codec (α ⊕ β) where
  enc x := match x with
    | .inl v => 0 :: a.enc v
    | .inr v => 1 :: b.enc v
  dec p := (Codec.flag.dec p).bind fun second =>
    if second.1 then (b.dec second.2).map (Prod.map Sum.inr id)
    else (a.dec second.2).map (Prod.map Sum.inl id)
  wf := Sum.elim a.wf b.wf

/-- The same bytes read as another type. -/
def Codec.iso {α β : Type} (c : Codec α) (f : α → β) (g : β → α) : Codec β where
  enc b := c.enc (g b)
  dec p := (c.dec p).map (Prod.map f id)
  wf b := c.wf (g b)

/-- A field for each class, S, M, L, XL in that order. -/
def Codec.perClass (c : Codec Nat) : Codec (PerClass Nat) :=
  (c.pair (c.pair (c.pair c))).iso
    (fun x => { S := x.1, M := x.2.1, L := x.2.2.1, XL := x.2.2.2 })
    (fun p => (p.S, p.M, p.L, p.XL))

/-! ### Named values (R184) -/

/-- Class of a number. -/
def classOf (n : Nat) : SizeClass :=
  match n with
  | 0 => .S
  | 1 => .M
  | 2 => .L
  | _ => .XL

/-- A class. -/
def Codec.sizeClass : Codec SizeClass := Codec.named classOf SizeClass.rank 4

/-- Section of a letter's number: A to H are 0 to 7. -/
def letterOf (n : Nat) : Option (Fin 8) := if h : n < 8 then some ⟨n, h⟩ else none

/-- A section letter, by its number: A to H, no other value parses (R184; R186, step 5; log entry 14). -/
def Codec.letter : Codec Nat := Codec.below 8

/-- Tag filter of a number. -/
def filterOf (n : Nat) : TagFilter := if n = 0 then .OVERDUE else .RETURNS

/-- Number of a tag filter. -/
def TagFilter.num : TagFilter → Nat
  | .OVERDUE => 0
  | .RETURNS => 1

/-- A tag filter. -/
def Codec.filter : Codec TagFilter := Codec.named filterOf TagFilter.num 2

/-! ### Operands of the requests -/

/-- Fields of RETURN_DROP (R167). -/
structure DropReq where
  carrier  : Nat
  declared : SizeClass
  label    : Text
  prepaid  : Bool
  deriving DecidableEq, Repr

/-- Fields of RESERVE (R94). -/
structure ReserveReq where
  carrier  : Nat
  cls      : SizeClass
  count    : Nat
  duration : Nat
  ref      : Nat
  deriving DecidableEq, Repr

/-- Fields of DEPOSIT (R98). -/
structure DepositReq where
  carrier  : Nat
  declared : SizeClass
  text     : Text
  upsize   : Bool
  ref      : Option Nat
  deriving DecidableEq, Repr

/-- Fields of TAG (R175). -/
structure TagReq where
  first   : Nat
  last    : Nat
  filter  : TagFilter
  carrier : Nat
  deriving DecidableEq, Repr

/-- A latch address as a request gives it. -/
structure AddrReq where
  link    : Nat
  slot    : Nat
  third   : Nat
  deriving DecidableEq, Repr

/-- Fields of SECTION_DEFINE (R38): `sect` is the number of the letter, and `geometry` holds link, first slot and stride of a DIRECT section and is
absent for a MAPPED one. -/
structure DefineReq where
  sect     : Nat
  first    : Nat
  count    : Nat
  cls      : SizeClass
  geometry : AddrReq ⊕ Unit
  deriving DecidableEq, Repr

/-- Fields of QUOTE (R143). -/
structure QuoteReq where
  what   : Nat ⊕ Nat
  minute : Option Nat
  deriving DecidableEq, Repr

/-- Three one-byte numbers. -/
def Codec.addr : Codec AddrReq :=
  (Codec.nat8.pair (Codec.nat8.pair Codec.nat8)).iso
    (fun x => { link := x.1, slot := x.2.1, third := x.2.2 }) (fun a => (a.link, a.slot, a.third))

/-- Payload of EVENT_MASK (R193). -/
def Codec.mask : Codec ClassSet :=
  (Codec.flag.pair (Codec.flag.pair (Codec.flag.pair (Codec.flag.pair Codec.flag)))).iso
    (fun x => { hatch := x.1, parcel := x.2.1, payment := x.2.2.1, equipment := x.2.2.2.1,
                system := x.2.2.2.2 })
    (fun m => (m.hatch, m.parcel, m.payment, m.equipment, m.system))

/-- Payload of QUOTE (R143). -/
def Codec.quoteReq : Codec QuoteReq :=
  ((Codec.code.alt Codec.nat8).pair Codec.nat32.opt).iso
    (fun x => { what := x.1, minute := x.2 }) (fun q => (q.what, q.minute))

/-- Payload of FIND_PARCEL (R28). -/
def Codec.findReq : Codec (Nat ⊕ Text) := Codec.code.alt Codec.text

/-- Payload of RETURN_DROP (R167). -/
def Codec.dropReq : Codec DropReq :=
  (Codec.nat8.pair (Codec.sizeClass.pair (Codec.text.pair Codec.flag))).iso
    (fun x => { carrier := x.1, declared := x.2.1, label := x.2.2.1, prepaid := x.2.2.2 })
    (fun r => (r.carrier, r.declared, r.label, r.prepaid))

/-- Payload of RESERVE (R94). -/
def Codec.reserveReq : Codec ReserveReq :=
  (Codec.nat8.pair (Codec.sizeClass.pair (Codec.nat8.pair (Codec.nat16.pair Codec.nat16)))).iso
    (fun x => { carrier := x.1, cls := x.2.1, count := x.2.2.1, duration := x.2.2.2.1, ref := x.2.2.2.2 })
    (fun r => (r.carrier, r.cls, r.count, r.duration, r.ref))

/-- Payload of DEPOSIT (R98). -/
def Codec.depositReq : Codec DepositReq :=
  (Codec.nat8.pair (Codec.sizeClass.pair (Codec.text.pair (Codec.flag.pair Codec.nat16.opt)))).iso
    (fun x => { carrier := x.1, declared := x.2.1, text := x.2.2.1, upsize := x.2.2.2.1, ref := x.2.2.2.2 })
    (fun r => (r.carrier, r.declared, r.text, r.upsize, r.ref))

/-- Payload of TAG (R175). -/
def Codec.tagReq : Codec TagReq :=
  (Codec.nat16.pair (Codec.nat16.pair (Codec.filter.pair Codec.nat8))).iso
    (fun x => { first := x.1, last := x.2.1, filter := x.2.2.1, carrier := x.2.2.2 })
    (fun r => (r.first, r.last, r.filter, r.carrier))

/-- Payload of HOLD and HOLD_RELEASE: a compartment or a section (R15 to R17). -/
def Codec.target : Codec (Nat ⊕ Nat) := Codec.nat8.alt Codec.letter

/-- Payload of SECTION_DEFINE (R38).  The mode byte, DIRECT 0 or MAPPED 1, selects the geometry. -/
def Codec.defineReq : Codec DefineReq :=
  (Codec.letter.pair (Codec.nat8.pair (Codec.nat8.pair (Codec.sizeClass.pair
    (Codec.addr.alt Codec.nothing))))).iso
    (fun x => { sect := x.1, first := x.2.1, count := x.2.2.1, cls := x.2.2.2.1, geometry := x.2.2.2.2 })
    (fun r => (r.sect, r.first, r.count, r.cls, r.geometry))

/-- Payload of MAP_WRITE: a compartment, and an address or the invalidation (R41). -/
def Codec.mapReq : Codec (Nat × (AddrReq ⊕ Unit)) := Codec.nat8.pair (Codec.addr.alt Codec.nothing)

/-- Fields of a tariff page in the order of R128: amounts in four bytes, the rounding unit in one. -/
def Codec.page : Codec Page :=
  (Codec.nat16.perClass.pair (Codec.nat8.pair (Codec.nat32.perClass.pair (Codec.nat32.perClass.pair
    (Codec.nat32.pair (Codec.nat8.pair (Codec.nat16.pair (Codec.nat16.pair (Codec.nat8.pair
      (Codec.nat16.pair Codec.nat32.perClass)))))))))).iso
    (fun (fr, p, rate, cap, ceil, u, st, len, gr, ov, fee) =>
      { freeMin := fr, periodCode := p, rate := rate, dayCap := cap, ceiling := ceil, unit := u,
        windowStart := st, windowLen := len, grace := gr, overdueMin := ov, returnFee := fee })
    (fun p => (p.freeMin, p.periodCode, p.rate, p.dayCap, p.ceiling, p.unit, p.windowStart, p.windowLen,
      p.grace, p.overdueMin, p.returnFee))

/-- Payload of TARIFF_LOAD: the page number and its fields (R131). -/
def Codec.loadReq : Codec (Nat × Page) := Codec.nat8.pair Codec.page

/-- Payload of CONFIG: every value of R205 in order. -/
def Codec.configReq : Codec ConfigVals :=
  (Codec.nat8.pair (Codec.nat16.perClass.pair (Codec.nat8.pair (Codec.nat16.perClass.pair
    (Codec.nat8.pair Codec.nat8.perClass))))).iso
    (fun (r, ms, ow, aj, pt, wu) =>
      { retryLimit := r, strikeMs := ms, openWait := ow, ajar := aj, payTimeout := pt, walkUp := wu })
    (fun c => (c.retryLimit, c.strikeMs, c.openWait, c.ajar, c.payTimeout, c.walkUp))

end Sys2Proof.Machine
end

