-- ==== Sys2Proof/Machine/Wire.lean ====
section
/-! DEFINITION. The bytes on the kiosk link: the check of a frame, the event record, the reply payload and
the reply frame (R184, R185, R189, R190). -/

namespace Sys2Proof.Machine

open Sys2Proof

/-! ### The check (R184) -/

/-- One shift of the CRC-16 register, polynomial 0x1021. -/
def crcShift (c : BitVec 16) : BitVec 16 := if c.msb then (c <<< 1) ^^^ 0x1021#16 else c <<< 1

/-- One byte into the CRC-16 register, no reflection. -/
def crcByte (c : BitVec 16) (b : Byte) : BitVec 16 :=
  let c0 := c ^^^ (b.setWidth 16 <<< 8)
  crcShift (crcShift (crcShift (crcShift (crcShift (crcShift (crcShift (crcShift c0)))))))

/-- The check of a list of bytes: initial value 0xFFFF, no final exclusive-or. -/
def crc16 (bs : List Byte) : BitVec 16 := bs.foldl crcByte 0xFFFF#16

/-! ### Numbers, high byte first, and named values (R184) -/

/-- A number in two bytes. -/
def be16 (n : Nat) : List Byte := Codec.nat16.enc n

/-- A number in four bytes. -/
def be32 (n : Nat) : List Byte := Codec.nat32.enc n

/-- A flag byte. -/
def flagByte (b : Bool) : List Byte := Codec.flag.enc b

/-- An optional field after its presence byte. -/
def optBytes {α : Type} (f : α → List Byte) : Option α → List Byte
  | some v => 1 :: f v
  | none => [0]

/-- Bits to a number, the first in the most significant place. -/
def bitsNum (bs : List Bool) : Nat := bs.foldl (fun n b => 2 * n + b.toNat) 0

/-- The byte of a set of fault causes (R190, item 15). -/
def Causes.byte (c : Causes) : Nat :=
  bitsNum [c.forced, c.mapCheck, c.mismatch, c.auditRequired, c.openAtStart, false, false, false]

/-- The two bytes of the flags item (R190, item 26). -/
def EventFlags.word (f : EventFlags) : Nat :=
  bitsNum [f.faulted, f.mismatch, f.unverified, f.refundNotIssued, f.honoured, f.reversalQueued, f.unmatched,
    f.unsettled, f.lateStrike, f.paidUp, f.dwellClamped, f.dayCap, f.ceiling, f.rounded, f.fromLateResult,
    f.fromAudit]

/-- Number of a compartment state. -/
def CompState.num : CompState → Nat
  | .FREE => 0
  | .RESERVED => 1
  | .DEPOSITING => 2
  | .LOADED => 3
  | .RETURN_LOADED => 4
  | .OUT_OF_SERVICE => 5

/-- Number of a section mode. -/
def SectMode.num : SectMode → Nat
  | .DIRECT => 0
  | .MAPPED => 1

/-- Number of a stage. -/
def Stage.num : Stage → Nat
  | .AWAIT_PAYMENT => 0
  | .QUEUED => 1
  | .STRIKING => 2
  | .AWAIT_OPEN => 3
  | .OPEN => 4
  | .AWAIT_CONFIRM => 5

/-- Number of a outcome. -/
def CycleOutcome.num : CycleOutcome → Nat
  | .COMPLETED => 0
  | .LEFT_OCCUPIED => 1
  | .LEFT_EMPTY => 2
  | .NOT_OPENED => 3
  | .UNCONFIRMED => 4
  | .STRIKE_FAILED => 5
  | .NO_POWER => 6
  | .ABORTED_LINK => 7
  | .CANCELLED => 8
  | .HELD => 9
  | .PAYMENT_DECLINED => 10
  | .PAYMENT_TIMEOUT => 11
  | .READER_OFFLINE => 12
  | .RECOVERED => 13

/-- Number of a parcel kind. -/
def ParcelKind.num : ParcelKind → Nat
  | .DELIVERY => 0
  | .RETURN => 1

/-- Number of a mode; STARTING is 4. -/
def Mode.num : Mode → Nat
  | .OPEN => 0
  | .NIGHT => 1
  | .BATTERY => 2
  | .DORMANT => 3

/-- Number of a base mode. -/
def BaseMode.num : BaseMode → Nat
  | .OPEN => 0
  | .NIGHT => 1

/-- Number of a reset cause. -/
def ResetCause.num : ResetCause → Nat
  | .POWER_ON => 0
  | .BROWNOUT => 1
  | .HOST_RESTART => 2

/-- Number of a slot state. -/
def SlotState.num : SlotState → Nat
  | .EMPTY => 0
  | .NEW => 1
  | .PRESENT => 2
  | .OFFLINE => 3
  | .CONFLICT => 4

/-- Number of a reader state. -/
def ReaderState.num : ReaderState → Nat
  | .OFFLINE => 0
  | .IDLE => 1
  | .CHARGING => 2
  | .ABANDONING => 3
  | .REVERSING => 4

/-- Number of a fault kind. -/
def FaultKind.num : FaultKind → Nat
  | .NO_RESPONSE => 0
  | .NO_CHANNEL => 1
  | .DONE_MISSING => 2
  | .MAP_CHECK => 3
  | .CONFLICT => 4

/-- Number of a purpose; none is 0. -/
def purposeNum : Option Purpose → Nat
  | none => 0
  | some .DEPOSIT => 1
  | some .RETURN_DROP => 2
  | some .COLLECT => 3
  | some .SWEEP => 4
  | some .SERVICE_OPEN => 5
  | some .SERVICE_REMOVE => 6

/-- Number of a start-up phase; none is 0. -/
def phaseNum : Option Phase → Nat
  | none => 0
  | some .ENUMERATE => 1
  | some .AUDIT => 2
  | some .RECONCILE => 3

/-- Number of a payment result. -/
def payNum : PayResult → Nat
  | .APPROVED => 0
  | .DECLINED => 1
  | .CUSTOMER_CANCEL => 2

/-- Code of an event kind (section 10.5). -/
def EventKind.code : EventKind → Nat
  | .HATCH_OPENED => 1
  | .CYCLE_DONE => 2
  | .HATCH_AJAR => 3
  | .HATCH_FORCED => 4
  | .PARCEL_OVERDUE => 5
  | .PARCEL_SWEPT => 6
  | .RESERVATION_EXPIRED => 7
  | .SWEEP_DONE => 8
  | .PAYMENT_RESULT => 9
  | .LATE_RESULT => 10
  | .REVERSAL_DONE => 11
  | .REVERSAL_FAILED => 12
  | .BOARD_CHANGED => 13
  | .FAULT_CAPTURED => 14
  | .MODE_CHANGED => 15
  | .TARIFF_SWITCHED => 16
  | .TIME_GAP => 17
  | .STARTUP_DONE => 18

/-- Number of a reply status (R189). -/
def Status.num : Status → Nat
  | .OK => 0
  | .ACCEPTED => 1
  | .BUSY => 2
  | .NO_SPACE => 3
  | .NO_CODE => 4
  | .NOT_FOUND => 5
  | .BAD_CODE => 6
  | .LOCKED_OUT => 7
  | .FEE_DUE => 8
  | .HELD => 9
  | .FAULTED => 10
  | .CLOSED => 11
  | .NO_POWER => 12
  | .NO_READER => 13
  | .UNREACHABLE => 14
  | .MAP_FAULT => 15
  | .ALIAS_FOUND => 16
  | .WRONG_STATE => 17
  | .WRONG_STATION => 18
  | .KEY_OFF => 19
  | .IN_USE => 20
  | .STARTING => 21
  | .NOTHING_TAGGED => 22
  | .BAD_REQUEST => 23

/-! ### Event records (R184, R190) -/

/-- An item: its id, the length of its value, the value; nothing where it is absent. -/
def itemOf {α : Type} (id : Nat) (f : α → List Byte) : Option α → List Byte
  | some v => byteOf id :: byteOf (f v).length :: f v
  | none => []

/-- A value of one byte. -/
def be8 (n : Nat) : List Byte := [byteOf n]

/-- Item 5: an operation outcome, or a payment result. -/
def EventRec.outcomeNum (e : EventRec) : Option Nat :=
  match e.outcome with
  | some o => some o.num
  | none => e.result.map payNum

/-- The items of a record, in the order of their ids (R190). -/
def EventRec.items (e : EventRec) : List Byte :=
  itemOf 1 be8 e.comp ++ itemOf 2 be8 e.station ++ itemOf 3 be16 e.job
    ++ itemOf 4 (fun p => be8 (purposeNum p)) e.purpose ++ itemOf 5 be8 e.outcomeNum
    ++ itemOf 6 (fun k => be8 (ParcelKind.num k)) e.parcelKind ++ itemOf 7 be8 e.carrier
    ++ itemOf 8 (fun t => t) e.text ++ itemOf 9 be32 e.deposit ++ itemOf 10 Codec.code.enc e.code
    ++ itemOf 11 be32 e.amount ++ itemOf 12 be32 e.paid ++ itemOf 13 be16 e.chargeRef
    ++ itemOf 14 be8 e.reader ++ itemOf 15 (fun c => be8 (Causes.byte c)) e.causes
    ++ itemOf 16 (fun p => be8 (Fin.val p)) e.page ++ itemOf 17 (fun p => be8 (Fin.val p)) e.prevPage
    ++ itemOf 18 (fun m => be8 (Mode.num m)) e.mode ++ itemOf 19 (fun m => be8 (Mode.num m)) e.prevMode
    ++ itemOf 20 be8 e.link ++ itemOf 21 be8 e.slot
    ++ itemOf 22 (fun x => be8 (SlotState.num x)) e.slotState ++ itemOf 23 be32 e.serial
    ++ itemOf 24 (fun k => be8 (FaultKind.num k)) e.faultKind
    ++ itemOf 25 (fun c => [byteOf c.completed, byteOf c.leftOccupied, byteOf c.notOpened,
        byteOf c.cancelled, byteOf c.skipped]) e.counts
    ++ itemOf 26 (fun f => be16 (EventFlags.word f)) e.flags ++ itemOf 27 be16 e.resRef

/-- The bytes of an event record: kind, record length, bank minute and items (R184). -/
def EventRec.bytes (e : EventRec) : List Byte :=
  byteOf e.kind.code :: byteOf (e.items.length + 6) :: be32 e.minute ++ e.items

/-- The records that FETCH_EVENTS takes: at most `n`, from the head, while they fit in `room` bytes (R194). -/
def takeFitting : Nat → Nat → List EventRec → List EventRec
  | 0, _, _ => []
  | _ + 1, _, [] => []
  | n + 1, room, e :: es =>
    if e.bytes.length ≤ room then e :: takeFitting n (room - e.bytes.length) es else []

/-! ### Reply payloads (R184, R189) -/

/-- A quote record: its fields in the order R141 names them. -/
def Quote.bytes (q : Quote) : List Byte :=
  be32 q.due ++ be32 q.total ++ be32 q.paid ++ be32 q.dwell ++ be16 q.periods ++ be16 q.closed
    ++ flagByte q.paidUp ++ flagByte q.dwellClamped ++ flagByte q.dayCap ++ flagByte q.ceiling
    ++ flagByte q.rounded

/-- The ground of a zero due (R117): RETRY_WINDOW 0, PAID_UP 1, the quote record after 2. -/
def Ground.bytes : Ground → List Byte
  | .RETRY_WINDOW => [0]
  | .PAID_UP => [1]
  | .quoted q => 2 :: q.bytes

/-- A list after the number of its entries. -/
def listBytes {α : Type} (f : α → List Byte) (l : List α) : List Byte := byteOf l.length :: l.flatMap f

/-- A reservation record (R4). -/
def Reservation.bytes (r : Reservation) : List Byte := be8 r.carrier ++ be16 r.ref ++ be32 r.expiry

/-- A map entry (R31). -/
def MapEntry.bytes (e : MapEntry) : List Byte := be8 e.link ++ be8 e.slot ++ be8 e.channel ++ be8 e.check

/-- A prior state (R5). -/
def Prior.bytes : Prior → List Byte
  | .free => [0]
  | .reserved r => 1 :: r.bytes

/-- A parcel record, its fields in the order of R5; those of the other kind are left out. -/
def Parcel.bytes (p : Parcel) : List Byte :=
  be8 p.kind.num ++ flagByte p.pending ++ be8 p.carrier ++ Codec.text.enc p.text ++ be8 p.declared.rank
    ++ (match p.page with | some i => be8 i.val | none => []) ++ be32 p.depositMinute
    ++ (match p.code with | some c => Codec.code.enc c | none => []) ++ be32 p.paid
    ++ optBytes be32 p.paidThrough ++ optBytes be16 p.chargeRef ++ optBytes be8 p.chargeReader
    ++ flagByte p.overdue ++ flagByte p.unverified ++ optBytes be32 p.retryUntil
    ++ optBytes Prior.bytes p.prior

/-- Number of a tag owner: none 0, K1 1, K2 2. -/
def ownerNum : Option Courier → Nat
  | none => 0
  | some .K1 => 1
  | some .K2 => 2

/-- What READ_COMPARTMENT says of the section (R30).  The check indication of R43 is sent as the presence byte of
the entry (clear: invalid) and a matching flag after it, sent clear where there is no entry (DESIGN CHOICE, log
entry 13). -/
def SectReply.bytes (r : SectReply) : List Byte :=
  be8 r.letter.val ++ be8 r.first ++ be8 r.count ++ be8 r.mode.num ++ flagByte r.enabled ++ flagByte r.hold
    ++ (match r.mode with
        | .MAPPED => optBytes MapEntry.bytes r.entry ++ flagByte r.matching
        | .DIRECT => [])

/-- The READ_COMPARTMENT reply (R27).  The section field is sent as a presence byte, clear for none, and the letter
after it (DESIGN CHOICE, log entry 13). -/
def CompReply.bytes (r : CompReply) : List Byte :=
  be8 r.comp.state.num ++ be8 r.comp.cls.rank ++ optBytes (fun i => be8 (Fin.val i)) r.comp.sect
    ++ flagByte r.comp.ownHold ++ flagByte r.held ++ be8 r.comp.causes.byte ++ be8 (ownerNum r.comp.tagOwner)
    ++ be8 (purposeNum r.comp.purpose) ++ be32 r.comp.hatchCount
    ++ optBytes Reservation.bytes r.comp.reservation ++ optBytes Parcel.bytes r.comp.parcel
    ++ optBytes (fun (j, p, g) => be16 j ++ be8 (purposeNum (some p)) ++ be8 (Stage.num g)) r.op
    ++ optBytes SectReply.bytes r.sect

/-- The fault of the capture record (R65). -/
def CapturedFault.bytes (f : CapturedFault) : List Byte :=
  be8 f.kind.num ++ be8 f.link ++ be8 f.slot ++ optBytes be8 f.channel ++ optBytes be8 f.comp ++ be32 f.minute

/-- A slot of LIST_BOARDS (R67). -/
def SlotReply.bytes (r : SlotReply) : List Byte :=
  be8 r.state.num ++ optBytes be32 r.serial ++ optBytes be32 r.commissioned ++ optBytes be8 r.channels
    ++ optBytes be8 r.units ++ be8 r.unanswered

/-- A link of LIST_BOARDS (R67).  The kind of a pass is a presence byte and 1 for a full or 0 for a periodic pass; the
eight slots follow without a count byte (DESIGN CHOICE, log entry 13). -/
def LinkReply.bytes (r : LinkReply) : List Byte :=
  optBytes flagByte r.pass ++ flagByte r.rollTimer ++ optBytes be16 r.striking ++ r.slots.flatMap SlotReply.bytes

/-- The STATUS reply (R195).  A FREE count has no stated range (R9) and takes four bytes (R184).  The four reader
states are sent without a count byte (DESIGN CHOICE, log entry 13). -/
def StatusReply.bytes (r : StatusReply) : List Byte :=
  be8 ((r.mode.map Mode.num).getD 4) ++ be8 r.base.num ++ be8 r.cause.num ++ be8 (phaseNum r.phase)
    ++ be8 r.straps.mains.units ++ be8 r.straps.links.count ++ be8 r.straps.readers.val ++ be32 r.minute
    ++ be16 r.wallMinute ++ flagByte r.timeGap
    ++ be32 r.free.S ++ be32 r.free.M ++ be32 r.free.L ++ be32 r.free.XL ++ be8 r.ops ++ be8 r.queued
    ++ flagByte r.overflow ++ r.readers.flatMap (fun x => be8 (ReaderState.num x)) ++ flagByte r.captured

/-- A match of FIND_PARCEL (R28, R146). -/
def FoundParcel.bytes (f : FoundParcel) : List Byte :=
  be8 f.comp ++ be8 f.kind.num ++ flagByte f.pending ++ flagByte f.unverified ++ flagByte f.overdue

/-- A scheduled switch (R129). -/
def Switch.bytes (w : Switch) : List Byte := be8 w.page.val ++ be32 w.minute

/-- The fee of a RETURN_DROP reply (R170): the amount and the charge reference of a paid drop, or one byte, 1 for a
prepaid drop and 0 for one priced at 0.  No presence or selector byte stands before either, and which of its two values
the byte gives to prepaid is not stated (DESIGN CHOICE, log entry 13). -/
def DropFee.bytes : DropFee → List Byte
  | .charged a r => be32 a ++ be16 r
  | .unpaid b => flagByte b

/-- The fields of a reply after its status byte, in the order the owner's rule names them (R184).  Log entry 13 names
the choices made here (DESIGN CHOICE): the empty indication of the capture record as a presence byte, the flag byte of
CANCELLED and SWITCHED in the reply that sets it alone, the count of R132 after the other fields, and which of the three
grounds of R131 holds in the IN_USE reply as three flag bytes before the count (active, target of the scheduled switch,
count above zero), each 1 where that ground holds.  A count whose own
rule states no range takes four bytes: a FREE count (R9), the operations a HOLD or LINK_RESET ended (R15, R16, R64), the
compartments of R17, the matches of R28, the slots of R53, the compartments of R97 and the tags of R175. -/
def ReplyBody.bytes : ReplyBody → List Byte
  | .empty => []
  | .statusOf r => r.bytes
  | .events recs left o => be8 recs.length ++ be8 left ++ flagByte o ++ recs.flatMap EventRec.bytes
  | .mask m => Codec.mask.enc m
  | .wall o w => be16 o ++ be16 w
  | .advanced a m => be16 a ++ be32 m
  | .modes b m => be8 b.num ++ be8 m.num
  | .quoted n p d pend pt ru q =>
    be8 n ++ be8 p.val ++ be8 d.rank ++ flagByte pend ++ optBytes be32 pt ++ optBytes be32 ru ++ q.bytes
  | .compartment r => r.bytes
  | .found t l => be32 t ++ listBytes FoundParcel.bytes l
  | .holds n l => l.flatMap flagByte ++ be8 n
  | .boards l => listBytes LinkReply.bytes l
  | .capture c => optBytes CapturedFault.bytes c.held ++ be8 c.further
  | .lockedOut m => be8 m
  | .badCode n => flagByte false ++ be8 n
  | .badCodeLocked m => flagByte true ++ be8 m
  | .feeDue q => q.bytes
  | .collecting j n c g => be16 j ++ be8 n ++ be8 c.rank ++ g.bytes
  | .paying j n c a r q => be16 j ++ be8 n ++ be8 c.rank ++ be32 a ++ be16 r ++ q.bytes
  | .noTariff => flagByte true
  | .dropping j n c u f => be16 j ++ be8 n ++ be8 c.rank ++ flagByte u ++ f.bytes
  | .noSpaceDrop n => be32 n
  | .noSpaceReserve n w => be32 n ++ be8 w
  | .noSpaceDeposit n w l => be32 n ++ be8 w ++ flagByte l
  | .reserved l c t => listBytes be8 l ++ be8 c.rank ++ be32 t
  | .released a b => be32 a ++ be32 b
  | .depositing j n c r u l =>
    be16 j ++ be8 n ++ be8 c.rank ++ flagByte r ++ flagByte u ++ flagByte l
  | .tagged a k => be32 a ++ be32 k
  | .tagStopped a k n => be32 a ++ be32 k ++ be8 n
  | .untagged n => be8 n
  | .sweeping j m k d => be16 j ++ be8 m ++ be8 k ++ be8 d
  | .sweepCancelled d e r => be8 d ++ be8 e ++ be8 r
  | .servicing j => be16 j
  | .causes c => be8 c.byte
  | .holdEnded n => be32 n
  | .stillHeld b => flagByte b
  | .ownHolds n => be32 n
  | .overlaps i => be8 i.val
  | .collides n m => be8 n ++ be8 m
  | .mapEntry e => optBytes MapEntry.bytes e
  | .accepted n => be32 n
  | .linkEnded n => be32 n
  | .pageStored p c n => Codec.page.enc p ++ flagByte c ++ be8 n
  | .pageInUse a b c n => flagByte a ++ flagByte b ++ flagByte c ++ be8 n
  | .switchCancelled w n => flagByte true ++ optBytes Switch.bytes w ++ be8 n
  | .switchStored w n => w.bytes ++ be8 n
  | .switched a b n => flagByte true ++ be8 a.val ++ be8 b.val ++ be8 n
  | .configStored c k => Codec.configReq.enc c ++ flagByte k

/-- The payload of a reply: the status byte and the fields (R184). -/
def Reply.payload (r : Reply) : List Byte := byteOf r.status.num :: r.body.bytes

/-- The frame of a reply (R184). -/
def Reply.frame (r : Reply) : List Byte :=
  let body := r.station :: r.kind :: r.tag :: r.payload
  let checked := byteOf body.length :: body
  0xC3 :: checked ++ be16 (crc16 checked).toNat

end Sys2Proof.Machine
end

