-- ==== Sys2Proof/Machine/Requests.lean ====
section
/-! DEFINITION. The taking of a request by the Kiosk Link Interface and its reply, the receiver, and the
clearing of a tag list (R177, R184 to R187). -/

namespace Sys2Proof.Machine

open Sys2Proof

/-- What an owner answers: the state it leaves, the reply status and the reply fields. -/
structure Answer where
  state  : State
  status : Status
  body   : ReplyBody
  deriving DecidableEq, Repr

/-- An owner's refusal with no fields, and nothing changed. -/
def State.refuse (s : State) (st : Status) : Answer := { state := s, status := st, body := .empty }

/-! ### Tag lists (R177) -/

/-- Every entry of a tag list is removed and its compartment's tag owner becomes none (R177). -/
def State.clearTagList (s : State) (c : Courier) : State :=
  ((s.side c).tags.foldl (fun s e => s.updComp e.comp fun x => { x with tagOwner := none }) s).updSide c
    fun x => { x with tags := [] }

/-! ### The checks of R186 -/

/-- The station may send the kind (section 10.3). -/
def stationMay (kind st : Nat) : Bool :=
  if kind ≤ 13 then decide (st = 0)
  else if kind ≤ 16 then decide (1 ≤ st ∧ st ≤ 4)
  else if kind ≤ 23 then decide (st = 5 ∨ st = 6)
  else decide (st = 7)

/-- The kind clears the tag list of its courier station: RESERVE, RESERVATION_RELEASE, DEPOSIT,
SWEEP_CANCEL (R177). -/
def clearsTags (kind : Nat) : Bool := decide (kind = 17 ∨ kind = 18 ∨ kind = 19 ∨ kind = 23)

/-- Steps 1, 3 and 4 of R186 for a kind of the catalogue. -/
def kliRefusal (h : ReqHead) (kind : Nat) : Option Status :=
  if 7 < h.station.toNat then some .BAD_REQUEST
  else if stationMay kind h.station.toNat = false then some .WRONG_STATION
  else if h.station.toNat = 7 ∧ h.keyOn = false then some .KEY_OFF
  else none

/-- The reply to a request (R184, R186): BAD_REQUEST carries the kind as received and no fields. -/
def State.reply (s : State) (h : ReqHead) (kind : Byte) (st : Status) (body : ReplyBody) : State :=
  let r : Reply :=
    if st = .BAD_REQUEST then { station := h.station, kind := kind, tag := h.tag, status := st, body := .empty }
    else { station := h.station, kind := kind + 0x80, tag := h.tag, status := st, body := body }
  s.updKli fun k => { k with reply := some r }

/-- The frame of a request. -/
def requestFrame (h : ReqHead) (kind : Byte) (p : List Byte) : RxFrame :=
  { station := h.station, kind := kind, tag := h.tag, payload := p }

/-- The request is the next to be taken (R187): its frame heads the receive buffer, or no frame waits there and the
command brings its own (log entry 8). -/
def Kli.turnOf (k : Kli) (f : RxFrame) : Bool :=
  match k.rx with
  | [] => true
  | g :: _ => decide (g = f)

/-- The request's frame leaves the receive buffer, and SERVICE_KEY is read (R186, R187). -/
def State.beginRequest (s : State) (h : ReqHead) : State :=
  s.updKli fun k => { k with keyOn := h.keyOn, rx := k.rx.tail }

/-- Step 6 of R186. -/
def State.clearForKind (s : State) (kind st : Nat) : State :=
  match courierOf st with
  | some c => if clearsTags kind then s.clearTagList c else s
  | none => s

/-- A request of a kind of the catalogue is taken whole (R186, R187). -/
def State.answerRequest {α : Type} (s : State) (h : ReqHead) (kind : Nat) (p : List Byte) (c : Codec α)
    (owner : α → State → Answer) : State :=
  let s1 := s.beginRequest h
  match kliRefusal h kind with
  | some st => s1.reply h (byteOf kind) st .empty
  | none =>
    match c.parse p with
    | none => s1.reply h (byteOf kind) .BAD_REQUEST .empty
    | some a =>
      let r := owner a (s1.clearForKind kind h.station.toNat)
      r.state.reply h (byteOf kind) r.status r.body

/-- A request is taken in its turn.  One whose frame waits behind another, or was discarded while 3 waited, is not
taken and draws no reply (R187). -/
def State.takeRequest {α : Type} (s : State) (h : ReqHead) (kind : Nat) (p : List Byte) (c : Codec α)
    (owner : α → State → Answer) : State :=
  if s.kli.turnOf (requestFrame h (byteOf kind) p) then s.answerRequest h kind p c owner else s

/-- UNKNOWN_REQUEST_KIND: a station above 7 or a kind outside 1 to 41 is refused BAD_REQUEST (R186). -/
def execUnknownRequestKind (h : ReqHead) (kind : Byte) (p : List Byte) (s : State) :
    Host.Outcome State Fault Refusal :=
  if (7 < h.station.toNat ∨ kind.toNat = 0 ∨ 41 < kind.toNat) ∧ s.kli.turnOf (requestFrame h kind p) = true then
    .next ((s.beginRequest h).reply h kind .BAD_REQUEST .empty)
  else .next s

/-! ### The receiver (R185, R187) -/

/-- The length byte is valid (R185). -/
def lengthOk (len : Byte) : Bool := decide (4 ≤ len.toNat ∧ len.toNat ≤ 250)

/-- A checked frame from its bytes, station to the end of the payload. -/
def frameOf : List Byte → Option RxFrame
  | st :: k :: t :: p => some { station := st, kind := k, tag := t, payload := p }
  | _ => none

/-- A checked frame joins the receive buffer, or is discarded while 3 frames wait (R187). -/
def Kli.receive (k : Kli) (f : RxFrame) : Kli :=
  if k.rx.length < Config.rxFrames then { k with partialRx := [], rx := k.rx ++ [f] }
  else { k with partialRx := [] }

/-- KIOSK_FRAME_COMPLETE: the frame is checked (R184, R185) and goes to the receive buffer (R187). -/
def execKioskFrameComplete (len : Byte) (body : List Byte) (check : BitVec 16) (s : State) :
    Host.Outcome State Fault Refusal :=
  if lengthOk len = true ∧ body.length = len.toNat then
    if crc16 (len :: body) = check then
      match frameOf body with
      | some f => .next (s.updKli fun k => k.receive f)
      | none => .next s
    else .next (s.updKli fun k => { k with partialRx := [] })
  else .next s

/-- FRAME_GAP_TIMEOUT: the partial frame is discarded and the byte that ends the gap is hunted (R185). -/
def execFrameGapTimeout (next : Byte) (s : State) : Host.Outcome State Fault Refusal :=
  .next (s.updKli fun k => { k with partialRx := if next = 0xC3 then [next] else [] })

/-- FRAME_LENGTH_DISCARD: a length outside 4 to 250 discards the frame (R185). -/
def execFrameLengthDiscard (len : Byte) (s : State) : Host.Outcome State Fault Refusal :=
  if lengthOk len then .next s else .next (s.updKli fun k => { k with partialRx := [] })

end Sys2Proof.Machine
end

