-- ==== Sys2Proof/Machine/Search.lean ====
section
/-! DEFINITION. The allocator's searches and the code issuer: candidates, wear order, the reserve test and
the draws (R92, R93, R95, R99, R101, R105, R169). -/

namespace Sys2Proof.Machine

open Sys2Proof

/-- Printable characters of a text field: 0x20 to 0x7E (R98, R167). -/
def printable (t : Text) : Bool := t.all fun b => decide (0x20 ≤ b.toNat ∧ b.toNat ≤ 0x7E)

/-- A carrier id is in 1 to 250 (R5). -/
def carrierOk (c : Nat) : Bool := decide (1 ≤ c ∧ c ≤ 250)

/-- The conditions of R92 on a compartment but for the resolution; a state and class are the step's own. -/
def State.candidate (s : State) (n : Nat) (st : CompState) (k : SizeClass) : Bool :=
  let c := s.comp n
  decide (c.state = st ∧ c.cls = k) && !s.heldRec c && c.causes.isEmpty && s.enabledRec c

/-- FREE compartments of a class in wear order: lowest hatch-cycle count, then lowest number (R93). -/
def State.wearOrder (s : State) (k : SizeClass) : List Nat :=
  (compNos.filter fun n => decide ((s.comp n).state = .FREE ∧ (s.comp n).cls = k)).insertionSort
    fun a b => (s.comp a).hatchCount < (s.comp b).hatchCount ∨ ((s.comp a).hatchCount = (s.comp b).hatchCount ∧ a ≤ b)

/-- Walk-up reserve of a class (R91). -/
def State.walkUp (s : State) (k : SizeClass) : Nat := s.scu.config.walkUp.get k

/-- The reserve test of R93. -/
def State.reserveTest (s : State) (k : SizeClass) : Bool := decide (s.walkUp k < s.freeCount k)

/-- What a search chooses: a compartment with the address and units of its resolution (R92). -/
structure Chosen where
  comp  : Nat
  addr  : Addr
  units : Nat
  deriving DecidableEq, Repr

/-- A step of a search: the state and class asked for, whether the reserve test is made before each
compartment, and the compartments in their order. -/
structure Step where
  st      : CompState
  cls     : SizeClass
  reserve : Bool
  comps   : List Nat
  deriving DecidableEq, Repr

/-- The compartments of a search step are looked at in order; one that fails its resolution is passed over
with the effects of R34 (R92, R101).  A compartment with an operation is not taken (R11). -/
def searchIn (st : CompState) (k : SizeClass) (reserve : Bool) : List Nat → State → State × Option Chosen
  | [], s => (s, none)
  | n :: ns, s =>
    if reserve && !s.reserveTest k then (s, none)
    else if s.candidate n st k && !s.hasOp n then
      match s.resolution n with
      | .ok a u => (s, some { comp := n, addr := a, units := u })
      | _ => searchIn st k reserve ns (s.afterResolve n)
    else searchIn st k reserve ns s

/-- The steps of a search in order, up to the first that finds a candidate. -/
def searchSteps : List Step → State → State × Option Chosen
  | [], s => (s, none)
  | x :: xs, s =>
    match searchIn x.st x.cls x.reserve x.comps s with
    | (s1, some c) => (s1, some c)
    | (s1, none) => searchSteps xs s1

/-- RESERVED compartments of a class under a carrier's reservation, ascending (R99, step 1). -/
def State.reservedFor (s : State) (carrier : Nat) (ref : Option Nat) (k : SizeClass) : List Nat :=
  compNos.filter fun n =>
    let c := s.comp n
    decide (c.state = .RESERVED ∧ c.cls = k) &&
      c.reservation.any fun r => decide (r.carrier = carrier) &&
        (match ref with | some x => decide (r.ref = x) | none => true)

/-- The classes a request may use: the declared one, and each larger one where upsizing is allowed. -/
def classesFrom (k : SizeClass) (upsize : Bool) : List SizeClass := k :: if upsize then k.larger else []

/-- The steps of the DEPOSIT search (R99). -/
def State.depositSteps (s : State) (d : DepositReq) : List Step :=
  (classesFrom d.declared d.upsize).map (fun k =>
      { st := .RESERVED, cls := k, reserve := false, comps := s.reservedFor d.carrier d.ref k })
    ++ (classesFrom d.declared d.upsize).map (fun k =>
      { st := .FREE, cls := k, reserve := true, comps := s.wearOrder k })

/-- The steps of the return-drop search (R169). -/
def State.dropSteps (s : State) (k : SizeClass) : List Step :=
  (classesFrom k true).map fun k => { st := .FREE, cls := k, reserve := false, comps := s.wearOrder k }

/-- A compartment is taken by RESERVE (R10, R95). -/
def State.reserveComp (s : State) (n : Nat) (r : Reservation) : State :=
  s.updComp n fun c => { c with state := .RESERVED, reservation := some r }

/-- The RESERVE search (R95): up to `want` compartments in wear order, with those taken, in order. -/
def reserveIn (k : SizeClass) (r : Reservation) : Nat → List Nat → State → State × List Nat
  | 0, _, s => (s, [])
  | _ + 1, [], s => (s, [])
  | want + 1, n :: ns, s =>
    if s.reserveTest k then
      if s.candidate n .FREE k then
        match s.resolution n with
        | .ok _ _ =>
          let (s1, l) := reserveIn k r want ns (s.reserveComp n r)
          (s1, n :: l)
        | _ => reserveIn k r (want + 1) ns (s.afterResolve n)
      else reserveIn k r (want + 1) ns s
    else (s, [])

/-! ### The code issuer (R105, R106) -/

/-- A drawn value is rejected: it is live or retired (R105). -/
def State.codeUsed (s : State) (c : Nat) : Bool :=
  s.liveCodes.contains c || s.alloc.retired.any fun e => e.code == c

/-- Up to the given number of draws of the code issuer (R105); the draws are free values. -/
def drawFrom : Nat → State → State × Option Nat
  | 0, s => (s, none)
  | k + 1, s =>
    let c := (Config.codeDraw s.alloc.draws).val
    let s1 := s.updAlloc fun a => { a with draws := a.draws + 1 }
    if s.codeUsed c then drawFrom k s1 else (s1, some c)

/-- A code for one request: sixteen draws at most (R105). -/
def State.drawCode (s : State) : State × Option Nat := drawFrom Config.codeDraws s

end Sys2Proof.Machine
end

