-- ==== Sys2Proof/Machine/Couriers.lean ====
section
/-! DEFINITION. The requests of the courier stations: RESERVE, RESERVATION_RELEASE, DEPOSIT, TAG, UNTAG, SWEEP
and SWEEP_CANCEL (R94 to R103, R175, R176, R179, R183). -/

namespace Sys2Proof.Machine

open Sys2Proof

/-- A request of a courier station at its owner, with the courier station of its number. -/
def State.asCourier (s : State) (st : Nat) (f : Courier → State → Answer) : Answer :=
  match courierOf st with
  | some c => f c s
  | none => s.refuse .WRONG_STATION

/-- Refused STARTING during the start-up phases and NO_POWER in DORMANT. -/
def State.idleCheck (s : State) : Option Status :=
  if s.starting then some .STARTING else if s.scu.mode = .DORMANT then some .NO_POWER else none

/-! ### Reservations (R94, R95, R97) -/

/-- The ranges of RESERVE's fields (R94). -/
def ReserveReq.ok (r : ReserveReq) : Bool :=
  carrierOk r.carrier && decide (1 ≤ r.count ∧ r.count ≤ 16 ∧ 1 ≤ r.duration ∧ r.duration ≤ 1440)

/-- RESERVE at the allocator (R94, R95). -/
def State.reserve (s : State) (r : ReserveReq) : Answer :=
  match s.idleCheck with
  | some x => s.refuse x
  | none =>
    if r.ok = false then s.refuse .BAD_REQUEST
    else
      let t := addMin s.now r.duration
      let (s1, l) := reserveIn r.cls { carrier := r.carrier, ref := r.ref, expiry := t } r.count
        (s.wearOrder r.cls) s
      if l = [] then
        { state := s1, status := .NO_SPACE, body := .noSpaceReserve (s1.freeCount r.cls) (s1.walkUp r.cls) }
      else { state := s1, status := .OK, body := .reserved l r.cls t }

/-- RESERVE (R94). -/
def execReserve (h : ReqHead) (p : List Byte) (s : State) : Host.Outcome State Fault Refusal :=
  .next (s.takeRequest h 17 p .reserveReq fun r s => s.reserve r)

/-- RESERVED compartments under a reference (R97). -/
def State.reservedUnder (s : State) (ref : Nat) : List Nat :=
  compNos.filter fun n =>
    decide ((s.comp n).state = .RESERVED) && (s.comp n).reservation.any fun r => decide (r.ref = ref)

/-- A prior state under a reference. -/
def Prior.under (ref : Nat) : Prior → Bool
  | .free => false
  | .reserved r => decide (r.ref = ref)

/-- DEPOSITING compartments whose prior state is reserved under a reference (R97). -/
def State.priorUnder (s : State) (ref : Nat) : List Nat :=
  compNos.filter fun n =>
    decide ((s.comp n).state = .DEPOSITING) &&
      (s.comp n).parcel.any fun p => p.prior.any (Prior.under ref)

/-- RESERVATION_RELEASE at the allocator (R97). -/
def State.release (s : State) (ref : Nat) : Answer :=
  match s.idleCheck with
  | some x => s.refuse x
  | none =>
    let freed := s.reservedUnder ref
    let cleared := s.priorUnder ref
    if freed = [] ∧ cleared = [] then s.refuse .NOT_FOUND
    else
      let s1 := freed.foldl (fun s n => s.updComp n fun c => { c with state := .FREE, reservation := none }) s
      let s2 := cleared.foldl (fun s n => s.updParcel n fun p => { p with prior := some .free }) s1
      { state := s2, status := .OK, body := .released freed.length cleared.length }

/-- RESERVATION_RELEASE (R97). -/
def execReservationRelease (h : ReqHead) (p : List Byte) (s : State) : Host.Outcome State Fault Refusal :=
  .next (s.takeRequest h 18 p .nat16 fun r s => s.release r)

/-! ### Deposits (R98 to R103) -/

/-- Steps 1 to 5 of R98. -/
def State.depositCheck (s : State) (st : Nat) (d : DepositReq) : Option Status :=
  if s.starting then some .STARTING
  else if s.scu.mode.onMains = false then some .NO_POWER
  else if carrierOk d.carrier = false ∨ printable d.text = false then some .BAD_REQUEST
  else if (s.page s.tariff.active).isNone then some .WRONG_STATE
  else if s.stationFull st then some .BUSY
  else none

/-- Flag RESERVATION_LAPSED (R100): a reference is given and no compartment stands RESERVED under it for the
carrier. -/
def State.lapsed (s : State) (d : DepositReq) : Bool :=
  match d.ref with
  | none => false
  | some x =>
    !(compNos.any fun n => decide ((s.comp n).state = .RESERVED) &&
        (s.comp n).reservation.any fun r => decide (r.carrier = d.carrier ∧ r.ref = x))

/-- The pending parcel of a deposit (R103). -/
def DepositReq.parcel (d : DepositReq) (page : Fin 4) (now code : Nat) (prior : Prior) : Parcel :=
  { kind := .DELIVERY, pending := true, carrier := d.carrier, text := d.text, declared := d.declared,
    page := some page, depositMinute := now, code := some code, paid := 0, paidThrough := none,
    chargeRef := none, chargeReader := none, overdue := false, unverified := false, retryUntil := none,
    prior := some prior }

/-- The prior state of a compartment taken by a deposit (R7, R11). -/
def Compartment.priorOf (c : Compartment) : Prior :=
  match c.reservation with
  | some r => .reserved r
  | none => .free

/-- The compartment of an accepted deposit (R11, R103). -/
def State.depositComp (s : State) (d : DepositReq) (n code : Nat) : State :=
  (s.updComp n fun x =>
    { x with state := .DEPOSITING, reservation := none,
             parcel := some (d.parcel s.tariff.active s.now code x.priorOf) }).updRefs s.tariff.active (· + 1)

/-- The draw and the creation of R102 and R103 on the compartment chosen.  NO_CODE and BUSY carry no
RESERVATION_LAPSED (R100; DESIGN CHOICE, log entry 42). -/
def State.depositCreate (s : State) (st : Nat) (d : DepositReq) (lapsed : Bool) (c : Chosen) : Answer :=
  match s.drawCode with
  | (s1, none) => s1.refuse .NO_CODE
  | (s1, some code) =>
    match s1.createOp .DEPOSIT st c.comp c.addr c.units .QUEUED with
    | none => s1.refuse .BUSY
    | some (s2, job) =>
      let x := s.comp c.comp
      { state := (s2.depositComp d c.comp code).pass
        status := .ACCEPTED
        body := .depositing job c.comp x.cls (decide (x.state = .RESERVED))
          (decide (d.declared.rank < x.cls.rank)) lapsed }

/-- DEPOSIT at the allocator (R98 to R103). -/
def State.deposit (s : State) (st : Nat) (d : DepositReq) : Answer :=
  match s.depositCheck st d with
  | some x => s.refuse x
  | none =>
    let lapsed := s.lapsed d
    match searchSteps (s.depositSteps d) s with
    | (s1, none) =>
      { state := s1, status := .NO_SPACE,
        body := .noSpaceDeposit (s1.freeCount d.declared) (s1.walkUp d.declared) lapsed }
    | (s1, some c) => s1.depositCreate st d lapsed c

/-- DEPOSIT (R98). -/
def execDeposit (h : ReqHead) (p : List Byte) (s : State) : Host.Outcome State Fault Refusal :=
  .next (s.takeRequest h 19 p .depositReq fun d s => s.deposit h.station.toNat d)

/-! ### Tags (R175, R176) -/

/-- The compartments of a range clipped to 1 to 240, ascending (R175). -/
def clippedRange (first last : Nat) : List Nat :=
  let a := max first 1
  List.range' a (min last 240 + 1 - a)

/-- A tag joins the list of a courier station (R175). -/
def State.addTag (s : State) (c : Courier) (t : TagReq) (n : Nat) : State :=
  (s.updComp n fun x => { x with tagOwner := some c }).updSide c
    fun x => { x with tags := x.tags ++ [{ comp := n, filter := t.filter, carrier := t.carrier }] }

/-- The compartment holds a parcel that a TAG counts as skipped where it is not eligible (R175). -/
def State.loaded (s : State) (n : Nat) : Bool :=
  decide ((s.comp n).state = .LOADED ∨ (s.comp n).state = .RETURN_LOADED)

/-- The walk of TAG over its range (R175), with the numbers added and skipped so far. -/
def tagOver (c : Courier) (t : TagReq) : List Nat → Nat → Nat → State → Answer
  | [], added, skipped, s => { state := s, status := .OK, body := .tagged added skipped }
  | n :: ns, added, skipped, s =>
    if s.eligible n t.filter t.carrier && (s.comp n).tagOwner.isNone then
      if (s.side c).tags.length < Config.tagPlaces then tagOver c t ns (added + 1) skipped (s.addTag c t n)
      else { state := s, status := .BUSY, body := .tagStopped added skipped n }
    else if s.loaded n then tagOver c t ns added (skipped + 1) s
    else tagOver c t ns added skipped s

/-- TAG at the Sweep Unit (R175). -/
def State.tagRange (s : State) (c : Courier) (t : TagReq) : Answer :=
  match s.idleCheck with
  | some x => s.refuse x
  | none =>
    if carrierOk t.carrier then tagOver c t (clippedRange t.first t.last) 0 0 s else s.refuse .BAD_REQUEST

/-- TAG (R175). -/
def execTag (h : ReqHead) (p : List Byte) (s : State) : Host.Outcome State Fault Refusal :=
  .next (s.takeRequest h 20 p .tagReq fun t s => s.asCourier h.station.toNat fun c s => s.tagRange c t)

/-- UNTAG at the Sweep Unit (R176). -/
def State.untag (s : State) (c : Courier) (n : Nat) : Answer :=
  if s.starting then s.refuse .STARTING
  else if (s.side c).tags.any (fun e => e.comp == n) then
    let s1 := (s.updComp n fun x => { x with tagOwner := none }).updSide c
      fun x => { x with tags := withoutComp x.tags n }
    { state := s1, status := .OK, body := .untagged (s1.side c).tags.length }
  else s.refuse .NOT_FOUND

/-- UNTAG (R176). -/
def execUntag (h : ReqHead) (p : List Byte) (s : State) : Host.Outcome State Fault Refusal :=
  .next (s.takeRequest h 21 p .nat8 fun n s => s.asCourier h.station.toNat fun c s => s.untag c n)

/-! ### Sweep runs (R179, R183) -/

/-- Steps 1 to 4 of R179. -/
def State.sweepCheck (s : State) (c : Courier) : Option Status :=
  if s.starting then some .STARTING
  else if s.scu.mode.onMains = false then some .NO_POWER
  else if (s.side c).run.isSome then some .BUSY
  else if (s.side c).tags = [] then some .NOTHING_TAGGED
  else none

/-- Entries by compartment number (R179). -/
def byComp (l : List TagEntry) : List TagEntry := l.insertionSort fun a b => a.comp ≤ b.comp

/-- A run at its start (R179). -/
def Run.start (job : Nat) (pending : List TagEntry) : Run :=
  { job := job, pending := pending, completed := 0, leftOccupied := 0, notOpened := 0, cancelled := 0,
    skipped := 0, unpaid := 0 }

/-- The tag list moves into the run (R179). -/
def State.startRun (s : State) (c : Courier) : State :=
  let job := s.nextJob
  (s.updHce fun h => { h with lastJob := job }).updSide c
    fun x => { tags := [], run := some (Run.start job (byComp x.tags)) }

/-- SWEEP at the Sweep Unit (R179). -/
def State.sweepRun (s : State) (c : Courier) : Answer :=
  match s.sweepCheck c with
  | some x => s.refuse x
  | none =>
    let moved := (s.side c).tags.length
    let (s1, t) := (s.startRun c).topUp c
    { state := (s1.endRun c).pass, status := .ACCEPTED,
      body := .sweeping s.nextJob moved t.made t.dropped }

/-- SWEEP (R179). -/
def execSweep (h : ReqHead) (p : List Byte) (s : State) : Host.Outcome State Fault Refusal :=
  .next (s.takeRequest h 22 p .blank fun _ s => s.asCourier h.station.toNat fun c s => s.sweepRun c)

/-- The pending compartments of a run leave it, counted cancelled (R183). -/
def State.cancelPending (s : State) (c : Courier) (l : List TagEntry) : State :=
  (l.foldl (fun s e => s.updComp e.comp fun x => { x with tagOwner := none }) s).updRun c
    fun r => { r with pending := [], cancelled := r.cancelled + l.length }

/-- The QUEUED SWEEP operations of a courier station, links ascending and in bulk-queue order (R183). -/
def State.queuedSweeps (s : State) (c : Courier) : List Nat :=
  s.linkNos.flatMap fun l => (s.link l).bulk.filter fun j => (s.opByJob j).any (Op.sweepOf · c)

/-- SWEEP_CANCEL at the Sweep Unit (R183). -/
def State.sweepStop (s : State) (c : Courier) : Answer :=
  if s.starting then s.refuse .STARTING
  else
    match (s.side c).run with
    | none => s.refuse .WRONG_STATE
    | some r =>
      let s1 := s.cancelPending c r.pending
      let jobs := s1.queuedSweeps c
      let s2 := s1.endJobs jobs .CANCELLED
      let running := (s2.hce.ops.filter (Op.sweepOf · c)).length
      { state := (s2.endRun c).pass, status := .OK,
        body := .sweepCancelled r.pending.length jobs.length running }

/-- SWEEP_CANCEL (R183). -/
def execSweepCancel (h : ReqHead) (p : List Byte) (s : State) : Host.Outcome State Fault Refusal :=
  .next (s.takeRequest h 23 p .blank fun _ s => s.asCourier h.station.toNat fun c s => s.sweepStop c)

end Sys2Proof.Machine
end

