-- ==== Sys2Proof/Machine/Customer.lean ====
section
/-! DEFINITION. The requests of the customer stations: COLLECT, PAY and RETURN_DROP (R111 to R120, R167 to
R170). -/

namespace Sys2Proof.Machine

open Sys2Proof

/-! ### The Collection Gate (R111 to R115) -/

/-- The lockout of a gate is in force: its end minute is later than now (R114). -/
def Gate.lockedFor (g : Gate) (now : Nat) : Option Nat :=
  match g.lockout with
  | some t => if now < t then some (t - now) else none
  | none => none

/-- The checks before the lookup (R111). -/
def State.gateCheck (s : State) (st : Nat) : Option (Status × ReplyBody) :=
  if s.starting then some (.STARTING, .empty)
  else if s.scu.mode = .DORMANT then some (.NO_POWER, .empty)
  else if s.scu.mode = .NIGHT then some (.CLOSED, .empty)
  else
    match (s.gate st).lockedFor s.now with
    | some m => some (.LOCKED_OUT, .lockedOut m)
    | none => if s.stationFull st then some (.BUSY, .empty) else none

/-- The LOADED compartment whose delivery parcel has the code (R112). -/
def State.lookup (s : State) (code : Nat) : Option Nat :=
  compNos.find? fun n =>
    decide ((s.comp n).state = .LOADED) && (s.comp n).parcel.any fun p => decide (p.code = some code)

/-- The wrong-code list with a minute appended, the last five kept (R113). -/
def wrongAppend (l : List Nat) (now : Nat) : List Nat :=
  (if l.length < Config.wrongPlaces then l else l.drop 1) ++ [now]

/-- The lockout test of R113 on a list: five entries, the oldest less than 10 minutes old. -/
def lockoutTest (l : List Nat) (now : Nat) : Bool :=
  match l with
  | t :: _ => decide (l.length = Config.wrongPlaces ∧ now - t < 10)
  | [] => false

/-- A wrong code at a station (R113). -/
def State.wrongCode (s : State) (st : Nat) : Answer :=
  let l := wrongAppend (s.gate st).wrong s.now
  if lockoutTest l s.now then
    { state := s.setGate st { wrong := [], lockout := some (addMin s.now Config.window) },
      status := .BAD_CODE, body := .badCodeLocked Config.window }
  else
    { state := s.setGate st { s.gate st with wrong := l }, status := .BAD_CODE, body := .badCode l.length }

/-- The due of the fee step: a window, or a quote at now (R115). -/
def State.feeGround (s : State) (p : Parcel) : Ground :=
  if p.retryUntil.any (fun t => decide (s.now ≤ t)) then .RETRY_WINDOW
  else if p.paidThrough.any (fun t => decide (s.now ≤ t)) then .PAID_UP
  else .quoted (s.quoteAt s.now p)

/-- The due of a ground. -/
def Ground.due : Ground → Nat
  | .RETRY_WINDOW | .PAID_UP => 0
  | .quoted q => q.due

/-- COLLECT and PAY up to the fee step (R111, R112, R115): a refusal, or the compartment and the ground with
the wrong-code list emptied. -/
def State.toFeeStep (s : State) (st code : Nat) : Except Answer (State × Nat × Ground) :=
  match s.gateCheck st with
  | some (x, b) => .error { state := s, status := x, body := b }
  | none =>
    match s.lookup code with
    | none => .error (s.wrongCode st)
    | some n =>
      if s.held n then .error (s.refuse .HELD)
      else if (s.comp n).causes.isEmpty = false then .error (s.refuse .FAULTED)
      else if s.hasOp n then .error (s.refuse .BUSY)
      else
        match (s.comp n).parcel with
        | none => .error (s.wrongCode st)
        | some p => .ok (s.setGate st { s.gate st with wrong := [] }, n, s.feeGround p)

/-! ### The collection operation (R117, R119, R120) -/

/-- Steps 1 and 2 of R117: the resolution and the capacity test. -/
def State.reachFor (s : State) (n : Nat) : Except Answer (Addr × Nat) :=
  match s.resolution n with
  | .ok a u => if s.arb.capacity < u then .error (s.refuse .NO_POWER) else .ok (a, u)
  | r => .error { state := s.afterResolve n, status := r.status, body := .empty }

/-- A COLLECT with due 0 creates its operation (R117). -/
def State.collectNow (s : State) (st n : Nat) (g : Ground) : Answer :=
  match s.reachFor n with
  | .error a => a
  | .ok (a, u) =>
    match s.createOp .COLLECT st n a u .QUEUED with
    | none => s.refuse .BUSY
    | some (s1, job) =>
      { state := (s1.clearTag n).pass, status := .ACCEPTED, body := .collecting job n (s.comp n).cls g }

/-- COLLECT at the Collection Gate (R111 to R117). -/
def State.collect (s : State) (st code : Nat) : Answer :=
  match s.toFeeStep st code with
  | .error a => a
  | .ok (s1, n, g) =>
    match g with
    | .quoted q => if 0 < q.due then { state := s1, status := .FEE_DUE, body := .feeDue q }
                   else s1.collectNow st n g
    | .RETRY_WINDOW | .PAID_UP => s1.collectNow st n g

/-- COLLECT (R111). -/
def execCollect (h : ReqHead) (p : List Byte) (s : State) : Host.Outcome State Fault Refusal :=
  .next (s.takeRequest h 14 p .code fun c s => s.collect h.station.toNat c)

/-- The parcel of a compartment holds a charge reference (R119, step 2). -/
def State.parcelCharged (s : State) (n : Nat) : Bool := (s.comp n).parcel.any fun p => p.chargeRef.isSome

/-- A PAY with a due starts its charge and its operation (R119, R120). -/
def State.payNow (s : State) (st n : Nat) (q : Quote) : Answer :=
  if s.parcelCharged n then s.refuse .BUSY
  else if s.readerTest st ≠ .OK then s.refuse (s.readerTest st)
  else
    match s.reachFor n with
    | .error a => a
    | .ok (a, u) =>
      match s.createOp .COLLECT st n a u .AWAIT_PAYMENT with
      | none => s.refuse .BUSY
      | some (s1, job) =>
        let s2 := (s1.startCharge st q.due job n).clearTag n
        { state := s2, status := .ACCEPTED, body := .paying job n (s.comp n).cls q.due s2.pbc.refCounter q }

/-- PAY at the Collection Gate (R119, R120). -/
def State.payFee (s : State) (st code : Nat) : Answer :=
  match s.toFeeStep st code with
  | .error a => a
  | .ok (s1, n, g) =>
    match g with
    | .quoted q => if 0 < q.due then s1.payNow st n q else s1.collectNow st n g
    | .RETRY_WINDOW | .PAID_UP => s1.collectNow st n g

/-- PAY (R119). -/
def execPay (h : ReqHead) (p : List Byte) (s : State) : Host.Outcome State Fault Refusal :=
  .next (s.takeRequest h 15 p .code fun c s => s.payFee h.station.toNat c)

/-! ### Return drops (R167 to R170) -/

/-- Steps 1 to 4 of R167. -/
def State.dropCheck (s : State) (st : Nat) (d : DropReq) : Option Status :=
  if s.starting then some .STARTING
  else
    match s.scu.mode with
    | .NIGHT => some .CLOSED
    | .BATTERY | .DORMANT => some .NO_POWER
    | .OPEN =>
      if carrierOk d.carrier = false ∨ printable d.label = false then some .BAD_REQUEST
      else if s.stationFull st then some .BUSY
      else none

/-- The return fee of a class on the active page, if that page is LOADED (R144). -/
def State.returnFee (s : State) (k : SizeClass) : Option Nat :=
  (s.page s.tariff.active).map fun p => p.returnFee.get k

/-- The fee step of R168: the amount to charge, 0 where nothing is owed, or a refusal. -/
def State.dropFee (s : State) (st : Nat) (d : DropReq) : Except Answer Nat :=
  if d.prepaid then .ok 0
  else
    match s.returnFee d.declared with
    | none => .error { state := s, status := .WRONG_STATE, body := .noTariff }
    | some 0 => .ok 0
    | some (f + 1) => if s.readerTest st = .OK then .ok (f + 1) else .error (s.refuse (s.readerTest st))

/-- The pending parcel of a return drop (R170). -/
def DropReq.parcel (d : DropReq) (now : Nat) : Parcel :=
  { kind := .RETURN, pending := true, carrier := d.carrier, text := d.label, declared := d.declared,
    page := none, depositMinute := now, code := none, paid := 0, paidThrough := none, chargeRef := none,
    chargeReader := none, overdue := false, unverified := false, retryUntil := none, prior := some .free }

/-- The creation of R170 on the compartment chosen. -/
def State.dropCreate (s : State) (st : Nat) (d : DropReq) (fee : Nat) (c : Chosen) : Answer :=
  let stage : Stage := if fee = 0 then .QUEUED else .AWAIT_PAYMENT
  match s.createOp .RETURN_DROP st c.comp c.addr c.units stage with
  | none => s.refuse .BUSY
  | some (s1, job) =>
    let k := (s.comp c.comp).cls
    let up := decide (d.declared.rank < k.rank)
    let s2 := s1.updComp c.comp fun x => { x with state := .DEPOSITING, parcel := some (d.parcel s.now) }
    if fee = 0 then
      { state := s2.pass, status := .ACCEPTED, body := .dropping job c.comp k up (.unpaid d.prepaid) }
    else
      let s3 := s2.startCharge st fee job c.comp
      { state := s3, status := .ACCEPTED,
        body := .dropping job c.comp k up (.charged fee s3.pbc.refCounter) }

/-- RETURN_DROP at the allocator (R167). -/
def State.returnDrop (s : State) (st : Nat) (d : DropReq) : Answer :=
  match s.dropCheck st d with
  | some x => s.refuse x
  | none =>
    match s.dropFee st d with
    | .error a => a
    | .ok fee =>
      match searchSteps (s.dropSteps d.declared) s with
      | (s1, none) => { state := s1, status := .NO_SPACE, body := .noSpaceDrop (s1.freeCount d.declared) }
      | (s1, some c) => s1.dropCreate st d fee c

/-- RETURN_DROP (R167). -/
def execReturnDrop (h : ReqHead) (p : List Byte) (s : State) : Host.Outcome State Fault Refusal :=
  .next (s.takeRequest h 16 p .dropReq fun d s => s.returnDrop h.station.toNat d)

end Sys2Proof.Machine
end

