-- ==== Sys2Proof/Machine/Startup.lean ====
section
/-! DEFINITION. The Supply and Clock Unit: the mode, the hand-on of a bank minute, the restart, the audit,
the reconciliation and the end of the start-up phases (R96, R108, R114, R134, R135, R145, R146, R165, R166,
R197 to R204). -/

namespace Sys2Proof.Machine

open Sys2Proof

/-! ### The mode (R197) -/

/-- The mode the input levels and the base mode give (R197). -/
def modeOf (mains low : Bool) (base : BaseMode) : Mode :=
  if mains then base.toMode else if low then .DORMANT else .BATTERY

/-- The mode of R197 for the levels and base mode held. -/
def State.modeNow (s : State) : Mode := modeOf s.scu.mainsGood s.scu.batteryLow s.scu.base

/-- The queued jobs of a link, the priority queue before the bulk queue (R64, R76). -/
def Link.queued (x : Link) : List Nat := x.prio ++ x.bulk

/-- Every QUEUED operation ends NO_POWER, links ascending (R76). -/
def State.endAllQueued (s : State) : State :=
  s.linkNos.foldl (fun s l => s.endJobs (s.link l).queued .NO_POWER) s

/-- MODE_CHANGED (R197). -/
def State.modeChanged (s : State) (prev : Mode) : EventRec :=
  { s.event .MODE_CHANGED with mode := some s.scu.mode, prevMode := some prev }

/-- The mode and with it the capacity take a value, with no event (R73, R197). -/
def State.withMode (s : State) (m : Mode) : State :=
  (s.updScu fun u => { u with mode := m }).updArb fun a => { a with capacity := capacityOf s.scu.straps m }

/-- The mode is decided again (R197), with the effects of a change (R76, R180). -/
def State.decideMode (s : State) : State :=
  let m := s.modeNow
  let prev := s.scu.mode
  if m = prev then s
  else
    let s1 := s.withMode m
    let s2 := s1.post (s1.modeChanged prev)
    let s3 := if m = .DORMANT then s2.endAllQueued else s2
    let s4 := s3.pass
    if m.onMains ∧ prev.onMains = false then ((s4.topUpEnd .K1).topUpEnd .K2).pass else s4

/-! ### What a new bank minute brings (R199) -/

/-- One compartment of the expiry scan (R96). -/
def State.expireAt (s : State) (n : Nat) : State :=
  let c := s.comp n
  match c.state, c.reservation with
  | .RESERVED, some r =>
    if r.expiry ≤ s.now then
      (s.updComp n fun c => { c with state := .FREE, reservation := none }).post (s.expiredEvent n r)
    else s
  | _, _ => s

/-- The reservation expiry scan (R96). -/
def State.expiryScan (s : State) : State := compNos.foldl State.expireAt s

/-- The ageing of the retired-code list (R108); a negative age counts as 0. -/
def State.ageRetired (s : State) : State :=
  s.updAlloc fun a => { a with retired := a.retired.filter fun e => decide (s.now - e.minute < Config.retiredAge) }

/-- A gate whose lockout end minute has come loses it (R114). -/
def Gate.unlock (g : Gate) (now : Nat) : Gate :=
  match g.lockout with
  | some t => if t ≤ now then { g with lockout := none } else g
  | none => g

/-- The lockout removal (R114). -/
def State.clearLockouts (s : State) : State := s.updGates fun v => v.map fun g => g.unlock s.now

/-- A switch of the active page (R135). -/
def State.switchPage (s : State) (p : Fin 4) : State :=
  let s1 := s.updTariff fun t => { t with active := p, scheduled := none }
  s1.post { s1.event .TARIFF_SWITCHED with page := some p, prevPage := some s.tariff.active }

/-- The tariff switch test (R134). -/
def State.switchTest (s : State) : State :=
  match s.tariff.scheduled with
  | some w => if w.minute ≤ s.now then s.switchPage w.page else s
  | none => s

/-- One compartment of the overdue evaluation (R146). -/
def State.overdueAt (s : State) (n : Nat) : State :=
  let c := s.comp n
  match c.state, c.parcel with
  | .LOADED, some p =>
    if p.kind = .DELIVERY ∧ p.overdue = false ∧ p.depositMinute ≤ s.now
        ∧ (s.parcelPage p).overdueMin ≤ s.now - p.depositMinute then
      (s.updParcel n fun p => { p with overdue := true }).post
        { s.event .PARCEL_OVERDUE with
          comp := some n, carrier := some p.carrier, text := some p.text, deposit := some p.depositMinute,
          page := p.page }
    else s
  | _, _ => s

/-- The overdue evaluation (R146). -/
def State.overdueEval (s : State) : State := compNos.foldl State.overdueAt s

/-- The bank minute is handed on (R199): expiry scan, ageing, lockout removal, switch test and, where it is
due, the overdue evaluation. -/
def State.handOn (s : State) (evaluate : Bool) : State :=
  let s1 := s.expiryScan.ageRetired.clearLockouts.switchTest
  if evaluate then s1.overdueEval else s1

/-- A quarter-hour boundary lies after `old` and at or before `new` (R145). -/
def quarterCrossed (old new : Nat) : Bool := decide (old / 15 < new / 15)

/-! ### The restart (R2, R45, R68, R73, R110, R148, R165, R173, R191, R196, R200, R201) -/

/-- A slot after a restart or a link reset: its commissioned serial alone is kept (R45, R64). -/
def Slot.cleared (x : Slot) : Slot := { Slot.empty with commissioned := x.commissioned }

/-- A full pass at its beginning (R49). -/
def Pass.fullPass : Pass := { full := true, rounds := 0, bindDue := none }

/-- A link after a restart, with the full pass of the ENUMERATE phase where it is fitted (R45, R49). -/
def Link.restarted (x : Link) (fitted : Bool) : Link :=
  { Link.empty with slots := x.slots.map Slot.cleared, enumPass := if fitted then some Pass.fullPass else none }

/-- A reader after a restart: its charge record alone is kept, without operation and timeout (R148, R165). -/
def Reader.restarted (x : Reader) : Reader :=
  { Reader.empty with charge := x.charge.map fun c => { c with job := none, timeout := none } }

/-- A sweep side after a restart (R173). -/
def SweepSide.idle : SweepSide := { tags := [], run := none }

/-- The reply is that of a RESTART that was taken: its kind is 13 with the top bit set (R186). -/
def Reply.ofRestart (r : Reply) : Bool := decide (r.kind = 0x8D ∧ r.status = .OK)

/-- The Kiosk Link Interface after a restart (R187, R191, R193).  The reply to RESTART alone is sent whole before
the restart takes effect (R188, R201), so only that reply is kept, and only on that path. -/
def Kli.restarted (k : Kli) (keep : Bool) : Kli :=
  { partialRx := [], rx := [], reply := if keep then k.reply.filter Reply.ofRestart else none, queue := [],
    pendingFl := ClassSet.none, overflow := false, mask := k.mask, attention := false, keyOn := k.keyOn }

/-- The Supply and Clock Unit after a restart, its mode decided and its counter resumed (R196, R197, R200). -/
def Scu.restarted (u : Scu) (i : RestartInputs) (cause : ResetCause) : Scu :=
  { u with
    straps := i.straps, mainsGood := i.mainsGood, batteryLow := i.batteryLow
    mode := modeOf i.mainsGood i.batteryLow u.base
    minute := (match i.cell with | some v => min v Config.max32 | none => u.persisted)
    timeGap := u.timeGap || i.cell.isNone
    cause := cause, phase := some .ENUMERATE
    auditWait := [], auditUnread := [], auditTimer := false, restartDue := false }

/-- A restart (R201). -/
def State.restartWith (s : State) (i : RestartInputs) (cause : ResetCause) : State :=
  let keep := decide (cause = .HOST_RESTART) && s.scu.restartDue
  let scu := s.scu.restarted i cause
  let s1 : State :=
    { comps := s.comps.map fun c => { c with tagOwner := none }
      sects := s.sects
      hatchMap := s.hatchMap
      links := s.links.mapFinIdx fun k x _ => x.restarted (decide (k + 1 ≤ i.straps.links.count))
      capture := s.capture
      arb := { capacity := capacityOf i.straps scu.mode, granted := 0, turn := 1 }
      hce := { ops := [], lastJob := 0 }
      alloc := s.alloc
      gates := Vector.replicate 4 { wrong := [], lockout := none }
      tariff := s.tariff
      pbc := { readers := s.pbc.readers.map Reader.restarted, reversals := s.pbc.reversals,
               refCounter := s.pbc.refCounter, line := none, retry := none, lastReader := 0 }
      swu := { k1 := SweepSide.idle, k2 := SweepSide.idle }
      scu := scu
      kli := s.kli.restarted keep
      pending := s.pending }
  if i.cell.isNone then s1.post (s1.event .TIME_GAP) else s1

/-! ### The audit (R44, R203, R204) -/

/-- What the audit has of a compartment's occupancy (R204). -/
inductive AuditReading where
  | occupied | empty | unread
  deriving DecidableEq, Repr

/-- AUDIT_REQUIRED for an unread compartment of an enabled section (R203). -/
def State.markUnread (s : State) (n : Nat) (rd : AuditReading) : State :=
  if rd = .unread ∧ s.enabledRec (s.comp n) = true then s.markCause n .AUDIT_REQUIRED else s

/-- The charge reference is held by a retained charge record (R172). -/
def State.refOnRecord (s : State) (ref : Nat) : Bool :=
  s.pbc.readers.toList.any fun x => x.charge.any fun c => c.ref == ref

/-- The reversal of an approved return fee at the audit's undo (R161, R172): the state, and the reference,
amount and refusal that its CYCLE_DONE carries, which are none where the reference is left to RECONCILE (DESIGN CHOICE,
log entry 45). -/
def State.reverseRecovered (s : State) (n : Nat) (p : Parcel) : State × Option (Nat × Nat × Bool) :=
  match p.chargeRef, p.chargeReader with
  | some ref, some r =>
    if s.refOnRecord ref then (s, none)
    else
      let (s1, admitted) := s.queueReversal
        { ref := ref, amount := p.paid, reader := r, comp := n, origin := .RECOVERED }
      (s1, some (ref, p.paid, !admitted))
  | _, _ => (s, none)

/-- CYCLE_DONE with outcome RECOVERED (R12, R204). -/
def State.recovered (s : State) (n : Nat) (pu : Option Purpose) (note : EndNote)
    (ref : Option (Nat × Nat × Bool)) : EventRec :=
  let e : EventRec :=
    { s.event .CYCLE_DONE with
      comp := some n, purpose := some pu, outcome := some .RECOVERED,
      chargeRef := ref.map (·.1), amount := ref.map (·.2.1),
      flags := some { unverified := note.unverified, refundNotIssued := ref.any (·.2.2) } }
  match note.ident with
  | some i => e.withIdent i
  | none => e

/-- A compartment whose purpose was not none, or that was DEPOSITING, ends its settlement (R204). -/
def State.postRecovered (s : State) (n : Nat) (pu : Option Purpose) (note : EndNote)
    (ref : Option (Nat × Nat × Bool)) : State :=
  let s1 := s.updComp n fun c => { c with purpose := none }
  let s2 := s1.post (s1.recovered n pu note ref)
  match note.lapsed with
  | some v => s2.post (s2.expiredEvent n v)
  | none => s2

/-- A DEPOSITING compartment is undone by the audit (R204). -/
def State.auditUndo (s : State) (n : Nat) (pu : Option Purpose) : State :=
  let before := (s.comp n).parcel
  let (s1, lapsed) := s.undo n
  let (s2, ref) := match before with
    | some p => s1.reverseRecovered n p
    | none => (s1, none)
  s2.postRecovered n pu
    { EndNote.of before with ident := before.map fun p => { p.ident with code := none }, lapsed := lapsed } ref

/-- A DEPOSITING compartment is confirmed by the audit with the unverified flag (R204).  The event of a return drop
confirmed so carries no charge reference and no amount (DESIGN CHOICE, log entry 45). -/
def State.auditConfirm (s : State) (n : Nat) (pu : Option Purpose) : State :=
  let s1 := s.confirmParcel n true
  s1.postRecovered n pu (.of (s1.comp n).parcel) none

/-- The comparison of R22 at the audit (R204). -/
def State.auditCompare (s : State) (n : Nat) (rd : AuditReading) : State :=
  match rd with
  | .unread => s
  | .occupied => if consistent (s.comp n).state true then s else s.markCause n .OCCUPANCY_MISMATCH
  | .empty => if consistent (s.comp n).state false then s else s.markCause n .OCCUPANCY_MISMATCH

/-- A compartment is settled from its cycle purpose and its audit reading (R204). -/
def State.settle (s0 : State) (n : Nat) (rd : AuditReading) : State :=
  let s := s0.markUnread n rd
  let c := s.comp n
  match c.purpose with
  | none => if c.state = .DEPOSITING then s.auditUndo n none else s.auditCompare n rd
  | some .DEPOSIT | some .RETURN_DROP =>
    if rd = .empty then s.auditUndo n c.purpose else s.auditConfirm n c.purpose
  | some .COLLECT | some .SWEEP | some .SERVICE_REMOVE =>
    if rd = .empty then (s.retire n).postRecovered n c.purpose (.of c.parcel) none
    else s.postRecovered n c.purpose (.of c.parcel) none
  | some .SERVICE_OPEN => (s.auditCompare n rd).postRecovered n c.purpose (.of c.parcel) none

/-! ### RECONCILE and the end of start-up (R166, R202) -/

/-- A charge record at RECONCILE (R166). -/
def State.reconcileCharge (s : State) (r : Nat) : State :=
  match (s.reader r).charge with
  | none => s
  | some c =>
    if s.readerFitted r then
      s.updReader r fun x => { x with charge := some { c with phase := .ABANDON_DUE },
                                      outgoing := [.ABANDON c.ref] }
    else
      ((s.dropCharge r).dropParcelRef c.comp c.ref).post
        (EventRec.withFlags { s.event .PAYMENT_RESULT with
          comp := some c.comp, chargeRef := some c.ref, amount := some c.amount } { unsettled := true })

/-- A reversal entry at RECONCILE (R166). -/
def State.reconcileReversal (s : State) (v : Reversal) : State :=
  if s.readerFitted v.reader then s
  else (s.dropReversal v.ref).post (s.reversalEvent .REVERSAL_FAILED v)

/-- The RECONCILE phase (R166): the charge records by reader, P1 to P4, then the reversal entries in list order
(DESIGN CHOICE for the order, log entry 44). -/
def State.reconcile (s : State) : State :=
  let s1 := (List.range' 1 4).foldl State.reconcileCharge s
  let s2 := s1.pbc.reversals.foldl State.reconcileReversal s1
  s2.readerNos.foldl (fun s r => s.updReader r fun x => { x with pollTimer := .expired }) s2

/-- The end of the start-up phases (R202). -/
def State.endStartup (s : State) : State :=
  let s1 := s.updScu fun u => { u with phase := none }
  (s1.post { s1.event .STARTUP_DONE with mode := some s1.scu.mode }).handOn true

/-- The AUDIT phase ends (R202, R203): every unread compartment is settled, ascending, and RECONCILE and the
end of start-up follow. -/
def State.endAudit (s : State) : State :=
  let left := compNos.filter fun n => s.scu.auditWait.contains n || s.scu.auditUnread.contains n
  let s1 := left.foldl (fun s n => s.settle n .unread) s
  let s2 := s1.updScu fun u =>
    { u with phase := some .RECONCILE, auditWait := [], auditUnread := [], auditTimer := false }
  s2.reconcile.endStartup

/-- The AUDIT phase ends at once when no compartment is left to be read (R203). -/
def State.auditCheck (s : State) : State := if s.scu.auditWait = [] then s.endAudit else s

/-- One compartment at the start of the AUDIT phase (R44, R203). -/
def State.auditResolve (s : State) (n : Nat) : State :=
  if (s.comp n).sect.isNone then s
  else
    match s.resolution n with
    | .ok _ _ => s.updScu fun u => { u with auditWait := u.auditWait ++ [n] }
    | _ => (s.afterResolve n).updScu fun u => { u with auditUnread := u.auditUnread ++ [n] }

/-- The AUDIT phase begins (R203).  The compartments are resolved in ascending number, an order that neither R44 nor R203
gives: it decides which MAP_FAULT fills an empty fault capture record (DESIGN CHOICE, log entry 48). -/
def State.beginAudit (s : State) : State :=
  let s1 := s.updScu fun u => { u with phase := some .AUDIT, auditTimer := true }
  (compNos.foldl State.auditResolve s1).auditCheck

/-- A reading of a compartment in the AUDIT phase (R55, R203). -/
def State.auditRead (s : State) (n : Nat) (r : Reading) : State :=
  if s.scu.auditWait.contains n then
    if r.hatchOpen then s.markCause n .OPEN_AT_START
    else if r.settled then
      let s1 := s.settle n (if r.occupied then .occupied else .empty)
      s1.updScu fun u => { u with auditWait := u.auditWait.filter (· != n) }
    else s
  else s

/-- A link reports the end of its full pass (R49, R202); the last fitted link to report ends ENUMERATE. -/
def State.reportPass (s : State) (l : Nat) : State :=
  if s.scu.phase = some .ENUMERATE then
    let s1 := s.updLink l fun x => { x with reported := true }
    if s1.linkNos.all (fun k => (s1.link k).reported) then s1.beginAudit else s1
  else s

end Sys2Proof.Machine
end

