-- ==== Sys2Proof/Machine/Links.lean ====
section
/-! DEFINITION. The Column Link Engines: exchanges, enumeration, the board directory, polling and the strike
exchange, and the stages of a cycle that the readings and the cycle timers decide (R45 to R65, R77 to R80). -/

namespace Sys2Proof.Machine

open Sys2Proof

/-! ### Slots and their loss (R48, R52, R57) -/

/-- The roll-call timer starts if it is stopped (R52). -/
def State.startRollTimer (s : State) (l : Nat) : State := s.updLink l fun x => { x with rollTimer := true }

/-- An exchange ends: the line is free (R47). -/
def State.endExchange (s : State) (l : Nat) (e : LastExchange) : State :=
  s.updLink l fun x => { x with line := none, lastEnded := e }

/-- The strike in flight of a slot that left PRESENT (R57, R62, R90).  A STRIKE that awaits its answer after its
operation has ended waits for it still, and R63 settles it. -/
def State.strikeSlotLost (s : State) (l k : Nat) : State :=
  match (s.link l).strike with
  | none => s
  | some x =>
    if x.slot = k then
      if x.ackMinute.isSome ∧ x.durationRun = false then
        s.updLink l fun y => { y with strike := some { x with slotLost := true, opEnded := true } }
      else if x.ackMinute.isNone ∧ x.opEnded = true then s
      else s.dropStrike l
    else s

/-- An operation on a slot that left PRESENT ends by its stage (R57). -/
def State.opSlotLost (s : State) (o : Op) : State :=
  match o.stage with
  | .AWAIT_PAYMENT => s
  | .QUEUED => s.endJob o.job .STRIKE_FAILED
  | .STRIKING | .AWAIT_OPEN | .OPEN | .AWAIT_CONFIRM => s.endJob o.job .UNCONFIRMED

/-- The operations addressed to a slot, in ascending compartment number. -/
def State.opsAt (s : State) (l k : Nat) : List Op :=
  opsByComp (s.hce.ops.filter fun o => decide (o.link = l ∧ o.slot = k))

/-- A slot has left PRESENT (R57): its operations and its strike in flight are settled. -/
def State.slotLost (s : State) (l k : Nat) : State :=
  ((s.opsAt l k).foldl State.opSlotLost s).strikeSlotLost l k

/-- The directory entry of a slot with a state, its unanswered count and last STATUS cleared (R48). -/
def Slot.enter (x : Slot) (st : SlotState) : Slot := { x with state := st, unanswered := 0, lastStatus := none }

/-- The slot becomes PRESENT with its hatch memory unknown (R48, R50, R53). -/
def Slot.enterPresent (x : Slot) : Slot :=
  { x.enter .PRESENT with hatch := Vector.replicate 16 .unknown }

/-- The serial and codes of a claim are written (R50). -/
def Slot.claimed (x : Slot) (serial chan cur : Nat) : Slot :=
  { x with serial := some serial, chanCode := some chan, curCode := some cur }

/-! ### Enumeration (R49 to R52) -/

/-- A claim is applied to the directory (R50). -/
def State.applyClaim (s : State) (l serial k chan cur : Nat) : State :=
  let x := s.slot l k
  let known := decide (x.commissioned = some serial)
  match x.state with
  | .EMPTY =>
    if known then s.updSlot l k fun x => (x.claimed serial chan cur).enterPresent
    else (s.updSlot l k fun x => (x.claimed serial chan cur).enter .NEW).postBoardChanged l k (some serial)
  | .OFFLINE =>
    if known then
      (s.updSlot l k fun x => (x.claimed serial chan cur).enterPresent).postBoardChanged l k (some serial)
    else (s.updSlot l k fun x => (x.claimed serial chan cur).enter .NEW).postBoardChanged l k (some serial)
  | .NEW =>
    if x.serial = some serial then s
    else ((s.updSlot l k fun x => x.enter .CONFLICT).postBoardChanged l k (some serial)).reportFault
          .CONFLICT l k none none
  | .PRESENT =>
    if x.serial = some serial then s
    else (((s.updSlot l k fun x => x.enter .CONFLICT).postBoardChanged l k (some serial)).reportFault
          .CONFLICT l k none none).slotLost l k
  | .CONFLICT =>
    if x.serial = some serial then s else s.reportFault .CONFLICT l k none none

/-- A commissioned slot still EMPTY at the end of a full pass becomes OFFLINE (R51). -/
def State.missSlot (s : State) (l k : Nat) : State :=
  let x := s.slot l k
  if x.state = .EMPTY ∧ x.commissioned.isSome then
    ((s.updSlot l k fun x => x.enter .OFFLINE).postBoardChanged l k x.serial).reportFault
      .NO_RESPONSE l k none none
  else s

/-- A slot of the link is OFFLINE. -/
def State.anyOffline (s : State) (l : Nat) : Bool := slotNos.any fun k => decide ((s.slot l k).state = .OFFLINE)

/-- An enumeration pass ends (R49, R51, R52).  The slots that R51 makes OFFLINE become so in ascending order
(DESIGN CHOICE, log entry 36). -/
def State.endPass (s : State) (l : Nat) (full : Bool) : State :=
  let s1 := s.updLink l fun x => { x with enumPass := none }
  let s2 := if full then slotNos.foldl (fun s k => s.missSlot l k) s1 else s1
  let s3 := s2.updLink l fun x => { x with rollTimer := s2.anyOffline l }
  if full then s3.reportPass l else s3

/-- A round ends (R49): the pass ends with its sixteenth round. -/
def State.endRound (s : State) (l : Nat) : State :=
  match (s.link l).enumPass with
  | none => s
  | some p =>
    if Config.passRounds ≤ p.rounds + 1 then s.endPass l p.full
    else s.updLink l fun x => { x with enumPass := some { p with rounds := p.rounds + 1, bindDue := none } }

/-- The pass takes its next step (R47, R49): BIND of a claim applied, which no board answers, or ROLL_CALL. -/
def State.passStep (s : State) (l : Nat) (p : Pass) : State :=
  match p.bindDue with
  | some _ => (s.endExchange l .step).endRound l
  | none => s.updLink l fun x => { x with line := some .rollCall }

/-! ### The choice of the next exchange (R47) -/

/-- The next PRESENT slot after the poll turn, ascending and wrapping (R47, step 4); the turn begins at slot 1 where no
slot has been polled (DESIGN CHOICE, log entry 50). -/
def Link.nextPresent (x : Link) : Option Nat :=
  let t := x.pollTurn.getD 8
  (slotNos.map fun i => (t + i - 1) % 8 + 1).find? fun k => decide ((x.slotAt k).state = .PRESENT)

/-- A strike awaits its strike-done and its slot can be polled (R47, step 2). -/
def Link.doneDue (x : Link) : Option Nat :=
  match x.strike with
  | some k =>
    if k.ackMinute.isSome ∧ (x.slotAt k.slot).state = .PRESENT ∧ x.lastEnded ≠ .poll k.slot then some k.slot
    else none
  | none => none

/-- A poll turn is taken (R47, step 4). -/
def Link.pollNext (x : Link) (k : Nat) : Link := { x with line := some (.poll k), pollTurn := some k }

/-- Steps 3 to 6 of R47. -/
def State.chooseLater (s : State) (l : Nat) : State :=
  let x := s.link l
  match x.enumPass with
  | some p =>
    if x.lastEnded ≠ .step then s.passStep l p
    else
      match x.nextPresent with
      | some k => s.updLink l fun y => y.pollNext k
      | none => s.passStep l p
  | none =>
    match x.nextPresent with
    | some k => s.updLink l fun y => y.pollNext k
    | none => s

/-- A pass begins (R49).  The exchange that ended last is no step of it (R47, step 3). -/
def Link.beginPass (x : Link) (p : Pass) : Link :=
  { x with enumPass := some p, lastEnded := if x.lastEnded = .step then .other else x.lastEnded }

/-- UNBIND is sent, which no board answers, and a full pass begins (R49, R64). -/
def State.sendUnbind (s : State) (l : Nat) : State :=
  s.updLink l fun x => { x with unbindDue := false, lastEnded := .other }.beginPass Pass.fullPass

/-- A STRIKE is sent, with the strike duration of the class as CONFIG gives it now (R59, R82). -/
def State.sendStrike (s : State) (l : Nat) (k : Strike) : State :=
  let d := s.scu.config.strikeMs.get (s.comp k.comp).cls
  s.updLink l fun x => { x with line := some (.strike k.slot k.channel d k.comp),
                                strike := some { k with duration := d } }

/-- The next exchange of a link whose line is free (R47). -/
def State.chooseExchange (s : State) (l : Nat) : State :=
  let x := s.link l
  if x.unbindDue then s.sendUnbind l
  else
    match x.strike with
    | some k =>
      if k.ackMinute.isNone then s.sendStrike l k
      else
        match x.doneDue with
        | some j => s.updLink l fun y => { y with line := some (.poll j) }
        | none => s.chooseLater l
    | none => s.chooseLater l

/-! ### The stages of a cycle (R77 to R80) -/

/-- HATCH_OPENED, HATCH_AJAR (R79, R89). -/
def State.hatchEvent (s : State) (k : EventKind) (o : Op) : EventRec :=
  { s.event k with job := some o.job, comp := some o.comp, station := some o.station,
                   purpose := if k = .HATCH_OPENED then some (some o.purpose) else none }

/-- First entry into OPEN: HATCH_OPENED is posted and the ajar timer starts (R77, R78, R79). -/
def State.enterOpen (s : State) (o : Op) : State :=
  let lim := s.scu.config.ajar.get (s.comp o.comp).cls
  (s.updOp o.job fun o => { o with stage := .OPEN, openWait := none, ajar := some lim }).post
    (s.hatchEvent .HATCH_OPENED o)

/-- Entry into AWAIT_CONFIRM: the confirm timer starts (R79). -/
def State.enterConfirm (s : State) (job : Nat) : State :=
  s.updOp job fun o => { o with stage := .AWAIT_CONFIRM, confirm := some Config.confirmSeconds }

/-- A hatch reading reaches an operation (R77 to R80).  An open one sets the opened mark in STRIKING alone (DESIGN CHOICE,
log entry 53). -/
def State.hatchReading (s : State) (o : Op) (isOpen : Bool) : State :=
  match o.stage with
  | .STRIKING =>
    if s.acked o && isOpen then s.updOp o.job fun o => { o with opened := true } else s
  | .AWAIT_OPEN => if isOpen then s.enterOpen o else s
  | .OPEN => if isOpen then s else s.enterConfirm o.job
  | .AWAIT_CONFIRM =>
    if isOpen then s.updOp o.job fun o => { o with stage := .OPEN, confirm := none } else s
  | .AWAIT_PAYMENT | .QUEUED => s

/-- The outcome of a settled occupancy reading, by purpose (R80). -/
def settledOutcome (pu : Purpose) (occupied : Bool) : CycleOutcome :=
  match pu with
  | .DEPOSIT | .RETURN_DROP => if occupied then .COMPLETED else .LEFT_EMPTY
  | .COLLECT | .SWEEP | .SERVICE_REMOVE => if occupied then .LEFT_OCCUPIED else .COMPLETED
  | .SERVICE_OPEN => .COMPLETED

/-- The occupancy reading of a STATUS reaches an operation, after its hatch reading (R80). -/
def State.occupancyReading (s : State) (job : Nat) (r : Reading) : State :=
  match s.opByJob job with
  | none => s
  | some o =>
    if o.stage = .AWAIT_CONFIRM ∧ r.settled = true ∧ r.hatchOpen = false then
      s.endOp o (settledOutcome o.purpose r.occupied) r.occupied
    else s

/-- The readings of a channel reach an operation: the hatch before the occupancy (R80). -/
def State.opReading (s : State) (o : Op) (r : Reading) : State :=
  (s.hatchReading o r.hatchOpen).occupancyReading o.job r

/-- The end of a strike is handed to its operation with a hatch reading (R77). -/
def State.strikeEnd (s : State) (job : Nat) (isOpen : Bool) : State :=
  match s.opByJob job with
  | none => s
  | some o =>
    if o.stage = .STRIKING then
      if isOpen then s.enterOpen o
      else if o.opened then (s.enterOpen o).enterConfirm job
      else s.updOp job fun o => { o with stage := .AWAIT_OPEN, openWait := some s.scu.config.openWait }
    else s

/-! ### Polling (R54 to R58, R62, R63) -/

/-- Hatch memory of a channel. -/
def Slot.memory (x : Slot) (ch : Nat) : HatchMem := x.hatch[ch]?.getD .unknown

/-- Late-strike mark of a channel. -/
def Slot.lateMark (x : Slot) (ch : Nat) : Bool := x.late[ch]?.getD false

/-- The hatch memory of a channel takes a reading (R55). -/
def State.setMemory (s : State) (l k ch : Nat) (isOpen : Bool) : State :=
  s.updSlot l k fun x => { x with hatch := x.hatch.setIfInBounds ch (if isOpen then .opened else .closed) }

/-- The late-strike mark of a channel written (R63). -/
def State.setLate (s : State) (l k ch : Nat) (b : Bool) : State :=
  s.updSlot l k fun x => { x with late := x.late.setIfInBounds ch b }

/-- The forced-hatch test (R58).  FORCED joins the set first, so the CYCLE_DONE of an operation it ends precedes
HATCH_FORCED (DESIGN CHOICE, log entry 35). -/
def State.forcedTest (s : State) (l k ch n : Nat) (isOpen : Bool) : State :=
  if isOpen && decide ((s.slot l k).memory ch ≠ .opened) then
    let s1 := s.addCause n .FORCED
    s1.post (EventRec.withFlags { s1.event .HATCH_FORCED with comp := some n }
      { lateStrike := (s.slot l k).lateMark ch })
  else s

/-- The forced-hatch test of a channel whose compartment has an operation at STRIKING or later: made only under a
late-strike mark (R58, R63). -/
def State.lateTest (s : State) (l k ch n : Nat) (isOpen : Bool) : State :=
  if (s.slot l k).lateMark ch then s.forcedTest l k ch n isOpen else s

/-- The operation at STRIKING or later that a link, slot and channel belong to by its kept address (R55). -/
def State.opAtChannel (s : State) (l k ch : Nat) : Option Op :=
  s.hce.ops.find? fun o => decide (o.link = l ∧ o.slot = k ∧ o.channel = ch) && o.stage.striking

/-- A reading of a channel reaches an operation at STRIKING or later, and then the test that a late-strike mark asks
for (R55, R58; DESIGN CHOICE for the order, log entry 35). -/
def State.cycleReading (s : State) (l k ch : Nat) (o : Op) (r : Reading) : State :=
  (s.opReading o r).lateTest l k ch o.comp r.hatchOpen

/-- What a reading does before the hatch memory takes it (R55). -/
def State.routeReading (s : State) (l k ch : Nat) (r : Reading) : State :=
  match s.opAtChannel l k ch with
  | some o => s.cycleReading l k ch o r
  | none =>
    match s.reverse { link := l, slot := k, channel := ch } with
    | none => s
    | some n =>
      match s.scu.phase with
      | some .AUDIT => s.auditRead n r
      | some _ => s
      | none =>
        match s.opOn n with
        | some o => if o.stage.striking then s.cycleReading l k ch o r else s.forcedTest l k ch n r.hatchOpen
        | none => s.forcedTest l k ch n r.hatchOpen

/-- A late-strike mark is cleared by a closed reading once the units of the strike that set it have been returned (R63):
no strike in flight on the channel is the late one. -/
def State.clearLate (s : State) (l k ch : Nat) (r : Reading) : State :=
  let carried := (s.link l).strike.any fun x => decide (x.slot = k ∧ x.channel = ch) && x.late
  if r.hatchOpen = false ∧ carried = false then s.setLate l k ch false else s

/-- One channel's reading (R55, R63). -/
def State.takeReading (s : State) (l k ch : Nat) (r : Reading) : State :=
  ((s.routeReading l k ch r).setMemory l k ch r.hatchOpen).clearLate l k ch r

/-- The readings of a STATUS, channels ascending (R55). -/
def State.takeReadings (s : State) (l k : Nat) (rs : List Reading) : State :=
  rs.zipIdx.foldl (fun s p => s.takeReading l k p.2 p.1) s

/-- The strike in flight on a link, where it is acknowledged and on the slot.  It stays so where the slot has left
PRESENT and is PRESENT again before the duration has run: a STATUS may then end it early (R62; DESIGN CHOICE, log
entry 39). -/
def State.ackedStrike (s : State) (l k : Nat) : Option Strike :=
  match (s.link l).strike with
  | some x => if x.slot = k ∧ x.ackMinute.isSome then some x else none
  | none => none

/-- The strike keeps the hatch reading of a STATUS from its slot (R62). -/
def State.noteHatch (s : State) (l k : Nat) (rs : List Reading) : State :=
  match s.ackedStrike l k with
  | none => s
  | some x =>
    match rs[x.channel]? with
    | none => s
    | some r => s.updLink l fun y => { y with strike := some { x with hatchSeen := some r.hatchOpen } }

/-- The end of an acknowledged strike (R62, R63): units returned, its operation told of the hatch reading. -/
def State.finishStrike (s : State) (l : Nat) (x : Strike) : State :=
  let s1 := s.dropStrike l
  if x.opEnded then s1 else s1.strikeEnd x.job (x.hatchSeen.getD false)

/-- The first STATUS that shows strike-done ends the strike (R62); the occupancy reading of the same STATUS
follows (R80). -/
def State.strikeDone (s : State) (l k : Nat) (rs : List Reading) : State :=
  match s.ackedStrike l k with
  | none => s
  | some x =>
    let s1 := s.finishStrike l x
    match rs[x.channel]? with
    | some r => s1.occupancyReading x.job r
    | none => s1

/-- A STATUS is kept as the last one and the unanswered count set to 0 (R54). -/
def Slot.answered (x : Slot) (rs : List Reading) (done : Bool) : Slot :=
  { x with unanswered := 0, lastStatus := some { readings := rs, strikeDone := done } }

/-- A STATUS of the polled slot (R54, R55, R62, R203).  Its channels are taken in ascending order, and its strike-done
flag after all of them (DESIGN CHOICE, log entry 35). -/
def State.takeStatus (s : State) (l k : Nat) (readings : List Reading) (done : Bool) : State :=
  let rs := readings.take (min 16 (s.slot l k).channels)
  let s1 := s.updSlot l k fun x => x.answered rs done
  let s2 := (s1.noteHatch l k rs).takeReadings l k rs
  let s3 := if done then s2.strikeDone l k rs else s2
  if s3.scu.phase = some .AUDIT then s3.auditCheck else s3

/-- An unanswered poll (R54, R56).  One that was on the line when its slot left PRESENT by LINK_RESET or FACTORY_CLEAR adds
nothing to the slot's count (DESIGN CHOICE, log entry 51). -/
def State.pollMissed (s : State) (l k : Nat) : State :=
  let x := s.slot l k
  if x.state = .PRESENT then
    if Config.missLimit ≤ x.unanswered + 1 then
      ((((s.updSlot l k fun x => x.enter .OFFLINE).postBoardChanged l k x.serial).reportFault
        .NO_RESPONSE l k none none).startRollTimer l).slotLost l k
    else s.updSlot l k fun x => { x with unanswered := x.unanswered + 1 }
  else s

/-! ### The strike exchange (R59 to R63) -/

/-- A failed attempt (R60, R63). -/
def State.strikeFailed (s : State) (l : Nat) : State :=
  match (s.link l).strike with
  | none => s
  | some k =>
    if k.opEnded then s.dropStrike l
    else if s.scu.config.retryLimit < k.failed + 1 then
      ((s.dropStrike l).endJob k.job .STRIKE_FAILED).reportFault .NO_RESPONSE l k.slot (some k.channel)
        (some k.comp)
    else s.updLink l fun x => { x with strike := some { k with failed := k.failed + 1 } }

/-- A STRIKE answered NO_CHANNEL (R61, R63).  One that was on the line when LINK_RESET made the strike in flight none
changes nothing by this answer: no MAP_CHECK is added and no fault reported (DESIGN CHOICE, log entry 49).  The operation
ends before MAP_CHECK is added, so its CYCLE_DONE does not show it (DESIGN CHOICE, log entry 54). -/
def State.strikeNoChannel (s : State) (l : Nat) : State :=
  match (s.link l).strike with
  | none => s
  | some k =>
    let s1 := s.dropStrike l
    let s2 := if k.opEnded then s1 else s1.endJob k.job .STRIKE_FAILED
    (s2.addCause k.comp .MAP_CHECK).reportFault .NO_CHANNEL l k.slot (some k.channel) (some k.comp)

/-- A STRIKE answered STRIKE_ACK (R3, R59, R63). -/
def State.strikeAcked (s : State) (l comp : Nat) : State :=
  let s1 := s.updComp comp fun c => { c with hatchCount := addMin c.hatchCount 1 }
  match (s.link l).strike with
  | none => s1
  | some k =>
    let s2 := s1.updLink l fun x => { x with strike := some { k with ackMinute := some s.now, late := k.opEnded } }
    if k.opEnded then s2.setLate l k.slot k.channel true else s2

/-! ### The commands of the column links -/

/-- LINK_EXCHANGE_START: the line of a fitted link is free and the next exchange is chosen (R47). -/
def execLinkExchangeStart (l : Nat) (s : State) : Host.Outcome State Fault Refusal :=
  if s.linkFitted l = true ∧ (s.link l).line = none then .next (s.chooseExchange l) else .next s

/-- ROLL_CALL_BID: the lowest serial bid answers the ROLL_CALL (R49). -/
def execRollCallBid (l serial : Nat) (s : State) : Host.Outcome State Fault Refusal :=
  if (s.link l).line = some .rollCall then
    .next (s.updLink l fun x => { x with line := some (.claim serial) })
  else .next s

/-- The fields of a claim are in the ranges of R46. -/
def claimOk (slot chan cur : Nat) : Bool := decide (1 ≤ slot ∧ slot ≤ 8 ∧ chan ≤ 3 ∧ cur ≤ 7)

/-- CLAIM: the winner's claim is applied and its BIND is due; any other claim ends the round (R49, R50). -/
def execClaim (l serial slot chan cur : Nat) (s : State) : Host.Outcome State Fault Refusal :=
  match (s.link l).line with
  | some (.claim w) =>
    let s1 := s.endExchange l .step
    match (s.link l).enumPass with
    | none => .next s1
    | some p =>
      if serial = w ∧ claimOk slot chan cur = true then
        .next (((s1.updLink l fun x => { x with enumPass := some { p with bindDue := some serial } }).applyClaim
          l serial slot chan cur).pass)
      else .next (s1.endRound l)
  | _ => .next s

/-- STATUS of a board: the answer to the poll of its slot (R54, R55, R62). -/
def execBoardStatus (l slot : Nat) (readings : List Reading) (strikeDone : Bool) (s : State) :
    Host.Outcome State Fault Refusal :=
  if (s.link l).line = some (.poll slot) then
    let s1 := s.endExchange l (.poll slot)
    if (s.slot l slot).state = .PRESENT then .next (s1.takeStatus l slot readings strikeDone).pass
    else .next s1
  else .next s

/-- STRIKE_ACK (R59, R63). -/
def execStrikeAck (l : Nat) (s : State) : Host.Outcome State Fault Refusal :=
  match (s.link l).line with
  | some (.strike _ _ _ comp) => .next ((s.endExchange l .other).strikeAcked l comp)
  | _ => .next s

/-- BOARD_BUSY: a failed attempt (R60, R63). -/
def execBoardBusy (l : Nat) (s : State) : Host.Outcome State Fault Refusal :=
  if (s.link l).striking then .next ((s.endExchange l .other).strikeFailed l).pass else .next s

/-- NO_CHANNEL (R61, R63). -/
def execNoChannel (l : Nat) (s : State) : Host.Outcome State Fault Refusal :=
  if (s.link l).striking then .next ((s.endExchange l .other).strikeNoChannel l).pass else .next s

/-- The response window of a board message runs out (R46, R49, R54, R56, R60). -/
def execBoardResponseTimeout (l : Nat) (s : State) : Host.Outcome State Fault Refusal :=
  match (s.link l).line with
  | none => .next s
  | some .rollCall =>
    let s1 := s.endExchange l .step
    match (s.link l).enumPass with
    | some p => .next (s1.endPass l p.full).pass
    | none => .next s1
  | some (.claim _) => .next ((s.endExchange l .step).endRound l).pass
  | some (.poll k) => .next ((s.endExchange l (.poll k)).pollMissed l k).pass
  | some (.strike _ _ _ _) => .next ((s.endExchange l .other).strikeFailed l).pass

/-- The roll-call timer expires: a periodic pass begins unless a pass is in progress (R49, R52). -/
def execRollCallTimerExpiry (l : Nat) (s : State) : Host.Outcome State Fault Refusal :=
  let x := s.link l
  if x.rollTimer = true ∧ x.enumPass = none ∧ x.unbindDue = false then
    .next (s.updLink l fun x => x.beginPass { full := false, rounds := 0, bindDue := none })
  else .next s

/-- The strike-done grace expires (R62, R63). -/
def execStrikeDoneGraceExpiry (l : Nat) (s : State) : Host.Outcome State Fault Refusal :=
  match (s.link l).strike with
  | some k =>
    if k.ackMinute.isSome ∧ k.slotLost = false then
      let s1 := (s.dropStrike l).reportFault .DONE_MISSING l k.slot (some k.channel) (some k.comp)
      .next (if k.opEnded then s1 else s1.strikeEnd k.job (k.hatchSeen.getD false)).pass
    else .next s
  | none => .next s

/-- The strike duration has run since STRIKE_ACK: units kept for a lost slot are returned (R62). -/
def execStrikeDurationExpiry (l : Nat) (s : State) : Host.Outcome State Fault Refusal :=
  match (s.link l).strike with
  | some k =>
    if k.ackMinute.isSome then
      if k.slotLost then .next (s.dropStrike l).pass
      else .next (s.updLink l fun x => { x with strike := some { k with durationRun := true } })
    else .next s
  | none => .next s

/-- The open-wait expires: the operation ends NOT_OPENED (R78). -/
def execOpenWaitExpiry (job : Nat) (s : State) : Host.Outcome State Fault Refusal :=
  match s.opByJob job with
  | some o =>
    if o.stage = .AWAIT_OPEN ∧ o.openWait.isSome then .next (s.endOp o .NOT_OPENED).pass else .next s
  | none => .next s

/-- The ajar limit expires: HATCH_AJAR where the operation stands in OPEN (R79). -/
def execAjarLimitExpiry (job : Nat) (s : State) : Host.Outcome State Fault Refusal :=
  match s.opByJob job with
  | some o =>
    if o.ajar.isSome then
      let now := decide (o.stage = .OPEN ∧ o.ajarPosted = false)
      let s1 := s.updOp job fun o => { o with ajar := none, ajarPosted := o.ajarPosted || now }
      .next (if now then s1.post (s1.hatchEvent .HATCH_AJAR o) else s1)
    else .next s
  | none => .next s

/-- The confirm limit expires: the operation ends UNCONFIRMED (R80). -/
def execConfirmLimitExpiry (job : Nat) (s : State) : Host.Outcome State Fault Refusal :=
  match s.opByJob job with
  | some o =>
    if o.stage = .AWAIT_CONFIRM ∧ o.confirm.isSome then .next (s.endOp o .UNCONFIRMED).pass else .next s
  | none => .next s

end Sys2Proof.Machine
end

