-- ==== Sys2Proof/Machine/Service.lean ====
section
/-! DEFINITION. The service requests on compartments, boards and links: kinds 24 to 31, 35, 36 and 40 (R14 to
R17, R20 to R24, R43, R53, R64, R66). -/

namespace Sys2Proof.Machine

open Sys2Proof

/-- Steps 1 and 2 of R14, R37 and R131: STARTING, then NO_POWER in DORMANT. -/
def State.serviceCheck (s : State) : Option Status :=
  if s.starting then some .STARTING else if s.scu.mode = .DORMANT then some .NO_POWER else none

/-- Steps 1 to 3 of R14 for a request that names a compartment, then its own rule. -/
def State.onComp (s : State) (n : Nat) (f : State → Answer) : Answer :=
  match s.serviceCheck with
  | some x => s.refuse x
  | none => if 1 ≤ n ∧ n ≤ 240 then f s else s.refuse .NOT_FOUND

/-- Steps 1 to 3 of R14 and R37 for a request that names a section, then its own rule. -/
def State.onSect (s : State) (n : Nat) (f : Fin 8 → Answer) : Answer :=
  match s.serviceCheck with
  | some x => s.refuse x
  | none =>
    match letterOf n with
    | some i => f i
    | none => s.refuse .NOT_FOUND

/-! ### Service operations (R21) -/

/-- Steps 3 and 4 of R21, and the acceptance. -/
def State.serviceCreate (s : State) (pu : Purpose) (n : Nat) : Answer :=
  match s.resolution n with
  | .ok a u =>
    match s.createOp pu 7 n a u .QUEUED with
    | none => s.refuse .BUSY
    | some (s1, job) => { state := (s1.clearTag n).pass, status := .ACCEPTED, body := .servicing job }
  | r => { state := s.afterResolve n, status := r.status, body := .empty }

/-- SERVICE_OPEN at the Compartment Table (R21). -/
def State.serviceOpen (s : State) (n : Nat) : Answer :=
  s.onComp n fun s =>
    if s.hasOp n || s.stationFull 7 then s.refuse .BUSY else s.serviceCreate .SERVICE_OPEN n

/-- SERVICE_OPEN (R21). -/
def execServiceOpen (h : ReqHead) (p : List Byte) (s : State) : Host.Outcome State Fault Refusal :=
  .next (s.takeRequest h 24 p .nat8 fun n s => s.serviceOpen n)

/-- The compartment is LOADED or RETURN_LOADED. -/
def CompState.full : CompState → Bool
  | .LOADED | .RETURN_LOADED => true
  | _ => false

/-- SERVICE_REMOVE at the Compartment Table (R21). -/
def State.serviceRemove (s : State) (n : Nat) : Answer :=
  s.onComp n fun s =>
    if s.hasOp n || s.stationFull 7 then s.refuse .BUSY
    else if (s.comp n).state.full = false then s.refuse .WRONG_STATE
    else s.serviceCreate .SERVICE_REMOVE n

/-- SERVICE_REMOVE (R21). -/
def execServiceRemove (h : ReqHead) (p : List Byte) (s : State) : Host.Outcome State Fault Refusal :=
  .next (s.takeRequest h 25 p .nat8 fun n s => s.serviceRemove n)

/-! ### CLEAR_FAULT (R20, R43) -/

/-- The last STATUS of a slot shows the hatch of a channel closed; without one it is unknown (R54). -/
def Slot.shownClosed (x : Slot) (ch : Nat) : Bool :=
  match x.lastStatus with
  | none => false
  | some b =>
    match b.readings[ch]? with
    | some r => !r.hatchOpen
    | none => false

/-- CLEAR_FAULT at the Compartment Table (R20, R43). -/
def State.clearFault (s : State) (n : Nat) : Answer :=
  s.onComp n fun s =>
    if s.hasOp n then s.refuse .BUSY
    else
      match s.resolution n with
      | .ok a _ =>
        if (s.slot a.link a.slot).shownClosed a.channel then
          { state := s.updComp n fun c => { c with causes := {} }, status := .OK,
            body := .causes (s.comp n).causes }
        else s.refuse .WRONG_STATE
      | r => { state := s.afterResolve n, status := r.status, body := .empty }

/-- CLEAR_FAULT (R20). -/
def execClearFault (h : ReqHead) (p : List Byte) (s : State) : Host.Outcome State Fault Refusal :=
  .next (s.takeRequest h 26 p .nat8 fun n s => s.clearFault n)

/-! ### Holds (R15 to R17) -/

/-- The own hold flag of a compartment written. -/
def State.setOwnHold (s : State) (n : Nat) (b : Bool) : State := s.updComp n fun c => { c with ownHold := b }

/-- HOLD naming a compartment (R15). -/
def State.holdOne (s : State) (n : Nat) : Answer :=
  let (s1, k) := (s.setOwnHold n true).holdComp n
  { state := s1.pass, status := .OK, body := .holdEnded k }

/-- The hold reaches the compartments of a section in turn, with the operations ended (R16). -/
def holdOver : List Nat → State → Nat → State × Nat
  | [], s, k => (s, k)
  | n :: ns, s, k =>
    let (s1, j) := s.holdComp n
    holdOver ns s1 (k + j)

/-- HOLD naming a section (R16). -/
def State.holdSect (s : State) (i : Fin 8) : Answer :=
  let s0 := s.updSect i fun x => { x with hold := true }
  let (s1, k) := holdOver (s0.compsOf i) s0 0
  { state := s1.pass, status := .OK, body := .holdEnded k }

/-- HOLD at the Compartment Table (R14 to R16). -/
def State.hold (s : State) (t : Nat ⊕ Nat) : Answer :=
  match t with
  | .inl n => s.onComp n fun s => s.holdOne n
  | .inr k => s.onSect k s.holdSect

/-- HOLD (R15, R16). -/
def execHold (h : ReqHead) (p : List Byte) (s : State) : Host.Outcome State Fault Refusal :=
  .next (s.takeRequest h 27 p .target fun t s => s.hold t)

/-- HOLD_RELEASE at the Compartment Table (R17). -/
def State.holdRelease (s : State) (t : Nat ⊕ Nat) : Answer :=
  match t with
  | .inl n => s.onComp n fun s =>
      { state := s.setOwnHold n false, status := .OK, body := .stillHeld (s.sectHeld (s.comp n)) }
  | .inr k => s.onSect k fun i =>
      { state := s.updSect i fun x => { x with hold := false }, status := .OK,
        body := .ownHolds ((s.compsOf i).filter fun n => (s.comp n).ownHold).length }

/-- HOLD_RELEASE (R17). -/
def execHoldRelease (h : ReqHead) (p : List Byte) (s : State) : Host.Outcome State Fault Refusal :=
  .next (s.takeRequest h 28 p .target fun t s => s.holdRelease t)

/-! ### Out of service and class (R23, R24) -/

/-- The state of a compartment written (R23). -/
def State.setState (s : State) (n : Nat) (x : CompState) : State := s.updComp n fun c => { c with state := x }

/-- SET_OUT_OF_SERVICE at the Compartment Table (R23).  A compartment that is not FREE and has an operation too meets
both conditions of R23, which gives them no order: the state is tested first, since R8 refuses the request WRONG_STATE
once an allocation has been taken (DEDUCED, log entry 33). -/
def State.setOut (s : State) (n : Nat) : Answer :=
  s.onComp n fun s =>
    if (s.comp n).state ≠ .FREE then s.refuse .WRONG_STATE
    else if s.hasOp n then s.refuse .BUSY
    else { state := s.setState n .OUT_OF_SERVICE, status := .OK, body := .empty }

/-- SET_OUT_OF_SERVICE (R23). -/
def execSetOutOfService (h : ReqHead) (p : List Byte) (s : State) : Host.Outcome State Fault Refusal :=
  .next (s.takeRequest h 29 p .nat8 fun n s => s.setOut n)

/-- REINSTATE at the Compartment Table (R23). -/
def State.reinstate (s : State) (n : Nat) : Answer :=
  s.onComp n fun s =>
    if s.hasOp n then s.refuse .BUSY
    else if (s.comp n).state ≠ .OUT_OF_SERVICE then s.refuse .WRONG_STATE
    else if (s.comp n).causes.isEmpty = false then s.refuse .FAULTED
    else { state := s.setState n .FREE, status := .OK, body := .empty }

/-- REINSTATE (R23). -/
def execReinstate (h : ReqHead) (p : List Byte) (s : State) : Host.Outcome State Fault Refusal :=
  .next (s.takeRequest h 30 p .nat8 fun n s => s.reinstate n)

/-- The compartment is FREE or OUT_OF_SERVICE (R24, R38). -/
def CompState.unused : CompState → Bool
  | .FREE | .OUT_OF_SERVICE => true
  | _ => false

/-- SET_CLASS at the Compartment Table (R24).  Of its two refusals, which R24 names without an order, BUSY comes first
(DESIGN CHOICE, log entry 52). -/
def State.setClass (s : State) (n : Nat) (k : SizeClass) : Answer :=
  s.onComp n fun s =>
    if s.hasOp n then s.refuse .BUSY
    else if (s.comp n).state.unused = false then s.refuse .WRONG_STATE
    else { state := s.updComp n fun c => { c with cls := k }, status := .OK, body := .empty }

/-- SET_CLASS (R24). -/
def execSetClass (h : ReqHead) (p : List Byte) (s : State) : Host.Outcome State Fault Refusal :=
  .next (s.takeRequest h 31 p (Codec.nat8.pair Codec.sizeClass) fun x s => s.setClass x.1 x.2)

/-! ### Boards and links (R53, R64, R66) -/

/-- The compartments, of any section, whose address names a link and slot (R53). -/
def State.compsAt (s : State) (l k : Nat) : List Nat :=
  compNos.filter fun n => (s.namedAddr n).any fun a => decide (a.link = l ∧ a.slot = k)

/-- BOARD_ACCEPT at the link (R53).  AUDIT_REQUIRED joins the compartments, and ends the operations it ends, in
ascending compartment number (DESIGN CHOICE, log entry 37). -/
def State.boardAccept (s : State) (l k : Nat) : Answer :=
  if s.starting then s.refuse .STARTING
  else if s.linkFitted l = false ∨ k < 1 ∨ 8 < k then s.refuse .NOT_FOUND
  else if (s.slot l k).state ≠ .NEW then s.refuse .WRONG_STATE
  else
    let marked := s.compsAt l k
    let s1 := s.updSlot l k fun x => { x with commissioned := x.serial }.enterPresent
    let s2 := marked.foldl (fun s n => s.addCause n .AUDIT_REQUIRED) s1
    { state := s2.pass, status := .OK, body := .accepted marked.length }

/-- BOARD_ACCEPT (R53). -/
def execBoardAccept (h : ReqHead) (p : List Byte) (s : State) : Host.Outcome State Fault Refusal :=
  .next (s.takeRequest h 35 p (Codec.nat8.pair Codec.nat8) fun x s => s.boardAccept x.1 x.2)

/-- A slot at a link reset: EMPTY, its commissioned serial and late-strike marks kept (R64). -/
def Slot.reset (x : Slot) : Slot := { x.cleared with late := x.late }

/-- The link's own part of a reset (R64, steps 4 to 6), with UNBIND due. -/
def Link.resetLink (x : Link) : Link :=
  { x with slots := x.slots.map Slot.reset, rollTimer := false, enumPass := none, unbindDue := true }

/-- The strike in flight at a link reset (R64, step 3). -/
def State.resetStrike (s : State) (l : Nat) : State :=
  match (s.link l).strike with
  | none => s
  | some k =>
    let s1 := if k.ackMinute.isSome ∧ k.durationRun = false then s.setLate l k.slot k.channel true else s
    s1.dropStrike l

/-- The jobs of the operations at STRIKING or later on a link, in ascending compartment number (R64). -/
def State.strikingOn (s : State) (l : Nat) : List Nat :=
  (opsByComp (s.hce.ops.filter fun o => decide (o.link = l) && o.stage.striking)).map (·.job)

/-- LINK_RESET at the link (R64).  The slots become EMPTY before the ends, so that no top-up those ends ask
for creates an operation on the link. -/
def State.resetAll (s : State) (l : Nat) : State × Nat :=
  let queued := (s.link l).queued
  let striking := s.strikingOn l
  let s1 := s.updLink l Link.resetLink
  let s2 := (s1.endJobs queued .ABORTED_LINK).endJobs striking .UNCONFIRMED
  (s2.resetStrike l, queued.length + striking.length)

/-- LINK_RESET at its owner (R64). -/
def State.linkReset (s : State) (l : Nat) : Answer :=
  if s.starting then s.refuse .STARTING
  else if s.linkFitted l = false then s.refuse .NOT_FOUND
  else
    let (s1, k) := s.resetAll l
    { state := s1.pass, status := .OK, body := .linkEnded k }

/-- LINK_RESET (R64). -/
def execLinkReset (h : ReqHead) (p : List Byte) (s : State) : Host.Outcome State Fault Refusal :=
  .next (s.takeRequest h 36 p .nat8 fun l s => s.linkReset l)

/-- CLEAR_FAULT_CAPTURE at its owner (R66). -/
def State.clearCapture (s : State) : Answer :=
  if s.starting then s.refuse .STARTING
  else
    { state := s.updCapture fun _ => { held := none, further := 0 }, status := .OK, body := .capture s.capture }

/-- CLEAR_FAULT_CAPTURE (R66). -/
def execClearFaultCapture (h : ReqHead) (p : List Byte) (s : State) : Host.Outcome State Fault Refusal :=
  .next (s.takeRequest h 40 p .blank fun _ s => s.clearCapture)

end Sys2Proof.Machine
end

