-- ==== Sys2Proof/Machine/Manage.lean ====
section
/-! DEFINITION. The requests of the Tariff Store, CONFIG and FACTORY_CLEAR: kinds 37, 38, 39 and 41 (R130 to
R135, R205, R206). -/

namespace Sys2Proof.Machine

open Sys2Proof

/-- A page number is in 0 to 3. -/
def pageOf (n : Nat) : Option (Fin 4) := if h : n < 4 then some ⟨n, h⟩ else none

/-! ### TARIFF_LOAD (R130, R131) -/

/-- The page is the target of the scheduled switch. -/
def State.scheduledPage (s : State) (i : Fin 4) : Bool := s.tariff.scheduled.any fun w => decide (w.page = i)

/-- The page is protected (R131, step 4): LOADED, and active, scheduled or referenced. -/
def State.pageInUse (s : State) (i : Fin 4) : Bool :=
  (s.page i).isSome && (decide (s.tariff.active = i) || s.scheduledPage i || decide (0 < s.pageRefs i))

/-- A page is stored (R131). -/
def State.storePage (s : State) (i : Fin 4) (p : Page) : State :=
  s.updTariff fun t => { t with pages := t.pages.set i (some p) }

/-- TARIFF_LOAD at the Tariff Store (R131).  The refusals STARTING, NO_POWER and NOT_FOUND carry no count of R132
(DESIGN CHOICE, log entry 38).  IN_USE says which of the three grounds of step 4 holds by one flag for each, since more
than one may hold (DESIGN CHOICE, log entry 13). -/
def State.tariffLoad (s : State) (n : Nat) (p : Page) : Answer :=
  match s.serviceCheck with
  | some x => s.refuse x
  | none =>
    match pageOf n with
    | none => s.refuse .NOT_FOUND
    | some i =>
      if s.pageInUse i then
        { state := s, status := .IN_USE,
          body := .pageInUse (decide (s.tariff.active = i)) (s.scheduledPage i) (decide (0 < s.pageRefs i))
            (s.pageRefs i) }
      else
        { state := s.storePage i p.clamped, status := .OK,
          body := .pageStored p.clamped (decide (p.clamped ≠ p)) (s.pageRefs i) }

/-- TARIFF_LOAD (R131). -/
def execTariffLoad (h : ReqHead) (p : List Byte) (s : State) : Host.Outcome State Fault Refusal :=
  .next (s.takeRequest h 37 p .loadReq fun x s => s.tariffLoad x.1 x.2)

/-! ### TARIFF_SCHEDULE (R133) -/

/-- The scheduled switch written (R133). -/
def State.setSwitch (s : State) (w : Option Switch) : State := s.updTariff fun t => { t with scheduled := w }

/-- TARIFF_SCHEDULE at the Tariff Store (R133).  The refusals STARTING, NO_POWER, NOT_FOUND and WRONG_STATE carry no
count of R132 (DESIGN CHOICE, log entry 38). -/
def State.schedule (s : State) (n minute : Nat) : Answer :=
  match s.serviceCheck with
  | some x => s.refuse x
  | none =>
    match pageOf n with
    | none => s.refuse .NOT_FOUND
    | some i =>
      if (s.page i).isNone then s.refuse .WRONG_STATE
      else if s.tariff.active = i then
        { state := s.setSwitch none, status := .OK, body := .switchCancelled s.tariff.scheduled (s.pageRefs i) }
      else if s.now < minute then
        let w : Switch := { page := i, minute := minute }
        { state := s.setSwitch (some w), status := .OK, body := .switchStored w (s.pageRefs i) }
      else
        { state := s.switchPage i, status := .OK, body := .switched s.tariff.active i (s.pageRefs i) }

/-- TARIFF_SCHEDULE (R133). -/
def execTariffSchedule (h : ReqHead) (p : List Byte) (s : State) : Host.Outcome State Fault Refusal :=
  .next (s.takeRequest h 38 p (Codec.nat8.pair Codec.nat32) fun x s => s.schedule x.1 x.2)

/-! ### CONFIG (R205) -/

/-- CONFIG at the Supply and Clock Unit (R205). -/
def State.configure (s : State) (c : ConfigVals) : Answer :=
  match s.serviceCheck with
  | some x => s.refuse x
  | none =>
    { state := s.updScu fun u => { u with config := c.clamped }, status := .OK,
      body := .configStored c.clamped (decide (c.clamped ≠ c)) }

/-- CONFIG (R205). -/
def execConfig (h : ReqHead) (p : List Byte) (s : State) : Host.Outcome State Fault Refusal :=
  .next (s.takeRequest h 39 p .configReq fun c s => s.configure c)

/-! ### FACTORY_CLEAR (R2, R30, R48, R206) -/

/-- A parcel record, charge record or reversal entry exists (R206). -/
def State.holdsMoney (s : State) : Bool :=
  s.comps.toList.any (fun c => c.parcel.isSome) || s.pbc.readers.toList.any (fun x => x.charge.isSome)
    || !s.pbc.reversals.isEmpty

/-- A compartment at FACTORY_CLEAR (R2). -/
def Compartment.cleared (c : Compartment) : Compartment :=
  { Compartment.factory with hatchCount := c.hatchCount }

/-- The Tariff Store from the factory (R129). -/
def Tariff.factory : Tariff :=
  { pages := Vector.replicate 4 none, active := 0, scheduled := none, refs := Vector.replicate 4 0 }

/-- One slot at FACTORY_CLEAR (R48, R57). -/
def State.clearSlot (s : State) (l k : Nat) : State :=
  let x := s.slot l k
  match x.state with
  | .PRESENT =>
    ((s.updSlot l k fun x => { x with commissioned := none }.enter .NEW).postBoardChanged l k x.serial).slotLost
      l k
  | .OFFLINE => s.updSlot l k fun x => { Slot.empty with late := x.late }
  | .EMPTY | .NEW | .CONFLICT => s.updSlot l k fun x => { x with commissioned := none }

/-- One link at FACTORY_CLEAR (R48): its slots, and its roll-call timer stopped. -/
def State.clearLink (s : State) (l : Nat) : State :=
  (slotNos.foldl (fun s k => s.clearSlot l k) s).updLink l fun x => { x with rollTimer := false }

/-- The retained state of the blocks other than the links at its factory values (R206). -/
def State.factoryBlocks (s : State) : State :=
  { s with
    comps := s.comps.map Compartment.cleared
    sects := Vector.replicate 8 Sect.factory
    hatchMap := Vector.replicate 240 none
    capture := { held := none, further := 0 }
    alloc := { s.alloc with retired := [] }
    tariff := Tariff.factory
    pbc := { s.pbc with refCounter := 0 }
    scu := { s.scu with config := ConfigVals.factory, base := .OPEN, wallOffset := 0 }
    kli := Kli.refresh { s.kli with mask := ClassSet.all } }

/-- FACTORY_CLEAR at the Supply and Clock Unit (R206). -/
def State.factoryClear (s : State) : Answer :=
  match s.serviceCheck with
  | some x => s.refuse x
  | none =>
    if s.holdsMoney then s.refuse .WRONG_STATE
    else if s.hce.ops.isEmpty = false then s.refuse .BUSY
    else
      let s1 := s.factoryBlocks
      let s2 := (List.range' 1 4).foldl State.clearLink s1
      { state := s2.decideMode, status := .OK, body := .empty }

/-- FACTORY_CLEAR (R206). -/
def execFactoryClear (h : ReqHead) (p : List Byte) (s : State) : Host.Outcome State Fault Refusal :=
  .next (s.takeRequest h 41 p .blank fun _ s => s.factoryClear)

end Sys2Proof.Machine
end

