-- ==== Sys2Proof/Machine/Power.lean ====
section
/-! DEFINITION. The commands of the supply inputs, the restarts, the minute and the audit limit (R197, R199,
R201, R203). -/

namespace Sys2Proof.Machine

open Sys2Proof

/-- MAINS_GOOD changes level (R197). -/
def execMainsGoodChange (level : Bool) (s : State) : Host.Outcome State Fault Refusal :=
  .next (s.updScu fun u => { u with mainsGood := level }).decideMode

/-- BATTERY_LOW changes level (R197). -/
def execBatteryLowChange (level : Bool) (s : State) : Host.Outcome State Fault Refusal :=
  .next (s.updScu fun u => { u with batteryLow := level }).decideMode

/-- POWER_ON (R201). -/
def execPowerOn (i : RestartInputs) (s : State) : Host.Outcome State Fault Refusal :=
  .next (s.restartWith i .POWER_ON)

/-- BROWNOUT (R201). -/
def execBrownout (i : RestartInputs) (s : State) : Host.Outcome State Fault Refusal :=
  .next (s.restartWith i .BROWNOUT)

/-- HOST_RESTART: the restart that follows the reply to RESTART (R201). -/
def execHostRestart (i : RestartInputs) (s : State) : Host.Outcome State Fault Refusal :=
  .next (s.restartWith i .HOST_RESTART)

/-- The counter after a minute (R199). -/
def Scu.ticked (u : Scu) : Scu :=
  { u with minute := u.minute + 1,
           persisted := if (u.minute + 1) % 15 = 0 then u.minute + 1 else u.persisted }

/-- MINUTE_TICK: the counter rises by one, unless it stands at its greatest value, and outside the start-up
phases the new value is handed on (R199). -/
def execMinuteTick (s : State) : Host.Outcome State Fault Refusal :=
  if s.now < Config.max32 then
    let s1 := s.updScu Scu.ticked
    .next (if s.starting then s1 else s1.handOn (decide (s1.now % 15 = 0)))
  else .next s

/-- The audit limit expires (R203). -/
def execAuditLimitExpiry (s : State) : Host.Outcome State Fault Refusal :=
  if s.scu.phase = some .AUDIT ∧ s.scu.auditTimer = true then .next s.endAudit else .next s

end Sys2Proof.Machine
end

