-- ==== Sys2Proof/Machine/Queries.lean ====
section
/-! DEFINITION. The requests of the management station, kinds 1 to 13 (R18, R27, R28, R43, R66, R67, R143,
R193 to R195, R198 to R201). -/

namespace Sys2Proof.Machine

open Sys2Proof

/-- A compartment number is in 1 to 240. -/
def compNoOk (n : Nat) : Bool := decide (1 ≤ n ∧ n ≤ 240)

/-- An answer OK that changes nothing. -/
def State.tell (s : State) (b : ReplyBody) : Answer := { state := s, status := .OK, body := b }

/-! ### STATUS (R195) -/

/-- The STATUS reply. -/
def State.statusReply (s : State) : StatusReply :=
  { mode := if s.starting then none else some s.scu.mode
    base := s.scu.base
    cause := s.scu.cause
    phase := s.scu.phase
    straps := s.scu.straps
    minute := s.now
    wallMinute := s.wallMinute
    timeGap := s.scu.timeGap
    free := s.freeCounts
    ops := s.hce.ops.length
    queued := s.kli.queue.length
    overflow := s.kli.overflow
    readers := s.pbc.readers.toList.map (·.state)
    captured := s.capture.held.isSome }

/-- STATUS (R195). -/
def execStatus (h : ReqHead) (p : List Byte) (s : State) : Host.Outcome State Fault Refusal :=
  .next (s.takeRequest h 1 p .blank fun _ s => s.tell (.statusOf s.statusReply))

/-! ### Events (R193, R194) -/

/-- The queue after its first `k` records are taken (R194). -/
def Kli.fetched (x : Kli) (k : Nat) : Kli :=
  let rest := x.queue.drop k
  Kli.refresh { x with queue := rest, pendingFl := x.pendingFl.inter (ClassSet.ofQueue rest), overflow := false }

/-- FETCH_EVENTS at its owner (R194). -/
def State.fetch (s : State) (n : Nat) : Answer :=
  let recs := takeFitting (clamp 1 8 n) 243 s.kli.queue
  { state := s.updKli fun x => x.fetched recs.length
    status := .OK
    body := .events recs (s.kli.queue.length - recs.length) s.kli.overflow }

/-- FETCH_EVENTS (R194). -/
def execFetchEvents (h : ReqHead) (p : List Byte) (s : State) : Host.Outcome State Fault Refusal :=
  .next (s.takeRequest h 2 p .nat8 fun n s => s.fetch n)

/-- EVENT_MASK at its owner (R193). -/
def State.setMask (s : State) (m : ClassSet) : Answer :=
  { state := s.updKli fun k => Kli.refresh { k with mask := m }, status := .OK, body := .mask m }

/-- EVENT_MASK (R193). -/
def execEventMask (h : ReqHead) (p : List Byte) (s : State) : Host.Outcome State Fault Refusal :=
  .next (s.takeRequest h 3 p .mask fun m s => s.setMask m)

/-! ### Clock and mode (R198 to R200) -/

/-- The wall offset that makes a wall minute stand now (R199). -/
def wallOffsetFor (wall minute : Nat) : Nat := (wall + 1440 - minute % 1440) % 1440

/-- TIME_SET at its owner (R199). -/
def State.timeSet (s : State) (w : Nat) : Answer :=
  if s.starting then s.refuse .STARTING
  else if 1439 < w then s.refuse .BAD_REQUEST
  else
    let o := wallOffsetFor w s.now
    { state := s.updScu fun u => { u with wallOffset := o }, status := .OK, body := .wall o w }

/-- TIME_SET (R199). -/
def execTimeSet (h : ReqHead) (p : List Byte) (s : State) : Host.Outcome State Fault Refusal :=
  .next (s.takeRequest h 4 p .nat16 fun w s => s.timeSet w)

/-- CLOCK_ADVANCE at its owner (R200).  The minutes added that the reply carries are the clamped number, also where the
counter stops at its greatest value (DESIGN CHOICE, log entry 46). -/
def State.clockAdvance (s : State) (n : Nat) : Answer :=
  if s.starting then s.refuse .STARTING
  else if s.scu.timeGap = false then s.refuse .WRONG_STATE
  else
    let d := clamp 1 10080 n
    let m := addMin s.now d
    let s1 := s.updScu fun u => { u with minute := m, persisted := m, timeGap := false }
    { state := s1.handOn (quarterCrossed s.now m), status := .OK, body := .advanced d m }

/-- CLOCK_ADVANCE (R200). -/
def execClockAdvance (h : ReqHead) (p : List Byte) (s : State) : Host.Outcome State Fault Refusal :=
  .next (s.takeRequest h 5 p .nat16 fun n s => s.clockAdvance n)

/-- MODE at its owner (R198). -/
def State.setBase (s : State) (m : Nat) : Answer :=
  if s.starting then s.refuse .STARTING
  else if 1 < m then s.refuse .BAD_REQUEST
  else
    let b : BaseMode := if m = 0 then .OPEN else .NIGHT
    let s1 := (s.updScu fun u => { u with base := b }).decideMode
    { state := s1, status := .OK, body := .modes b s1.scu.mode }

/-- MODE (R198). -/
def execMode (h : ReqHead) (p : List Byte) (s : State) : Host.Outcome State Fault Refusal :=
  .next (s.takeRequest h 6 p (.below 5) fun m s => s.setBase m)

/-! ### QUOTE (R143) -/

/-- The compartment of the DELIVERY parcel, pending or live, with an access code (R28, R143). -/
def State.findCode (s : State) (code : Nat) : Option Nat :=
  compNos.find? fun n => (s.comp n).parcel.any fun p => decide (p.code = some code)

/-- The quote reply of the delivery parcel in a compartment (R143). -/
def State.quoteReply (s : State) (n : Nat) (minute : Option Nat) : Answer :=
  match (s.comp n).parcel with
  | none => s.refuse .NOT_FOUND
  | some p =>
    match p.page with
    | none => s.refuse .WRONG_STATE
    | some i =>
      let t := max s.now (minute.getD s.now)
      s.tell (.quoted n i p.declared p.pending p.paidThrough p.retryUntil (s.quoteAt t p))

/-- QUOTE at its owner (R143). -/
def State.quoteFor (s : State) (q : QuoteReq) : Answer :=
  match q.what with
  | .inl code =>
    match s.findCode code with
    | some n => s.quoteReply n q.minute
    | none => s.refuse .NOT_FOUND
  | .inr n => if compNoOk n then s.quoteReply n q.minute else s.refuse .NOT_FOUND

/-- QUOTE (R143). -/
def execQuote (h : ReqHead) (p : List Byte) (s : State) : Host.Outcome State Fault Refusal :=
  .next (s.takeRequest h 7 p .quoteReq fun q s => s.quoteFor q)

/-! ### Reading requests (R18, R27, R28, R66, R67) -/

/-- What READ_COMPARTMENT says of a section (R30, R43). -/
def State.sectReply (s : State) (n : Nat) (i : Fin 8) : SectReply :=
  let x := s.sect i
  { letter := i, first := x.first, count := x.count, mode := x.mode, enabled := x.enabled, hold := x.hold,
    entry := if x.mode = .MAPPED then s.mapEntry n else none,
    matching := decide (x.mode = .MAPPED) && (s.mapEntry n).any fun e => e.matching n }

/-- The READ_COMPARTMENT reply (R27). -/
def State.compReply (s : State) (n : Nat) : CompReply :=
  { comp := s.comp n, held := s.held n, sect := (s.comp n).sect.map (s.sectReply n),
    op := (s.opOn n).map fun o => (o.job, o.purpose, o.stage) }

/-- READ_COMPARTMENT (R27). -/
def execReadCompartment (h : ReqHead) (p : List Byte) (s : State) : Host.Outcome State Fault Refusal :=
  .next (s.takeRequest h 8 p .nat8 fun n s =>
    if compNoOk n then s.tell (.compartment (s.compReply n)) else s.refuse .NOT_FOUND)

/-- The compartments whose parcel record a FIND_PARCEL matches, ascending (R28). -/
def State.matches (s : State) (q : Nat ⊕ Text) : List Nat :=
  compNos.filter fun n => (s.comp n).parcel.any fun p =>
    match q with
    | .inl code => decide (p.code = some code)
    | .inr t => decide (p.text = t)

/-- A match as FIND_PARCEL reports it (R28, R146). -/
def State.foundParcel (s : State) (n : Nat) : Option FoundParcel :=
  (s.comp n).parcel.map fun p =>
    { comp := n, kind := p.kind, pending := p.pending, unverified := p.unverified, overdue := p.overdue }

/-- FIND_PARCEL at its owner (R28). -/
def State.findParcel (s : State) (q : Nat ⊕ Text) : Answer :=
  let l := s.matches q
  if l = [] then s.refuse .NOT_FOUND
  else s.tell (.found l.length ((l.take 8).filterMap s.foundParcel))

/-- FIND_PARCEL (R28). -/
def execFindParcel (h : ReqHead) (p : List Byte) (s : State) : Host.Outcome State Fault Refusal :=
  .next (s.takeRequest h 9 p .findReq fun q s => s.findParcel q)

/-- The indication of HOLD_MAP for a number (R18). -/
def State.holdIndication (s : State) (n : Nat) : Bool :=
  compNoOk n && (s.comp n).sect.isSome && s.held n

/-- HOLD_MAP (R18). -/
def execHoldMap (h : ReqHead) (p : List Byte) (s : State) : Host.Outcome State Fault Refusal :=
  .next (s.takeRequest h 10 p .nat8 fun n s =>
    s.tell (.holds (clamp 1 240 n) ((List.range' (clamp 1 240 n) 32).map s.holdIndication)))

/-- A slot in LIST_BOARDS (R67). -/
def Slot.listed (x : Slot) : SlotReply :=
  { state := x.state, serial := x.serial, commissioned := x.commissioned, channels := x.chanCode.map channelsOf,
    units := x.curCode.map unitsOf, unanswered := x.unanswered }

/-- A link in LIST_BOARDS (R67). -/
def Link.listed (x : Link) : LinkReply :=
  { pass := x.enumPass.map (·.full), rollTimer := x.rollTimer, striking := x.strike.map (·.job),
    slots := x.slots.toList.map Slot.listed }

/-- LIST_BOARDS (R67). -/
def execListBoards (h : ReqHead) (p : List Byte) (s : State) : Host.Outcome State Fault Refusal :=
  .next (s.takeRequest h 11 p .blank fun _ s =>
    s.tell (.boards (s.linkNos.map fun l => (s.link l).listed)))

/-- READ_FAULT_CAPTURE (R66). -/
def execReadFaultCapture (h : ReqHead) (p : List Byte) (s : State) : Host.Outcome State Fault Refusal :=
  .next (s.takeRequest h 12 p .blank fun _ s => s.tell (.capture s.capture))

/-- RESTART: answered OK; the restart follows as HOST_RESTART (R201). -/
def execRestart (h : ReqHead) (p : List Byte) (s : State) : Host.Outcome State Fault Refusal :=
  .next (s.takeRequest h 13 p .blank fun _ s =>
    { state := s.updScu fun u => { u with restartDue := true }, status := .OK, body := .empty })

end Sys2Proof.Machine
end

