-- ==== Sys2Proof/Machine/Readers.lean ====
section
/-! DEFINITION. The commands of the payment bus: the choice of the next exchange, the readers' answers, the
timers, late results, and the loss and return of a reader (R150, R154 to R164). -/

namespace Sys2Proof.Machine

open Sys2Proof

/-! ### The choice of the next exchange (R150) -/

/-- The fitted readers in turn, beginning after the reader of the last exchange (R150), and at P1 where none has been
made since the restart (DESIGN CHOICE, log entry 43). -/
def State.readerTurn (s : State) : List Nat :=
  let n := s.scu.straps.readers.val
  if n = 0 then [] else (List.range n).map fun i => (s.pbc.lastReader + i) % n + 1

/-- A message is put on the bus. -/
def State.sendTo (s : State) (r : Nat) (m : BusMsg) : State :=
  s.updPbc fun p => { p with line := some (r, m), retry := none, lastReader := r }

/-- The reader answers as far as the part knows: it is not OFFLINE. -/
def State.readerUp (s : State) (r : Nat) : Bool := decide ((s.reader r).state ≠ .OFFLINE)

/-- An OFFLINE reader whose poll timer has expired. -/
def State.pollDue (s : State) (r : Nat) : Bool :=
  decide ((s.reader r).state = .OFFLINE ∧ (s.reader r).pollTimer = .expired)

/-- The first reader in turn with a message due, and that message (R150, step 2). -/
def State.listedMessage (s : State) : Option (Nat × BusMsg) :=
  (s.readerTurn.filter s.readerUp).findSome? fun r => (s.reader r).outgoing.head?.map fun m => (r, m)

/-- The next exchange of the bus (R150).  Step 3 takes its readers in the turn of step 2 (DESIGN CHOICE, log entry
43). -/
def State.chooseBus (s : State) : State :=
  match s.pbc.retry with
  | some (r, m) => s.sendTo r m
  | none =>
    match s.listedMessage with
    | some (r, m) => s.sendTo r m
    | none =>
      match s.readerTurn.find? s.pollDue with
      | some r => (s.updReader r fun x => { x with pollTimer := .running }).sendTo r .POLL
      | none =>
        match s.readerTurn.find? s.readerUp with
        | some r => s.sendTo r .POLL
        | none => s

/-! ### Settling (R121, R155, R158, R159) -/

/-- A message has been answered: the line is free, the count 0, the message off the list (R150). -/
def State.busAnswered (s : State) (r : Nat) (m : BusMsg) : State :=
  (s.updPbc fun p => { p with line := none, retry := none, lastReader := r }).updReader r
    fun x => ({ x with unanswered := 0 }).unlist m

/-- A delivery parcel is credited (R121, R159). -/
def State.creditParcel (s : State) (n amount : Nat) : State :=
  s.updParcel n fun p =>
    { p with paid := p.paid + amount, paidThrough := some (addMin s.now (s.parcelPage p).grace),
             chargeRef := none, chargeReader := none }

/-- An AWAIT_PAYMENT operation that is told of an approval joins the tail of its priority queue, or ends STRIKE_FAILED
where its slot is not PRESENT (R57, R71). -/
def State.joinQueue (s : State) (job : Nat) : State :=
  match s.opByJob job with
  | none => s
  | some o =>
    if o.stage ≠ .AWAIT_PAYMENT then s
    else if (s.slot o.link o.slot).state = .PRESENT then
      (s.updOp job fun o => { o with stage := .QUEUED }).updLink o.link fun x => { x with prio := x.prio ++ [job] }
    else s.endOp o .STRIKE_FAILED

/-- A result settles the charge record of a reader: it is dropped, its reference is the last settled one,
RESULT_ACK heads the outgoing list, and the reader rests (R155, R159). -/
def State.settleRecord (s : State) (r ref : Nat) : State :=
  ((s.dropCharge r).updReader r fun x => ({ x with lastSettled := some ref }).ackFirst ref).restReader r

/-- The approval number travels with APPROVED alone (R149). -/
def approvalText (r : PayResult) (approval : Text) : Option Text :=
  if r = .APPROVED then some approval else none

/-- PAYMENT_RESULT of an applied charge (R155). -/
def State.paymentResult (s : State) (r : Nat) (c : Charge) (res : PayResult) (approval : Text) : EventRec :=
  { s.event .PAYMENT_RESULT with
    station := some r, job := c.job, comp := some c.comp, chargeRef := some c.ref, amount := some c.amount,
    result := some res, text := approvalText res approval }

/-- The parcel and the operation of an approved charge (R121, R155). -/
def State.approve (s : State) (c : Charge) : State :=
  match c.ident.kind with
  | .DELIVERY =>
    let s1 := s.creditParcel c.comp c.amount
    match c.job with
    | some j => s1.updOp j fun o => { o with chargeRef := none, amount := none }
    | none => s1
  | .RETURN => s.updParcel c.comp fun p => { p with paid := c.amount }

/-- A RESULT of a charge whose operation waits (R155). -/
def State.applyResult (s : State) (r : Nat) (c : Charge) (res : PayResult) (approval : Text) : State :=
  let s1 := s.settleRecord r c.ref
  let s2 := if res = .APPROVED then s1.approve c else s1.dropParcelRef c.comp c.ref
  let s3 := s2.post (s2.paymentResult r c res approval)
  match c.job with
  | none => s3
  | some j => if res = .APPROVED then s3.joinQueue j else s3.endJob j .PAYMENT_DECLINED

/-- The honour test (R159). -/
def State.honours (s : State) (c : Charge) : Bool :=
  decide ((s.comp c.comp).state = .LOADED) &&
    match (s.comp c.comp).parcel with
    | some p => decide (p.kind = .DELIVERY ∧ c.ident.code.isSome ∧ p.code = c.ident.code
                  ∧ p.depositMinute = c.ident.depositMinute)
    | none => false

/-- LATE_RESULT (R159). -/
def State.lateEvent (s : State) (c : Charge) (res : PayResult) (approval : Text) (f : EventFlags) : EventRec :=
  EventRec.withFlags { s.event .LATE_RESULT with
    comp := some c.comp, chargeRef := some c.ref, amount := some c.amount, result := some res,
    text := approvalText res approval } f

/-- A late result (R159). -/
def State.lateResult (s : State) (r : Nat) (c : Charge) (res : PayResult) (approval : Text) : State :=
  let s1 := s.settleRecord r c.ref
  if res = .APPROVED then
    if s.honours c then
      let s2 := s1.creditParcel c.comp c.amount
      s2.post (s2.lateEvent c res approval { honoured := true })
    else
      let (s2, admitted) := (s1.dropParcelRef c.comp c.ref).queueReversal
        { ref := c.ref, amount := c.amount, reader := r, comp := c.comp, origin := .LATE_RESULT }
      s2.post (s2.lateEvent c res approval
        (if admitted then { reversalQueued := true } else { refundNotIssued := true }))
  else
    let s2 := s1.dropParcelRef c.comp c.ref
    s2.post (s2.lateEvent c res approval {})

/-- A RESULT whose reference matches no charge record on the reader (R160). -/
def State.strayResult (s : State) (r ref : Nat) (res : PayResult) (approval : Text) : State :=
  let s1 := s.updReader r fun x => x.ackFirst ref
  if (s.reader r).lastSettled = some ref then s1
  else
    s1.post (EventRec.withFlags { s1.event .PAYMENT_RESULT with
      reader := some r, chargeRef := some ref, result := some res, text := approvalText res approval }
      { unmatched := true })

/-- The charge record of a reader that a reference names. -/
def State.chargeNamed (s : State) (r ref : Nat) : Option Charge :=
  match (s.reader r).charge with
  | some c => if c.ref = ref then some c else none
  | none => none

/-- A RESULT is taken (R155, R159, R160). -/
def State.takeResult (s : State) (r ref : Nat) (res : PayResult) (approval : Text) : State :=
  match s.chargeNamed r ref with
  | some c => if c.phase = .ABANDON_DUE then s.lateResult r c res approval else s.applyResult r c res approval
  | none => s.strayResult r ref res approval

/-! ### Loss and return of a reader (R163, R164) -/

/-- Only an ABANDON or REVERSE still owed is kept (R163). -/
def Reader.keepOwed (x : Reader) : Reader :=
  { x with outgoing := x.outgoing.filter fun m => m.isAbandon || m.isReverse }

/-- A reader becomes OFFLINE (R163). -/
def State.readerLost (s : State) (r : Nat) : State :=
  let s1 := s.updReader r fun x =>
    ({ x with state := .OFFLINE, unanswered := 0, pollTimer := .running }).keepOwed
  match (s.reader r).charge with
  | none => s1
  | some c =>
    match c.job with
    | none => s1
    | some j =>
      let s2 := s1.endJob j .READER_OFFLINE
      if c.phase = .OFFERED ∧ c.offer = false then (s2.dropCharge r).dropParcelRef c.comp c.ref
      else s2.updReader r fun x =>
        { x with charge := some { c with phase := .ABANDON_DUE, job := none, timeout := none } }

/-- An OFFLINE reader returns: steps 2 to 4 of R164.  An ABANDON or REVERSE kept for its return is not sent twice
(DEDUCED, log entry 27). -/
def State.returnReader (s : State) (r : Nat) : State :=
  let s1 := s.updReader r fun x => { x with pollTimer := .stopped }
  match (s1.reader r).charge with
  | some c => s1.updReader r fun x => ({ x with state := .ABANDONING }).owe (.ABANDON c.ref)
  | none => s1.restReader r

/-- The reader, if OFFLINE, returns with this answer (R164). -/
def State.backOnBus (s : State) (r : Nat) (wasDown : Bool) : State := if wasDown then s.returnReader r else s

/-! ### The commands of the payment bus -/

/-- BUS_EXCHANGE_START: the bus is free and the next exchange is chosen (R150). -/
def execBusExchangeStart (s : State) : Host.Outcome State Fault Refusal :=
  if s.pbc.line = none then .next s.chooseBus else .next s

/-- The message that awaits the answer of a reader. -/
def State.awaited (s : State) (r : Nat) : Option BusMsg :=
  match s.pbc.line with
  | some (q, m) => if q = r then some m else none
  | none => none

/-- CHARGE_TAKEN (R154, R156). -/
def execChargeTaken (r : Nat) (s : State) : Host.Outcome State Fault Refusal :=
  match s.awaited r with
  | some (.CHARGE ref a) =>
    let s1 := s.busAnswered r (.CHARGE ref a)
    .next (s1.updReader r fun x =>
      { x with charge := x.charge.map fun c =>
          if c.ref = ref ∧ c.phase = .OFFERED then { c with phase := .TAKEN, offer := true } else c })
  | _ => .next s

/-- The offer mark of a CHARGE answered READER_BUSY is clear (R154). -/
def Reader.notOffered (x : Reader) (m : BusMsg) : Reader :=
  { x with charge := x.charge.map fun c =>
      if m = .CHARGE c.ref c.amount ∧ c.phase = .OFFERED then { c with offer := false } else c }

/-- READER_BUSY: a message still due is sent again at the reader's next turn (R154, R158, R162). -/
def execReaderBusy (r : Nat) (s : State) : Host.Outcome State Fault Refusal :=
  match s.awaited r with
  | some m =>
    if m.isCharge || m.isAbandon || m.isReverse then
      let due := (s.reader r).outgoing.contains m
      let s1 := (s.busAnswered r m).updReader r fun x => x.notOffered m
      .next (if due then s1.updReader r fun x => x.enlist m else s1)
    else .next s
  | none => .next s

/-- NOTHING_YET answers POLL and RESULT_ACK (R149, R155, R164). -/
def execNothingYet (r : Nat) (s : State) : Host.Outcome State Fault Refusal :=
  match s.awaited r with
  | some .POLL => .next ((s.busAnswered r .POLL).backOnBus r (!s.readerUp r))
  | some (.RESULT_ACK ref) => .next (s.busAnswered r (.RESULT_ACK ref))
  | _ => .next s

/-- RESULT answers POLL and ABANDON (R149, R155, R158 to R160, R164). -/
def execResult (r ref : Nat) (res : PayResult) (approval : Text) (s : State) :
    Host.Outcome State Fault Refusal :=
  match s.awaited r with
  | some m =>
    if decide (m = .POLL) || m.isAbandon then
      .next (((s.busAnswered r m).takeResult r ref res approval).backOnBus r (!s.readerUp r)).pass
    else .next s
  | none => .next s

/-- ABANDONED (R158). -/
def execAbandoned (r : Nat) (s : State) : Host.Outcome State Fault Refusal :=
  match s.awaited r with
  | some (.ABANDON ref) =>
    let s1 := s.busAnswered r (.ABANDON ref)
    match s1.chargeNamed r ref with
    | some c => .next (((s1.dropCharge r).dropParcelRef c.comp c.ref).restReader r)
    | none => .next s1
  | _ => .next s

/-- The entry a REVERSE carries out is removed and reported, and the reader takes its next (R162). -/
def State.reversalEnd (s : State) (r ref : Nat) (k : EventKind) : State :=
  match s.pbc.reversals.find? (fun v => v.ref == ref) with
  | some v => ((s.dropReversal ref).post (s.reversalEvent k v)).restReader r
  | none => s

/-- REVERSED (R162). -/
def execReversed (r : Nat) (s : State) : Host.Outcome State Fault Refusal :=
  match s.awaited r with
  | some (.REVERSE ref a) => .next ((s.busAnswered r (.REVERSE ref a)).reversalEnd r ref .REVERSAL_DONE)
  | _ => .next s

/-- REVERSE_FAILED (R162). -/
def execReverseFailed (r : Nat) (s : State) : Host.Outcome State Fault Refusal :=
  match s.awaited r with
  | some (.REVERSE ref a) => .next ((s.busAnswered r (.REVERSE ref a)).reversalEnd r ref .REVERSAL_FAILED)
  | _ => .next s

/-- The response window of a reader runs out (R150, R154, R163): an OFFLINE reader's POLL changes nothing; any
other message is tried up to three times. -/
def execReaderResponseTimeout (r : Nat) (s : State) : Host.Outcome State Fault Refusal :=
  match s.awaited r with
  | none => .next s
  | some m =>
    let s1 := s.updPbc fun p => { p with line := none, retry := none, lastReader := r }
    if s.readerUp r then
      let s2 := s1.updReader r fun x =>
        { x with unanswered := x.unanswered + 1,
                 charge := x.charge.map fun c =>
                   if m = .CHARGE c.ref c.amount ∧ c.phase = .OFFERED then { c with offer := true } else c }
      if Config.missLimit ≤ (s2.reader r).unanswered then .next (s2.readerLost r).pass
      else .next (s2.updPbc fun p => { p with retry := some (r, m) })
    else .next s1

/-- The poll timer of an OFFLINE reader expires (R150, R163). -/
def execReaderPollTimerExpiry (r : Nat) (s : State) : Host.Outcome State Fault Refusal :=
  if (s.reader r).state = .OFFLINE ∧ (s.reader r).pollTimer = .running then
    .next (s.updReader r fun x => { x with pollTimer := .expired })
  else .next s

/-- The payment timeout of a record expires (R156). -/
def execPaymentTimeout (r : Nat) (s : State) : Host.Outcome State Fault Refusal :=
  match (s.reader r).charge with
  | some c =>
    match c.job, c.timeout with
    | some j, some _ => .next ((s.endJob j .PAYMENT_TIMEOUT).abandonCharge r).pass
    | _, _ => .next s
  | none => .next s

end Sys2Proof.Machine
end

