-- ==== Sys2Proof/Machine/Sections.lean ====
section
/-! DEFINITION. The requests that change sections and the hatch map: SECTION_DEFINE, SECTION_ENABLE and
MAP_WRITE (R37 to R42). -/

namespace Sys2Proof.Machine

open Sys2Proof

/-! ### SECTION_DEFINE (R38, R39) -/

/-- The section record of a request (R39); a MAPPED one keeps link, first slot and stride as last written. -/
def DefineReq.apply (r : DefineReq) (x : Sect) : Sect :=
  match r.geometry with
  | .inl g => { x with first := r.first, count := r.count, cls := r.cls, mode := .DIRECT,
                       link := g.link, firstSlot := g.slot, stride := g.third }
  | .inr _ => { x with first := r.first, count := r.count, cls := r.cls, mode := .MAPPED }

/-- The fields of SECTION_DEFINE are in the ranges of R29 (R37, step 4). -/
def DefineReq.ok (r : DefineReq) : Bool :=
  decide (1 ≤ r.first ∧ r.first ≤ 240 ∧ r.count ≤ 240 ∧ r.first + r.count ≤ 241) &&
    match r.geometry with
    | .inl g => decide (1 ≤ g.link ∧ g.link ≤ 4 ∧ 1 ≤ g.slot ∧ g.slot ≤ 8 ∧
        (g.third = 4 ∨ g.third = 8 ∨ g.third = 12 ∨ g.third = 16))
    | .inr _ => true

/-- The ranges of two sections, each with count above 0, overlap (R38, step 1). -/
def overlapping (a b : Sect) : Bool :=
  decide (0 < a.count ∧ 0 < b.count ∧ a.first < b.first + b.count ∧ b.first < a.first + a.count)

/-- The other section the reply names where the new range overlaps one (R38, step 1): the lowest letter where it
overlaps several (DESIGN CHOICE, log entry 34). -/
def State.overlapOf (s : State) (i : Fin 8) (x : Sect) : Option (Fin 8) :=
  (List.finRange 8).find? fun j => decide (j ≠ i) && overlapping x (s.sect j)

/-- The last slot a DIRECT definition uses is above 8 (R38, step 2). -/
def Sect.pastSlot8 (x : Sect) : Bool :=
  decide (x.mode = .DIRECT ∧ 0 < x.count ∧ 8 < x.firstSlot + (x.count - 1) / x.stride)

/-- The affected compartments: of the present range and of the new one, ascending (R38, step 3). -/
def affected (old new : Sect) : List Nat := compNos.filter fun n => old.coversNo n || new.coversNo n

/-- One affected compartment of an accepted SECTION_DEFINE (R39). -/
def State.redraw (s : State) (i : Fin 8) (new : Sect) (n : Nat) : State :=
  (s.updComp n fun c =>
    if new.coversNo n then { c with sect := some i, cls := new.cls } else { c with sect := none }).setMapEntry
    n none

/-- The changes of an accepted SECTION_DEFINE (R39). -/
def State.defineSect (s : State) (i : Fin 8) (new : Sect) : State :=
  (affected (s.sect i) new).foldl (fun s n => s.redraw i new n) (s.updSect i fun _ => new)

/-- A state that would stand passes the alias check for some compartments, or the request is refused ALIAS
with the first colliding compartment and the one it collides with (R42). -/
def State.orAlias (s s' : State) (ns : List Nat) (ok : Answer) : Answer :=
  match s'.aliasCheck ns with
  | some (n, m) => { state := s, status := .ALIAS_FOUND, body := .collides n m }
  | none => ok

/-- SECTION_DEFINE at the Section Resolver (R37, R38). -/
def State.define (s : State) (r : DefineReq) : Answer :=
  s.onSect r.sect fun i =>
    if r.ok = false then s.refuse .BAD_REQUEST
    else
      let new := r.apply (s.sect i)
      match s.overlapOf i new with
      | some j => { state := s, status := .WRONG_STATE, body := .overlaps j }
      | none =>
        if new.pastSlot8 then s.refuse .BAD_REQUEST
        else
          let l := affected (s.sect i) new
          if l.any s.hasOp then s.refuse .BUSY
          else if l.any (fun n => !(s.comp n).state.unused) then s.refuse .WRONG_STATE
          else
            let s1 := s.defineSect i new
            let ok : Answer := { state := s1, status := .OK, body := .empty }
            if new.enabled = true ∧ new.mode = .DIRECT then s.orAlias s1 new.covers ok else ok

/-- SECTION_DEFINE (R38). -/
def execSectionDefine (h : ReqHead) (p : List Byte) (s : State) : Host.Outcome State Fault Refusal :=
  .next (s.takeRequest h 32 p .defineReq fun r s => s.define r)

/-! ### SECTION_ENABLE (R40) -/

/-- SECTION_ENABLE at the Section Resolver (R37, R40). -/
def State.enable (s : State) (k : Nat) (on : Bool) : Answer :=
  s.onSect k fun i =>
    let s1 := s.updSect i fun x => { x with enabled := on }
    let ok : Answer := { state := s1, status := .OK, body := .empty }
    if on then s.orAlias s1 (s.sect i).covers ok
    else if (s.sect i).covers.any s.hasOp then s.refuse .BUSY
    else ok

/-- SECTION_ENABLE (R40).  Its "on or off" is a flag byte, 1 for on (DEDUCED, log entry 12). -/
def execSectionEnable (h : ReqHead) (p : List Byte) (s : State) : Host.Outcome State Fault Refusal :=
  .next (s.takeRequest h 33 p (Codec.letter.pair Codec.flag) fun x s => s.enable x.1 x.2)

/-! ### MAP_WRITE (R41) -/

/-- The address of MAP_WRITE is in the ranges of R31. -/
def AddrReq.mapOk (a : AddrReq) : Bool :=
  decide (1 ≤ a.link ∧ a.link ≤ 4 ∧ 1 ≤ a.slot ∧ a.slot ≤ 8 ∧ a.third ≤ 15)

/-- The entry MAP_WRITE stores for a compartment, with the check byte of R31. -/
def AddrReq.entry (a : AddrReq) (n : Nat) : MapEntry :=
  { link := a.link, slot := a.slot, channel := a.third, check := checkByte n a.link a.slot a.third }

/-- The compartment lies in a MAPPED section (R41, step 1). -/
def State.mapped (s : State) (n : Nat) : Bool :=
  match (s.comp n).sect with
  | some i => decide ((s.sect i).mode = .MAPPED)
  | none => false

/-- The entry MAP_WRITE leaves: an address or none (R41). -/
def newEntry (n : Nat) : AddrReq ⊕ Unit → Option MapEntry
  | .inl a => some (a.entry n)
  | .inr _ => none

/-- Step 4 of R37 for MAP_WRITE. -/
def mapFieldsOk : AddrReq ⊕ Unit → Bool
  | .inl a => a.mapOk
  | .inr _ => true

/-- MAP_WRITE at the Section Resolver (R37, R41). -/
def State.mapWrite (s : State) (n : Nat) (a : AddrReq ⊕ Unit) : Answer :=
  s.onComp n fun s =>
    if mapFieldsOk a = false then s.refuse .BAD_REQUEST
    else if s.mapped n = false then s.refuse .WRONG_STATE
    else if s.hasOp n then s.refuse .BUSY
    else
      let e := newEntry n a
      let s1 := s.setMapEntry n e
      let ok : Answer := { state := s1, status := .OK, body := .mapEntry e }
      if e.isSome ∧ s.enabledRec (s.comp n) = true then s.orAlias s1 [n] ok else ok

/-- MAP_WRITE (R41). -/
def execMapWrite (h : ReqHead) (p : List Byte) (s : State) : Host.Outcome State Fault Refusal :=
  .next (s.takeRequest h 34 p .mapReq fun x s => s.mapWrite x.1 x.2)

end Sys2Proof.Machine
end

