-- ==== Sys2Proof/Machine/Dispatch.lean ====
section
/-! DEFINITION. The meaning of every command: one arm for each constructor of Instr, each one direct call. -/

namespace Sys2Proof.Machine

open Sys2Proof

def exec (i : Instr) (s : State) : Host.Outcome State Fault Refusal :=
  match i with
  | .status h p => Sys2Proof.Machine.execStatus h p s
  | .fetchEvents h p => Sys2Proof.Machine.execFetchEvents h p s
  | .eventMask h p => Sys2Proof.Machine.execEventMask h p s
  | .timeSet h p => Sys2Proof.Machine.execTimeSet h p s
  | .clockAdvance h p => Sys2Proof.Machine.execClockAdvance h p s
  | .mode h p => Sys2Proof.Machine.execMode h p s
  | .quote h p => Sys2Proof.Machine.execQuote h p s
  | .readCompartment h p => Sys2Proof.Machine.execReadCompartment h p s
  | .findParcel h p => Sys2Proof.Machine.execFindParcel h p s
  | .holdMap h p => Sys2Proof.Machine.execHoldMap h p s
  | .listBoards h p => Sys2Proof.Machine.execListBoards h p s
  | .readFaultCapture h p => Sys2Proof.Machine.execReadFaultCapture h p s
  | .restart h p => Sys2Proof.Machine.execRestart h p s
  | .collect h p => Sys2Proof.Machine.execCollect h p s
  | .pay h p => Sys2Proof.Machine.execPay h p s
  | .returnDrop h p => Sys2Proof.Machine.execReturnDrop h p s
  | .reserve h p => Sys2Proof.Machine.execReserve h p s
  | .reservationRelease h p => Sys2Proof.Machine.execReservationRelease h p s
  | .deposit h p => Sys2Proof.Machine.execDeposit h p s
  | .tag h p => Sys2Proof.Machine.execTag h p s
  | .untag h p => Sys2Proof.Machine.execUntag h p s
  | .sweep h p => Sys2Proof.Machine.execSweep h p s
  | .sweepCancel h p => Sys2Proof.Machine.execSweepCancel h p s
  | .serviceOpen h p => Sys2Proof.Machine.execServiceOpen h p s
  | .serviceRemove h p => Sys2Proof.Machine.execServiceRemove h p s
  | .clearFault h p => Sys2Proof.Machine.execClearFault h p s
  | .hold h p => Sys2Proof.Machine.execHold h p s
  | .holdRelease h p => Sys2Proof.Machine.execHoldRelease h p s
  | .setOutOfService h p => Sys2Proof.Machine.execSetOutOfService h p s
  | .reinstate h p => Sys2Proof.Machine.execReinstate h p s
  | .setClass h p => Sys2Proof.Machine.execSetClass h p s
  | .sectionDefine h p => Sys2Proof.Machine.execSectionDefine h p s
  | .sectionEnable h p => Sys2Proof.Machine.execSectionEnable h p s
  | .mapWrite h p => Sys2Proof.Machine.execMapWrite h p s
  | .boardAccept h p => Sys2Proof.Machine.execBoardAccept h p s
  | .linkReset h p => Sys2Proof.Machine.execLinkReset h p s
  | .tariffLoad h p => Sys2Proof.Machine.execTariffLoad h p s
  | .tariffSchedule h p => Sys2Proof.Machine.execTariffSchedule h p s
  | .config h p => Sys2Proof.Machine.execConfig h p s
  | .clearFaultCapture h p => Sys2Proof.Machine.execClearFaultCapture h p s
  | .factoryClear h p => Sys2Proof.Machine.execFactoryClear h p s
  | .unknownRequestKind h kind p => Sys2Proof.Machine.execUnknownRequestKind h kind p s
  | .kioskFrameComplete len body check => Sys2Proof.Machine.execKioskFrameComplete len body check s
  | .frameGapTimeout next => Sys2Proof.Machine.execFrameGapTimeout next s
  | .mainsGoodChange level => Sys2Proof.Machine.execMainsGoodChange level s
  | .batteryLowChange level => Sys2Proof.Machine.execBatteryLowChange level s
  | .powerOn r => Sys2Proof.Machine.execPowerOn r s
  | .brownout r => Sys2Proof.Machine.execBrownout r s
  | .hostRestart r => Sys2Proof.Machine.execHostRestart r s
  | .minuteTick => Sys2Proof.Machine.execMinuteTick s
  | .linkExchangeStart link => Sys2Proof.Machine.execLinkExchangeStart link s
  | .rollCallBid link serial => Sys2Proof.Machine.execRollCallBid link serial s
  | .claim link serial slot chan cur => Sys2Proof.Machine.execClaim link serial slot chan cur s
  | .boardStatus link slot readings strikeDone => Sys2Proof.Machine.execBoardStatus link slot readings strikeDone s
  | .strikeAck link => Sys2Proof.Machine.execStrikeAck link s
  | .boardBusy link => Sys2Proof.Machine.execBoardBusy link s
  | .noChannel link => Sys2Proof.Machine.execNoChannel link s
  | .boardResponseTimeout link => Sys2Proof.Machine.execBoardResponseTimeout link s
  | .rollCallTimerExpiry link => Sys2Proof.Machine.execRollCallTimerExpiry link s
  | .strikeDoneGraceExpiry link => Sys2Proof.Machine.execStrikeDoneGraceExpiry link s
  | .strikeDurationExpiry link => Sys2Proof.Machine.execStrikeDurationExpiry link s
  | .openWaitExpiry job => Sys2Proof.Machine.execOpenWaitExpiry job s
  | .ajarLimitExpiry job => Sys2Proof.Machine.execAjarLimitExpiry job s
  | .confirmLimitExpiry job => Sys2Proof.Machine.execConfirmLimitExpiry job s
  | .busExchangeStart => Sys2Proof.Machine.execBusExchangeStart s
  | .chargeTaken reader => Sys2Proof.Machine.execChargeTaken reader s
  | .readerBusy reader => Sys2Proof.Machine.execReaderBusy reader s
  | .nothingYet reader => Sys2Proof.Machine.execNothingYet reader s
  | .result reader ref r approval => Sys2Proof.Machine.execResult reader ref r approval s
  | .abandoned reader => Sys2Proof.Machine.execAbandoned reader s
  | .reversed reader => Sys2Proof.Machine.execReversed reader s
  | .reverseFailed reader => Sys2Proof.Machine.execReverseFailed reader s
  | .readerResponseTimeout reader => Sys2Proof.Machine.execReaderResponseTimeout reader s
  | .readerPollTimerExpiry reader => Sys2Proof.Machine.execReaderPollTimerExpiry reader s
  | .paymentTimeout reader => Sys2Proof.Machine.execPaymentTimeout reader s
  | .auditLimitExpiry => Sys2Proof.Machine.execAuditLimitExpiry s
  | .frameLengthDiscard len => Sys2Proof.Machine.execFrameLengthDiscard len s

end Sys2Proof.Machine
end

