-- ==== Sys2Proof/Machine/Step.lean ====
section
/-! DEFINITION. The step of the part: the command at the front of the queue is taken; on an empty queue the
part idles (log entry 3). -/

namespace Sys2Proof.Machine

open Sys2Proof

/-- The command at the front of the queue runs on the state with the queue's rest; an empty queue changes
nothing. -/
def step (s : State) : Host.Outcome State Fault Refusal :=
  match s.pending with
  | [] => .next s
  | c :: cs => exec c { s with pending := cs }

/-- The command that a word spells is put at the front of the queue; no word spells one (R184: the table gives
no row bits), and then the state is unchanged. -/
def State.withFetchWord (s : State) (nbits w : Nat) : State :=
  match decodeTableWord nbits w with
  | some c => { s with pending := c :: s.pending }
  | none => s

end Sys2Proof.Machine
end

