-- ==== Sys2Proof/Safety.lean ====
section
/-! DEFINITION. What the claims speak of: the part's standing properties, each with the rule that gives it, and
the words the statements share. -/

namespace Sys2Proof.Machine

open Sys2Proof

/-! ### Standing properties -/

/-- The event queue and its flags (R187, R191, R192): at most 64 records and 3 frames, a pending flag exactly
for each class queued, ATTENTION exactly for the overflow flag or an enabled pending class. -/
def Kli.ok (k : Kli) : Prop :=
  k.queue.length ≤ 64 ∧ k.rx.length ≤ 3 ∧
  (∀ c, k.pendingFl.get c = true ↔ ∃ e ∈ k.queue, e.kind.cls = c) ∧
  (k.attention = true ↔ k.overflow = true ∨ ∃ c, k.mask.get c = true ∧ k.pendingFl.get c = true)

/-- The mode follows the input levels and the base mode (R197), and the capacity the mode (R73). -/
abbrev State.supplyOk (s : State) : Prop :=
  s.scu.mode = modeOf s.scu.mainsGood s.scu.batteryLow s.scu.base ∧
  s.arb.capacity = capacityOf s.scu.straps s.scu.mode

/-- The message is one that R150 lets follow a RESULT_ACK. -/
def BusMsg.isOwed (m : BusMsg) : Bool := m.isCharge || m.isAbandon || m.isReverse

/-- The outgoing list of a reader holds at most a RESULT_ACK followed by one of CHARGE, ABANDON and REVERSE (R150). -/
def Reader.listOk (x : Reader) : Bool :=
  match x.outgoing with
  | [] => true
  | [m] => m.isAck || m.isOwed
  | [a, m] => a.isAck && m.isOwed
  | _ => false

/-- Lists and counters within the sizes the manual gives them: the operation table and its job counter (R68, R69),
the operations of each station and the SWEEP operations (R70), the places of the link queues (R71), the retired-code list (R107), the reversal list and the reference counter (R152, R161), the tag lists and the pending
lists of the runs (R173), the further-fault count (R65), the wrong-code lists (R110), the bank minute and the persisted
minute (R199), the hatch-cycle counts (R3), the outgoing lists of the readers (R150), the unanswered counts of readers
and slots (R54, R150) and the rounds of a pass (R49). -/
def State.bounded (s : State) : Prop :=
  (s.hce.ops.length ≤ 48 ∧ s.hce.lastJob ≤ 65535 ∧ s.alloc.retired.length ≤ 128 ∧ s.pbc.reversals.length ≤ 8 ∧
    s.pbc.refCounter ≤ 65535 ∧ s.capture.further ≤ 255 ∧ s.scu.minute ≤ 4294967295 ∧ s.scu.persisted ≤ 4294967295) ∧
  (∀ k, (s.side k).tags.length ≤ 64 ∧ ∀ r, (s.side k).run = some r → r.pending.length ≤ 64) ∧
  (∀ st, (s.gate st).wrong.length ≤ 5) ∧ (∀ n, (s.comp n).hatchCount ≤ 4294967295) ∧
  (∀ r, (s.reader r).unanswered ≤ 2) ∧ (∀ l k, (s.slot l k).unanswered ≤ 2) ∧
  (∀ l p, (s.link l).enumPass = some p → p.rounds ≤ 15) ∧
  (∀ st, s.stationOps st ≤ stationLimit st) ∧ s.sweepOps ≤ 24 ∧
  (∀ l, s.prioTaken l ≤ 6 ∧ (s.link l).bulk.length ≤ 24) ∧ (∀ r, (s.reader r).listOk = true)

/-- A compartment that is FREE, RESERVED or OUT_OF_SERVICE has no parcel record (R1). -/
def State.parcelsPlaced (s : State) : Prop :=
  ∀ n, (s.comp n).state = .FREE ∨ (s.comp n).state = .RESERVED ∨ (s.comp n).state = .OUT_OF_SERVICE →
    (s.comp n).parcel = none

/-- Parcel records that name a page (R132). -/
def State.namers (s : State) (i : Fin 4) : List Nat :=
  compNos.filter fun n => (s.comp n).parcel.any fun p => decide (p.page = some i)

/-- The reference count of every tariff page is the number of parcel records naming it (R132). -/
def State.refsExact (s : State) : Prop := ∀ i, s.pageRefs i = (s.namers i).length

/-- No two parcel records hold one code, no retired entry repeats a code, and none is live (R106, R107). -/
def State.codesDistinct (s : State) : Prop :=
  s.liveCodes.Nodup ∧ (s.alloc.retired.map (·.code)).Nodup ∧ ∀ e ∈ s.alloc.retired, e.code ∉ s.liveCodes

/-- A compartment has at most one operation (R11). -/
def State.oneOpEach (s : State) : Prop := (s.hce.ops.map (·.comp)).Nodup

/-- A PRESENT slot holds its commissioned serial, an OFFLINE slot has one, a NEW slot holds a serial (R48). -/
abbrev Slot.ok (x : Slot) : Prop :=
  (x.state = .PRESENT → x.serial.isSome ∧ x.serial = x.commissioned) ∧
  (x.state = .OFFLINE → x.commissioned.isSome) ∧ (x.state = .NEW → x.serial.isSome)

/-- Every slot of every link meets R48. -/
def State.slotsOk (s : State) : Prop := ∀ l k, (s.slot l k).ok

/-- The section field of every compartment record agrees with the ranges of the sections (R29). -/
def State.sectionsAgree (s : State) : Prop :=
  ∀ n, 1 ≤ n → n ≤ 240 → ∀ i, (s.comp n).sect = some i ↔ (s.sect i).coversNo n = true

/-- No two compartments of enabled sections are wired at one address (R42). -/
def State.aliasFree (s : State) : Prop :=
  ∀ n m a, 1 ≤ n → n ≤ 240 → 1 ≤ m → m ≤ 240 → s.enabledRec (s.comp n) = true →
    s.enabledRec (s.comp m) = true → s.namedAddr n = some a → s.namedAddr m = some a → n = m

/-! ### Words of the statements -/

/-- The station may send the kind, with SERVICE_KEY on where the station is 7 (R186, steps 1 to 4). -/
abbrev Asks (h : ReqHead) (kind : Nat) : Prop :=
  stationMay kind h.station.toNat = true ∧ (h.station.toNat = 7 → h.keyOn = true)

/-- The station may send the request, and the request is taken in its turn: its frame heads the receive buffer, or
no frame waits there (R187, log entry 8). -/
abbrev State.asks (s : State) (h : ReqHead) (kind : Nat) (p : List Byte) : Prop :=
  Asks h kind ∧ s.kli.turnOf (requestFrame h (byteOf kind) p) = true

/-- The payload holds exactly the fields of its kind (R184, R186, step 5); the layouts are those of log entries 11
and 12. -/
def parses (kind : Nat) (p : List Byte) : Bool :=
  match kind with
  | 3 => (Codec.mask.parse p).isSome
  | 4 | 5 | 18 => (Codec.nat16.parse p).isSome
  | 6 => ((Codec.below 5).parse p).isSome
  | 7 => (Codec.quoteReq.parse p).isSome
  | 9 => (Codec.findReq.parse p).isSome
  | 14 | 15 => (Codec.code.parse p).isSome
  | 16 => (Codec.dropReq.parse p).isSome
  | 17 => (Codec.reserveReq.parse p).isSome
  | 19 => (Codec.depositReq.parse p).isSome
  | 20 => (Codec.tagReq.parse p).isSome
  | 27 | 28 => (Codec.target.parse p).isSome
  | 31 => ((Codec.nat8.pair Codec.sizeClass).parse p).isSome
  | 32 => (Codec.defineReq.parse p).isSome
  | 33 => ((Codec.letter.pair Codec.flag).parse p).isSome
  | 34 => (Codec.mapReq.parse p).isSome
  | 35 => ((Codec.nat8.pair Codec.nat8).parse p).isSome
  | 37 => (Codec.loadReq.parse p).isSome
  | 38 => ((Codec.nat8.pair Codec.nat32).parse p).isSome
  | 39 => (Codec.configReq.parse p).isSome
  | 1 | 11 | 12 | 13 | 22 | 23 | 40 | 41 => p.length == 1
  | _ => (Codec.nat8.parse p).isSome

/-- The reply frame of a request that is not refused BAD_REQUEST (R186). -/
def replyTo (h : ReqHead) (kind : Nat) (st : Status) (b : ReplyBody) : Reply :=
  { station := h.station, kind := byteOf (kind + 128), tag := h.tag, status := st, body := b }

/-- The reply of a state is this one. -/
def State.answers (t : State) (h : ReqHead) (kind : Nat) (st : Status) (b : ReplyBody) : Prop :=
  t.kli.reply = some (replyTo h kind st b)

/-- The Kiosk Link Interface with the frame of a request out of the receive buffer and SERVICE_KEY read (R186,
R187). -/
def Kli.took (k : Kli) (h : ReqHead) : Kli := { k with keyOn := h.keyOn, rx := k.rx.tail }

/-- The state with the frame of a request taken and SERVICE_KEY read, all else as it was. -/
def State.took (s : State) (h : ReqHead) : State := { s with kli := s.kli.took h }

/-- The Kiosk Link Interface after a request that posts no event: the frame taken, SERVICE_KEY read, the reply
formed, all else as it was. -/
def Kli.answered (k : Kli) (h : ReqHead) (kind : Nat) (st : Status) (b : ReplyBody) : Kli :=
  { k.took h with reply := some (replyTo h kind st b) }

/-- The Kiosk Link Interface after a request refused BAD_REQUEST: the kind goes back as received (R186). -/
def Kli.rejected (k : Kli) (h : ReqHead) (kind : Byte) : Kli :=
  { k.took h with reply := some { station := h.station, kind := kind, tag := h.tag, status := .BAD_REQUEST,
                                  body := .empty } }

/-- The state after the arbitration pass (R74) of `v`, with this reply formed. -/
def State.passedWith (t v : State) (h : ReqHead) (kind : Nat) (st : Status) (b : ReplyBody) : Prop :=
  t = v.pass.updKli fun k => { k with reply := some (replyTo h kind st b) }

/-- Outside the start-up phases and not in DORMANT. -/
abbrev State.serves (s : State) : Prop := s.scu.phase = none ∧ s.scu.mode ≠ .DORMANT

/-- Every block other than the compartment table, the Kiosk Link Interface and the queue is as it was. -/
def State.onlyComps (s t : State) : Prop := t = { s with comps := t.comps, kli := t.kli }

/-- Every compartment record but that of `n` is as it was. -/
def State.otherComps (s t : State) (n : Nat) : Prop := ∀ m, m ≠ n → t.comp m = s.comp m

/-- A number of a compartment, 1 to 240 (R1). -/
abbrev isComp (n : Nat) : Prop := 1 ≤ n ∧ n ≤ 240

/-- R70 and the queue check of R69 for an operation that is not a SWEEP. -/
abbrev State.hasRoom (s : State) (st l : Nat) : Prop :=
  s.hce.ops.length < 48 ∧ s.stationOps st < stationLimit st ∧ s.prioTaken l < 6

/-- A new QUEUED operation at the end of the table, its job at the tail of the link's priority queue (R69,
R71), all else as it was. -/
def State.enqueued (s : State) (pu : Purpose) (st n : Nat) (a : Addr) (u : Nat) : State :=
  { s with
    hce := { ops := s.hce.ops ++ [newOp s.nextJob pu st n a u .QUEUED], lastJob := s.nextJob }
    links := tput s.links a.link { s.link a.link with prio := (s.link a.link).prio ++ [s.nextJob] } }

/-- The state with one link record written. -/
def State.withLink (s : State) (l : Nat) (x : Link) : State := { s with links := tput s.links l x }

/-- The state with one compartment record written. -/
def State.withComp (s : State) (n : Nat) (c : Compartment) : State := { s with comps := tput s.comps n c }

/-- The state with one reader written. -/
def State.withReader (s : State) (r : Nat) (x : Reader) : State :=
  { s with pbc := { s.pbc with readers := tput s.pbc.readers r x } }

/-- The capture record after a report (R65). -/
def Capture.after (c : Capture) (f : CapturedFault) : Capture :=
  match c.held with
  | none => { c with held := some f }
  | some _ => { c with further := min (c.further + 1) 255 }

/-- Units of the strike in flight of a link, 0 where there is none. -/
def Link.strikeUnits (x : Link) : Nat :=
  match x.strike with
  | some k => k.units
  | none => 0

/-- The granted units are those of the strikes in flight (R73, R75); every queued job is that of one operation
on the link of its queue (R71), and the table and the runs hold no more jobs than they may. -/
def State.grantsExact (s : State) : Prop :=
  s.arb.granted = (s.link 1).strikeUnits + (s.link 2).strikeUnits + (s.link 3).strikeUnits + (s.link 4).strikeUnits ∧
  (s.hce.ops.map (·.job)).Nodup ∧ s.hce.ops.length ≤ 48 ∧
  (∀ o ∈ s.hce.ops, 1 ≤ o.link ∧ o.link ≤ 4) ∧
  ∀ l j, j ∈ (s.link l).prio ++ (s.link l).bulk → ∃ o ∈ s.hce.ops, o.job = j ∧ o.link = l

/-! ### Heads, grants and ends -/

/-- The link offers the operation to the arbiter (R72): no strike is in flight, and it is the head of the priority
queue or, with that queue empty in OPEN and NIGHT, of the bulk queue. -/
def State.offers (s : State) (l : Nat) (o : Op) : Prop :=
  (s.link l).strike = none ∧ s.opByJob o.job = some o ∧
  ((s.link l).prio.head? = some o.job ∨
    ((s.link l).prio = [] ∧ (s.scu.mode = .OPEN ∨ s.scu.mode = .NIGHT) ∧ (s.link l).bulk.head? = some o.job))

/-- The link offers nothing (R72): a strike is in flight, or the priority queue is empty and the bulk queue is empty
or not offered in the mode. -/
def State.offersNone (s : State) (l : Nat) : Prop :=
  (s.link l).strike.isSome = true ∨
  ((s.link l).prio = [] ∧ ((s.link l).bulk = [] ∨ s.scu.mode = .BATTERY ∨ s.scu.mode = .DORMANT))

/-- The state with the turn pointer past link `l` (R74). -/
def State.turnedPast (s : State) (l : Nat) : State :=
  { s with arb := { s.arb with turn := if s.numLinks ≤ l then 1 else l + 1 } }

/-- The state after the grant of an operation (R75): off its queue, STRIKING, a strike in flight with no failed
attempt, its units granted, the cycle purpose set. -/
def State.granted (s : State) (o : Op) : State :=
  { s with
    links := tput s.links o.link { s.link o.link with
      prio := (s.link o.link).prio.filter (· != o.job)
      bulk := (s.link o.link).bulk.filter (· != o.job)
      strike := some { job := o.job, comp := o.comp, slot := o.slot, channel := o.channel, units := o.units,
                       failed := 0, duration := 0, ackMinute := none, durationRun := false, slotLost := false,
                       opEnded := false, late := false, hatchSeen := none } }
    hce := { s.hce with ops := s.hce.ops.map fun y => if y.job = o.job then { y with stage := .STRIKING } else y }
    arb := { s.arb with granted := s.arb.granted + o.units }
    comps := tput s.comps o.comp { s.comp o.comp with purpose := some o.purpose } }

/-- The operations that meet a test have left the table, each with its outcome (R85): the cycle purpose cleared,
AUDIT_REQUIRED added at UNCONFIRMED, CYCLE_DONE posted.  The others stand. -/
def State.endsThose (s v : State) (test : Op → Bool) (out : Op → CycleOutcome) : Prop :=
  v.hce.ops = s.hce.ops.filter (fun o => !test o) ∧
  ∀ o ∈ s.hce.ops, test o = true →
    (∃ e ∈ v.kli.queue, e.kind = .CYCLE_DONE ∧ e.comp = some o.comp ∧ e.job = some o.job ∧ e.outcome = some (out o)) ∧
    (isComp o.comp → (v.comp o.comp).purpose = none ∧
      (out o = .UNCONFIRMED → (v.comp o.comp).causes.auditRequired = true))

/-- What a new bank minute `m` hands on (R199): expired reservations freed (R96), old codes dropped (R108), lockouts
removed (R114), a due switch made (R134) and, where a quarter hour has come, overdue parcels marked (R145, R146).  With
room in the event queue each expiry, switch and overdue parcel has posted its event at the new minute. -/
def State.handedOn (s t : State) (m : Nat) (quarter : Prop) [Decidable quarter] : Prop :=
  t = { s with comps := t.comps, alloc := t.alloc, gates := t.gates, tariff := t.tariff, scu := t.scu, kli := t.kli } ∧
  (∀ n r, (s.comp n).state = .RESERVED → (s.comp n).reservation = some r →
    t.comp n = if r.expiry ≤ m then { s.comp n with state := .FREE, reservation := none } else s.comp n) ∧
  (∀ n x i pg, (s.comp n).state = .LOADED → (s.comp n).parcel = some x → x.kind = .DELIVERY →
    x.page = some i → s.page i = some pg → x.overdue = false → x.depositMinute ≤ m →
    t.comp n = { s.comp n with
      parcel := some { x with overdue := decide (quarter ∧ pg.overdueMin ≤ m - x.depositMinute) } }) ∧
  (∀ n, (s.comp n).state ≠ .RESERVED → (s.comp n).state ≠ .LOADED → t.comp n = s.comp n) ∧
  t.alloc = { s.alloc with retired := s.alloc.retired.filter fun e => decide (m < e.minute + 2880) } ∧
  (∀ st, (s.gate st).lockout = none → t.gate st = s.gate st) ∧
  (∀ st e, (s.gate st).lockout = some e →
    t.gate st = if e ≤ m then { s.gate st with lockout := none } else s.gate st) ∧
  t.tariff = (match s.tariff.scheduled with
    | some w => if w.minute ≤ m then { s.tariff with active := w.page, scheduled := none } else s.tariff
    | none => s.tariff) ∧
  (s.kli.queue.length + compNos.countP (fun n => decide ((s.comp n).state = .RESERVED ∨ (s.comp n).state = .LOADED)) +
      2 ≤ 64 →
    s.kli.queue <+: t.kli.queue ∧
    (∀ n r, isComp n → (s.comp n).state = .RESERVED → (s.comp n).reservation = some r → r.expiry ≤ m →
      { kind := .RESERVATION_EXPIRED, minute := m, comp := some n, carrier := some r.carrier, resRef := some r.ref } ∈
        t.kli.queue) ∧
    (∀ w, s.tariff.scheduled = some w → w.minute ≤ m →
      { kind := .TARIFF_SWITCHED, minute := m, page := some w.page, prevPage := some s.tariff.active } ∈ t.kli.queue) ∧
    (∀ n x i pg, isComp n → (s.comp n).state = .LOADED → (s.comp n).parcel = some x → x.kind = .DELIVERY →
      x.page = some i → s.page i = some pg → x.overdue = false → x.depositMinute ≤ m →
      quarter ∧ pg.overdueMin ≤ m - x.depositMinute →
      { kind := .PARCEL_OVERDUE, minute := m, comp := some n, carrier := some x.carrier, text := some x.text,
        deposit := some x.depositMinute, page := some i } ∈ t.kli.queue))

/-- A top-up of a courier station's run has taken `gone` from the head of its pending list, made the operations `made`
and left `rest` pending (R180).  It makes a SWEEP operation of each compartment that passes the test of R174 under the
run's station and resolves, and drops any other, its tag owner cleared, counted skipped; it stops where the creation
finds no room (R70). -/
def State.toppedUp (s u : State) (k : Courier) (r : Run) (gone rest : List TagEntry) (made : List Op) : Prop :=
  let may := fun (e : TagEntry) =>
    s.eligible e.comp e.filter e.carrier && decide ((s.comp e.comp).tagOwner = some k)
  let fit := fun (e : TagEntry) => may e && (match s.resolution e.comp with | .ok _ _ => true | _ => false)
  r.pending = gone ++ rest ∧ made.length ≤ gone.length ∧
  u = { s with comps := u.comps, links := u.links, capture := u.capture, hce := u.hce, swu := u.swu, kli := u.kli } ∧
  u.side k = { s.side k with
    run := some { r with pending := rest, skipped := r.skipped + (gone.length - made.length) } } ∧
  u.side k.other = s.side k.other ∧ u.hce.ops = s.hce.ops ++ made ∧
  (∀ o ∈ made, o.purpose = .SWEEP ∧ o.station = k.station ∧ o.stage = .QUEUED ∧
    s.resolution o.comp = .ok ⟨o.link, o.slot, o.channel⟩ o.units ∧ ∃ e ∈ gone, e.comp = o.comp ∧ fit e = true) ∧
  (∀ l, u.link l = { s.link l with
    bulk := (s.link l).bulk ++ (made.filter fun o => o.link == l).map (·.job) }) ∧
  (∀ n, (∀ e ∈ gone, e.comp ≠ n) → u.comp n = s.comp n) ∧
  ((r.pending.map (·.comp)).Nodup → made.map (·.comp) = (gone.filter fit).map (·.comp) ∧
    ∀ e ∈ gone, (u.comp e.comp).tagOwner = if fit e then some k else none) ∧
  (∀ e es, rest = e :: es → ∃ a w, s.resolution e.comp = .ok a w ∧
    (48 ≤ u.hce.ops.length ∨ 24 ≤ u.sweepOps ∨ 24 ≤ (u.link a.link).bulk.length))

/-- What the RECONCILE phase leaves (R166).  A fitted reader's poll timer has expired and its record, if any, is
ABANDON_DUE with ABANDON alone to send; the records and reversal entries of readers no longer fitted are gone, with
PAYMENT_RESULT UNSETTLED or REVERSAL_FAILED posted and the reference taken from the parcel that holds it. -/
def State.reconciled (s t : State) : Prop :=
  let gone := fun (r : Nat) (c : Charge) => s.readerFitted r = false ∧ (s.reader r).charge = some c
  t = { s with
    comps := t.comps, pbc := { s.pbc with readers := t.pbc.readers, reversals := t.pbc.reversals }, kli := t.kli } ∧
  (∀ r, s.readerFitted r = true → t.reader r = { s.reader r with
    pollTimer := .expired
    charge := (s.reader r).charge.map fun c => { c with phase := .ABANDON_DUE }
    outgoing := match (s.reader r).charge with
      | some c => [.ABANDON c.ref]
      | none => (s.reader r).outgoing }) ∧
  (∀ r, s.readerFitted r = false → (t.reader r).charge = none) ∧
  ((s.pbc.reversals.map (·.ref)).Nodup →
    t.pbc.reversals = s.pbc.reversals.filter fun v => s.readerFitted v.reader) ∧
  (∀ n, (∀ r c x, gone r c → c.comp = n → (s.comp n).parcel = some x → x.chargeRef ≠ some c.ref) →
    t.comp n = s.comp n) ∧
  (∀ r c x, gone r c → isComp c.comp → (s.comp c.comp).parcel = some x → x.chargeRef = some c.ref →
    t.comp c.comp = { s.comp c.comp with parcel := some { x with chargeRef := none, chargeReader := none } }) ∧
  (s.kli.queue.length + 4 + s.pbc.reversals.length ≤ 64 →
    (∀ r c, gone r c → ∃ e ∈ t.kli.queue, e.kind = .PAYMENT_RESULT ∧ e.comp = some c.comp ∧
      e.chargeRef = some c.ref ∧ e.amount = some c.amount ∧ ∃ f, e.flags = some f ∧ f.unsettled = true) ∧
    (∀ v ∈ s.pbc.reversals, s.readerFitted v.reader = false → ∃ e ∈ t.kli.queue, e.kind = .REVERSAL_FAILED ∧
      e.comp = some v.comp ∧ e.chargeRef = some v.ref ∧ e.amount = some v.amount))

/-- The AUDIT phase has begun (R203): every compartment in a section that resolves waits to be read, every other in a
section is unread from the start, a mismatched entry adding MAP_CHECK (R34).  With none to be read the phases end at
once. -/
def State.auditBegun (s t : State) : Prop :=
  let found := fun (n : Nat) => match s.resolution n with | .ok _ _ => true | _ => false
  let waits := compNos.filter fun n => (s.comp n).sect.isSome && found n
  let unread := compNos.filter fun n => (s.comp n).sect.isSome && !found n
  (waits ≠ [] →
    t.scu = { s.scu with phase := some .AUDIT, auditTimer := true, auditWait := waits, auditUnread := unread } ∧
    (∀ n, isComp n → t.comp n = match s.resolution n with
      | .mapFault _ => { s.comp n with causes := (s.comp n).causes.add .MAP_CHECK }
      | _ => s.comp n) ∧
    t = { s with scu := t.scu, comps := t.comps, capture := t.capture, kli := t.kli }) ∧
  (waits = [] →
    t.scu = { s.scu with phase := none, auditTimer := false, auditWait := [], auditUnread := [] } ∧
    ∀ n ∈ unread, (t.comp n).purpose = none ∧
      (s.enabledRec (s.comp n) = true → (t.comp n).causes.auditRequired = true))

/-- The request of a kind of the catalogue (section 10.3). -/
def requestOf (kind : Nat) : Option (ReqHead → List Byte → Instr) :=
  if kind = 0 then none else
  [Instr.status, .fetchEvents, .eventMask, .timeSet, .clockAdvance, .mode, .quote, .readCompartment, .findParcel,
    .holdMap, .listBoards, .readFaultCapture, .restart, .collect, .pay, .returnDrop, .reserve,
    .reservationRelease, .deposit, .tag, .untag, .sweep, .sweepCancel, .serviceOpen, .serviceRemove,
    .clearFault, .hold, .holdRelease, .setOutOfService, .reinstate, .setClass, .sectionDefine, .sectionEnable,
    .mapWrite, .boardAccept, .linkReset, .tariffLoad, .tariffSchedule, .config, .clearFaultCapture,
    .factoryClear][kind - 1]?

end Sys2Proof.Machine
end

