-- ==== Sys2Proof/Certificates/Slice0/Obligations.lean ====
section
/-! DEFINITION. The statements for the provers. -/

open Sys2Proof Sys2Proof.Machine

/-! ### The queue and the step -/

/-- A step takes the command at the front of the queue and runs it on the state with the queue's rest; with an
empty queue it changes nothing (log entry 3: the model's choice). -/
def Obligations.StepRunsTheFrontCommand : Prop :=
  (∀ (c : Instr) (cs : List Instr) (s : State), s.pending = c :: cs → step s = exec c { s with pending := cs }) ∧
  (∀ s : State, s.pending = [] → step s = .next s)

/-- Every command ends in a next state and leaves the waiting commands as they were. -/
def Obligations.EveryCommandCompletes : Prop :=
  ∀ (c : Instr) (s : State), ∃ t, exec c s = .next t ∧ t.pending = s.pending

/-! ### Invariants that every step keeps -/

/-- The event queue holds at most 64 records and the receive buffer 3 frames; a class is pending exactly while
a record of it is queued; ATTENTION stands exactly for the overflow flag or an enabled pending class. -/
def Obligations.KioskLinkInvariantKept : Prop :=
  ∀ s t : State, s.kli.ok → step s = .next t → t.kli.ok

/-- The mode follows the input levels and the base mode, and the capacity follows the mode. -/
def Obligations.SupplyInvariantKept : Prop :=
  ∀ s t : State, s.supplyOk → step s = .next t → t.supplyOk

/-- The operation table (48) and its job counter, the retired-code list (128), the reversal list (8) and the reference
counter, the tag lists and the pending lists of the runs (64), the further-fault count (255), the wrong-code lists (5),
the bank minute and the persisted minute, the hatch-cycle counts, the unanswered counts of readers and slots (2) and
the rounds of a pass (15) stay within their sizes.  So do the operations of each station (1, 8 or 4) and the SWEEP
operations (24), the places taken of a priority queue (6) and of a bulk queue (24), and the outgoing list of a reader,
which holds at most a RESULT_ACK followed by one of CHARGE, ABANDON and REVERSE.  A creation takes its entry exactly
where one is free, with a place under the limit of its station and in the queue of its link, and is refused with nothing
changed where not; an approval gives up the place it takes.  The counts of a run have no size; the event queue and the
receive buffer are in KioskLinkInvariantKept. -/
def Obligations.BoundsKept : Prop :=
  (∀ s t : State, s.bounded → step s = .next t → t.bounded) ∧
  (∀ (pu : Purpose) (st n u : Nat) (a : Addr) (g : Stage) (s : State), g = .QUEUED ∨ (g = .AWAIT_PAYMENT ∧ pu ≠ .SWEEP) →
    let room := s.hce.ops.length < 48 ∧ (if pu = .SWEEP then s.sweepOps < 24 ∧ (s.link a.link).bulk.length < 24
      else s.stationOps st < (if st = 7 then 4 else if st = 5 ∨ st = 6 then 8 else 1) ∧ s.prioTaken a.link < 6)
    (¬ room → s.createOp pu st n a u g = none) ∧
    (room → 1 ≤ a.link → a.link ≤ 4 → ∃ t, s.createOp pu st n a u g = some (t, s.nextJob) ∧
      t.hce = { ops := s.hce.ops ++ [newOp s.nextJob pu st n a u g], lastJob := s.nextJob } ∧
      (∀ q, t.stationOps q = s.stationOps q + if q = st ∧ pu ≠ .SWEEP then 1 else 0) ∧
      t.sweepOps = s.sweepOps + (if pu = .SWEEP then 1 else 0) ∧
      (∀ l, t.prioTaken l = s.prioTaken l + (if l = a.link ∧ pu ≠ .SWEEP then 1 else 0) ∧
        (t.link l).bulk = (s.link l).bulk ++ if l = a.link ∧ pu = .SWEEP then [s.nextJob] else []) ∧
      t = { s with hce := t.hce, links := t.links })) ∧
  (∀ (j : Nat) (o : Op) (s : State), (s.hce.ops.map (·.job)).Nodup → s.opByJob j = some o → o.stage = .AWAIT_PAYMENT →
    1 ≤ o.link → o.link ≤ 4 → (s.slot o.link o.slot).state = .PRESENT →
    let t := s.joinQueue j
    (t.link o.link).prio = (s.link o.link).prio ++ [j] ∧ t.opByJob j = some { o with stage := .QUEUED } ∧
    (∀ l, t.prioTaken l = s.prioTaken l ∧ (t.link l).bulk = (s.link l).bulk))

/-- The reference count of every page stays the number of parcel records naming it, and only DEPOSITING, LOADED
and RETURN_LOADED compartments hold a parcel record. -/
def Obligations.ReferenceCountsKept : Prop :=
  ∀ s t : State, s.parcelsPlaced → s.refsExact → step s = .next t → t.parcelsPlaced ∧ t.refsExact

/-- No two parcel records come to hold one access code, and no live code is in the retired-code list, whatever
the code generator draws. -/
def Obligations.CodesStayDistinct : Prop :=
  ∀ s t : State, s.parcelsPlaced → s.codesDistinct → step s = .next t → t.codesDistinct

/-- The granted units stay the sum of the units of the strikes in flight, every queued job stays that of one
operation addressed to the link of its queue, and no compartment comes to have two operations. -/
def Obligations.GrantedUnitsAreThoseOfTheStrikes : Prop :=
  ∀ s t : State, s.grantsExact → s.oneOpEach → step s = .next t → t.grantsExact ∧ t.oneOpEach

/-- A slot is PRESENT only with its commissioned serial, and OFFLINE only where it has one. -/
def Obligations.SlotsKeepTheirSerials : Prop :=
  ∀ s t : State, s.slotsOk → step s = .next t → t.slotsOk

/-- The section fields agree with the section ranges, and no two compartments of enabled sections are wired at
one link, slot and channel. -/
def Obligations.AliasLawKept : Prop :=
  ∀ s t : State, s.sectionsAgree → s.aliasFree → step s = .next t → t.sectionsAgree ∧ t.aliasFree

/-- The state after reset meets every one of these invariants (its straps and input levels are the model's
choice, log entries 1 and 2). -/
def Obligations.ResetMeetsTheInvariants : Prop :=
  State.reset.kli.ok ∧ State.reset.supplyOk ∧ State.reset.bounded ∧ State.reset.parcelsPlaced ∧
  State.reset.refsExact ∧ State.reset.codesDistinct ∧ State.reset.oneOpEach ∧ State.reset.grantsExact ∧ State.reset.slotsOk ∧
  State.reset.sectionsAgree ∧ State.reset.aliasFree

/-! ### Who may change what -/

/-- The hatch-cycle count of a compartment changes only as a STRIKE for it is answered STRIKE_ACK, and then
rises by one. -/
def Obligations.HatchCountRisesOnlyAtStrikeAck : Prop :=
  ∀ (s t : State) (n : Nat), step s = .next t → (t.comp n).hatchCount ≠ (s.comp n).hatchCount →
    ∃ l slot ch d cs, s.pending = .strikeAck l :: cs ∧ (s.link l).line = some (.strike slot ch d n) ∧
      (t.comp n).hatchCount = min ((s.comp n).hatchCount + 1) 4294967295

/-- A tariff page changes only by TARIFF_LOAD, while it is not in use, and by FACTORY_CLEAR. -/
def Obligations.TariffPagesChangeOnlyByLoadAndClear : Prop :=
  ∀ (s t : State) (i : Fin 4), step s = .next t → t.page i ≠ s.page i →
    (∃ h p cs, s.pending = .tariffLoad h p :: cs ∧
      ¬ ((s.page i).isSome = true ∧ (s.tariff.active = i ∨ (∃ w, s.tariff.scheduled = some w ∧ w.page = i) ∨
          0 < s.pageRefs i))) ∨
    (∃ h p cs, s.pending = .factoryClear h p :: cs)

/-- Section records change only by SECTION_DEFINE, SECTION_ENABLE, HOLD, HOLD_RELEASE and FACTORY_CLEAR, and
map entries only by SECTION_DEFINE, MAP_WRITE and FACTORY_CLEAR. -/
def Obligations.SectionsAndMapChangeOnlyByTheirRequests : Prop :=
  ∀ (s t : State), step s = .next t →
    (t.sects ≠ s.sects → ∃ h p cs, s.pending = .sectionDefine h p :: cs ∨ s.pending = .sectionEnable h p :: cs ∨
      s.pending = .hold h p :: cs ∨ s.pending = .holdRelease h p :: cs ∨ s.pending = .factoryClear h p :: cs) ∧
    (t.hatchMap ≠ s.hatchMap → ∃ h p cs, s.pending = .sectionDefine h p :: cs ∨
      s.pending = .mapWrite h p :: cs ∨ s.pending = .factoryClear h p :: cs)

/-- The straps change only at a restart; the CONFIG values, the wall offset, the base mode and the event mask
only by the request that sets each and by FACTORY_CLEAR. -/
def Obligations.SettingsChangeOnlyByTheirRequests : Prop :=
  ∀ (s t : State), step s = .next t →
    (t.scu.straps ≠ s.scu.straps → ∃ i cs, s.pending = .powerOn i :: cs ∨ s.pending = .brownout i :: cs ∨
      s.pending = .hostRestart i :: cs) ∧
    (t.scu.config ≠ s.scu.config → ∃ h p cs, s.pending = .config h p :: cs ∨ s.pending = .factoryClear h p :: cs) ∧
    (t.scu.wallOffset ≠ s.scu.wallOffset → ∃ h p cs, s.pending = .timeSet h p :: cs ∨
      s.pending = .factoryClear h p :: cs) ∧
    (t.scu.base ≠ s.scu.base → ∃ h p cs, s.pending = .mode h p :: cs ∨ s.pending = .factoryClear h p :: cs) ∧
    (t.kli.mask ≠ s.kli.mask → ∃ h p cs, s.pending = .eventMask h p :: cs ∨ s.pending = .factoryClear h p :: cs)

/-! ### Frames and payloads -/

/-- The bytes of every request's fields parse back to those fields.  What parses is the model's reading of R184: log entry
11 (a flag, presence or selector byte above 1, a half-byte of a code above 9 and other than one byte for no fields do not
parse) and 12 (the layouts: which fields a kind carries, in which order, selector and size). -/
def Obligations.PayloadsParseBack : Prop :=
  (∀ n, Codec.nat8.wf n = true → Codec.nat8.parse (Codec.nat8.enc n) = some n) ∧
  (∀ n, Codec.nat16.wf n = true → Codec.nat16.parse (Codec.nat16.enc n) = some n) ∧
  (∀ n, (Codec.below 5).wf n = true → (Codec.below 5).parse ((Codec.below 5).enc n) = some n) ∧
  (∀ n, Codec.code.wf n = true → Codec.code.parse (Codec.code.enc n) = some n) ∧
  (∀ m, Codec.mask.wf m = true → Codec.mask.parse (Codec.mask.enc m) = some m) ∧
  (∀ q, Codec.quoteReq.wf q = true → Codec.quoteReq.parse (Codec.quoteReq.enc q) = some q) ∧
  (∀ q, Codec.findReq.wf q = true → Codec.findReq.parse (Codec.findReq.enc q) = some q) ∧
  (∀ r, Codec.dropReq.wf r = true → Codec.dropReq.parse (Codec.dropReq.enc r) = some r) ∧
  (∀ r, Codec.reserveReq.wf r = true → Codec.reserveReq.parse (Codec.reserveReq.enc r) = some r) ∧
  (∀ r, Codec.depositReq.wf r = true → Codec.depositReq.parse (Codec.depositReq.enc r) = some r) ∧
  (∀ r, Codec.tagReq.wf r = true → Codec.tagReq.parse (Codec.tagReq.enc r) = some r) ∧
  (∀ x, Codec.target.wf x = true → Codec.target.parse (Codec.target.enc x) = some x) ∧
  (∀ x, (Codec.nat8.pair Codec.sizeClass).wf x = true →
    (Codec.nat8.pair Codec.sizeClass).parse ((Codec.nat8.pair Codec.sizeClass).enc x) = some x) ∧
  (∀ r, Codec.defineReq.wf r = true → Codec.defineReq.parse (Codec.defineReq.enc r) = some r) ∧
  (∀ x, (Codec.letter.pair Codec.flag).wf x = true →
    (Codec.letter.pair Codec.flag).parse ((Codec.letter.pair Codec.flag).enc x) = some x) ∧
  (∀ x, Codec.mapReq.wf x = true → Codec.mapReq.parse (Codec.mapReq.enc x) = some x) ∧
  (∀ x, (Codec.nat8.pair Codec.nat8).wf x = true →
    (Codec.nat8.pair Codec.nat8).parse ((Codec.nat8.pair Codec.nat8).enc x) = some x) ∧
  (∀ x, Codec.loadReq.wf x = true → Codec.loadReq.parse (Codec.loadReq.enc x) = some x) ∧
  (∀ x, (Codec.nat8.pair Codec.nat32).wf x = true →
    (Codec.nat8.pair Codec.nat32).parse ((Codec.nat8.pair Codec.nat32).enc x) = some x) ∧
  (∀ c, Codec.configReq.wf c = true → Codec.configReq.parse (Codec.configReq.enc c) = some c)

/-- A complete frame of valid length with a matching check joins the tail of the receive buffer, or is
discarded while 3 frames wait; one with a wrong check is discarded.  A gap inside a frame leaves the byte
that ends it to be hunted, and a length byte outside 4 to 250 discards the frame.  The check of the nine
characters 123456789 is 0x29B1. -/
def Obligations.ReceiverTakesAndDiscardsFrames : Prop :=
  crc16 [0x31, 0x32, 0x33, 0x34, 0x35, 0x36, 0x37, 0x38, 0x39] = 0x29B1#16 ∧
  (∀ (len st k tg : Byte) (p : List Byte) (s : State), 4 ≤ len.toNat → len.toNat ≤ 250 →
    p.length + 3 = len.toNat →
    (s.kli.rx.length < 3 →
      exec (.kioskFrameComplete len (st :: k :: tg :: p) (crc16 (len :: st :: k :: tg :: p))) s =
        .next { s with kli := { s.kli with partialRx := [], rx := s.kli.rx ++
          [{ station := st, kind := k, tag := tg, payload := p }] } }) ∧
    (3 ≤ s.kli.rx.length →
      exec (.kioskFrameComplete len (st :: k :: tg :: p) (crc16 (len :: st :: k :: tg :: p))) s =
        .next { s with kli := { s.kli with partialRx := [] } }) ∧
    (∀ c, c ≠ crc16 (len :: st :: k :: tg :: p) →
      exec (.kioskFrameComplete len (st :: k :: tg :: p) c) s =
        .next { s with kli := { s.kli with partialRx := [] } })) ∧
  (∀ (b : Byte) (s : State), exec (.frameGapTimeout b) s =
    .next { s with kli := { s.kli with partialRx := if b = 0xC3 then [b] else [] } }) ∧
  (∀ (b : Byte) (s : State), b.toNat < 4 ∨ 250 < b.toNat → exec (.frameLengthDiscard b) s =
    .next { s with kli := { s.kli with partialRx := [] } })

/-- What the Kiosk Link Interface refuses reaches no owner: a station above 7 or an unknown kind is answered
BAD_REQUEST with station and kind as received, a station that may not send the kind WRONG_STATION, the service station
with SERVICE_KEY off KEY_OFF, and a payload that does not hold exactly the fields of its kind BAD_REQUEST; nothing else
changes.  A request that is not the next to be taken, because another frame heads the receive buffer, changes nothing
and draws no reply (R187, as log entry 8 reads it).  Which payloads hold exactly the fields of their kind is the model's
reading of R184: log entry 11 (a flag, presence or selector byte above 1 does not parse), 12 (the layouts) and 14 (a
section letter outside A to H does not parse). -/
def Obligations.RefusedRequestsReachNoOwner : Prop :=
  (∀ (h : ReqHead) (kind : Byte) (p : List Byte) (s : State),
    7 < h.station.toNat ∨ kind.toNat = 0 ∨ 41 < kind.toNat →
    (s.kli.turnOf (requestFrame h kind p) = true →
      exec (.unknownRequestKind h kind p) s = .next { s with kli := s.kli.rejected h kind }) ∧
    (s.kli.turnOf (requestFrame h kind p) = false → exec (.unknownRequestKind h kind p) s = .next s)) ∧
  (∀ (kind : Nat) (f : ReqHead → List Byte → Instr) (h : ReqHead) (p : List Byte) (s : State),
    requestOf kind = some f →
    (s.kli.turnOf (requestFrame h (byteOf kind) p) = false → exec (f h p) s = .next s) ∧
    (s.kli.turnOf (requestFrame h (byteOf kind) p) = true →
      (7 < h.station.toNat → exec (f h p) s = .next { s with kli := s.kli.rejected h (byteOf kind) }) ∧
      (h.station.toNat ≤ 7 → ¬ (if kind ≤ 13 then h.station.toNat = 0 else if kind ≤ 16 then
          1 ≤ h.station.toNat ∧ h.station.toNat ≤ 4 else if kind ≤ 23 then
          h.station.toNat = 5 ∨ h.station.toNat = 6 else h.station.toNat = 7) →
        exec (f h p) s = .next { s with kli := s.kli.answered h kind .WRONG_STATION .empty }) ∧
      (h.station.toNat = 7 → 24 ≤ kind → h.keyOn = false →
        exec (f h p) s = .next { s with kli := s.kli.answered h kind .KEY_OFF .empty }) ∧
      (Asks h kind → parses kind p = false →
        exec (f h p) s = .next { s with kli := s.kli.rejected h (byteOf kind) })))

/-! ### The management station -/

/-- STATUS, READ_COMPARTMENT, FIND_PARCEL, LIST_BOARDS and QUOTE answer OK in every mode and phase and change
nothing but the Kiosk Link Interface's own record of the request. -/
def Obligations.ReadingRequestsChangeNothing : Prop :=
  ∀ (h : ReqHead) (p : List Byte) (s : State),
    (s.asks h 1 p → p.length = 1 → exec (.status h p) s =
      .next { s with kli := (s.kli.answered h 1 .OK (.statusOf s.statusReply)) }) ∧
    (∀ n, s.asks h 8 p → Codec.nat8.parse p = some n → isComp n → exec (.readCompartment h p) s =
      .next { s with kli := (s.kli.answered h 8 .OK (.compartment (s.compReply n))) }) ∧
    (∀ q, s.asks h 9 p → Codec.findReq.parse p = some q → s.matches q ≠ [] → exec (.findParcel h p) s =
      .next { s with kli := (s.kli.answered h 9 .OK (.found (s.matches q).length
        (((s.matches q).take 8).filterMap s.foundParcel))) }) ∧
    (s.asks h 11 p → p.length = 1 → exec (.listBoards h p) s =
      .next { s with kli := (s.kli.answered h 11 .OK (.boards (s.linkNos.map fun l => (s.link l).listed))) }) ∧
    (∀ n m x i w, s.asks h 7 p → Codec.quoteReq.parse p = some { what := w, minute := m } → isComp n →
      (w = .inr n ∨ ∃ c, w = .inl c ∧ x.code = some c ∧
        ∀ k y, isComp k → k < n → (s.comp k).parcel = some y → y.code ≠ some c) →
      (s.comp n).parcel = some x → x.page = some i → exec (.quote h p) s =
      .next { s with kli := (s.kli.answered h 7 .OK (.quoted n i x.declared x.pending x.paidThrough x.retryUntil
        (s.quoteAt (max s.now (m.getD s.now)) x))) })

/-- HOLD_MAP: 32 hold indications from the clipped first number; 1 where the compartment is held and lies in a
section, 0 elsewhere; nothing else changes, in every mode and phase. -/
def Obligations.HoldMapShowsTheHolds : Prop :=
  ∀ (h : ReqHead) (n : Nat) (s : State), s.asks h 10 [byteOf n] → n < 256 →
    let m := if n < 1 then 1 else if 240 < n then 240 else n
    exec (.holdMap h [byteOf n]) s =
      .next { s with kli := (s.kli.answered h 10 .OK (.holds m ((List.range 32).map fun k =>
        decide (m + k ≤ 240 ∧ s.held (m + k) = true ∧ (s.comp (m + k)).sect.isSome = true)))) }

/-- FETCH_EVENTS takes the oldest records, as many as asked (1 to 8) and as fit whole in 243 bytes, reports the
number left and the overflow flag, and clears that flag; the pending flags of classes gone are cleared. -/
def Obligations.FetchTakesTheOldestRecords : Prop :=
  ∀ (h : ReqHead) (n : Nat) (s : State), s.asks h 2 [byteOf n] → n < 256 →
    ∃ recs t, exec (.fetchEvents h [byteOf n]) s = .next t ∧
      s.kli.queue = recs ++ t.kli.queue ∧
      recs.length ≤ (if n < 1 then 1 else if 8 < n then 8 else n) ∧
      (recs.map fun e => e.bytes.length).sum ≤ 243 ∧
      (∀ e es, t.kli.queue = e :: es → recs.length < (if n < 1 then 1 else if 8 < n then 8 else n) →
        243 < (recs.map fun e => e.bytes.length).sum + e.bytes.length) ∧
      t.answers h 2 .OK (.events recs t.kli.queue.length s.kli.overflow) ∧ t.kli.overflow = false ∧
      (∀ c, t.kli.pendingFl.get c = true ↔ s.kli.pendingFl.get c = true ∧ ∃ e ∈ t.kli.queue, e.kind.cls = c) ∧
      t.kli.mask = s.kli.mask ∧ { t with kli := s.kli } = s

/-- EVENT_MASK stores the mask whole and sets ATTENTION for it; nothing queued or pending changes. -/
def Obligations.EventMaskIsStoredWhole : Prop :=
  ∀ (h : ReqHead) (p : List Byte) (m : ClassSet) (s : State), s.asks h 3 p → Codec.mask.parse p = some m →
    ∃ t, exec (.eventMask h p) s = .next t ∧ t.answers h 3 .OK (.mask m) ∧ t.kli.mask = m ∧
      (t.kli.attention = true ↔ s.kli.overflow = true ∨ ∃ c, m.get c = true ∧ s.kli.pendingFl.get c = true) ∧
      t.kli.queue = s.kli.queue ∧ t.kli.pendingFl = s.kli.pendingFl ∧ t.kli.overflow = s.kli.overflow ∧
      { t with kli := s.kli } = s

/-- TIME_SET outside start-up makes the wall minute named stand now and changes the wall offset alone; the wall minute
is taken of the whole sum of bank minute and offset (log entry 47: the model's choice). -/
def Obligations.TimeSetPlacesTheWallMinute : Prop :=
  ∀ (h : ReqHead) (p : List Byte) (w : Nat) (s : State), s.asks h 4 p → Codec.nat16.parse p = some w →
    s.scu.phase = none → w ≤ 1439 →
    ∃ o, o ≤ 1439 ∧ (s.now + o) % 1440 = w ∧
      exec (.timeSet h p) s = .next { s with
        scu := { s.scu with wallOffset := o }, kli := s.kli.answered h 4 .OK (.wall o w) }

/-- CLOCK_ADVANCE with the TIME_GAP flag set raises the counter by the clamped number, persists it, clears the flag and
hands the new minute on: reservations that have expired are freed, old retired codes dropped, lockouts removed, a due
switch made and, where a quarter hour lies between, overdue parcels marked, each with its event at the new minute
where the event queue has room.  That the reply carries the clamped number as
the minutes added, also where the counter stops at its greatest value, is the model's choice (log entry 46). -/
def Obligations.ClockAdvanceRaisesTheCounter : Prop :=
  ∀ (h : ReqHead) (p : List Byte) (n : Nat) (s : State), s.asks h 5 p → Codec.nat16.parse p = some n →
    s.scu.phase = none → s.scu.timeGap = true →
    let d := if n < 1 then 1 else if 10080 < n then 10080 else n
    let m := min (s.now + d) 4294967295
    ∃ t, exec (.clockAdvance h p) s = .next t ∧ t.answers h 5 .OK (.advanced d m) ∧
      t.scu = { s.scu with minute := m, persisted := m, timeGap := false } ∧ s.handedOn t m (s.now / 15 < m / 15)

/-- MODE outside start-up sets the base mode, and MAINS_GOOD and BATTERY_LOW their levels; the mode and with it
the capacity then follow the levels and the base mode.  The reply of MODE carries the mode as decided after the change
(DEDUCED, log entry 31).  A MODE that changes the mode, between OPEN and NIGHT, posts MODE_CHANGED and asks for an
arbitration pass, and with nothing queued does no more.  Where the mode changes by a level with nothing queued and no
sweep run, only MODE_CHANGED is posted; where it stays, nothing else changes.  Entry into BATTERY asks for an arbitration pass;
entry into DORMANT ends every QUEUED operation NO_POWER and no other; entry into OPEN or NIGHT takes a pass, tops up the
run of K1, then that of K2, and takes a pass (the order: log entries 17 and 18).  A top-up takes its run's pending list
from the head, and is made in OPEN and NIGHT alone. -/
def Obligations.ModeFollowsTheInputsAndTheBaseMode : Prop :=
  (∀ (h : ReqHead) (p : List Byte) (m : Nat) (s : State), s.asks h 6 p → (Codec.below 5).parse p = some m → m ≤ 1 →
    s.scu.phase = none → s.supplyOk →
    let b : BaseMode := if m = 0 then .OPEN else .NIGHT
    ∃ t, exec (.mode h p) s = .next t ∧ t.scu.base = b ∧
      t.scu.mode = (if s.scu.mainsGood then b.toMode else s.scu.mode) ∧
      t.arb.capacity = capacityOf s.scu.straps t.scu.mode ∧ t.answers h 6 .OK (.modes b t.scu.mode) ∧
      t.scu = { s.scu with base := b, mode := t.scu.mode } ∧
      (t.scu.mode = s.scu.mode →
        t = { s with scu := { s.scu with base := b }, kli := s.kli.answered h 6 .OK (.modes b s.scu.mode) }) ∧
      (t.scu.mode ≠ s.scu.mode →
        let posted := (s.kli.took h).post
          { kind := .MODE_CHANGED, minute := s.now, mode := some t.scu.mode, prevMode := some s.scu.mode }
        t.passedWith { s with
            scu := t.scu, arb := { s.arb with capacity := capacityOf s.scu.straps t.scu.mode }, kli := posted }
          h 6 .OK (.modes b t.scu.mode) ∧
        ((∀ l, (s.link l).prio = [] ∧ (s.link l).bulk = []) →
          t = { s with
            scu := t.scu, arb := t.arb
            kli := { posted with reply := some (replyTo h 6 .OK (.modes b t.scu.mode)) } } ∧
          t.arb.granted = s.arb.granted))) ∧
  (∀ (b : Bool) (c : Instr) (u : Scu) (s : State), s.supplyOk →
    (c = .mainsGoodChange b ∧ u = { s.scu with mainsGood := b }) ∨
      (c = .batteryLowChange b ∧ u = { s.scu with batteryLow := b }) →
    let m := if u.mainsGood then u.base.toMode else if u.batteryLow then .DORMANT else .BATTERY
    ∃ t, exec c s = .next t ∧ t.scu = { u with mode := m } ∧ t.arb.capacity = capacityOf s.scu.straps m ∧
      t.sects = s.sects ∧ t.hatchMap = s.hatchMap ∧ t.gates = s.gates ∧
      (m = s.scu.mode → t = { s with scu := u }) ∧
      (m ≠ s.scu.mode → (∀ l, (s.link l).prio = [] ∧ (s.link l).bulk = []) → s.swu.k1.run = none →
        s.swu.k2.run = none →
        t = { s with scu := t.scu, arb := t.arb, kli := (s.kli.post
          { kind := .MODE_CHANGED, minute := s.now, mode := some m, prevMode := some s.scu.mode }) } ∧
        t.arb.granted = s.arb.granted) ∧
      (m ≠ s.scu.mode →
        let v := { s with
          scu := { u with mode := m }
          arb := { s.arb with capacity := capacityOf s.scu.straps m }
          kli := s.kli.post { kind := .MODE_CHANGED, minute := s.now, mode := some m, prevMode := some s.scu.mode } }
        (m = .BATTERY → t = v.pass) ∧
        (m = .OPEN ∨ m = .NIGHT → t = ((v.pass.topUpEnd .K1).topUpEnd .K2).pass) ∧
        (m = .DORMANT → s.grantsExact → s.oneOpEach →
          (∀ o ∈ s.hce.ops, s.linkFitted o.link = true ∧
            (o.stage = .QUEUED ↔ o.job ∈ (s.link o.link).prio ++ (s.link o.link).bulk)) →
          s.kli.queue.length + 2 * s.hce.ops.length + 3 ≤ 64 →
          s.endsThose t (fun o => decide (o.stage = .QUEUED)) (fun _ => .NO_POWER) ∧
          ∀ o ∈ s.hce.ops, o.stage ≠ .QUEUED → t.comp o.comp = s.comp o.comp))) ∧
  (∀ (k : Courier) (s : State), s.topUpEnd k = (s.topUp k).1.endRun k ∧
    (s.scu.mode = .BATTERY ∨ s.scu.mode = .DORMANT ∨ (s.side k).run = none → (s.topUp k).1 = s) ∧
    (∀ r, s.scu.mode = .OPEN ∨ s.scu.mode = .NIGHT → (s.side k).run = some r →
      ∃ gone rest made, s.toppedUp (s.topUp k).1 k r gone rest made))

/-- RESTART is answered OK; the restart of any cause, HOST_RESTART whenever it comes (DEDUCED, log entry 29), then
clears what a restart clears, keeps what is retained, reads the straps and inputs, decides the mode and begins the
ENUMERATE phase on every fitted link.  The late-strike marks, the poll turns, the last STATUS records and the
hatch memories go, and the payment bus has nothing on its line, nothing to send again and every outgoing list empty.  A
reply is kept only where it is RESTART's own and a RESTART is due, which is DEDUCED too (log entry 29). -/
def Obligations.RestartsClearAndKeep : Prop :=
  (∀ (h : ReqHead) (p : List Byte) (s : State), s.asks h 13 p → p.length = 1 → exec (.restart h p) s =
    .next { s with scu := { s.scu with restartDue := true }, kli := s.kli.answered h 13 .OK .empty }) ∧
  (∀ (i : RestartInputs) (s : State) (c : Instr) (cause : ResetCause),
    (c = .powerOn i ∧ cause = .POWER_ON) ∨ (c = .brownout i ∧ cause = .BROWNOUT) ∨
      (c = .hostRestart i ∧ cause = .HOST_RESTART) →
    ∃ t, exec c s = .next t ∧
      t.hce = { ops := [], lastJob := 0 } ∧ t.arb.granted = 0 ∧ t.arb.turn = 1 ∧
      t.arb.capacity = capacityOf i.straps t.scu.mode ∧
      t.scu.mode = modeOf i.mainsGood i.batteryLow s.scu.base ∧ t.scu.straps = i.straps ∧
      t.scu.cause = cause ∧ t.scu.phase = some .ENUMERATE ∧ t.scu.base = s.scu.base ∧
      t.scu.config = s.scu.config ∧ t.scu.wallOffset = s.scu.wallOffset ∧ t.scu.persisted = s.scu.persisted ∧
      (∀ v, i.cell = some v → v ≤ 4294967295 → t.scu.minute = v ∧ t.scu.timeGap = s.scu.timeGap ∧
        t.kli.queue = [] ∧ t.kli.pendingFl = ClassSet.none ∧ t.kli.attention = false) ∧
      (i.cell = none → t.scu.minute = s.scu.persisted ∧ t.scu.timeGap = true ∧
        t.kli.queue = [{ kind := .TIME_GAP, minute := s.scu.persisted }] ∧
        t.kli.pendingFl = { ClassSet.none with system := true } ∧ t.kli.attention = s.kli.mask.system) ∧
      t.kli.rx = [] ∧ t.kli.partialRx = [] ∧ t.kli.overflow = false ∧ t.kli.mask = s.kli.mask ∧
      t.kli.reply = (if cause = .HOST_RESTART ∧ s.scu.restartDue = true
        then s.kli.reply.filter fun x => decide (x.kind = byteOf (13 + 128) ∧ x.status = .OK) else none) ∧
      t.sects = s.sects ∧ t.hatchMap = s.hatchMap ∧ t.capture = s.capture ∧ t.tariff = s.tariff ∧
      t.alloc.retired = s.alloc.retired ∧ t.pbc.reversals = s.pbc.reversals ∧
      t.pbc.refCounter = s.pbc.refCounter ∧
      (∀ n, t.comp n = { s.comp n with tagOwner := none }) ∧
      (∀ st, (t.gate st).wrong = [] ∧ (t.gate st).lockout = none) ∧
      t.swu = { k1 := { tags := [], run := none }, k2 := { tags := [], run := none } } ∧
      (∀ r, (t.reader r).state = .OFFLINE ∧ (t.reader r).outgoing = [] ∧ (t.reader r).lastSettled = none ∧
        (t.reader r).pollTimer = .stopped ∧ (t.reader r).unanswered = 0 ∧
        (t.reader r).charge = (s.reader r).charge.map fun x => { x with job := none, timeout := none }) ∧
      t.pbc.line = none ∧ t.pbc.retry = none ∧
      (∀ l, (t.link l).strike = none ∧ (t.link l).line = none ∧ (t.link l).rollTimer = false ∧
        (t.link l).pollTurn = none ∧ (t.link l).unbindDue = false ∧ (t.link l).prio = [] ∧ (t.link l).bulk = [] ∧
        (1 ≤ l → l ≤ i.straps.links.count →
          (t.link l).enumPass = some { full := true, rounds := 0, bindDue := none })) ∧
      (∀ l k, (t.slot l k).state = .EMPTY ∧ (t.slot l k).serial = none ∧ (t.slot l k).lastStatus = none ∧
        (t.slot l k).unanswered = 0 ∧ (t.slot l k).hatch = Vector.replicate 16 .unknown ∧
        (t.slot l k).late = Vector.replicate 16 false ∧ (t.slot l k).chanCode = none ∧ (t.slot l k).curCode = none ∧
        (t.slot l k).commissioned = (s.slot l k).commissioned))

/-- The capture record is read in every mode and phase and changes nothing; CLEAR_FAULT_CAPTURE is refused STARTING
during the start-up phases and otherwise answered with the record and count as they stood, which it empties,
changing nothing else; the next report then fills the record afresh. -/
def Obligations.FaultCaptureIsReadAndCleared : Prop :=
  ∀ (h : ReqHead) (p : List Byte) (s : State), p.length = 1 →
    (s.asks h 12 p → exec (.readFaultCapture h p) s =
      .next { s with kli := (s.kli.answered h 12 .OK (.capture s.capture)) }) ∧
    (s.asks h 40 p → s.scu.phase ≠ none → exec (.clearFaultCapture h p) s =
      .next { s with kli := (s.kli.answered h 40 .STARTING .empty) }) ∧
    (s.asks h 40 p → s.scu.phase = none → exec (.clearFaultCapture h p) s =
      .next { s with capture := { held := none, further := 0 },
                     kli := (s.kli.answered h 40 .OK (.capture s.capture)) }) ∧
    (s.capture = { held := none, further := 0 } → ∀ k l j ch n,
      (s.reportFault k l j ch n).capture =
        { held := (some { kind := k, link := l, slot := j, channel := ch, comp := n, minute := s.now })
          further := 0 })

/-! ### Customers -/

/-- COLLECT with a code that matches, a compartment free to serve and nothing due is accepted in OPEN and BATTERY:
the wrong-code list is emptied, a COLLECT joins the tail of its link's priority queue, the tag is cleared, and an
arbitration pass follows.  PAY then does the same. -/
def Obligations.CollectionWithNothingDueIsQueued : Prop :=
  ∀ (h : ReqHead) (p : List Byte) (code n u : Nat) (a : Addr) (x : Parcel) (s : State) (c : Instr) (kind : Nat),
    (c = .collect h p ∧ kind = 14) ∨ (c = .pay h p ∧ kind = 15) →
    s.asks h kind p → Codec.code.parse p = some code → s.scu.phase = none →
    s.scu.mode = .OPEN ∨ s.scu.mode = .BATTERY → (∀ m, (s.gate h.station.toNat).lockout = some m → m ≤ s.now) →
    s.lookup code = some n → (s.comp n).parcel = some x → s.held n = false →
    (s.comp n).causes.isEmpty = true → s.hasOp n = false → (s.feeGround x).due = 0 →
    s.resolution n = .ok a u → u ≤ s.arb.capacity → s.hasRoom h.station.toNat a.link →
    ∃ t, exec c s = .next t ∧
      t.passedWith ((({ s.took h with
          gates := tput s.gates h.station.toNat { s.gate h.station.toNat with wrong := [] } } : State).enqueued
            .COLLECT h.station.toNat n a u).clearTag n)
        h kind .ACCEPTED (.collecting s.nextJob n (s.comp n).cls (s.feeGround x))

/-- COLLECT and PAY are refused STARTING, NO_POWER in DORMANT, CLOSED in NIGHT, LOCKED_OUT at a locked station and BUSY at
one with an operation, and change nothing by it; so too HELD, FAULTED and BUSY by the compartment of the code.  A code that
no LOADED compartment has joins the wrong-code list, which both share and which keeps its last five minutes, and five
within ten minutes lock the station for 15 minutes.  COLLECT where a fee is due answers FEE_DUE with the quote and empties
the list. -/
def Obligations.CollectionRefusals : Prop :=
  ∀ (h : ReqHead) (p : List Byte) (c : Instr) (kind code : Nat) (s : State),
    (c = .collect h p ∧ kind = 14) ∨ (c = .pay h p ∧ kind = 15) → s.asks h kind p → Codec.code.parse p = some code →
    let st := h.station.toNat
    let g := s.gate st
    let l := (g.wrong.drop (g.wrong.length - 4)) ++ [s.now]
    let refuses := fun (x : Status) => exec c s = .next { s with kli := s.kli.answered h kind x .empty }
    (s.scu.phase ≠ none → refuses .STARTING) ∧
    (s.scu.phase = none → s.scu.mode = .NIGHT → refuses .CLOSED) ∧
    (s.scu.phase = none → s.scu.mode = .DORMANT → refuses .NO_POWER) ∧
    (s.scu.phase = none → s.scu.mode = .OPEN ∨ s.scu.mode = .BATTERY →
      (∀ m, g.lockout = some m → s.now < m → exec c s =
        .next { s with kli := (s.kli.answered h kind .LOCKED_OUT (.lockedOut (m - s.now))) }) ∧
      ((∀ m, g.lockout = some m → m ≤ s.now) → 0 < s.stationOps st → refuses .BUSY) ∧
      ((∀ m, g.lockout = some m → m ≤ s.now) → s.stationOps st = 0 →
        (∀ n, s.lookup code = some n →
          (s.held n = true → refuses .HELD) ∧
          (s.held n = false → (s.comp n).causes.isEmpty = false → refuses .FAULTED) ∧
          (s.held n = false → (s.comp n).causes.isEmpty = true → s.hasOp n = true → refuses .BUSY)) ∧
        (∀ n x q, kind = 14 → s.lookup code = some n → (s.comp n).parcel = some x → s.held n = false →
          (s.comp n).causes.isEmpty = true → s.hasOp n = false → s.feeGround x = .quoted q → 0 < q.due →
          exec c s = .next { s with
            gates := tput s.gates st { g with wrong := [] }
            kli := (s.kli.answered h kind .FEE_DUE (.feeDue q)) }) ∧
        (s.lookup code = none → g.wrong.length ≤ 5 → (∀ m ∈ g.wrong, m ≤ s.now) →
          (5 ≤ l.length ∧ s.now < l.headD 0 + 10 → exec c s = .next { s with
            gates := tput s.gates st { wrong := [], lockout := some (min (s.now + 15) 4294967295) }
            kli := (s.kli.answered h kind .BAD_CODE (.badCodeLocked 15)) }) ∧
          (¬ (5 ≤ l.length ∧ s.now < l.headD 0 + 10) → exec c s = .next { s with
            gates := tput s.gates st { g with wrong := l }
            kli := (s.kli.answered h kind .BAD_CODE (.badCode l.length)) }))))

/-- PAY with a fee due on an IDLE reader creates a COLLECT in AWAIT_PAYMENT, which stands in no queue but takes one
place of its link's priority queue (R71, R120), and starts the charge: the record is OFFERED, the reader CHARGING with
CHARGE to send after the RESULT_ACK that may be due, and the parcel holds the charge reference.  A tag on the compartment is cleared. -/
def Obligations.PayStartsTheCharge : Prop :=
  ∀ (h : ReqHead) (p : List Byte) (code n u : Nat) (a : Addr) (x : Parcel) (q : Quote) (s : State),
    s.asks h 15 p → Codec.code.parse p = some code → s.scu.phase = none →
    s.scu.mode = .OPEN ∨ s.scu.mode = .BATTERY → (∀ m, (s.gate h.station.toNat).lockout = some m → m ≤ s.now) →
    s.bounded → s.lookup code = some n → (s.comp n).parcel = some x → x.kind = .DELIVERY → x.chargeRef = none →
    s.held n = false → (s.comp n).causes.isEmpty = true → s.hasOp n = false →
    s.feeGround x = .quoted q → 0 < q.due → s.readerFitted h.station.toNat = true →
    (s.reader h.station.toNat).state = .IDLE → s.resolution n = .ok a u → u ≤ s.arb.capacity →
    s.hasRoom h.station.toNat a.link →
    let st := h.station.toNat
    let r := s.reader st
    ∃ t, exec (.pay h p) s = .next t ∧
      t.answers h 15 .ACCEPTED (.paying s.nextJob n (s.comp n).cls q.due s.nextRef q) ∧
      t.hce = { ops := s.hce.ops ++ [{ newOp s.nextJob .COLLECT st n a u .AWAIT_PAYMENT with
                  chargeRef := some s.nextRef, amount := some q.due }], lastJob := s.nextJob } ∧
      t.pbc = { s.pbc with refCounter := s.nextRef, readers := tput s.pbc.readers st { r with
        state := .CHARGING, outgoing := r.outgoing.filter BusMsg.isAck ++ [.CHARGE s.nextRef q.due],
        charge := some { ref := s.nextRef, amount := q.due, phase := .OFFERED, job := some s.nextJob, comp := n,
                         ident := x.ident, timeout := some s.scu.config.payTimeout, offer := false } } } ∧
      t.comps = tput s.comps n { s.comp n with
        tagOwner := none, parcel := some { x with chargeRef := some s.nextRef, chargeReader := none } } ∧
      t.gates = tput s.gates st { s.gate st with wrong := [] } ∧ t.prioTaken a.link = s.prioTaken a.link + 1 ∧
      ((s.comp n).tagOwner = none → t.swu = s.swu ∧ t.kli.queue = s.kli.queue) ∧
      (∀ k, (s.comp n).tagOwner = some k →
        (t.side k).tags = (s.side k).tags.filter (fun e => e.comp != n) ∧ t.side k.other = s.side k.other) ∧
      t = { s with hce := t.hce, pbc := t.pbc, comps := t.comps, gates := t.gates, swu := t.swu, kli := t.kli }

/-- RETURN_DROP outside the start-up phases in OPEN, with a compartment found, makes that compartment DEPOSITING with
a pending RETURN parcel and creates its operation: QUEUED where nothing is owed, else AWAIT_PAYMENT with a charge.  The
charge record is OFFERED for the fee, the drop and its compartment, with the payment timeout of CONFIG, and the reader
CHARGING with CHARGE to send.  The search takes of the compartments of the declared class and the larger ones that are
FREE candidates without an operation and resolve one of the smallest class, and of these the least worn, with no reserve
test; it finds none exactly where there is none.  That a compartment with an operation is passed over is DEDUCED (log
entry 16). -/
def Obligations.ReturnDropTakesACompartment : Prop :=
  (∀ (h : ReqHead) (p : List Byte) (d : DropReq) (f : Nat) (c : Chosen) (s v w : State),
    s.asks h 16 p → Codec.dropReq.parse p = some d → s.scu.phase = none → s.scu.mode = .OPEN →
    1 ≤ d.carrier → d.carrier ≤ 250 → (∀ b ∈ d.label, 0x20 ≤ b.toNat ∧ b.toNat ≤ 0x7E) → s.bounded →
    (d.prepaid = true ∧ f = 0) ∨ (d.prepaid = false ∧ s.returnFee d.declared = some f) →
    (0 < f → s.readerFitted h.station.toNat = true ∧ (s.reader h.station.toNat).state = .IDLE) →
    v = s.took h → searchSteps (v.dropSteps d.declared) v = (w, some c) → w.hasRoom h.station.toNat c.addr.link →
    let st := h.station.toNat
    let up := decide (d.declared.rank < (w.comp c.comp).cls.rank)
    let x : Parcel :=
      { kind := .RETURN, pending := true, carrier := d.carrier, text := d.label, declared := d.declared,
        page := none, depositMinute := s.now, code := none, paid := 0, paidThrough := none, chargeRef := none,
        chargeReader := none, overdue := false, unverified := false, retryUntil := none, prior := some .free }
    ∃ t, exec (.returnDrop h p) s = .next t ∧
      (f = 0 → t.passedWith ((w.enqueued .RETURN_DROP st c.comp c.addr c.units).withComp c.comp
          { w.comp c.comp with state := .DEPOSITING, parcel := some x })
        h 16 .ACCEPTED (.dropping w.nextJob c.comp (w.comp c.comp).cls up (.unpaid d.prepaid))) ∧
      (0 < f → t.answers h 16 .ACCEPTED
          (.dropping w.nextJob c.comp (w.comp c.comp).cls up (.charged f t.pbc.refCounter)) ∧
        t.pbc.refCounter = (w.withComp c.comp { w.comp c.comp with state := .DEPOSITING, parcel := some x }).nextRef ∧
        t.pbc = { w.pbc with refCounter := t.pbc.refCounter, readers := tput w.pbc.readers st { w.reader st with
          state := .CHARGING
          outgoing := (w.reader st).outgoing.filter BusMsg.isAck ++ [.CHARGE t.pbc.refCounter f]
          charge := some { ref := t.pbc.refCounter, amount := f, phase := .OFFERED, job := some w.nextJob,
                           comp := c.comp, ident := x.ident, timeout := some s.scu.config.payTimeout,
                           offer := false } } } ∧
        t.comp c.comp = { w.comp c.comp with state := .DEPOSITING, parcel := some { x with
          chargeRef := some t.pbc.refCounter, chargeReader := some st } } ∧ w.otherComps t c.comp ∧
        t.hce = { ops := w.hce.ops ++ [{ newOp w.nextJob .RETURN_DROP st c.comp c.addr c.units .AWAIT_PAYMENT with
                    chargeRef := some t.pbc.refCounter, amount := some f }], lastJob := w.nextJob } ∧
        (t.reader st).state = .CHARGING ∧ t.links = w.links ∧ t.arb = w.arb ∧ t.swu = w.swu ∧ t.scu = w.scu)) ∧
  (∀ (k : SizeClass) (s w : State) (o : Option Chosen), searchSteps (s.dropSteps k) s = (w, o) →
    let fit := fun (m : Nat) => isComp m ∧ k.rank ≤ (s.comp m).cls.rank ∧
      s.candidate m .FREE (s.comp m).cls = true ∧ s.hasOp m = false ∧ ∃ a u, s.resolution m = .ok a u
    ((∀ m b, s.resolution m ≠ .mapFault b) → w = s) ∧ (o = none ↔ ∀ m, ¬ fit m) ∧
    (∀ c, o = some c → fit c.comp ∧ s.resolution c.comp = .ok c.addr c.units ∧
      ∀ m, fit m → m ≠ c.comp → (s.comp c.comp).cls.rank < (s.comp m).cls.rank ∨
        ((s.comp c.comp).cls = (s.comp m).cls ∧ ((s.comp c.comp).hatchCount < (s.comp m).hatchCount ∨
          ((s.comp c.comp).hatchCount = (s.comp m).hatchCount ∧ c.comp < m)))))

/-! ### Couriers -/

/-- A search takes the FREE compartment of a class that is not held, has no fault cause and no operation, lies in an
enabled section and resolves, with the lowest hatch-cycle count and then the lowest number; it changes nothing but
the fault causes of compartments whose resolution ends MAP_FAULT, and the capture record and events of those.  Under
the reserve test it takes one only while more than the walk-up reserve stand FREE, and otherwise none. -/
def Obligations.SearchTakesTheLeastWorn : Prop :=
  (∀ (k : SizeClass) (reserve : Bool) (s t : State) (c : Chosen),
    searchIn .FREE k reserve (s.wearOrder k) s = (t, some c) →
    isComp c.comp ∧ (s.comp c.comp).state = .FREE ∧ (s.comp c.comp).cls = k ∧ s.held c.comp = false ∧
    (s.comp c.comp).causes.isEmpty = true ∧ s.enabledRec (s.comp c.comp) = true ∧ s.hasOp c.comp = false ∧
    s.resolution c.comp = .ok c.addr c.units ∧
    (∀ m, isComp m → m ≠ c.comp → s.candidate m .FREE k = true → s.hasOp m = false →
      (∃ a u, s.resolution m = .ok a u) →
      (s.comp c.comp).hatchCount < (s.comp m).hatchCount ∨
        ((s.comp c.comp).hatchCount = (s.comp m).hatchCount ∧ c.comp < m)) ∧
    (reserve = true → t.walkUp k < t.freeCount k ∧ t.freeCount k ≤ s.freeCount k) ∧
    t = { s with comps := t.comps, capture := t.capture, kli := t.kli } ∧
    (∀ m, t.comp m = s.comp m ∨ ∃ a, s.resolution m = .mapFault a ∧
      t.comp m = { s.comp m with causes := (s.comp m).causes.add .MAP_CHECK })) ∧
  (∀ (k : SizeClass) (s : State), s.freeCount k ≤ s.walkUp k →
    searchIn .FREE k true (s.wearOrder k) s = (s, none))

/-- DEPOSIT in OPEN or NIGHT on a LOADED active page, with a compartment found and a code drawn that is neither live
nor retired, makes the compartment DEPOSITING with a pending DELIVERY parcel priced by the active page, and queues
its operation; the station's tag list is cleared first.  The code is any of the sixteen draws that is not used: the
draws are free values.  The search finds a compartment reserved for the carrier before a FREE one, and of either the
declared class before a larger one, which it uses only where upsizing is allowed; it passes over a FREE class only
where the reserve test fails or no candidate of it resolves.  That a compartment with an operation is passed over is
DEDUCED (log entry 16: R11, not R92 and R99). -/
def Obligations.DepositTakesACompartment : Prop :=
  (∀ (h : ReqHead) (p : List Byte) (d : DepositReq) (k : Courier) (c : Chosen) (j : Nat) (s v w : State),
    s.asks h 19 p → Codec.depositReq.parse p = some d → courierOf h.station.toNat = some k → s.scu.phase = none →
    s.scu.mode = .OPEN ∨ s.scu.mode = .NIGHT → 1 ≤ d.carrier → d.carrier ≤ 250 →
    (∀ b ∈ d.text, 0x20 ≤ b.toNat ∧ b.toNat ≤ 0x7E) → (s.page s.tariff.active).isSome = true →
    v = (s.took h).clearTagList k → searchSteps (v.depositSteps d) v = (w, some c) →
    w.hasRoom h.station.toNat c.addr.link → j < 16 → w.codeUsed (Config.codeDraw (w.alloc.draws + j)).val = false →
    (∀ i, i < j → w.codeUsed (Config.codeDraw (w.alloc.draws + i)).val = true) →
    let st := h.station.toNat
    let x := w.comp c.comp
    let code := (Config.codeDraw (w.alloc.draws + j)).val
    let pg := s.tariff.active
    ∃ t, exec (.deposit h p) s = .next t ∧
      t.passedWith ({ (w.enqueued .DEPOSIT st c.comp c.addr c.units).withComp c.comp { x with
          state := .DEPOSITING, reservation := none, parcel := some
            { kind := .DELIVERY, pending := true, carrier := d.carrier, text := d.text, declared := d.declared,
              page := some pg, depositMinute := s.now, code := some code, paid := 0, paidThrough := none,
              chargeRef := none, chargeReader := none, overdue := false, unverified := false,
              retryUntil := none, prior := some (match x.reservation with
                | some r => .reserved r
                | none => .free) } } with
          tariff := { w.tariff with refs := w.tariff.refs.set pg.val (w.pageRefs pg + 1) }
          alloc := { w.alloc with draws := w.alloc.draws + j + 1 } })
        h 19 .ACCEPTED (.depositing w.nextJob c.comp x.cls (decide (x.state = .RESERVED))
          (decide (d.declared.rank < x.cls.rank)) (v.lapsed d))) ∧
  (∀ (d : DepositReq) (s w : State) (c : Chosen), (∀ m b, s.resolution m ≠ .mapFault b) →
    searchSteps (s.depositSteps d) s = (w, some c) →
    let may := fun (k : SizeClass) => k = d.declared ∨ (d.upsize = true ∧ d.declared.rank < k.rank)
    let ready := fun (m : Nat) (st : CompState) => isComp m ∧ may (s.comp m).cls ∧
      s.candidate m st (s.comp m).cls = true ∧ s.hasOp m = false ∧ ∃ a u, s.resolution m = .ok a u
    let kept := fun (m : Nat) => ready m .RESERVED ∧ ∃ r, (s.comp m).reservation = some r ∧ r.carrier = d.carrier ∧
      ∀ y, d.ref = some y → r.ref = y
    let cls := (s.comp c.comp).cls
    w = s ∧ s.resolution c.comp = .ok c.addr c.units ∧
    ((kept c.comp ∧ ∀ m, kept m → cls.rank < (s.comp m).cls.rank ∨ (cls = (s.comp m).cls ∧ c.comp ≤ m)) ∨
     (ready c.comp .FREE ∧ (∀ m, ¬ kept m) ∧ s.walkUp cls < s.freeCount cls ∧
      ∀ k, may k → k.rank < cls.rank →
        s.freeCount k ≤ s.walkUp k ∨ ∀ m, ready m .FREE → (s.comp m).cls ≠ k)))

/-- RESERVE with its fields in range, the FREE count above the walk-up reserve, a candidate of the class that resolves
and no entry whose check byte mismatches takes compartments that are candidates and resolve, least worn first, and
passes over none less worn; it stops only as the number asked is reached, as no more than the walk-up reserve stand
FREE, or as the class has no further candidate that resolves.  Each taken gets the reservation record; every other
compartment stays as it was, and the station's tag list is cleared first. -/
def Obligations.ReserveTakesCompartments : Prop :=
  ∀ (h : ReqHead) (p : List Byte) (r : ReserveReq) (k : Courier) (n u : Nat) (a : Addr) (s v : State),
    s.asks h 17 p → Codec.reserveReq.parse p = some r → courierOf h.station.toNat = some k → s.serves →
    1 ≤ r.carrier → r.carrier ≤ 250 → 1 ≤ r.count → r.count ≤ 16 → 1 ≤ r.duration → r.duration ≤ 1440 →
    v = (s.took h).clearTagList k → isComp n → v.candidate n .FREE r.cls = true → v.resolution n = .ok a u →
    v.walkUp r.cls < v.freeCount r.cls → (∀ m b, v.resolution m ≠ .mapFault b) →
    let e := min (s.now + r.duration) 4294967295
    let fit := fun (m : Nat) => isComp m ∧ v.candidate m .FREE r.cls = true ∧ ∃ b w, v.resolution m = .ok b w
    let sooner := fun (b c : Nat) => (v.comp b).hatchCount < (v.comp c).hatchCount ∨
      ((v.comp b).hatchCount = (v.comp c).hatchCount ∧ b < c)
    ∃ l t, exec (.reserve h p) s = .next t ∧ t.answers h 17 .OK (.reserved l r.cls e) ∧
      l ≠ [] ∧ l.length ≤ r.count ∧ v.walkUp r.cls + l.length ≤ v.freeCount r.cls ∧
      l.Pairwise sooner ∧ (∀ m ∈ l, fit m) ∧ (∀ m ∈ l, ∀ q, fit q → q ∉ l → sooner m q) ∧
      (l.length = r.count ∨ v.freeCount r.cls = v.walkUp r.cls + l.length ∨ ∀ q, fit q → q ∈ l) ∧
      v.onlyComps t ∧ t.kli.queue = s.kli.queue ∧
      (∀ m, t.comp m = if m ∈ l then { v.comp m with
          state := .RESERVED
          reservation := some { carrier := r.carrier, ref := r.ref, expiry := e } } else v.comp m)

/-- RESERVATION_RELEASE frees every compartment RESERVED under the reference and makes free the prior state of every
DEPOSITING one whose prior state is reserved under it, and its reply counts both; the station's tag list is cleared
first. -/
def Obligations.ReleaseFreesTheReservations : Prop :=
  ∀ (h : ReqHead) (p : List Byte) (ref : Nat) (k : Courier) (s v : State),
    s.asks h 18 p → Codec.nat16.parse p = some ref → courierOf h.station.toNat = some k → s.serves →
    v = (s.took h).clearTagList k →
    let under := fun n => (v.comp n).state = .RESERVED ∧ ∃ r, (v.comp n).reservation = some r ∧ r.ref = ref
    let prior := fun n => (v.comp n).state = .DEPOSITING ∧ ∃ x r, (v.comp n).parcel = some x ∧
      x.prior = some (.reserved r) ∧ r.ref = ref
    (∃ n, isComp n ∧ (under n ∨ prior n)) →
    ∃ a b t, exec (.reservationRelease h p) s = .next t ∧ t.answers h 18 .OK (.released a b) ∧ v.onlyComps t ∧
      t.kli.queue = s.kli.queue ∧
      (∀ n, isComp n → under n → t.comp n = { v.comp n with state := .FREE, reservation := none }) ∧
      (∀ n, isComp n → prior n → t.comp n =
        { v.comp n with parcel := (v.comp n).parcel.map fun x => { x with prior := some .free } }) ∧
      (∀ n, ¬ under n → ¬ prior n → t.comp n = v.comp n) ∧
      a = (compNos.countP fun n => decide ((v.comp n).state = .RESERVED) &&
        (v.comp n).reservation.any fun r => r.ref == ref) ∧
      b = (compNos.countP fun n => decide ((v.comp n).state = .DEPOSITING) && (v.comp n).parcel.any fun x =>
        match x.prior with
        | some (.reserved r) => r.ref == ref
        | _ => false) ∧ 0 < a + b

/-- TAG with room in the list adds the eligible, untagged compartments of its clipped range in ascending order and
counts as skipped the other compartments there that hold a parcel at rest; UNTAG removes one entry, keeps the order
of the rest, and answers with the number left. -/
def Obligations.TagAndUntagKeepTheList : Prop :=
  (∀ (h : ReqHead) (p : List Byte) (r : TagReq) (k : Courier) (s : State), s.asks h 20 p →
    Codec.tagReq.parse p = some r → courierOf h.station.toNat = some k → s.serves → 1 ≤ r.carrier → r.carrier ≤ 250 →
    let range := compNos.filter fun n => decide (r.first ≤ n ∧ n ≤ r.last)
    let add := range.filter fun n => s.eligible n r.filter r.carrier && (s.comp n).tagOwner.isNone
    let skip := range.filter fun n => !(s.eligible n r.filter r.carrier && (s.comp n).tagOwner.isNone) &&
      decide ((s.comp n).state = .LOADED ∨ (s.comp n).state = .RETURN_LOADED)
    (s.side k).tags.length + add.length ≤ 64 →
    ∃ t, exec (.tag h p) s = .next t ∧ t.answers h 20 .OK (.tagged add.length skip.length) ∧
      (t.side k).tags = (s.side k).tags ++ add.map (fun n => { comp := n, filter := r.filter, carrier := r.carrier }) ∧
      (t.side k).run = (s.side k).run ∧ t.side k.other = s.side k.other ∧
      (∀ n, t.comp n = if n ∈ add then { s.comp n with tagOwner := some k } else s.comp n) ∧
      t.kli.queue = s.kli.queue ∧ t = { s with comps := t.comps, swu := t.swu, kli := t.kli }) ∧
  (∀ (h : ReqHead) (p : List Byte) (n : Nat) (k : Courier) (s : State), s.asks h 21 p →
    Codec.nat8.parse p = some n → courierOf h.station.toNat = some k →
    (s.scu.phase ≠ none → exec (.untag h p) s = .next { s with kli := (s.kli.answered h 21 .STARTING .empty) }) ∧
    (s.scu.phase = none → (∀ e ∈ (s.side k).tags, e.comp ≠ n) →
      exec (.untag h p) s = .next { s with kli := (s.kli.answered h 21 .NOT_FOUND .empty) }) ∧
    (s.scu.phase = none → (∃ e ∈ (s.side k).tags, e.comp = n) →
      ∃ t, exec (.untag h p) s = .next t ∧
        t.answers h 21 .OK (.untagged (t.side k).tags.length) ∧
        (t.side k).tags = (s.side k).tags.filter (fun e => e.comp != n) ∧ (t.side k).run = (s.side k).run ∧
        t.side k.other = s.side k.other ∧ (t.comp n).tagOwner = none ∧ s.otherComps t n ∧
        t.kli.queue = s.kli.queue ∧ t = { s with comps := t.comps, swu := t.swu, kli := t.kli }))

/-- SWEEP moves the whole tag list, by ascending compartment, into a new run, which is topped up from its head: a
compartment that still passes the test of R180 and resolves becomes a QUEUED SWEEP operation at the tail of its link's
bulk queue, any other is dropped with its tag owner cleared and counted skipped, and the rest stays pending from the
first whose operation finds no room.  A compartment listed once is made or dropped by that test alone.  SWEEP_CANCEL
drops the pending compartments, counts them cancelled and ends the queued SWEEP operations of the station, links
ascending and in the order of each bulk queue. -/
def Obligations.SweepMovesTheTagList : Prop :=
  (∀ (h : ReqHead) (p : List Byte) (k : Courier) (s : State), s.asks h 22 p → p.length = 1 →
    courierOf h.station.toNat = some k → s.scu.phase = none → s.scu.mode = .OPEN ∨ s.scu.mode = .NIGHT →
    (s.side k).run = none → (s.side k).tags ≠ [] →
    let may := fun (e : TagEntry) =>
      s.eligible e.comp e.filter e.carrier && decide ((s.comp e.comp).tagOwner = some k)
    let fit := fun (e : TagEntry) => may e && (match s.resolution e.comp with | .ok _ _ => true | _ => false)
    ∃ (gone rest : List TagEntry) (made : List Op) (u t : State), exec (.sweep h p) s = .next t ∧
      t.passedWith (u.endRun k) h 22 .ACCEPTED
        (.sweeping s.nextJob (s.side k).tags.length made.length (gone.length - made.length)) ∧
      byComp (s.side k).tags = gone ++ rest ∧ made.length ≤ gone.length ∧
      u.side k = { tags := [], run := some { Run.start s.nextJob rest with skipped := gone.length - made.length } } ∧
      u.side k.other = s.side k.other ∧ u.hce.ops = s.hce.ops ++ made ∧
      (∀ o ∈ made, o.purpose = .SWEEP ∧ o.station = k.station ∧ o.stage = .QUEUED ∧
        s.resolution o.comp = .ok ⟨o.link, o.slot, o.channel⟩ o.units ∧ ∃ e ∈ gone, e.comp = o.comp ∧ fit e = true) ∧
      (∀ l, u.link l = { s.link l with
        bulk := (s.link l).bulk ++ (made.filter fun o => o.link == l).map (·.job) }) ∧
      (∀ n, (∀ e ∈ gone, e.comp ≠ n) → u.comp n = s.comp n) ∧
      (((s.side k).tags.map (·.comp)).Nodup →
        made.map (·.comp) = (gone.filter fit).map (·.comp) ∧
        ∀ e ∈ gone, u.comp e.comp = if fit e then s.comp e.comp else { s.comp e.comp with
          tagOwner := none
          causes := match may e, s.resolution e.comp with
            | true, .mapFault _ => (s.comp e.comp).causes.add .MAP_CHECK
            | _, _ => (s.comp e.comp).causes }) ∧
      (∀ e es, rest = e :: es → ∃ a w, s.resolution e.comp = .ok a w ∧
        (48 ≤ u.hce.ops.length ∨ 24 ≤ u.sweepOps ∨ 24 ≤ (u.link a.link).bulk.length)) ∧
      u = { s.took h with comps := u.comps, links := u.links, capture := u.capture, hce := u.hce, swu := u.swu,
                          kli := u.kli }) ∧
  (∀ (h : ReqHead) (p : List Byte) (k : Courier) (r : Run) (s v : State), s.asks h 23 p → p.length = 1 →
    courierOf h.station.toNat = some k → s.scu.phase = none → (s.side k).run = some r →
    v = (s.took h).clearTagList k →
    let jobs := (List.range' 1 s.scu.straps.links.count).flatMap fun l => (s.link l).bulk.filter fun j =>
      (s.opByJob j).any fun o => decide (o.purpose = .SWEEP ∧ o.station = k.station)
    ∃ w t : State, exec (.sweepCancel h p) s = .next t ∧
      w.comps = (r.pending.foldl (fun s e => s.updComp e.comp fun x => { x with tagOwner := none }) v).comps ∧
      w.side k = { v.side k with run := some { r with pending := [], cancelled := r.cancelled + r.pending.length } } ∧
      w = { v with comps := w.comps, swu := w.swu } ∧ w.side k.other = v.side k.other ∧
      t.passedWith ((w.endJobs jobs .CANCELLED).endRun k) h 23 .OK
        (.sweepCancelled r.pending.length jobs.length
          ((w.endJobs jobs .CANCELLED).hce.ops.filter fun o =>
            decide (o.purpose = .SWEEP ∧ o.station = k.station)).length))

/-! ### Service -/

/-- SERVICE_OPEN, and SERVICE_REMOVE of a compartment that is LOADED or RETURN_LOADED, on a compartment that has no
operation and resolves, join the tail of the priority queue and clear the tag; holds and fault causes do not refuse
them.  An arbitration pass grants a head that fits the free units: off its queue, STRIKING, its cycle purpose set, a
strike with no failed attempt in flight, its units granted and the pointer past its link.  A head above the capacity
ends NO_POWER and the pointer stays; a head that fits the capacity but not the free units holds the turn; a link that
offers nothing is passed by.  A link offers its bulk head only in OPEN and NIGHT with its priority queue empty, and
nothing while a strike is in flight.  That the pointer's move at a grant is not counted in the run of moves that stops
the pass, so that the pointer ends past the link granted last, is the model's choice (log entry 40). -/
def Obligations.ServiceCyclesAreQueued : Prop :=
  (∀ (h : ReqHead) (p : List Byte) (n u kind : Nat) (a : Addr) (pu : Purpose) (c : Instr) (s : State),
    (c = .serviceOpen h p ∧ kind = 24 ∧ pu = .SERVICE_OPEN) ∨
      (c = .serviceRemove h p ∧ kind = 25 ∧ pu = .SERVICE_REMOVE ∧
        ((s.comp n).state = .LOADED ∨ (s.comp n).state = .RETURN_LOADED)) →
    s.asks h kind p → Codec.nat8.parse p = some n → s.serves → isComp n → s.hasOp n = false →
    s.resolution n = .ok a u → s.hasRoom 7 a.link →
    ∃ t, exec c s = .next t ∧
      t.passedWith (((s.took h).enqueued pu 7 n a u).clearTag n) h kind .ACCEPTED (.servicing s.nextJob)) ∧
  (∀ (l : Nat) (o : Op) (s : State), s.linkFitted l = true → s.linkFitted s.arb.turn = true → s.offers l o →
    o.link = l → (∀ m, s.linkFitted m = true → m ≠ l → s.offersNone m) →
    o.units ≤ s.arb.capacity - s.arb.granted → s.pass = (s.granted o).turnedPast l) ∧
  (∀ s : State, s.linkFitted s.arb.turn = true → (∀ m, s.linkFitted m = true → s.offersNone m) → s.pass = s) ∧
  (∀ (o : Op) (s : State), s.offers s.arb.turn o → o.link = s.arb.turn →
    (o.units ≤ s.arb.capacity → s.arb.capacity - s.arb.granted < o.units → s.pass = s) ∧
    ∀ f, (o.units ≤ s.arb.capacity - s.arb.granted →
        passLoop (f + 1) 0 s = passLoop f 0 ((s.granted o).turnedPast s.arb.turn)) ∧
      (s.arb.capacity < o.units → passLoop (f + 1) 0 s = passLoop f 0 (s.endOp o .NO_POWER))) ∧
  (∀ (f run : Nat) (s : State), run < s.numLinks → s.offersNone s.arb.turn →
    passLoop (f + 1) run s = passLoop f (run + 1) (s.turnedPast s.arb.turn))

/-- CLEAR_FAULT empties the fault causes of a compartment whose hatch the last STATUS shows closed;
SET_OUT_OF_SERVICE takes a FREE compartment out, REINSTATE brings one without causes back, SET_CLASS changes the class
of a FREE or OUT_OF_SERVICE one; in another state REINSTATE and SET_CLASS are refused WRONG_STATE, and REINSTATE of one
with causes FAULTED.  Each is refused BUSY on a compartment with an operation, SET_OUT_OF_SERVICE of a FREE
one, and changes nothing else.  On a compartment that is not FREE SET_OUT_OF_SERVICE is refused WRONG_STATE, with an
operation too: R8 says so of one that has been allocated, and that the state is tested first of every such compartment
is DEDUCED (log entry 33).  That SET_CLASS is refused BUSY before WRONG_STATE is the model's choice (log entry 52). -/
def Obligations.CompartmentsAreSetAndCleared : Prop :=
  ∀ (h : ReqHead) (p : List Byte) (n : Nat) (s : State), s.serves → isComp n →
    let c := s.comp n
    (Codec.nat8.parse p = some n →
      (s.asks h 26 p → s.hasOp n = false → ∀ a u b r, s.resolution n = .ok a u →
        (s.slot a.link a.slot).lastStatus = some b → b.readings[a.channel]? = some r → r.hatchOpen = false →
        exec (.clearFault h p) s = .next { s.withComp n { c with causes := {} } with
          kli := (s.kli.answered h 26 .OK (.causes c.causes)) }) ∧
      (s.asks h 29 p → s.hasOp n = false → c.state = .FREE → exec (.setOutOfService h p) s =
        .next { s.withComp n { c with state := .OUT_OF_SERVICE } with
          kli := (s.kli.answered h 29 .OK .empty) }) ∧
      (s.asks h 30 p → s.hasOp n = false → c.state = .OUT_OF_SERVICE → c.causes.isEmpty = true →
        exec (.reinstate h p) s = .next { s.withComp n { c with state := .FREE } with
          kli := (s.kli.answered h 30 .OK .empty) }) ∧
      (s.asks h 30 p → s.hasOp n = false → (c.state ≠ .OUT_OF_SERVICE → exec (.reinstate h p) s =
          .next { s with kli := (s.kli.answered h 30 .WRONG_STATE .empty) }) ∧
        (c.state = .OUT_OF_SERVICE → c.causes.isEmpty = false → exec (.reinstate h p) s =
          .next { s with kli := (s.kli.answered h 30 .FAULTED .empty) })) ∧
      (s.asks h 29 p → c.state ≠ .FREE → exec (.setOutOfService h p) s =
        .next { s with kli := (s.kli.answered h 29 .WRONG_STATE .empty) }) ∧
      (s.hasOp n = true →
        (s.asks h 26 p → exec (.clearFault h p) s = .next { s with kli := (s.kli.answered h 26 .BUSY .empty) }) ∧
        (s.asks h 29 p → c.state = .FREE → exec (.setOutOfService h p) s =
          .next { s with kli := (s.kli.answered h 29 .BUSY .empty) }) ∧
        (s.asks h 30 p → exec (.reinstate h p) s =
          .next { s with kli := (s.kli.answered h 30 .BUSY .empty) }))) ∧
    (∀ k, s.asks h 31 p → (Codec.nat8.pair Codec.sizeClass).parse p = some (n, k) →
      (s.hasOp n = true → exec (.setClass h p) s =
        .next { s with kli := (s.kli.answered h 31 .BUSY .empty) }) ∧
      (s.hasOp n = false → c.state ≠ .FREE → c.state ≠ .OUT_OF_SERVICE → exec (.setClass h p) s =
        .next { s with kli := (s.kli.answered h 31 .WRONG_STATE .empty) }) ∧
      (s.hasOp n = false → c.state = .FREE ∨ c.state = .OUT_OF_SERVICE → exec (.setClass h p) s =
        .next { s.withComp n { c with cls := k } with kli := (s.kli.answered h 31 .OK .empty) }))

/-- HOLD on a compartment sets its own hold flag and clears its tag; it leaves an operation that is of service or has
been struck, and ends one in QUEUED or AWAIT_PAYMENT, whose charge is abandoned, or in STRIKING before STRIKE_ACK,
whose units go back unless its STRIKE is on the line.  HOLD on a section sets the section's hold flag.  HOLD_RELEASE
clears the flag named and changes nothing else.  Both are refused STARTING, NO_POWER and then NOT_FOUND.  A fault cause
that joins a compartment ends an operation in QUEUED or AWAIT_PAYMENT as a hold would, with FAULTED, and no other.  HOLD
on a section does to each of its compartments what HOLD on that compartment does, and its reply counts the operations
ended (with no sweep run, room in the event queue and one strike a link).  A SWEEP that a HOLD ends is counted skipped in
its run, which ends as nothing is left of it.  A payload that selects a section and gives a letter outside A to H is
refused BAD_REQUEST; the owner's own check of the letter, which no frame comes to, is NOT_FOUND (DEDUCED, log entry 14). -/
def Obligations.HoldsAreSetAndReleased : Prop :=
  (∀ (h : ReqHead) (p : List Byte) (n : Nat) (s : State), s.asks h 27 p → Codec.target.parse p = some (.inl n) →
    s.serves → isComp n →
    let held := (s.took h).withComp n { s.comp n with ownHold := true }
    (∀ o, s.opOn n = some o → o.purpose.isService = true ∨ o.stage = .AWAIT_OPEN ∨ o.stage = .OPEN ∨
        o.stage = .AWAIT_CONFIRM ∨ (o.stage = .STRIKING ∧ s.acked o = true)) →
      ∃ t, exec (.hold h p) s = .next t ∧ t.passedWith (held.clearTag n) h 27 .OK (.holdEnded 0)) ∧
  (∀ (h : ReqHead) (p : List Byte) (n : Nat) (o : Op) (s : State), s.asks h 27 p →
    Codec.target.parse p = some (.inl n) → s.serves → isComp n → s.opOn n = some o → o.purpose.isService = false →
    o.purpose ≠ .SWEEP → o.stage = .QUEUED ∨ o.stage = .AWAIT_PAYMENT ∨ (o.stage = .STRIKING ∧ s.acked o = false) →
    let x := s.link o.link
    ∃ t v, exec (.hold h p) s = .next t ∧ t.passedWith v h 27 .OK (.holdEnded 1) ∧
      v.hce.ops = s.hce.ops.filter (fun x => x.job != o.job) ∧ (v.comp n).ownHold = true ∧
      (v.comp n).purpose = none ∧ (v.comp n).tagOwner = none ∧ v.sects = s.sects ∧ v.scu = s.scu ∧
      (o.stage ≠ .STRIKING → v.arb = s.arb) ∧
      (o.stage = .STRIKING → (∃ a b c d, x.line = some (.strike a b c d)) →
        v.arb = s.arb ∧ (v.link o.link).strike = x.strike.map fun y => { y with opEnded := true }) ∧
      (o.stage = .STRIKING → (∀ a b c d, x.line ≠ some (.strike a b c d)) →
        v.arb.granted = s.arb.granted - x.strikeUnits ∧ (v.link o.link).strike = none) ∧
      (o.stage = .AWAIT_PAYMENT → ∀ r c, 1 ≤ r → r ≤ 4 → (s.reader r).charge = some c → c.job = some o.job →
        (∀ q d, 1 ≤ q → q < r → (s.reader q).charge = some d → d.job ≠ some o.job) →
        (c.phase = .OFFERED → c.offer = false → s.pbc.line ≠ some (r, .CHARGE c.ref c.amount) →
          (v.reader r).charge = none) ∧
        (c.phase ≠ .OFFERED ∨ c.offer = true ∨ s.pbc.line = some (r, .CHARGE c.ref c.amount) →
          (v.reader r).charge = some { c with phase := .ABANDON_DUE, job := none, timeout := none } ∧
          (v.reader r).state = .ABANDONING))) ∧
  (∀ (h : ReqHead) (p : List Byte) (i : Fin 8) (s : State), s.asks h 27 p →
    Codec.target.parse p = some (.inr i.val) → s.serves →
    ∃ k t, exec (.hold h p) s = .next t ∧ t.answers h 27 .OK (.holdEnded k) ∧
      t.sects = s.sects.set i.val { s.sect i with hold := true } ∧ t.hatchMap = s.hatchMap ∧ t.scu = s.scu ∧
      ((∀ n, (s.comp n).sect = some i → s.hasOp n = false ∧ (s.comp n).tagOwner = none) → k = 0 ∧
        t.passedWith { s.took h with sects := t.sects } h 27 .OK (.holdEnded 0))) ∧
  (∀ (h : ReqHead) (p : List Byte) (i : Fin 8) (s : State), s.asks h 27 p →
    Codec.target.parse p = some (.inr i.val) → s.serves → s.oneOpEach → (s.hce.ops.map (·.job)).Nodup →
    s.swu.k1.run = none → s.swu.k2.run = none → s.kli.queue.length + 2 * s.hce.ops.length ≤ 64 →
    let ends := fun (o : Op) => decide (isComp o.comp ∧ (s.comp o.comp).sect = some i) && !o.purpose.isService &&
      (decide (o.stage = .QUEUED ∨ o.stage = .AWAIT_PAYMENT) || (decide (o.stage = .STRIKING) && !s.acked o))
    (∀ o ∈ s.hce.ops, ∀ q ∈ s.hce.ops, o.stage = .STRIKING → q.stage = .STRIKING → o.link = q.link → o = q) →
    ∃ t v : State, exec (.hold h p) s = .next t ∧ t.passedWith v h 27 .OK (.holdEnded (s.hce.ops.countP ends)) ∧
      s.endsThose v ends (fun _ => .HELD) ∧ (∀ n, (s.comp n).sect = some i → (v.comp n).tagOwner = none) ∧
      (∀ n, (s.comp n).sect ≠ some i → v.comp n = { s.comp n with parcel := (v.comp n).parcel }) ∧
      v.scu = s.scu ∧ v.hatchMap = s.hatchMap) ∧
  (∀ (h : ReqHead) (p : List Byte) (n : Nat) (o : Op) (k : Courier) (r : Run) (s : State), s.asks h 27 p →
    Codec.target.parse p = some (.inl n) → s.serves → isComp n → s.opOn n = some o → o.purpose = .SWEEP →
    courierOf o.station = some k → o.stage = .QUEUED ∨ (o.stage = .STRIKING ∧ s.acked o = false) →
    (s.side k).run = some r → r.pending = [] → (s.side k.other).run = none → s.kli.queue.length ≤ 62 →
    let others := ∃ y ∈ s.hce.ops, y.job ≠ o.job ∧ y.purpose = .SWEEP ∧ y.station = k.station
    ∃ t v : State, exec (.hold h p) s = .next t ∧ t.passedWith v h 27 .OK (.holdEnded 1) ∧
      v.hce.ops = s.hce.ops.filter (fun y => y.job != o.job) ∧ s.otherComps v n ∧
      v.comp n = { s.comp n with ownHold := true, purpose := none, tagOwner := none } ∧
      (others → (v.side k).run = some { r with skipped := r.skipped + 1 }) ∧
      (¬ others → (v.side k).run = none ∧ ∃ e ∈ v.kli.queue, e.kind = .SWEEP_DONE ∧ e.job = some r.job ∧
        e.counts = some ⟨r.completed, r.leftOccupied, r.notOpened, r.cancelled, r.skipped + 1⟩) ∧
      ∃ e ∈ v.kli.queue, e.kind = .CYCLE_DONE ∧ e.job = some o.job ∧ e.outcome = some .HELD) ∧
  (∀ (h : ReqHead) (p : List Byte) (n : Nat) (s : State), s.asks h 28 p → Codec.target.parse p = some (.inl n) →
    s.serves → isComp n → exec (.holdRelease h p) s =
      .next { s.withComp n { s.comp n with ownHold := false } with
        kli := (s.kli.answered h 28 .OK (.stillHeld (s.sectHeld (s.comp n)))) }) ∧
  (∀ (h : ReqHead) (p : List Byte) (i : Fin 8) (s : State), s.asks h 28 p →
    Codec.target.parse p = some (.inr i.val) → s.serves → exec (.holdRelease h p) s =
      .next { s with
        sects := s.sects.set i.val { s.sect i with hold := false }
        kli := (s.kli.answered h 28 .OK (.ownHolds
          (compNos.countP fun n => decide ((s.comp n).sect = some i) && (s.comp n).ownHold))) }) ∧
  (∀ (h : ReqHead) (p : List Byte) (c : Instr) (kind : Nat) (x : Nat ⊕ Nat) (s : State),
    (c = .hold h p ∧ kind = 27) ∨ (c = .holdRelease h p ∧ kind = 28) → s.asks h kind p →
    Codec.target.parse p = some x →
    (s.scu.phase ≠ none → exec c s = .next { s with kli := s.kli.answered h kind .STARTING .empty }) ∧
    (s.scu.phase = none → s.scu.mode = .DORMANT →
      exec c s = .next { s with kli := s.kli.answered h kind .NO_POWER .empty }) ∧
    (s.serves → (∃ n, x = .inl n ∧ ¬ isComp n) →
      exec c s = .next { s with kli := s.kli.answered h kind .NOT_FOUND .empty })) ∧
  (∀ (h : ReqHead) (b : Byte) (q : List Byte) (c : Instr) (kind : Nat) (s : State),
    (c = .hold h (1 :: b :: q) ∧ kind = 27) ∨ (c = .holdRelease h (1 :: b :: q) ∧ kind = 28) →
    s.asks h kind (1 :: b :: q) → 8 ≤ b.toNat → exec c s = .next { s with kli := s.kli.rejected h (byteOf kind) }) ∧
  (∀ (n : Nat) (s : State), s.serves → 8 ≤ n →
    s.hold (.inr n) = s.refuse .NOT_FOUND ∧ s.holdRelease (.inr n) = s.refuse .NOT_FOUND) ∧
  (∀ (n : Nat) (k : Cause) (s : State), isComp n →
    ((s.comp n).causes.has k = true → s.addCause n k = s) ∧
    ((s.comp n).causes.has k = false →
      ((∀ o, s.opOn n = some o → o.purpose.isService = true ∨ o.stage.striking = true) →
        s.addCause n k = s.withComp n { s.comp n with causes := (s.comp n).causes.add k }) ∧
      (∀ o, s.opOn n = some o → o.purpose.isService = false → o.purpose ≠ .SWEEP →
        o.stage = .QUEUED ∨ o.stage = .AWAIT_PAYMENT →
        let t := s.addCause n k
        t.hce.ops = s.hce.ops.filter (fun y => y.job != o.job) ∧ (t.comp n).purpose = none ∧
        (t.comp n).causes = (s.comp n).causes.add k ∧
        (s.kli.queue.length < 64 → ∃ e ∈ t.kli.queue, e.kind = .CYCLE_DONE ∧ e.job = some o.job ∧
          e.outcome = some .HELD ∧ ∃ f, e.flags = some f ∧ f.faulted = true))))

/-! ### Sections and the hatch map -/

/-- A compartment resolves by its section: outside an enabled section UNREACHABLE; in a DIRECT one to the slot
`firstSlot + k / stride` and channel `k mod stride` of the section's link, `k` counted from the first number; in a
MAPPED one to the address of its entry where the check byte matches, else MAP_FAULT.  The address is reached when the
link is fitted, the slot PRESENT and the channel below the board's channel count. -/
def Obligations.ResolutionFollowsTheSection : Prop :=
  ∀ (n : Nat) (s : State),
    ((s.comp n).sect = none → s.resolution n = .unreachable) ∧
    ∀ i, (s.comp n).sect = some i → let x := s.sect i
      (x.enabled = false → s.resolution n = .unreachable) ∧
      (x.enabled = true → x.mode = .MAPPED → s.mapEntry n = none → s.resolution n = .unreachable) ∧
      (∀ e, x.enabled = true → x.mode = .MAPPED → s.mapEntry n = some e →
        e.check ≠ (90 + n + 17 * e.link + 31 * e.slot + 7 * e.channel) % 256 →
        s.resolution n = .mapFault { link := e.link, slot := e.slot, channel := e.channel }) ∧
      (∀ a : Addr, x.enabled = true →
        (x.mode = .DIRECT ∧ a = ⟨x.link, x.firstSlot + (n - x.first) / x.stride, (n - x.first) % x.stride⟩) ∨
        (x.mode = .MAPPED ∧ ∃ e, s.mapEntry n = some e ∧
          e.check = (90 + n + 17 * e.link + 31 * e.slot + 7 * e.channel) % 256 ∧
          a = { link := e.link, slot := e.slot, channel := e.channel }) →
        (∀ cc cu, s.linkFitted a.link = true → (s.slot a.link a.slot).state = .PRESENT →
          (s.slot a.link a.slot).chanCode = some cc → (s.slot a.link a.slot).curCode = some cu →
          s.resolution n = if a.channel < 4 * (cc + 1) then .ok a (2 * (cu + 1)) else .unreachable) ∧
        (s.linkFitted a.link = false ∨ (s.slot a.link a.slot).state ≠ .PRESENT → s.resolution n = .unreachable))

/-- SECTION_DEFINE that overlaps no other section, runs past no slot, finds its compartments unused and passes the
alias check writes the section record and every compartment and map entry of the old and the new range, and nothing
else.  A payload with a letter outside A to H is refused BAD_REQUEST; the owner's own check of the letter, which no frame
comes to, is NOT_FOUND (DEDUCED, log entry 14). -/
def Obligations.SectionDefineRedraws : Prop :=
  (∀ (h : ReqHead) (p : List Byte) (r : DefineReq) (i : Fin 8) (s : State), s.asks h 32 p →
    Codec.defineReq.parse p = some r → r.sect = i.val → s.serves → r.ok = true →
    let old := s.sect i
    let new := r.apply old
    (∀ j m, j ≠ i → new.coversNo m = true → (s.sect j).coversNo m = false) → new.pastSlot8 = false →
    (∀ m, isComp m → old.coversNo m = true ∨ new.coversNo m = true →
      s.hasOp m = false ∧ ((s.comp m).state = .FREE ∨ (s.comp m).state = .OUT_OF_SERVICE)) →
    (new.enabled = true → new.mode = .DIRECT → (s.defineSect i new).aliasCheck new.covers = none) →
    ∃ t, exec (.sectionDefine h p) s = .next t ∧ t.answers h 32 .OK .empty ∧
      t.sects = s.sects.set i.val new ∧
      (∀ m, isComp m → t.comp m =
        if new.coversNo m then { s.comp m with sect := some i, cls := r.cls }
        else if old.coversNo m then { s.comp m with sect := none } else s.comp m) ∧
      (∀ m, isComp m → t.mapEntry m =
        if new.coversNo m || old.coversNo m then none else s.mapEntry m) ∧
      t.kli.queue = s.kli.queue ∧
      t = { s with sects := t.sects, comps := t.comps, hatchMap := t.hatchMap, kli := t.kli }) ∧
  (∀ (h : ReqHead) (b : Byte) (q : List Byte) (s : State), s.asks h 32 (b :: q) → 8 ≤ b.toNat →
    exec (.sectionDefine h (b :: q)) s = .next { s with kli := s.kli.rejected h (byteOf 32) }) ∧
  (∀ (r : DefineReq) (s : State), s.serves → 8 ≤ r.sect → s.define r = s.refuse .NOT_FOUND)

/-- SECTION_ENABLE writes the enabled flag and nothing else: disabling where no compartment of the section has an
operation, enabling where no two compartments of sections then enabled are wired at one address; where two are, it
is refused ALIAS with two that collide, and nothing changes.  A payload with a letter outside A to H is refused
BAD_REQUEST; the owner's own check of the letter, which no frame comes to, is NOT_FOUND (DEDUCED, log entry 14).  That
the byte is a flag, 1 for on, is log entry 12. -/
def Obligations.SectionEnableObeysTheAliasLaw : Prop :=
  (∀ (h : ReqHead) (p : List Byte) (i : Fin 8) (on : Bool) (s t : State), s.asks h 33 p →
    (Codec.letter.pair Codec.flag).parse p = some (i.val, on) → s.serves →
    t = { s with sects := s.sects.set i.val { s.sect i with enabled := on } } →
    let meet := fun n m => isComp n ∧ isComp m ∧ n ≠ m ∧ t.enabledRec (t.comp n) = true ∧
      t.enabledRec (t.comp m) = true ∧ ∃ a, t.namedAddr n = some a ∧ t.namedAddr m = some a
    (on = false → (∀ n, (s.sect i).coversNo n = true → s.hasOp n = false) →
      exec (.sectionEnable h p) s = .next { t with kli := (s.kli.answered h 33 .OK .empty) }) ∧
    (on = true → (∀ n m, ¬ meet n m) →
      exec (.sectionEnable h p) s = .next { t with kli := (s.kli.answered h 33 .OK .empty) }) ∧
    (on = true → (∃ n m, meet n m) → ∃ n m, meet n m ∧
      exec (.sectionEnable h p) s = .next { s with kli := (s.kli.answered h 33 .ALIAS_FOUND (.collides n m)) })) ∧
  (∀ (h : ReqHead) (b : Byte) (q : List Byte) (s : State), s.asks h 33 (b :: q) → 8 ≤ b.toNat →
    exec (.sectionEnable h (b :: q)) s = .next { s with kli := s.kli.rejected h (byteOf 33) }) ∧
  (∀ (n : Nat) (on : Bool) (s : State), s.serves → 8 ≤ n → s.enable n on = s.refuse .NOT_FOUND)

/-- MAP_WRITE for a compartment of a MAPPED section without an operation stores the address with the check byte
`(90 + n + 17 link + 31 slot + 7 channel) mod 256`, or makes the entry invalid, and changes nothing else. -/
def Obligations.MapWriteStoresTheCheckByte : Prop :=
  ∀ (h : ReqHead) (p : List Byte) (n : Nat) (i : Fin 8) (s : State), s.asks h 34 p → s.serves → isComp n →
    (s.comp n).sect = some i → (s.sect i).mode = .MAPPED → s.hasOp n = false →
    (∀ l k ch, Codec.mapReq.parse p = some (n, .inl { link := l, slot := k, third := ch }) →
      1 ≤ l → l ≤ 4 → 1 ≤ k → k ≤ 8 → ch ≤ 15 →
      ((s.sect i).enabled = true → s.aliasFree ∧ ∀ m, isComp m → m ≠ n → s.enabledRec (s.comp m) = true →
        s.namedAddr m ≠ some { link := l, slot := k, channel := ch }) →
      let e : MapEntry := { link := l, slot := k, channel := ch, check := (90 + n + 17 * l + 31 * k + 7 * ch) % 256 }
      exec (.mapWrite h p) s = .next { s with
        hatchMap := tput s.hatchMap n (some e)
        kli := (s.kli.answered h 34 .OK (.mapEntry (some e))) }) ∧
    (Codec.mapReq.parse p = some (n, .inr ()) → exec (.mapWrite h p) s = .next { s with
        hatchMap := tput s.hatchMap n none
        kli := (s.kli.answered h 34 .OK (.mapEntry none)) })

/-! ### Tariffs, CONFIG, FACTORY_CLEAR -/

/-- TARIFF_LOAD stores the clamped page where the page is not in use and is refused IN_USE where it is;
TARIFF_SCHEDULE of the active page cancels the switch, of a later minute stores it, and of now or earlier switches at
once.  That IN_USE says which of its three grounds holds by a flag for each is the model's choice (log entry 13). -/
def Obligations.TariffsAreLoadedAndScheduled : Prop :=
  (∀ (h : ReqHead) (p : List Byte) (i : Fin 4) (x : Page) (s : State), s.asks h 37 p →
    Codec.loadReq.parse p = some (i.val, x) → s.serves →
    let sched := s.tariff.scheduled.any fun w => decide (w.page = i)
    let used := (s.page i).isSome = true ∧ (s.tariff.active = i ∨ sched = true ∨ 0 < s.pageRefs i)
    (used → exec (.tariffLoad h p) s = .next { s with kli := (s.kli.answered h 37 .IN_USE
      (.pageInUse (decide (s.tariff.active = i)) sched (decide (0 < s.pageRefs i)) (s.pageRefs i))) }) ∧
    (¬ used → exec (.tariffLoad h p) s = .next { s with
      tariff := { s.tariff with pages := s.tariff.pages.set i.val (some x.clamped) }
      kli := (s.kli.answered h 37 .OK (.pageStored x.clamped (decide (x.clamped ≠ x)) (s.pageRefs i))) })) ∧
  (∀ (h : ReqHead) (p : List Byte) (i : Fin 4) (m : Nat) (s : State), s.asks h 38 p →
    (Codec.nat8.pair Codec.nat32).parse p = some (i.val, m) → s.serves → (s.page i).isSome = true →
    (s.tariff.active = i → exec (.tariffSchedule h p) s = .next { s with
      tariff := { s.tariff with scheduled := none }
      kli := (s.kli.answered h 38 .OK (.switchCancelled s.tariff.scheduled (s.pageRefs i))) }) ∧
    (s.tariff.active ≠ i → s.now < m → exec (.tariffSchedule h p) s = .next { s with
      tariff := { s.tariff with scheduled := some { page := i, minute := m } }
      kli := (s.kli.answered h 38 .OK (.switchStored { page := i, minute := m } (s.pageRefs i))) }) ∧
    (s.tariff.active ≠ i → m ≤ s.now → exec (.tariffSchedule h p) s = .next { s with
      tariff := { s.tariff with active := i, scheduled := none }
      kli := { (s.kli.took h).post { kind := .TARIFF_SWITCHED, minute := s.now, page := some i,
                                          prevPage := some s.tariff.active } with
        reply := some (replyTo h 38 .OK (.switched s.tariff.active i (s.pageRefs i))) } }))

/-- A stored page has its fields in their ranges, a rounding unit of 1, 5, 10, 50 or 100 that divides its ceiling, and
stored CONFIG values lie in their ranges; a page or values that already do are stored as given. -/
def Obligations.StoredValuesLieInRange : Prop :=
  let pageOk := fun (x : Page) =>
    (x.unit = 1 ∨ x.unit = 5 ∨ x.unit = 10 ∨ x.unit = 50 ∨ x.unit = 100) ∧ x.unit ∣ x.ceiling ∧ x.ceiling ≤ 500000 ∧
    x.periodCode ≤ 4 ∧ x.windowStart ≤ 1439 ∧ x.windowLen ≤ 720 ∧ x.grace ≤ 60 ∧ 60 ≤ x.overdueMin ∧
    x.overdueMin ≤ 20160 ∧ ∀ k, x.freeMin.get k ≤ 2880 ∧ x.rate.get k ≤ 9999 ∧ x.dayCap.get k ≤ 50000 ∧
      x.returnFee.get k ≤ 9999
  let configOk := fun (c : ConfigVals) =>
    c.retryLimit ≤ 7 ∧ 5 ≤ c.openWait ∧ c.openWait ≤ 60 ∧ 30 ≤ c.payTimeout ∧ c.payTimeout ≤ 180 ∧
    ∀ k, 200 ≤ c.strikeMs.get k ∧ c.strikeMs.get k ≤ 1500 ∧ 30 ≤ c.ajar.get k ∧ c.ajar.get k ≤ 900 ∧
      c.walkUp.get k ≤ 20
  (∀ x : Page, pageOk x.clamped ∧ (pageOk x → x.clamped = x) ∧ x.clamped.unit ≤ max x.unit 1 ∧
    x.clamped.ceiling ≤ x.ceiling) ∧
  (∀ c : ConfigVals, configOk c.clamped ∧ (configOk c → c.clamped = c))

/-- CONFIG stores every value clamped and changes nothing else.  FACTORY_CLEAR with no parcel, charge, reversal or
operation sets the retained state to its factory values but for the hatch-cycle counts, keeps the counter, the persisted
minute and the TIME_GAP flag, and decides the mode again: a part in NIGHT on mains enters OPEN, and MODE_CHANGED follows
the BOARD_CHANGED of each slot that leaves PRESENT, whose items are DEDUCED (log entry 15).  That it leaves the wrong-code
lists and lockouts as they stand is the model's deduction (log entry 30). -/
def Obligations.ConfigAndFactoryClearSetTheRetainedState : Prop :=
  (∀ (h : ReqHead) (p : List Byte) (c : ConfigVals) (s : State), s.asks h 39 p → Codec.configReq.parse p = some c →
    s.serves → exec (.config h p) s = .next { s with
      scu := { s.scu with config := c.clamped }
      kli := (s.kli.answered h 39 .OK (.configStored c.clamped (decide (c.clamped ≠ c)))) }) ∧
  (∀ (h : ReqHead) (p : List Byte) (s : State), s.asks h 41 p → p.length = 1 → s.serves →
    (∀ n, (s.comp n).parcel = none) → (∀ r, (s.reader r).charge = none) → s.pbc.reversals = [] → s.hce.ops = [] →
    ∃ t, exec (.factoryClear h p) s = .next t ∧ t.answers h 41 .OK .empty ∧
      (∀ n, t.comp n = { Compartment.factory with hatchCount := (s.comp n).hatchCount }) ∧
      (∀ i, t.sect i = Sect.factory) ∧ (∀ n, t.mapEntry n = none) ∧ t.capture = { held := none, further := 0 } ∧
      t.alloc.retired = [] ∧ (∀ i, t.page i = none ∧ t.pageRefs i = 0) ∧ t.tariff.active = 0 ∧
      t.tariff.scheduled = none ∧ t.pbc = { s.pbc with refCounter := 0 } ∧ t.scu.config = ConfigVals.factory ∧
      t.scu.base = .OPEN ∧ t.scu.wallOffset = 0 ∧ t.scu.minute = s.scu.minute ∧ t.scu.persisted = s.scu.persisted ∧
      t.scu.timeGap = s.scu.timeGap ∧ t.scu = { s.scu with
        config := ConfigVals.factory, base := .OPEN, wallOffset := 0
        mode := modeOf s.scu.mainsGood s.scu.batteryLow .OPEN } ∧ t.kli.mask = ClassSet.all ∧
      (s.supplyOk → s.kli.queue.length + 33 ≤ 64 →
        (∀ l k, (s.slot l k).state = .PRESENT →
          { kind := .BOARD_CHANGED, minute := s.now, link := some l, slot := some k, slotState := some .NEW
            serial := (s.slot l k).serial } ∈ t.kli.queue) ∧
        (s.scu.mainsGood = true → s.scu.base = .NIGHT → t.kli.queue.getLast? =
          some { kind := .MODE_CHANGED, minute := s.now, mode := some .OPEN, prevMode := some .NIGHT }) ∧
        (s.scu.mainsGood = false ∨ s.scu.base = .OPEN → t.scu.mode = s.scu.mode ∧
          ∀ e ∈ t.kli.queue, e ∈ s.kli.queue ∨ e.kind = .BOARD_CHANGED)) ∧
      t.gates = s.gates ∧ t.hce.ops = [] ∧ t.arb.granted ≤ s.arb.granted ∧
      (∀ l k, (t.slot l k).commissioned = none ∧ ((s.slot l k).state = .PRESENT → (t.slot l k).state = .NEW) ∧
        ((s.slot l k).state = .OFFLINE → (t.slot l k).state = .EMPTY)))

/-! ### Quotes -/

/-- A quote outside its paid-through time counts the periods whose start, the free time and `i` periods, is earlier
than the dwell: at most 5,760, and with none of them the total is 0.  A period is closed where its wall minute lies in
the closed window, modulo 1,440, and belongs to the day of dwell it starts in; each day is charged the rate for its open
periods, cut at the day cap, and the total is the sum of the days, cut at the ceiling and rounded up to the unit.  The
total never passes the page's ceiling and is a multiple of its rounding unit, and the due is what the total leaves
unpaid; on a page with no closed window and no day cap the total is the rate for each period, cut and rounded.  Within
the paid-through time the due is 0.  The wall minute of a deposit is taken of the whole sum of its minute and the offset
(log entry 47: the model's choice). -/
def Obligations.QuotesFollowTheTariff : Prop :=
  ∀ (pg : Page) (offset now : Nat) (x : Parcel),
    let q := quoteOn pg offset now x
    let free := pg.freeMin.get x.declared
    let len := 15 * 2 ^ pg.periodCode
    let dwell := min (now - x.depositMinute) 86400
    let n := if dwell ≤ free then 0 else (dwell - free + len - 1) / len
    q.dwell = dwell ∧ q.paid = x.paid ∧
    (∀ m, x.paidThrough = some m → now ≤ m → q.due = 0 ∧ q.total = x.paid ∧ q.paidUp = true) ∧
    ((∀ m, x.paidThrough = some m → m < now) →
      q.periods = n ∧ q.closed ≤ n ∧ n ≤ 5760 ∧ (∀ i, i < n ↔ free + i * len < dwell) ∧
      (n = 0 → q.closed = 0 ∧ q.total = 0) ∧
      (let start := fun i => free + i * len
       let wall := fun i => ((x.depositMinute + offset) % 1440 + start i) % 1440
       let shut := fun i => decide (0 < pg.windowLen ∧ ((wall i : Int) - pg.windowStart) % 1440 < pg.windowLen)
       let charge := fun d =>
         (List.range n).countP (fun i => !shut i && start i / 1440 == d) * pg.rate.get x.declared
       let cap := pg.dayCap.get x.declared
       let sum := ((List.range 60).map fun d => if 0 < cap then min (charge d) cap else charge d).sum
       q.closed = (List.range n).countP shut ∧ (q.dayCap = true ↔ 0 < cap ∧ ∃ d, cap < charge d) ∧
        (q.ceiling = true ↔ pg.ceiling < sum) ∧ (q.rounded = true ↔ q.total ≠ min sum pg.ceiling) ∧
        (0 < pg.unit → q.total = (min sum pg.ceiling + pg.unit - 1) / pg.unit * pg.unit)) ∧
      (0 < pg.unit → pg.unit ∣ pg.ceiling →
        q.total ≤ pg.ceiling ∧ pg.unit ∣ q.total ∧ q.due + x.paid = max q.total x.paid ∧
        (q.paidUp = true ↔ q.due = 0) ∧
        (pg.windowLen = 0 → pg.dayCap.get x.declared = 0 →
          q.closed = 0 ∧ q.dayCap = false ∧
          q.total = (min (n * pg.rate.get x.declared) pg.ceiling + pg.unit - 1) / pg.unit * pg.unit)))

/-! ### Boards and links -/

/-- BOARD_ACCEPT makes a NEW slot PRESENT with its serial commissioned and marks every compartment wired to it
AUDIT_REQUIRED.  LINK_RESET makes every slot EMPTY but for its commissioned serial, ends the strike and returns its
units, stops the roll-call timer and any pass, and has UNBIND to send; other links keep their slots.  An acknowledged
strike whose duration has not run leaves the late-strike mark on its channel, and the other marks stay (DEDUCED, log
entry 21).  With no sweep run
and room in the event queue, its ends are these: queued operations of the link ABORTED_LINK, those at STRIKING or later
UNCONFIRMED with AUDIT_REQUIRED, each with its CYCLE_DONE; no other operation ends. -/
def Obligations.BoardsAreAcceptedAndLinksReset : Prop :=
  (∀ (h : ReqHead) (p : List Byte) (l k x : Nat) (s : State), s.asks h 35 p →
    (Codec.nat8.pair Codec.nat8).parse p = some (l, k) → s.scu.phase = none → s.linkFitted l = true → 1 ≤ k → k ≤ 8 →
    (s.slot l k).state = .NEW → (s.slot l k).serial = some x → (∀ n ∈ s.compsAt l k, s.hasOp n = false) →
    ∃ t v : State, exec (.boardAccept h p) s = .next t ∧
      t.passedWith v h 35 .OK (.accepted (s.compsAt l k).length) ∧
      v.links = tput s.links l ((s.link l).updSlot k fun y => { y with
        state := .PRESENT, commissioned := some x, unanswered := 0, lastStatus := none
        hatch := Vector.replicate 16 .unknown }) ∧
      (∀ n, v.comp n = if n ∈ s.compsAt l k
        then { s.comp n with causes := (s.comp n).causes.add .AUDIT_REQUIRED } else s.comp n) ∧
      v = { s.took h with links := v.links, comps := v.comps }) ∧
  (∀ (h : ReqHead) (p : List Byte) (l : Nat) (s : State), s.asks h 36 p → Codec.nat8.parse p = some l →
    s.scu.phase = none → s.linkFitted l = true →
    let queued := fun (o : Op) => ((s.link l).prio ++ (s.link l).bulk).contains o.job
    ∃ t v : State, exec (.linkReset h p) s = .next t ∧
      t.passedWith v h 36 .OK (.linkEnded ((s.link l).prio.length + (s.link l).bulk.length +
        (s.hce.ops.countP fun o => decide (o.link = l) && o.stage.striking))) ∧
      (v.link l).strike = none ∧ (v.link l).enumPass = none ∧ (v.link l).rollTimer = false ∧
      (v.link l).unbindDue = true ∧ v.arb.granted = s.arb.granted - (s.link l).strikeUnits ∧
      (∀ k, (v.slot l k).state = .EMPTY ∧ (v.slot l k).commissioned = (s.slot l k).commissioned ∧
        (v.slot l k).serial = none) ∧
      (let running := fun (k ch : Nat) => ∃ y, (s.link l).strike = some y ∧ y.ackMinute.isSome = true ∧
          y.durationRun = false ∧ y.slot = k ∧ y.channel = ch
       (∀ k ch, 1 ≤ k → k ≤ 8 → ch < 16 → running k ch → (v.slot l k).lateMark ch = true) ∧
       ∀ k ch, ¬ running k ch → (v.slot l k).lateMark ch = (s.slot l k).lateMark ch) ∧
      (∀ m, m ≠ l → (v.link m).slots = (s.link m).slots ∧ (v.link m).strike = (s.link m).strike) ∧
      v.sects = s.sects ∧ v.scu = s.scu ∧
      ((s.hce.ops.map (·.job)).Nodup → s.swu.k1.run = none → s.swu.k2.run = none →
        s.kli.queue.length + 2 * s.hce.ops.length ≤ 64 →
        s.endsThose v (fun o => queued o || (decide (o.link = l) && o.stage.striking))
          (fun o => if queued o then .ABORTED_LINK else .UNCONFIRMED)))

/-! ### The column links -/

/-- A fitted link whose line is free chooses its next exchange in this order: UNBIND of a reset, a STRIKE that is
due with the strike duration of the class, a poll of the struck slot whose strike-done is due, a step of a pass in
progress after an exchange that was no step, a poll of the next PRESENT slot after the poll turn, ascending and wrapping
from 8 to 1, a step of the pass.  The sixteenth round ends the pass: the roll-call timer then runs exactly where a slot is
OFFLINE, and a full pass makes OFFLINE the commissioned slots still EMPTY.  Four of its clauses are the model's choices: a
poll of the struck slot leaves the poll turn as it was (log entry 23), a BIND that is due is a step of its own, which ends
the round (log entry 22), a strike whose slot left PRESENT is polled for its strike-done where the slot is PRESENT again
(log entry 39), and the turn of polls begins at slot 1 (log entry 50). -/
def Obligations.LinksChooseTheNextExchange : Prop :=
  ∀ (l : Nat) (s : State), s.linkFitted l = true → (s.link l).line = none →
    let x := s.link l
    let doneDue := fun k : Strike => k.ackMinute.isSome = true ∧ (x.slotAt k.slot).state = .PRESENT ∧
      x.lastEnded ≠ .poll k.slot
    let passed := fun k : Nat => (k + 7 + 7 * x.pollTurn.getD 8) % 8
    let turn := fun k : Nat => 1 ≤ k ∧ k ≤ 8 ∧ (x.slotAt k).state = .PRESENT ∧
      ∀ j, 1 ≤ j → j ≤ 8 → (x.slotAt j).state = .PRESENT → passed k ≤ passed j
    (x.unbindDue = true → exec (.linkExchangeStart l) s = .next (s.withLink l { x with
      unbindDue := false, lastEnded := .other
      enumPass := some { full := true, rounds := 0, bindDue := none } })) ∧
    (x.unbindDue = false →
      (∀ k, x.strike = some k → k.ackMinute = none →
        let d := s.scu.config.strikeMs.get (s.comp k.comp).cls
        exec (.linkExchangeStart l) s = .next (s.withLink l { x with
          line := some (.strike k.slot k.channel d k.comp), strike := some { k with duration := d } })) ∧
      (∀ k, x.strike = some k → doneDue k → exec (.linkExchangeStart l) s =
        .next (s.withLink l { x with line := some (.poll k.slot) })) ∧
      ((∀ k, x.strike = some k → k.ackMinute.isSome = true ∧ ¬ doneDue k) →
        (∀ p, x.enumPass = some p → x.lastEnded ≠ .step ∨ (∀ k, (x.slotAt k).state ≠ .PRESENT) →
          (p.bindDue = none → exec (.linkExchangeStart l) s =
            .next (s.withLink l { x with line := some .rollCall })) ∧
          (∀ w, p.bindDue = some w → p.rounds < 15 → exec (.linkExchangeStart l) s =
            .next (s.withLink l { x with
              lastEnded := .step, enumPass := some { p with rounds := p.rounds + 1, bindDue := none } })) ∧
          (∀ w, p.bindDue = some w → 15 ≤ p.rounds → ∃ t, exec (.linkExchangeStart l) s = .next t ∧
            (t.link l).line = none ∧ (t.link l).lastEnded = .step ∧ (t.link l).enumPass = none ∧
            ((t.link l).rollTimer = true ↔ ∃ k, 1 ≤ k ∧ k ≤ 8 ∧ (t.slot l k).state = .OFFLINE) ∧
            (∀ k, (t.slot l k).state = if p.full = true ∧ (s.slot l k).state = .EMPTY ∧
              (s.slot l k).commissioned.isSome = true then .OFFLINE else (s.slot l k).state))) ∧
        (x.enumPass = none ∨ x.lastEnded = .step →
          (∀ k, turn k → exec (.linkExchangeStart l) s =
            .next (s.withLink l { x with line := some (.poll k), pollTurn := some k })) ∧
          (x.enumPass = none → (∀ k, (x.slotAt k).state ≠ .PRESENT) →
            exec (.linkExchangeStart l) s = .next s))))

/-- A bid puts the claim of the lowest serial on the line.  The claim's slot becomes PRESENT with the commissioned
serial, NEW with another, CONFLICT where it is NEW or PRESENT with a different serial; other slots stay.  A roll call
that no board answers ends the pass, which starts the roll-call timer exactly where a slot is then OFFLINE, and a full
pass makes OFFLINE the commissioned slots still EMPTY; the timer begins a periodic pass, of which no exchange before it is
a step.  That the claim is applied as it
is received and BIND is left due as a later step of the pass is DEDUCED (log entry 22). -/
def Obligations.EnumerationFindsTheBoards : Prop :=
  (∀ (l w : Nat) (s : State), (s.link l).line = some .rollCall → exec (.rollCallBid l w) s =
    .next (s.withLink l { s.link l with line := some (.claim w) })) ∧
  (∀ (l w k cc cu : Nat) (p : Pass) (s : State), (s.link l).line = some (.claim w) →
    (s.link l).enumPass = some p → 1 ≤ k → k ≤ 8 → cc ≤ 3 → cu ≤ 7 →
    let x := s.slot l k
    ∃ v : State, exec (.claim l w k cc cu) s = .next v.pass ∧ (v.link l).line = none ∧ (v.link l).lastEnded = .step ∧
      (v.link l).enumPass = some { p with bindDue := some w } ∧ (∀ j, j ≠ k → v.slot l j = s.slot l j) ∧
      v.slot l k = (match x.state with
        | .EMPTY | .OFFLINE =>
          if x.commissioned = some w then
            { x with state := .PRESENT, serial := some w, chanCode := some cc, curCode := some cu, unanswered := 0,
                     lastStatus := none, hatch := Vector.replicate 16 .unknown }
          else { x with state := .NEW, serial := some w, chanCode := some cc, curCode := some cu, unanswered := 0,
                        lastStatus := none }
        | .NEW | .PRESENT =>
          if x.serial = some w then x else { x with state := .CONFLICT, unanswered := 0, lastStatus := none }
        | .CONFLICT => x)) ∧
  (∀ (l : Nat) (p : Pass) (s : State), (s.link l).line = some .rollCall → (s.link l).enumPass = some p →
    ∃ t, exec (.boardResponseTimeout l) s = .next t ∧ (t.link l).line = none ∧ (t.link l).enumPass = none ∧
      ((t.link l).rollTimer = true ↔ ∃ k, 1 ≤ k ∧ k ≤ 8 ∧ (t.slot l k).state = .OFFLINE) ∧
      (∀ k, (t.slot l k).state = if p.full = true ∧ (s.slot l k).state = .EMPTY ∧
        (s.slot l k).commissioned.isSome = true then .OFFLINE else (s.slot l k).state)) ∧
  (∀ (l : Nat) (s : State), (s.link l).rollTimer = true → (s.link l).enumPass = none → (s.link l).unbindDue = false →
    exec (.rollCallTimerExpiry l) s = .next (s.withLink l { s.link l with
      enumPass := some { full := false, rounds := 0, bindDue := none }
      lastEnded := if (s.link l).lastEnded = .step then .other else (s.link l).lastEnded }))

/-- A STATUS of a polled PRESENT slot is kept as the last one, sets the unanswered count to 0 and gives each channel's
hatch memory its reading.  An unanswered poll raises the count, and the third makes the slot OFFLINE, starts the
roll-call timer and reports NO_RESPONSE; its strike in flight keeps its units only where it is acknowledged and its
duration has not run.  With no sweep run and room in the event queue, the operations of the slot then end: queued ones
STRIKE_FAILED, later ones UNCONFIRMED with AUDIT_REQUIRED; those that wait for payment stand. -/
def Obligations.PollsKeepTheReadings : Prop :=
  (∀ (l k : Nat) (rs : List Reading) (done : Bool) (s : State), (s.link l).line = some (.poll k) →
    (s.slot l k).state = .PRESENT →
    let kept := rs.take (min 16 (s.slot l k).channels)
    ∃ t, exec (.boardStatus l k rs done) s = .next t ∧ (t.link l).line = none ∧ (t.link l).lastEnded = .poll k ∧
      (t.slot l k).state = .PRESENT ∧ (t.slot l k).unanswered = 0 ∧
      (t.slot l k).lastStatus = some { readings := kept, strikeDone := done } ∧
      (∀ (ch : Nat) (r : Reading), kept[ch]? = some r →
        (t.slot l k).hatch[ch]? = some (if r.hatchOpen then HatchMem.opened else .closed)) ∧
      (∀ m j, ¬ (m = l ∧ j = k) → t.slot m j = s.slot m j) ∧ t.sects = s.sects ∧ t.hatchMap = s.hatchMap) ∧
  (∀ (l k : Nat) (s : State), (s.link l).line = some (.poll k) → (s.slot l k).state = .PRESENT →
    ((s.slot l k).unanswered < 2 → ∃ v : State, exec (.boardResponseTimeout l) s = .next v.pass ∧
      v = s.withLink l { (s.link l).updSlot k (fun y => { y with unanswered := y.unanswered + 1 }) with
        line := none, lastEnded := .poll k }) ∧
    (2 ≤ (s.slot l k).unanswered → ∃ v : State, exec (.boardResponseTimeout l) s = .next v.pass ∧
      v.slot l k = { s.slot l k with state := .OFFLINE, unanswered := 0, lastStatus := none } ∧
      (v.link l).rollTimer = true ∧ (v.link l).line = none ∧ (∀ j, j ≠ k → v.slot l j = s.slot l j) ∧
      v.capture.held = (s.capture.after ⟨.NO_RESPONSE, l, k, none, none, s.now⟩).held ∧
      (∀ x, (s.link l).strike = some x → x.slot = k →
        (x.ackMinute.isSome = true → x.durationRun = false → v.arb.granted = s.arb.granted ∧
          (v.link l).strike = some { x with slotLost := true, opEnded := true }) ∧
        (x.ackMinute.isSome = true ∧ x.durationRun = true ∨ x.ackMinute = none ∧ x.opEnded = false →
          v.arb.granted = s.arb.granted - x.units ∧ (v.link l).strike = none)) ∧
      ((s.hce.ops.map (·.job)).Nodup → s.swu.k1.run = none → s.swu.k2.run = none →
        s.kli.queue.length + 2 * s.hce.ops.length + 2 ≤ 64 →
        s.endsThose v (fun o => decide (o.link = l ∧ o.slot = k ∧ o.stage ≠ .AWAIT_PAYMENT))
          (fun o => if o.stage = .QUEUED then .STRIKE_FAILED else .UNCONFIRMED))))

/-- STRIKE_ACK raises the hatch-cycle count of the compartment struck and notes the minute.  One whose operation has ended
leaves the late-strike mark on its channel.  BOARD_BUSY and no answer are failed attempts: within the retry limit the
strike is sent again, beyond it the units go back, the operation is ended and NO_RESPONSE reported.  NO_CHANNEL ends
the strike and its operation at once, adds MAP_CHECK and reports NO_CHANNEL; with the operation ended before, it does the
rest. -/
def Obligations.StrikeAnswersSettleTheAttempt : Prop :=
  ∀ (l sl ch d n : Nat) (k : Strike) (s : State), (s.link l).line = some (.strike sl ch d n) →
    (s.link l).strike = some k →
    let x := { s.link l with line := none, lastEnded := .other }
    let c := { s.comp n with hatchCount := min ((s.comp n).hatchCount + 1) 4294967295 }
    let reported := s.capture.after ⟨.NO_CHANNEL, l, k.slot, some k.channel, some k.comp, s.now⟩
    let failed := fun (v : State) (o : Op) => s.kli.queue.length < 64 → ∃ e ∈ v.kli.queue, e.kind = .CYCLE_DONE ∧
      e.job = some o.job ∧ e.comp = some o.comp ∧ e.outcome = some .STRIKE_FAILED
    (k.opEnded = false → exec (.strikeAck l) s =
      .next ((s.withLink l { x with strike := some { k with ackMinute := some s.now, late := false } }).withComp n c)) ∧
    (k.opEnded = true → ∃ t, exec (.strikeAck l) s = .next t ∧ t.comp n = (s.withComp n c).comp n ∧
      (t.link l).strike = some { k with ackMinute := some s.now, late := true } ∧
      (1 ≤ k.slot → k.slot ≤ 8 → k.channel < 16 → (t.slot l k.slot).lateMark k.channel = true) ∧
      s.otherComps t n ∧ t = { s with links := t.links, comps := t.comps }) ∧
    (∀ e, e = .boardBusy l ∨ e = .boardResponseTimeout l →
      (k.opEnded = true → ∃ v : State, exec e s = .next v.pass ∧
        v = { s.withLink l { x with strike := none } with
              arb := { s.arb with granted := s.arb.granted - k.units } }) ∧
      (k.opEnded = false → k.failed < s.scu.config.retryLimit → ∃ v : State, exec e s = .next v.pass ∧
        v = s.withLink l { x with strike := some { k with failed := k.failed + 1 } }) ∧
      (k.opEnded = false → s.scu.config.retryLimit ≤ k.failed → ∀ o, s.opByJob k.job = some o →
        o.purpose ≠ .SWEEP → ∃ v : State, exec e s = .next v.pass ∧ (v.link l).strike = none ∧
          v.arb.granted = s.arb.granted - k.units ∧ v.hce.ops = s.hce.ops.filter (fun y => y.job != k.job) ∧
          failed v o ∧ v.capture = s.capture.after ⟨.NO_RESPONSE, l, k.slot, some k.channel, some k.comp, s.now⟩)) ∧
    (isComp k.comp → ∃ v : State, exec (.noChannel l) s = .next v.pass ∧ (v.link l).strike = none ∧
      v.arb.granted = s.arb.granted - k.units ∧ (v.comp k.comp).causes.mapCheck = true ∧
      v.capture.held.isSome = true ∧
      ((s.swu.k1.run = none ∧ s.swu.k2.run = none) ∨
        (∀ o ∈ s.hce.ops, o.job = k.job ∨ o.comp = k.comp → o.purpose ≠ .SWEEP) → v.capture = reported) ∧
      (∀ o, k.opEnded = false → s.opByJob k.job = some o → o.comp = k.comp → s.oneOpEach →
        o.purpose ≠ .SWEEP ∨ (s.swu.k1.run = none ∧ s.swu.k2.run = none) →
        v.hce.ops = s.hce.ops.filter (fun y => y.job != k.job) ∧ (v.comp k.comp).purpose = none ∧ failed v o ∧
        v.capture = reported) ∧
      (k.opEnded = true → s.opOn k.comp = none → v.capture = reported ∧
        v = { s.withLink l { x with strike := none } with
              comps := tput s.comps k.comp { s.comp k.comp with causes := (s.comp k.comp).causes.add .MAP_CHECK }
              arb := { s.arb with granted := s.arb.granted - k.units }, capture := v.capture, kli := v.kli }))

/-- The strike-done grace ends an acknowledged strike and tells its operation of the last hatch reading, and reports
DONE_MISSING; the strike duration returns the units of a slot that was lost.  The open-wait ends NOT_OPENED, the
confirm limit UNCONFIRMED, and the ajar limit posts HATCH_AJAR once where the hatch stands open. -/
def Obligations.CycleTimersExpire : Prop :=
  (∀ (l : Nat) (k : Strike) (o : Op) (s : State), (s.link l).strike = some k → k.ackMinute.isSome = true →
    k.slotLost = false → k.opEnded = false → s.opByJob k.job = some o → o.stage = .STRIKING →
    let lim := s.scu.config.ajar.get (s.comp o.comp).cls
    ∃ v : State, exec (.strikeDoneGraceExpiry l) s = .next v.pass ∧ (v.link l).strike = none ∧
      v.arb.granted = s.arb.granted - k.units ∧
      v.capture = s.capture.after ⟨.DONE_MISSING, l, k.slot, some k.channel, some k.comp, s.now⟩ ∧
      v.opByJob k.job = some (
        if k.hatchSeen = some true then { o with stage := .OPEN, openWait := none, ajar := some lim }
        else if o.opened then
          { o with stage := .AWAIT_CONFIRM, openWait := none, ajar := some lim, confirm := some 10 }
        else { o with stage := .AWAIT_OPEN, openWait := some s.scu.config.openWait }) ∧ v.comps = s.comps) ∧
  (∀ (l : Nat) (k : Strike) (s : State), (s.link l).strike = some k → k.ackMinute.isSome = true →
    (k.slotLost = false → exec (.strikeDurationExpiry l) s =
      .next (s.withLink l { s.link l with strike := some { k with durationRun := true } })) ∧
    (k.slotLost = true → ∃ v : State, exec (.strikeDurationExpiry l) s = .next v.pass ∧
      v = { s.withLink l { s.link l with strike := none } with
            arb := { s.arb with granted := s.arb.granted - k.units } })) ∧
  (∀ (j : Nat) (o : Op) (s : State), s.opByJob j = some o →
    (o.stage = .AWAIT_OPEN → o.openWait.isSome = true →
      exec (.openWaitExpiry j) s = .next (s.endOp o .NOT_OPENED).pass) ∧
    (o.stage = .AWAIT_CONFIRM → o.confirm.isSome = true →
      exec (.confirmLimitExpiry j) s = .next (s.endOp o .UNCONFIRMED).pass) ∧
    (o.ajar.isSome = true → o.stage = .OPEN → o.ajarPosted = false →
      exec (.ajarLimitExpiry j) s = .next { s with
        hce := { s.hce with ops := s.hce.ops.map fun y =>
          if y.job = j then { y with ajar := none, ajarPosted := true } else y }
        kli := (s.kli.post { kind := .HATCH_AJAR, minute := s.now, job := some o.job, comp := some o.comp,
                             station := some o.station }) }))

/-! ### The stages and the end of a cycle -/

/-- The first STATUS of an acknowledged strike's slot that shows strike-done ends the strike: its units go back, and its
operation, unless it has ended, leaves STRIKING by that STATUS's hatch reading, open to OPEN, closed to AWAIT_OPEN, or to
AWAIT_CONFIRM where an open reading since STRIKE_ACK has left its opened mark; a settled occupancy reading of the same
STATUS may then end it.  A reading moves an operation: AWAIT_OPEN with the hatch open to OPEN, OPEN with it closed to
AWAIT_CONFIRM, AWAIT_CONFIRM with it open back to OPEN; a settled occupancy reading with the hatch closed ends it by its purpose.  A
STATUS gives a channel's reading to the operation at STRIKING or later whose kept address it is, else to the
compartment wired there: its operation at STRIKING or later, the start-up audit, or the forced-hatch test.  That test
finds an opening the hatch memory does not hold, adds FORCED and posts HATCH_FORCED, flagged under a late-strike mark;
under that mark it is made beside an operation too (after its reading: log entry 35).  That a strike whose slot left
PRESENT and is PRESENT again ends by such a STATUS too (log entry 39), and that an open reading outside STRIKING leaves
the opened mark as it was (log entry 53), are the model's choices.  The mark goes with a closed
reading once the strike's units have gone back. -/
def Obligations.ReadingsDriveTheStages : Prop :=
  (∀ (o : Op) (r : Reading) (s : State), s.opByJob o.job = some o →
    let lim := s.scu.config.ajar.get (s.comp o.comp).cls
    let out : CycleOutcome := match o.purpose with
      | .DEPOSIT | .RETURN_DROP => if r.occupied then .COMPLETED else .LEFT_EMPTY
      | .COLLECT | .SWEEP | .SERVICE_REMOVE => if r.occupied then .LEFT_OCCUPIED else .COMPLETED
      | .SERVICE_OPEN => .COMPLETED
    let t := s.opReading o r
    (o.stage = .AWAIT_OPEN → r.hatchOpen = true →
      t.opByJob o.job = some { o with stage := .OPEN, openWait := none, ajar := some lim } ∧
      t.kli = s.kli.post { kind := .HATCH_OPENED, minute := s.now, job := some o.job, comp := some o.comp,
                           station := some o.station, purpose := some (some o.purpose) } ∧
      t = { s with hce := t.hce, kli := t.kli }) ∧
    (o.stage = .AWAIT_OPEN → r.hatchOpen = false → t = s) ∧
    (o.stage = .STRIKING → s.acked o = true → r.hatchOpen = true →
      t.opByJob o.job = some { o with opened := true } ∧ t = { s with hce := t.hce }) ∧
    (o.stage = .STRIKING → s.acked o = false ∨ r.hatchOpen = false → t = s) ∧
    (o.stage = .OPEN → r.hatchOpen = true → t = s) ∧
    (o.stage = .OPEN → r.hatchOpen = false → r.settled = true → ∃ w : State, w = { s with hce := w.hce } ∧
      w.opByJob o.job = some { o with stage := .AWAIT_CONFIRM, confirm := some 10 } ∧
      t = w.endOp { o with stage := .AWAIT_CONFIRM, confirm := some 10 } out r.occupied) ∧
    (o.stage = .OPEN → r.hatchOpen = false → r.settled = false →
      t.opByJob o.job = some { o with stage := .AWAIT_CONFIRM, confirm := some 10 } ∧ t = { s with hce := t.hce }) ∧
    (o.stage = .AWAIT_CONFIRM → r.hatchOpen = true →
      t.opByJob o.job = some { o with stage := .OPEN, confirm := none } ∧ t = { s with hce := t.hce }) ∧
    (o.stage = .AWAIT_CONFIRM → r.hatchOpen = false → r.settled = false → t = s) ∧
    (o.stage = .AWAIT_CONFIRM → r.hatchOpen = false → r.settled = true → t = s.endOp o out r.occupied)) ∧
  (∀ (l k ch : Nat) (rs : List Reading) (r : Reading) (s : State), (s.link l).line = some (.poll k) →
    (s.slot l k).state = .PRESENT → (rs.take (min 16 (s.slot l k).channels))[ch]? = some r →
    s.scu.phase ≠ some .AUDIT → (s.hce.ops.map (·.job)).Nodup →
    (∀ j, j ≠ ch → s.opAtChannel l k j = none ∧ s.reverse ⟨l, k, j⟩ = none) →
    let u := s.routeReading l k ch r
    ∃ v : State, exec (.boardStatus l k rs false) s = .next v.pass ∧ v = { u with links := v.links } ∧
      ∀ m, (v.link m).prio = (u.link m).prio ∧ (v.link m).bulk = (u.link m).bulk) ∧
  (∀ (l k : Nat) (x : Strike) (rs : List Reading) (r : Reading) (s : State), (s.link l).line = some (.poll k) →
    (s.slot l k).state = .PRESENT → (s.link l).strike = some x → x.slot = k → x.ackMinute.isSome = true →
    (rs.take (min 16 (s.slot l k).channels))[x.channel]? = some r → s.scu.phase ≠ some .AUDIT →
    (s.hce.ops.map (·.job)).Nodup →
    (∀ j, j ≠ x.channel → s.opAtChannel l k j = none ∧ s.reverse ⟨l, k, j⟩ = none) →
    let u := s.routeReading l k x.channel r
    ∃ v : State, exec (.boardStatus l k rs true) s = .next v.pass ∧ (v.link l).strike = none ∧
      v.arb = { s.arb with granted := s.arb.granted - x.units } ∧
      (x.opEnded = true → u.opByJob x.job = none → v = { u with links := v.links, arb := v.arb } ∧
        ∀ m, (v.link m).prio = (u.link m).prio ∧ (v.link m).bulk = (u.link m).bulk) ∧
      (∀ o, x.opEnded = false → s.opAtChannel l k x.channel = some o → o.job = x.job → o.stage = .STRIKING →
        (s.slot l k).lateMark x.channel = false →
        let op : Op := { o with opened := true, stage := .OPEN, openWait := none
                                ajar := some (s.scu.config.ajar.get (s.comp o.comp).cls) }
        let co : Op := { op with stage := .AWAIT_CONFIRM, confirm := some 10 }
        let kli := s.kli.post { kind := .HATCH_OPENED, minute := s.now, job := some o.job, comp := some o.comp,
                                station := some o.station, purpose := some (some o.purpose) }
        let only := fun (w : State) => w = { s with links := w.links, arb := w.arb, hce := w.hce, kli := w.kli }
        (r.hatchOpen = true → v.opByJob o.job = some op ∧ v.kli = kli ∧ only v) ∧
        (r.hatchOpen = false → o.opened = false → v.kli = s.kli ∧ only v ∧
          v.opByJob o.job = some { o with stage := .AWAIT_OPEN, openWait := some s.scu.config.openWait }) ∧
        (r.hatchOpen = false → o.opened = true →
          (r.settled = false → v.opByJob o.job = some co ∧ v.kli = kli ∧ only v) ∧
          (r.settled = true → ∃ w : State, w.opByJob o.job = some co ∧ w.kli = kli ∧ only w ∧
            v = w.endOp co (settledOutcome o.purpose r.occupied) r.occupied)))) ∧
  (∀ (l k ch : Nat) (r : Reading) (s : State),
    let t := s.routeReading l k ch r
    let late := fun (v : State) (n : Nat) =>
      if (s.slot l k).lateMark ch then v.forcedTest l k ch n r.hatchOpen else v
    (∀ o, s.opAtChannel l k ch = some o → t = late (s.opReading o r) o.comp ∧ o ∈ s.hce.ops ∧ o.link = l ∧
      o.slot = k ∧ o.channel = ch ∧ o.stage.striking = true) ∧
    (s.opAtChannel l k ch = none →
      (∀ o ∈ s.hce.ops, o.link = l → o.slot = k → o.channel = ch → o.stage.striking = false) ∧
      (s.reverse ⟨l, k, ch⟩ = none → t = s) ∧
      (∀ n, s.reverse ⟨l, k, ch⟩ = some n →
        (s.scu.phase = some .AUDIT → t = s.auditRead n r) ∧
        (s.scu.phase = none →
          (∀ o, s.opOn n = some o → o.stage.striking = true → t = late (s.opReading o r) o.comp) ∧
          ((∀ o, s.opOn n = some o → o.stage.striking = false) → t = s.forcedTest l k ch n r.hatchOpen))))) ∧
  (∀ (l k ch n : Nat) (b : Bool) (s : State),
    (b = false ∨ (s.slot l k).memory ch = .opened → s.forcedTest l k ch n b = s) ∧
    (b = true → (s.slot l k).memory ch ≠ .opened → s.forcedTest l k ch n b = (s.addCause n .FORCED).post
      { kind := .HATCH_FORCED, minute := s.now, comp := some n,
        flags := if (s.slot l k).lateMark ch then some { lateStrike := true } else none })) ∧
  (∀ (l k ch : Nat) (r : Reading) (s : State),
    let carried := ∃ x, (s.link l).strike = some x ∧ x.slot = k ∧ x.channel = ch ∧ x.late = true
    let m := ((s.takeReading l k ch r).slot l k).lateMark ch
    (r.hatchOpen = false → ¬ carried → m = false) ∧
    (r.hatchOpen = true ∨ carried → m = (s.slot l k).lateMark ch))

/-- The end of an operation other than a SWEEP frees its entry, clears the cycle purpose, posts CYCLE_DONE and changes
its compartment by purpose and outcome: a deposit is confirmed, confirmed unverified or undone; a collection or
removal retires the parcel and its code; a parcel left behind opens the retry window; a service opening clears or adds
OCCUPANCY_MISMATCH, with or without a parcel there.  A return drop undone after its fee was approved asks for the
reversal, or is flagged REFUND_NOT_ISSUED where 8 stand.  The end of a SWEEP clears the tag owner, retires the parcel at
COMPLETED with PARCEL_SWEPT, and is counted in its run, which ends with SWEEP_DONE as nothing is left of it; the run of its station is topped up
before that of the other. -/
def Obligations.EndsSettleTheCompartment : Prop :=
  (∀ (o : Op) (out : CycleOutcome) (occ : Bool) (x : Parcel) (s : State),
    o.purpose ≠ .SWEEP → (out = .HELD → o.stage ≠ .AWAIT_PAYMENT) → isComp o.comp → (s.comp o.comp).parcel = some x →
    let n := o.comp
    let c := { s.comp n with purpose := none }
    let t := s.endOp o out occ
    (t.hce.ops = s.hce.ops.filter (fun y => y.job != o.job) ∧ s.otherComps t n ∧ t.sects = s.sects ∧
      t.hatchMap = s.hatchMap ∧ t.arb = s.arb ∧ t.swu = s.swu ∧ t.scu = s.scu ∧ t.gates = s.gates ∧
      (s.kli.queue.length < 64 → ∃ e ∈ t.kli.queue, e.kind = .CYCLE_DONE ∧ e.comp = some n ∧ e.job = some o.job ∧
        e.outcome = some out)) ∧
    (o.purpose = .DEPOSIT ∨ o.purpose = .RETURN_DROP →
      let st := match x.kind with | .DELIVERY => CompState.LOADED | .RETURN => .RETURN_LOADED
      let y := { x with pending := false, depositMinute := s.now, prior := none }
      (out = .COMPLETED → t.comp n = { c with state := st, parcel := some y }) ∧
      (out = .UNCONFIRMED → t.comp n = { c with
        state := st, parcel := some { y with unverified := true }, causes := c.causes.add .AUDIT_REQUIRED }) ∧
      (out ≠ .COMPLETED → out ≠ .UNCONFIRMED →
        (∀ r, x.prior = some (.reserved r) → s.now < r.expiry →
          t.comp n = { c with state := .RESERVED, parcel := none, reservation := some r }) ∧
        (x.prior = some .free ∨ (∃ r, x.prior = some (.reserved r) ∧ r.expiry ≤ s.now) →
          t.comp n = { c with state := .FREE, parcel := none }))) ∧
    (o.purpose = .COLLECT ∨ o.purpose = .SERVICE_REMOVE →
      (out = .COMPLETED → t.comp n = { c with state := .FREE, parcel := none, tagOwner := none } ∧
        ∀ k, x.code = some k → t.alloc.retired =
          s.alloc.retired.drop (if s.alloc.retired.length < 128 then 0 else 1) ++ [{ code := k, minute := s.now }]) ∧
      (out = .UNCONFIRMED → t.comp n = { c with causes := c.causes.add .AUDIT_REQUIRED }) ∧
      (out = .LEFT_OCCUPIED → o.purpose = .COLLECT →
        t.comp n = { c with parcel := some { x with retryUntil := some (min (s.now + 15) 4294967295) } }) ∧
      (out ≠ .COMPLETED → out ≠ .UNCONFIRMED → out ≠ .LEFT_OCCUPIED → t.comp n = c)) ∧
    (o.purpose = .SERVICE_OPEN →
      (out = .COMPLETED → occ = decide (c.state = .LOADED ∨ c.state = .RETURN_LOADED) → c.state ≠ .DEPOSITING →
        t.comp n = { c with
          causes := { c.causes with auditRequired := false, mismatch := false, openAtStart := false }
          parcel := some { x with unverified := false } }) ∧
      (out = .COMPLETED → occ ≠ decide (c.state = .LOADED ∨ c.state = .RETURN_LOADED) →
        t.comp n = { c with causes := { c.causes with mismatch := true } }) ∧
      (out = .UNCONFIRMED → t.comp n = { c with causes := c.causes.add .AUDIT_REQUIRED }))) ∧
  (∀ (o : Op) (occ : Bool) (s : State), o.purpose = .SERVICE_OPEN → isComp o.comp → (s.comp o.comp).parcel = none →
    (s.comp o.comp).state = .FREE ∨ (s.comp o.comp).state = .RESERVED ∨ (s.comp o.comp).state = .OUT_OF_SERVICE →
    let c := s.comp o.comp
    (s.endOp o .COMPLETED occ).comp o.comp = { c with
      purpose := none
      causes := if occ then { c.causes with mismatch := true }
        else { c.causes with auditRequired := false, mismatch := false, openAtStart := false } }) ∧
  (∀ (o : Op) (out : CycleOutcome) (occ : Bool) (x : Parcel) (ref a : Nat) (s : State), o.purpose = .RETURN_DROP →
    o.stage ≠ .AWAIT_PAYMENT → o.chargeRef = some ref → o.amount = some a → out ≠ .COMPLETED → out ≠ .UNCONFIRMED →
    isComp o.comp → (s.comp o.comp).parcel = some x →
    let t := s.endOp o out occ
    (s.pbc.reversals.length < 8 → t.pbc.reversals = s.pbc.reversals ++
      [{ ref := ref, amount := a, reader := x.chargeReader.getD o.station, comp := o.comp, origin := .job o.job }]) ∧
    (8 ≤ s.pbc.reversals.length → t.pbc = s.pbc ∧
      (s.kli.queue.length < 64 → ∃ e ∈ t.kli.queue, e.kind = .CYCLE_DONE ∧ e.job = some o.job ∧
        e.chargeRef = some ref ∧ e.amount = some a ∧ ∃ f, e.flags = some f ∧ f.refundNotIssued = true))) ∧
  (∀ (o : Op) (out : CycleOutcome) (occ : Bool) (x : Parcel) (k : Courier) (r : Run) (s : State), o.purpose = .SWEEP →
    courierOf o.station = some k → (out = .HELD → o.stage ≠ .AWAIT_PAYMENT) → isComp o.comp →
    (s.comp o.comp).parcel = some x → (s.side k).run = some r → r.pending = [] → (s.side k.other).run = none →
    s.kli.queue.length ≤ 61 →
    let n := o.comp
    let c := { s.comp n with purpose := none, tagOwner := none }
    let t := s.endOp o out occ
    let due := if x.kind = .DELIVERY then (s.quoteAt s.now x).due else 0
    let r' : Run := match out with
      | .COMPLETED => { r with completed := r.completed + 1, unpaid := r.unpaid + due }
      | .LEFT_OCCUPIED | .UNCONFIRMED => { r with leftOccupied := r.leftOccupied + 1 }
      | .NOT_OPENED | .STRIKE_FAILED | .NO_POWER | .ABORTED_LINK => { r with notOpened := r.notOpened + 1 }
      | .CANCELLED => { r with cancelled := r.cancelled + 1 }
      | _ => { r with skipped := r.skipped + 1 }
    let others := ∃ y ∈ s.hce.ops, y.job ≠ o.job ∧ y.purpose = .SWEEP ∧ y.station = k.station
    (out = .COMPLETED → t.comp n = { c with state := .FREE, parcel := none } ∧
      (∃ e ∈ t.kli.queue, e.kind = .PARCEL_SWEPT ∧ e.comp = some n ∧ e.paid = some x.paid ∧ e.amount = some due) ∧
      ∀ w, x.code = some w → t.alloc.retired =
        s.alloc.retired.drop (if s.alloc.retired.length < 128 then 0 else 1) ++ [{ code := w, minute := s.now }]) ∧
    (out = .UNCONFIRMED → t.comp n = { c with causes := c.causes.add .AUDIT_REQUIRED }) ∧
    (out ≠ .COMPLETED → out ≠ .UNCONFIRMED → t.comp n = c) ∧ s.otherComps t n ∧
    t.hce.ops = s.hce.ops.filter (fun y => y.job != o.job) ∧ (t.side k).tags = (s.side k).tags ∧
    t.side k.other = s.side k.other ∧ (others → (t.side k).run = some r') ∧
    (¬ others → (t.side k).run = none ∧ ∃ e ∈ t.kli.queue, e.kind = .SWEEP_DONE ∧ e.station = some k.station ∧
      e.job = some r.job ∧ e.amount = some r'.unpaid ∧
      e.counts = some ⟨r'.completed, r'.leftOccupied, r'.notOpened, r'.cancelled, r'.skipped⟩)) ∧
  (∀ (o : Op) (out : CycleOutcome) (occ : Bool) (k : Courier) (r : Run) (s : State), o.purpose = .SWEEP →
    courierOf o.station = some k → (out = .HELD → o.stage ≠ .AWAIT_PAYMENT) → (s.side k).run = some r →
    ∃ (w : State) (r' : Run), s.endOp o out occ = (w.topUpEnd k).topUpEnd k.other ∧ (w.side k).run = some r' ∧
      r'.pending = r.pending ∧ w.hce.ops = s.hce.ops.filter (fun y => y.job != o.job) ∧
      r'.completed + r'.leftOccupied + r'.notOpened + r'.cancelled + r'.skipped =
        r.completed + r.leftOccupied + r.notOpened + r.cancelled + r.skipped + 1)

/-! ### Minutes and start-up -/

/-- A minute raises the counter, persists it at a quarter hour and, outside the start-up phases, expires reservations,
ages retired codes, removes lockouts, takes a switch that is due and marks overdue parcels at a quarter hour; at its
greatest value the counter stands and nothing is handed on (DEDUCED, log entry 25).  The full pass that ends last
on the fitted links begins the audit, which waits for every compartment in a section that resolves.  The start-up
audit's reading of a compartment it waits for: open adds OPEN_AT_START, closed and settled settles the compartment from
its cycle purpose.  The audit limit ends the start-up phases: what was left unread is settled as unread, has no purpose
left and, in an enabled section, is marked AUDIT_REQUIRED; RECONCILE and the end of start-up follow in the same
change (DEDUCED, log entry 24), with STARTUP_DONE and the bank minute handed on.  A minute handed on posts RESERVATION_EXPIRED,
TARIFF_SWITCHED and PARCEL_OVERDUE for what it finds due, where the event queue has room. -/
def Obligations.MinutesAndTheAuditLimit : Prop :=
  (∀ s : State, s.scu.minute < 4294967295 →
    let m := s.scu.minute + 1
    ∃ t, exec .minuteTick s = .next t ∧
      t.scu = { s.scu with minute := m, persisted := if m % 15 = 0 then m else s.scu.persisted } ∧
      (s.scu.phase ≠ none → t = { s with scu := t.scu }) ∧ (s.scu.phase = none → s.handedOn t m (m % 15 = 0))) ∧
  (∀ s : State, s.scu.minute = 4294967295 → exec .minuteTick s = .next s) ∧
  (∀ (n : Nat) (r : Reading) (s : State),
    let t := s.auditRead n r
    let c := s.comp n
    let own := { c with purpose := none }
    let opens := c.purpose = some .DEPOSIT ∨ c.purpose = some .RETURN_DROP
    let taken := c.purpose = some .COLLECT ∨ c.purpose = some .SWEEP ∨ c.purpose = some .SERVICE_REMOVE
    (n ∉ s.scu.auditWait → t = s) ∧
    (r.hatchOpen = false → r.settled = false → t = s) ∧
    (n ∈ s.scu.auditWait → isComp n →
      (r.hatchOpen = true → t = s.withComp n { c with causes := c.causes.add .OPEN_AT_START }) ∧
      (r.hatchOpen = false → r.settled = true →
        t.scu = { s.scu with auditWait := s.scu.auditWait.filter (· != n) } ∧ s.otherComps t n ∧
        (t.comp n).purpose = none ∧
        (∀ x, c.parcel = some x → opens → r.occupied = true → t.comp n = { own with
          state := match x.kind with | .DELIVERY => CompState.LOADED | .RETURN => .RETURN_LOADED
          parcel := some { x with pending := false, depositMinute := s.now, prior := none, unverified := true } }) ∧
        (∀ x, c.parcel = some x → (opens ∧ r.occupied = false) ∨ (c.purpose = none ∧ c.state = .DEPOSITING) →
          (∀ v, x.prior = some (.reserved v) → s.now < v.expiry →
            t.comp n = { own with state := .RESERVED, parcel := none, reservation := some v }) ∧
          (x.prior = some .free ∨ (∃ v, x.prior = some (.reserved v) ∧ v.expiry ≤ s.now) →
            t.comp n = { own with state := .FREE, parcel := none })) ∧
        (taken → r.occupied = true → t.comp n = own) ∧
        (∀ x, c.parcel = some x → taken → r.occupied = false →
          t.comp n = { own with state := .FREE, parcel := none, tagOwner := none }) ∧
        (c.purpose = none → c.state ≠ .DEPOSITING → t = { s.withComp n { c with
          causes := if r.occupied = decide (c.state = .LOADED ∨ c.state = .RETURN_LOADED) then c.causes
            else c.causes.add .OCCUPANCY_MISMATCH } with scu := t.scu }) ∧
        (c.purpose = some .SERVICE_OPEN → c.state ≠ .DEPOSITING → t.comp n = { own with
          causes := if r.occupied = decide (c.state = .LOADED ∨ c.state = .RETURN_LOADED) then c.causes
            else c.causes.add .OCCUPANCY_MISMATCH }) ∧
        (c.purpose ≠ none ∨ c.state = .DEPOSITING → s.kli.queue.length < 64 → ∃ e ∈ t.kli.queue,
          e.kind = .CYCLE_DONE ∧ e.comp = some n ∧ e.outcome = some .RECOVERED ∧ e.purpose = some c.purpose)))) ∧
  (∀ s : State, s.scu.phase = some .AUDIT → s.scu.auditTimer = true →
    ∃ t, exec .auditLimitExpiry s = .next t ∧
      t.scu = { s.scu with phase := none, auditWait := [], auditUnread := [], auditTimer := false } ∧
      (∀ n, isComp n → n ∈ s.scu.auditWait ∨ n ∈ s.scu.auditUnread →
        (t.comp n).purpose = none ∧ (s.enabledRec (s.comp n) = true → (t.comp n).causes.auditRequired = true)) ∧
      t.links = s.links ∧ t.hce = s.hce ∧ t.sects = s.sects ∧ t.hatchMap = s.hatchMap ∧ t.arb = s.arb ∧
      t.swu = s.swu ∧ t.capture = s.capture) ∧
  (∀ s : State, s.scu.phase = some .AUDIT → s.scu.auditTimer = true →
    let left := fun n => isComp n ∧ (n ∈ s.scu.auditWait ∨ n ∈ s.scu.auditUnread)
    ∃ v : State, exec .auditLimitExpiry s = .next v.reconcile.endStartup ∧
      v.scu = { s.scu with phase := some .RECONCILE, auditWait := [], auditUnread := [], auditTimer := false } ∧
      (∀ r, (v.reader r).charge = (s.reader r).charge) ∧ s.pbc.reversals <+: v.pbc.reversals ∧
      (∀ n, ¬ left n → v.comp n = s.comp n) ∧
      ∀ n, left n →
        let c := s.comp n
        let own := { c with
          purpose := none
          causes := if s.enabledRec c then c.causes.add .AUDIT_REQUIRED else c.causes }
        (∀ x, c.parcel = some x → c.purpose = some .DEPOSIT ∨ c.purpose = some .RETURN_DROP →
          v.comp n = { own with
            state := match x.kind with | .DELIVERY => CompState.LOADED | .RETURN => .RETURN_LOADED
            parcel := some { x with pending := false, depositMinute := s.now, prior := none, unverified := true } }) ∧
        (c.purpose = some .COLLECT ∨ c.purpose = some .SWEEP ∨ c.purpose = some .SERVICE_REMOVE ∨
          c.purpose = some .SERVICE_OPEN ∨ (c.purpose = none ∧ c.state ≠ .DEPOSITING) → v.comp n = own) ∧
        (∀ x, c.parcel = some x → c.purpose = none → c.state = .DEPOSITING →
          (∀ w, x.prior = some (.reserved w) → s.now < w.expiry →
            v.comp n = { own with state := .RESERVED, parcel := none, reservation := some w }) ∧
          (x.prior = some .free ∨ (∃ w, x.prior = some (.reserved w) ∧ w.expiry ≤ s.now) →
            v.comp n = { own with state := .FREE, parcel := none }))) ∧
  (∀ s : State,
    let u := { s with scu := { s.scu with phase := none } }
    let t := s.endStartup
    t.scu = u.scu ∧ u.handedOn t s.now True ∧
      (s.kli.queue.length < 64 → ∃ e ∈ t.kli.queue, e.kind = .STARTUP_DONE ∧ e.mode = some s.scu.mode)) ∧
  (∀ (l : Nat) (p : Pass) (s : State), (s.link l).line = some .rollCall → (s.link l).enumPass = some p →
    p.full = true →
    ∃ v : State, exec (.boardResponseTimeout l) s = .next (v.reportPass l).pass ∧ v.scu = s.scu ∧
      v.comps = s.comps ∧ v.sects = s.sects ∧ v.pbc = s.pbc ∧ ∀ m, (v.link m).reported = (s.link m).reported) ∧
  (∀ (l : Nat) (s : State), s.linkFitted l = true →
    let v := s.withLink l { s.link l with reported := true }
    (s.scu.phase ≠ some .ENUMERATE → s.reportPass l = s) ∧
    (s.scu.phase = some .ENUMERATE →
      ((∃ m, m ≠ l ∧ s.linkFitted m = true ∧ (s.link m).reported = false) → s.reportPass l = v) ∧
      ((∀ m, m ≠ l → s.linkFitted m = true → (s.link m).reported = true) →
        s.scu.auditWait = [] → s.scu.auditUnread = [] → v.auditBegun (s.reportPass l))))

/-! ### The payment bus -/

/-- The free bus sends again a message that went unanswered, else the head of the first list in turn of a reader that
is not OFFLINE, else POLL to an OFFLINE reader whose poll timer has expired, else POLL to the first that is not
OFFLINE.  CHARGE_TAKEN makes the record TAKEN, READER_BUSY puts the message at the tail and leaves a CHARGE with its
offer mark clear, NOTHING_YET answers POLL and RESULT_ACK.  That the turn begins at P1 where no exchange has been made,
and that OFFLINE readers whose poll timers have expired are taken in it, is the model's choice (log entry 43); that a
message is sent again also where it is no longer due is DEDUCED (log entry 26). -/
def Obligations.BusExchangesAndTheirAnswers : Prop :=
  (∀ (s : State), s.pbc.line = none →
    let sent := fun (b : Pbc) (r : Nat) (m : BusMsg) => { b with line := some (r, m), retry := none, lastReader := r }
    let quiet := fun q => (s.reader q).state = .OFFLINE ∨ (s.reader q).outgoing = []
    (∀ r m, s.pbc.retry = some (r, m) → exec .busExchangeStart s = .next { s with pbc := sent s.pbc r m }) ∧
    (s.pbc.retry = none → ∀ l r l', s.readerTurn = l ++ r :: l' →
      (∀ m ms, (∀ q ∈ l, quiet q) → (s.reader r).state ≠ .OFFLINE → (s.reader r).outgoing = m :: ms →
        exec .busExchangeStart s = .next { s with pbc := sent s.pbc r m }) ∧
      ((∀ q ∈ s.readerTurn, quiet q) →
        (∀ q ∈ l, ¬ ((s.reader q).state = .OFFLINE ∧ (s.reader q).pollTimer = .expired)) →
        (s.reader r).state = .OFFLINE → (s.reader r).pollTimer = .expired →
        exec .busExchangeStart s = .next { s with pbc := sent { s.pbc with
          readers := tput s.pbc.readers r { s.reader r with pollTimer := .running } } r .POLL }) ∧
      ((∀ q ∈ s.readerTurn, quiet q ∧ ¬ ((s.reader q).state = .OFFLINE ∧ (s.reader q).pollTimer = .expired)) →
        (∀ q ∈ l, (s.reader q).state = .OFFLINE) → (s.reader r).state ≠ .OFFLINE →
        exec .busExchangeStart s = .next { s with pbc := sent s.pbc r .POLL }))) ∧
  (∀ (r : Nat) (m : BusMsg) (s : State), s.pbc.line = some (r, m) →
    let x := { s.reader r with unanswered := 0, outgoing := (s.reader r).outgoing.erase m }
    let b := { s.pbc with line := none, retry := none, lastReader := r }
    (∀ c, m = .CHARGE c.ref c.amount → (s.reader r).charge = some c → c.phase = .OFFERED →
      exec (.chargeTaken r) s = .next { s with pbc := { b with
        readers := tput s.pbc.readers r { x with charge := some { c with phase := .TAKEN, offer := true } } } }) ∧
    ((∃ ref a, m = .CHARGE ref a ∨ m = .ABANDON ref ∨ m = .REVERSE ref a) → m ∈ (s.reader r).outgoing →
      exec (.readerBusy r) s = .next { s with pbc := { b with readers := tput s.pbc.readers r { x with
        outgoing := x.outgoing ++ [m]
        charge := (s.reader r).charge.map fun c =>
          if m = .CHARGE c.ref c.amount ∧ c.phase = .OFFERED then { c with offer := false } else c } } }) ∧
    ((m = .POLL ∧ (s.reader r).state ≠ .OFFLINE) ∨ (∃ ref, m = .RESULT_ACK ref) →
      exec (.nothingYet r) s = .next { s with pbc := { b with readers := tput s.pbc.readers r x } }) ∧
    (m = .POLL → 1 ≤ r → r ≤ 4 → (s.reader r).state = .OFFLINE →
      ∃ t, exec (.nothingYet r) s = .next t ∧ (t.reader r).pollTimer = .stopped ∧
        (∀ c, (s.reader r).charge = some c → (t.reader r).state = .ABANDONING ∧
          ∃ y ∈ (t.reader r).outgoing, y.isAbandon = true) ∧
        ((s.reader r).charge = none → (∀ v ∈ s.pbc.reversals, v.reader ≠ r) → (t.reader r).state = .IDLE) ∧
        ((s.reader r).charge = none → (∃ v ∈ s.pbc.reversals, v.reader = r) → (t.reader r).state = .REVERSING ∧
          ∃ y ∈ (t.reader r).outgoing, y.isReverse = true) ∧
        t = { s with pbc := t.pbc }))

/-- A RESULT to POLL or ABANDON settles the charge record it names: the record goes, RESULT_ACK heads the list and
the reader rests.  APPROVED credits a delivery and queues its collection, or pays a return; any other result ends the
operation, and undoes the parcel of a return drop.  A late APPROVED credits the parcel it still finds, else asks for a
reversal, or is flagged REFUND_NOT_ISSUED where 8 stand.  ABANDONED drops the record;
REVERSED and REVERSE_FAILED remove the reversal entry.  A RESULT whose reference matches no record is acknowledged and
posted UNMATCHED, and only acknowledged where it repeats the last settled one.  A RESULT to the POLL of an OFFLINE reader
brings it back: its late record settled, or, with any other reference, acknowledged and the reader ABANDONING, REVERSING
or IDLE by what stands on it.  That an unmatched RESULT does not become the last settled one, and that it answers an
ABANDON of another reference, is DEDUCED (log entry 28), and so is the one ABANDON or REVERSE of a reader that returns
(log entry 27). -/
def Obligations.ResultsSettleTheCharges : Prop :=
  (∀ (r ref j : Nat) (m : BusMsg) (c : Charge) (o : Op) (x : Parcel) (res : PayResult) (app : Text) (s : State),
    s.pbc.line = some (r, m) → m = .POLL ∨ m.isAbandon = true → (s.reader r).state ≠ .OFFLINE →
    (s.reader r).charge = some c → c.ref = ref → c.phase ≠ .ABANDON_DUE → c.job = some j → s.opByJob j = some o →
    o.stage = .AWAIT_PAYMENT → o.purpose ≠ .SWEEP → o.comp = c.comp → isComp c.comp → (s.comp c.comp).parcel = some x →
    x.chargeRef = some ref → (s.slot o.link o.slot).state = .PRESENT →
    ∃ v : State, exec (.result r ref res app) s = .next v.pass ∧ s.otherComps v c.comp ∧
      (v.reader r).charge = none ∧ (v.reader r).lastSettled = some ref ∧
      (v.reader r).outgoing.head? = some (.RESULT_ACK ref) ∧
      ((∀ e ∈ s.pbc.reversals, e.reader ≠ r) → (v.reader r).state = .IDLE) ∧
      (res = .APPROVED → c.ident.kind = .DELIVERY → o.purpose = .COLLECT →
        v.comp c.comp = { s.comp c.comp with parcel := some { x with
          paid := x.paid + c.amount, chargeRef := none, chargeReader := none
          paidThrough := some (min (s.now + (s.parcelPage x).grace) 4294967295) } } ∧
        v.opByJob j = some { o with stage := .QUEUED, chargeRef := none, amount := none } ∧
        (v.link o.link).prio = (s.link o.link).prio ++ [j]) ∧
      (res = .APPROVED → c.ident.kind = .RETURN → o.purpose = .RETURN_DROP →
        v.comp c.comp = { s.comp c.comp with parcel := some { x with paid := c.amount } } ∧
        v.opByJob j = some { o with stage := .QUEUED } ∧
        (v.link o.link).prio = (s.link o.link).prio ++ [j]) ∧
      (res ≠ .APPROVED → o.purpose = .COLLECT →
        v.comp c.comp = { s.comp c.comp with
          purpose := none, parcel := some { x with chargeRef := none, chargeReader := none } } ∧
        v.hce.ops = s.hce.ops.filter fun y => y.job != j) ∧
      (res ≠ .APPROVED → o.purpose = .RETURN_DROP →
        v.hce.ops = s.hce.ops.filter (fun y => y.job != j) ∧ v.pbc.reversals = s.pbc.reversals ∧
        (∀ w, x.prior = some (.reserved w) → s.now < w.expiry → v.comp c.comp = { s.comp c.comp with
          purpose := none, state := .RESERVED, parcel := none, reservation := some w }) ∧
        (x.prior = some .free ∨ (∃ w, x.prior = some (.reserved w) ∧ w.expiry ≤ s.now) → v.comp c.comp =
          { s.comp c.comp with purpose := none, state := .FREE, parcel := none })) ∧
      (s.kli.queue.length < 63 →
        (∃ e ∈ v.kli.queue, e.kind = .PAYMENT_RESULT ∧ e.job = some j ∧ e.chargeRef = some ref ∧
          e.amount = some c.amount ∧ e.result = some res) ∧
        (res ≠ .APPROVED → ∃ e ∈ v.kli.queue, e.kind = .CYCLE_DONE ∧ e.job = some j ∧
          e.outcome = some .PAYMENT_DECLINED))) ∧
  (∀ (r : Nat) (m : BusMsg) (c : Charge) (x : Parcel) (app : Text) (s : State),
    s.pbc.line = some (r, m) → m = .POLL ∨ m.isAbandon = true → (s.reader r).state ≠ .OFFLINE →
    (s.reader r).charge = some c → c.phase = .ABANDON_DUE → isComp c.comp → (s.comp c.comp).parcel = some x →
    let honoured := (s.comp c.comp).state = .LOADED ∧ x.kind = .DELIVERY ∧ x.code.isSome = true ∧
      x.code = c.ident.code ∧ x.depositMinute = c.ident.depositMinute
    ∃ v : State, exec (.result r c.ref .APPROVED app) s = .next v.pass ∧ (v.reader r).charge = none ∧
      s.otherComps v c.comp ∧ v.hce = s.hce ∧
      (honoured → v.comp c.comp = { s.comp c.comp with parcel := some { x with
          paid := x.paid + c.amount, chargeRef := none, chargeReader := none
          paidThrough := some (min (s.now + (s.parcelPage x).grace) 4294967295) } } ∧
        v.pbc.reversals = s.pbc.reversals) ∧
      (¬ honoured → s.pbc.reversals.length < 8 → v.pbc.reversals = s.pbc.reversals ++
        [{ ref := c.ref, amount := c.amount, reader := r, comp := c.comp, origin := .LATE_RESULT }]) ∧
      (¬ honoured → 8 ≤ s.pbc.reversals.length → v.pbc.reversals = s.pbc.reversals) ∧
      (¬ honoured → v.comp c.comp = { s.comp c.comp with parcel := some (if x.chargeRef = some c.ref
          then { x with chargeRef := none, chargeReader := none } else x) }) ∧
      (s.kli.queue.length < 64 → ∃ e ∈ v.kli.queue, e.kind = .LATE_RESULT ∧ e.chargeRef = some c.ref ∧
        e.amount = some c.amount ∧ (honoured → e.flags = some { honoured := true }) ∧
        (¬ honoured → e.flags = some (if s.pbc.reversals.length < 8 then { reversalQueued := true }
          else { refundNotIssued := true })))) ∧
  (∀ (r ref : Nat) (m : BusMsg) (res : PayResult) (app : Text) (s : State), s.pbc.line = some (r, m) →
    m = .POLL ∨ m.isAbandon = true → (∀ c, (s.reader r).charge = some c → c.ref ≠ ref) →
    let posted := s.kli.post
      { kind := .PAYMENT_RESULT, minute := s.now, reader := some r, chargeRef := some ref, result := some res,
        text := if res = .APPROVED then some app else none, flags := some { unmatched := true } }
    let kli := if (s.reader r).lastSettled = some ref then s.kli else posted
    ((s.reader r).state ≠ .OFFLINE → exec (.result r ref res app) s = .next { s with
        kli := kli
        pbc := { s.pbc with
          line := none, retry := none, lastReader := r
          readers := tput s.pbc.readers r { s.reader r with
            unanswered := 0
            outgoing := .RESULT_ACK ref :: ((s.reader r).outgoing.erase m).filter fun y => !y.isAck } } }.pass) ∧
    ((s.reader r).state = .OFFLINE → 1 ≤ r → r ≤ 4 →
      ∃ v : State, exec (.result r ref res app) s = .next v.pass ∧ v = { s with kli := kli, pbc := v.pbc } ∧
        (v.reader r).pollTimer = .stopped ∧ (v.reader r).outgoing.head? = some (.RESULT_ACK ref) ∧
        (v.reader r).charge = (s.reader r).charge ∧ v.pbc.reversals = s.pbc.reversals ∧
        ((s.reader r).charge.isSome = true → (v.reader r).state = .ABANDONING ∧
          ∃ y ∈ (v.reader r).outgoing, y.isAbandon = true) ∧
        ((s.reader r).charge = none → (∀ e ∈ s.pbc.reversals, e.reader ≠ r) → (v.reader r).state = .IDLE) ∧
        ((s.reader r).charge = none → (∃ e ∈ s.pbc.reversals, e.reader = r) → (v.reader r).state = .REVERSING ∧
          ∃ y ∈ (v.reader r).outgoing, y.isReverse = true))) ∧
  (∀ (r : Nat) (c : Charge) (x : Parcel) (res : PayResult) (app : Text) (s : State),
    s.pbc.line = some (r, .POLL) → 1 ≤ r → r ≤ 4 → (s.reader r).state = .OFFLINE → (s.reader r).charge = some c →
    c.phase = .ABANDON_DUE → isComp c.comp → (s.comp c.comp).parcel = some x →
    let honoured := (s.comp c.comp).state = .LOADED ∧ x.kind = .DELIVERY ∧ x.code.isSome = true ∧
      x.code = c.ident.code ∧ x.depositMinute = c.ident.depositMinute
    ∃ v : State, exec (.result r c.ref res app) s = .next v.pass ∧ (v.reader r).charge = none ∧
      (v.reader r).lastSettled = some c.ref ∧ (v.reader r).outgoing.head? = some (.RESULT_ACK c.ref) ∧
      (v.reader r).pollTimer = .stopped ∧ s.otherComps v c.comp ∧ v.hce = s.hce ∧
      ((∀ e ∈ v.pbc.reversals, e.reader ≠ r) → (v.reader r).state = .IDLE) ∧
      ((∃ e ∈ v.pbc.reversals, e.reader = r) → (v.reader r).state = .REVERSING) ∧
      (res = .APPROVED → honoured → v.comp c.comp = { s.comp c.comp with parcel := some { x with
          paid := x.paid + c.amount, chargeRef := none, chargeReader := none
          paidThrough := some (min (s.now + (s.parcelPage x).grace) 4294967295) } }) ∧
      (res = .APPROVED → ¬ honoured → s.pbc.reversals.length < 8 → v.pbc.reversals = s.pbc.reversals ++
        [{ ref := c.ref, amount := c.amount, reader := r, comp := c.comp, origin := .LATE_RESULT }]) ∧
      (res = .APPROVED → ¬ honoured → 8 ≤ s.pbc.reversals.length → v.pbc.reversals = s.pbc.reversals ∧
        (s.kli.queue.length < 64 → ∃ e ∈ v.kli.queue, e.kind = .LATE_RESULT ∧ e.chargeRef = some c.ref ∧
          e.flags = some { refundNotIssued := true })) ∧
      (res ≠ .APPROVED → v.pbc.reversals = s.pbc.reversals ∧
        v.comp c.comp = { s.comp c.comp with parcel := some (if x.chargeRef = some c.ref
          then { x with chargeRef := none, chargeReader := none } else x) }) ∧
      (s.kli.queue.length < 64 → ∃ e ∈ v.kli.queue, e.kind = .LATE_RESULT ∧ e.chargeRef = some c.ref ∧
        e.amount = some c.amount ∧ e.result = some res)) ∧
  (∀ (r ref : Nat) (c : Charge) (s : State), s.pbc.line = some (r, .ABANDON ref) →
    (s.reader r).charge = some c → c.ref = ref →
    ∃ t, exec (.abandoned r) s = .next t ∧ (t.reader r).charge = none ∧ t.pbc.line = none ∧
      ((∀ e ∈ s.pbc.reversals, e.reader ≠ r) → (t.reader r).state = .IDLE) ∧ s.otherComps t c.comp ∧
      (∀ x, (t.comp c.comp).parcel = some x → x.chargeRef ≠ some ref) ∧ t = { s with comps := t.comps, pbc := t.pbc }) ∧
  (∀ (r ref a : Nat) (e : Reversal) (k : EventKind) (c : Instr) (s : State),
    (c = .reversed r ∧ k = .REVERSAL_DONE) ∨ (c = .reverseFailed r ∧ k = .REVERSAL_FAILED) →
    s.pbc.line = some (r, .REVERSE ref a) → s.pbc.reversals.find? (fun v => v.ref == ref) = some e →
    ∃ t, exec c s = .next t ∧ t.pbc.reversals = s.pbc.reversals.filter (fun v => v.ref != ref) ∧
      t.pbc.line = none ∧ t = { s with pbc := t.pbc, kli := t.kli } ∧
      (s.kli.queue.length < 64 → ∃ y, t.kli.queue = s.kli.queue ++ [y] ∧ y.kind = k ∧ y.chargeRef = some e.ref ∧
        y.amount = some e.amount ∧ y.comp = some e.comp))

/-- A message that a reader leaves unanswered is sent again; the third makes the reader OFFLINE with its poll timer
running and ends an operation that waits for its charge.  The record of such a charge is then dropped where it is OFFERED
with its offer mark clear, which the loss of that CHARGE sets, and else becomes ABANDON_DUE; any other record stays, and
only an ABANDON or REVERSE stays in the outgoing list.  The poll timer expires once.  The payment timeout ends the
operation and hands the charge over: dropped where it was never offered, else to be abandoned.  RECONCILE expires the
poll timer of every fitted reader, makes the retained records ABANDON_DUE with ABANDON to send, and drops the records and
reversal entries of readers no longer fitted (in the order of log entry 44). -/
def Obligations.ReaderTimersExpire : Prop :=
  (∀ s : State, s.reconciled s.reconcile) ∧
  (∀ (r : Nat) (m : BusMsg) (s : State), s.pbc.line = some (r, m) → (s.reader r).state ≠ .OFFLINE →
    let b := { s.pbc with line := none, lastReader := r }
    let x := { s.reader r with
      unanswered := (s.reader r).unanswered + 1
      charge := (s.reader r).charge.map fun c =>
        if m = .CHARGE c.ref c.amount ∧ c.phase = .OFFERED then { c with offer := true } else c }
    ((s.reader r).unanswered < 2 → exec (.readerResponseTimeout r) s = .next { s with pbc := { b with
      retry := some (r, m), readers := tput s.pbc.readers r x } }) ∧
    (2 ≤ (s.reader r).unanswered → ∃ v : State, exec (.readerResponseTimeout r) s = .next v.pass ∧
      (v.reader r).state = .OFFLINE ∧ (v.reader r).unanswered = 0 ∧ (v.reader r).pollTimer = .running ∧
      v.pbc.line = none ∧ v.pbc.retry = none ∧
      (∀ c j o, (s.reader r).charge = some c → c.job = some j → s.opByJob j = some o → o.purpose ≠ .SWEEP →
        v.hce.ops = s.hce.ops.filter (fun y => y.job != j)) ∧
      (let lost := fun c : Charge => m = .CHARGE c.ref c.amount ∧ c.phase = .OFFERED
        let kept := (s.reader r).outgoing.filter fun y => y.isAbandon || y.isReverse
        ((s.reader r).charge = none → (v.reader r).charge = none ∧ (v.reader r).outgoing = kept) ∧
        (∀ c, (s.reader r).charge = some c →
          let c' := { c with offer := c.offer || decide (lost c) }
          (c.job = none → (v.reader r).charge = some c' ∧ (v.reader r).outgoing = kept) ∧
          (c.job.isSome = true → c.phase = .OFFERED → c.offer = false → ¬ lost c →
            (v.reader r).charge = none ∧ (v.reader r).outgoing = kept.filter BusMsg.isReverse) ∧
          (c.job.isSome = true → c.phase ≠ .OFFERED ∨ c.offer = true ∨ lost c →
            (v.reader r).charge = some { c' with phase := .ABANDON_DUE, job := none, timeout := none } ∧
            (v.reader r).outgoing = kept))))) ∧
  (∀ (r : Nat) (s : State), (s.reader r).state = .OFFLINE → s.pbc.line = some (r, .POLL) →
    exec (.readerResponseTimeout r) s = .next { s with pbc := { s.pbc with
      line := none, retry := none, lastReader := r } }) ∧
  (∀ (r : Nat) (s : State), (s.reader r).state = .OFFLINE → (s.reader r).pollTimer = .running →
    exec (.readerPollTimerExpiry r) s = .next (s.withReader r { s.reader r with pollTimer := .expired })) ∧
  (∀ (r j : Nat) (c : Charge) (o : Op) (s : State), (s.reader r).charge = some c → c.job = some j →
    c.timeout.isSome = true → s.opByJob j = some o → o.stage = .AWAIT_PAYMENT → o.purpose ≠ .SWEEP →
    ∃ v : State, exec (.paymentTimeout r) s = .next v.pass ∧ v.hce.ops = s.hce.ops.filter (fun y => y.job != j) ∧
      (c.phase = .OFFERED → c.offer = false → s.pbc.line ≠ some (r, .CHARGE c.ref c.amount) →
        (v.reader r).charge = none) ∧
      (c.phase ≠ .OFFERED ∨ c.offer = true ∨ s.pbc.line = some (r, .CHARGE c.ref c.amount) →
        (v.reader r).charge = some { c with phase := .ABANDON_DUE, job := none, timeout := none } ∧
        (v.reader r).state = .ABANDONING ∧ (v.reader r).outgoing.getLast? = some (.ABANDON c.ref)))
end

