-- ==== Sys2Proof/Laws/State.lean ====
section
/-! SUPPORT. The small lemmas of State's block updates: one per field per update, each true by rfl, and the
laws of the numbered tables.  Proofs over the state cite these and unfold no record update. -/

namespace Sys2Proof.Machine

open Sys2Proof

/-! ### State.updComps -/

@[simp] theorem State.updComps_comps (s : State) (f : Vector Compartment 240 → Vector Compartment 240) : (s.updComps f).comps = f s.comps := rfl
@[simp] theorem State.updComps_sects (s : State) (f : Vector Compartment 240 → Vector Compartment 240) : (s.updComps f).sects = s.sects := rfl
@[simp] theorem State.updComps_hatchMap (s : State) (f : Vector Compartment 240 → Vector Compartment 240) : (s.updComps f).hatchMap = s.hatchMap := rfl
@[simp] theorem State.updComps_links (s : State) (f : Vector Compartment 240 → Vector Compartment 240) : (s.updComps f).links = s.links := rfl
@[simp] theorem State.updComps_capture (s : State) (f : Vector Compartment 240 → Vector Compartment 240) : (s.updComps f).capture = s.capture := rfl
@[simp] theorem State.updComps_arb (s : State) (f : Vector Compartment 240 → Vector Compartment 240) : (s.updComps f).arb = s.arb := rfl
@[simp] theorem State.updComps_hce (s : State) (f : Vector Compartment 240 → Vector Compartment 240) : (s.updComps f).hce = s.hce := rfl
@[simp] theorem State.updComps_alloc (s : State) (f : Vector Compartment 240 → Vector Compartment 240) : (s.updComps f).alloc = s.alloc := rfl
@[simp] theorem State.updComps_gates (s : State) (f : Vector Compartment 240 → Vector Compartment 240) : (s.updComps f).gates = s.gates := rfl
@[simp] theorem State.updComps_tariff (s : State) (f : Vector Compartment 240 → Vector Compartment 240) : (s.updComps f).tariff = s.tariff := rfl
@[simp] theorem State.updComps_pbc (s : State) (f : Vector Compartment 240 → Vector Compartment 240) : (s.updComps f).pbc = s.pbc := rfl
@[simp] theorem State.updComps_swu (s : State) (f : Vector Compartment 240 → Vector Compartment 240) : (s.updComps f).swu = s.swu := rfl
@[simp] theorem State.updComps_scu (s : State) (f : Vector Compartment 240 → Vector Compartment 240) : (s.updComps f).scu = s.scu := rfl
@[simp] theorem State.updComps_kli (s : State) (f : Vector Compartment 240 → Vector Compartment 240) : (s.updComps f).kli = s.kli := rfl
@[simp] theorem State.updComps_pending (s : State) (f : Vector Compartment 240 → Vector Compartment 240) : (s.updComps f).pending = s.pending := rfl

/-! ### State.updSects -/

@[simp] theorem State.updSects_comps (s : State) (f : Vector Sect 8 → Vector Sect 8) : (s.updSects f).comps = s.comps := rfl
@[simp] theorem State.updSects_sects (s : State) (f : Vector Sect 8 → Vector Sect 8) : (s.updSects f).sects = f s.sects := rfl
@[simp] theorem State.updSects_hatchMap (s : State) (f : Vector Sect 8 → Vector Sect 8) : (s.updSects f).hatchMap = s.hatchMap := rfl
@[simp] theorem State.updSects_links (s : State) (f : Vector Sect 8 → Vector Sect 8) : (s.updSects f).links = s.links := rfl
@[simp] theorem State.updSects_capture (s : State) (f : Vector Sect 8 → Vector Sect 8) : (s.updSects f).capture = s.capture := rfl
@[simp] theorem State.updSects_arb (s : State) (f : Vector Sect 8 → Vector Sect 8) : (s.updSects f).arb = s.arb := rfl
@[simp] theorem State.updSects_hce (s : State) (f : Vector Sect 8 → Vector Sect 8) : (s.updSects f).hce = s.hce := rfl
@[simp] theorem State.updSects_alloc (s : State) (f : Vector Sect 8 → Vector Sect 8) : (s.updSects f).alloc = s.alloc := rfl
@[simp] theorem State.updSects_gates (s : State) (f : Vector Sect 8 → Vector Sect 8) : (s.updSects f).gates = s.gates := rfl
@[simp] theorem State.updSects_tariff (s : State) (f : Vector Sect 8 → Vector Sect 8) : (s.updSects f).tariff = s.tariff := rfl
@[simp] theorem State.updSects_pbc (s : State) (f : Vector Sect 8 → Vector Sect 8) : (s.updSects f).pbc = s.pbc := rfl
@[simp] theorem State.updSects_swu (s : State) (f : Vector Sect 8 → Vector Sect 8) : (s.updSects f).swu = s.swu := rfl
@[simp] theorem State.updSects_scu (s : State) (f : Vector Sect 8 → Vector Sect 8) : (s.updSects f).scu = s.scu := rfl
@[simp] theorem State.updSects_kli (s : State) (f : Vector Sect 8 → Vector Sect 8) : (s.updSects f).kli = s.kli := rfl
@[simp] theorem State.updSects_pending (s : State) (f : Vector Sect 8 → Vector Sect 8) : (s.updSects f).pending = s.pending := rfl

/-! ### State.updHatchMap -/

@[simp] theorem State.updHatchMap_comps (s : State) (f : Vector (Option MapEntry) 240 → Vector (Option MapEntry) 240) : (s.updHatchMap f).comps = s.comps := rfl
@[simp] theorem State.updHatchMap_sects (s : State) (f : Vector (Option MapEntry) 240 → Vector (Option MapEntry) 240) : (s.updHatchMap f).sects = s.sects := rfl
@[simp] theorem State.updHatchMap_hatchMap (s : State) (f : Vector (Option MapEntry) 240 → Vector (Option MapEntry) 240) : (s.updHatchMap f).hatchMap = f s.hatchMap := rfl
@[simp] theorem State.updHatchMap_links (s : State) (f : Vector (Option MapEntry) 240 → Vector (Option MapEntry) 240) : (s.updHatchMap f).links = s.links := rfl
@[simp] theorem State.updHatchMap_capture (s : State) (f : Vector (Option MapEntry) 240 → Vector (Option MapEntry) 240) : (s.updHatchMap f).capture = s.capture := rfl
@[simp] theorem State.updHatchMap_arb (s : State) (f : Vector (Option MapEntry) 240 → Vector (Option MapEntry) 240) : (s.updHatchMap f).arb = s.arb := rfl
@[simp] theorem State.updHatchMap_hce (s : State) (f : Vector (Option MapEntry) 240 → Vector (Option MapEntry) 240) : (s.updHatchMap f).hce = s.hce := rfl
@[simp] theorem State.updHatchMap_alloc (s : State) (f : Vector (Option MapEntry) 240 → Vector (Option MapEntry) 240) : (s.updHatchMap f).alloc = s.alloc := rfl
@[simp] theorem State.updHatchMap_gates (s : State) (f : Vector (Option MapEntry) 240 → Vector (Option MapEntry) 240) : (s.updHatchMap f).gates = s.gates := rfl
@[simp] theorem State.updHatchMap_tariff (s : State) (f : Vector (Option MapEntry) 240 → Vector (Option MapEntry) 240) : (s.updHatchMap f).tariff = s.tariff := rfl
@[simp] theorem State.updHatchMap_pbc (s : State) (f : Vector (Option MapEntry) 240 → Vector (Option MapEntry) 240) : (s.updHatchMap f).pbc = s.pbc := rfl
@[simp] theorem State.updHatchMap_swu (s : State) (f : Vector (Option MapEntry) 240 → Vector (Option MapEntry) 240) : (s.updHatchMap f).swu = s.swu := rfl
@[simp] theorem State.updHatchMap_scu (s : State) (f : Vector (Option MapEntry) 240 → Vector (Option MapEntry) 240) : (s.updHatchMap f).scu = s.scu := rfl
@[simp] theorem State.updHatchMap_kli (s : State) (f : Vector (Option MapEntry) 240 → Vector (Option MapEntry) 240) : (s.updHatchMap f).kli = s.kli := rfl
@[simp] theorem State.updHatchMap_pending (s : State) (f : Vector (Option MapEntry) 240 → Vector (Option MapEntry) 240) : (s.updHatchMap f).pending = s.pending := rfl

/-! ### State.updLinks -/

@[simp] theorem State.updLinks_comps (s : State) (f : Vector Link 4 → Vector Link 4) : (s.updLinks f).comps = s.comps := rfl
@[simp] theorem State.updLinks_sects (s : State) (f : Vector Link 4 → Vector Link 4) : (s.updLinks f).sects = s.sects := rfl
@[simp] theorem State.updLinks_hatchMap (s : State) (f : Vector Link 4 → Vector Link 4) : (s.updLinks f).hatchMap = s.hatchMap := rfl
@[simp] theorem State.updLinks_links (s : State) (f : Vector Link 4 → Vector Link 4) : (s.updLinks f).links = f s.links := rfl
@[simp] theorem State.updLinks_capture (s : State) (f : Vector Link 4 → Vector Link 4) : (s.updLinks f).capture = s.capture := rfl
@[simp] theorem State.updLinks_arb (s : State) (f : Vector Link 4 → Vector Link 4) : (s.updLinks f).arb = s.arb := rfl
@[simp] theorem State.updLinks_hce (s : State) (f : Vector Link 4 → Vector Link 4) : (s.updLinks f).hce = s.hce := rfl
@[simp] theorem State.updLinks_alloc (s : State) (f : Vector Link 4 → Vector Link 4) : (s.updLinks f).alloc = s.alloc := rfl
@[simp] theorem State.updLinks_gates (s : State) (f : Vector Link 4 → Vector Link 4) : (s.updLinks f).gates = s.gates := rfl
@[simp] theorem State.updLinks_tariff (s : State) (f : Vector Link 4 → Vector Link 4) : (s.updLinks f).tariff = s.tariff := rfl
@[simp] theorem State.updLinks_pbc (s : State) (f : Vector Link 4 → Vector Link 4) : (s.updLinks f).pbc = s.pbc := rfl
@[simp] theorem State.updLinks_swu (s : State) (f : Vector Link 4 → Vector Link 4) : (s.updLinks f).swu = s.swu := rfl
@[simp] theorem State.updLinks_scu (s : State) (f : Vector Link 4 → Vector Link 4) : (s.updLinks f).scu = s.scu := rfl
@[simp] theorem State.updLinks_kli (s : State) (f : Vector Link 4 → Vector Link 4) : (s.updLinks f).kli = s.kli := rfl
@[simp] theorem State.updLinks_pending (s : State) (f : Vector Link 4 → Vector Link 4) : (s.updLinks f).pending = s.pending := rfl

/-! ### State.updCapture -/

@[simp] theorem State.updCapture_comps (s : State) (f : Capture → Capture) : (s.updCapture f).comps = s.comps := rfl
@[simp] theorem State.updCapture_sects (s : State) (f : Capture → Capture) : (s.updCapture f).sects = s.sects := rfl
@[simp] theorem State.updCapture_hatchMap (s : State) (f : Capture → Capture) : (s.updCapture f).hatchMap = s.hatchMap := rfl
@[simp] theorem State.updCapture_links (s : State) (f : Capture → Capture) : (s.updCapture f).links = s.links := rfl
@[simp] theorem State.updCapture_capture (s : State) (f : Capture → Capture) : (s.updCapture f).capture = f s.capture := rfl
@[simp] theorem State.updCapture_arb (s : State) (f : Capture → Capture) : (s.updCapture f).arb = s.arb := rfl
@[simp] theorem State.updCapture_hce (s : State) (f : Capture → Capture) : (s.updCapture f).hce = s.hce := rfl
@[simp] theorem State.updCapture_alloc (s : State) (f : Capture → Capture) : (s.updCapture f).alloc = s.alloc := rfl
@[simp] theorem State.updCapture_gates (s : State) (f : Capture → Capture) : (s.updCapture f).gates = s.gates := rfl
@[simp] theorem State.updCapture_tariff (s : State) (f : Capture → Capture) : (s.updCapture f).tariff = s.tariff := rfl
@[simp] theorem State.updCapture_pbc (s : State) (f : Capture → Capture) : (s.updCapture f).pbc = s.pbc := rfl
@[simp] theorem State.updCapture_swu (s : State) (f : Capture → Capture) : (s.updCapture f).swu = s.swu := rfl
@[simp] theorem State.updCapture_scu (s : State) (f : Capture → Capture) : (s.updCapture f).scu = s.scu := rfl
@[simp] theorem State.updCapture_kli (s : State) (f : Capture → Capture) : (s.updCapture f).kli = s.kli := rfl
@[simp] theorem State.updCapture_pending (s : State) (f : Capture → Capture) : (s.updCapture f).pending = s.pending := rfl

/-! ### State.updArb -/

@[simp] theorem State.updArb_comps (s : State) (f : Arbiter → Arbiter) : (s.updArb f).comps = s.comps := rfl
@[simp] theorem State.updArb_sects (s : State) (f : Arbiter → Arbiter) : (s.updArb f).sects = s.sects := rfl
@[simp] theorem State.updArb_hatchMap (s : State) (f : Arbiter → Arbiter) : (s.updArb f).hatchMap = s.hatchMap := rfl
@[simp] theorem State.updArb_links (s : State) (f : Arbiter → Arbiter) : (s.updArb f).links = s.links := rfl
@[simp] theorem State.updArb_capture (s : State) (f : Arbiter → Arbiter) : (s.updArb f).capture = s.capture := rfl
@[simp] theorem State.updArb_arb (s : State) (f : Arbiter → Arbiter) : (s.updArb f).arb = f s.arb := rfl
@[simp] theorem State.updArb_hce (s : State) (f : Arbiter → Arbiter) : (s.updArb f).hce = s.hce := rfl
@[simp] theorem State.updArb_alloc (s : State) (f : Arbiter → Arbiter) : (s.updArb f).alloc = s.alloc := rfl
@[simp] theorem State.updArb_gates (s : State) (f : Arbiter → Arbiter) : (s.updArb f).gates = s.gates := rfl
@[simp] theorem State.updArb_tariff (s : State) (f : Arbiter → Arbiter) : (s.updArb f).tariff = s.tariff := rfl
@[simp] theorem State.updArb_pbc (s : State) (f : Arbiter → Arbiter) : (s.updArb f).pbc = s.pbc := rfl
@[simp] theorem State.updArb_swu (s : State) (f : Arbiter → Arbiter) : (s.updArb f).swu = s.swu := rfl
@[simp] theorem State.updArb_scu (s : State) (f : Arbiter → Arbiter) : (s.updArb f).scu = s.scu := rfl
@[simp] theorem State.updArb_kli (s : State) (f : Arbiter → Arbiter) : (s.updArb f).kli = s.kli := rfl
@[simp] theorem State.updArb_pending (s : State) (f : Arbiter → Arbiter) : (s.updArb f).pending = s.pending := rfl

/-! ### State.updHce -/

@[simp] theorem State.updHce_comps (s : State) (f : Hce → Hce) : (s.updHce f).comps = s.comps := rfl
@[simp] theorem State.updHce_sects (s : State) (f : Hce → Hce) : (s.updHce f).sects = s.sects := rfl
@[simp] theorem State.updHce_hatchMap (s : State) (f : Hce → Hce) : (s.updHce f).hatchMap = s.hatchMap := rfl
@[simp] theorem State.updHce_links (s : State) (f : Hce → Hce) : (s.updHce f).links = s.links := rfl
@[simp] theorem State.updHce_capture (s : State) (f : Hce → Hce) : (s.updHce f).capture = s.capture := rfl
@[simp] theorem State.updHce_arb (s : State) (f : Hce → Hce) : (s.updHce f).arb = s.arb := rfl
@[simp] theorem State.updHce_hce (s : State) (f : Hce → Hce) : (s.updHce f).hce = f s.hce := rfl
@[simp] theorem State.updHce_alloc (s : State) (f : Hce → Hce) : (s.updHce f).alloc = s.alloc := rfl
@[simp] theorem State.updHce_gates (s : State) (f : Hce → Hce) : (s.updHce f).gates = s.gates := rfl
@[simp] theorem State.updHce_tariff (s : State) (f : Hce → Hce) : (s.updHce f).tariff = s.tariff := rfl
@[simp] theorem State.updHce_pbc (s : State) (f : Hce → Hce) : (s.updHce f).pbc = s.pbc := rfl
@[simp] theorem State.updHce_swu (s : State) (f : Hce → Hce) : (s.updHce f).swu = s.swu := rfl
@[simp] theorem State.updHce_scu (s : State) (f : Hce → Hce) : (s.updHce f).scu = s.scu := rfl
@[simp] theorem State.updHce_kli (s : State) (f : Hce → Hce) : (s.updHce f).kli = s.kli := rfl
@[simp] theorem State.updHce_pending (s : State) (f : Hce → Hce) : (s.updHce f).pending = s.pending := rfl

/-! ### State.updAlloc -/

@[simp] theorem State.updAlloc_comps (s : State) (f : Alloc → Alloc) : (s.updAlloc f).comps = s.comps := rfl
@[simp] theorem State.updAlloc_sects (s : State) (f : Alloc → Alloc) : (s.updAlloc f).sects = s.sects := rfl
@[simp] theorem State.updAlloc_hatchMap (s : State) (f : Alloc → Alloc) : (s.updAlloc f).hatchMap = s.hatchMap := rfl
@[simp] theorem State.updAlloc_links (s : State) (f : Alloc → Alloc) : (s.updAlloc f).links = s.links := rfl
@[simp] theorem State.updAlloc_capture (s : State) (f : Alloc → Alloc) : (s.updAlloc f).capture = s.capture := rfl
@[simp] theorem State.updAlloc_arb (s : State) (f : Alloc → Alloc) : (s.updAlloc f).arb = s.arb := rfl
@[simp] theorem State.updAlloc_hce (s : State) (f : Alloc → Alloc) : (s.updAlloc f).hce = s.hce := rfl
@[simp] theorem State.updAlloc_alloc (s : State) (f : Alloc → Alloc) : (s.updAlloc f).alloc = f s.alloc := rfl
@[simp] theorem State.updAlloc_gates (s : State) (f : Alloc → Alloc) : (s.updAlloc f).gates = s.gates := rfl
@[simp] theorem State.updAlloc_tariff (s : State) (f : Alloc → Alloc) : (s.updAlloc f).tariff = s.tariff := rfl
@[simp] theorem State.updAlloc_pbc (s : State) (f : Alloc → Alloc) : (s.updAlloc f).pbc = s.pbc := rfl
@[simp] theorem State.updAlloc_swu (s : State) (f : Alloc → Alloc) : (s.updAlloc f).swu = s.swu := rfl
@[simp] theorem State.updAlloc_scu (s : State) (f : Alloc → Alloc) : (s.updAlloc f).scu = s.scu := rfl
@[simp] theorem State.updAlloc_kli (s : State) (f : Alloc → Alloc) : (s.updAlloc f).kli = s.kli := rfl
@[simp] theorem State.updAlloc_pending (s : State) (f : Alloc → Alloc) : (s.updAlloc f).pending = s.pending := rfl

/-! ### State.updGates -/

@[simp] theorem State.updGates_comps (s : State) (f : Vector Gate 4 → Vector Gate 4) : (s.updGates f).comps = s.comps := rfl
@[simp] theorem State.updGates_sects (s : State) (f : Vector Gate 4 → Vector Gate 4) : (s.updGates f).sects = s.sects := rfl
@[simp] theorem State.updGates_hatchMap (s : State) (f : Vector Gate 4 → Vector Gate 4) : (s.updGates f).hatchMap = s.hatchMap := rfl
@[simp] theorem State.updGates_links (s : State) (f : Vector Gate 4 → Vector Gate 4) : (s.updGates f).links = s.links := rfl
@[simp] theorem State.updGates_capture (s : State) (f : Vector Gate 4 → Vector Gate 4) : (s.updGates f).capture = s.capture := rfl
@[simp] theorem State.updGates_arb (s : State) (f : Vector Gate 4 → Vector Gate 4) : (s.updGates f).arb = s.arb := rfl
@[simp] theorem State.updGates_hce (s : State) (f : Vector Gate 4 → Vector Gate 4) : (s.updGates f).hce = s.hce := rfl
@[simp] theorem State.updGates_alloc (s : State) (f : Vector Gate 4 → Vector Gate 4) : (s.updGates f).alloc = s.alloc := rfl
@[simp] theorem State.updGates_gates (s : State) (f : Vector Gate 4 → Vector Gate 4) : (s.updGates f).gates = f s.gates := rfl
@[simp] theorem State.updGates_tariff (s : State) (f : Vector Gate 4 → Vector Gate 4) : (s.updGates f).tariff = s.tariff := rfl
@[simp] theorem State.updGates_pbc (s : State) (f : Vector Gate 4 → Vector Gate 4) : (s.updGates f).pbc = s.pbc := rfl
@[simp] theorem State.updGates_swu (s : State) (f : Vector Gate 4 → Vector Gate 4) : (s.updGates f).swu = s.swu := rfl
@[simp] theorem State.updGates_scu (s : State) (f : Vector Gate 4 → Vector Gate 4) : (s.updGates f).scu = s.scu := rfl
@[simp] theorem State.updGates_kli (s : State) (f : Vector Gate 4 → Vector Gate 4) : (s.updGates f).kli = s.kli := rfl
@[simp] theorem State.updGates_pending (s : State) (f : Vector Gate 4 → Vector Gate 4) : (s.updGates f).pending = s.pending := rfl

/-! ### State.updTariff -/

@[simp] theorem State.updTariff_comps (s : State) (f : Tariff → Tariff) : (s.updTariff f).comps = s.comps := rfl
@[simp] theorem State.updTariff_sects (s : State) (f : Tariff → Tariff) : (s.updTariff f).sects = s.sects := rfl
@[simp] theorem State.updTariff_hatchMap (s : State) (f : Tariff → Tariff) : (s.updTariff f).hatchMap = s.hatchMap := rfl
@[simp] theorem State.updTariff_links (s : State) (f : Tariff → Tariff) : (s.updTariff f).links = s.links := rfl
@[simp] theorem State.updTariff_capture (s : State) (f : Tariff → Tariff) : (s.updTariff f).capture = s.capture := rfl
@[simp] theorem State.updTariff_arb (s : State) (f : Tariff → Tariff) : (s.updTariff f).arb = s.arb := rfl
@[simp] theorem State.updTariff_hce (s : State) (f : Tariff → Tariff) : (s.updTariff f).hce = s.hce := rfl
@[simp] theorem State.updTariff_alloc (s : State) (f : Tariff → Tariff) : (s.updTariff f).alloc = s.alloc := rfl
@[simp] theorem State.updTariff_gates (s : State) (f : Tariff → Tariff) : (s.updTariff f).gates = s.gates := rfl
@[simp] theorem State.updTariff_tariff (s : State) (f : Tariff → Tariff) : (s.updTariff f).tariff = f s.tariff := rfl
@[simp] theorem State.updTariff_pbc (s : State) (f : Tariff → Tariff) : (s.updTariff f).pbc = s.pbc := rfl
@[simp] theorem State.updTariff_swu (s : State) (f : Tariff → Tariff) : (s.updTariff f).swu = s.swu := rfl
@[simp] theorem State.updTariff_scu (s : State) (f : Tariff → Tariff) : (s.updTariff f).scu = s.scu := rfl
@[simp] theorem State.updTariff_kli (s : State) (f : Tariff → Tariff) : (s.updTariff f).kli = s.kli := rfl
@[simp] theorem State.updTariff_pending (s : State) (f : Tariff → Tariff) : (s.updTariff f).pending = s.pending := rfl

/-! ### State.updPbc -/

@[simp] theorem State.updPbc_comps (s : State) (f : Pbc → Pbc) : (s.updPbc f).comps = s.comps := rfl
@[simp] theorem State.updPbc_sects (s : State) (f : Pbc → Pbc) : (s.updPbc f).sects = s.sects := rfl
@[simp] theorem State.updPbc_hatchMap (s : State) (f : Pbc → Pbc) : (s.updPbc f).hatchMap = s.hatchMap := rfl
@[simp] theorem State.updPbc_links (s : State) (f : Pbc → Pbc) : (s.updPbc f).links = s.links := rfl
@[simp] theorem State.updPbc_capture (s : State) (f : Pbc → Pbc) : (s.updPbc f).capture = s.capture := rfl
@[simp] theorem State.updPbc_arb (s : State) (f : Pbc → Pbc) : (s.updPbc f).arb = s.arb := rfl
@[simp] theorem State.updPbc_hce (s : State) (f : Pbc → Pbc) : (s.updPbc f).hce = s.hce := rfl
@[simp] theorem State.updPbc_alloc (s : State) (f : Pbc → Pbc) : (s.updPbc f).alloc = s.alloc := rfl
@[simp] theorem State.updPbc_gates (s : State) (f : Pbc → Pbc) : (s.updPbc f).gates = s.gates := rfl
@[simp] theorem State.updPbc_tariff (s : State) (f : Pbc → Pbc) : (s.updPbc f).tariff = s.tariff := rfl
@[simp] theorem State.updPbc_pbc (s : State) (f : Pbc → Pbc) : (s.updPbc f).pbc = f s.pbc := rfl
@[simp] theorem State.updPbc_swu (s : State) (f : Pbc → Pbc) : (s.updPbc f).swu = s.swu := rfl
@[simp] theorem State.updPbc_scu (s : State) (f : Pbc → Pbc) : (s.updPbc f).scu = s.scu := rfl
@[simp] theorem State.updPbc_kli (s : State) (f : Pbc → Pbc) : (s.updPbc f).kli = s.kli := rfl
@[simp] theorem State.updPbc_pending (s : State) (f : Pbc → Pbc) : (s.updPbc f).pending = s.pending := rfl

/-! ### State.updSwu -/

@[simp] theorem State.updSwu_comps (s : State) (f : Swu → Swu) : (s.updSwu f).comps = s.comps := rfl
@[simp] theorem State.updSwu_sects (s : State) (f : Swu → Swu) : (s.updSwu f).sects = s.sects := rfl
@[simp] theorem State.updSwu_hatchMap (s : State) (f : Swu → Swu) : (s.updSwu f).hatchMap = s.hatchMap := rfl
@[simp] theorem State.updSwu_links (s : State) (f : Swu → Swu) : (s.updSwu f).links = s.links := rfl
@[simp] theorem State.updSwu_capture (s : State) (f : Swu → Swu) : (s.updSwu f).capture = s.capture := rfl
@[simp] theorem State.updSwu_arb (s : State) (f : Swu → Swu) : (s.updSwu f).arb = s.arb := rfl
@[simp] theorem State.updSwu_hce (s : State) (f : Swu → Swu) : (s.updSwu f).hce = s.hce := rfl
@[simp] theorem State.updSwu_alloc (s : State) (f : Swu → Swu) : (s.updSwu f).alloc = s.alloc := rfl
@[simp] theorem State.updSwu_gates (s : State) (f : Swu → Swu) : (s.updSwu f).gates = s.gates := rfl
@[simp] theorem State.updSwu_tariff (s : State) (f : Swu → Swu) : (s.updSwu f).tariff = s.tariff := rfl
@[simp] theorem State.updSwu_pbc (s : State) (f : Swu → Swu) : (s.updSwu f).pbc = s.pbc := rfl
@[simp] theorem State.updSwu_swu (s : State) (f : Swu → Swu) : (s.updSwu f).swu = f s.swu := rfl
@[simp] theorem State.updSwu_scu (s : State) (f : Swu → Swu) : (s.updSwu f).scu = s.scu := rfl
@[simp] theorem State.updSwu_kli (s : State) (f : Swu → Swu) : (s.updSwu f).kli = s.kli := rfl
@[simp] theorem State.updSwu_pending (s : State) (f : Swu → Swu) : (s.updSwu f).pending = s.pending := rfl

/-! ### State.updScu -/

@[simp] theorem State.updScu_comps (s : State) (f : Scu → Scu) : (s.updScu f).comps = s.comps := rfl
@[simp] theorem State.updScu_sects (s : State) (f : Scu → Scu) : (s.updScu f).sects = s.sects := rfl
@[simp] theorem State.updScu_hatchMap (s : State) (f : Scu → Scu) : (s.updScu f).hatchMap = s.hatchMap := rfl
@[simp] theorem State.updScu_links (s : State) (f : Scu → Scu) : (s.updScu f).links = s.links := rfl
@[simp] theorem State.updScu_capture (s : State) (f : Scu → Scu) : (s.updScu f).capture = s.capture := rfl
@[simp] theorem State.updScu_arb (s : State) (f : Scu → Scu) : (s.updScu f).arb = s.arb := rfl
@[simp] theorem State.updScu_hce (s : State) (f : Scu → Scu) : (s.updScu f).hce = s.hce := rfl
@[simp] theorem State.updScu_alloc (s : State) (f : Scu → Scu) : (s.updScu f).alloc = s.alloc := rfl
@[simp] theorem State.updScu_gates (s : State) (f : Scu → Scu) : (s.updScu f).gates = s.gates := rfl
@[simp] theorem State.updScu_tariff (s : State) (f : Scu → Scu) : (s.updScu f).tariff = s.tariff := rfl
@[simp] theorem State.updScu_pbc (s : State) (f : Scu → Scu) : (s.updScu f).pbc = s.pbc := rfl
@[simp] theorem State.updScu_swu (s : State) (f : Scu → Scu) : (s.updScu f).swu = s.swu := rfl
@[simp] theorem State.updScu_scu (s : State) (f : Scu → Scu) : (s.updScu f).scu = f s.scu := rfl
@[simp] theorem State.updScu_kli (s : State) (f : Scu → Scu) : (s.updScu f).kli = s.kli := rfl
@[simp] theorem State.updScu_pending (s : State) (f : Scu → Scu) : (s.updScu f).pending = s.pending := rfl

/-! ### State.updKli -/

@[simp] theorem State.updKli_comps (s : State) (f : Kli → Kli) : (s.updKli f).comps = s.comps := rfl
@[simp] theorem State.updKli_sects (s : State) (f : Kli → Kli) : (s.updKli f).sects = s.sects := rfl
@[simp] theorem State.updKli_hatchMap (s : State) (f : Kli → Kli) : (s.updKli f).hatchMap = s.hatchMap := rfl
@[simp] theorem State.updKli_links (s : State) (f : Kli → Kli) : (s.updKli f).links = s.links := rfl
@[simp] theorem State.updKli_capture (s : State) (f : Kli → Kli) : (s.updKli f).capture = s.capture := rfl
@[simp] theorem State.updKli_arb (s : State) (f : Kli → Kli) : (s.updKli f).arb = s.arb := rfl
@[simp] theorem State.updKli_hce (s : State) (f : Kli → Kli) : (s.updKli f).hce = s.hce := rfl
@[simp] theorem State.updKli_alloc (s : State) (f : Kli → Kli) : (s.updKli f).alloc = s.alloc := rfl
@[simp] theorem State.updKli_gates (s : State) (f : Kli → Kli) : (s.updKli f).gates = s.gates := rfl
@[simp] theorem State.updKli_tariff (s : State) (f : Kli → Kli) : (s.updKli f).tariff = s.tariff := rfl
@[simp] theorem State.updKli_pbc (s : State) (f : Kli → Kli) : (s.updKli f).pbc = s.pbc := rfl
@[simp] theorem State.updKli_swu (s : State) (f : Kli → Kli) : (s.updKli f).swu = s.swu := rfl
@[simp] theorem State.updKli_scu (s : State) (f : Kli → Kli) : (s.updKli f).scu = s.scu := rfl
@[simp] theorem State.updKli_kli (s : State) (f : Kli → Kli) : (s.updKli f).kli = f s.kli := rfl
@[simp] theorem State.updKli_pending (s : State) (f : Kli → Kli) : (s.updKli f).pending = s.pending := rfl

/-! ### Numbered tables -/

theorem tget_tput {α : Type} {n : Nat} (v : Vector α n) (d x : α) (i j : Nat) :
    tget (tput v i x) d j = if i = j ∧ 1 ≤ i ∧ i ≤ n then x else tget v d j := by
  cases i with
  | zero => simp [tput]
  | succ a =>
    cases j with
    | zero => simp [tget]
    | succ b =>
      simp only [tget, tput, Vector.getElem?_setIfInBounds]
      by_cases h : a = b
      · subst h
        by_cases h2 : a < n
        · have : a + 1 ≤ n := h2
          simp [h2, this]
        · have : ¬ a + 1 ≤ n := h2
          simp [h2, this]
      · have : ¬ (a + 1 = b + 1 ∧ 1 ≤ a + 1 ∧ a + 1 ≤ n) := by omega
        rw [if_neg h, if_neg this]

theorem tget_tput_self {α : Type} {n : Nat} (v : Vector α n) (d x : α) {i : Nat} (h : 1 ≤ i) (h' : i ≤ n) :
    tget (tput v i x) d i = x := by
  simp [tget_tput, h, h']

theorem tget_tput_ne {α : Type} {n : Nat} (v : Vector α n) (d x : α) {i j : Nat} (h : i ≠ j) :
    tget (tput v i x) d j = tget v d j := by
  simp [tget_tput, h]

/-- A number outside a table reads as the default. -/
theorem tget_outside {α : Type} {n : Nat} (v : Vector α n) (d : α) {i : Nat} (h : i = 0 ∨ n < i) :
    tget v d i = d := by
  cases i with
  | zero => rfl
  | succ k =>
    have : n ≤ k := by omega
    simp [tget, this]

/-- Writing an entry changed by a function that keeps the default keeps the reading of every field. -/
theorem tget_tput_map {α β : Type} {n : Nat} (v : Vector α n) (d : α) (i j : Nat) (f : α → α) (g : α → β)
    (h : ∀ x, g (f x) = g x) : g (tget (tput v i (f (tget v d i))) d j) = g (tget v d j) := by
  rw [tget_tput]
  split
  · rename_i hc
    rw [h, hc.1]
  · rfl

theorem State.comp_updComp (s : State) (n m : Nat) (f : Compartment → Compartment) :
    (s.updComp n f).comp m = if n = m ∧ 1 ≤ n ∧ n ≤ 240 then f (s.comp n) else s.comp m := by
  simp [State.comp, State.updComp, tget_tput]

theorem State.comp_updComp_self (s : State) {n : Nat} (f : Compartment → Compartment) (h : 1 ≤ n) (h' : n ≤ 240) :
    (s.updComp n f).comp n = f (s.comp n) := by
  simp [State.comp_updComp, h, h']

theorem State.link_updLink (s : State) (l m : Nat) (f : Link → Link) :
    (s.updLink l f).link m = if l = m ∧ 1 ≤ l ∧ l ≤ 4 then f (s.link l) else s.link m := by
  simp [State.link, State.updLink, tget_tput]

theorem Link.slotAt_updSlot (x : Link) (k j : Nat) (f : Slot → Slot) :
    (x.updSlot k f).slotAt j = if k = j ∧ 1 ≤ k ∧ k ≤ 8 then f (x.slotAt k) else x.slotAt j := by
  simp [Link.slotAt, Link.updSlot, tget_tput]

theorem State.reader_updReader (s : State) (r q : Nat) (f : Reader → Reader) :
    (s.updReader r f).reader q = if r = q ∧ 1 ≤ r ∧ r ≤ 4 then f (s.reader r) else s.reader q := by
  simp [State.reader, State.updReader, tget_tput]

theorem State.gate_setGate (s : State) (r q : Nat) (g : Gate) :
    (s.setGate r g).gate q = if r = q ∧ 1 ≤ r ∧ r ≤ 4 then g else s.gate q := by
  simp [State.gate, State.setGate, tget_tput]

theorem State.mapEntry_setMapEntry (s : State) (n m : Nat) (e : Option MapEntry) :
    (s.setMapEntry n e).mapEntry m = if n = m ∧ 1 ≤ n ∧ n ≤ 240 then e else s.mapEntry m := by
  simp [State.mapEntry, State.setMapEntry, tget_tput]

@[simp] theorem State.side_updSide_self (s : State) (c : Courier) (f : SweepSide → SweepSide) :
    (s.updSide c f).side c = f (s.side c) := by cases c <;> rfl

@[simp] theorem State.side_updSide_other (s : State) (c : Courier) (f : SweepSide → SweepSide) :
    (s.updSide c f).side c.other = s.side c.other := by cases c <;> rfl

end Sys2Proof.Machine
end

