-- ==== Sys2Proof/Laws/Engine.lean ====
section
/-! SUPPORT. What the shared operations of the Hatch Cycle Engine, the arbiter and the Sweep Unit leave as it was:
one relation, kept by every one of them, and one lemma per operation. -/

namespace Sys2Proof.Machine

open Sys2Proof

/-- The parts of a link that only its own exchanges and passes change. -/
def Link.sameLine (x y : Link) : Prop :=
  y.slots = x.slots ∧ y.pollTurn = x.pollTurn ∧ y.line = x.line ∧ y.lastEnded = x.lastEnded ∧
  y.enumPass = x.enumPass ∧ y.rollTimer = x.rollTimer ∧ y.unbindDue = x.unbindDue ∧ y.reported = x.reported

/-- The parts of a compartment that no end of an operation changes. -/
def Compartment.sameMake (c d : Compartment) : Prop :=
  d.cls = c.cls ∧ d.sect = c.sect ∧ d.ownHold = c.ownHold ∧ d.hatchCount = c.hatchCount

/-- What the creation and the end of operations, top-ups, grants and passes keep. -/
structure Kept (s t : State) : Prop where
  sects : t.sects = s.sects
  hatchMap : t.hatchMap = s.hatchMap
  scu : t.scu = s.scu
  gates : t.gates = s.gates
  pending : t.pending = s.pending
  capacity : t.arb.capacity = s.arb.capacity
  pages : t.tariff.pages = s.tariff.pages
  active : t.tariff.active = s.tariff.active
  scheduled : t.tariff.scheduled = s.tariff.scheduled
  draws : t.alloc.draws = s.alloc.draws
  refCounter : t.pbc.refCounter = s.pbc.refCounter
  busLine : t.pbc.line = s.pbc.line
  busRetry : t.pbc.retry = s.pbc.retry
  lastReader : t.pbc.lastReader = s.pbc.lastReader
  captured : s.capture.held.isSome → t.capture.held = s.capture.held
  link : ∀ l, (s.link l).sameLine (t.link l)
  comp : ∀ n, (s.comp n).sameMake (t.comp n)
  rx : t.kli.rx = s.kli.rx
  reply : t.kli.reply = s.kli.reply
  mask : t.kli.mask = s.kli.mask
  partialRx : t.kli.partialRx = s.kli.partialRx
  keyOn : t.kli.keyOn = s.kli.keyOn

theorem Link.sameLine_refl (x : Link) : x.sameLine x := ⟨rfl, rfl, rfl, rfl, rfl, rfl, rfl, rfl⟩

theorem Compartment.sameMake_refl (c : Compartment) : c.sameMake c := ⟨rfl, rfl, rfl, rfl⟩

theorem Kept.refl (s : State) : Kept s s := by
  constructor <;> first | rfl | (intro _; first | rfl | exact Link.sameLine_refl _ | exact Compartment.sameMake_refl _)

theorem Kept.trans {s t u : State} (h : Kept s t) (k : Kept t u) : Kept s u where
  sects := k.sects.trans h.sects
  hatchMap := k.hatchMap.trans h.hatchMap
  scu := k.scu.trans h.scu
  gates := k.gates.trans h.gates
  pending := k.pending.trans h.pending
  capacity := k.capacity.trans h.capacity
  pages := k.pages.trans h.pages
  active := k.active.trans h.active
  scheduled := k.scheduled.trans h.scheduled
  draws := k.draws.trans h.draws
  refCounter := k.refCounter.trans h.refCounter
  busLine := k.busLine.trans h.busLine
  busRetry := k.busRetry.trans h.busRetry
  lastReader := k.lastReader.trans h.lastReader
  captured hs := by
    have e := h.captured hs
    rw [← e] at hs ⊢
    exact k.captured hs
  link l := by
    obtain ⟨a1, a2, a3, a4, a5, a6, a7, a8⟩ := h.link l
    obtain ⟨b1, b2, b3, b4, b5, b6, b7, b8⟩ := k.link l
    exact ⟨b1.trans a1, b2.trans a2, b3.trans a3, b4.trans a4, b5.trans a5, b6.trans a6, b7.trans a7, b8.trans a8⟩
  comp n := by
    obtain ⟨a1, a2, a3, a4⟩ := h.comp n
    obtain ⟨b1, b2, b3, b4⟩ := k.comp n
    exact ⟨b1.trans a1, b2.trans a2, b3.trans a3, b4.trans a4⟩
  rx := k.rx.trans h.rx
  reply := k.reply.trans h.reply
  mask := k.mask.trans h.mask
  partialRx := k.partialRx.trans h.partialRx
  keyOn := k.keyOn.trans h.keyOn

/-! ### Block updates -/

theorem kept_updComp (s : State) (n : Nat) (f : Compartment → Compartment) (hf : ∀ c : Compartment, c.sameMake (f c)) :
    Kept s (s.updComp n f) :=
  { Kept.refl s with
    comp := fun m => by
      rw [State.comp_updComp]
      split
      · rename_i h
        rw [h.1]
        exact hf _
      · exact Compartment.sameMake_refl _ }

theorem kept_updParcel (s : State) (n : Nat) (f : Parcel → Parcel) : Kept s (s.updParcel n f) :=
  kept_updComp s n _ fun _ => ⟨rfl, rfl, rfl, rfl⟩

theorem kept_updLink (s : State) (l : Nat) (f : Link → Link) (hf : ∀ x : Link, x.sameLine (f x)) :
    Kept s (s.updLink l f) :=
  { Kept.refl s with
    link := fun m => by
      rw [State.link_updLink]
      split
      · rename_i h
        rw [h.1]
        exact hf _
      · exact Link.sameLine_refl _ }

theorem kept_updHce (s : State) (f : Hce → Hce) : Kept s (s.updHce f) := { Kept.refl s with }

theorem kept_updOp (s : State) (job : Nat) (f : Op → Op) : Kept s (s.updOp job f) := kept_updHce s _

theorem kept_removeOp (s : State) (job : Nat) : Kept s (s.removeOp job) := kept_updHce s _

theorem kept_updSwu (s : State) (f : Swu → Swu) : Kept s (s.updSwu f) := { Kept.refl s with }

theorem kept_updSide (s : State) (c : Courier) (f : SweepSide → SweepSide) : Kept s (s.updSide c f) := kept_updSwu s _

theorem kept_updRun (s : State) (c : Courier) (f : Run → Run) : Kept s (s.updRun c f) := kept_updSide s c _

theorem kept_updArb (s : State) (f : Arbiter → Arbiter) (hf : (f s.arb).capacity = s.arb.capacity) :
    Kept s (s.updArb f) :=
  { Kept.refl s with capacity := hf }

theorem kept_updAlloc (s : State) (f : Alloc → Alloc) (hf : (f s.alloc).draws = s.alloc.draws) :
    Kept s (s.updAlloc f) :=
  { Kept.refl s with draws := hf }

theorem kept_updRefs (s : State) (i : Fin 4) (f : Nat → Nat) : Kept s (s.updRefs i f) := { Kept.refl s with }

theorem kept_readers (s : State) (f : Pbc → Pbc)
    (hf : (f s.pbc).refCounter = s.pbc.refCounter ∧ (f s.pbc).line = s.pbc.line ∧ (f s.pbc).retry = s.pbc.retry ∧
      (f s.pbc).lastReader = s.pbc.lastReader) : Kept s (s.updPbc f) :=
  { Kept.refl s with
    refCounter := hf.1, busLine := hf.2.1, busRetry := hf.2.2.1, lastReader := hf.2.2.2 }

theorem kept_updReader (s : State) (r : Nat) (f : Reader → Reader) : Kept s (s.updReader r f) :=
  kept_readers s _ ⟨rfl, rfl, rfl, rfl⟩

theorem Kli.post_kept (k : Kli) (e : EventRec) :
    (k.post e).rx = k.rx ∧ (k.post e).reply = k.reply ∧ (k.post e).mask = k.mask ∧
    (k.post e).partialRx = k.partialRx ∧ (k.post e).keyOn = k.keyOn := by
  unfold Kli.post
  split <;> exact ⟨rfl, rfl, rfl, rfl, rfl⟩

theorem kept_post (s : State) (e : EventRec) : Kept s (s.post e) :=
  { Kept.refl s with
    rx := (Kli.post_kept s.kli e).1
    reply := (Kli.post_kept s.kli e).2.1
    mask := (Kli.post_kept s.kli e).2.2.1
    partialRx := (Kli.post_kept s.kli e).2.2.2.1
    keyOn := (Kli.post_kept s.kli e).2.2.2.2 }

theorem kept_reportFault (s : State) (k : FaultKind) (l j : Nat) (ch n : Option Nat) :
    Kept s (s.reportFault k l j ch n) := by
  unfold State.reportFault
  split
  · rename_i h
    refine Kept.trans ?_ (kept_post _ _)
    exact { Kept.refl s with captured := fun hs => by rw [h] at hs; cases hs }
  · rename_i x h
    exact { Kept.refl s with captured := fun _ => rfl }

/-! ### Compartments, tags and runs -/

theorem kept_markCause (s : State) (n : Nat) (c : Cause) : Kept s (s.markCause n c) :=
  kept_updComp s n _ fun _ => ⟨rfl, rfl, rfl, rfl⟩

theorem kept_afterResolve (s : State) (n : Nat) : Kept s (s.afterResolve n) := by
  unfold State.afterResolve
  split
  · exact (kept_markCause s n _).trans (kept_reportFault _ _ _ _ _ _)
  · exact Kept.refl s

theorem kept_confirmParcel (s : State) (n : Nat) (b : Bool) : Kept s (s.confirmParcel n b) := by
  unfold State.confirmParcel
  split
  · exact Kept.refl s
  · exact kept_updComp s n _ fun _ => ⟨rfl, rfl, rfl, rfl⟩

theorem kept_releasePage (s : State) (p : Parcel) : Kept s (s.releasePage p) := by
  unfold State.releasePage
  split
  · exact kept_updRefs s _ _
  · exact Kept.refl s

theorem kept_retire (s : State) (n : Nat) : Kept s (s.retire n) := by
  unfold State.retire
  split
  · exact Kept.refl s
  · refine Kept.trans ?_ (kept_updComp _ n _ fun _ => ⟨rfl, rfl, rfl, rfl⟩)
    refine Kept.trans ?_ (kept_releasePage _ _)
    split
    · exact kept_updAlloc s _ rfl
    · exact Kept.refl s

theorem kept_undo (s : State) (n : Nat) : Kept s (s.undo n).1 := by
  unfold State.undo
  split
  · exact Kept.refl s
  · rename_i p _
    refine (kept_releasePage s p).trans ?_
    dsimp only
    split
    · split <;> (dsimp only; exact kept_updComp _ n _ fun _ => ⟨rfl, rfl, rfl, rfl⟩)
    · dsimp only
      exact kept_updComp _ n _ fun _ => ⟨rfl, rfl, rfl, rfl⟩

theorem kept_endRun (s : State) (c : Courier) : Kept s (s.endRun c) := by
  unfold State.endRun
  split
  · exact Kept.refl s
  · split
    · exact (kept_updSide s c _).trans (kept_post _ _)
    · exact Kept.refl s

theorem kept_clearTag (s : State) (n : Nat) : Kept s (s.clearTag n) := by
  unfold State.clearTag
  split
  · exact Kept.refl s
  · rename_i c _
    have h2 := (kept_updComp s n (fun x => { x with tagOwner := none }) fun _ => ⟨rfl, rfl, rfl, rfl⟩).trans
      (kept_updSide _ c fun x => { x with tags := withoutComp x.tags n })
    dsimp only
    split
    · exact h2
    · split
      · exact (h2.trans (kept_updRun _ c _)).trans (kept_endRun _ c)
      · exact h2

theorem kept_createOp {s t : State} {pu : Purpose} {st n u job : Nat} {a : Addr} {g : Stage}
    (h : s.createOp pu st n a u g = some (t, job)) : Kept s t := by
  unfold State.createOp at h
  split at h
  · cases g <;> simp only [Option.some.injEq, Prod.mk.injEq] at h <;> obtain ⟨rfl, -⟩ := h
    · exact kept_updHce s _
    all_goals
      refine (kept_updHce s _).trans (kept_updLink _ _ _ fun x => ?_)
      cases pu <;> exact ⟨rfl, rfl, rfl, rfl, rfl, rfl, rfl, rfl⟩
  · cases h

theorem kept_dropPending (s : State) (c : Courier) (n : Nat) (es : List TagEntry) :
    Kept s (s.dropPending c n es) := by
  refine Kept.trans ?_ (kept_updRun _ c _)
  exact kept_updComp s n _ fun _ => ⟨rfl, rfl, rfl, rfl⟩

theorem kept_topUpOver (c : Courier) (es : List TagEntry) :
    ∀ (s : State) (t : TopUp), Kept s (topUpOver c es s t).1 := by
  induction es with
  | nil => intro s t; exact Kept.refl s
  | cons e es ih =>
    intro s t
    unfold topUpOver
    split
    · split
      · split
        · rename_i h
          exact ((kept_createOp h).trans (kept_updRun _ c _)).trans (ih _ _)
        · exact Kept.refl s
      · exact ((kept_afterResolve s _).trans (kept_dropPending _ c _ _)).trans (ih _ _)
    · exact (kept_dropPending s c _ _).trans (ih _ _)

theorem kept_topUp (s : State) (c : Courier) : Kept s (s.topUp c).1 := by
  unfold State.topUp
  split
  · exact Kept.refl s
  · split
    · exact kept_topUpOver c _ s _
    · exact Kept.refl s

theorem kept_topUpEnd (s : State) (c : Courier) : Kept s (s.topUpEnd c) := (kept_topUp s c).trans (kept_endRun _ c)

/-! ### The end of an operation -/

theorem kept_endEffect (s : State) (o : Op) (out : CycleOutcome) (occ : Bool) : Kept s (s.endEffect o out occ).1 := by
  unfold State.endEffect
  split
  · unfold State.endDeposit
    split
    · exact kept_confirmParcel s _ _
    · exact (kept_confirmParcel s _ _).trans (kept_markCause _ _ _)
    · exact kept_undo s _
  · unfold State.endDeposit
    split
    · exact kept_confirmParcel s _ _
    · exact (kept_confirmParcel s _ _).trans (kept_markCause _ _ _)
    · exact kept_undo s _
  · unfold State.endCollect
    dsimp only
    split
    · exact kept_retire s _
    · exact kept_updParcel s _ _
    · exact kept_markCause s _ _
    · exact Kept.refl s
  · unfold State.endSweep
    have h0 : Kept s (s.updComp o.comp fun c => { c with tagOwner := none }) :=
      kept_updComp s _ _ fun _ => ⟨rfl, rfl, rfl, rfl⟩
    dsimp only
    split
    · exact kept_retire s _
    · exact h0.trans (kept_markCause _ _ _)
    · exact h0
  · unfold State.endServiceOpen
    split
    · dsimp only
      exact kept_updComp s _ _ fun _ => ⟨rfl, rfl, rfl, rfl⟩
    · exact kept_markCause s _ _
    · exact Kept.refl s
  · unfold State.endServiceRemove
    dsimp only
    split
    · exact kept_retire s _
    · exact kept_markCause s _ _
    · exact Kept.refl s

theorem kept_restReader (s : State) (r : Nat) : Kept s (s.restReader r) := by
  unfold State.restReader
  split <;> exact kept_updReader s r _

theorem kept_queueReversal (s : State) (v : Reversal) : Kept s (s.queueReversal v).1 := by
  have h1 : Kept s (s.updPbc fun p => { p with reversals := p.reversals ++ [v] }) :=
    kept_readers s _ ⟨rfl, rfl, rfl, rfl⟩
  unfold State.queueReversal
  split
  · dsimp only
    split
    · exact h1.trans (kept_restReader _ _)
    · exact h1
  · exact Kept.refl s

theorem kept_reverseDrop (s : State) (o : Op) (out : CycleOutcome) (r : Nat) : Kept s (s.reverseDrop o out r).1 := by
  unfold State.reverseDrop
  split
  · exact kept_queueReversal s _
  · exact Kept.refl s

theorem kept_handSweep (s : State) (o : Op) (out : CycleOutcome) (note : EndNote) : Kept s (s.handSweep o out note) := by
  unfold State.handSweep
  split
  · exact Kept.refl s
  · dsimp only
    refine Kept.trans ?_ (kept_topUpEnd _ _)
    refine Kept.trans ?_ (kept_topUpEnd _ _)
    split
    · exact (kept_updRun s _ _).trans (kept_post _ _)
    · exact kept_updRun s _ _

theorem kept_dropCharge (s : State) (r : Nat) : Kept s (s.dropCharge r) := kept_updReader s r _

theorem kept_dropParcelRef (s : State) (n ref : Nat) : Kept s (s.dropParcelRef n ref) := kept_updParcel s n _

theorem kept_abandonCharge (s : State) (r : Nat) : Kept s (s.abandonCharge r) := by
  unfold State.abandonCharge
  split
  · exact Kept.refl s
  · split
    · exact ((kept_dropCharge s r).trans (kept_dropParcelRef _ _ _)).trans (kept_restReader _ r)
    · exact kept_updReader s r _

theorem kept_abandonOf (s : State) (job : Nat) : Kept s (s.abandonOf job) := by
  unfold State.abandonOf
  split
  · exact kept_abandonCharge s _
  · exact Kept.refl s

/-- The end of an operation keeps all that `Kept` names. -/
theorem kept_endOp (s : State) (o : Op) (out : CycleOutcome) (occ : Bool) : Kept s (s.endOp o out occ) := by
  unfold State.endOp
  have h1 := kept_endEffect s o out occ
  have h2 := h1.trans (kept_reverseDrop _ o out (s.dropReader o))
  have h3 := h2.trans (kept_updComp _ o.comp (fun c => { c with purpose := none }) fun _ => ⟨rfl, rfl, rfl, rfl⟩)
  have h4 := (h3.trans (kept_updLink _ o.link (fun x => x.leave o.job) fun _ =>
    ⟨rfl, rfl, rfl, rfl, rfl, rfl, rfl, rfl⟩)).trans (kept_removeOp _ o.job)
  generalize s.endEffect o out occ = q at *
  obtain ⟨s1, note⟩ := q
  dsimp only at *
  generalize s1.reverseDrop o out (s.dropReader o) = q at *
  obtain ⟨s2, refused⟩ := q
  dsimp only at *
  have h5 := fun e => h4.trans (kept_post _ e)
  have h6 : ∀ e, Kept s (match note.lapsed with
      | some v => (State.post ((((s2.updComp o.comp fun c => { c with purpose := none }).updLink o.link fun x =>
          x.leave o.job).removeOp o.job).post e) (State.expiredEvent ((((s2.updComp o.comp fun c => { c with
          purpose := none }).updLink o.link fun x => x.leave o.job).removeOp o.job).post e) o.comp v))
      | none => ((((s2.updComp o.comp fun c => { c with purpose := none }).updLink o.link fun x =>
          x.leave o.job).removeOp o.job).post e)) := by
    intro e
    split
    · exact (h5 e).trans (kept_post _ _)
    · exact h5 e
  split
  · refine Kept.trans ?_ (kept_abandonOf _ _)
    split
    · exact (h6 _).trans (kept_handSweep _ _ _ _)
    · exact h6 _
  · split
    · exact (h6 _).trans (kept_handSweep _ _ _ _)
    · exact h6 _

theorem kept_endJob (s : State) (j : Nat) (out : CycleOutcome) : Kept s (s.endJob j out) := by
  unfold State.endJob
  split
  · exact kept_endOp s _ _ _
  · exact Kept.refl s

theorem kept_endJobs (js : List Nat) (out : CycleOutcome) : ∀ s : State, Kept s (s.endJobs js out) := by
  induction js with
  | nil => intro s; exact Kept.refl s
  | cons j js ih => intro s; exact (kept_endJob s j out).trans (ih _)

theorem kept_addCause (s : State) (n : Nat) (c : Cause) : Kept s (s.addCause n c) := by
  unfold State.addCause
  split
  · exact Kept.refl s
  · dsimp only
    split
    · split
      · exact (kept_markCause s n c).trans (kept_endOp _ _ _ _)
      · exact kept_markCause s n c
    · exact kept_markCause s n c

theorem kept_dropStrike (s : State) (l : Nat) : Kept s (s.dropStrike l) := by
  unfold State.dropStrike
  split
  · refine Kept.trans ?_ (kept_updArb _ _ rfl)
    exact kept_updLink s l _ fun _ => ⟨rfl, rfl, rfl, rfl, rfl, rfl, rfl, rfl⟩
  · exact Kept.refl s

theorem kept_holdOp (s : State) (n : Nat) : Kept s (s.holdOp n).1 := by
  unfold State.holdOp
  split
  · exact Kept.refl s
  · split
    · exact Kept.refl s
    · split
      · exact kept_endOp s _ _ _
      · exact kept_endOp s _ _ _
      · split
        · exact Kept.refl s
        · rename_i o _ _ _ _ _
          refine (kept_endOp s o .HELD false).trans ?_
          dsimp only
          unfold State.strikeLosesOp
          split
          · exact kept_updLink _ _ _ fun _ => ⟨rfl, rfl, rfl, rfl, rfl, rfl, rfl, rfl⟩
          · exact kept_dropStrike _ _
      all_goals exact Kept.refl s

theorem kept_holdComp (s : State) (n : Nat) : Kept s (s.holdComp n).1 :=
  (kept_holdOp s n).trans (kept_clearTag _ n)

/-! ### The arbitration pass -/

theorem kept_grant (s : State) (o : Op) : Kept s (s.grant o) := by
  unfold State.grant
  refine Kept.trans ?_ (kept_updComp _ _ _ fun _ => ⟨rfl, rfl, rfl, rfl⟩)
  refine Kept.trans ?_ (kept_updArb _ _ rfl)
  refine Kept.trans ?_ (kept_updOp _ _ _)
  exact kept_updLink s o.link _ fun _ => ⟨rfl, rfl, rfl, rfl, rfl, rfl, rfl, rfl⟩

theorem kept_passLoop (fuel : Nat) : ∀ (run : Nat) (s : State), Kept s (passLoop fuel run s) := by
  induction fuel with
  | zero => intro run s; exact Kept.refl s
  | succ k ih =>
    intro run s
    unfold passLoop
    split
    · exact Kept.refl s
    · split
      · exact (kept_updArb s _ rfl).trans (ih _ _)
      · split
        · exact ((kept_grant s _).trans (kept_updArb _ _ rfl)).trans (ih _ _)
        · split
          · exact (kept_endOp s _ _ _).trans (ih _ _)
          · exact Kept.refl s

/-- An arbitration pass keeps all that `Kept` names. -/
theorem kept_pass (s : State) : Kept s s.pass := kept_passLoop _ _ s

/-! ### Outgoing lists (R150) -/

/-- An outgoing list within its bound is empty, one message, or a RESULT_ACK and one message more. -/
theorem Reader.listOk_cases {x : Reader} (h : x.listOk = true) :
    x.outgoing = [] ∨ (∃ m, x.outgoing = [m] ∧ (m.isAck || m.isOwed) = true) ∨
      ∃ a m, x.outgoing = [a, m] ∧ a.isAck = true ∧ m.isOwed = true := by
  unfold Reader.listOk at h
  generalize x.outgoing = due at h ⊢
  match due, h with
  | [], _ => simp
  | [m], h => simpa using h
  | [a, m], h => simpa using h

/-- No message is both a RESULT_ACK and one that may follow it. -/
theorem BusMsg.not_ack_of_owed {m : BusMsg} (h : m.isOwed = true) : m.isAck = false := by
  cases m <;> first | rfl | cases h

/-- A message that falls due keeps the bound. -/
theorem Reader.owe_listOk {x : Reader} {m : BusMsg} (h : x.listOk = true) (hm : m.isOwed = true) :
    (x.owe m).listOk = true := by
  rcases listOk_cases h with e | ⟨a, e, -⟩ | ⟨a, b, e, ha, hb⟩
  · simp [owe, listOk, e, hm]
  · cases ha : a.isAck <;> simp [owe, listOk, e, ha, hm]
  · simp [owe, listOk, e, ha, BusMsg.not_ack_of_owed hb, hm]

/-- A RESULT_ACK at the head keeps the bound. -/
theorem Reader.ackFirst_listOk {x : Reader} (ref : Nat) (h : x.listOk = true) : (x.ackFirst ref).listOk = true := by
  rcases listOk_cases h with e | ⟨a, e, ha⟩ | ⟨a, b, e, ha, hb⟩
  · simp [ackFirst, listOk, e, BusMsg.isAck]
  · cases hk : a.isAck <;> simp_all [ackFirst, listOk, BusMsg.isAck]
  · have hr : (BusMsg.RESULT_ACK ref).isAck = true := rfl
    simp [ackFirst, listOk, e, ha, BusMsg.not_ack_of_owed hb, hb, hr]

/-! ### The arbiter in the words of the statements (R72, R74, R75) -/

/-- The pointer advances past the link at the turn. -/
theorem State.advance_eq (s : State) : s.advance = s.turnedPast s.arb.turn := rfl

/-- A grant leaves what R75 lists. -/
theorem State.grant_eq (s : State) (o : Op) : s.grant o = s.granted o := rfl

/-- An operation that a link offers is its ready head. -/
theorem State.readyHead_of_offers {s : State} {l : Nat} {o : Op} (h : s.offers l o) : s.readyHead l = some o := by
  obtain ⟨hs, ho, hh⟩ := h
  unfold State.readyHead
  simp only [hs]
  rcases hh with hp | ⟨hp, hm, hb⟩
  · obtain ⟨js, hj⟩ := List.head?_eq_some_iff.mp hp
    simp [hj, ho]
  · obtain ⟨js, hj⟩ := List.head?_eq_some_iff.mp hb
    rcases hm with hm | hm <;> simp [hp, hj, hm, ho, Mode.onMains]

/-- A link that offers nothing has no ready head. -/
theorem State.readyHead_of_offersNone {s : State} {l : Nat} (h : s.offersNone l) : s.readyHead l = none := by
  unfold State.readyHead
  rcases h with hs | ⟨hp, hb | hm | hm⟩
  · simp [hs]
  · simp [hp, hb]
  · simp [hp, hm, Mode.onMains]
  · simp [hp, hm, Mode.onMains]

/-- No exchange that ended before a pass is a step of it (R47, step 3). -/
theorem Link.beginPass_not_step (x : Link) (p : Pass) : (x.beginPass p).lastEnded ≠ .step := by
  unfold Link.beginPass
  dsimp only
  split
  · decide
  · assumption

/-- Beginning a pass changes nothing else of the link. -/
theorem Link.beginPass_eq (x : Link) (p : Pass) :
    x.beginPass p = { x with enumPass := some p, lastEnded := (x.beginPass p).lastEnded } := rfl

end Sys2Proof.Machine
end

