-- ==== Sys2Proof/Laws/Requests.lean ====
section
/-! SUPPORT. What the taking of a request does (R184, R186, R187), said once: the steps before its owner, and the
reply. -/

namespace Sys2Proof.Machine

open Sys2Proof

/-- Beginning a request takes its frame and reads SERVICE_KEY. -/
theorem State.beginRequest_eq (s : State) (h : ReqHead) : s.beginRequest h = s.took h := rfl

/-- A request that is not the next to be taken changes nothing (R187). -/
theorem State.takeRequest_waits {α : Type} (s : State) {h : ReqHead} {kind : Nat} {p : List Byte} (c : Codec α)
    (owner : α → State → Answer) (w : s.kli.turnOf (requestFrame h (byteOf kind) p) = false) :
    s.takeRequest h kind p c owner = s := by
  simp [State.takeRequest, w]

theorem byteOf_add_128 (kind : Nat) : byteOf kind + 0x80 = byteOf (kind + 128) := by
  unfold byteOf
  rw [BitVec.ofNat_add]
  rfl

theorem State.reply_eq (s : State) (h : ReqHead) (kind : Nat) (st : Status) (b : ReplyBody) (hs : st ≠ .BAD_REQUEST) :
    s.reply h (byteOf kind) st b = s.updKli fun k => { k with reply := some (replyTo h kind st b) } := by
  unfold State.reply replyTo
  rw [← byteOf_add_128]
  simp [hs]

theorem kliRefusal_of_asks {h : ReqHead} {kind : Nat} (a : Asks h kind) : kliRefusal h kind = none := by
  obtain ⟨a1, a2⟩ := a
  have h7 : h.station.toNat ≤ 7 := by
    unfold stationMay at a1
    split at a1
    · simp at a1; omega
    · split at a1
      · simp at a1; omega
      · split at a1
        · simp at a1; omega
        · simp at a1; omega
  unfold kliRefusal
  rw [if_neg (by omega), a1, if_neg (by simp), if_neg]
  rintro ⟨b1, b2⟩
  rw [a2 b1] at b2
  cases b2

/-- A request that is not refused and whose payload parses is answered by its owner. -/
theorem State.takeRequest_eq {α : Type} (s : State) {h : ReqHead} {kind : Nat} {p : List Byte} {c : Codec α} {x : α}
    (owner : α → State → Answer) (a : s.asks h kind p) (hp : c.parse p = some x) :
    s.takeRequest h kind p c owner =
      (owner x ((s.took h).clearForKind kind h.station.toNat)).state.reply h (byteOf kind)
        (owner x ((s.took h).clearForKind kind h.station.toNat)).status
        (owner x ((s.took h).clearForKind kind h.station.toNat)).body := by
  unfold State.takeRequest State.answerRequest
  rw [if_pos a.2, State.beginRequest_eq, kliRefusal_of_asks a.1, hp]

/-- A request whose payload does not parse is refused BAD_REQUEST (R186, step 5). -/
theorem State.takeRequest_badRequest {α : Type} (s : State) {h : ReqHead} {kind : Nat} {p : List Byte} {c : Codec α}
    (owner : α → State → Answer) (a : s.asks h kind p) (hp : c.parse p = none) :
    s.takeRequest h kind p c owner = { s with kli := s.kli.rejected h (byteOf kind) } := by
  unfold State.takeRequest State.answerRequest
  rw [if_pos a.2, State.beginRequest_eq, kliRefusal_of_asks a.1, hp]
  rfl

/-- A byte outside A to H is no section letter (R184; R186, step 5). -/
theorem Codec.letter_outside {b : Byte} (q : List Byte) (hb : 8 ≤ b.toNat) : Codec.letter.dec (b :: q) = none := by
  have : ¬ b.toNat < 8 := by omega
  simp [Codec.letter, Codec.below, Codec.next, this]

/-- A section of A to H that is served goes to the owner's own rule (R14, R37). -/
theorem State.onSect_served (s : State) (i : Fin 8) (f : Fin 8 → Answer) (sv : s.serves) :
    s.onSect i.val f = f i := by
  simp [State.onSect, State.serviceCheck, State.starting, sv.1, sv.2, letterOf]

/-- The owner's check of a letter outside A to H (R14, R37, step 3). -/
theorem State.onSect_outside (s : State) {n : Nat} (f : Fin 8 → Answer) (sv : s.serves) (hn : 8 ≤ n) :
    s.onSect n f = s.refuse .NOT_FOUND := by
  have : ¬ n < 8 := by omega
  simp [State.onSect, State.serviceCheck, State.starting, sv.1, sv.2, letterOf, this]

/-- Only kinds 17, 18, 19 and 23 clear a tag list (R177). -/
theorem State.clearForKind_other (s : State) (kind st : Nat) (hk : clearsTags kind = false) :
    s.clearForKind kind st = s := by
  unfold State.clearForKind
  split
  · rw [hk]; simp
  · rfl

theorem Codec.parse_blank {p : List Byte} (h : p.length = 1) : Codec.blank.parse p = some () := by
  match p, h with
  | [b], _ => rfl

/-- A request whose kind clears no tag list and whose owner answers without changing the Kiosk Link Interface ends
in that owner's state with the request taken and the reply formed. -/
theorem State.takeRequest_answered {α : Type} (s : State) {h : ReqHead} {kind : Nat} {p : List Byte} {c : Codec α}
    {x : α} (owner : α → State → Answer) (a : s.asks h kind p) (hp : c.parse p = some x) (hk : clearsTags kind = false)
    (hs : (owner x (s.took h)).status ≠ .BAD_REQUEST) :
    s.takeRequest h kind p c owner = (owner x (s.took h)).state.updKli fun k => { k with
      reply := some (replyTo h kind (owner x (s.took h)).status (owner x (s.took h)).body) } := by
  rw [State.takeRequest_eq s owner a hp, State.clearForKind_other _ _ _ hk, State.reply_eq _ _ _ _ _ hs]

end Sys2Proof.Machine
end

