-- ==== Sys2Proof/WellFormed.lean ====
section
/-! DEFINITION. Well-formed commands: every operand in the range the manual gives it (R46, R54, R149, R184,
R199). -/

namespace Sys2Proof

/-- A link number, 1 to 4 (R45). -/
def linkWf (l : Nat) : Bool := decide (1 ≤ l ∧ l ≤ 4)

/-- A slot number, 1 to 8 (R46). -/
def slotWf (k : Nat) : Bool := decide (1 ≤ k ∧ k ≤ 8)

/-- A board serial of 32 bits (chapter 3). -/
def serialWf (x : Nat) : Bool := decide (x < 4294967296)

/-- A reader number, 1 to 4 (R148). -/
def readerWf (r : Nat) : Bool := decide (1 ≤ r ∧ r ≤ 4)

/-- A job number or a charge reference, 1 to 65535 (R68, R152). -/
def numberWf (n : Nat) : Bool := decide (1 ≤ n ∧ n ≤ 65535)

/-- A request payload: length 4 to 250 less station, kind and tag (R184). -/
def payloadWf (p : List Byte) : Bool := decide (1 ≤ p.length ∧ p.length ≤ 247)

/-- What a restart finds: a clock cell within its 32 bits (R199). -/
def RestartInputs.wf (i : RestartInputs) : Bool :=
  match i.cell with
  | some v => decide (v ≤ Config.max32)
  | none => true

/-- An approval number: 1 to 12 printable characters with APPROVED, absent otherwise (R149). -/
def approvalWf (r : PayResult) (a : Text) : Bool :=
  match r with
  | .APPROVED => decide (1 ≤ a.length ∧ a.length ≤ 12) && a.all fun b => decide (0x20 ≤ b.toNat ∧ b.toNat ≤ 0x7E)
  | .DECLINED | .CUSTOMER_CANCEL => a.isEmpty

/-- Channels of a STATUS: 4, 8, 12 or 16 (chapter 3). -/
def readingsWf (rs : List Reading) : Bool :=
  decide (rs.length = 4 ∨ rs.length = 8 ∨ rs.length = 12 ∨ rs.length = 16)

/-- The command is one the connections of the part can bring. -/
def Instr.wf : Instr → Bool
  | .status _ p | .fetchEvents _ p | .eventMask _ p | .timeSet _ p | .clockAdvance _ p | .mode _ p
  | .quote _ p | .readCompartment _ p | .findParcel _ p | .holdMap _ p | .listBoards _ p
  | .readFaultCapture _ p | .restart _ p | .collect _ p | .pay _ p | .returnDrop _ p | .reserve _ p
  | .reservationRelease _ p | .deposit _ p | .tag _ p | .untag _ p | .sweep _ p | .sweepCancel _ p
  | .serviceOpen _ p | .serviceRemove _ p | .clearFault _ p | .hold _ p | .holdRelease _ p
  | .setOutOfService _ p | .reinstate _ p | .setClass _ p | .sectionDefine _ p | .sectionEnable _ p
  | .mapWrite _ p | .boardAccept _ p | .linkReset _ p | .tariffLoad _ p | .tariffSchedule _ p
  | .config _ p | .clearFaultCapture _ p | .factoryClear _ p => payloadWf p
  | .unknownRequestKind h kind p =>
    payloadWf p && decide (7 < h.station.toNat ∨ kind.toNat = 0 ∨ 41 < kind.toNat)
  | .kioskFrameComplete len body _ =>
    decide (4 ≤ len.toNat ∧ len.toNat ≤ 250 ∧ body.length = len.toNat)
  | .frameGapTimeout _ => true
  | .mainsGoodChange _ | .batteryLowChange _ => true
  | .powerOn i | .brownout i | .hostRestart i => i.wf
  | .minuteTick => true
  | .linkExchangeStart l => linkWf l
  | .rollCallBid l serial => linkWf l && serialWf serial
  | .claim l serial slot chan cur =>
    linkWf l && serialWf serial && slotWf slot && decide (chan ≤ 3 ∧ cur ≤ 7)
  | .boardStatus l slot rs _ => linkWf l && slotWf slot && readingsWf rs
  | .strikeAck l | .boardBusy l | .noChannel l | .boardResponseTimeout l | .rollCallTimerExpiry l
  | .strikeDoneGraceExpiry l | .strikeDurationExpiry l => linkWf l
  | .openWaitExpiry j | .ajarLimitExpiry j | .confirmLimitExpiry j => numberWf j
  | .busExchangeStart => true
  | .chargeTaken r | .readerBusy r | .nothingYet r | .abandoned r | .reversed r | .reverseFailed r
  | .readerResponseTimeout r | .readerPollTimerExpiry r | .paymentTimeout r => readerWf r
  | .result r ref x a => readerWf r && numberWf ref && approvalWf x a
  | .auditLimitExpiry => true
  | .frameLengthDiscard len => decide (len.toNat < 4 ∨ 250 < len.toNat)

end Sys2Proof
end

