-- ==== Sys2Proof/Tests/Slice0.lean ====
section
/-! SUPPORT. Tests: well-formedness, worked examples of the manual, and a witness for the hypotheses of every
statement. -/

namespace Sys2Proof.Tests

-- The kernel evaluates these tests one after the other; elaborated in turn they wait in no thread of their own.
set_option Elab.async false

open Sys2Proof Sys2Proof.Machine

/-! ### Small states -/

/-- The head of a request of a station, SERVICE_KEY on. -/
def req (st : Nat) : ReqHead := { station := byteOf st, tag := 7, keyOn := true }

/-- The page of worked case 1 (chapter 7). -/
def pageA : Page :=
  { freeMin := { S := 240, M := 240, L := 240, XL := 240 }, periodCode := 2,
    rate := { S := 145, M := 145, L := 145, XL := 145 }, dayCap := { S := 900, M := 900, L := 900, XL := 900 },
    ceiling := 5000, unit := 50, windowStart := 60, windowLen := 240, grace := 15, overdueMin := 2880,
    returnFee := { S := 250, M := 300, L := 300, XL := 300 } }

/-- The parcel of worked case 1 (chapter 7). -/
def parcelA : Parcel :=
  { kind := .DELIVERY, pending := false, carrier := 31, text := [0x41], declared := .M, page := some 0,
    depositMinute := 100000, code := some 418305, paid := 0, paidThrough := none, chargeRef := none,
    chargeReader := none, overdue := false, unverified := false, retryUntil := none, prior := none }

/-- A board of 16 channels and 8 strike units. -/
def board : Slot :=
  { Slot.empty with state := .PRESENT, serial := some 11, chanCode := some 3, curCode := some 3,
                    commissioned := some 11 }

/-- Section A: compartments 1 to 8, class M, DIRECT at link 1, slot 1. -/
def sectA : Sect :=
  { first := 1, count := 8, cls := .M, mode := .DIRECT, link := 1, firstSlot := 1, stride := 16, enabled := true,
    hold := false }

/-- A compartment of section A. -/
def compA : Compartment := { Compartment.factory with sect := some 0, cls := .M }

/-- The part after start-up with section A in use, one page, and every reader IDLE. -/
def base : State := { State.reset with
  comps := (List.range' 1 8).foldl (fun v n => tput v n compA) State.reset.comps
  sects := State.reset.sects.set 0 sectA
  links := tput (Vector.replicate 4 Link.empty) 1 { Link.empty with slots := tput Link.empty.slots 1 board }
  tariff := { State.reset.tariff with pages := State.reset.tariff.pages.set 0 (some pageA) }
  pbc := { State.reset.pbc with readers := Vector.replicate 4 { Reader.empty with state := .IDLE } }
  scu := { State.reset.scu with phase := none, minute := 101700, wallOffset := 470 } }

/-- Compartment 1 LOADED with the parcel of worked case 1. -/
def loaded : State :=
  { base.withComp 1 { compA with state := .LOADED, parcel := some parcelA } with
    tariff := { base.tariff with refs := base.tariff.refs.set 0 1 } }

/-- An operation on a compartment of section A. -/
def opA (pu : Purpose) (st n : Nat) (g : Stage) : Op :=
  newOp 7 pu st n { link := 1, slot := 1, channel := n - 1 } 8 g

/-- A state with one operation in its table. -/
def withOp (s : State) (o : Op) : State := { s with hce := { ops := [o], lastJob := 7 } }

/-- A link with a message on its line. -/
def awaiting (s : State) (m : LinkMsg) : State := s.withLink 1 { s.link 1 with line := some m }

/-- A strike of job 7 on compartment 1. -/
def strikeA : Strike :=
  { job := 7, comp := 1, slot := 1, channel := 0, units := 8, failed := 0, duration := 500, ackMinute := none,
    durationRun := false, slotLost := false, opEnded := false, late := false, hatchSeen := none }

/-- A charge of job 7 for the parcel of worked case 1. -/
def chargeA : Charge :=
  { ref := 9, amount := 1650, phase := .TAKEN, job := some 7, comp := 1, ident := parcelA.ident,
    timeout := some 90, offer := true }

/-- Reader 1 with a charge and a message on the bus. -/
def charging (s : State) (c : Charge) (st : ReaderState) (m : BusMsg) : State :=
  { s.withReader 1 { Reader.empty with state := st, charge := some c } with
    pbc := { (s.withReader 1 { Reader.empty with state := st, charge := some c }).pbc with line := some (1, m) } }

/-- The reading of one channel. -/
def reading (o oc st : Bool) : Reading := { hatchOpen := o, occupied := oc, settled := st }

/-- What a command leaves. -/
def after (s : State) (c : Instr) : State :=
  match exec c s with
  | .next t => t
  | _ => s

/-! ### Well-formedness: an ill-formed command for each check -/

theorem test_wf_empty_payload : (Instr.status (req 0) []).wf = false := by decide
theorem test_wf_unknown_kind_known : (Instr.unknownRequestKind (req 0) 5 [0]).wf = false := by decide
theorem test_wf_frame_length : (Instr.kioskFrameComplete 5 [0, 1, 2, 3] 0).wf = false := by decide
theorem test_wf_clock_cell :
    (Instr.powerOn { straps := Straps.atReset, mainsGood := true, batteryLow := false,
                     cell := some 4294967296 }).wf = false := by decide
theorem test_wf_link : (Instr.linkExchangeStart 5).wf = false := by decide
theorem test_wf_serial : (Instr.rollCallBid 1 4294967296).wf = false := by decide
theorem test_wf_claim_code : (Instr.claim 1 7 1 4 0).wf = false := by decide
theorem test_wf_slot : (Instr.claim 1 7 9 0 0).wf = false := by decide
theorem test_wf_readings : (Instr.boardStatus 1 1 [reading false false true] false).wf = false := by decide
theorem test_wf_job : (Instr.openWaitExpiry 0).wf = false := by decide
theorem test_wf_reader : (Instr.chargeTaken 5).wf = false := by decide
theorem test_wf_reference : (Instr.result 1 0 .DECLINED []).wf = false := by decide
theorem test_wf_approval : (Instr.result 1 1 .DECLINED [0x41]).wf = false := by decide
theorem test_wf_discard_valid : (Instr.frameLengthDiscard 4).wf = false := by decide
theorem test_wf_holds : (Instr.claim 1 7 8 3 7).wf = true ∧ (Instr.result 1 1 .APPROVED [0x41]).wf = true := by decide

/-! ### Worked examples of the manual -/

/-- Worked case 1 at 101,700: due 1,650, N 25, closed 4, DAY_CAP and ROUNDED (chapter 7). -/
theorem test_quote_case_1 : quoteOn pageA 470 101700 parcelA =
    { due := 1650, total := 1650, paid := 0, dwell := 1700, periods := 25, closed := 4, paidUp := false,
      dwellClamped := false, dayCap := true, ceiling := false, rounded := true } := by decide +kernel

/-- Worked case 1 at 101,760 after the payment: N 26, due 150 (chapter 7). -/
theorem test_quote_case_1_later :
    (quoteOn pageA 470 101760 { parcelA with paid := 1650, paidThrough := some 101717 }).due = 150 := by
  decide +kernel

/-- The page of worked case 2, its ceiling as sent. -/
def pageB : Page :=
  { pageA with
    freeMin := { S := 60, M := 0, L := 0, XL := 0 }, periodCode := 1, rate := { S := 60, M := 0, L := 0, XL := 0 }
    dayCap := { S := 0, M := 0, L := 0, XL := 0 }, windowStart := 1380, windowLen := 360, unit := 100
    ceiling := 1234 }

/-- The parcel of worked case 2. -/
def parcelB : Parcel := { parcelA with declared := .S, depositMinute := 500000 }

/-- Worked case 2: the ceiling 1,234 is stored as 1,200; quotes A, B and C are 1,000, 1,100 and 1,200 (chapter 7). -/
theorem test_quote_case_2 : pageB.clamped.ceiling = 1200 ∧
    (quoteOn pageB.clamped 1000 500900 parcelB).due = 1000 ∧
    (quoteOn pageB.clamped 1060 500900 parcelB).due = 1100 ∧
    (quoteOn pageB.clamped 1060 502000 parcelB).due = 1200 ∧
    (quoteOn pageB.clamped 1060 502000 parcelB).closed = 22 := by decide +kernel

/-- The check bytes of chapter 2's example. -/
theorem test_check_bytes : checkByte 145 3 1 0 = 61 ∧ checkByte 146 2 4 11 = 215 ∧ checkByte 146 3 1 1 = 69 := by
  decide

/-- The DIRECT addresses of chapter 2's example: compartments 97, 110, 120 and 144 of section C. -/
theorem test_direct_addresses :
    let x : Sect := { sectA with first := 97, count := 48, link := 2, firstSlot := 3, stride := 12 }
    x.directAddr 97 = ⟨2, 3, 0⟩ ∧ x.directAddr 110 = ⟨2, 4, 1⟩ ∧ x.directAddr 120 = ⟨2, 4, 11⟩ ∧
      x.directAddr 144 = ⟨2, 6, 11⟩ := by decide

/-- Chapter 6's example: at 200,008 five entries do not lock, at 200,009 they do. -/
theorem test_lockout :
    lockoutTest (wrongAppend [199998, 200002, 200003, 200006] 200008) 200008 = false ∧
    lockoutTest (wrongAppend [199998, 200002, 200003, 200006, 200008] 200009) 200009 = true := by decide

/-- The arbiter's example (chapter 4): four heads on four links, 24 units. -/
def arbiterState : State :=
  let op := fun (j : Nat) (pu : Purpose) (n l u : Nat) => newOp j pu 1 n { link := l, slot := 1, channel := 0 } u .QUEUED
  { base with
    hce := { ops := [op 401 .COLLECT 1 1 8, op 405 .COLLECT 2 1 4, op 402 .DEPOSIT 3 2 16, op 406 .DEPOSIT 4 2 16,
                     op 403 .SWEEP 5 3 12, op 404 .SERVICE_OPEN 6 4 12], lastJob := 406 }
    links := tput (tput (tput (tput base.links 1 { Link.empty with prio := [401, 405] })
      2 { Link.empty with prio := [402, 406] }) 3 { Link.empty with bulk := [403] }) 4 { Link.empty with prio := [404] } }

/-- The first pass grants 401 and 402 and holds the turn at link 3. -/
theorem test_arbiter_first_pass : arbiterState.pass.arb = { capacity := 24, granted := 24, turn := 3 } := by
  decide +kernel

/-- After link 2's units come back, 403 and 404 are granted and link 1 holds the turn. -/
theorem test_arbiter_third_pass :
    (((arbiterState.pass.dropStrike 1).pass).dropStrike 2).pass.arb = { capacity := 24, granted := 24, turn := 1 } := by
  decide +kernel

/-- The check of the nine characters as the register steps through it byte by byte. -/
theorem test_crc_first_byte : crcByte 0xFFFF#16 0x31#8 = 0xC782#16 := by decide

/-- A QUOTE of compartment 1 at now answers the quote of case 1. -/
theorem test_status_reply_kind :
    ((after base (.status (req 0) [0])).kli.reply.map fun r => (r.kind, r.status)) = some (0x81, .OK) := by
  decide +kernel

/-- Worked case 1 with its fee paid. -/
def paidA : State :=
  loaded.withComp 1 { compA with
    state := .LOADED, parcel := some { parcelA with paid := 1650, paidThrough := some 101717 } }

/-- A collection of job 7 on the paid parcel, its hatch open, with a poll of its board on the line. -/
def openedA : State :=
  awaiting (withOp (paidA.withComp 1 { paidA.comp 1 with purpose := some .COLLECT })
    { opA .COLLECT 1 1 .OPEN with opened := true, ajar := some 120 }) (.poll 1)

/-- What the reading that shows the hatch closed and the compartment empty leaves. -/
def closedA : State :=
  openedA.opReading { opA .COLLECT 1 1 .OPEN with opened := true, ajar := some 120 } (reading false false true)

/-- The reading takes the operation to AWAIT_CONFIRM and ends it: the compartment is FREE and its code retired. -/
theorem test_collect_completes : (closedA.comp 1).state = .FREE ∧ closedA.hce.ops = [] ∧
    closedA.alloc.retired = [{ code := 418305, minute := 101700 }] ∧
    closedA.kli.queue.map (·.kind) = [.CYCLE_DONE] := by decide +kernel

/-- A SWEEP run is taken in the order of its compartments, a search in the order of wear (R93, R178). -/
theorem test_wear_order : (base.withComp 1 { compA with hatchCount := 3 }).wearOrder .M = [2, 3, 4, 5, 6, 7, 8, 1] := by
  decide +kernel

/-! ### Witnesses: for each statement with hypotheses, states and operands that meet them together -/

theorem none_any {α : Type} {o : Option α} {P : α → Prop} (h : o = none) : ∀ x, o = some x → P x := by
  rintro x rfl
  cases h

theorem some_only {α : Type} {o : Option α} {a : α} {P : α → Prop} (h : o = some a) (hp : P a) :
    ∀ x, o = some x → P x := by
  intro x hx
  rw [h] at hx
  cases hx
  exact hp

/-- A property of every entry of a table and of its default holds at every number. -/
theorem tget_all {α : Type} {n : Nat} (v : Vector α n) (d : α) (P : α → Bool) (h : v.toList.all P = true)
    (hd : P d = true) (i : Nat) : P (tget v d i) = true := by
  cases i with
  | zero => exact hd
  | succ k =>
    simp only [tget]
    cases hk : v[k]? with
    | none => exact hd
    | some x =>
      obtain ⟨hl, rfl⟩ := Vector.getElem?_eq_some_iff.mp hk
      exact List.all_eq_true.mp h _ (by simp)

/-- An outcome that is a next state with a property the kernel evaluates. -/
theorem next_with {o : Host.Outcome State Fault Refusal} (P : State → Bool)
    (h : (match o with | .next t => P t | _ => false) = true) : ∃ t, o = .next t ∧ P t = true := by
  cases o with
  | next t => exact ⟨t, rfl, h⟩
  | fault r => cases h
  | refused r => cases h

/-- Step is next, with a property. -/
def stepsTo (s : State) (P : State → Bool) : Bool :=
  match step s with
  | .next t => P t
  | _ => false

theorem steps_of {s : State} {P : State → Bool} (h : stepsTo s P = true) : ∃ t, step s = .next t ∧ P t = true :=
  next_with P h

/-- Reset with a minute waiting. -/
def ticking : State := { State.reset with pending := [.minuteTick] }

theorem ticking_comp (n : Nat) : ticking.comp n = Compartment.factory := by
  have h := tget_all ticking.comps Compartment.factory (fun c => decide (c = .factory)) (by decide +kernel) (by decide) n
  exact of_decide_eq_true h

theorem ticking_slot (l k : Nat) : ticking.slot l k = Slot.empty := by
  have h := tget_all ticking.links Link.empty (fun x => x.slots.toList.all fun y => decide (y = Slot.empty))
    (by decide +kernel) (by decide +kernel) l
  have g := tget_all (ticking.link l).slots Slot.empty (fun y => decide (y = Slot.empty)) h (by decide +kernel) k
  exact of_decide_eq_true g

theorem witness_StepRunsTheFrontCommand :
    (∃ c cs, ({ base with pending := [.minuteTick] } : State).pending = c :: cs) ∧ base.pending = [] :=
  ⟨⟨_, _, rfl⟩, rfl⟩

theorem witness_KioskLinkInvariantKept : ticking.kli.ok ∧ ∃ t, step ticking = .next t ∧ true = true := by
  refine ⟨⟨by decide, by decide, fun c => ?_, ?_⟩, steps_of (P := fun _ => true) (by decide +kernel)⟩
  · cases c <;> simp [ticking, State.reset, ClassSet.none, ClassSet.get]
  · constructor
    · intro h; cases h
    · rintro (h | ⟨c, -, h⟩)
      · cases h
      · cases c <;> cases h

theorem witness_SupplyInvariantKept : ticking.supplyOk := by decide +kernel

/-- Lists and counters within their sizes, entry by entry, in a state with no sweep run and no operation. -/
theorem bounded_of {s : State}
    (h : (decide (s.hce.ops.length ≤ 48 ∧ s.hce.lastJob ≤ 65535 ∧ s.alloc.retired.length ≤ 128 ∧
        s.pbc.reversals.length ≤ 8 ∧ s.pbc.refCounter ≤ 65535 ∧ s.capture.further ≤ 255 ∧
        s.scu.minute ≤ 4294967295 ∧ s.scu.persisted ≤ 4294967295) &&
      decide (s.swu.k1.tags.length ≤ 64 ∧ s.swu.k1.run = none ∧ s.swu.k2.tags.length ≤ 64 ∧ s.swu.k2.run = none) &&
      s.gates.toList.all (fun g => decide (g.wrong.length ≤ 5)) &&
      s.comps.toList.all (fun c => decide (c.hatchCount ≤ 4294967295)) &&
      s.pbc.readers.toList.all (fun x => decide (x.unanswered ≤ 2)) &&
      s.links.toList.all (fun x => x.slots.toList.all (fun y => decide (y.unanswered ≤ 2))) &&
      s.links.toList.all (fun x => decide (∀ p ∈ x.enumPass, p.rounds ≤ 15)) && decide (s.hce.ops = []) &&
      s.links.toList.all (fun x => decide (x.prio.length ≤ 6 ∧ x.bulk.length ≤ 24)) &&
      s.pbc.readers.toList.all (fun x => x.listOk)) = true) : s.bounded := by
  simp only [Bool.and_eq_true] at h
  obtain ⟨⟨⟨⟨⟨⟨⟨⟨⟨h1, h2⟩, h3⟩, h4⟩, h5⟩, h6⟩, h7⟩, h8⟩, h9⟩, h10⟩ := h
  have ops : s.hce.ops = [] := of_decide_eq_true h8
  obtain ⟨t1, r1, t2, r2⟩ := of_decide_eq_true h2
  refine ⟨of_decide_eq_true h1, fun k => ?_, fun st => of_decide_eq_true (tget_all _ _ _ h3 (by decide) st),
    fun n => of_decide_eq_true (tget_all _ _ _ h4 (by decide) n),
    fun r => of_decide_eq_true (tget_all _ _ _ h5 (by decide) r),
    fun l k => of_decide_eq_true (tget_all _ _ _ (tget_all _ _ _ h6 (by decide +kernel) l) (by decide) k),
    fun l p hp => of_decide_eq_true (tget_all _ _ _ h7 (by decide) l) p hp,
    fun st => by simp [State.stationOps, ops], by simp [State.sweepOps, ops], fun l => ?_,
    fun r => tget_all _ _ _ h10 (by decide) r⟩
  rotate_left
  · have g := of_decide_eq_true (tget_all _ Link.empty _ h9 (by decide) l)
    exact ⟨by simpa [State.prioTaken, ops, State.link] using g.1, g.2⟩
  cases k with
  | K1 => exact ⟨t1, none_any r1⟩
  | K2 => exact ⟨t2, none_any r2⟩

theorem witness_BoundsKept : ticking.bounded ∧
    (let s := base.withLink 1 { base.link 1 with prio := [1, 2, 3, 4, 5] }
     s.hce.ops.length < 48 ∧ s.stationOps 7 < 4 ∧ s.prioTaken 1 < 6) ∧
    ¬ (base.withLink 1 { base.link 1 with prio := [1, 2, 3, 4, 5, 6] }).prioTaken 1 < 6 ∧
    (base.sweepOps < 24 ∧ (base.link 4).bulk.length < 24) ∧
    (let s := withOp base (opA .COLLECT 1 1 .AWAIT_PAYMENT)
     (s.hce.ops.map (·.job)).Nodup ∧ s.opByJob 7 = some (opA .COLLECT 1 1 .AWAIT_PAYMENT) ∧
      (s.slot 1 1).state = .PRESENT) := ⟨bounded_of (by decide +kernel), by decide +kernel⟩

theorem witness_ReferenceCountsKept : ticking.parcelsPlaced ∧ ticking.refsExact :=
  ⟨fun n _ => by rw [ticking_comp]; rfl, by unfold State.refsExact; decide +kernel⟩

theorem witness_CodesStayDistinct : ticking.parcelsPlaced ∧ ticking.codesDistinct :=
  ⟨fun n _ => by rw [ticking_comp]; rfl, by unfold State.codesDistinct; decide +kernel⟩

theorem witness_GrantedUnitsAreThoseOfTheStrikes : ticking.grantsExact ∧ ticking.oneOpEach := by
  refine ⟨⟨by decide +kernel, by decide, by decide, (by intro o h; cases h), ?_⟩, List.nodup_nil⟩
  intro l j h
  have g := tget_all ticking.links Link.empty (fun x => decide (x.prio = [] ∧ x.bulk = [])) (by decide +kernel)
    (by decide +kernel) l
  have g' : (ticking.link l).prio = [] ∧ (ticking.link l).bulk = [] := of_decide_eq_true g
  rw [g'.1, g'.2] at h
  cases h

theorem witness_SlotsKeepTheirSerials : ticking.slotsOk := fun l k => by rw [ticking_slot]; decide

theorem witness_AliasLawKept : ticking.sectionsAgree ∧ ticking.aliasFree := by
  refine ⟨fun n h1 _ i => ?_, fun n m a _ _ _ _ h => ?_⟩
  · rw [ticking_comp]
    have hs : ticking.sect i = Sect.factory := by revert i; decide +kernel
    rw [hs]
    simp [Compartment.factory, Sect.coversNo, Sect.factory]
    omega
  · rw [ticking_comp] at h
    cases h

/-- The strike of `strikeA` on the line of link 1. -/
def striking : State :=
  { awaiting base (.strike 1 0 500 1) with pending := [.strikeAck 1] }.updLink 1 fun x => { x with strike := some strikeA }

theorem witness_HatchCountRisesOnlyAtStrikeAck :
    ∃ t, step striking = .next t ∧ decide ((t.comp 1).hatchCount ≠ (striking.comp 1).hatchCount) = true :=
  steps_of (by decide +kernel)

/-- A payload of TARIFF_LOAD. -/
def loadBytes (i : Nat) : List Byte := Codec.loadReq.enc (i, pageA)

theorem witness_TariffPagesChangeOnlyByLoadAndClear :
    (∃ t, step { base with pending := [.tariffLoad (req 7) (loadBytes 3)] } = .next t ∧
      decide (t.page 3 ≠ base.page 3) = true) ∧
    (∃ t, step { base with pending := [.factoryClear (req 7) [0]] } = .next t ∧
      decide (t.page 0 ≠ base.page 0) = true) :=
  ⟨steps_of (by decide +kernel), steps_of (by decide +kernel)⟩

/-- SECTION_DEFINE of section H as MAPPED, compartments 233 to 240. -/
def defineH : DefineReq := { sect := 7, first := 233, count := 8, cls := .S, geometry := .inr () }

theorem witness_SectionsAndMapChangeOnlyByTheirRequests :
    (∃ t, step { base with pending := [.hold (req 7) (Codec.target.enc (.inr 0))] } = .next t ∧
      decide (t.sects ≠ base.sects) = true) ∧
    (∃ t, step { base.setMapEntry 240 (some ⟨1, 1, 1, 0⟩) with
        pending := [.sectionDefine (req 7) (Codec.defineReq.enc defineH)] } = .next t ∧
      decide (t.hatchMap ≠ (base.setMapEntry 240 (some ⟨1, 1, 1, 0⟩)).hatchMap) = true) :=
  ⟨steps_of (by decide +kernel), steps_of (by decide +kernel)⟩

/-- Restart inputs other than those of reset. -/
def inputsB : RestartInputs :=
  { straps := { mains := .u32, links := .two, readers := 0 }, mainsGood := false, batteryLow := true, cell := none }

theorem witness_SettingsChangeOnlyByTheirRequests :
    (∃ t, step { base with pending := [.powerOn inputsB] } = .next t ∧ decide (t.scu.straps ≠ base.scu.straps) = true) ∧
    (∃ t, step { base with pending := [.config (req 7) (Codec.configReq.enc { ConfigVals.factory with openWait := 5 })] }
      = .next t ∧ decide (t.scu.config ≠ base.scu.config) = true) ∧
    (∃ t, step { base with pending := [.timeSet (req 0) (be16 1439)] } = .next t ∧
      decide (t.scu.wallOffset ≠ base.scu.wallOffset) = true) ∧
    (∃ t, step { base with pending := [.mode (req 0) [1]] } = .next t ∧ decide (t.scu.base ≠ base.scu.base) = true) ∧
    (∃ t, step { base with pending := [.eventMask (req 0) [0, 0, 0, 0, 0]] } = .next t ∧
      decide (t.kli.mask ≠ base.kli.mask) = true) :=
  ⟨steps_of (by decide +kernel), steps_of (by decide +kernel), steps_of (by decide +kernel),
    steps_of (by decide +kernel), steps_of (by decide +kernel)⟩

/-! #### Frames and the management station -/

theorem witness_PayloadsParseBack : Codec.nat16.wf 65535 = true ∧ Codec.code.wf 999999 = true ∧
    (Codec.below 5).wf 4 = true ∧ Codec.findReq.wf (.inr [0x41]) = true ∧
    Codec.depositReq.wf { carrier := 250, declared := .XL, text := [0x41], upsize := true, ref := some 65535 } = true ∧
    Codec.defineReq.wf defineH = true ∧ Codec.mapReq.wf (240, .inr ()) = true ∧ Codec.loadReq.wf (3, pageA) = true ∧
    (Codec.nat8.pair Codec.nat32).wf (3, 4294967295) = true ∧ Codec.configReq.wf ConfigVals.factory = true := by
  decide

theorem witness_ReceiverTakesAndDiscardsFrames :
    (([0] : List Byte).length + 3 = (4 : Byte).toNat ∧ base.kli.rx.length < 3) ∧
    ((List.replicate 247 (0 : Byte)).length + 3 = (250 : Byte).toNat ∧
      3 ≤ (List.replicate 3 (⟨0, 1, 0, [0]⟩ : RxFrame)).length) ∧
    (0 : BitVec 16) ≠ crc16 [4, 0, 1, 0, 0] ∧ (3 : Byte).toNat < 4 ∧ 250 < (251 : Byte).toNat := by decide +kernel

/-- A request of the service station with SERVICE_KEY off. -/
def keyOff : ReqHead := { req 7 with keyOn := false }

/-- `base` with a frame of LIST_BOARDS waiting. -/
def queued : State := base.updKli fun k => { k with rx := [requestFrame (req 0) (byteOf 11) [9]] }

theorem witness_RefusedRequestsReachNoOwner :
    (7 < (req 8).station.toNat ∧ (0 : Byte).toNat = 0 ∧ 41 < (42 : Byte).toNat) ∧
    (base.kli.turnOf (requestFrame (req 8) 0 [0]) = true ∧ queued.kli.turnOf (requestFrame (req 8) 0 [0]) = false) ∧
    ((∃ f, requestOf 1 = some f) ∧ ∃ f, requestOf 41 = some f) ∧
    (queued.kli.turnOf (requestFrame (req 0) (byteOf 1) [0]) = false ∧
      queued.kli.turnOf (requestFrame (req 0) (byteOf 11) [9]) = true) ∧
    ((req 1).station.toNat ≤ 7 ∧ ¬ (req 1).station.toNat = 0) ∧ (keyOff.station.toNat = 7 ∧ keyOff.keyOn = false) ∧
    (Asks (req 0) 1 ∧ parses 1 [] = false) ∧ (Asks (req 7) 41 ∧ parses 41 [0, 0] = false) ∧
    (Asks (req 7) 31 ∧ parses 31 [1, 4] = false) := by
  have known : (∃ f, requestOf 1 = some f) ∧ ∃ f, requestOf 41 = some f := ⟨⟨_, rfl⟩, _, rfl⟩
  exact ⟨by decide, by decide +kernel, known, by decide +kernel⟩

theorem witness_ReadingRequestsChangeNothing :
    (base.asks (req 0) 1 [0] ∧ base.asks (req 0) 8 [240] ∧ loaded.asks (req 0) 9 (Codec.findReq.enc (.inl 418305)) ∧ base.asks (req 0) 11 [0] ∧ loaded.asks (req 0) 7 (Codec.quoteReq.enc ⟨.inr 1, none⟩)) ∧
    (Codec.nat8.parse [240] = some 240 ∧ isComp 240) ∧
    (Codec.findReq.parse (Codec.findReq.enc (.inl 418305)) = some (.inl 418305) ∧ loaded.matches (.inl 418305) ≠ []) ∧
    (Codec.quoteReq.parse (Codec.quoteReq.enc ⟨.inr 1, none⟩) = some { what := .inr 1, minute := none } ∧
      (loaded.comp 1).parcel = some parcelA ∧ parcelA.page = some 0) ∧
    (Codec.quoteReq.parse (Codec.quoteReq.enc ⟨.inl 418305, some 101760⟩) =
        some { what := .inl 418305, minute := some 101760 } ∧ parcelA.code = some 418305 ∧
      ∀ k y, isComp k → k < 1 → (loaded.comp k).parcel = some y → y.code ≠ some 418305) :=
  ⟨by decide, by decide, by decide +kernel, by decide +kernel, by decide, by decide,
    fun k _ hk hlt _ => absurd hk.1 (by omega)⟩

theorem witness_HoldMapShowsTheHolds : base.asks (req 0) 10 [255] ∧ (0 : Nat) < 256 ∧ (255 : Nat) < 256 := by decide

theorem witness_FetchTakesTheOldestRecords : base.asks (req 0) 2 [255] ∧ (0 : Nat) < 256 ∧ (255 : Nat) < 256 := by decide

theorem witness_EventMaskIsStoredWhole :
    base.asks (req 0) 3 (Codec.mask.enc ClassSet.none) ∧ Codec.mask.parse (Codec.mask.enc ClassSet.none) = some ClassSet.none := by decide

theorem witness_TimeSetPlacesTheWallMinute :
    base.asks (req 0) 4 (be16 1439) ∧ Codec.nat16.parse (be16 1439) = some 1439 ∧ base.scu.phase = none := by decide +kernel

theorem witness_ClockAdvanceRaisesTheCounter :
    let s : State := base.updScu fun u => { u with timeGap := true }
    s.asks (req 0) 5 (be16 65535) ∧ Codec.nat16.parse (be16 0) = some 0 ∧
      Codec.nat16.parse (be16 65535) = some 65535 ∧ s.scu.phase = none ∧ s.scu.timeGap = true := by decide +kernel

theorem witness_ModeFollowsTheInputsAndTheBaseMode :
    (base.asks (req 0) 6 [1] ∧ (Codec.below 5).parse [1] = some 1 ∧ base.scu.phase = none ∧ base.supplyOk ∧
      base.scu.mainsGood = true ∧ BaseMode.NIGHT.toMode ≠ base.scu.mode ∧ BaseMode.OPEN.toMode = base.scu.mode) ∧
    (∃ u, (Instr.mainsGoodChange false = .mainsGoodChange false ∧ u = { base.scu with mainsGood := false }) ∧
      (if u.mainsGood then u.base.toMode else if u.batteryLow then .DORMANT else .BATTERY) ≠ base.scu.mode) ∧
    (∃ u, (Instr.batteryLowChange true = .batteryLowChange true ∧ u = { base.scu with batteryLow := true }) ∧
      (if u.mainsGood then u.base.toMode else if u.batteryLow then .DORMANT else .BATTERY) = base.scu.mode) ∧
    (∀ l, (base.link l).prio = [] ∧ (base.link l).bulk = []) ∧ base.swu.k1.run = none ∧ base.swu.k2.run = none :=
  ⟨by decide +kernel, ⟨_, ⟨rfl, rfl⟩, by decide +kernel⟩, ⟨_, ⟨rfl, rfl⟩, by decide +kernel⟩,
    fun l => of_decide_eq_true (tget_all base.links Link.empty (fun x => decide (x.prio = [] ∧ x.bulk = []))
      (by decide +kernel) (by decide +kernel) l), rfl, rfl⟩

/-- MODE to NIGHT on mains changes the mode, posts MODE_CHANGED and answers with the mode it then has. -/
theorem test_mode_night :
    let t := after base (.mode (req 0) [1])
    t.scu.mode = .NIGHT ∧ t.kli.queue.map (fun e => (e.mode, e.prevMode)) = [(some .NIGHT, some .OPEN)] ∧
      t.kli.reply.map (·.body) = some (.modes .NIGHT .NIGHT) := by decide +kernel

theorem witness_RestartsClearAndKeep :
    (base.asks (req 0) 13 [0] ∧ ([0] : List Byte).length = 1) ∧
    ((Instr.powerOn inputsB = .powerOn inputsB ∧ ResetCause.POWER_ON = .POWER_ON) ∧ inputsB.cell = none) ∧
    (Instr.hostRestart { inputsB with cell := some 4294967295 } =
      .hostRestart { inputsB with cell := some 4294967295 }) := by decide

theorem witness_FaultCaptureIsReadAndCleared :
    base.asks (req 0) 12 [0] ∧ (State.reset.asks (req 7) 40 [0] ∧ State.reset.scu.phase ≠ none) ∧
      (base.asks (req 7) 40 [0] ∧ base.scu.phase = none) ∧ base.capture = { held := none, further := 0 } := by decide +kernel

/-! #### Customers -/

/-- No station is locked out. -/
theorem unlocked {s : State} {k : Nat} (h : (s.gates.toList.all fun g => decide (g.lockout = none)) = true) (st : Nat) :
    ∀ m, (s.gate st).lockout = some m → m ≤ k :=
  none_any (of_decide_eq_true (tget_all s.gates { wrong := [], lockout := none } (fun g => decide (g.lockout = none)) h
    (by decide) st))

/-- The paid parcel of worked case 1. -/
def parcelPaid : Parcel := { parcelA with paid := 1650, paidThrough := some 101717 }

theorem witness_CollectionWithNothingDueIsQueued :
    (∀ m, (paidA.gate 1).lockout = some m → m ≤ paidA.now) ∧
    (paidA.asks (req 1) 14 (Codec.code.enc 418305) ∧ paidA.asks (req 4) 15 (Codec.code.enc 418305)) ∧
    Codec.code.parse (Codec.code.enc 418305) = some 418305 ∧ paidA.scu.phase = none ∧
    (paidA.scu.mode = .OPEN ∨ paidA.scu.mode = .BATTERY) ∧ paidA.lookup 418305 = some 1 ∧
    (paidA.comp 1).parcel = some parcelPaid ∧ paidA.held 1 = false ∧ (paidA.comp 1).causes.isEmpty = true ∧
    paidA.hasOp 1 = false ∧ (paidA.feeGround parcelPaid).due = 0 ∧ paidA.resolution 1 = .ok ⟨1, 1, 0⟩ 8 ∧
    8 ≤ paidA.arb.capacity ∧ paidA.hasRoom 1 1 ∧ paidA.hasRoom 4 1 :=
  ⟨unlocked (by decide +kernel) 1, by decide +kernel⟩

/-- The parcel of case 1 loaded, with a station's wrong-code list and lockout. -/
def gated (l : List Nat) (m : Option Nat) : State := loaded.setGate 1 { wrong := l, lockout := m }

theorem witness_CollectionRefusals :
    (loaded.asks (req 4) 15 (Codec.code.enc 418305) ∧ 0 < (withOp loaded (opA .COLLECT 1 2 .QUEUED)).stationOps 1 ∧
      (loaded.withComp 1 { loaded.comp 1 with ownHold := true }).held 1 = true ∧
      (loaded.withComp 1 { loaded.comp 1 with causes := { forced := true } }).lookup 418305 = some 1 ∧
      (withOp loaded (opA .SERVICE_OPEN 7 1 .QUEUED)).hasOp 1 = true ∧
      (withOp loaded (opA .SERVICE_OPEN 7 1 .QUEUED)).stationOps 1 = 0 ∧ State.reset.scu.phase ≠ none) ∧
    (loaded.asks (req 1) 14 (Codec.code.enc 418305) ∧ Codec.code.parse (Codec.code.enc 418305) = some 418305 ∧ loaded.scu.phase = none) ∧
    ((gated [] (some 101701)).gate 1).lockout = some 101701 ∧ (gated [] (some 101701)).now < 101701 ∧
    ((∀ m, (loaded.gate 1).lockout = some m → m ≤ loaded.now) ∧ loaded.stationOps 1 = 0 ∧
      loaded.lookup 418305 = some 1 ∧ (loaded.comp 1).parcel = some parcelA ∧ loaded.held 1 = false ∧
      (loaded.comp 1).causes.isEmpty = true ∧ loaded.hasOp 1 = false ∧
      loaded.feeGround parcelA = .quoted (loaded.quoteAt loaded.now parcelA) ∧
      0 < (loaded.quoteAt loaded.now parcelA).due) ∧
    (∀ w, w = [101691, 101692, 101699, 101700] ∨ w = [101690, 101692, 101699, 101700] →
      (gated w none).lookup 418306 = none ∧ ((gated w none).gate 1).wrong = w ∧ w.length ≤ 5 ∧
      ∀ m ∈ w, m ≤ (gated w none).now) ∧
    (101700 < 101691 + 10 ∧ ¬ 101700 < 101690 + 10) := by
  refine ⟨by decide +kernel, by decide +kernel, by decide +kernel, by decide +kernel,
    ⟨unlocked (by decide +kernel) 1, by decide +kernel⟩, ?_, by decide⟩
  rintro w (rfl | rfl) <;> decide +kernel

/-- The wrong code that PAY brings as the fifth within ten minutes locks the station as COLLECT does. -/
theorem test_pay_wrong_code :
    let t := after (gated [101691, 101692, 101699, 101700] none) (.pay (req 1) (Codec.code.enc 418306))
    (t.gate 1).lockout = some 101715 ∧ (t.gate 1).wrong = [] ∧ t.kli.reply.map (·.body) = some (.badCodeLocked 15) := by
  decide +kernel

theorem witness_PayStartsTheCharge :
    (∀ m, (loaded.gate 4).lockout = some m → m ≤ loaded.now) ∧ loaded.bounded ∧
    loaded.asks (req 4) 15 (Codec.code.enc 418305) ∧ Codec.code.parse (Codec.code.enc 418305) = some 418305 ∧
    loaded.scu.phase = none ∧ (loaded.scu.mode = .OPEN ∨ loaded.scu.mode = .BATTERY) ∧
    loaded.lookup 418305 = some 1 ∧ (loaded.comp 1).parcel = some parcelA ∧ parcelA.kind = .DELIVERY ∧
    parcelA.chargeRef = none ∧ loaded.held 1 = false ∧ (loaded.comp 1).causes.isEmpty = true ∧
    loaded.hasOp 1 = false ∧ loaded.feeGround parcelA = .quoted (loaded.quoteAt loaded.now parcelA) ∧
    0 < (loaded.quoteAt loaded.now parcelA).due ∧ loaded.readerFitted 4 = true ∧ (loaded.reader 4).state = .IDLE ∧
    loaded.resolution 1 = .ok ⟨1, 1, 0⟩ 8 ∧ 8 ≤ loaded.arb.capacity ∧ loaded.hasRoom 4 1 :=
  ⟨unlocked (by decide +kernel) 4, bounded_of (by decide +kernel), by decide +kernel⟩

/-- A search found. -/
theorem search_of {steps : List Step} {s : State} {P : State → Chosen → Prop} (c : Chosen)
    (h : (searchSteps steps s).2 = some c) (hp : P (searchSteps steps s).1 c) :
    ∃ w c, searchSteps steps s = (w, some c) ∧ P w c := ⟨(searchSteps steps s).1, c, Prod.ext rfl h, hp⟩

/-- The resolution ends MAP_FAULT. -/
def isMapFault : Resolution → Bool
  | .mapFault _ => true
  | _ => false

theorem no_map_fault {s : State} (h : ∀ m, m < 241 → isMapFault (s.resolution m) = false) :
    ∀ m b, s.resolution m ≠ .mapFault b := by
  intro m b hm
  by_cases hl : m < 241
  · have := h m hl; rw [hm] at this; cases this
  · have h0 : s.comp m = s.comp 0 := by
      simp only [State.comp]
      rw [tget_outside _ _ (by omega : m = 0 ∨ 240 < m)]
      rfl
    have hs : (s.comp 0).sect = none := rfl
    simp [State.resolution, State.located, h0, hs] at hm

theorem witness_ReturnDropTakesACompartment : ∀ pre f, (pre = true ∧ f = 0) ∨ (pre = false ∧ f = 300) →
    (∃ w c, searchSteps ((base.took (req 1)).dropSteps .M) (base.took (req 1)) = (w, some c) ∧
      w.hasRoom 1 c.addr.link) ∧
    base.asks (req 1) 16 (Codec.dropReq.enc ⟨31, .M, [0x41], pre⟩) ∧
    Codec.dropReq.parse (Codec.dropReq.enc ⟨31, .M, [0x41], pre⟩) = some ⟨31, .M, [0x41], pre⟩ ∧
    base.scu.phase = none ∧ base.scu.mode = .OPEN ∧ (∀ b ∈ ([0x41] : Text), 0x20 ≤ b.toNat ∧ b.toNat ≤ 0x7E) ∧
    ((pre = true ∧ f = 0) ∨ (pre = false ∧ base.returnFee .M = some f)) ∧
    (0 < f → base.readerFitted 1 = true ∧ (base.reader 1).state = .IDLE) := by
  have found := search_of (steps := (base.took (req 1)).dropSteps .M) (s := base.took (req 1))
    (P := fun w c => w.hasRoom 1 c.addr.link) ⟨1, ⟨1, 1, 0⟩, 8⟩ (by decide +kernel) (by decide +kernel)
  rintro pre f (⟨rfl, rfl⟩ | ⟨rfl, rfl⟩) <;> exact ⟨found, by decide +kernel⟩

theorem witness_ReturnDropSearch :
    (∀ m b, base.resolution m ≠ .mapFault b) ∧
    (searchSteps (base.dropSteps .S) base).2 = some ⟨1, ⟨1, 1, 0⟩, 8⟩ ∧ (searchSteps (base.dropSteps .L) base).2 = none :=
  ⟨no_map_fault (by decide +kernel), by decide +kernel⟩

/-- A priced return drop on reader 1: its record, and CHARGE after the RESULT_ACK still due. -/
theorem test_return_drop_charges :
    let s := base.withReader 1 { Reader.empty with state := .IDLE, outgoing := [.RESULT_ACK 5] }
    let r := (after s (.returnDrop (req 1) (Codec.dropReq.enc ⟨31, .M, [0x41], false⟩))).reader 1
    r.state = .CHARGING ∧ r.outgoing = [.RESULT_ACK 5, .CHARGE 1 300] ∧
      r.charge.map (fun c => (c.phase, c.job, c.comp, c.timeout, c.offer)) = some (.OFFERED, some 1, 1, some 90, false) := by
  decide +kernel

/-! #### Couriers -/

theorem witness_SearchTakesTheLeastWorn :
    (∀ reserve, ∃ t, searchIn .FREE .M reserve (base.wearOrder .M) base = (t, some ⟨1, ⟨1, 1, 0⟩, 8⟩)) ∧
    base.freeCount .XL ≤ base.walkUp .XL := by
  refine ⟨fun reserve => ?_, by decide +kernel⟩
  have h : (searchIn .FREE .M reserve (base.wearOrder .M) base).2 = some ⟨1, ⟨1, 1, 0⟩, 8⟩ := by
    cases reserve <;> decide +kernel
  generalize searchIn .FREE .M reserve (base.wearOrder .M) base = r at h ⊢
  exact ⟨r.1, Prod.ext rfl h⟩

/-- The request of a DEPOSIT that may use larger classes. -/
def depositA : DepositReq := { carrier := 250, declared := .S, text := [0x41], upsize := true, ref := none }

/-- The frame of the DEPOSIT taken and the station's tag list cleared. -/
def depositTaken : State := (base.took (req 5)).clearTagList .K1

theorem unused {s : State} (h : s.liveCodes = [] ∧ s.alloc.retired = []) (c : Nat) : s.codeUsed c = false := by
  simp [State.codeUsed, h.1, h.2]

theorem witness_DepositTakesACompartment :
    (∃ w c, searchSteps (depositTaken.depositSteps depositA) depositTaken = (w, some c) ∧
      w.hasRoom 5 c.addr.link ∧ w.codeUsed (Config.codeDraw (w.alloc.draws + 0)).val = false) ∧
    base.asks (req 5) 19 (Codec.depositReq.enc depositA) ∧
    Codec.depositReq.parse (Codec.depositReq.enc depositA) = some depositA ∧
    courierOf (req 5).station.toNat = some .K1 ∧ base.scu.phase = none ∧
    (base.scu.mode = .OPEN ∨ base.scu.mode = .NIGHT) ∧
    (∀ b ∈ depositA.text, 0x20 ≤ b.toNat ∧ b.toNat ≤ 0x7E) ∧ (base.page base.tariff.active).isSome = true :=
  ⟨search_of ⟨1, ⟨1, 1, 0⟩, 8⟩ (by decide +kernel) ⟨by decide +kernel, unused (by decide +kernel) _⟩, by decide +kernel⟩

/-- A RESERVE of as many as may be asked, for as long as may be asked. -/
def reserveA : ReserveReq := { carrier := 1, cls := .M, count := 16, duration := 1440, ref := 9 }

/-- The frame of the RESERVE taken and the station's tag list cleared. -/
def reserveTaken : State := (base.took (req 6)).clearTagList .K2

theorem witness_ReserveTakesCompartments :
    (∀ m b, reserveTaken.resolution m ≠ .mapFault b) ∧
    base.asks (req 6) 17 (Codec.reserveReq.enc reserveA) ∧
    Codec.reserveReq.parse (Codec.reserveReq.enc reserveA) = some reserveA ∧
    courierOf (req 6).station.toNat = some .K2 ∧ base.serves ∧ isComp 1 ∧
    reserveTaken.candidate 1 .FREE .M = true ∧ reserveTaken.resolution 1 = .ok ⟨1, 1, 0⟩ 8 ∧
    reserveTaken.walkUp .M < reserveTaken.freeCount .M :=
  ⟨no_map_fault (by decide +kernel), by decide +kernel⟩

/-- Of eight FREE compartments of class M with a walk-up reserve of 2 a RESERVE of 16 takes the first six. -/
theorem test_reserve_stops_at_the_walk_up_reserve :
    (after base (.reserve (req 6) (Codec.reserveReq.enc reserveA))).kli.reply.map (·.body) =
      some (.reserved [1, 2, 3, 4, 5, 6] .M 103140) := by decide +kernel

/-- Compartment 1 reserved, compartment 2 depositing over a reservation, both under reference 9. -/
def reservedA : State :=
  (base.withComp 1 { compA with state := .RESERVED, reservation := some ⟨1, 9, 101800⟩ }).withComp 2 { compA with
    state := .DEPOSITING, parcel := some { parcelA with pending := true, prior := some (.reserved ⟨1, 9, 101800⟩) } }

/-- The DEPOSIT of the carrier that a reservation stands for. -/
def depositR : DepositReq := { depositA with carrier := 1, ref := some 9 }

theorem witness_DepositSearch :
    (∀ m b, base.resolution m ≠ .mapFault b) ∧ (∀ m b, reservedA.resolution m ≠ .mapFault b) ∧
    (searchSteps (base.depositSteps depositA) base).2 = some ⟨1, ⟨1, 1, 0⟩, 8⟩ ∧
    (searchSteps (reservedA.depositSteps depositR) reservedA).2 = some ⟨1, ⟨1, 1, 0⟩, 8⟩ ∧
    (reservedA.comp 1).state = .RESERVED :=
  ⟨no_map_fault (by decide +kernel), no_map_fault (by decide +kernel), by decide +kernel⟩

theorem witness_ReleaseFreesTheReservations :
    let v := (reservedA.took (req 5)).clearTagList .K1
    ((v.comp 2).state = .DEPOSITING ∧ ∃ x r, (v.comp 2).parcel = some x ∧ x.prior = some (.reserved r) ∧ r.ref = 9) ∧
    ((v.comp 1).state = .RESERVED ∧ ∃ r, (v.comp 1).reservation = some r ∧ r.ref = 9) ∧
    reservedA.asks (req 5) 18 (be16 9) ∧ Codec.nat16.parse (be16 9) = some 9 ∧
    courierOf (req 5).station.toNat = some .K1 ∧ reservedA.serves :=
  let held : Reservation := ⟨1, 9, 101800⟩
  ⟨⟨by decide +kernel, { parcelA with pending := true, prior := some (.reserved held) }, held, by decide +kernel⟩,
    ⟨by decide +kernel, held, by decide +kernel⟩, by decide +kernel⟩

/-- The parcel of case 1, overdue, in compartment 1. -/
def overdueA : State :=
  loaded.withComp 1 { compA with state := .LOADED, parcel := some { parcelA with overdue := true } }

/-- Tags of the overdue parcels of carrier 31 in every compartment. -/
def tagAll : TagReq := { first := 0, last := 65535, filter := .OVERDUE, carrier := 31 }

/-- The overdue parcel tagged by station 5. -/
def taggedA : State :=
  ((overdueA.updComp 1 fun c => { c with tagOwner := some .K1 })).updSide .K1 fun x =>
    { x with tags := [{ comp := 1, filter := .OVERDUE, carrier := 31 }] }

theorem witness_TagAndUntagKeepTheList :
    (let range := compNos.filter fun n => decide (tagAll.first ≤ n ∧ n ≤ tagAll.last)
     let add := range.filter fun n => overdueA.eligible n .OVERDUE 31 && (overdueA.comp n).tagOwner.isNone
     overdueA.asks (req 5) 20 (Codec.tagReq.enc tagAll) ∧ Codec.tagReq.parse (Codec.tagReq.enc tagAll) = some tagAll ∧
      courierOf (req 5).station.toNat = some .K1 ∧ overdueA.serves ∧ add = [1] ∧
      (overdueA.side .K1).tags.length + add.length ≤ 64) ∧
    (taggedA.asks (req 5) 21 [1] ∧ Codec.nat8.parse [1] = some 1 ∧ State.reset.scu.phase ≠ none ∧
      (∀ e ∈ (overdueA.side .K1).tags, e.comp ≠ 1) ∧ taggedA.scu.phase = none ∧
      ∃ e ∈ (taggedA.side .K1).tags, e.comp = 1) := by decide +kernel

/-- A sweep run of station 5 with one compartment pending. -/
def runA : Run := Run.start 7 [{ comp := 1, filter := .OVERDUE, carrier := 31 }]

theorem witness_SweepMovesTheTagList :
    (taggedA.asks (req 5) 22 [0] ∧ courierOf (req 5).station.toNat = some .K1 ∧ taggedA.scu.phase = none ∧
      (taggedA.scu.mode = .OPEN ∨ taggedA.scu.mode = .NIGHT) ∧ (taggedA.side .K1).run = none ∧
      (taggedA.side .K1).tags ≠ [] ∧ ((taggedA.side .K1).tags.map (·.comp)).Nodup) ∧
    ((overdueA.updSide .K1 fun x => { x with run := some runA }).asks (req 5) 23 [0] ∧
      (overdueA.updSide .K1 fun x => { x with run := some runA }).scu.phase = none ∧
      ((overdueA.updSide .K1 fun x => { x with run := some runA }).side .K1).run = some runA) := by decide +kernel

/-- SWEEP_CANCEL ends the queued SWEEP operation of its station and keeps that of the other station. -/
theorem test_sweep_cancel :
    let s : State := { overdueA.updSide .K1 fun x => { x with run := some (Run.start 6 []) } with
      hce := { ops := [opA .SWEEP 5 1 .QUEUED, { opA .SWEEP 6 2 .QUEUED with job := 8 }], lastJob := 8 } }
    let t := after (s.updLink 1 fun x => { x with bulk := [8, 7], strike := some strikeA }) (.sweepCancel (req 5) [0])
    t.kli.reply.map (·.body) = some (.sweepCancelled 0 1 0) ∧ (t.link 1).bulk = [8] ∧
      t.hce.ops.map (·.job) = [8] := by decide +kernel

/-- A tag list of two, of which compartment 2 holds no parcel: 1 becomes a SWEEP operation, 2 is dropped. -/
theorem test_sweep_makes_and_drops :
    let s := (taggedA.updComp 2 fun c => { c with tagOwner := some .K1 }).updSide .K1 fun x =>
      { x with tags := { comp := 2, filter := .OVERDUE, carrier := 31 } :: x.tags }
    let t := after s (.sweep (req 5) [0])
    t.kli.reply.map (·.body) = some (.sweeping 1 2 1 1) ∧
      t.hce.ops.map (fun o => (o.comp, o.purpose, o.station)) = [(1, .SWEEP, 5)] ∧ (t.comp 2).tagOwner = none := by
  decide +kernel

/-! #### Service -/

/-- A deposit of 12 units on link 4. -/
def headOp : Op := newOp 7 .DEPOSIT 5 1 ⟨4, 1, 0⟩ 12 .QUEUED

/-- `base` with that deposit at the head of link 4's priority queue, the other queues empty. -/
def headed : State := (withOp base headOp).withLink 4 { Link.empty with prio := [7] }

/-- `headed` in BATTERY. -/
def onBattery : State := { headed with
  arb := { headed.arb with capacity := 8 }
  scu := { headed.scu with mainsGood := false, mode := .BATTERY } }

theorem witness_ModesEndAndTopUp :
    (onBattery.supplyOk ∧ onBattery.scu.mode = .BATTERY ∧ onBattery.oneOpEach ∧
      (∀ o ∈ onBattery.hce.ops, onBattery.linkFitted o.link = true ∧
        (o.stage = .QUEUED ↔ o.job ∈ (onBattery.link o.link).prio ++ (onBattery.link o.link).bulk)) ∧
      onBattery.kli.queue.length + 2 * onBattery.hce.ops.length + 3 ≤ 64) ∧ onBattery.grantsExact ∧
    (let s := taggedA.updSide .K1 fun x => { x with run := some runA }
     s.scu.mode = .OPEN ∧ (s.side .K1).run = some runA) := by
  refine ⟨?_, ⟨by decide +kernel, by decide, by decide, by decide, fun l j hj => ?_⟩, by decide +kernel⟩
  · unfold State.oneOpEach
    decide +kernel
  · by_cases hl : l = 4
    · subst hl
      have only : j ∈ ([7] : List Nat) := hj
      rw [List.mem_singleton.1 only]
      exact ⟨headOp, by decide⟩
    · have empty := tget_all base.links Link.empty (fun x => decide (x.prio ++ x.bulk = [])) (by decide +kernel)
        (by decide +kernel) l
      have same : onBattery.link l = base.link l := tget_tput_ne _ _ _ (Ne.symm hl)
      rw [same] at hj
      exact absurd hj (by rw [show (base.link l).prio ++ (base.link l).bulk = [] from of_decide_eq_true empty]; simp)

/-- BATTERY_LOW ends the queued operation NO_POWER; the return of mains tops up a run that waited. -/
theorem test_dormant_and_mains_back :
    let t := after onBattery (.batteryLowChange true)
    let s : State := { taggedA.updSide .K1 fun x => { x with run := some runA } with
      arb := { taggedA.arb with capacity := 8 }
      scu := { taggedA.scu with mainsGood := false, mode := .BATTERY } }
    let u := after s (.mainsGoodChange true)
    (t.hce.ops = [] ∧ t.kli.queue.map (·.outcome) = [none, some .NO_POWER] ∧ t.scu.mode = .DORMANT) ∧
    (u.hce.ops.map (fun o => (o.comp, o.purpose)) = [(1, .SWEEP)] ∧ ((u.side .K1).run.map (·.pending)) = some []) := by
  decide +kernel

theorem witness_ServiceCyclesAreQueued :
    ((loaded.asks (req 7) 24 [1] ∧ loaded.asks (req 7) 25 [1]) ∧ Codec.nat8.parse [1] = some 1 ∧ loaded.serves ∧
      isComp 1 ∧ (loaded.comp 1).state = .LOADED ∧ loaded.hasOp 1 = false ∧
      loaded.resolution 1 = .ok ⟨1, 1, 0⟩ 8 ∧ loaded.hasRoom 7 1) ∧
    (∀ m, headed.linkFitted m = true → m ≠ 4 → headed.offersNone m) ∧ headed.offers 4 headOp ∧
    (∀ m, base.linkFitted m = true → base.offersNone m) ∧
    (headed.linkFitted 4 = true ∧ headed.linkFitted headed.arb.turn = true ∧ headOp.link = 4 ∧
      headOp.units ≤ headed.arb.capacity - headed.arb.granted) ∧
    (∀ c g, (c = 8 ∧ g = 0) ∨ (c = 24 ∧ g = 16) →
      let s := { headed with arb := { capacity := c, granted := g, turn := 4 } }
      s.offers s.arb.turn headOp ∧ headOp.link = s.arb.turn ∧
        (s.arb.capacity < headOp.units ∨ (headOp.units ≤ s.arb.capacity ∧ s.arb.capacity - s.arb.granted < headOp.units))) ∧
    ((0 : Nat) < base.numLinks ∧ base.offersNone base.arb.turn) := by
  have none_at : ∀ m, base.linkFitted m = true → base.offersNone m := fun m hm => by
    have h := tget_all base.links Link.empty (fun x => decide (x.prio = [] ∧ x.bulk = [])) (by decide +kernel)
      (by decide +kernel) m
    have h' : (base.link m).prio = [] ∧ (base.link m).bulk = [] := of_decide_eq_true h
    exact Or.inr ⟨h'.1, Or.inl h'.2⟩
  refine ⟨by decide +kernel, fun m hm hne => ?_, ⟨by decide +kernel, by decide +kernel, Or.inl (by decide +kernel)⟩,
    none_at, by decide +kernel, ?_, by decide, none_at _ (by decide +kernel)⟩
  · have hl : headed.link m = base.link m := by
      unfold State.link headed
      exact tget_tput_ne _ _ _ (by omega)
    have h' := none_at m hm
    unfold State.offersNone at h' ⊢
    rw [hl]
    exact h'
  · intro cap granted either
    have offered : headed.offers 4 headOp := ⟨by decide +kernel, by decide +kernel, Or.inl (by decide +kernel)⟩
    rcases either with ⟨rfl, rfl⟩ | ⟨rfl, rfl⟩ <;> exact ⟨offered, by decide +kernel⟩

/-- The pass grants the one head: its strike is in flight, its stage STRIKING, its units granted, the pointer past
link 4. -/
theorem test_pass_grants :
    headed.pass.arb = { capacity := 24, granted := 12, turn := 1 } ∧
    headed.pass.hce.ops.map (·.stage) = [.STRIKING] ∧ (headed.pass.comp 1).purpose = some .DEPOSIT ∧
    ((headed.pass.link 4).strike.map fun k => (k.job, k.units, k.failed)) = some (7, 12, 0) := by decide +kernel

/-- A state whose board's last STATUS shows every hatch closed. -/
def closedAll (s : State) : State :=
  s.updLink 1 fun x => x.updSlot 1 fun y => { y with
    lastStatus := some ⟨List.replicate 16 (reading false false true), false⟩ }

/-- A service operation on compartment 8. -/
def busy8 : State := withOp base (opA .SERVICE_OPEN 7 8 .QUEUED)

theorem witness_CompartmentsAreSetAndCleared :
    (∃ b r, ((closedAll base).slot 1 1).lastStatus = some b ∧ b.readings[7]? = some r ∧ r.hatchOpen = false) ∧
    (base.serves ∧ isComp 8 ∧ Codec.nat8.parse [8] = some 8 ∧ base.hasOp 8 = false) ∧
    ((closedAll base).asks (req 7) 26 [8] ∧ (closedAll base).resolution 8 = .ok ⟨1, 1, 7⟩ 8) ∧
    (base.asks (req 7) 29 [8] ∧ (base.comp 8).state = .FREE) ∧
    (base.asks (req 7) 30 [8] ∧
      ((base.withComp 8 { compA with state := .OUT_OF_SERVICE }).comp 8).state = .OUT_OF_SERVICE) ∧
    busy8.hasOp 8 = true ∧ busy8.serves ∧ busy8.asks (req 7) 26 [8] ∧ (busy8.comp 8).state = .FREE ∧
    ((busy8.withComp 8 { compA with state := .DEPOSITING }).comp 8).state ≠ .FREE ∧
    ((base.comp 8).state ≠ .OUT_OF_SERVICE ∧ (loaded.comp 1).state ≠ .FREE ∧ (loaded.comp 1).state ≠ .OUT_OF_SERVICE ∧
      loaded.hasOp 1 = false ∧ ({ forced := true } : Causes).isEmpty = false) ∧
    (base.asks (req 7) 31 [8, 3] ∧ (Codec.nat8.pair Codec.sizeClass).parse [8, 3] = some (8, .XL)) :=
  ⟨⟨⟨List.replicate 16 (reading false false true), false⟩, reading false false true, by decide +kernel⟩,
    by decide +kernel⟩

/-- SET_OUT_OF_SERVICE is refused WRONG_STATE after an allocation (R8) and BUSY under a service operation (R23). -/
theorem test_set_out_of_service :
    (after (withOp (base.withComp 8 { compA with state := .DEPOSITING }) (opA .DEPOSIT 5 8 .QUEUED))
      (.setOutOfService (req 7) [8])).kli.reply.map (·.status) = some .WRONG_STATE ∧
    (after busy8 (.setOutOfService (req 7) [8])).kli.reply.map (·.status) = some .BUSY := by decide +kernel

/-- A collection that waits for the charge of worked case 1, POLL on the bus. -/
def waiting : State :=
  charging (withOp (loaded.withComp 1 { compA with
      state := .LOADED, purpose := some .COLLECT, parcel := some { parcelA with chargeRef := some 9 } })
    { opA .COLLECT 1 1 .AWAIT_PAYMENT with chargeRef := some 9, amount := some 1650 }) chargeA .CHARGING .POLL

theorem witness_HoldsAreSetAndReleased :
    (∀ o, busy8.opOn 8 = some o → o.purpose.isService = true) ∧
    (base.asks (req 7) 27 (Codec.target.enc (.inl 8)) ∧ base.asks (req 7) 28 (Codec.target.enc (.inl 8)) ∧
      Codec.target.parse (Codec.target.enc (.inl 8)) = some (.inl 8) ∧
      Codec.target.parse (Codec.target.enc (.inr 7)) = some (.inr (7 : Fin 8).val) ∧ isComp 8 ∧ base.serves ∧
      busy8.serves) ∧ base.opOn 8 = none ∧
    (∀ g, g = Stage.QUEUED ∨ g = .AWAIT_PAYMENT ∨ g = .STRIKING →
      let s := withOp paidA (opA .COLLECT 1 8 g)
      s.asks (req 7) 27 (Codec.target.enc (.inl 8)) ∧ s.serves ∧ s.opOn 8 = some (opA .COLLECT 1 8 g) ∧
      (opA .COLLECT 1 8 g).purpose.isService = false ∧ (opA .COLLECT 1 8 g).purpose ≠ .SWEEP ∧
      s.acked (opA .COLLECT 1 8 g) = false) ∧
    ((striking.link 1).line = some (.strike 1 0 500 1) ∧ waiting.opOn 1 = some
      { opA .COLLECT 1 1 .AWAIT_PAYMENT with chargeRef := some 9, amount := some 1650 } ∧
      (waiting.reader 1).charge = some chargeA ∧ chargeA.job = some 7 ∧ chargeA.phase ≠ .OFFERED) ∧
    (base.asks (req 7) 27 [1, 8] ∧ base.asks (req 7) 28 [1, 8, 0] ∧ 8 ≤ (8 : Byte).toNat ∧ State.reset.scu.phase ≠ none ∧
      Codec.target.parse (Codec.target.enc (.inl 241)) = some (.inl 241) ∧ ¬ isComp 241) ∧
    ((base.comp 8).causes.has .FORCED = false ∧
      (base.withComp 8 { compA with causes := { forced := true } }).comp 8 = { compA with causes := { forced := true } } ∧
      paidA.kli.queue.length < 64) :=
  ⟨some_only (a := opA .SERVICE_OPEN 7 8 .QUEUED) (by decide +kernel) (by decide), by decide +kernel,
    by decide +kernel, by rintro g (rfl | rfl | rfl) <;> decide +kernel, by decide +kernel⟩

/-- Section A with a queued collection on 8 and the run of K1 with its last operation, on 1. -/
def sweeping (g : Stage) : State :=
  withOp (overdueA.updSide .K1 fun x => { x with run := some { runA with pending := [] } }) (opA .SWEEP 5 1 g)

theorem witness_HoldsOfSectionsAndSweeps :
    (let s := withOp base (opA .COLLECT 1 8 .QUEUED)
     s.asks (req 7) 27 (Codec.target.enc (.inr 0)) ∧
      Codec.target.parse (Codec.target.enc (.inr 0)) = some (.inr (0 : Fin 8).val) ∧ s.serves ∧ s.oneOpEach ∧
      (s.hce.ops.map (·.job)).Nodup ∧ s.swu.k1.run = none ∧ s.swu.k2.run = none ∧
      s.kli.queue.length + 2 * s.hce.ops.length ≤ 64 ∧
      ∀ o ∈ s.hce.ops, ∀ q ∈ s.hce.ops, o.stage = .STRIKING → q.stage = .STRIKING → o.link = q.link → o = q) ∧
    (∀ g, g = Stage.QUEUED ∨ g = .STRIKING →
      let s := sweeping g
      s.asks (req 7) 27 (Codec.target.enc (.inl 1)) ∧ s.serves ∧ s.opOn 1 = some (opA .SWEEP 5 1 g) ∧
        s.acked (opA .SWEEP 5 1 g) = false ∧ (s.side .K1).run = some { runA with pending := [] } ∧
        (s.side .K2).run = none ∧ s.kli.queue.length ≤ 62) := by
  refine ⟨?_, ?_⟩
  · unfold State.oneOpEach
    decide +kernel
  · rintro g (rfl | rfl) <;> decide +kernel

/-- HOLD on section A ends the one queued collection and is answered with 1. -/
theorem test_hold_section_ends :
    let t := after (withOp base (opA .COLLECT 1 8 .QUEUED)) (.hold (req 7) (Codec.target.enc (.inr 0)))
    t.hce.ops = [] ∧ t.kli.reply.map (·.body) = some (.holdEnded 1) ∧ (t.sect 0).hold = true ∧
      t.kli.queue.map (·.outcome) = [some .HELD] := by decide +kernel

/-! #### Sections and the hatch map -/

/-- Section B: compartments 9 to 12, MAPPED; entries of 9 (matching), 10 (mismatched); 11 has none. -/
def mapped : State :=
  { (((List.range' 9 4).foldl (fun s n => s.withComp n { compA with sect := some 1 }) base).setMapEntry 9
      (some ⟨1, 1, 15, checkByte 9 1 1 15⟩)).setMapEntry 10 (some ⟨1, 1, 14, 0⟩) with
    sects := base.sects.set 1 { sectA with first := 9, count := 4, mode := .MAPPED } }

theorem witness_ResolutionFollowsTheSection :
    (base.comp 9).sect = none ∧ (mapped.comp 1).sect = some 0 ∧ (mapped.comp 9).sect = some 1 ∧
    (mapped.sect 0).enabled = true ∧ (mapped.sect 1).enabled = true ∧ (mapped.sect 1).mode = .MAPPED ∧
    mapped.mapEntry 11 = none ∧ mapped.mapEntry 10 = some ⟨1, 1, 14, 0⟩ ∧
    (0 : Nat) ≠ (90 + 10 + 17 * 1 + 31 * 1 + 7 * 14) % 256 ∧ (mapped.sect 0).mode = .DIRECT ∧
    mapped.mapEntry 9 = some ⟨1, 1, 15, checkByte 9 1 1 15⟩ ∧
    checkByte 9 1 1 15 = (90 + 9 + 17 * 1 + 31 * 1 + 7 * 15) % 256 ∧ mapped.linkFitted 1 = true ∧
    (mapped.slot 1 1).state = .PRESENT ∧ (mapped.slot 1 1).chanCode = some 3 ∧ (mapped.slot 1 1).curCode = some 3 ∧
    (mapped.slot 1 2).state ≠ .PRESENT := by decide +kernel

theorem witness_SectionDefineRedraws :
    (∀ j m, j ≠ 7 → (defineH.apply (base.sect 7)).coversNo m = true → (base.sect j).coversNo m = false) ∧
    base.asks (req 7) 32 (Codec.defineReq.enc defineH) ∧
    Codec.defineReq.parse (Codec.defineReq.enc defineH) = some defineH ∧ base.serves ∧
    defineH.ok = true ∧ defineH.sect = (7 : Fin 8).val ∧
    (defineH.apply (base.sect 7)).pastSlot8 = false ∧
    (∀ m, m < 241 → ((base.sect 7).coversNo m = true ∨ (defineH.apply (base.sect 7)).coversNo m = true) →
      base.hasOp m = false ∧ ((base.comp m).state = .FREE ∨ (base.comp m).state = .OUT_OF_SERVICE)) ∧
    (defineH.apply (base.sect 7)).enabled = false ∧
    base.asks (req 7) 32 (Codec.defineReq.enc { defineH with sect := 8 }) ∧
    Codec.defineReq.enc { defineH with sect := 8 } = 8 :: [233, 8, 0, 1] ∧ 8 ≤ ({ defineH with sect := 8 } : DefineReq).sect := by
  refine ⟨fun j m _ hm => ?_, by decide +kernel⟩
  have h7 : defineH.apply (base.sect 7) = { Sect.factory with first := 233, count := 8, mode := .MAPPED } := by
    decide +kernel
  rw [h7] at hm
  have hj : (base.sect j).first + (base.sect j).count ≤ 9 := by revert j; decide +kernel
  simp [Sect.coversNo] at hm ⊢
  omega

/-- Section B at the addresses of section A, not enabled. -/
def doubled : State :=
  { base.withComp 9 { compA with sect := some 1 } with
    sects := base.sects.set 1 { sectA with first := 9, count := 1, enabled := false } }

/-- No two of the few compartments in use are wired at one address. -/
theorem alias_small {t : State} (k : Nat) (h1 : ∀ n, n < 241 → t.enabledRec (t.comp n) = true → n < k)
    (h2 : ∀ n, n < k → ∀ m, m < k → n ≠ m → t.namedAddr n = none ∨ t.namedAddr n ≠ t.namedAddr m) (n m : Nat)
    (a : Addr) (hn : 1 ≤ n ∧ n ≤ 240) (hm : 1 ≤ m ∧ m ≤ 240) (en : t.enabledRec (t.comp n) = true)
    (em : t.enabledRec (t.comp m) = true) (an : t.namedAddr n = some a) (am : t.namedAddr m = some a) : n = m := by
  by_contra hne
  rcases h2 n (h1 n (by omega) en) m (h1 m (by omega) em) hne with h | h
  · rw [h] at an; cases an
  · exact h (an.trans am.symm)

/-- The state of SECTION_ENABLE of section B, which covers no compartment in `base`. -/
def enabledB : State := { base with sects := base.sects.set 1 { base.sect 1 with enabled := true } }

/-- A section of letter number 8 is refused BAD_REQUEST in every request that names a section (R186, step 5). -/
theorem test_letter_outside :
    ∀ c ∈ [Instr.hold (req 7) [1, 8], .holdRelease (req 7) [1, 8], .sectionEnable (req 7) [8, 1],
        .sectionDefine (req 7) (Codec.defineReq.enc { defineH with sect := 8 })],
      (after base c).kli.reply.map (·.status) = some .BAD_REQUEST ∧ { after base c with kli := base.kli } = base := by
  decide +kernel

theorem witness_SectionEnableObeysTheAliasLaw :
    (base.asks (req 7) 33 [1, 1] ∧ (Codec.letter.pair Codec.flag).parse [0, 0] = some ((0 : Fin 8).val, false) ∧
      (Codec.letter.pair Codec.flag).parse [1, 1] = some ((1 : Fin 8).val, true) ∧
      base.asks (req 7) 33 [8, 1] ∧ base.serves ∧ doubled.serves) ∧
    (∀ n, (base.sect 0).coversNo n = true → base.hasOp n = false) ∧
    (let t : State := { doubled with sects := doubled.sects.set 1 { doubled.sect 1 with enabled := true } }
     isComp 1 ∧ isComp 9 ∧ t.enabledRec (t.comp 1) = true ∧ t.enabledRec (t.comp 9) = true ∧
      t.namedAddr 1 = some ⟨1, 1, 0⟩ ∧ t.namedAddr 9 = some ⟨1, 1, 0⟩) ∧
    (∀ n m, ¬ (isComp n ∧ isComp m ∧ n ≠ m ∧ enabledB.enabledRec (enabledB.comp n) = true ∧
      enabledB.enabledRec (enabledB.comp m) = true ∧
      ∃ a, enabledB.namedAddr n = some a ∧ enabledB.namedAddr m = some a)) := by
  refine ⟨by decide +kernel, fun n _ => rfl, by decide +kernel, fun n m h => ?_⟩
  obtain ⟨hn, hm, hne, en, em, a, h1, h2⟩ := h
  exact hne (alias_small 9 (by decide +kernel) (by decide +kernel) n m a hn hm en em h1 h2)

theorem witness_MapWriteStoresTheCheckByte :
    (mapped.asks (req 7) 34 (Codec.mapReq.enc (12, .inr ())) ∧ mapped.serves ∧ isComp 12 ∧ (mapped.comp 12).sect = some 1 ∧ (mapped.sect 1).mode = .MAPPED ∧
      mapped.hasOp 12 = false) ∧
    Codec.mapReq.parse (Codec.mapReq.enc (12, .inr ())) = some (12, .inr ()) ∧
    Codec.mapReq.parse (Codec.mapReq.enc (12, .inl ⟨4, 8, 15⟩)) = some (12, .inl ⟨4, 8, 15⟩) ∧
    ((mapped.sect 1).enabled = true → mapped.aliasFree ∧ ∀ m, m < 241 → m ≠ 12 →
      mapped.enabledRec (mapped.comp m) = true → mapped.namedAddr m ≠ some ⟨4, 8, 15⟩) :=
  ⟨by decide +kernel, by decide, by decide, fun _ => ⟨fun n m a h1 h2 h3 h4 en em an am =>
    alias_small 13 (by decide +kernel) (by decide +kernel) n m a ⟨h1, h2⟩ ⟨h3, h4⟩ en em an am, by decide +kernel⟩⟩

/-! #### Tariffs, CONFIG, FACTORY_CLEAR, quotes -/

theorem witness_TariffsAreLoadedAndScheduled :
    (base.asks (req 7) 37 (loadBytes 0) ∧ Codec.loadReq.parse (loadBytes 0) = some ((0 : Fin 4).val, pageA) ∧
      Codec.loadReq.parse (loadBytes 3) = some ((3 : Fin 4).val, pageA) ∧ base.serves) ∧
    ((base.page 0).isSome = true ∧ base.tariff.active = 0) ∧ (base.page 3).isSome = false ∧
    (let s := base.updTariff fun t => { t with pages := t.pages.set 3 (some pageA) }
     s.asks (req 7) 38 (3 :: be32 101700) ∧ (Codec.nat8.pair Codec.nat32).parse (3 :: be32 101700) = some ((3 : Fin 4).val, 101700) ∧
      (Codec.nat8.pair Codec.nat32).parse (3 :: be32 101701) = some ((3 : Fin 4).val, 101701) ∧ s.serves ∧
      (s.page 3).isSome = true ∧ s.tariff.active ≠ 3 ∧ s.now < 101701 ∧ 101700 ≤ s.now) := by decide +kernel

theorem witness_StoredValuesLieInRange :
    ((pageA.unit = 50 ∧ pageA.unit ∣ pageA.ceiling ∧ pageA.ceiling ≤ 500000 ∧ pageA.periodCode ≤ 4) ∧
      pageA.clamped = pageA) ∧
    (ConfigVals.factory.retryLimit ≤ 7 ∧ ConfigVals.factory.clamped = ConfigVals.factory) := by decide

/-- `base` in NIGHT. -/
def darkBase : State := base.updScu fun u => { u with base := .NIGHT, mode := .NIGHT }

/-- FACTORY_CLEAR in NIGHT on mains: BOARD_CHANGED of the one board, then MODE_CHANGED to OPEN. -/
theorem test_factory_clear_mode :
    let t := after darkBase (.factoryClear (req 7) [0])
    t.scu.mode = .OPEN ∧ t.kli.queue.map (·.kind) = [.BOARD_CHANGED, .MODE_CHANGED] ∧
      t.kli.queue.map (·.slotState) = [some .NEW, none] := by decide +kernel

theorem witness_ConfigAndFactoryClearSetTheRetainedState :
    (base.asks (req 7) 39 (Codec.configReq.enc ConfigVals.factory) ∧ Codec.configReq.parse (Codec.configReq.enc ConfigVals.factory) = some ConfigVals.factory ∧
      base.serves) ∧
    (base.supplyOk ∧ base.kli.queue.length + 33 ≤ 64 ∧ base.scu.base = .OPEN ∧ (base.slot 1 1).state = .PRESENT ∧
      darkBase.supplyOk ∧ darkBase.scu.mainsGood = true ∧ darkBase.scu.base = .NIGHT ∧ darkBase.serves) ∧
    base.asks (req 7) 41 [0] ∧ (∀ n, (base.comp n).parcel = none) ∧ (∀ r, (base.reader r).charge = none) ∧
    base.pbc.reversals = [] ∧ base.hce.ops = [] :=
  ⟨by decide +kernel, by decide +kernel, by decide,
    fun n => of_decide_eq_true (tget_all base.comps _ (fun c => decide (c.parcel = none)) (by decide +kernel)
      (by decide) n),
    fun r => of_decide_eq_true (tget_all base.pbc.readers _ (fun x => decide (x.charge = none)) (by decide +kernel)
      (by decide) r), by decide +kernel, by decide +kernel⟩

theorem witness_QuotesFollowTheTariff :
    (parcelPaid.paidThrough = some 101717 ∧ 101717 ≤ 101717) ∧ (∀ m, parcelPaid.paidThrough = some m → m < 101718) ∧
    (∀ m, parcelA.paidThrough = some m → m < 101700) ∧ 0 < pageA.unit ∧ pageA.unit ∣ pageA.ceiling ∧
    ({ pageA with windowLen := 0, dayCap := ⟨0, 0, 0, 0⟩ } : Page).windowLen = 0 :=
  ⟨by decide, some_only (a := 101717) rfl (by decide), none_any rfl, by decide, by decide, by decide⟩

/-! #### Boards, links and cycles -/

/-- A NEW board of 4 channels in slot 8 of link 4. -/
def newBoard : State :=
  base.updSlot 4 8 fun _ => { Slot.empty with state := .NEW, serial := some 4294967295, chanCode := some 0, curCode := some 7 }

/-- Link 1 of `loaded` with a deposit struck (job 7), a collection queued (job 8) and one that waits for payment
(job 9). -/
def crowded : State :=
  { loaded.withComp 1 { compA with state := .DEPOSITING, purpose := some .DEPOSIT, parcel := some parcelA } with
    hce := { ops := [opA .DEPOSIT 5 1 .STRIKING, { opA .COLLECT 1 2 .QUEUED with job := 8 },
                     { opA .COLLECT 2 3 .AWAIT_PAYMENT with job := 9 }], lastJob := 9 } }.updLink 1 fun x =>
    { x with prio := [8], strike := some { strikeA with ackMinute := some 101700 } }

theorem witness_BoardsAreAcceptedAndLinksReset :
    (newBoard.asks (req 7) 35 [4, 8] ∧ (Codec.nat8.pair Codec.nat8).parse [4, 8] = some (4, 8) ∧
      newBoard.scu.phase = none ∧ newBoard.linkFitted 4 = true ∧ (newBoard.slot 4 8).state = .NEW ∧
      (newBoard.slot 4 8).serial = some 4294967295 ∧ ∀ n ∈ newBoard.compsAt 4 8, newBoard.hasOp n = false) ∧
    (∃ y, (crowded.link 1).strike = some y ∧ y.ackMinute.isSome = true ∧ y.durationRun = false ∧ y.slot = 1 ∧
      y.channel = 0) ∧
    (crowded.asks (req 7) 36 [1] ∧ Codec.nat8.parse [1] = some 1 ∧ crowded.linkFitted 1 = true ∧
      crowded.scu.phase = none ∧ (crowded.hce.ops.map (·.job)).Nodup ∧ crowded.swu.k1.run = none ∧
      crowded.swu.k2.run = none ∧ crowded.kli.queue.length + 2 * crowded.hce.ops.length ≤ 64) :=
  ⟨by decide +kernel, ⟨{ strikeA with ackMinute := some 101700 }, by decide +kernel⟩, by decide +kernel⟩

/-- LINK_RESET ends the queued collection ABORTED_LINK and the struck deposit UNCONFIRMED; the one that waits for
payment stands. -/
theorem test_link_reset_ends :
    let t := after crowded (.linkReset (req 7) [1])
    t.hce.ops.map (·.job) = [9] ∧
      (t.kli.queue.map fun e => (e.job, e.outcome)) = [(some 8, some .ABORTED_LINK), (some 7, some .UNCONFIRMED)] ∧
      (t.comp 1).causes.auditRequired = true := by decide +kernel

/-- LINK_RESET leaves the late-strike mark of the running strike on channel 0 and the mark that stood on channel 5. -/
theorem test_link_reset_marks :
    let t := after (crowded.setLate 1 1 5 true) (.linkReset (req 7) [1])
    (List.range 16).filter (fun ch => (t.slot 1 1).lateMark ch) = [0, 5] := by decide +kernel

/-- Link 1 of `base` with this strike and this pass. -/
def linkWith (k : Option Strike) (p : Option Pass) (e : LastExchange) : State :=
  base.updLink 1 fun x => { x with strike := k, enumPass := p, lastEnded := e }

/-- The strike acknowledged. -/
def strikeB : Strike := { strikeA with ackMinute := some 101700 }

theorem witness_LinksChooseTheNextExchange :
    (base.linkFitted 1 = true ∧ (base.link 1).line = none ∧ (base.link 1).unbindDue = false) ∧
    (base.updLink 4 fun x => { x with unbindDue := true }).linkFitted 4 = true ∧
    ((base.updLink 4 fun x => { x with unbindDue := true }).link 4).unbindDue = true ∧
    (((linkWith (some strikeA) none .none).link 1).strike = some strikeA ∧ strikeA.ackMinute = none) ∧
    (let x := (linkWith (some strikeB) none .none).link 1
     x.strike = some strikeB ∧ strikeB.ackMinute.isSome = true ∧ (x.slotAt strikeB.slot).state = .PRESENT ∧
      x.lastEnded ≠ .poll strikeB.slot) ∧
    (let x := (linkWith none (some ⟨true, 14, some 11⟩) (.poll 1)).link 1
     x.enumPass = some ⟨true, 14, some 11⟩ ∧ x.strike = none ∧ x.lastEnded ≠ .step ∧ (14 : Nat) < 15) ∧
    (let x := (linkWith none (some ⟨true, 15, some 11⟩) (.poll 1)).link 1
     x.enumPass = some ⟨true, 15, some 11⟩ ∧ x.strike = none ∧ x.lastEnded ≠ .step ∧ (15 : Nat) ≤ 15) ∧
    (let x := (linkWith none (some ⟨true, 0, none⟩) .step).link 1
     x.lastEnded = .step ∧ ∀ k, k < 9 → ((x.slotAt k).state = .PRESENT ↔ k = 1)) ∧
    ((base.link 2).strike = none ∧ (base.link 2).enumPass = none ∧ (base.link 2).unbindDue = false ∧
      ∀ k, k < 9 → ((base.link 2).slotAt k).state ≠ .PRESENT) := by decide +kernel

/-- With slots 1 and 3 PRESENT the poll after that of slot 3 wraps to slot 1, and that after slot 1 is of slot 3. -/
theorem test_poll_turn :
    let s := fun t => (base.withLink 1 ((base.link 1).updSlot 3 fun _ => board)).updLink 1 fun x => { x with pollTurn := t }
    ((after (s (some 3)) (.linkExchangeStart 1)).link 1).line = some (.poll 1) ∧
    ((after (s (some 1)) (.linkExchangeStart 1)).link 1).line = some (.poll 3) := by decide +kernel

/-- After a step of a former pass the timer begins a new one, whose ROLL_CALL comes before the poll of a PRESENT slot. -/
theorem test_new_pass_first :
    let s := base.updLink 1 fun x => { x with rollTimer := true, lastEnded := .step }
    ((after (after s (.rollCallTimerExpiry 1)) (.linkExchangeStart 1)).link 1).line = some .rollCall := by
  decide +kernel

/-- Link 1 of `base` with a pass and this message on its line. -/
def enumerating (m : LinkMsg) (full : Bool) : State :=
  base.updLink 1 fun x => { x with line := some m, enumPass := some ⟨full, 3, none⟩ }

theorem witness_EnumerationFindsTheBoards :
    ((enumerating .rollCall true).link 1).line = some .rollCall ∧
    ((enumerating .rollCall true).link 1).enumPass = some ⟨true, 3, none⟩ ∧
    (((enumerating (.claim 11) false).link 1).line = some (.claim 11) ∧
      ((enumerating (.claim 11) false).link 1).enumPass = some ⟨false, 3, none⟩) ∧
    ((enumerating (.claim 11) false).slot 1 8).state = .EMPTY ∧
    (let s := base.updLink 1 fun x => { x with rollTimer := true }
     (s.link 1).rollTimer = true ∧ (s.link 1).enumPass = none ∧ (s.link 1).unbindDue = false) := by decide +kernel

theorem witness_PollsKeepTheReadings :
    ((awaiting base (.poll 1)).link 1).line = some (.poll 1) ∧ ((awaiting base (.poll 1)).slot 1 1).state = .PRESENT ∧
    ((awaiting base (.poll 1)).slot 1 1).unanswered < 2 ∧
    (let s := awaiting (crowded.updSlot 1 1 fun y => { y with unanswered := 2 }) (.poll 1)
     (s.link 1).line = some (.poll 1) ∧ (s.slot 1 1).state = .PRESENT ∧ 2 ≤ (s.slot 1 1).unanswered ∧
      (s.hce.ops.map (·.job)).Nodup ∧ s.swu.k1.run = none ∧ s.swu.k2.run = none ∧
      s.kli.queue.length + 2 * s.hce.ops.length + 2 ≤ 64 ∧ (s.link 1).strike = some strikeB ∧ strikeB.slot = 1 ∧
      strikeB.ackMinute.isSome = true ∧ strikeB.durationRun = false) := by
  decide +kernel

/-- The third missed poll ends the slot's struck and queued operations and keeps the acknowledged strike's units. -/
theorem test_slot_lost :
    let t := after (awaiting (crowded.updSlot 1 1 fun y => { y with unanswered := 2 }) (.poll 1)) (.boardResponseTimeout 1)
    t.hce.ops.map (·.job) = [9] ∧ (t.link 1).strike = some { strikeB with slotLost := true, opEnded := true } ∧
      (t.kli.queue.filterMap fun e => e.outcome) = [.UNCONFIRMED, .STRIKE_FAILED] := by decide +kernel

/-- A STRIKE for compartment 1 on the line, with its operation. -/
def sent (k : Strike) : State :=
  awaiting ((withOp base (opA .DEPOSIT 5 1 .STRIKING)).updLink 1 fun x => { x with strike := some k }) (.strike 1 0 500 1)

theorem witness_StrikeAnswersSettleTheAttempt :
    (∀ k, k = strikeA ∨ k = { strikeA with opEnded := true } ∨ k = { strikeA with failed := 3 } →
      ((sent k).link 1).line = some (.strike 1 0 500 1) ∧ ((sent k).link 1).strike = some k) ∧
    (strikeA.opEnded = false ∧ strikeA.failed < base.scu.config.retryLimit) ∧
    ((sent { strikeA with failed := 3 }).scu.config.retryLimit ≤ 3 ∧
      (sent { strikeA with failed := 3 }).opByJob 7 = some (opA .DEPOSIT 5 1 .STRIKING)) ∧
    ((sent strikeA).swu.k1.run = none ∧ (sent strikeA).swu.k2.run = none ∧ (sent strikeA).kli.queue.length < 64 ∧
      ((sent strikeA).hce.ops.map (·.comp)).Nodup ∧ (opA .DEPOSIT 5 1 .STRIKING).comp = strikeA.comp ∧
      (opA .DEPOSIT 5 1 .STRIKING).purpose ≠ .SWEEP) ∧
    (let s := { sent { strikeA with opEnded := true } with hce := { ops := [], lastJob := 7 } }
     (s.link 1).line = some (.strike 1 0 500 1) ∧ (s.link 1).strike = some { strikeA with opEnded := true } ∧
      s.opOn 1 = none) ∧
    (1 ≤ strikeA.slot ∧ strikeA.slot ≤ 8 ∧ strikeA.channel < 16 ∧ isComp strikeA.comp) := by
  refine ⟨?_, by decide +kernel⟩
  rintro k (rfl | rfl | rfl) <;> decide +kernel

/-- NO_CHANNEL ends the deposit STRIKE_FAILED, adds MAP_CHECK and is captured. -/
theorem test_no_channel :
    let t := after (sent strikeA) (.noChannel 1)
    t.hce.ops = [] ∧ (t.comp 1).causes.mapCheck = true ∧
      t.capture.held = some ⟨.NO_CHANNEL, 1, 1, some 0, some 1, 101700⟩ ∧
      t.kli.queue.map (·.outcome) = [some .STRIKE_FAILED, none] := by decide +kernel

/-- The strike acknowledged, its operation in STRIKING. -/
def acknowledged (k : Strike) : State :=
  (withOp base (opA .DEPOSIT 5 1 .STRIKING)).updLink 1 fun x => { x with strike := some k }

theorem witness_CycleTimersExpire :
    (((acknowledged strikeB).link 1).strike = some strikeB ∧ strikeB.ackMinute.isSome = true ∧
      strikeB.slotLost = false ∧ strikeB.opEnded = false ∧
      (acknowledged strikeB).opByJob 7 = some (opA .DEPOSIT 5 1 .STRIKING)) ∧
    (((acknowledged { strikeB with slotLost := true }).link 1).strike = some { strikeB with slotLost := true }) ∧
    (∀ g, g = Stage.AWAIT_OPEN ∨ g = .AWAIT_CONFIRM ∨ g = .OPEN →
      let o := { opA .DEPOSIT 5 1 g with openWait := some 20, confirm := some 10, ajar := some 120 }
      (withOp base o).opByJob 7 = some o ∧ o.openWait.isSome = true ∧ o.confirm.isSome = true ∧
        o.ajar.isSome = true ∧ o.ajarPosted = false) := by
  refine ⟨by decide +kernel, by decide +kernel, ?_⟩
  rintro g (rfl | rfl | rfl) <;> decide +kernel

/-- Section A made of compartment 1 alone, with a deposit there that awaits its opening, and a poll on the line. -/
def lone : State :=
  awaiting (withOp { base with
    comps := (List.range' 2 7).foldl (fun v n => tput v n Compartment.factory) base.comps
    sects := base.sects.set 0 { sectA with count := 1 } } (opA .DEPOSIT 5 1 .AWAIT_OPEN)) (.poll 1)

/-- The same deposit with this operation, its strike acknowledged. -/
def struck (o : Op) (k : Strike) : State := (withOp lone o).updLink 1 fun x => { x with strike := some k }

/-- With one operation, on channel 0, and compartment 1 alone wired, the other channels of the slot have neither. -/
theorem alone_on_channel {s : State} {o : Op} (h0 : s.hce.ops = [o]) (ho : o.channel = 0)
    (hl : ∀ n ∈ compNos, (match s.located n with | .ok b => b.channel | .error _ => 0) = 0) (j : Nat) (hj : j ≠ 0) :
    s.opAtChannel 1 1 j = none ∧ s.reverse ⟨1, 1, j⟩ = none := by
  refine ⟨?_, ?_⟩
  · simp [State.opAtChannel, h0]
    omega
  · unfold State.reverse
    split
    · refine List.find?_eq_none.mpr fun n hn => ?_
      have := hl n hn
      cases hc : s.located n with
      | error _ => simp
      | ok b =>
        rw [hc] at this
        simp only [decide_eq_true_eq]
        rintro rfl
        exact hj this
    · rfl

/-- A STATUS with strike-done ends the strike: open it leaves the deposit in OPEN, closed in AWAIT_OPEN; closed,
settled and occupied after an opening it completes the deposit, HATCH_OPENED before CYCLE_DONE. -/
theorem test_strike_done :
    let o := opA .DEPOSIT 5 1 .STRIKING
    let t := after (struck o strikeB) (.boardStatus 1 1 [reading true false true] true)
    let u := after (struck o strikeB) (.boardStatus 1 1 [reading false false true] true)
    let v := after (struck { o with opened := true } strikeB) (.boardStatus 1 1 [reading false true true] true)
    ((t.link 1).strike = none ∧ t.hce.ops = [{ o with opened := true, stage := .OPEN, ajar := some 120 }]) ∧
    u.hce.ops = [{ o with stage := .AWAIT_OPEN, openWait := some 20 }] ∧
    (v.hce.ops = [] ∧ v.kli.queue.map (·.outcome) = [none, some .COMPLETED]) := by decide +kernel

/-- A late-strike mark goes with a closed reading beside a later strike whose operation has ended, and stays beside the
late strike itself. -/
theorem test_late_mark_cleared :
    let s := fun k => ((acknowledged k).setLate 1 1 0 true).takeReading 1 1 0 (reading false false true)
    ((s { strikeB with slotLost := true, opEnded := true }).slot 1 1).lateMark 0 = false ∧
    ((s { strikeB with opEnded := true, late := true }).slot 1 1).lateMark 0 = true := by decide +kernel

theorem witness_ReadingsDriveTheStages :
    (∀ g, g = Stage.AWAIT_OPEN ∨ g = .OPEN ∨ g = .AWAIT_CONFIRM →
      (withOp base (opA .DEPOSIT 5 1 g)).opByJob (opA .DEPOSIT 5 1 g).job = some (opA .DEPOSIT 5 1 g)) ∧
    (∀ j, j ≠ 0 → lone.opAtChannel 1 1 j = none ∧ lone.reverse ⟨1, 1, j⟩ = none) ∧
    ((lone.link 1).line = some (.poll 1) ∧ (lone.slot 1 1).state = .PRESENT ∧
      ((List.replicate 16 (reading true false true)).take (min 16 (lone.slot 1 1).channels))[0]? =
        some (reading true false true) ∧
      lone.scu.phase ≠ some .AUDIT ∧ (lone.hce.ops.map (·.job)).Nodup ∧
      lone.opAtChannel 1 1 0 = some (opA .DEPOSIT 5 1 .AWAIT_OPEN)) ∧
    (base.opAtChannel 1 1 0 = none ∧ base.reverse ⟨1, 1, 0⟩ = some 1 ∧ base.scu.phase = none ∧ base.opOn 1 = none ∧
      (base.slot 1 1).memory 0 ≠ .opened) ∧
    (∃ x, ((acknowledged { strikeB with opEnded := true, late := true }).link 1).strike = some x ∧ x.slot = 1 ∧
      x.channel = 0 ∧ x.late = true) ∧
    (base.link 1).strike = none := by
  refine ⟨?_, alone_on_channel rfl rfl (by decide +kernel), by decide +kernel, by decide +kernel,
    ⟨{ strikeB with opEnded := true, late := true }, by decide +kernel⟩, by decide +kernel⟩
  rintro g (rfl | rfl | rfl) <;> decide +kernel

theorem witness_TheStatusThatEndsTheStrike :
    (∀ w, w = true ∨ w = false → let o := { opA .DEPOSIT 5 1 .STRIKING with opened := w }
      let s := struck o strikeB
      ((s.link 1).line = some (.poll 1) ∧ (s.slot 1 1).state = .PRESENT ∧ (s.link 1).strike = some strikeB ∧
        strikeB.slot = 1 ∧ strikeB.ackMinute.isSome = true ∧ strikeB.channel = 0 ∧ strikeB.opEnded = false ∧
        s.scu.phase ≠ some .AUDIT ∧ (s.hce.ops.map (·.job)).Nodup ∧ s.opAtChannel 1 1 0 = some o ∧
        o.job = strikeB.job ∧ o.stage = .STRIKING ∧ (s.slot 1 1).lateMark 0 = false ∧ s.acked o = true ∧
        s.opByJob o.job = some o) ∧
      (∀ r : Reading, ([r].take (min 16 (s.slot 1 1).channels))[0]? = some r) ∧
      ∀ j, j ≠ 0 → s.opAtChannel 1 1 j = none ∧ s.reverse ⟨1, 1, j⟩ = none) ∧
    (let k := { strikeB with opEnded := true, late := true }
     let s := { struck (opA .DEPOSIT 5 1 .STRIKING) k with hce := { ops := [], lastJob := 7 } }
     (s.link 1).strike = some k ∧ (s.routeReading 1 1 0 (reading true false true)).opByJob 7 = none ∧
      s.hce.ops = []) := by
  refine ⟨?_, by decide +kernel⟩
  rintro w (rfl | rfl)
  all_goals exact ⟨by decide +kernel, fun r => rfl, alone_on_channel rfl rfl (by decide +kernel)⟩

theorem witness_EndsSettleTheCompartment :
    (∀ pu, pu = Purpose.DEPOSIT ∨ pu = .COLLECT ∨ pu = .SERVICE_REMOVE ∨ pu = .SERVICE_OPEN →
      (opA pu 5 1 .AWAIT_CONFIRM).purpose ≠ .SWEEP ∧ (opA pu 5 1 .AWAIT_CONFIRM).stage ≠ .AWAIT_PAYMENT ∧
        isComp (opA pu 5 1 .AWAIT_CONFIRM).comp) ∧
    ((loaded.comp 1).parcel = some parcelA ∧ loaded.kli.queue.length < 64 ∧
      parcelA.code = some 418305 ∧ (loaded.comp 1).state ≠ .DEPOSITING ∧
      ({ parcelA with prior := some (.reserved ⟨1, 9, 101701⟩) } : Parcel).prior = some (.reserved ⟨1, 9, 101701⟩) ∧
      loaded.now < 101701 ∧ ({ parcelA with prior := some (.reserved ⟨1, 9, 101700⟩) } : Parcel).prior =
        some (.reserved ⟨1, 9, 101700⟩) ∧ 101700 ≤ loaded.now) ∧
    ((opA .SERVICE_OPEN 7 1 .AWAIT_CONFIRM).purpose = .SERVICE_OPEN ∧ (base.comp 1).parcel = none ∧
      (base.comp 1).state = .FREE) ∧
    (let o := { opA .RETURN_DROP 1 2 .STRIKING with chargeRef := some 9, amount := some 300 }
     o.purpose = .RETURN_DROP ∧ o.stage ≠ .AWAIT_PAYMENT ∧ o.chargeRef = some 9 ∧ o.amount = some 300 ∧
      isComp o.comp ∧ ∃ x, (reservedA.comp 2).parcel = some x) ∧
    (let s := overdueA.updSide .K1 fun x => { x with run := some { runA with pending := [] } }
     let o := opA .SWEEP 5 1 .AWAIT_CONFIRM
     o.purpose = .SWEEP ∧ courierOf o.station = some .K1 ∧ o.stage ≠ .AWAIT_PAYMENT ∧ isComp o.comp ∧
      (∃ x, (s.comp 1).parcel = some x) ∧ (s.side .K1).run = some { runA with pending := [] } ∧
      (s.side .K2).run = none ∧ s.kli.queue.length ≤ 61) := by
  refine ⟨?_, by decide +kernel, by decide +kernel, ⟨by decide, by decide, rfl, rfl, by decide,
      { parcelA with pending := true, prior := some (.reserved ⟨1, 9, 101800⟩) }, by decide +kernel⟩,
    ⟨rfl, rfl, by decide, by decide, ⟨{ parcelA with overdue := true }, by decide +kernel⟩, by decide +kernel⟩⟩
  rintro pu (rfl | rfl | rfl | rfl) <;> decide

/-- A SWEEP that ends COMPLETED ends its run, with one counted and the whole fee unpaid. -/
theorem test_sweep_end :
    let s := withOp (overdueA.updSide .K1 fun x => { x with run := some { runA with pending := [] } })
      (opA .SWEEP 5 1 .AWAIT_CONFIRM)
    let t := s.endOp (opA .SWEEP 5 1 .AWAIT_CONFIRM) .COMPLETED
    (t.side .K1).run = none ∧ t.kli.queue.map (·.kind) = [.CYCLE_DONE, .PARCEL_SWEPT, .SWEEP_DONE] ∧
      (t.kli.queue.map (·.amount)) = [none, some 1650, some 1650] := by decide +kernel

/-- The audit waits for compartment 1, which holds the parcel of case 1 with this cycle purpose. -/
def auditing (pu : Option Purpose) : State :=
  (loaded.withComp 1 { compA with state := .LOADED, parcel := some parcelA, purpose := pu }).updScu fun u =>
    { u with phase := some .AUDIT, auditTimer := true, auditWait := [1] }

/-- A switch to page 3 due at the next minute. -/
def switching : State := base.updTariff fun t => { t with scheduled := some ⟨3, 101701⟩ }

/-- The minute that is handed on posts the expiry, the switch and the overdue parcel it finds. -/
theorem test_minute_events :
    let s : State := { switching.withComp 1 { compA with state := .LOADED, parcel := some parcelA } with
      scu := { switching.scu with minute := 102884 } }
    let t := after (s.withComp 2 { compA with state := .RESERVED, reservation := some ⟨1, 9, 102885⟩ }) .minuteTick
    t.kli.queue.map (fun e => (e.kind, e.minute)) = [(.RESERVATION_EXPIRED, 102885), (.TARIFF_SWITCHED, 102885),
      (.PARCEL_OVERDUE, 102885)] := by decide +kernel

theorem witness_MinutesAndTheAuditLimit :
    ((base.scu.minute < 4294967295 ∧ base.scu.phase = none ∧ State.reset.scu.phase ≠ none) ∧
    ((reservedA.comp 1).state = .RESERVED ∧ (reservedA.comp 1).reservation = some ⟨1, 9, 101800⟩) ∧
    ((loaded.comp 1).state = .LOADED ∧ (loaded.comp 1).parcel = some parcelA ∧ parcelA.kind = .DELIVERY ∧
      parcelA.page = some 0 ∧ loaded.page 0 = some pageA ∧ parcelA.overdue = false ∧
      parcelA.depositMinute ≤ loaded.scu.minute + 1) ∧
    ((gated [] (some 101701)).gate 1).lockout = some 101701 ∧
    (let room := fun (s : State) => s.kli.queue.length + compNos.countP (fun n =>
        decide ((s.comp n).state = .RESERVED ∨ (s.comp n).state = .LOADED)) + 2
     room reservedA ≤ 64 ∧ room loaded ≤ 64 ∧ room switching ≤ 64 ∧ (101800 : Nat) ≤ 101800 ∧
      switching.tariff.scheduled = some ⟨3, 101701⟩ ∧ (101701 : Nat) ≤ switching.scu.minute + 1 ∧ 102885 % 15 = 0 ∧
      pageA.overdueMin ≤ 102885 - parcelA.depositMinute) ∧
    (base.updScu fun u => { u with minute := 4294967295 }).scu.minute = 4294967295 ∧
    (1 ∉ base.scu.auditWait)) ∧
    (∀ pu, pu = none ∨ pu = some Purpose.DEPOSIT ∨ pu = some .COLLECT ∨ pu = some .SERVICE_OPEN →
      let s := auditing pu
      1 ∈ s.scu.auditWait ∧ (s.comp 1).purpose = pu ∧ (s.comp 1).parcel = some parcelA ∧ s.kli.queue.length < 64 ∧
        s.scu.phase = some .AUDIT ∧ s.scu.auditTimer = true ∧ s.enabledRec (s.comp 1) = true) ∧
    isComp 1 := by
  refine ⟨by decide +kernel, fun purpose four => ?_, by decide⟩
  rcases four with rfl | rfl | rfl | rfl <;> decide +kernel

/-- A collection cut by a restart: empty at the audit it is retired, occupied it stands, its purpose gone. -/
theorem test_audit_collect :
    let t := (auditing (some .COLLECT)).auditRead 1 (reading false false true)
    let u := (auditing (some .COLLECT)).auditRead 1 (reading false true true)
    ((t.comp 1).state = .FREE ∧ t.alloc.retired.map (·.code) = [418305] ∧ t.scu.auditWait = []) ∧
    ((u.comp 1).state = .LOADED ∧ (u.comp 1).purpose = none ∧ u.kli.queue.map (·.outcome) = [some .RECOVERED]) := by
  decide +kernel

/-- Every fitted link but 1 has reported its full pass; section A is in use and its board PRESENT. -/
def reporting : State := { base with
  links := (base.links.map fun x => { x with reported := true }).set 0
    { base.link 1 with line := some .rollCall, enumPass := some ⟨true, 3, none⟩ }
  scu := { base.scu with phase := some .ENUMERATE } }

theorem witness_TheAuditBegins :
    ((reporting.link 1).line = some .rollCall ∧ (reporting.link 1).enumPass = some ⟨true, 3, none⟩ ∧
      reporting.linkFitted 1 = true ∧ reporting.scu.phase = some .ENUMERATE ∧ reporting.scu.auditWait = [] ∧
      reporting.scu.auditUnread = []) ∧
    (∀ m, m ≠ 1 → reporting.linkFitted m = true → (reporting.link m).reported = true) ∧
    (State.reset.scu.phase = some .ENUMERATE ∧ State.reset.linkFitted 4 = true ∧
      (State.reset.link 4).reported = false) ∧ base.scu.phase ≠ some .ENUMERATE ∧ base.kli.queue.length < 64 := by
  refine ⟨by decide +kernel, fun m ne fitted => ?_, by decide +kernel⟩
  have four : m ≤ 4 := (of_decide_eq_true fitted).2
  obtain rfl | rfl | rfl : m = 2 ∨ m = 3 ∨ m = 4 := by
    have := (of_decide_eq_true fitted).1
    omega
  all_goals decide +kernel

/-- The last full pass begins the audit, which waits for the eight compartments of section A. -/
theorem test_audit_begins :
    let t := after reporting (.boardResponseTimeout 1)
    t.scu.phase = some .AUDIT ∧ t.scu.auditWait = [1, 2, 3, 4, 5, 6, 7, 8] ∧ t.scu.auditUnread = [] := by decide +kernel

/-- A deposit cut before its grant waits for the audit limit, FREE its prior state. -/
theorem witness_TheAuditLimitUndoes :
    let x : Parcel := { parcelA with pending := true, prior := some .free }
    let s := (auditing none).withComp 1 { compA with state := .DEPOSITING, parcel := some x }
    s.scu.phase = some .AUDIT ∧ s.scu.auditTimer = true ∧ 1 ∈ s.scu.auditWait ∧ isComp 1 ∧
      (s.comp 1).parcel = some x ∧ (s.comp 1).purpose = none ∧ (s.comp 1).state = .DEPOSITING := by decide +kernel

/-! #### The payment bus -/

/-- Reader `r` of `base` as given. -/
def readerB (r : Nat) (x : Reader) : State := base.withReader r x

theorem witness_BusExchangesAndTheirAnswers :
    (let s := base.updPbc fun b => { b with retry := some (4, .POLL) }
     s.pbc.line = none ∧ s.pbc.retry = some (4, .POLL)) ∧
    (let s := readerB 4 { Reader.empty with state := .CHARGING, outgoing := [.CHARGE 9 1650] }
     s.pbc.line = none ∧ s.pbc.retry = none ∧ s.readerTurn = [1, 2, 3] ++ 4 :: [] ∧
      (∀ q ∈ [1, 2, 3], (s.reader q).state = .OFFLINE ∨ (s.reader q).outgoing = []) ∧
      (s.reader 4).state ≠ .OFFLINE ∧ (s.reader 4).outgoing = .CHARGE 9 1650 :: []) ∧
    (let s := readerB 4 { Reader.empty with pollTimer := .expired }
     s.readerTurn = [1, 2, 3] ++ 4 :: [] ∧
      (∀ q ∈ s.readerTurn, (s.reader q).state = .OFFLINE ∨ (s.reader q).outgoing = []) ∧
      (∀ q ∈ [1, 2, 3], ¬ ((s.reader q).state = .OFFLINE ∧ (s.reader q).pollTimer = .expired)) ∧
      (s.reader 4).state = .OFFLINE ∧ (s.reader 4).pollTimer = .expired) ∧
    (base.readerTurn = [] ++ 1 :: [2, 3, 4] ∧
      (∀ q ∈ base.readerTurn, ((base.reader q).state = .OFFLINE ∨ (base.reader q).outgoing = []) ∧
        ¬ ((base.reader q).state = .OFFLINE ∧ (base.reader q).pollTimer = .expired)) ∧
      (base.reader 1).state ≠ .OFFLINE) := by decide +kernel

/-- A charge offered, its CHARGE on the bus and at the head of its list. -/
def offered : State :=
  (charging base { chargeA with phase := .OFFERED } .CHARGING (.CHARGE 9 1650)).updReader 1 fun x =>
    { x with outgoing := [.CHARGE 9 1650] }

theorem witness_BusAnswers :
    (offered.pbc.line = some (1, .CHARGE 9 1650) ∧
      (offered.reader 1).charge = some { chargeA with phase := .OFFERED } ∧
      BusMsg.CHARGE 9 1650 ∈ (offered.reader 1).outgoing) ∧
    ((charging base chargeA .CHARGING .POLL).pbc.line = some (1, .POLL) ∧
      ((charging base chargeA .CHARGING .POLL).reader 1).state ≠ .OFFLINE) ∧
    ((charging base chargeA .OFFLINE .POLL).reader 1).state = .OFFLINE ∧
    (let s := { readerB 1 Reader.empty with pbc := { (readerB 1 Reader.empty).pbc with
        line := some (1, .POLL), reversals := [⟨9, 1650, 1, 1, .LATE_RESULT⟩] } }
     s.pbc.line = some (1, .POLL) ∧ (s.reader 1).state = .OFFLINE ∧ (s.reader 1).charge = none ∧
      ∃ v ∈ s.pbc.reversals, v.reader = 1) := by decide +kernel

/-- The same after its operation ended: the charge is to be abandoned. -/
def late : State :=
  charging (loaded.withComp 1 { compA with state := .LOADED, parcel := some { parcelA with chargeRef := some 9 } })
    { chargeA with phase := .ABANDON_DUE, job := none, timeout := none } .ABANDONING (.ABANDON 9)

theorem witness_ResultsSettleTheCharges :
    (waiting.pbc.line = some (1, .POLL) ∧ (waiting.reader 1).state ≠ .OFFLINE ∧
      (waiting.reader 1).charge = some chargeA ∧ chargeA.ref = 9 ∧ chargeA.phase ≠ .ABANDON_DUE ∧
      chargeA.job = some 7 ∧
      waiting.opByJob 7 = some { opA .COLLECT 1 1 .AWAIT_PAYMENT with chargeRef := some 9, amount := some 1650 } ∧
      isComp chargeA.comp ∧ (waiting.comp 1).parcel = some { parcelA with chargeRef := some 9 } ∧
      (waiting.slot 1 1).state = .PRESENT ∧ chargeA.ident.kind = .DELIVERY ∧
      ∀ e ∈ waiting.pbc.reversals, e.reader ≠ 1) ∧
    (late.pbc.line = some (1, .ABANDON 9) ∧ (late.reader 1).state ≠ .OFFLINE ∧
      (late.reader 1).charge = some { chargeA with phase := .ABANDON_DUE, job := none, timeout := none } ∧
      (late.comp 1).parcel = some { parcelA with chargeRef := some 9 } ∧ (late.comp 1).state = .LOADED ∧
      parcelA.code.isSome = true ∧ parcelA.code = chargeA.ident.code ∧
      parcelA.depositMinute = chargeA.ident.depositMinute) ∧
    (let s := late.withComp 1 { compA with state := .LOADED, parcel := some { parcelA with depositMinute := 100001 } }
     (s.comp 1).parcel = some { parcelA with depositMinute := 100001 } ∧
      (100001 : Nat) ≠ chargeA.ident.depositMinute ∧ s.pbc.reversals.length < 8) ∧
    (let e : Reversal := ⟨9, 1650, 1, 1, .LATE_RESULT⟩
     let s := base.updPbc fun b => { b with line := some (1, .REVERSE 9 1650), reversals := [e] }
     s.pbc.line = some (1, .REVERSE 9 1650) ∧ s.pbc.reversals.find? (fun v => v.ref == 9) = some e ∧
      s.kli.queue.length < 64) := by decide +kernel

/-- A return drop on compartment 1 that waits for its charge, FREE its prior state, or this one. -/
def dropping (b : Prior) : State :=
  charging (withOp (base.withComp 1 { compA with
      state := .DEPOSITING, purpose := some .RETURN_DROP
      parcel := some { parcelA with kind := .RETURN, pending := true, chargeRef := some 9, prior := some b } })
    { opA .RETURN_DROP 1 1 .AWAIT_PAYMENT with chargeRef := some 9, amount := some 1650 }) chargeA .CHARGING .POLL

/-- The late charge with another deposit minute in its compartment and 8 reversals held. -/
def fullLate : State :=
  (late.withComp 1 { compA with state := .LOADED, parcel := some { parcelA with depositMinute := 100001 } }).updPbc
    fun b => { b with reversals := List.replicate 8 ⟨1, 5, 2, 2, .LATE_RESULT⟩ }

theorem witness_ReturnDropsAndFullReversals :
    (∀ b, b = Prior.free ∨ b = .reserved ⟨1, 9, 101701⟩ ∨ b = .reserved ⟨1, 9, 101700⟩ → let s := dropping b
      s.pbc.line = some (1, .POLL) ∧ (s.reader 1).state ≠ .OFFLINE ∧ (s.reader 1).charge = some chargeA ∧
      s.opByJob 7 = some { opA .RETURN_DROP 1 1 .AWAIT_PAYMENT with chargeRef := some 9, amount := some 1650 } ∧
      ((s.comp 1).parcel.bind (·.prior)) = some b ∧ ((s.comp 1).parcel.bind (·.chargeRef)) = some 9 ∧
      (s.slot 1 1).state = .PRESENT ∧ s.kli.queue.length < 63 ∧ s.now = 101700) ∧
    (fullLate.pbc.line = some (1, .ABANDON 9) ∧ 8 ≤ fullLate.pbc.reversals.length ∧
      (fullLate.reader 1).charge = some { chargeA with phase := .ABANDON_DUE, job := none, timeout := none } ∧
      (100001 : Nat) ≠ chargeA.ident.depositMinute ∧ fullLate.kli.queue.length < 64) := by
  refine ⟨?_, by decide +kernel⟩
  rintro b (rfl | rfl | rfl) <;> decide +kernel

/-- A declined return drop is undone and asks for no reversal; a late approval with 8 reversals is not refunded. -/
theorem test_declined_drop_and_full_list :
    let t := after (dropping .free) (.result 1 9 .DECLINED [])
    let u := after fullLate (.result 1 9 .APPROVED [0x41])
    ((t.comp 1).state = .FREE ∧ (t.comp 1).parcel = none ∧ t.hce.ops = [] ∧ t.pbc.reversals = [] ∧
      t.kli.queue.map (·.outcome) = [none, some .PAYMENT_DECLINED]) ∧
    (u.pbc.reversals.length = 8 ∧ u.kli.queue.map (·.flags) = [some { refundNotIssued := true }]) := by decide +kernel

/-- Reader 1 OFFLINE and polled, with the charge of worked case 1 to be abandoned. -/
def returning : State :=
  charging (loaded.withComp 1 { compA with state := .LOADED, parcel := some { parcelA with chargeRef := some 9 } })
    { chargeA with phase := .ABANDON_DUE, job := none, timeout := none } .OFFLINE .POLL

theorem witness_ResultsOfOtherReferences :
    (late.pbc.line = some (1, .ABANDON 9) ∧ (late.reader 1).state ≠ .OFFLINE ∧ (late.reader 1).lastSettled ≠ some 8 ∧
      (late.reader 1).charge.all (fun c => c.ref != 8) = true) ∧
    (returning.pbc.line = some (1, .POLL) ∧ (returning.reader 1).state = .OFFLINE ∧
      (returning.reader 1).charge = some { chargeA with phase := .ABANDON_DUE, job := none, timeout := none } ∧
      (returning.comp 1).parcel = some { parcelA with chargeRef := some 9 } ∧ (returning.comp 1).state = .LOADED ∧
      parcelA.code = chargeA.ident.code ∧ parcelA.depositMinute = chargeA.ident.depositMinute ∧
      returning.kli.queue.length < 64 ∧ returning.pbc.reversals.length < 8) ∧
    (let s := { readerB 1 { Reader.empty with lastSettled := some 8 } with pbc := { (readerB 1
        { Reader.empty with lastSettled := some 8 }).pbc with line := some (1, .POLL) } }
     (s.reader 1).charge = none ∧ (s.reader 1).lastSettled = some 8 ∧ (s.reader 1).state = .OFFLINE ∧
      ∀ e ∈ s.pbc.reversals, e.reader ≠ 1) := by decide +kernel

/-- A late approval at the return of its reader credits the parcel; another reference is posted UNMATCHED. -/
theorem test_result_on_return :
    let t := after returning (.result 1 9 .APPROVED [0x41])
    let u := after returning (.result 1 8 .DECLINED [])
    ((t.reader 1).state = .IDLE ∧ (t.comp 1).parcel.map (·.paid) = some 1650 ∧
      t.kli.queue.map (·.kind) = [.LATE_RESULT]) ∧
    ((u.reader 1).state = .ABANDONING ∧ (u.reader 1).outgoing = [.RESULT_ACK 8, .ABANDON 9] ∧
      u.kli.queue.map (·.flags) = [some { unmatched := true }]) := by decide +kernel

/-- RECONCILE with one reader fitted: its record is to be abandoned, that of reader 2 goes with its event. -/
theorem test_reconcile :
    let s := (returning.withReader 2 { Reader.empty with charge := some { chargeA with ref := 10 } }).updScu fun u =>
      { u with straps := { u.straps with readers := 1 } }
    let t := s.reconcile
    ((t.reader 1).outgoing = [.ABANDON 9] ∧ (t.reader 1).pollTimer = .expired ∧ (t.reader 2).charge = none) ∧
      t.kli.queue.map (fun e => (e.kind, e.chargeRef)) = [(.PAYMENT_RESULT, some 10)] := by decide +kernel

theorem witness_ReaderTimersExpire :
    (waiting.pbc.line = some (1, .POLL) ∧ (waiting.reader 1).state ≠ .OFFLINE ∧ (waiting.reader 1).unanswered < 2 ∧
      2 ≤ ((waiting.updReader 1 fun x => { x with unanswered := 2 }).reader 1).unanswered ∧
      (opA .COLLECT 1 1 .AWAIT_PAYMENT).purpose ≠ .SWEEP) ∧
    (let s := charging base chargeA .OFFLINE .POLL
     (s.reader 1).state = .OFFLINE ∧ s.pbc.line = some (1, .POLL)) ∧
    (let s := readerB 4 { Reader.empty with pollTimer := .running }
     (s.reader 4).state = .OFFLINE ∧ (s.reader 4).pollTimer = .running) ∧
    (chargeA.timeout.isSome = true ∧ chargeA.job = some 7 ∧
      (waiting.opByJob 7).any (fun o => decide (o.stage = .AWAIT_PAYMENT)) = true) ∧
    (chargeA.phase ≠ .OFFERED ∧ chargeA.job.isSome = true ∧ (late.reader 1).state ≠ .OFFLINE ∧
      (late.reader 1).charge.all (fun c => decide (c.job = none)) = true) ∧
    (let s := (readerB 1 { Reader.empty with state := .IDLE, unanswered := 2 }).updPbc fun b => { b with
        line := some (1, .POLL) }
     s.pbc.line = some (1, .POLL) ∧ (s.reader 1).state ≠ .OFFLINE ∧ (s.reader 1).charge = none) ∧
    (offered.pbc.line = some (1, .CHARGE 9 1650) ∧ (offered.reader 1).state ≠ .OFFLINE) := by decide +kernel

/-- The third miss: a charge not offered goes and only REVERSE is kept, a CHARGE lost is to be abandoned. -/
theorem test_third_miss :
    let missed := fun (m : BusMsg) => after (charging (withOp base (opA .COLLECT 1 1 .AWAIT_PAYMENT))
      { chargeA with phase := .OFFERED, offer := false } .CHARGING m |>.updReader 1 fun x =>
        { x with unanswered := 2, outgoing := [.RESULT_ACK 5, .CHARGE 9 1650] }) (.readerResponseTimeout 1)
    (((missed (.RESULT_ACK 5)).reader 1).charge = none ∧ ((missed (.RESULT_ACK 5)).reader 1).outgoing = [] ∧
      (missed (.RESULT_ACK 5)).hce.ops = []) ∧
    (((missed (.CHARGE 9 1650)).reader 1).charge.map (·.phase) = some .ABANDON_DUE ∧
      ((missed (.CHARGE 9 1650)).reader 1).outgoing = []) := by decide +kernel

end Sys2Proof.Tests
end

