-- ==== Sys2Proof/Proofs/HoldMap.lean ====
section
/-! HOLD_MAP (R18): the number in its payload, the run of its 32 indications, and a request whose owner only tells. -/

namespace Sys2Proof.Machine

open Sys2Proof

/-- A payload of one byte parses as the number below 256 that the byte carries (R184). -/
theorem Codec.parse_nat8_byteOf {n : Nat} (hn : n < 256) : Codec.nat8.parse [byteOf n] = some n := by
  have hb : (byteOf n).toNat = n := BitVec.toNat_ofNat n 8 |>.trans (Nat.mod_eq_of_lt hn)
  simp [Codec.parse, Codec.nat8, Codec.next, hb]

/-- Taking a frame touches the Kiosk Link Interface alone: every hold indication reads as before. -/
theorem State.holdIndication_took (s : State) (h : ReqHead) : (s.took h).holdIndication = s.holdIndication := rfl

/-- A request whose kind clears no tag list and whose owner only tells something is answered OK, and nothing but the
Kiosk Link Interface's record of the request changes. -/
theorem State.takeRequest_tell {α : Type} (s : State) {h : ReqHead} {kind : Nat} {p : List Byte} {c : Codec α}
    {x : α} (body : α → State → ReplyBody) (a : s.asks h kind p) (hp : c.parse p = some x)
    (hk : clearsTags kind = false) :
    s.takeRequest h kind p c (fun x s => s.tell (body x s)) =
      { s with kli := s.kli.answered h kind .OK (body x (s.took h)) } := by
  have ok : ((s.took h).tell (body x (s.took h))).status ≠ .BAD_REQUEST := by simp [State.tell]
  rw [State.takeRequest_answered s (fun x s => s.tell (body x s)) a hp hk ok]
  rfl

/-- From a first number of 1 or more, the indication of a number is 1 exactly where it is one of a compartment, held and
in a section (R18). -/
theorem State.holdIndication_eq (s : State) {n : Nat} (hn : 1 ≤ n) :
    s.holdIndication n = decide (n ≤ 240 ∧ s.held n = true ∧ (s.comp n).sect.isSome = true) := by
  rw [Bool.eq_iff_iff, decide_eq_true_iff]
  simp only [State.holdIndication, compNoOk, Bool.and_eq_true, decide_eq_true_iff]
  constructor
  · rintro ⟨⟨⟨-, hi⟩, sect⟩, held⟩
    exact ⟨hi, held, sect⟩
  · rintro ⟨hi, held, sect⟩
    exact ⟨⟨⟨hn, hi⟩, sect⟩, held⟩

/-- A number clipped to a range that begins at 1 or above is 1 or more. -/
theorem one_le_clamp {lo hi : Nat} (x : Nat) (hlo : 1 ≤ lo) (hhi : lo ≤ hi) : 1 ≤ clamp lo hi x := by
  unfold clamp
  split
  · exact hlo
  · split <;> omega

/-- The 32 indications of HOLD_MAP from number `m` on (R18). -/
theorem State.holdIndications_eq (s : State) {m : Nat} (hm : 1 ≤ m) :
    (List.range' m 32).map s.holdIndication = (List.range 32).map fun k =>
      decide (m + k ≤ 240 ∧ s.held (m + k) = true ∧ (s.comp (m + k)).sect.isSome = true) := by
  rw [List.range'_eq_map_range, List.map_map]
  exact List.map_congr_left fun k _ => s.holdIndication_eq (Nat.le_add_right_of_le hm)

/-- HOLD_MAP answers the indications from the clipped number on, in every mode and phase, and changes nothing but the
Kiosk Link Interface's record of the request (R18). -/
theorem exec_holdMap {h : ReqHead} {n : Nat} {s : State} (a : s.asks h 10 [byteOf n]) (hn : n < 256) :
    exec (.holdMap h [byteOf n]) s = .next { s with
      kli := s.kli.answered h 10 .OK
        (.holds (clamp 1 240 n) ((List.range' (clamp 1 240 n) 32).map s.holdIndication)) } := by
  have arm : exec (.holdMap h [byteOf n]) s = execHoldMap h [byteOf n] s := rfl
  rw [arm, execHoldMap, State.takeRequest_tell s
    (fun n s => .holds (clamp 1 240 n) ((List.range' (clamp 1 240 n) 32).map s.holdIndication))
    a (Codec.parse_nat8_byteOf hn) rfl, State.holdIndication_took]

/-- Settles O20: the clipped number is 1 or more, so the indications answered are the ones R18 asks for. -/
theorem holdMapShowsTheHolds : Obligations.HoldMapShowsTheHolds := by
  intro h n s a hn
  have first : 1 ≤ clamp 1 240 n := one_le_clamp n le_rfl (by decide)
  rw [exec_holdMap a hn, s.holdIndications_eq first]
  rfl

end Sys2Proof.Machine
end

