-- ==== Sys2Proof/Proofs/FaultCapture.lean ====
section
/-! The fault capture record (R65, R66): what its two requests answer, and what a report leaves in an empty record. -/

namespace Sys2Proof.Machine

open Sys2Proof

/-- `starting` is set exactly in the start-up phases. -/
theorem State.starting_iff (s : State) : s.starting = true ↔ s.scu.phase ≠ none :=
  Option.isSome_iff_ne_none

/-- The owner of CLEAR_FAULT_CAPTURE refuses it in the start-up phases (R66). -/
theorem State.clearCapture_starting {s : State} (h : s.scu.phase ≠ none) : s.clearCapture = s.refuse .STARTING :=
  if_pos (s.starting_iff.2 h)

/-- Outside the start-up phases the owner tells the record as it stood and empties it (R66). -/
theorem State.clearCapture_running {s : State} (h : s.scu.phase = none) :
    s.clearCapture = { s.tell (.capture s.capture) with
      state := s.updCapture fun _ => { held := none, further := 0 } } :=
  if_neg fun starting => s.starting_iff.1 starting h

/-- Posting an event leaves the capture record as it is. -/
@[simp] theorem State.post_capture (s : State) (e : EventRec) : (s.post e).capture = s.capture := rfl

/-- A report that finds no fault held becomes the one held and leaves the further-fault count as it is (R65). -/
theorem State.reportFault_capture_of_empty {s : State} (h : s.capture.held = none) (kind : FaultKind) (l j : Nat)
    (ch n : Option Nat) :
    (s.reportFault kind l j ch n).capture =
      { s.capture with held := some { kind, link := l, slot := j, channel := ch, comp := n, minute := s.now } } := by
  simp only [State.reportFault, h, State.post_capture, State.updCapture_capture]

/-- READ_FAULT_CAPTURE is answered with the record in every mode and phase, and nothing but the Kiosk Link Interface's
record of the request changes (R66). -/
theorem exec_readFaultCapture {h : ReqHead} {p : List Byte} {s : State} (hp : p.length = 1) (a : s.asks h 12 p) :
    exec (.readFaultCapture h p) s = .next { s with kli := s.kli.answered h 12 .OK (.capture s.capture) } := by
  have arm : exec (.readFaultCapture h p) s = execReadFaultCapture h p s := rfl
  rw [arm, execReadFaultCapture,
    State.takeRequest_tell s (fun _ s => .capture s.capture) a (Codec.parse_blank hp) rfl]
  rfl

/-- CLEAR_FAULT_CAPTURE ends in what its owner answers once the frame is taken. -/
theorem exec_clearFaultCapture {h : ReqHead} {p : List Byte} {s : State} {r : Answer} (hp : p.length = 1)
    (a : s.asks h 40 p) (owner : (s.took h).clearCapture = r) (hr : r.status ≠ .BAD_REQUEST) :
    exec (.clearFaultCapture h p) s =
      .next (r.state.updKli fun k => { k with reply := some (replyTo h 40 r.status r.body) }) := by
  have arm : exec (.clearFaultCapture h p) s = execClearFaultCapture h p s := rfl
  subst owner
  rw [arm, execClearFaultCapture,
    State.takeRequest_answered s (fun _ s => s.clearCapture) a (Codec.parse_blank hp) rfl hr]

/-- In the start-up phases CLEAR_FAULT_CAPTURE is refused and changes nothing but the Kiosk Link Interface's record of
the request (R66). -/
theorem exec_clearFaultCapture_starting {h : ReqHead} {p : List Byte} {s : State} (hp : p.length = 1)
    (a : s.asks h 40 p) (starting : s.scu.phase ≠ none) :
    exec (.clearFaultCapture h p) s = .next { s with kli := s.kli.answered h 40 .STARTING .empty } :=
  exec_clearFaultCapture hp a (State.clearCapture_starting starting) (by simp [State.refuse])

/-- Outside the start-up phases CLEAR_FAULT_CAPTURE is answered with the record as it stood, empties it, and changes
nothing else but the Kiosk Link Interface's record of the request (R66). -/
theorem exec_clearFaultCapture_running {h : ReqHead} {p : List Byte} {s : State} (hp : p.length = 1)
    (a : s.asks h 40 p) (running : s.scu.phase = none) :
    exec (.clearFaultCapture h p) s = .next { s with
      capture := { held := none, further := 0 }
      kli := s.kli.answered h 40 .OK (.capture s.capture) } :=
  exec_clearFaultCapture hp a (State.clearCapture_running running) (by simp [State.tell])

/-- Settles O27: one clause for READ, one for each side of CLEAR's test of the phase, and the report into an empty
record. -/
theorem faultCaptureIsReadAndCleared : Obligations.FaultCaptureIsReadAndCleared := by
  intro h p s hp
  refine ⟨exec_readFaultCapture hp, exec_clearFaultCapture_starting hp, exec_clearFaultCapture_running hp, ?_⟩
  intro empty kind l j ch n
  have held : s.capture.held = none := by rw [empty]
  rw [State.reportFault_capture_of_empty held, empty]

end Sys2Proof.Machine
end

