-- ==== Sys2Proof/Proofs/Acts.lean ====
section
/-! What a command can do, said once: every command of the part is a chain of the acts listed here, each one a block
update under the condition that the model's own tests establish.  Every standing property of the part is then a case
analysis over the acts. -/

namespace Sys2Proof.Machine

open Sys2Proof

/-! ### What an ordinary update of a record keeps -/

/-- The page and the access code of the parcel record of a compartment. -/
def Compartment.bond (x : Compartment) : Option (Fin 4) × Option Nat :=
  (x.parcel.bind (·.page), x.parcel.bind (·.code))

/-- A compartment that is FREE, RESERVED or OUT_OF_SERVICE has no parcel record (R1). -/
def Compartment.placed (x : Compartment) : Prop :=
  x.state = .FREE ∨ x.state = .RESERVED ∨ x.state = .OUT_OF_SERVICE → x.parcel = none

/-- An update of a compartment record that keeps its hatch-cycle count and, where R1 holds of it, R1 and the bond of its
parcel. -/
structure Compartment.Holds (x y : Compartment) : Prop where
  hatchCount : y.hatchCount = x.hatchCount
  placed : x.placed → y.placed
  bond : x.placed → y.bond = x.bond

/-- The poll state of a slot: its unanswered count has not reached the limit, and R48 holds of it. -/
def Slot.Holds (x y : Slot) : Prop := (x.ok → y.ok) ∧ (x.unanswered ≤ 2 → y.unanswered ≤ 2)

/-- The rounds of a pass in progress are below the sixteen that end it (R49). -/
def Link.passOk (x : Link) : Prop := ∀ p, x.enumPass = some p → p.rounds ≤ 15

/-- An update of a link that puts nothing on its queues and keeps the units of its strike and the sizes and states of
its slots and pass. -/
structure Link.Holds (x y : Link) : Prop where
  units : y.strikeUnits = x.strikeUnits
  prio : y.prio.Sublist x.prio
  bulk : y.bulk.Sublist x.bulk
  slots : ∀ k, (x.slotAt k).Holds (y.slotAt k)
  pass : x.passOk → y.passOk

/-- An update of an operation record that keeps what its creation fixed. -/
def Op.Holds (x y : Op) : Prop :=
  y.job = x.job ∧ y.comp = x.comp ∧ y.link = x.link ∧ y.station = x.station ∧ y.purpose = x.purpose ∧
  (y.stage = .AWAIT_PAYMENT → x.stage = .AWAIT_PAYMENT)

/-- The lists of a courier station within the size of R173. -/
def SweepSide.fits (x : SweepSide) : Prop :=
  x.tags.length ≤ 64 ∧ ∀ r, x.run = some r → r.pending.length ≤ 64

/-- A reader within the bounds of R150. -/
def Reader.fits (x : Reader) : Prop := x.listOk = true ∧ x.unanswered ≤ 2

/-- An update of the Supply and Clock Unit that keeps the inputs, the mode and the settings, and the greatest minute. -/
structure Scu.Holds (u v : Scu) : Prop where
  straps : v.straps = u.straps
  mainsGood : v.mainsGood = u.mainsGood
  batteryLow : v.batteryLow = u.batteryLow
  mode : v.mode = u.mode
  base : v.base = u.base
  wallOffset : v.wallOffset = u.wallOffset
  config : v.config = u.config
  minute : u.minute ≤ 4294967295 ∧ u.persisted ≤ 4294967295 → v.minute ≤ 4294967295 ∧ v.persisted ≤ 4294967295

/-- An update of the payment bus that leaves the readers and keeps the sizes of R152 and R161. -/
structure Pbc.Holds (p q : Pbc) : Prop where
  readers : q.readers = p.readers
  reversals : p.reversals.length ≤ 8 → q.reversals.length ≤ 8
  refCounter : p.refCounter ≤ 65535 → q.refCounter ≤ 65535

theorem Compartment.Holds.refl (x : Compartment) : x.Holds x := ⟨rfl, id, fun _ => rfl⟩

theorem Slot.Holds.refl (x : Slot) : x.Holds x := ⟨id, id⟩

theorem Link.Holds.refl (x : Link) : x.Holds x :=
  ⟨rfl, .refl _, .refl _, fun _ => .refl _, id⟩

/-! ### The acts -/

/-- One act of a command.  An act that only some commands can make names them. -/
inductive Act (c : Instr) : State → State → Prop
  | kli (s : State) (f : Kli → Kli) (ok : s.kli.ok → (f s.kli).ok) (mask : (f s.kli).mask = s.kli.mask) :
      Act c s (s.updKli f)
  | mask (s : State) (m : ClassSet) (by_ : ∃ h p, c = .eventMask h p) :
      Act c s (s.updKli fun k => Kli.refresh { k with mask := m })
  | comp (s : State) (n : Nat) (f : Compartment → Compartment) (holds : (s.comp n).Holds (f (s.comp n)))
      (sect : (f (s.comp n)).sect = (s.comp n).sect) : Act c s (s.updComp n f)
  | resect (s : State) (n : Nat) (f : Compartment → Compartment) (holds : (s.comp n).Holds (f (s.comp n)))
      (by_ : ∃ h p, c = .sectionDefine h p) : Act c s (s.updComp n f)
  | strikeCount (s : State) (n : Nat) (by_ : ∃ l, c = .strikeAck l) :
      Act c s (s.updComp n fun x => { x with hatchCount := addMin x.hatchCount 1 })
  | retire (s : State) (n : Nat) : Act c s (s.retire n)
  | undo (s : State) (n : Nat) : Act c s (s.undo n).1
  | deposit (s : State) (d : DepositReq) (n code : Nat) (inTable : isComp n)
      (free : (s.comp n).state = .FREE ∨ (s.comp n).state = .RESERVED) (fresh : s.codeUsed code = false) :
      Act c s (s.depositComp d n code)
  | alloc (s : State) (f : Alloc → Alloc) (sub : (f s.alloc).retired.Sublist s.alloc.retired) :
      Act c s (s.updAlloc f)
  | gates (s : State) (f : Vector Gate 4 → Vector Gate 4)
      (fits : (∀ st, (s.gate st).wrong.length ≤ 5) → ∀ st, ((s.updGates f).gate st).wrong.length ≤ 5) :
      Act c s (s.updGates f)
  | tariff (s : State) (f : Tariff → Tariff) (pages : (f s.tariff).pages = s.tariff.pages)
      (refs : (f s.tariff).refs = s.tariff.refs) : Act c s (s.updTariff f)
  | storePage (s : State) (i : Fin 4) (p : Page) (by_ : ∃ h q, c = .tariffLoad h q) : Act c s (s.storePage i p)
  | capture (s : State) (f : Capture → Capture) (fits : s.capture.further ≤ 255 → (f s.capture).further ≤ 255) :
      Act c s (s.updCapture f)
  | link (s : State) (l : Nat) (f : Link → Link) (holds : (s.link l).Holds (f (s.link l))) : Act c s (s.updLink l f)
  | dropStrike (s : State) (l : Nat) : Act c s (s.dropStrike l)
  | advance (s : State) : Act c s s.advance
  | grant (s : State) (o : Op) (head : s.readyHead s.arb.turn = some o) : Act c s (s.grant o)
  | create (s t : State) (pu : Purpose) (st n u job : Nat) (a : Addr) (g : Stage)
      (made : s.createOp pu st n a u g = some (t, job)) (link : 1 ≤ a.link ∧ a.link ≤ 4) (alone : s.hasOp n = false)
      (stage : g = .QUEUED ∨ g = .AWAIT_PAYMENT ∧ pu ≠ .SWEEP) : Act c s t
  | op (s : State) (job : Nat) (f : Op → Op) (holds : ∀ o : Op, o.Holds (f o)) : Act c s (s.updOp job f)
  | remove (s : State) (o : Op) (there : ∃ y ∈ s.hce.ops, y.job = o.job ∧ y.link = o.link) :
      Act c s ((s.updLink o.link fun x => x.leave o.job).removeOp o.job)
  | join (s : State) (o : Op) (job : Nat) (there : s.opByJob job = some o) (stage : o.stage = .AWAIT_PAYMENT) :
      Act c s ((s.updOp job fun o => { o with stage := .QUEUED }).updLink o.link
        fun x => { x with prio := x.prio ++ [job] })
  | startRun (s : State) (k : Courier) : Act c s (s.startRun k)
  | side (s : State) (k : Courier) (f : SweepSide → SweepSide) (fits : (s.side k).fits → (f (s.side k)).fits) :
      Act c s (s.updSide k f)
  | reader (s : State) (r : Nat) (f : Reader → Reader) (fits : (s.reader r).fits → (f (s.reader r)).fits) :
      Act c s (s.updReader r f)
  | pbc (s : State) (f : Pbc → Pbc) (holds : s.pbc.Holds (f s.pbc)) : Act c s (s.updPbc f)
  | scu (s : State) (f : Scu → Scu) (holds : s.scu.Holds (f s.scu)) : Act c s (s.updScu f)
  | levels (s : State) (g b : Bool) (by_ : ∃ v, c = .mainsGoodChange v ∨ c = .batteryLowChange v) :
      Act c s (s.updScu fun u => { u with mainsGood := g, batteryLow := b })
  | base (s : State) (b : BaseMode) (by_ : ∃ h p, c = .mode h p) : Act c s (s.updScu fun u => { u with base := b })
  | mode (s : State) (m : Mode)
      (by_ : (∃ v, c = .mainsGoodChange v ∨ c = .batteryLowChange v) ∨ ∃ h p, c = .mode h p ∨ c = .factoryClear h p) :
      Act c s (s.withMode m)
  | offset (s : State) (o : Nat) (by_ : ∃ h p, c = .timeSet h p) :
      Act c s (s.updScu fun u => { u with wallOffset := o })
  | config (s : State) (v : ConfigVals) (by_ : ∃ h p, c = .config h p) :
      Act c s (s.updScu fun u => { u with config := v })
  | holdFlag (s : State) (i : Fin 8) (b : Bool) (by_ : ∃ h p, c = .hold h p ∨ c = .holdRelease h p) :
      Act c s (s.updSect i fun x => { x with hold := b })
  | sect (s : State) (i : Fin 8) (f : Sect → Sect) (by_ : ∃ h p, c = .sectionDefine h p ∨ c = .sectionEnable h p) :
      Act c s (s.updSect i f)
  | mapEntry (s : State) (n : Nat) (e : Option MapEntry)
      (by_ : ∃ h p, c = .sectionDefine h p ∨ c = .mapWrite h p) : Act c s (s.setMapEntry n e)
  | factory (s : State) (by_ : ∃ h p, c = .factoryClear h p) : Act c s s.factoryBlocks
  | restart (s : State) (i : RestartInputs) (k : ResetCause)
      (by_ : c = .powerOn i ∨ c = .brownout i ∨ c = .hostRestart i) : Act c s (s.restartWith i k)

/-- A chain of acts of a command. -/
abbrev Acts (c : Instr) : State → State → Prop := Relation.ReflTransGen (Act c)

variable {c : Instr}

theorem Acts.refl (s : State) : Acts c s s := Relation.ReflTransGen.refl

theorem Acts.one {s t : State} (a : Act c s t) : Acts c s t := Relation.ReflTransGen.single a

theorem Acts.trans {s t u : State} (a : Acts c s t) (b : Acts c t u) : Acts c s u := Relation.ReflTransGen.trans a b

theorem Acts.then {s t u : State} (a : Acts c s t) (b : Act c t u) : Acts c s u := a.tail b

theorem Acts.foldl {α : Type} {f : State → α → State} (h : ∀ s x, Acts c s (f s x)) (l : List α) :
    ∀ s, Acts c s (l.foldl f s) := by
  induction l with
  | nil => exact fun s => .refl s
  | cons x l ih => exact fun s => (h s x).trans (ih _)

/-! ### Shared block updates -/

/-- A posted record leaves the event queue consistent (R191, R192). -/
theorem Kli.refresh_attention (k : Kli) : k.refresh.attention = true ↔
    k.overflow = true ∨ ∃ c, k.mask.get c = true ∧ k.pendingFl.get c = true := by
  simp only [Kli.refresh, Bool.or_eq_true, ClassSet.meets, Bool.and_eq_true, or_assoc]
  constructor
  · rintro (h | h | h | h | h | h)
    · exact .inl h
    · exact .inr ⟨.HATCH, h⟩
    · exact .inr ⟨.PARCEL, h⟩
    · exact .inr ⟨.PAYMENT, h⟩
    · exact .inr ⟨.EQUIPMENT, h⟩
    · exact .inr ⟨.SYSTEM, h⟩
  · rintro (h | ⟨c, h⟩)
    · exact .inl h
    · cases c <;> simp_all [ClassSet.get]

theorem ClassSet.get_raise (m : ClassSet) (a b : EventClass) : (m.raise a).get b = (m.get b || decide (a = b)) := by
  cases a <;> cases b <;> simp [ClassSet.raise, ClassSet.get]

theorem Kli.post_ok {k : Kli} (h : k.ok) (e : EventRec) : (k.post e).ok := by
  obtain ⟨room, rx, flags, att⟩ := h
  unfold Kli.post
  split
  · rename_i free
    refine ⟨?_, rx, ?_, Kli.refresh_attention _⟩
    · simp only [Kli.refresh, List.length_append, List.length_singleton]
      exact free
    · intro c
      simp only [Kli.refresh, ClassSet.get_raise, Bool.or_eq_true, flags c, decide_eq_true_eq, List.mem_append,
        List.mem_singleton, or_and_right, exists_or, exists_eq_left]
  · exact ⟨room, rx, flags, Kli.refresh_attention _⟩

theorem Kli.post_mask (k : Kli) (e : EventRec) : (k.post e).mask = k.mask := (Kli.post_kept k e).2.2.1

theorem act_post (s : State) (e : EventRec) : Act c s (s.post e) :=
  .kli s _ (fun h => Kli.post_ok h e) (Kli.post_mask _ e)

theorem acts_post (s : State) (e : EventRec) : Acts c s (s.post e) := .one (act_post s e)

theorem acts_reportFault (s : State) (k : FaultKind) (l j : Nat) (ch n : Option Nat) :
    Acts c s (s.reportFault k l j ch n) := by
  unfold State.reportFault
  split
  · exact (Acts.one (.capture s _ id)).then (act_post _ _)
  · exact .one (.capture s _ fun _ => Nat.min_le_right _ _)

/-- An update of a compartment that keeps its section, hatch-cycle count, state and parcel record. -/
theorem acts_updComp (s : State) (n : Nat) (f : Compartment → Compartment)
    (h : ∀ x : Compartment, (f x).sect = x.sect ∧ (f x).hatchCount = x.hatchCount ∧ (f x).state = x.state ∧
      (f x).parcel = x.parcel) : Acts c s (s.updComp n f) := by
  obtain ⟨hs, hc, ht, hp⟩ := h (s.comp n)
  refine .one (.comp s n f ⟨hc, ?_, ?_⟩ hs)
  · intro placed
    unfold Compartment.placed
    rw [ht, hp]
    exact placed
  · intro _
    unfold Compartment.bond
    rw [hp]

/-- An update of a parcel record that keeps its page and its code. -/
theorem acts_updParcel (s : State) (n : Nat) (f : Parcel → Parcel) (h : ∀ p, (f p).page = p.page ∧ (f p).code = p.code) :
    Acts c s (s.updParcel n f) := by
  refine .one (.comp s n _ ⟨rfl, ?_, ?_⟩ rfl)
  · intro placed at_
    simp only [placed at_, Option.map_none]
  · intro _
    unfold Compartment.bond
    cases (s.comp n).parcel <;> simp [h]

theorem acts_markCause (s : State) (n : Nat) (k : Cause) : Acts c s (s.markCause n k) :=
  acts_updComp s n _ fun _ => ⟨rfl, rfl, rfl, rfl⟩

theorem acts_afterResolve (s : State) (n : Nat) : Acts c s (s.afterResolve n) := by
  unfold State.afterResolve
  split
  · exact (acts_markCause s n _).trans (acts_reportFault _ _ _ _ _ _)
  · exact .refl s

theorem acts_confirmParcel (s : State) (n : Nat) (b : Bool) : Acts c s (s.confirmParcel n b) := by
  unfold State.confirmParcel
  split
  · exact .refl s
  · rename_i p hp
    refine .one (.comp s n _ ⟨rfl, fun _ at_ => ?_, fun _ => ?_⟩ rfl)
    · cases hk : p.kind <;> simp [hk] at at_
    · simp [Compartment.bond, hp]

theorem acts_updLink (s : State) (l : Nat) (f : Link → Link) (h : ∀ x : Link, (f x).strike = x.strike ∧
    (f x).prio = x.prio ∧ (f x).bulk = x.bulk ∧ (f x).slots = x.slots ∧ (f x).enumPass = x.enumPass) :
    Acts c s (s.updLink l f) := by
  obtain ⟨h1, h2, h3, h4, h5⟩ := h (s.link l)
  refine .one (.link s l f ⟨?_, ?_, ?_, ?_, ?_⟩)
  · simp [Link.strikeUnits, h1]
  · rw [h2]
  · rw [h3]
  · intro k
    simp only [Link.slotAt, h4]
    exact .refl _
  · simp only [Link.passOk, h5, imp_self]

/-- A strike record rewritten with its units kept. -/
theorem acts_strike (s : State) (l : Nat) (f : Link → Link) {k : Strike} (at_ : (s.link l).strike = some k)
    (h : ∀ x : Link, x.strike = some k → (∃ j, (f x).strike = some j ∧ j.units = k.units) ∧
      (f x).prio = x.prio ∧ (f x).bulk = x.bulk ∧ (f x).slots = x.slots ∧ (f x).enumPass = x.enumPass) :
    Acts c s (s.updLink l f) := by
  obtain ⟨⟨j, h1, hj⟩, h2, h3, h4, h5⟩ := h (s.link l) at_
  refine .one (.link s l f ⟨?_, ?_, ?_, ?_, ?_⟩)
  · simp [Link.strikeUnits, h1, at_, hj]
  · rw [h2]
  · rw [h3]
  · intro k
    simp only [Link.slotAt, h4]
    exact .refl _
  · simp only [Link.passOk, h5, imp_self]

theorem Link.Holds.updSlot (x : Link) (k : Nat) (f : Slot → Slot) (h : (x.slotAt k).Holds (f (x.slotAt k))) :
    x.Holds (x.updSlot k f) := by
  refine ⟨rfl, .refl _, .refl _, fun j => ?_, id⟩
  rw [Link.slotAt_updSlot]
  split
  · rename_i hk
    rw [← hk.1]
    exact h
  · exact .refl _

theorem acts_updSlot (s : State) (l k : Nat) (f : Slot → Slot) (h : (s.slot l k).Holds (f (s.slot l k))) :
    Acts c s (s.updSlot l k f) :=
  .one (.link s l _ (Link.Holds.updSlot _ k f h))

theorem acts_updPbc (s : State) (f : Pbc → Pbc) (h : ∀ p : Pbc, (f p).readers = p.readers ∧
    (f p).reversals.Sublist p.reversals ∧ (f p).refCounter = p.refCounter) : Acts c s (s.updPbc f) := by
  obtain ⟨h1, h2, h3⟩ := h s.pbc
  exact .one (.pbc s f ⟨h1, fun hl => h2.length_le.trans hl, fun hr => h3 ▸ hr⟩)

theorem acts_updScu (s : State) (f : Scu → Scu) (h : ∀ u : Scu, u.Holds (f u)) : Acts c s (s.updScu f) :=
  .one (.scu s f (h s.scu))

end Sys2Proof.Machine
end

