-- ==== Sys2Proof/Proofs/ActsEngine.lean ====
section
/-! The shared operations of the Payment Bus Controller, the Hatch Cycle Engine, the arbiter and the Sweep Unit as
chains of acts. -/

namespace Sys2Proof.Machine

open Sys2Proof

variable {c : Instr}

/-! ### The payment bus -/

theorem BusMsg.isOwed_of_isReverse {m : BusMsg} (h : m.isReverse = true) : m.isOwed = true := by
  simp [BusMsg.isOwed, h]

theorem Reader.oweReverse_listOk {x : Reader} (v : Reversal) (h : x.listOk = true) : (x.oweReverse v).listOk = true := by
  unfold Reader.oweReverse
  refine Reader.owe_listOk h ?_
  cases hf : x.outgoing.find? BusMsg.isReverse with
  | none => rfl
  | some m => exact BusMsg.isOwed_of_isReverse (List.find?_some hf)

/-- Taking messages off an outgoing list keeps its bound (R150). -/
theorem Reader.listOk_sublist {x y : Reader} (h : x.listOk = true) (sub : y.outgoing.Sublist x.outgoing) :
    y.listOk = true := by
  have single : ∀ m, (m.isAck || m.isOwed) = true → y.outgoing.Sublist [m] → y.listOk = true := by
    intro m hm sub
    rcases List.sublist_singleton.mp sub with e | e <;> simp [Reader.listOk, e, hm]
  rcases Reader.listOk_cases h with e | ⟨m, e, hm⟩ | ⟨a, m, e, ha, hm⟩ <;> rw [e] at sub
  · simp [Reader.listOk, List.sublist_nil.mp sub]
  · exact single m hm sub
  · rcases List.sublist_cons_iff.mp sub with sub | ⟨r, e, sub⟩
    · exact single m (by simp [hm]) sub
    · rcases List.sublist_singleton.mp sub with e' | e' <;> simp [Reader.listOk, e, e', ha, hm]

theorem acts_restReader (s : State) (r : Nat) : Acts c s (s.restReader r) := by
  unfold State.restReader
  split
  · refine .one (.reader s r _ fun h => ⟨?_, h.2⟩)
    exact Reader.oweReverse_listOk _ h.1
  · exact .one (.reader s r _ id)

theorem acts_queueReversal (s : State) (v : Reversal) : Acts c s (s.queueReversal v).1 := by
  unfold State.queueReversal
  split
  · rename_i room
    have h1 : Acts c s (s.updPbc fun p => { p with reversals := p.reversals ++ [v] }) := by
      refine .one (.pbc s _ ⟨rfl, fun _ => ?_, id⟩)
      simp only [List.length_append, List.length_singleton]
      exact room
    dsimp only
    split
    · exact h1.trans (acts_restReader _ _)
    · exact h1
  · exact .refl s

theorem acts_dropReversal (s : State) (ref : Nat) : Acts c s (s.dropReversal ref) :=
  acts_updPbc s _ fun _ => ⟨rfl, List.filter_sublist, rfl⟩

theorem acts_dropParcelRef (s : State) (n ref : Nat) : Acts c s (s.dropParcelRef n ref) :=
  acts_updParcel s n _ fun p => by split <;> exact ⟨rfl, rfl⟩

/-- An update of a reader that only takes messages off its list. -/
theorem acts_updReader (s : State) (r : Nat) (f : Reader → Reader)
    (h : ∀ x : Reader, (f x).outgoing.Sublist x.outgoing ∧ ((f x).unanswered = x.unanswered ∨ (f x).unanswered = 0)) :
    Acts c s (s.updReader r f) := by
  obtain ⟨sub, un⟩ := h (s.reader r)
  refine .one (.reader s r f fun ⟨ok, le⟩ => ⟨Reader.listOk_sublist ok sub, ?_⟩)
  omega

theorem acts_dropCharge (s : State) (r : Nat) : Acts c s (s.dropCharge r) :=
  acts_updReader s r _ fun _ => ⟨List.filter_sublist, .inl rfl⟩

/-- A message falls due to a reader whose other fields change. -/
theorem acts_owe (s : State) (r : Nat) (f : Reader → Reader) (m : BusMsg) (hm : m.isOwed = true)
    (h : ∀ x : Reader, (f x).outgoing = x.outgoing ∧ (f x).unanswered = x.unanswered) :
    Acts c s (s.updReader r fun x => (f x).owe m) := by
  refine .one (.reader s r _ fun ⟨ok, le⟩ => ⟨Reader.owe_listOk ?_ hm, ?_⟩)
  · simpa [Reader.listOk, (h _).1] using ok
  · simpa [Reader.owe, (h _).2] using le

theorem nextNumber_le (taken : List Nat) (fuel last : Nat) : nextNumber taken fuel last ≤ 65535 := by
  induction fuel generalizing last with
  | zero => unfold nextNumber; omega
  | succ k ih =>
    unfold nextNumber
    dsimp only
    split
    · exact ih _
    · omega

theorem acts_startCharge (s : State) (r amount job n : Nat) : Acts c s (s.startCharge r amount job n) := by
  unfold State.startCharge
  dsimp only
  split
  · exact .refl s
  · refine Acts.trans ?_ (.one (.op _ job _ fun _ => ⟨rfl, rfl, rfl, rfl, rfl, id⟩))
    refine Acts.trans ?_ (acts_updParcel _ n _ fun _ => ⟨rfl, rfl⟩)
    refine Acts.trans ?_ (acts_owe _ r (fun x => { x with charge := _, state := _ }) _ rfl fun _ => ⟨rfl, rfl⟩)
    exact .one (.pbc s _ ⟨rfl, id, fun _ => nextNumber_le _ _ _⟩)

theorem acts_abandonCharge (s : State) (r : Nat) : Acts c s (s.abandonCharge r) := by
  unfold State.abandonCharge
  split
  · exact .refl s
  · split
    · exact ((acts_dropCharge s r).trans (acts_dropParcelRef _ _ _)).trans (acts_restReader _ r)
    · exact acts_owe _ r _ _ rfl fun _ => ⟨rfl, rfl⟩

theorem acts_abandonOf (s : State) (job : Nat) : Acts c s (s.abandonOf job) := by
  unfold State.abandonOf
  split
  · exact acts_abandonCharge s _
  · exact .refl s

/-! ### Tags, runs and top-ups -/

theorem acts_updSide (s : State) (k : Courier) (f : SweepSide → SweepSide)
    (h : ∀ x : SweepSide, (f x).tags.Sublist x.tags ∧
      ∀ r, (f x).run = some r → ∃ q, x.run = some q ∧ r.pending.Sublist q.pending) : Acts c s (s.updSide k f) := by
  obtain ⟨sub, run⟩ := h (s.side k)
  refine .one (.side s k f fun ⟨tags, pend⟩ => ⟨sub.length_le.trans tags, fun r hr => ?_⟩)
  obtain ⟨q, hq, sub⟩ := run r hr
  exact sub.length_le.trans (pend q hq)

theorem acts_updRun (s : State) (k : Courier) (f : Run → Run) (h : ∀ r, (f r).pending.Sublist r.pending) :
    Acts c s (s.updRun k f) := by
  refine acts_updSide s k _ fun x => ⟨.refl _, fun r hr => ?_⟩
  obtain ⟨q, hq, rfl⟩ := Option.map_eq_some_iff.mp hr
  exact ⟨q, hq, h q⟩

theorem acts_endRun (s : State) (k : Courier) : Acts c s (s.endRun k) := by
  unfold State.endRun
  split
  · exact .refl s
  · split
    · exact (acts_updSide s k (fun x => { x with run := none }) fun _ => ⟨.refl _, fun _ h => nomatch h⟩).trans (acts_post _ _)
    · exact .refl s

theorem acts_untag (s : State) (n : Nat) : Acts c s (s.updComp n fun x => { x with tagOwner := none }) :=
  acts_updComp s n _ fun _ => ⟨rfl, rfl, rfl, rfl⟩

theorem acts_clearTag (s : State) (n : Nat) : Acts c s (s.clearTag n) := by
  unfold State.clearTag
  split
  · exact .refl s
  · rename_i k _
    have h2 : Acts c s _ := (acts_untag s n).trans
      (acts_updSide _ k (fun x => { x with tags := withoutComp x.tags n }) fun _ =>
        ⟨List.filter_sublist, fun r hr => ⟨r, hr, .refl _⟩⟩)
    dsimp only
    split
    · exact h2
    · split
      · exact (h2.trans (acts_updRun _ k _ fun _ => List.filter_sublist)).trans (acts_endRun _ k)
      · exact h2

theorem State.numLinks_le (s : State) : s.numLinks ≤ 4 := by
  unfold State.numLinks
  cases s.scu.straps.links <;> decide

theorem State.linkFitted_range {s : State} {l : Nat} (h : s.linkFitted l = true) : 1 ≤ l ∧ l ≤ 4 := by
  have := s.numLinks_le
  simp only [State.linkFitted, decide_eq_true_eq] at h
  omega

/-- An address that resolves lies on a fitted link (R32, step 4). -/
theorem State.resolution_ok_fitted {s : State} {n u : Nat} {a : Addr} (h : s.resolution n = .ok a u) :
    s.linkFitted a.link = true := by
  have reached : ∀ b, s.reach b = .ok a u → s.linkFitted a.link = true := by
    intro b hb
    unfold State.reach at hb
    split at hb <;> [cases hb; split at hb <;> [cases hb; split at hb <;> [cases hb; skip]]]
    rename_i fitted _ _
    cases hb
    simpa using fitted
  unfold State.resolution at h
  split at h
  · rename_i r hr
    subst h
    unfold State.located at hr
    split at hr
    · cases hr
    · split at hr
      · cases hr
      · split at hr
        · cases hr
        · split at hr
          · cases hr
          · split at hr <;> cases hr
  · exact reached _ h

theorem State.resolution_ok_link {s : State} {n u : Nat} {a : Addr} (h : s.resolution n = .ok a u) :
    1 ≤ a.link ∧ a.link ≤ 4 :=
  State.linkFitted_range (State.resolution_ok_fitted h)

theorem State.hasOp_of_eligible {s : State} {n : Nat} {f : TagFilter} {x : Nat} (h : s.eligible n f x = true) :
    s.hasOp n = false := by
  unfold State.eligible at h
  simpa using (Bool.and_eq_true_iff.mp h).2

/-- A run that leaves the entries `es` pending. -/
theorem acts_setPending (s : State) (k : Courier) (f : Run → Run) (es : List TagEntry) (hf : ∀ r, (f r).pending = es)
    (h : ∀ r, (s.side k).run = some r → es.length ≤ r.pending.length) : Acts c s (s.updRun k f) := by
  refine .one (.side s k _ fun ⟨tags, pend⟩ => ⟨tags, fun r hr => ?_⟩)
  obtain ⟨q, hq, rfl⟩ := Option.map_eq_some_iff.mp hr
  rw [hf]
  exact (h q hq).trans (pend q hq)

theorem acts_dropPending (s : State) (k : Courier) (n : Nat) (es : List TagEntry)
    (h : ∀ r, (s.side k).run = some r → es.length ≤ r.pending.length) : Acts c s (s.dropPending k n es) := by
  refine (acts_untag s n).trans (acts_setPending _ k _ es (fun _ => rfl) ?_)
  cases k <;> exact h

theorem State.side_createOp {s t : State} {pu : Purpose} {st n u job : Nat} {a : Addr} {g : Stage}
    (h : s.createOp pu st n a u g = some (t, job)) : t.swu = s.swu := by
  unfold State.createOp at h
  split at h
  · cases g <;> simp only [Option.some.injEq, Prod.mk.injEq] at h <;> obtain ⟨rfl, -⟩ := h <;> rfl
  · cases h

theorem State.swu_afterResolve (s : State) (n : Nat) : (s.afterResolve n).swu = s.swu := by
  unfold State.afterResolve
  split
  · unfold State.mapFaultEffect State.reportFault
    split <;> rfl
  · rfl

theorem State.side_eq_of_swu {s t : State} (h : t.swu = s.swu) (k : Courier) : t.side k = s.side k := by
  cases k <;> simp [State.side, h]

theorem acts_topUpOver (k : Courier) (es : List TagEntry) : ∀ (s : State) (t : TopUp),
    (∀ r, (s.side k).run = some r → es.length ≤ r.pending.length) → Acts c s (topUpOver k es s t).1 := by
  induction es with
  | nil => exact fun s _ _ => .refl s
  | cons e es ih =>
    intro s t fits
    have tail : ∀ r, (s.side k).run = some r → es.length ≤ r.pending.length := fun r hr =>
      (Nat.le_succ _).trans (fits r hr)
    have pend : ∀ (u : State) (f : Run → Run), (∀ r, (f r).pending = es) →
        ∀ r, ((u.updRun k f).side k).run = some r → es.length ≤ r.pending.length := by
      intro u f hf r hr
      rw [State.updRun, State.side_updSide_self] at hr
      obtain ⟨q, -, rfl⟩ := Option.map_eq_some_iff.mp hr
      rw [hf]
    have drop : ∀ u : State, u.swu = s.swu →
        ∀ t, Acts c u (topUpOver k es (u.dropPending k e.comp es) t).1 := by
      intro u hu t
      refine (acts_dropPending u k _ es ?_).trans (ih _ _ (pend _ _ fun _ => rfl))
      rw [State.side_eq_of_swu hu]
      exact tail
    unfold topUpOver
    split
    · rename_i may
      have alone := State.hasOp_of_eligible (Bool.and_eq_true_iff.mp may).1
      split
      · rename_i a u found
        split
        · rename_i v job made
          refine Acts.trans (.one (.create s v _ _ _ _ _ _ _ made (State.resolution_ok_link found) alone (.inl rfl))) ?_
          refine Acts.trans (acts_setPending v k _ es (fun _ => rfl) ?_) (ih _ _ (pend _ _ fun _ => rfl))
          rw [State.side_eq_of_swu (State.side_createOp made)]
          exact tail
        · exact .refl s
      · exact (acts_afterResolve s _).trans (drop _ (s.swu_afterResolve _) _)
    · exact drop s rfl _

theorem acts_topUp (s : State) (k : Courier) : Acts c s (s.topUp k).1 := by
  unfold State.topUp
  split
  · exact .refl s
  · rename_i r hr
    split
    · refine acts_topUpOver k _ s _ fun q hq => ?_
      rw [hr] at hq
      cases hq
      exact le_rfl
    · exact .refl s

theorem acts_topUpEnd (s : State) (k : Courier) : Acts c s (s.topUpEnd k) := (acts_topUp s k).trans (acts_endRun _ k)

/-! ### The end of an operation -/

theorem acts_endDeposit (s : State) (n : Nat) (out : CycleOutcome) : Acts c s (s.endDeposit n out).1 := by
  unfold State.endDeposit
  split
  · exact acts_confirmParcel s _ _
  · exact (acts_confirmParcel s _ _).trans (acts_markCause _ _ _)
  · exact .one (.undo s n)

theorem acts_endServiceOpen (s : State) (n : Nat) (out : CycleOutcome) (occ : Bool) :
    Acts c s (s.endServiceOpen n out occ).1 := by
  unfold State.endServiceOpen
  split
  · dsimp only
    refine .one (.comp s n _ ⟨rfl, fun placed at_ => ?_, fun _ => ?_⟩ rfl)
    · dsimp only
      split
      · rw [placed at_]; rfl
      · exact placed at_
    · unfold Compartment.bond
      dsimp only
      split
      · cases (s.comp n).parcel <;> rfl
      · rfl
  · exact acts_markCause s _ _
  · exact .refl s

theorem acts_endEffect (s : State) (o : Op) (out : CycleOutcome) (occ : Bool) : Acts c s (s.endEffect o out occ).1 := by
  unfold State.endEffect
  split
  · exact acts_endDeposit s _ _
  · exact acts_endDeposit s _ _
  · unfold State.endCollect
    dsimp only
    split
    · exact .one (.retire s _)
    · exact acts_updParcel s _ _ fun _ => ⟨rfl, rfl⟩
    · exact acts_markCause s _ _
    · exact .refl s
  · unfold State.endSweep
    dsimp only
    split
    · exact .one (.retire s _)
    · exact (acts_untag s _).trans (acts_markCause _ _ _)
    · exact acts_untag s _
  · exact acts_endServiceOpen s _ _ _
  · unfold State.endServiceRemove
    dsimp only
    split
    · exact .one (.retire s _)
    · exact acts_markCause s _ _
    · exact .refl s

theorem State.hce_updComp (s : State) (n : Nat) (f : Compartment → Compartment) : (s.updComp n f).hce = s.hce := rfl

theorem State.hce_releasePage (s : State) (p : Parcel) : (s.releasePage p).hce = s.hce := by
  unfold State.releasePage
  split <;> rfl

theorem State.hce_retire (s : State) (n : Nat) : (s.retire n).hce = s.hce := by
  unfold State.retire
  split
  · rfl
  · dsimp only
    rw [State.hce_updComp, State.hce_releasePage]
    split <;> rfl

theorem State.hce_undo (s : State) (n : Nat) : (s.undo n).1.hce = s.hce := by
  unfold State.undo
  split
  · rfl
  · dsimp only
    split
    · split <;> (dsimp only; rw [State.hce_updComp, State.hce_releasePage])
    · dsimp only
      rw [State.hce_updComp, State.hce_releasePage]

theorem State.hce_confirmParcel (s : State) (n : Nat) (b : Bool) : (s.confirmParcel n b).hce = s.hce := by
  unfold State.confirmParcel
  split <;> rfl

theorem State.hce_endEffect (s : State) (o : Op) (out : CycleOutcome) (occ : Bool) :
    (s.endEffect o out occ).1.hce = s.hce := by
  have deposit : (s.endDeposit o.comp out).1.hce = s.hce := by
    unfold State.endDeposit
    split
    · exact State.hce_confirmParcel _ _ _
    · exact State.hce_confirmParcel _ _ _
    · exact State.hce_undo _ _
  unfold State.endEffect
  split
  · exact deposit
  · exact deposit
  · unfold State.endCollect
    dsimp only
    split
    · exact State.hce_retire _ _
    · rfl
    · rfl
    · rfl
  · unfold State.endSweep
    dsimp only
    split
    · exact State.hce_retire _ _
    · rfl
    · rfl
  · unfold State.endServiceOpen
    split <;> rfl
  · unfold State.endServiceRemove
    dsimp only
    split
    · exact State.hce_retire _ _
    · rfl
    · rfl

theorem State.hce_restReader (s : State) (r : Nat) : (s.restReader r).hce = s.hce := by
  unfold State.restReader
  split <;> rfl

theorem State.hce_queueReversal (s : State) (v : Reversal) : (s.queueReversal v).1.hce = s.hce := by
  unfold State.queueReversal
  split
  · dsimp only
    split
    · exact State.hce_restReader _ _
    · rfl
  · rfl

theorem State.hce_reverseDrop (s : State) (o : Op) (out : CycleOutcome) (r : Nat) :
    (s.reverseDrop o out r).1.hce = s.hce := by
  unfold State.reverseDrop
  split
  · exact State.hce_queueReversal _ _
  · rfl

theorem acts_reverseDrop (s : State) (o : Op) (out : CycleOutcome) (r : Nat) :
    Acts c s (s.reverseDrop o out r).1 := by
  unfold State.reverseDrop
  split
  · exact acts_queueReversal s _
  · exact .refl s

theorem acts_handSweep (s : State) (o : Op) (out : CycleOutcome) (note : EndNote) :
    Acts c s (s.handSweep o out note) := by
  have counted : ∀ k u, Acts c s (s.updRun k fun r => r.count out u) := fun k u =>
    acts_updRun s k _ fun r => by cases out <;> exact .refl _
  unfold State.handSweep
  split
  · exact .refl s
  · dsimp only
    refine Acts.trans ?_ (acts_topUpEnd _ _)
    refine Acts.trans ?_ (acts_topUpEnd _ _)
    split
    · exact (counted _ _).trans (acts_post _ _)
    · exact counted _ _

/-- The table holds an operation of this job on this link. -/
def State.lists (s : State) (o : Op) : Prop := ∃ y ∈ s.hce.ops, y.job = o.job ∧ y.link = o.link

theorem State.lists_of_opByJob {s : State} {j : Nat} {o : Op} (h : s.opByJob j = some o) : s.lists o :=
  ⟨o, List.mem_of_find?_eq_some h, rfl, rfl⟩

theorem State.lists_of_opOn {s : State} {n : Nat} {o : Op} (h : s.opOn n = some o) : s.lists o :=
  ⟨o, List.mem_of_find?_eq_some h, rfl, rfl⟩

/-- What the end of an operation does after its entry is freed: the events, the Sweep Unit, and a charge to abandon
(R85). -/
theorem acts_endOp (s : State) (o : Op) (out : CycleOutcome) (occ : Bool) (there : s.lists o) :
    Acts c s (s.endOp o out occ) := by
  unfold State.endOp
  have h1 := acts_endEffect (c := c) s o out occ
  have e1 := s.hce_endEffect o out occ
  generalize s.endEffect o out occ = q at *
  obtain ⟨s1, note⟩ := q
  dsimp only at *
  have h2 := h1.trans (acts_reverseDrop s1 o out (s.dropReader o))
  have e2 := (s1.hce_reverseDrop o out (s.dropReader o)).trans e1
  generalize s1.reverseDrop o out (s.dropReader o) = q at *
  obtain ⟨s2, refused⟩ := q
  dsimp only at *
  have h3 := h2.trans (acts_updComp s2 o.comp (fun x => { x with purpose := none }) fun _ => ⟨rfl, rfl, rfl, rfl⟩)
  have there3 : ∃ y ∈ (s2.updComp o.comp fun x => { x with purpose := none }).hce.ops, y.job = o.job ∧ y.link = o.link := by
    rw [State.hce_updComp, e2]
    exact there
  have h4 := h3.then (.remove _ o there3)
  generalize ((s2.updComp o.comp fun x => { x with purpose := none }).updLink o.link fun x => x.leave o.job).removeOp
    o.job = s4 at *
  have h5 := h4.trans (acts_post s4 (s4.cycleDone o out note refused))
  generalize s4.post (s4.cycleDone o out note refused) = s5 at *
  have h6 : Acts c s (match note.lapsed with
      | some v => s5.post (s5.expiredEvent o.comp v)
      | none => s5) := by
    split
    · exact h5.trans (acts_post _ _)
    · exact h5
  have h7 : ∀ s6, Acts c s s6 → Acts c s (if o.purpose = .SWEEP then s6.handSweep o out note else s6) := by
    intro s6 h
    split
    · exact h.trans (acts_handSweep _ _ _ _)
    · exact h
  split
  · exact (h7 _ h6).trans (acts_abandonOf _ _)
  · exact h7 _ h6

theorem acts_endJob (s : State) (j : Nat) (out : CycleOutcome) : Acts c s (s.endJob j out) := by
  unfold State.endJob
  split
  · rename_i o ho
    exact acts_endOp s o _ _ (State.lists_of_opByJob ho)
  · exact .refl s

theorem acts_endJobs (s : State) (js : List Nat) (out : CycleOutcome) : Acts c s (s.endJobs js out) :=
  Acts.foldl (fun s j => acts_endJob s j out) js s

theorem acts_addCause (s : State) (n : Nat) (k : Cause) : Acts c s (s.addCause n k) := by
  unfold State.addCause
  split
  · exact .refl s
  · dsimp only
    split
    · rename_i o ho
      split
      · exact (acts_markCause s n k).trans (acts_endOp _ _ _ _ (State.lists_of_opOn (o := o) ho))
      · exact acts_markCause s n k
    · exact acts_markCause s n k

theorem acts_dropStrike (s : State) (l : Nat) : Acts c s (s.dropStrike l) := .one (.dropStrike s l)

theorem acts_strikeLosesOp (s : State) (l : Nat) : Acts c s (s.strikeLosesOp l) := by
  unfold State.strikeLosesOp
  split
  · refine .one (.link s l _ ⟨?_, .refl _, .refl _, fun _ => .refl _, id⟩)
    unfold Link.strikeUnits
    cases (s.link l).strike <;> rfl
  · exact acts_dropStrike s l

theorem acts_holdOp (s : State) (n : Nat) : Acts c s (s.holdOp n).1 := by
  unfold State.holdOp
  split
  · exact .refl s
  · rename_i o ho
    have there := State.lists_of_opOn ho
    split
    · exact .refl s
    · split
      · exact acts_endOp s _ _ _ there
      · exact acts_endOp s _ _ _ there
      · split
        · exact .refl s
        · exact (acts_endOp s o .HELD false there).trans (acts_strikeLosesOp _ _)
      all_goals exact .refl s

theorem acts_holdComp (s : State) (n : Nat) : Acts c s (s.holdComp n).1 := (acts_holdOp s n).trans (acts_clearTag _ n)

/-! ### The arbitration pass -/

theorem State.lists_of_readyHead {s : State} {l : Nat} {o : Op} (h : s.readyHead l = some o) : s.lists o := by
  unfold State.readyHead at h
  dsimp only at h
  split at h
  · cases h
  · split at h
    · exact State.lists_of_opByJob h
    · split at h
      · split at h
        · exact State.lists_of_opByJob h
        · cases h
      · cases h

theorem acts_passLoop (fuel : Nat) : ∀ (run : Nat) (s : State), Acts c s (passLoop fuel run s) := by
  induction fuel with
  | zero => exact fun _ s => .refl s
  | succ k ih =>
    intro run s
    unfold passLoop
    split
    · exact .refl s
    · split
      · exact (Acts.one (.advance s)).trans (ih _ _)
      · rename_i o head
        split
        · exact ((Acts.one (.grant s o head)).then (.advance _)).trans (ih _ _)
        · split
          · exact (acts_endOp s _ _ _ (State.lists_of_readyHead head)).trans (ih _ _)
          · exact .refl s

theorem acts_pass (s : State) : Acts c s s.pass := acts_passLoop _ _ s

end Sys2Proof.Machine
end

