-- ==== Sys2Proof/Proofs/ActsRequests.lean ====
section
/-! The requests of the kiosk link as chains of acts. -/

namespace Sys2Proof.Machine

open Sys2Proof

variable {c : Instr}

/-! ### The taking of a request -/

/-- An update of the Kiosk Link Interface that leaves its events and flags. -/
theorem acts_updKli (s : State) (f : Kli → Kli) (h : ∀ k : Kli, (f k).rx.length ≤ max k.rx.length 3 ∧
    (f k).queue = k.queue ∧ (f k).pendingFl = k.pendingFl ∧ (f k).overflow = k.overflow ∧ (f k).mask = k.mask ∧
    (f k).attention = k.attention) : Acts c s (s.updKli f) := by
  obtain ⟨hr, hq, hp, ho, hm, ha⟩ := h s.kli
  refine .one (.kli s f (fun ⟨room, rx, flags, att⟩ => ⟨hq ▸ room, ?_, ?_, ?_⟩) hm)
  · omega
  · rw [hp, hq]
    exact flags
  · rw [ha, ho, hm, hp]
    exact att

theorem acts_reply (s : State) (h : ReqHead) (k : Byte) (st : Status) (b : ReplyBody) : Acts c s (s.reply h k st b) := by
  unfold State.reply
  exact acts_updKli s _ fun _ => ⟨le_max_left _ _, rfl, rfl, rfl, rfl, rfl⟩

theorem acts_beginRequest (s : State) (h : ReqHead) : Acts c s (s.beginRequest h) :=
  acts_updKli s _ fun k => ⟨by simp only [List.length_tail]; omega, rfl, rfl, rfl, rfl, rfl⟩

theorem acts_clearTagList (s : State) (k : Courier) : Acts c s (s.clearTagList k) :=
  (Acts.foldl (fun s (e : TagEntry) => acts_untag s e.comp) _ s).trans
    (acts_updSide _ k (fun x => { x with tags := [] }) fun _ => ⟨List.nil_sublist _, fun r hr => ⟨r, hr, .refl _⟩⟩)

theorem acts_takeRequest {α : Type} (s : State) (h : ReqHead) (kind : Nat) (p : List Byte) (d : Codec α)
    (owner : α → State → Answer) (ha : ∀ x s, Acts c s (owner x s).state) :
    Acts c s (s.takeRequest h kind p d owner) := by
  unfold State.takeRequest
  split
  · unfold State.answerRequest
    dsimp only
    refine (acts_beginRequest s h).trans ?_
    split
    · exact acts_reply _ _ _ _ _
    · split
      · exact acts_reply _ _ _ _ _
      · refine Acts.trans ?_ ((ha _ _).trans (acts_reply _ _ _ _ _))
        unfold State.clearForKind
        split
        · split
          · exact acts_clearTagList _ _
          · exact .refl _
        · exact .refl _
  · exact .refl s

/-! ### Searches -/

theorem acts_searchIn (st : CompState) (k : SizeClass) (reserve : Bool) (ns : List Nat) :
    ∀ s, Acts c s (searchIn st k reserve ns s).1 := by
  induction ns with
  | nil => exact fun s => .refl s
  | cons n ns ih =>
    intro s
    unfold searchIn
    split
    · exact .refl s
    · split
      · split
        · exact .refl s
        · exact (acts_afterResolve s n).trans (ih _)
      · exact ih s

theorem acts_searchSteps (xs : List Step) : ∀ s, Acts c s (searchSteps xs s).1 := by
  induction xs with
  | nil => exact fun s => .refl s
  | cons x xs ih =>
    intro s
    have h := acts_searchIn (c := c) x.st x.cls x.reserve x.comps s
    unfold searchSteps
    split <;> rename_i e <;> rw [e] at h
    · exact h
    · exact h.trans (ih _)

/-- What a search returns is a candidate of the step without an operation, that resolves, in the state returned (R92). -/
theorem searchIn_found {st : CompState} {k : SizeClass} {reserve : Bool} {ns : List Nat} {x : Chosen} {s t : State}
    (h : searchIn st k reserve ns s = (t, some x)) : x.comp ∈ ns ∧ t.candidate x.comp st k = true ∧
      t.hasOp x.comp = false ∧ t.resolution x.comp = .ok x.addr x.units := by
  induction ns generalizing s with
  | nil => cases h
  | cons n ns ih =>
    have later : ∀ {u}, searchIn st k reserve ns u = (t, some x) → x.comp ∈ n :: ns ∧ _ := fun h =>
      ⟨List.mem_cons_of_mem _ (ih h).1, (ih h).2⟩
    unfold searchIn at h
    split at h
    · cases h
    · split at h
      · rename_i may
        split at h
        · rename_i a u ok
          cases h
          obtain ⟨h1, h2⟩ := Bool.and_eq_true_iff.mp may
          exact ⟨List.mem_cons_self, h1, by simpa using h2, ok⟩
        · exact later h
      · exact later h

theorem searchSteps_found {xs : List Step} {x : Chosen} {s t : State} (h : searchSteps xs s = (t, some x)) :
    ∃ p ∈ xs, x.comp ∈ p.comps ∧ t.candidate x.comp p.st p.cls = true ∧ t.hasOp x.comp = false ∧
      t.resolution x.comp = .ok x.addr x.units := by
  induction xs generalizing s with
  | nil => cases h
  | cons p xs ih =>
    unfold searchSteps at h
    split at h
    · rename_i found
      cases h
      exact ⟨p, List.mem_cons_self, searchIn_found found⟩
    · obtain ⟨q, hq, r⟩ := ih h
      exact ⟨q, List.mem_cons_of_mem _ hq, r⟩

theorem mem_compNos {n : Nat} : n ∈ compNos ↔ isComp n := by
  simp only [compNos, List.mem_range'_1, isComp]
  omega

theorem State.state_of_candidate {s : State} {n : Nat} {st : CompState} {k : SizeClass}
    (h : s.candidate n st k = true) : (s.comp n).state = st := by
  unfold State.candidate at h
  simp only [Bool.and_eq_true, decide_eq_true_eq] at h
  exact h.1.1.1.1

theorem isComp_of_mem_wearOrder {s : State} {k : SizeClass} {n : Nat} (h : n ∈ s.wearOrder k) : isComp n := by
  rw [State.wearOrder, List.mem_insertionSort] at h
  exact mem_compNos.mp (List.mem_of_mem_filter h)

/-- A search of a deposit takes a compartment that is FREE or RESERVED (R99). -/
theorem depositSteps_found {d : DepositReq} {v s t : State} {x : Chosen}
    (h : searchSteps (v.depositSteps d) s = (t, some x)) :
    isComp x.comp ∧ ((t.comp x.comp).state = .FREE ∨ (t.comp x.comp).state = .RESERVED) ∧ t.hasOp x.comp = false ∧
      t.resolution x.comp = .ok x.addr x.units := by
  obtain ⟨p, hp, mem, cand, alone, ok⟩ := searchSteps_found h
  have state := State.state_of_candidate cand
  rw [State.depositSteps, List.mem_append, List.mem_map, List.mem_map] at hp
  rcases hp with ⟨k, -, rfl⟩ | ⟨k, -, rfl⟩
  · dsimp only [State.reservedFor] at mem
    exact ⟨mem_compNos.mp (List.mem_filter.mp mem).1, .inr state, alone, ok⟩
  · exact ⟨isComp_of_mem_wearOrder mem, .inl state, alone, ok⟩

/-- A search of a return drop takes a FREE compartment (R169). -/
theorem dropSteps_found {k : SizeClass} {v s t : State} {x : Chosen}
    (h : searchSteps (v.dropSteps k) s = (t, some x)) :
    isComp x.comp ∧ (t.comp x.comp).state = .FREE ∧ t.hasOp x.comp = false ∧
      t.resolution x.comp = .ok x.addr x.units := by
  obtain ⟨p, hp, mem, cand, alone, ok⟩ := searchSteps_found h
  have state := State.state_of_candidate cand
  rw [State.dropSteps, List.mem_map] at hp
  obtain ⟨k, -, rfl⟩ := hp
  exact ⟨isComp_of_mem_wearOrder mem, state, alone, ok⟩

/-! ### The courier stations -/

/-- A compartment at rest without a parcel record that goes to a state without one. -/
theorem acts_unplace (s : State) (n : Nat) (f : Compartment → Compartment)
    (at_ : (s.comp n).state = .FREE ∨ (s.comp n).state = .RESERVED ∨ (s.comp n).state = .OUT_OF_SERVICE)
    (h : ∀ x : Compartment, (f x).sect = x.sect ∧ (f x).hatchCount = x.hatchCount ∧ (f x).parcel = x.parcel) :
    Acts c s (s.updComp n f) := by
  obtain ⟨hs, hc, hp⟩ := h (s.comp n)
  refine .one (.comp s n f ⟨hc, fun placed _ => ?_, fun _ => ?_⟩ hs)
  · rw [hp]
    exact placed at_
  · rw [Compartment.bond, hp]
    rfl

theorem acts_reserveIn (k : SizeClass) (r : Reservation) (ns : List Nat) :
    ∀ want s, Acts c s (reserveIn k r want ns s).1 := by
  induction ns with
  | nil => intro want s; cases want <;> exact .refl s
  | cons n ns ih =>
    intro want s
    cases want with
    | zero => exact .refl s
    | succ want =>
      unfold reserveIn
      split
      · split
        · rename_i cand
          split
          · refine Acts.trans (t := s.reserveComp n r) ?_ (ih _ _)
            exact acts_unplace s n _ (.inl (State.state_of_candidate cand)) fun _ => ⟨rfl, rfl, rfl⟩
          · exact (acts_afterResolve s n).trans (ih _ _)
        · exact ih _ _
      · exact .refl s

theorem acts_reserve (s : State) (r : ReserveReq) : Acts c s (s.reserve r).state := by
  unfold State.reserve
  split
  · exact .refl s
  · split
    · exact .refl s
    · dsimp only
      split <;> exact acts_reserveIn _ _ _ _ s

theorem State.comp_updComp_ne (s : State) {n m : Nat} (f : Compartment → Compartment) (h : n ≠ m) :
    (s.updComp n f).comp m = s.comp m := by
  rw [State.comp_updComp, if_neg fun e => h e.1]

/-- A fold over compartments that writes each at most once, read at one of them. -/
theorem State.comp_foldl_updComp (f : Compartment → Compartment) (ns : List Nat) :
    ∀ (s : State) (n : Nat), n ∉ ns → (ns.foldl (fun s n => s.updComp n f) s).comp n = s.comp n := by
  induction ns with
  | nil => exact fun _ _ _ => rfl
  | cons m ns ih =>
    intro s n hn
    rw [List.mem_cons, not_or] at hn
    rw [List.foldl_cons, ih _ _ hn.2, State.comp_updComp_ne _ _ (Ne.symm hn.1)]

theorem acts_free (ns : List Nat) : ∀ s : State, ns.Nodup → (∀ n ∈ ns, (s.comp n).state = .RESERVED) →
    Acts c s (ns.foldl (fun s n => s.updComp n fun c => { c with state := .FREE, reservation := none }) s) := by
  induction ns with
  | nil => exact fun s _ _ => .refl s
  | cons n ns ih =>
    intro s nodup res
    obtain ⟨notin, nodup⟩ := List.nodup_cons.mp nodup
    rw [List.foldl_cons]
    refine Acts.trans (acts_unplace s n _ (.inr (.inl (res n List.mem_cons_self))) ?_) (ih _ nodup ?_)
    · exact fun _ => ⟨rfl, rfl, rfl⟩
    intro m hm
    rw [State.comp_updComp_ne _ _ fun (e : n = m) => notin (e ▸ hm)]
    exact res m (List.mem_cons_of_mem _ hm)

theorem nodup_compNos : compNos.Nodup := List.nodup_range'

theorem acts_release (s : State) (ref : Nat) : Acts c s (s.release ref).state := by
  unfold State.release
  split
  · exact .refl s
  · dsimp only
    split
    · exact .refl s
    · refine Acts.trans (acts_free (s.reservedUnder ref) s (nodup_compNos.filter _) fun n hn => ?_)
        (Acts.foldl (fun s n => ?_) (s.priorUnder ref) _)
      swap
      · exact acts_updParcel s n _ fun _ => ⟨rfl, rfl⟩
      have := (List.mem_filter.mp hn).2
      simp only [Bool.and_eq_true, decide_eq_true_eq] at this
      exact this.1

theorem drawFrom_spec (k : Nat) (s : State) : ∃ f : Alloc → Alloc, (drawFrom k s).1 = s.updAlloc f ∧
    (f s.alloc).retired = s.alloc.retired ∧
    ∀ code, (drawFrom k s).2 = some code → s.codeUsed code = false := by
  induction k generalizing s with
  | zero => exact ⟨id, rfl, rfl, fun _ h => nomatch h⟩
  | succ k ih =>
    have used : ∀ x, (s.updAlloc fun a => { a with draws := a.draws + 1 }).codeUsed x = s.codeUsed x := fun _ => rfl
    unfold drawFrom
    dsimp only
    split
    · obtain ⟨f, h1, h2, h3⟩ := ih (s.updAlloc fun a => { a with draws := a.draws + 1 })
      exact ⟨fun a => f { a with draws := a.draws + 1 }, h1, h2, fun x hx => used x ▸ h3 x hx⟩
    · rename_i fresh
      refine ⟨fun a => { a with draws := a.draws + 1 }, rfl, rfl, fun x hx => ?_⟩
      cases hx
      simpa using fresh

/-- A creation touches the operation table and the links alone. -/
theorem State.createOp_frame {s t : State} {pu : Purpose} {st n u job : Nat} {a : Addr} {g : Stage}
    (h : s.createOp pu st n a u g = some (t, job)) : t = { s with hce := t.hce, links := t.links } := by
  unfold State.createOp at h
  split at h
  · cases g <;> simp only [Option.some.injEq, Prod.mk.injEq] at h <;> obtain ⟨rfl, -⟩ := h <;> rfl
  · cases h

theorem acts_depositCreate (s : State) (st : Nat) (d : DepositReq) (b : Bool) (x : Chosen) (inTable : isComp x.comp)
    (free : (s.comp x.comp).state = .FREE ∨ (s.comp x.comp).state = .RESERVED) (alone : s.hasOp x.comp = false)
    (ok : s.resolution x.comp = .ok x.addr x.units) : Acts c s (s.depositCreate st d b x).state := by
  obtain ⟨f, e, kept, fresh⟩ := drawFrom_spec Config.codeDraws s
  have drawn : Acts c s (s.updAlloc f) := .one (.alloc s f (kept ▸ .refl _))
  unfold State.depositCreate State.drawCode
  generalize drawFrom Config.codeDraws s = q at *
  obtain ⟨v, code⟩ := q
  dsimp only at e fresh
  subst e
  cases code with
  | none => exact drawn
  | some code =>
    dsimp only
    have used : (s.updAlloc f).codeUsed code = false := by
      have h := fresh code rfl
      unfold State.codeUsed at h ⊢
      rw [State.updAlloc_alloc, kept]
      exact h
    cases hm : (s.updAlloc f).createOp .DEPOSIT st x.comp x.addr x.units .QUEUED with
    | none => exact drawn
    | some r =>
      obtain ⟨t, job⟩ := r
      have frame := State.createOp_frame hm
      refine Acts.trans (drawn.then (.create _ t _ _ _ _ _ _ _ hm (State.resolution_ok_link ok) alone (.inl rfl))) ?_
      refine Acts.trans (.one (.deposit t d x.comp code inTable ?_ ?_)) (acts_pass _)
      · rw [frame]
        exact free
      · rw [frame]
        exact used

theorem acts_deposit (s : State) (st : Nat) (d : DepositReq) : Acts c s (s.deposit st d).state := by
  unfold State.deposit
  split
  · exact .refl s
  · have h := acts_searchSteps (c := c) (s.depositSteps d) s
    dsimp only
    split <;> rename_i e <;> rw [e] at h
    · exact h
    · obtain ⟨inTable, free, alone, ok⟩ := depositSteps_found e
      exact h.trans (acts_depositCreate _ st d _ _ inTable free alone ok)

theorem acts_tagOver (k : Courier) (r : TagReq) (ns : List Nat) :
    ∀ (a b : Nat) (s : State), Acts c s (tagOver k r ns a b s).state := by
  induction ns with
  | nil => exact fun _ _ s => .refl s
  | cons n ns ih =>
    intro a b s
    unfold tagOver
    split
    · split
      · rename_i room
        refine Acts.trans (t := s.addTag k r n) ?_ (ih _ _ _)
        refine (acts_updComp s n (fun x => { x with tagOwner := some k }) fun _ => ⟨rfl, rfl, rfl, rfl⟩).trans
          (.one (.side _ k _ fun fits => ⟨?_, fits.2⟩))
        rw [List.length_append]
        cases k <;> exact room
      · exact .refl s
    · split <;> exact ih _ _ _

theorem acts_tagRange (s : State) (k : Courier) (r : TagReq) : Acts c s (s.tagRange k r).state := by
  unfold State.tagRange
  split
  · exact .refl s
  · split
    · exact acts_tagOver k r _ _ _ s
    · exact .refl s

theorem acts_untagOne (s : State) (k : Courier) (n : Nat) : Acts c s (s.untag k n).state := by
  unfold State.untag
  split
  · exact .refl s
  · split
    · exact (acts_untag s n).trans (acts_updSide _ k (fun x => { x with tags := withoutComp x.tags n })
        fun _ => ⟨List.filter_sublist, fun r hr => ⟨r, hr, .refl _⟩⟩)
    · exact .refl s

theorem acts_sweepRun (s : State) (k : Courier) : Acts c s (s.sweepRun k).state := by
  unfold State.sweepRun
  split
  · exact .refl s
  · exact (((Acts.one (.startRun s k)).trans (acts_topUp _ k)).trans (acts_endRun _ k)).trans (acts_pass _)

theorem acts_sweepStop (s : State) (k : Courier) : Acts c s (s.sweepStop k).state := by
  unfold State.sweepStop
  split
  · exact .refl s
  · split
    · exact .refl s
    · dsimp only
      refine Acts.trans ?_ (acts_pass _)
      refine Acts.trans ?_ (acts_endRun _ k)
      refine Acts.trans ?_ (acts_endJobs _ _ _)
      exact (Acts.foldl (fun s (e : TagEntry) => acts_untag s e.comp) _ s).trans
        (acts_updRun _ k _ fun _ => List.nil_sublist _)

theorem acts_asCourier (s : State) (st : Nat) (f : Courier → State → Answer) (h : ∀ k, Acts c s (f k s).state) :
    Acts c s (s.asCourier st f).state := by
  unfold State.asCourier
  split
  · exact h _
  · exact .refl s

/-! ### The customer stations -/

/-- Writing a gate whose wrong-code list is within its size. -/
theorem acts_setGate (s : State) (st : Nat) (g : Gate) (h : (s.gate st).wrong.length ≤ 5 → g.wrong.length ≤ 5) :
    Acts c s (s.setGate st g) := by
  refine .one (.gates s _ fun fits q => ?_)
  have : (s.updGates fun v => tput v st g) = s.setGate st g := rfl
  rw [this, State.gate_setGate]
  split
  · exact h (fits st)
  · exact fits q

theorem wrongAppend_length {l : List Nat} (now : Nat) (h : l.length ≤ 5) : (wrongAppend l now).length ≤ 5 := by
  unfold wrongAppend Config.wrongPlaces
  split <;> simp <;> omega

theorem acts_wrongCode (s : State) (st : Nat) : Acts c s (s.wrongCode st).state := by
  unfold State.wrongCode
  dsimp only
  split
  · exact acts_setGate s st _ fun _ => Nat.zero_le _
  · exact acts_setGate s st _ fun h => wrongAppend_length _ h

/-- The fee step is reached on a compartment without an operation (R112), the wrong-code list emptied. -/
theorem State.toFeeStep_spec (s : State) (st code : Nat) :
    match s.toFeeStep st code with
    | .error a => Acts c s a.state
    | .ok (s1, n, _) => s1 = s.setGate st { s.gate st with wrong := [] } ∧ s.hasOp n = false := by
  unfold State.toFeeStep
  cases s.gateCheck st with
  | some x => exact .refl s
  | none =>
    cases s.lookup code with
    | none => exact acts_wrongCode s st
    | some n =>
      dsimp only
      by_cases h1 : s.held n = true
      · rw [if_pos h1]; exact .refl s
      rw [if_neg h1]
      by_cases h2 : (s.comp n).causes.isEmpty = false
      · rw [if_pos h2]; exact .refl s
      rw [if_neg h2]
      by_cases h3 : s.hasOp n = true
      · rw [if_pos h3]; exact .refl s
      rw [if_neg h3]
      cases (s.comp n).parcel with
      | none => exact acts_wrongCode s st
      | some p => exact ⟨rfl, by simpa using h3⟩

theorem State.reachFor_spec (s : State) (n : Nat) :
    match s.reachFor n with
    | .error a => Acts c s a.state
    | .ok (a, u) => s.resolution n = .ok a u := by
  unfold State.reachFor
  cases s.resolution n with
  | ok a u =>
    dsimp only
    by_cases h : s.arb.capacity < u
    · rw [if_pos h]; exact .refl s
    · rw [if_neg h]
  | unreachable => exact acts_afterResolve s n
  | mapFault a => exact acts_afterResolve s n

theorem acts_collectNow (s : State) (st n : Nat) (g : Ground) (alone : s.hasOp n = false) :
    Acts c s (s.collectNow st n g).state := by
  have reach := State.reachFor_spec (c := c) s n
  unfold State.collectNow
  generalize s.reachFor n = q at reach
  match q, reach with
  | .error a, reach => exact reach
  | .ok (a, u), reach =>
    dsimp only at reach ⊢
    cases hm : s.createOp .COLLECT st n a u .QUEUED with
    | none => exact .refl s
    | some r =>
      obtain ⟨t, job⟩ := r
      exact (((Acts.one (.create s t _ _ _ _ _ _ _ hm (State.resolution_ok_link reach) alone (.inl rfl))).trans
        (acts_clearTag _ n)).trans (acts_pass _))

theorem acts_payNow (s : State) (st n : Nat) (q : Quote) (alone : s.hasOp n = false) :
    Acts c s (s.payNow st n q).state := by
  have reach := State.reachFor_spec (c := c) s n
  unfold State.payNow
  split
  · exact .refl s
  · split
    · exact .refl s
    · generalize s.reachFor n = w at reach
      match w, reach with
      | .error a, reach => exact reach
      | .ok (a, u), reach =>
        dsimp only at reach ⊢
        cases hm : s.createOp .COLLECT st n a u .AWAIT_PAYMENT with
        | none => exact .refl s
        | some r =>
          obtain ⟨t, job⟩ := r
          exact ((Acts.one (.create s t _ _ _ _ _ _ _ hm (State.resolution_ok_link reach) alone
            (.inr ⟨rfl, by decide⟩))).trans (acts_startCharge _ _ _ _ _)).trans (acts_clearTag _ n)

/-- COLLECT and PAY are alike up to the fee step. -/
theorem acts_fromFeeStep (s : State) (st code : Nat) (f : State → Nat → Ground → Answer)
    (h : ∀ s n g, s.hasOp n = false → Acts c s (f s n g).state) :
    Acts c s (match s.toFeeStep st code with
      | .error a => a
      | .ok (s1, n, g) => f s1 n g).state := by
  have spec := State.toFeeStep_spec (c := c) s st code
  generalize s.toFeeStep st code = q at spec
  match q, spec with
  | .error a, spec => exact spec
  | .ok (s1, n, g), ⟨e, alone⟩ =>
    subst e
    exact (acts_setGate s st _ fun _ => Nat.zero_le _).trans (h _ n g alone)

theorem acts_collect (s : State) (st code : Nat) : Acts c s (s.collect st code).state := by
  refine acts_fromFeeStep s st code _ fun s n g alone => ?_
  cases g with
  | quoted q =>
    dsimp only
    split
    · exact .refl s
    · exact acts_collectNow s st n _ alone
  | RETRY_WINDOW => exact acts_collectNow s st n _ alone
  | PAID_UP => exact acts_collectNow s st n _ alone

theorem acts_payFee (s : State) (st code : Nat) : Acts c s (s.payFee st code).state := by
  refine acts_fromFeeStep s st code _ fun s n g alone => ?_
  cases g with
  | quoted q =>
    dsimp only
    split
    · exact acts_payNow s st n q alone
    · exact acts_collectNow s st n _ alone
  | RETRY_WINDOW => exact acts_collectNow s st n _ alone
  | PAID_UP => exact acts_collectNow s st n _ alone

theorem acts_dropCreate (s : State) (st : Nat) (d : DropReq) (fee : Nat) (x : Chosen)
    (free : (s.comp x.comp).state = .FREE) (alone : s.hasOp x.comp = false)
    (ok : s.resolution x.comp = .ok x.addr x.units) : Acts c s (s.dropCreate st d fee x).state := by
  unfold State.dropCreate
  dsimp only
  cases hm : s.createOp .RETURN_DROP st x.comp x.addr x.units (if fee = 0 then .QUEUED else .AWAIT_PAYMENT) with
  | none => exact .refl s
  | some r =>
    obtain ⟨t, job⟩ := r
    have made : Acts c s t := .one (.create s t _ _ _ _ _ _ _ hm (State.resolution_ok_link ok) alone (by
      split
      · exact .inl rfl
      · exact .inr ⟨rfl, by decide⟩))
    have taken : Acts c t (t.updComp x.comp fun y => { y with state := .DEPOSITING, parcel := some (d.parcel s.now) }) := by
      refine .one (.comp t _ _ ⟨rfl, fun _ at_ => ?_, fun placed => ?_⟩ rfl)
      · simp at at_
      · have rest : (t.comp x.comp).parcel = none := placed (.inl (by rw [State.createOp_frame hm]; exact free))
        simp [Compartment.bond, rest, DropReq.parcel]
    dsimp only
    split
    · exact (made.trans taken).trans (acts_pass _)
    · exact (made.trans taken).trans (acts_startCharge _ _ _ _ _)

theorem acts_returnDrop (s : State) (st : Nat) (d : DropReq) : Acts c s (s.returnDrop st d).state := by
  have feeError : ∀ a, s.dropFee st d = .error a → a.state = s := by
    intro a h
    unfold State.dropFee at h
    split at h
    · cases h
    · split at h
      · cases h; rfl
      · cases h
      · split at h <;> cases h
        rfl
  unfold State.returnDrop
  split
  · exact .refl s
  · split
    · rename_i a h
      rw [feeError a h]
    · have h := acts_searchSteps (c := c) (s.dropSteps d.declared) s
      split <;> rename_i e <;> rw [e] at h
      · exact h
      · obtain ⟨-, free, alone, ok⟩ := dropSteps_found e
        exact h.trans (acts_dropCreate _ st d _ _ free alone ok)

/-! ### The service station -/

theorem acts_onComp (s : State) (n : Nat) (f : State → Answer) (h : Acts c s (f s).state) :
    Acts c s (s.onComp n f).state := by
  unfold State.onComp
  split
  · exact .refl s
  · split
    · exact h
    · exact .refl s

theorem acts_onSect (s : State) (n : Nat) (f : Fin 8 → Answer) (h : ∀ i, Acts c s (f i).state) :
    Acts c s (s.onSect n f).state := by
  unfold State.onSect
  split
  · exact .refl s
  · split
    · exact h _
    · exact .refl s

theorem acts_serviceCreate (s : State) (pu : Purpose) (n : Nat) (alone : s.hasOp n = false) :
    Acts c s (s.serviceCreate pu n).state := by
  unfold State.serviceCreate
  split
  · rename_i a u ok
    split
    · exact .refl s
    · rename_i t job made
      exact ((Acts.one (.create s t _ _ _ _ _ _ _ made (State.resolution_ok_link ok) alone (.inl rfl))).trans
        (acts_clearTag _ n)).trans (acts_pass _)
  · exact acts_afterResolve s n

theorem acts_serviceOpen (s : State) (n : Nat) : Acts c s (s.serviceOpen n).state := by
  refine acts_onComp s n _ ?_
  split
  · exact .refl s
  · rename_i h
    simp only [Bool.or_eq_true, not_or, Bool.not_eq_true] at h
    exact acts_serviceCreate s _ n h.1

theorem acts_serviceRemove (s : State) (n : Nat) : Acts c s (s.serviceRemove n).state := by
  refine acts_onComp s n _ ?_
  split
  · exact .refl s
  · rename_i h
    simp only [Bool.or_eq_true, not_or, Bool.not_eq_true] at h
    split
    · exact .refl s
    · exact acts_serviceCreate s _ n h.1

theorem acts_clearFault (s : State) (n : Nat) : Acts c s (s.clearFault n).state := by
  refine acts_onComp s n _ ?_
  split
  · exact .refl s
  · split
    · split
      · exact acts_updComp s n (fun x => { x with causes := {} }) fun _ => ⟨rfl, rfl, rfl, rfl⟩
      · exact .refl s
    · exact acts_afterResolve s n

theorem acts_setOwnHold (s : State) (n : Nat) (b : Bool) : Acts c s (s.setOwnHold n b) :=
  acts_updComp s n (fun x => { x with ownHold := b }) fun _ => ⟨rfl, rfl, rfl, rfl⟩

theorem acts_holdOver (ns : List Nat) : ∀ (s : State) (k : Nat), Acts c s (holdOver ns s k).1 := by
  induction ns with
  | nil => exact fun s _ => .refl s
  | cons n ns ih => exact fun s _ => (acts_holdComp s n).trans (ih _ _)

theorem acts_hold (s : State) (t : Nat ⊕ Nat) (by_ : ∃ h p, c = .hold h p) : Acts c s (s.hold t).state := by
  obtain ⟨h, p, e⟩ := by_
  cases t with
  | inl n =>
    refine acts_onComp s n _ ?_
    exact ((acts_setOwnHold s n true).trans (acts_holdComp _ n)).trans (acts_pass _)
  | inr k =>
    refine acts_onSect s k _ fun i => ?_
    exact ((Acts.one (.holdFlag s i true ⟨h, p, .inl e⟩)).trans (acts_holdOver _ _ _)).trans (acts_pass _)

theorem acts_holdRelease (s : State) (t : Nat ⊕ Nat) (by_ : ∃ h p, c = .holdRelease h p) :
    Acts c s (s.holdRelease t).state := by
  obtain ⟨h, p, e⟩ := by_
  cases t with
  | inl n => exact acts_onComp s n _ (acts_setOwnHold s n false)
  | inr k => exact acts_onSect s k _ fun i => .one (.holdFlag s i false ⟨h, p, .inr e⟩)

theorem acts_setState (s : State) (n : Nat) (x : CompState)
    (at_ : (s.comp n).state = .FREE ∨ (s.comp n).state = .RESERVED ∨ (s.comp n).state = .OUT_OF_SERVICE) :
    Acts c s (s.setState n x) :=
  acts_unplace s n (fun y => { y with state := x }) at_ fun _ => ⟨rfl, rfl, rfl⟩

theorem acts_setOut (s : State) (n : Nat) : Acts c s (s.setOut n).state := by
  refine acts_onComp s n _ ?_
  split
  · exact .refl s
  · rename_i free
    split
    · exact .refl s
    · exact acts_setState s n _ (.inl (by simpa using free))

theorem acts_reinstate (s : State) (n : Nat) : Acts c s (s.reinstate n).state := by
  refine acts_onComp s n _ ?_
  split
  · exact .refl s
  · split
    · exact .refl s
    · rename_i out
      split
      · exact .refl s
      · exact acts_setState s n _ (.inr (.inr (by simpa using out)))

theorem acts_setClass (s : State) (n : Nat) (k : SizeClass) : Acts c s (s.setClass n k).state := by
  refine acts_onComp s n _ ?_
  split
  · exact .refl s
  · split
    · exact .refl s
    · exact acts_updComp s n (fun x => { x with cls := k }) fun _ => ⟨rfl, rfl, rfl, rfl⟩

theorem acts_boardAccept (s : State) (l k : Nat) : Acts c s (s.boardAccept l k).state := by
  unfold State.boardAccept
  split
  · exact .refl s
  · split
    · exact .refl s
    · split
      · exact .refl s
      · rename_i new
        refine Acts.trans ?_ (acts_pass _)
        refine Acts.trans ?_ (Acts.foldl (fun s n => acts_addCause s n _) _ _)
        refine acts_updSlot s l k _ ⟨fun ok => ?_, fun _ => Nat.zero_le _⟩
        have serial := ok.2.2 (by simpa using new)
        exact ⟨fun _ => ⟨serial, rfl⟩, fun h => (nomatch h), fun h => (nomatch h)⟩

theorem Slot.Holds.of_empty {x y : Slot} (h : y.state = .EMPTY) (u : y.unanswered = 0) : x.Holds y := by
  refine ⟨fun _ => ⟨fun e => ?_, fun e => ?_, fun e => ?_⟩, fun _ => by omega⟩ <;> rw [h] at e <;> cases e

theorem Link.slotAt_map (x : Link) (f : Slot → Slot) (k : Nat) :
    tget (x.slots.map f) Slot.empty k = if 1 ≤ k ∧ k ≤ 8 then f (x.slotAt k) else Slot.empty := by
  by_cases h : 1 ≤ k ∧ k ≤ 8
  · obtain ⟨j, rfl⟩ : ∃ j, k = j + 1 := ⟨k - 1, by omega⟩
    have hj : j < 8 := by omega
    simp [tget, Link.slotAt, h, hj]
  · rw [if_neg h, tget_outside]
    omega

theorem acts_linkReset (s : State) (l : Nat) : Acts c s (s.linkReset l).state := by
  have resetLink : Acts c s (s.updLink l Link.resetLink) := by
    refine .one (.link s l _ ⟨rfl, .refl _, .refl _, fun k => ?_, fun _ p hp => nomatch hp⟩)
    have read : (s.link l).resetLink.slotAt k = _ := Link.slotAt_map (s.link l) Slot.reset k
    rw [read]
    split
    · exact .of_empty rfl rfl
    · exact .of_empty rfl rfl
  have resetStrike : ∀ s : State, Acts c s (s.resetStrike l) := by
    intro s
    unfold State.resetStrike
    split
    · exact .refl s
    · dsimp only
      split
      · exact (acts_updSlot s l _ _ (.refl _)).trans (acts_dropStrike _ l)
      · exact acts_dropStrike _ l
  unfold State.linkReset
  split
  · exact .refl s
  · split
    · exact .refl s
    · refine Acts.trans ?_ (acts_pass _)
      refine Acts.trans ?_ (resetStrike _)
      exact (resetLink.trans (acts_endJobs _ _ _)).trans (acts_endJobs _ _ _)

theorem acts_clearCapture (s : State) : Acts c s s.clearCapture.state := by
  unfold State.clearCapture
  split
  · exact .refl s
  · dsimp only
    exact .one (.capture s _ fun _ => Nat.zero_le _)

end Sys2Proof.Machine
end

