-- ==== Sys2Proof/Proofs/ActsCommands.lean ====
section
/-! The commands of the supply, the clock, the links and the payment bus as chains of acts, and the theorem that every
command is one. -/

namespace Sys2Proof.Machine

open Sys2Proof

variable {c : Instr}

/-! ### The mode and the bank minute -/

theorem acts_endAllQueued (s : State) : Acts c s s.endAllQueued :=
  Acts.foldl (fun s _ => acts_endJobs s _ _) s.linkNos s

/-- The commands that decide the mode again. -/
def Instr.decides (c : Instr) : Prop :=
  (∃ v, c = .mainsGoodChange v ∨ c = .batteryLowChange v) ∨ ∃ h p, c = .mode h p ∨ c = .factoryClear h p

theorem acts_decideMode (s : State) (by_ : Instr.decides c) : Acts c s s.decideMode := by
  unfold State.decideMode
  dsimp only
  split
  · exact .refl s
  · have h2 : Acts c s _ := (Acts.one (.mode s s.modeNow by_)).trans (acts_post _ ((s.withMode s.modeNow).modeChanged s.scu.mode))
    have h4 : ∀ u, Acts c s u → Acts c s (State.pass (if s.modeNow = .DORMANT then u.endAllQueued else u)) := by
      intro u h
      refine Acts.trans ?_ (acts_pass _)
      split
      · exact h.trans (acts_endAllQueued u)
      · exact h
    split
    · exact (((h4 _ h2).trans (acts_topUpEnd _ _)).trans (acts_topUpEnd _ _)).trans (acts_pass _)
    · exact h4 _ h2

theorem acts_expireAt (s : State) (n : Nat) : Acts c s (s.expireAt n) := by
  unfold State.expireAt
  dsimp only
  split
  · rename_i res _
    split
    · exact (acts_unplace s n (fun x => { x with state := .FREE, reservation := none }) (.inr (.inl res))
        fun _ => ⟨rfl, rfl, rfl⟩).trans (acts_post _ _)
    · exact .refl s
  · exact .refl s

theorem acts_switchPage (s : State) (p : Fin 4) : Acts c s (s.switchPage p) :=
  (Acts.one (.tariff s (fun t => { t with active := p, scheduled := none }) rfl rfl)).trans (acts_post _ _)

theorem acts_switchTest (s : State) : Acts c s s.switchTest := by
  unfold State.switchTest
  split
  · split
    · exact acts_switchPage s _
    · exact .refl s
  · exact .refl s

theorem acts_overdueAt (s : State) (n : Nat) : Acts c s (s.overdueAt n) := by
  unfold State.overdueAt
  dsimp only
  split
  · split
    · exact (acts_updParcel s n (fun p => { p with overdue := true }) fun _ => ⟨rfl, rfl⟩).trans (acts_post _ _)
    · exact .refl s
  · exact .refl s

theorem Gate.unlock_wrong (g : Gate) (now : Nat) : (g.unlock now).wrong = g.wrong := by
  unfold Gate.unlock
  split
  · split <;> rfl
  · rfl

/-- A change made of every entry of a numbered table, read at one. -/
theorem tget_map {α : Type} {n : Nat} (v : Vector α n) (d : α) (f : α → α) (k : Nat) :
    tget (v.map f) d k = if 1 ≤ k ∧ k ≤ n then f (tget v d k) else d := by
  by_cases h : 1 ≤ k ∧ k ≤ n
  · obtain ⟨j, rfl⟩ : ∃ j, k = j + 1 := ⟨k - 1, by omega⟩
    have hj : j < n := by omega
    simp [tget, h, hj]
  · rw [if_neg h, tget_outside]
    omega

theorem acts_clearLockouts (s : State) : Acts c s s.clearLockouts := by
  refine .one (.gates s _ fun fits st => ?_)
  have read : ((s.updGates fun v => v.map fun g => g.unlock s.now).gate st) = _ :=
    tget_map s.gates { wrong := [], lockout := none } _ st
  rw [read]
  split
  · rw [Gate.unlock_wrong]
    exact fits st
  · exact Nat.zero_le _

theorem acts_expiryScan (s : State) : Acts c s s.expiryScan := by
  unfold State.expiryScan
  exact Acts.foldl (f := State.expireAt) (fun s n => acts_expireAt s n) compNos s

theorem acts_ageRetired (s : State) : Acts c s s.ageRetired := by
  unfold State.ageRetired
  exact .one (.alloc s _ List.filter_sublist)

theorem acts_handOn (s : State) (b : Bool) : Acts c s (s.handOn b) := by
  have h : Acts c s s.expiryScan.ageRetired.clearLockouts.switchTest :=
    (((acts_expiryScan s).trans (acts_ageRetired _)).trans (acts_clearLockouts _)).trans (acts_switchTest _)
  unfold State.handOn
  dsimp only
  split
  · exact h.trans (Acts.foldl (fun s n => acts_overdueAt s n) compNos _)
  · exact h

/-! ### The audit and the end of start-up -/

theorem acts_markUnread (s : State) (n : Nat) (rd : AuditReading) : Acts c s (s.markUnread n rd) := by
  unfold State.markUnread
  split
  · exact acts_markCause s n _
  · exact .refl s

theorem acts_reverseRecovered (s : State) (n : Nat) (p : Parcel) : Acts c s (s.reverseRecovered n p).1 := by
  unfold State.reverseRecovered
  split
  · split
    · exact .refl s
    · exact acts_queueReversal s _
  · exact .refl s

theorem acts_postRecovered (s : State) (n : Nat) (pu : Option Purpose) (note : EndNote)
    (ref : Option (Nat × Nat × Bool)) : Acts c s (s.postRecovered n pu note ref) := by
  have h := (acts_updComp (c := c) s n (fun x => { x with purpose := none }) fun _ => ⟨rfl, rfl, rfl, rfl⟩).trans
    (acts_post _ (State.recovered (s.updComp n fun x => { x with purpose := none }) n pu note ref))
  unfold State.postRecovered
  dsimp only
  split
  · exact h.trans (acts_post _ _)
  · exact h

theorem acts_auditUndo (s : State) (n : Nat) (pu : Option Purpose) : Acts c s (s.auditUndo n pu) := by
  have h1 : Acts c s (s.undo n).1 := .one (.undo s n)
  unfold State.auditUndo
  dsimp only
  refine Acts.trans ?_ (acts_postRecovered _ n pu _ _)
  split
  · exact h1.trans (acts_reverseRecovered _ n _)
  · exact h1

theorem acts_auditConfirm (s : State) (n : Nat) (pu : Option Purpose) : Acts c s (s.auditConfirm n pu) := by
  unfold State.auditConfirm
  exact (acts_confirmParcel s n true).trans (acts_postRecovered _ n pu _ _)

theorem acts_auditCompare (s : State) (n : Nat) (rd : AuditReading) : Acts c s (s.auditCompare n rd) := by
  unfold State.auditCompare
  split
  · exact .refl s
  · split
    · exact .refl s
    · exact acts_markCause s n _
  · split
    · exact .refl s
    · exact acts_markCause s n _

theorem acts_settle (s : State) (n : Nat) (rd : AuditReading) : Acts c s (s.settle n rd) := by
  unfold State.settle
  dsimp only
  refine (acts_markUnread s n rd).trans ?_
  generalize s.markUnread n rd = s
  have rest : ∀ note ref, Acts c (s.retire n) ((s.retire n).postRecovered n (s.comp n).purpose note ref) := fun _ _ =>
    acts_postRecovered _ n _ _ _
  have undone : ∀ pu, Acts c s (if rd = .empty then s.auditUndo n pu else s.auditConfirm n pu) := by
    intro pu
    split
    · exact acts_auditUndo s n _
    · exact acts_auditConfirm s n _
  have retired : ∀ pu note, Acts c s (if rd = .empty then (s.retire n).postRecovered n pu note none
      else s.postRecovered n pu note none) := by
    intro pu note
    split
    · exact (Acts.one (.retire s n)).trans (acts_postRecovered _ n _ _ _)
    · exact acts_postRecovered s n _ _ _
  split
  · split
    · exact acts_auditUndo s n none
    · exact acts_auditCompare s n rd
  · exact undone _
  · exact undone _
  · exact retired _ _
  · exact retired _ _
  · exact retired _ _
  · exact (acts_auditCompare s n rd).trans (acts_postRecovered _ n _ _ _)

theorem acts_reconcileCharge (s : State) (r : Nat) : Acts c s (s.reconcileCharge r) := by
  unfold State.reconcileCharge
  split
  · exact .refl s
  · split
    · exact .one (.reader s r _ fun h => ⟨rfl, h.2⟩)
    · exact ((acts_dropCharge s r).trans (acts_dropParcelRef _ _ _)).trans (acts_post _ _)

theorem acts_reconcileReversal (s : State) (v : Reversal) : Acts c s (s.reconcileReversal v) := by
  unfold State.reconcileReversal
  split
  · exact .refl s
  · exact (acts_dropReversal s _).trans (acts_post _ _)

theorem acts_pollTimer (s : State) (r : Nat) (t : PollTimer) :
    Acts c s (s.updReader r fun x => { x with pollTimer := t }) :=
  acts_updReader s r (fun x => { x with pollTimer := t }) fun _ => ⟨.refl _, .inl rfl⟩

theorem acts_reconcile (s : State) : Acts c s s.reconcile := by
  refine Acts.trans ?_ (Acts.foldl (fun s r => acts_pollTimer s r _) _ _)
  exact (Acts.foldl (fun s r => acts_reconcileCharge s r) _ s).trans (Acts.foldl (fun s v => acts_reconcileReversal s v) _ _)

/-- An update of the supply and clock state that is about the start-up phases alone. -/
theorem acts_startup (s : State) (f : Scu → Scu) (h : ∀ u : Scu, (f u).straps = u.straps ∧
    (f u).mainsGood = u.mainsGood ∧ (f u).batteryLow = u.batteryLow ∧ (f u).mode = u.mode ∧ (f u).base = u.base ∧
    (f u).wallOffset = u.wallOffset ∧ (f u).config = u.config ∧ (f u).minute = u.minute ∧
    (f u).persisted = u.persisted) : Acts c s (s.updScu f) := by
  refine acts_updScu s f fun u => ?_
  obtain ⟨h1, h2, h3, h4, h5, h6, h7, h8, h9⟩ := h u
  exact ⟨h1, h2, h3, h4, h5, h6, h7, by rw [h8, h9]; exact id⟩

theorem acts_endStartup (s : State) : Acts c s s.endStartup := by
  unfold State.endStartup
  exact ((acts_startup s (fun u => { u with phase := none }) fun _ => ⟨rfl, rfl, rfl, rfl, rfl, rfl, rfl, rfl, rfl⟩).trans (acts_post _ _)).trans
    (acts_handOn _ true)

theorem acts_endAudit (s : State) : Acts c s s.endAudit := by
  unfold State.endAudit
  dsimp only
  refine Acts.trans ?_ (acts_endStartup _)
  refine Acts.trans ?_ (acts_reconcile _)
  refine (Acts.foldl (fun s n => acts_settle s n .unread) _ s).trans (acts_startup _ (fun u =>
    { u with phase := some .RECONCILE, auditWait := [], auditUnread := [], auditTimer := false }) fun _ => ⟨rfl, rfl, rfl, rfl, rfl, rfl, rfl, rfl, rfl⟩)

theorem acts_auditCheck (s : State) : Acts c s s.auditCheck := by
  unfold State.auditCheck
  split
  · exact acts_endAudit s
  · exact .refl s

theorem acts_auditResolve (s : State) (n : Nat) : Acts c s (s.auditResolve n) := by
  unfold State.auditResolve
  split
  · exact .refl s
  · split
    · exact acts_startup s (fun u => { u with auditWait := u.auditWait ++ [n] }) fun _ => ⟨rfl, rfl, rfl, rfl, rfl, rfl, rfl, rfl, rfl⟩
    · exact (acts_afterResolve s n).trans
        (acts_startup _ (fun u => { u with auditUnread := u.auditUnread ++ [n] }) fun _ => ⟨rfl, rfl, rfl, rfl, rfl, rfl, rfl, rfl, rfl⟩)

theorem acts_beginAudit (s : State) : Acts c s s.beginAudit := by
  refine Acts.trans ?_ (acts_auditCheck _)
  exact (acts_startup s (fun u => { u with phase := some .AUDIT, auditTimer := true }) fun _ => ⟨rfl, rfl, rfl, rfl, rfl, rfl, rfl, rfl, rfl⟩).trans
    (Acts.foldl (fun s n => acts_auditResolve s n) compNos _)

theorem acts_auditRead (s : State) (n : Nat) (r : Reading) : Acts c s (s.auditRead n r) := by
  unfold State.auditRead
  split
  · split
    · exact acts_markCause s n _
    · split
      · exact (acts_settle s n _).trans
          (acts_startup _ (fun u => { u with auditWait := u.auditWait.filter (· != n) }) fun _ => ⟨rfl, rfl, rfl, rfl, rfl, rfl, rfl, rfl, rfl⟩)
      · exact .refl s
  · exact .refl s

theorem acts_reportPass (s : State) (l : Nat) : Acts c s (s.reportPass l) := by
  have h := acts_updLink (c := c) s l (fun x => { x with reported := true }) fun _ => ⟨rfl, rfl, rfl, rfl, rfl⟩
  unfold State.reportPass
  split
  · dsimp only
    split
    · exact h.trans (acts_beginAudit _)
    · exact h
  · exact .refl s

/-! ### The column links -/

theorem acts_startRollTimer (s : State) (l : Nat) : Acts c s (s.startRollTimer l) :=
  acts_updLink s l (fun x => { x with rollTimer := true }) fun _ => ⟨rfl, rfl, rfl, rfl, rfl⟩

theorem acts_endExchange (s : State) (l : Nat) (e : LastExchange) : Acts c s (s.endExchange l e) :=
  acts_updLink s l (fun x => { x with line := none, lastEnded := e }) fun _ => ⟨rfl, rfl, rfl, rfl, rfl⟩

theorem acts_strikeSlotLost (s : State) (l k : Nat) : Acts c s (s.strikeSlotLost l k) := by
  unfold State.strikeSlotLost
  split
  · exact .refl s
  · rename_i x at_
    split
    · split
      · exact acts_strike s l _ at_ fun y hy => ⟨⟨_, rfl, rfl⟩, rfl, rfl, rfl, rfl⟩
      · split
        · exact .refl s
        · exact acts_dropStrike s l
    · exact .refl s

theorem acts_opSlotLost (s : State) (o : Op) : Acts c s (s.opSlotLost o) := by
  unfold State.opSlotLost
  split
  · exact .refl s
  all_goals exact acts_endJob s _ _

theorem acts_slotLost (s : State) (l k : Nat) : Acts c s (s.slotLost l k) :=
  (Acts.foldl (fun s o => acts_opSlotLost s o) _ s).trans (acts_strikeSlotLost _ l k)

theorem acts_postBoardChanged (s : State) (l k : Nat) (x : Option Nat) : Acts c s (s.postBoardChanged l k x) :=
  acts_post s _

/-- A claim with another serial makes a slot CONFLICT (R50). -/
theorem acts_conflict (s : State) (l k : Nat) : Acts c s (s.updSlot l k fun x => x.enter .CONFLICT) :=
  acts_updSlot s l k _ ⟨fun _ => ⟨fun h => (nomatch h), fun h => (nomatch h), fun h => (nomatch h)⟩, fun _ => Nat.zero_le _⟩

theorem acts_applyClaim (s : State) (l serial k chan cur : Nat) : Acts c s (s.applyClaim l serial k chan cur) := by
  have present : (s.slot l k).commissioned = some serial →
      Acts c s (s.updSlot l k fun x => (x.claimed serial chan cur).enterPresent) := fun known =>
    acts_updSlot s l k _ ⟨fun _ => ⟨fun _ => ⟨rfl, known.symm⟩, fun h => (nomatch h), fun h => (nomatch h)⟩,
      fun _ => Nat.zero_le _⟩
  have new : Acts c s (s.updSlot l k fun x => (x.claimed serial chan cur).enter .NEW) :=
    acts_updSlot s l k _ ⟨fun _ => ⟨fun h => (nomatch h), fun h => (nomatch h), fun _ => rfl⟩, fun _ => Nat.zero_le _⟩
  unfold State.applyClaim
  dsimp only
  split
  · split
    · rename_i known
      exact present (by simpa using known)
    · exact new.trans (acts_postBoardChanged _ _ _ _)
  · split
    · rename_i known
      exact (present (by simpa using known)).trans (acts_postBoardChanged _ _ _ _)
    · exact new.trans (acts_postBoardChanged _ _ _ _)
  · split
    · exact .refl s
    · exact ((acts_conflict s l k).trans (acts_postBoardChanged _ _ _ _)).trans (acts_reportFault _ _ _ _ _ _)
  · split
    · exact .refl s
    · exact (((acts_conflict s l k).trans (acts_postBoardChanged _ _ _ _)).trans
        (acts_reportFault _ _ _ _ _ _)).trans (acts_slotLost _ l k)
  · split
    · exact .refl s
    · exact acts_reportFault s _ _ _ _ _

theorem acts_missSlot (s : State) (l k : Nat) : Acts c s (s.missSlot l k) := by
  unfold State.missSlot
  dsimp only
  split
  · rename_i h
    refine Acts.trans (acts_updSlot s l k (fun x => x.enter .OFFLINE) ⟨fun _ => ?_, fun _ => Nat.zero_le _⟩)
      ((acts_postBoardChanged _ _ _ _).trans (acts_reportFault _ _ _ _ _ _))
    exact ⟨fun h => (nomatch h), fun _ => h.2, fun h => (nomatch h)⟩
  · exact .refl s

theorem acts_endPass (s : State) (l : Nat) (b : Bool) : Acts c s (s.endPass l b) := by
  have h1 : Acts c s (s.updLink l fun x => { x with enumPass := none }) :=
    .one (.link s l _ ⟨rfl, .refl _, .refl _, fun _ => .refl _, fun _ p hp => nomatch hp⟩)
  unfold State.endPass
  dsimp only
  have h3 : ∀ v b, Acts c s v → Acts c s (v.updLink l fun x => { x with rollTimer := b }) := fun v b h =>
    h.trans (acts_updLink v l (fun x => { x with rollTimer := b }) fun _ => ⟨rfl, rfl, rfl, rfl, rfl⟩)
  split
  · exact (h3 _ _ (h1.trans (Acts.foldl (fun s k => acts_missSlot s l k) slotNos _))).trans (acts_reportPass _ l)
  · exact h3 _ _ h1

theorem acts_endRound (s : State) (l : Nat) : Acts c s (s.endRound l) := by
  unfold State.endRound
  split
  · exact .refl s
  · rename_i p hp
    split
    · exact acts_endPass s l _
    · rename_i room
      refine .one (.link s l _ ⟨rfl, .refl _, .refl _, fun _ => .refl _, fun _ q hq => ?_⟩)
      cases hq
      dsimp only [Config.passRounds] at room ⊢
      omega

theorem acts_line (s : State) (l : Nat) (m : Option LinkMsg) : Acts c s (s.updLink l fun x => { x with line := m }) :=
  acts_updLink s l (fun x => { x with line := m }) fun _ => ⟨rfl, rfl, rfl, rfl, rfl⟩

theorem acts_passStep (s : State) (l : Nat) (p : Pass) : Acts c s (s.passStep l p) := by
  unfold State.passStep
  split
  · exact (acts_endExchange s l _).trans (acts_endRound _ l)
  · exact acts_line s l _

theorem acts_beginPass (s : State) (l : Nat) (f : Link → Link) (p : Pass) (hp : p.rounds ≤ 15)
    (h : ∀ x : Link, (f x).strike = x.strike ∧ (f x).prio = x.prio ∧ (f x).bulk = x.bulk ∧ (f x).slots = x.slots) :
    Acts c s (s.updLink l fun x => (f x).beginPass p) := by
  obtain ⟨h1, h2, h3, h4⟩ := h (s.link l)
  refine .one (.link s l _ ⟨?_, ?_, ?_, fun k => ?_, fun _ q hq => ?_⟩)
  · simp [Link.strikeUnits, Link.beginPass, h1]
  · simp [Link.beginPass, h2]
  · simp [Link.beginPass, h3]
  · simp only [Link.slotAt, Link.beginPass, h4]
    exact .refl _
  · cases hq
    exact hp

theorem acts_pollNext (s : State) (l k : Nat) : Acts c s (s.updLink l fun y => y.pollNext k) :=
  acts_updLink s l (fun y => y.pollNext k) fun _ => ⟨rfl, rfl, rfl, rfl, rfl⟩

theorem acts_chooseLater (s : State) (l : Nat) : Acts c s (s.chooseLater l) := by
  unfold State.chooseLater
  dsimp only
  split
  · split
    · exact acts_passStep s l _
    · split
      · exact acts_pollNext s l _
      · exact acts_passStep s l _
  · split
    · exact acts_pollNext s l _
    · exact .refl s

theorem acts_sendStrike (s : State) (l : Nat) {k : Strike} (at_ : (s.link l).strike = some k) :
    Acts c s (s.sendStrike l k) := by
  unfold State.sendStrike
  exact acts_strike s l _ at_ fun _ _ => ⟨⟨_, rfl, rfl⟩, rfl, rfl, rfl, rfl⟩

theorem acts_chooseExchange (s : State) (l : Nat) : Acts c s (s.chooseExchange l) := by
  unfold State.chooseExchange
  dsimp only
  split
  · exact acts_beginPass s l (fun x => { x with unbindDue := false, lastEnded := .other }) _ (Nat.zero_le _)
      fun _ => ⟨rfl, rfl, rfl, rfl⟩
  · split
    · rename_i k at_
      split
      · exact acts_sendStrike s l at_
      · split
        · exact acts_line s l _
        · exact acts_chooseLater s l
    · exact acts_chooseLater s l

/-! ### The stages of a cycle -/

theorem acts_updOp (s : State) (job : Nat) (f : Op → Op) (h : ∀ o : Op, (f o).job = o.job ∧ (f o).comp = o.comp ∧
    (f o).link = o.link ∧ (f o).station = o.station ∧ (f o).purpose = o.purpose)
    (stage : ∀ o : Op, (f o).stage = o.stage ∨ (f o).stage ≠ .AWAIT_PAYMENT) : Acts c s (s.updOp job f) := by
  refine .one (.op s job f fun o => ?_)
  obtain ⟨h1, h2, h3, h4, h5⟩ := h o
  refine ⟨h1, h2, h3, h4, h5, fun e => ?_⟩
  rcases stage o with same | other
  · exact same ▸ e
  · exact absurd e other

theorem acts_enterOpen (s : State) (o : Op) : Acts c s (s.enterOpen o) := by
  unfold State.enterOpen
  exact (acts_updOp s o.job (fun x => { x with
    stage := .OPEN, openWait := none, ajar := some (s.scu.config.ajar.get (s.comp o.comp).cls) })
    (fun _ => ⟨rfl, rfl, rfl, rfl, rfl⟩) fun _ => .inr (by simp)).trans (acts_post _ _)

theorem acts_enterConfirm (s : State) (job : Nat) : Acts c s (s.enterConfirm job) :=
  acts_updOp s job (fun o => { o with stage := .AWAIT_CONFIRM, confirm := some Config.confirmSeconds })
    (fun _ => ⟨rfl, rfl, rfl, rfl, rfl⟩) fun _ => .inr (by simp)

theorem acts_hatchReading (s : State) (o : Op) (b : Bool) : Acts c s (s.hatchReading o b) := by
  unfold State.hatchReading
  split
  · split
    · exact acts_updOp s o.job (fun o => { o with opened := true }) (fun _ => ⟨rfl, rfl, rfl, rfl, rfl⟩) fun _ => .inl rfl
    · exact .refl s
  · split
    · exact acts_enterOpen s o
    · exact .refl s
  · split
    · exact .refl s
    · exact acts_enterConfirm s _
  · split
    · exact acts_updOp s o.job (fun o => { o with stage := .OPEN, confirm := none })
        (fun _ => ⟨rfl, rfl, rfl, rfl, rfl⟩) fun _ => .inr (by simp)
    · exact .refl s
  · exact .refl s
  · exact .refl s

theorem acts_occupancyReading (s : State) (job : Nat) (r : Reading) : Acts c s (s.occupancyReading job r) := by
  unfold State.occupancyReading
  split
  · exact .refl s
  · rename_i o ho
    split
    · exact acts_endOp s o _ _ (State.lists_of_opByJob ho)
    · exact .refl s

theorem acts_opReading (s : State) (o : Op) (r : Reading) : Acts c s (s.opReading o r) :=
  (acts_hatchReading s o _).trans (acts_occupancyReading _ _ r)

theorem acts_strikeEnd (s : State) (job : Nat) (b : Bool) : Acts c s (s.strikeEnd job b) := by
  unfold State.strikeEnd
  split
  · exact .refl s
  · split
    · split
      · exact acts_enterOpen s _
      · split
        · exact (acts_enterOpen s _).trans (acts_enterConfirm _ job)
        · exact acts_updOp s job (fun o => { o with stage := .AWAIT_OPEN, openWait := some s.scu.config.openWait })
            (fun _ => ⟨rfl, rfl, rfl, rfl, rfl⟩) fun _ => .inr (by simp)
    · exact .refl s

/-! ### Polling -/

theorem acts_setLate (s : State) (l k ch : Nat) (b : Bool) : Acts c s (s.setLate l k ch b) :=
  acts_updSlot s l k (fun x => { x with late := x.late.setIfInBounds ch b }) ⟨id, id⟩

theorem acts_setMemory (s : State) (l k ch : Nat) (b : Bool) : Acts c s (s.setMemory l k ch b) :=
  acts_updSlot s l k (fun x => { x with hatch := x.hatch.setIfInBounds ch (if b then .opened else .closed) }) ⟨id, id⟩

theorem acts_forcedTest (s : State) (l k ch n : Nat) (b : Bool) : Acts c s (s.forcedTest l k ch n b) := by
  unfold State.forcedTest
  split
  · exact (acts_addCause s n _).trans (acts_post _ _)
  · exact .refl s

theorem acts_cycleReading (s : State) (l k ch : Nat) (o : Op) (r : Reading) : Acts c s (s.cycleReading l k ch o r) := by
  refine (acts_opReading s o r).trans ?_
  unfold State.cycleReading State.lateTest
  split
  · exact acts_forcedTest _ _ _ _ _ _
  · exact .refl _

theorem acts_routeReading (s : State) (l k ch : Nat) (r : Reading) : Acts c s (s.routeReading l k ch r) := by
  unfold State.routeReading
  split
  · exact acts_cycleReading s l k ch _ r
  · split
    · exact .refl s
    · split
      · exact acts_auditRead s _ r
      · exact .refl s
      · split
        · split
          · exact acts_cycleReading s l k ch _ r
          · exact acts_forcedTest s _ _ _ _ _
        · exact acts_forcedTest s _ _ _ _ _

theorem acts_takeReading (s : State) (l k ch : Nat) (r : Reading) : Acts c s (s.takeReading l k ch r) := by
  refine (acts_routeReading s l k ch r).trans ((acts_setMemory _ l k ch r.hatchOpen).trans ?_)
  unfold State.takeReading State.clearLate
  dsimp only
  split
  · exact acts_setLate _ _ _ _ _
  · exact .refl _

theorem acts_takeReadings (s : State) (l k : Nat) (rs : List Reading) : Acts c s (s.takeReadings l k rs) :=
  Acts.foldl (fun s (p : Reading × Nat) => acts_takeReading s l k p.2 p.1) rs.zipIdx s

theorem State.ackedStrike_some {s : State} {l k : Nat} {x : Strike} (h : s.ackedStrike l k = some x) :
    (s.link l).strike = some x := by
  unfold State.ackedStrike at h
  split at h
  · split at h
    · rename_i e _
      cases h
      exact e
    · cases h
  · cases h

theorem acts_noteHatch (s : State) (l k : Nat) (rs : List Reading) : Acts c s (s.noteHatch l k rs) := by
  unfold State.noteHatch
  split
  · exact .refl s
  · rename_i x hx
    split
    · exact .refl s
    · exact acts_strike s l _ (State.ackedStrike_some hx) fun _ _ => ⟨⟨_, rfl, rfl⟩, rfl, rfl, rfl, rfl⟩

theorem acts_finishStrike (s : State) (l : Nat) (x : Strike) : Acts c s (s.finishStrike l x) := by
  unfold State.finishStrike
  dsimp only
  split
  · exact acts_dropStrike s l
  · exact (acts_dropStrike s l).trans (acts_strikeEnd _ _ _)

theorem acts_strikeDone (s : State) (l k : Nat) (rs : List Reading) : Acts c s (s.strikeDone l k rs) := by
  unfold State.strikeDone
  split
  · exact .refl s
  · dsimp only
    split
    · exact (acts_finishStrike s l _).trans (acts_occupancyReading _ _ _)
    · exact acts_finishStrike s l _

theorem acts_takeStatus (s : State) (l k : Nat) (rs : List Reading) (done : Bool) :
    Acts c s (s.takeStatus l k rs done) := by
  unfold State.takeStatus
  dsimp only
  generalize rs.take (min 16 (s.slot l k).channels) = kept
  have answered : Acts c s (s.updSlot l k fun x => x.answered kept done) :=
    acts_updSlot s l k _ ⟨id, fun _ => Nat.zero_le _⟩
  have h2 := (answered.trans (acts_noteHatch _ l k kept)).trans (acts_takeReadings _ l k kept)
  have h3 := h2.trans (acts_strikeDone _ l k kept)
  have last : ∀ u, Acts c s u → Acts c s (if u.scu.phase = some .AUDIT then u.auditCheck else u) := by
    intro u h
    split
    · exact h.trans (acts_auditCheck u)
    · exact h
  cases done
  · exact last _ h2
  · exact last _ h3

theorem acts_pollMissed (s : State) (l k : Nat) : Acts c s (s.pollMissed l k) := by
  unfold State.pollMissed
  dsimp only
  split
  · rename_i present
    split
    · refine Acts.trans ?_ (acts_slotLost _ l k)
      refine Acts.trans ?_ (acts_startRollTimer _ l)
      refine Acts.trans ?_ (acts_reportFault _ _ _ _ _ _)
      refine Acts.trans ?_ (acts_postBoardChanged _ _ _ _)
      refine acts_updSlot s l k _ ⟨fun ok => ⟨fun h => (nomatch h), fun _ => ?_, fun h => (nomatch h)⟩,
        fun _ => Nat.zero_le _⟩
      obtain ⟨serial, same⟩ := ok.1 present
      exact same ▸ serial
    · rename_i room
      refine acts_updSlot s l k _ ⟨id, fun _ => ?_⟩
      dsimp only [Config.missLimit] at room ⊢
      omega
  · exact .refl s

/-! ### The strike exchange -/

theorem acts_strikeFailed (s : State) (l : Nat) : Acts c s (s.strikeFailed l) := by
  unfold State.strikeFailed
  split
  · exact .refl s
  · rename_i k at_
    split
    · exact acts_dropStrike s l
    · split
      · exact ((acts_dropStrike s l).trans (acts_endJob _ _ _)).trans (acts_reportFault _ _ _ _ _ _)
      · exact acts_strike s l _ at_ fun _ _ => ⟨⟨_, rfl, rfl⟩, rfl, rfl, rfl, rfl⟩

theorem acts_strikeNoChannel (s : State) (l : Nat) : Acts c s (s.strikeNoChannel l) := by
  unfold State.strikeNoChannel
  split
  · exact .refl s
  · dsimp only
    refine Acts.trans ?_ (acts_reportFault _ _ _ _ _ _)
    refine Acts.trans ?_ (acts_addCause _ _ _)
    split
    · exact acts_dropStrike s l
    · exact (acts_dropStrike s l).trans (acts_endJob _ _ _)

theorem acts_strikeAcked (s : State) (l n : Nat) (by_ : ∃ l, c = .strikeAck l) : Acts c s (s.strikeAcked l n) := by
  have h1 : Acts c s _ := .one (.strikeCount s n by_)
  unfold State.strikeAcked
  dsimp only
  split
  · exact h1
  · rename_i k at_
    have h2 := h1.trans (acts_strike _ l
      (fun x => { x with strike := some { k with ackMinute := some s.now, late := k.opEnded } }) (k := k) at_
      fun _ _ => ⟨⟨_, rfl, rfl⟩, rfl, rfl, rfl, rfl⟩)
    split
    · exact h2.trans (acts_setLate _ _ _ _ _)
    · exact h2

/-! ### Sections and the retained state -/

theorem acts_orAlias (s v : State) (ns : List Nat) (ok : Answer) (h : Acts c s ok.state) :
    Acts c s (s.orAlias v ns ok).state := by
  unfold State.orAlias
  split
  · exact .refl s
  · exact h

/-- A compartment as SECTION_DEFINE redraws it (R39). -/
def Sect.redrawn (new : Sect) (i : Fin 8) (n : Nat) (x : Compartment) : Compartment :=
  if new.coversNo n then { x with sect := some i, cls := new.cls } else { x with sect := none }

theorem acts_defineSect (s : State) (i : Fin 8) (new : Sect) (by_ : ∃ h p, c = .sectionDefine h p) :
    Acts c s (s.defineSect i new) := by
  obtain ⟨h, p, e⟩ := by_
  refine Acts.trans (.one (.sect s i (fun _ => new) ⟨h, p, .inl e⟩)) (Acts.foldl (fun s n => ?_) _ _)
  refine Acts.trans (.one (.resect s n (new.redrawn i n) ?_ ⟨h, p, e⟩))
    (.one (.mapEntry _ n none ⟨h, p, .inl e⟩))
  unfold Sect.redrawn
  split <;> exact ⟨rfl, id, fun _ => rfl⟩

theorem acts_define (s : State) (r : DefineReq) (by_ : ∃ h p, c = .sectionDefine h p) : Acts c s (s.define r).state := by
  refine acts_onSect s _ _ fun i => ?_
  dsimp only
  split
  · exact .refl s
  · split
    · exact .refl s
    · split
      · exact .refl s
      · split
        · exact .refl s
        · split
          · exact .refl s
          · split
            · exact acts_orAlias s _ _ _ (acts_defineSect s i _ by_)
            · exact acts_defineSect s i _ by_

theorem acts_enable (s : State) (k : Nat) (on : Bool) (by_ : ∃ h p, c = .sectionEnable h p) :
    Acts c s (s.enable k on).state := by
  obtain ⟨h, p, e⟩ := by_
  refine acts_onSect s _ _ fun i => ?_
  have h1 : Acts c s (s.updSect i fun x => { x with enabled := on }) := .one (.sect s i _ ⟨h, p, .inr e⟩)
  dsimp only
  split
  · exact acts_orAlias s _ _ _ h1
  · split
    · exact .refl s
    · exact h1

theorem acts_mapWrite (s : State) (n : Nat) (a : AddrReq ⊕ Unit) (by_ : ∃ h p, c = .mapWrite h p) :
    Acts c s (s.mapWrite n a).state := by
  obtain ⟨h, p, e⟩ := by_
  have h1 : Acts c s (s.setMapEntry n (newEntry n a)) := .one (.mapEntry s n _ ⟨h, p, .inr e⟩)
  refine acts_onComp s n _ ?_
  split
  · exact .refl s
  · split
    · exact .refl s
    · split
      · exact .refl s
      · dsimp only
        split
        · exact acts_orAlias s _ _ _ h1
        · exact h1

theorem acts_tariffLoad (s : State) (n : Nat) (x : Page) (by_ : ∃ h p, c = .tariffLoad h p) :
    Acts c s (s.tariffLoad n x).state := by
  unfold State.tariffLoad
  split
  · exact .refl s
  · split
    · exact .refl s
    · split
      · exact .refl s
      · exact .one (.storePage s _ _ by_)

theorem acts_schedule (s : State) (n m : Nat) : Acts c s (s.schedule n m).state := by
  have stored : ∀ w, Acts c s (s.setSwitch w) := fun w => .one (.tariff s _ rfl rfl)
  unfold State.schedule
  split
  · exact .refl s
  · split
    · exact .refl s
    · split
      · exact .refl s
      · split
        · exact stored _
        · split
          · exact stored _
          · exact acts_switchPage s _

theorem acts_configure (s : State) (v : ConfigVals) (by_ : ∃ h p, c = .config h p) : Acts c s (s.configure v).state := by
  unfold State.configure
  split
  · exact .refl s
  · exact .one (.config s _ by_)

theorem acts_clearSlot (s : State) (l k : Nat) : Acts c s (s.clearSlot l k) := by
  unfold State.clearSlot
  dsimp only
  split
  · rename_i present
    refine Acts.trans ?_ (acts_slotLost _ l k)
    refine Acts.trans ?_ (acts_postBoardChanged _ _ _ _)
    refine acts_updSlot s l k _ ⟨fun ok => ⟨fun h => (nomatch h), fun h => (nomatch h), fun _ => ?_⟩, fun _ => Nat.zero_le _⟩
    exact (ok.1 present).1
  · exact acts_updSlot s l k _ (.of_empty rfl rfl)
  · rename_i h
    refine acts_updSlot s l k _ ⟨fun ok => ⟨fun e => ?_, fun e => ?_, fun e => ?_⟩, id⟩ <;>
      exact nomatch h.symm.trans e
  · rename_i h
    exact acts_updSlot s l k _ ⟨fun ok => ⟨fun e => (nomatch h.symm.trans e), fun e => (nomatch h.symm.trans e), ok.2.2⟩, id⟩
  · rename_i h
    refine acts_updSlot s l k _ ⟨fun ok => ⟨fun e => ?_, fun e => ?_, fun e => ?_⟩, id⟩ <;>
      exact nomatch h.symm.trans e

theorem acts_clearLink (s : State) (l : Nat) : Acts c s (s.clearLink l) :=
  (Acts.foldl (fun s k => acts_clearSlot s l k) slotNos s).trans
    (acts_updLink _ l (fun x => { x with rollTimer := false }) fun _ => ⟨rfl, rfl, rfl, rfl, rfl⟩)

theorem acts_factoryClear (s : State) (by_ : ∃ h p, c = .factoryClear h p) : Acts c s s.factoryClear.state := by
  unfold State.factoryClear
  split
  · exact .refl s
  · split
    · exact .refl s
    · split
      · exact .refl s
      · dsimp only
        obtain ⟨h, p, e⟩ := by_
        exact ((Acts.one (.factory s ⟨h, p, e⟩)).trans (Acts.foldl (fun s l => acts_clearLink s l) _ _)).trans
          (acts_decideMode _ (.inr ⟨h, p, .inr e⟩))

/-! ### The management station -/

theorem Kli.fetched_ok {k : Kli} (n : Nat) (h : k.ok) : (k.fetched n).ok := by
  obtain ⟨room, rx, flags, -⟩ := h
  refine ⟨?_, rx, fun c => ?_, Kli.refresh_attention _⟩
  · simp only [Kli.fetched, Kli.refresh, List.length_drop]
    omega
  · have inter : ∀ a b : ClassSet, (a.inter b).get c = (a.get c && b.get c) := by
      intro a b
      cases c <;> rfl
    have ofQueue : ∀ q, (ClassSet.ofQueue q).get c = true ↔ ∃ e ∈ q, e.kind.cls = c := by
      intro q
      cases c <;> simp [ClassSet.ofQueue, ClassSet.get, queueHas]
    simp only [Kli.fetched, Kli.refresh, inter, Bool.and_eq_true, flags c, ofQueue]
    exact ⟨And.right, fun ⟨e, he, hc⟩ => ⟨⟨e, List.mem_of_mem_drop he, hc⟩, e, he, hc⟩⟩

theorem acts_fetch (s : State) (n : Nat) : Acts c s (s.fetch n).state := by
  unfold State.fetch
  dsimp only
  exact .one (.kli s _ (Kli.fetched_ok _) rfl)

theorem acts_timeSet (s : State) (w : Nat) (by_ : ∃ h p, c = .timeSet h p) : Acts c s (s.timeSet w).state := by
  unfold State.timeSet
  split
  · exact .refl s
  · split
    · exact .refl s
    · exact .one (.offset s _ by_)

theorem acts_clockAdvance (s : State) (n : Nat) : Acts c s (s.clockAdvance n).state := by
  unfold State.clockAdvance
  split
  · exact .refl s
  · split
    · exact .refl s
    · dsimp only
      refine Acts.trans (.one (.scu s _ ⟨rfl, rfl, rfl, rfl, rfl, rfl, rfl, fun _ => ?_⟩)) (acts_handOn _ _)
      exact ⟨Nat.min_le_right _ _, Nat.min_le_right _ _⟩

theorem acts_setBase (s : State) (m : Nat) (by_ : ∃ h p, c = .mode h p) : Acts c s (s.setBase m).state := by
  obtain ⟨h, p, e⟩ := by_
  unfold State.setBase
  split
  · exact .refl s
  · split
    · exact .refl s
    · dsimp only
      exact (Acts.one (.base s _ ⟨h, p, e⟩)).trans (acts_decideMode _ (.inr ⟨h, p, .inl e⟩))

theorem acts_quoteFor (s : State) (q : QuoteReq) : Acts c s (s.quoteFor q).state := by
  have reply : ∀ n, (s.quoteReply n q.minute).state = s := by
    intro n
    unfold State.quoteReply
    split
    · rfl
    · split <;> rfl
  have whole : (s.quoteFor q).state = s := by
    unfold State.quoteFor
    split
    · split
      · exact reply _
      · rfl
    · split
      · exact reply _
      · rfl
  rw [whole]

theorem acts_findParcel (s : State) (q : Nat ⊕ Text) : Acts c s (s.findParcel q).state := by
  unfold State.findParcel
  dsimp only
  split <;> exact .refl s

/-! ### The payment bus -/

theorem acts_sendTo (s : State) (r : Nat) (m : BusMsg) : Acts c s (s.sendTo r m) :=
  acts_updPbc s (fun p => { p with line := some (r, m), retry := none, lastReader := r }) fun _ => ⟨rfl, .refl _, rfl⟩

theorem acts_chooseBus (s : State) : Acts c s s.chooseBus := by
  unfold State.chooseBus
  split
  · exact acts_sendTo s _ _
  · split
    · exact acts_sendTo s _ _
    · split
      · exact (acts_pollTimer s _ _).trans (acts_sendTo _ _ _)
      · split
        · exact acts_sendTo s _ _
        · exact .refl s

theorem acts_busAnswered (s : State) (r : Nat) (m : BusMsg) : Acts c s (s.busAnswered r m) :=
  (acts_updPbc s (fun p => { p with line := none, retry := none, lastReader := r }) fun _ => ⟨rfl, .refl _, rfl⟩).trans
    (acts_updReader _ r (fun x => ({ x with unanswered := 0 }).unlist m) fun _ => ⟨List.erase_sublist, .inr rfl⟩)

theorem acts_charge (s : State) (r : Nat) (f : Reader → Option Charge) :
    Acts c s (s.updReader r fun x => { x with charge := f x }) :=
  acts_updReader s r (fun x => { x with charge := f x }) fun _ => ⟨.refl _, .inl rfl⟩

theorem acts_joinQueue (s : State) (job : Nat) : Acts c s (s.joinQueue job) := by
  unfold State.joinQueue
  split
  · exact .refl s
  · rename_i o ho
    split
    · exact .refl s
    · rename_i stage
      split
      · exact .one (.join s o job ho (by simpa using stage))
      · exact acts_endOp s o _ _ (State.lists_of_opByJob ho)

theorem acts_settleRecord (s : State) (r ref : Nat) : Acts c s (s.settleRecord r ref) := by
  refine Acts.trans (Acts.trans (acts_dropCharge s r) (.one (.reader _ r _ fun h => ⟨?_, h.2⟩))) (acts_restReader _ r)
  exact Reader.ackFirst_listOk ref h.1

theorem acts_creditParcel (s : State) (n amount : Nat) : Acts c s (s.creditParcel n amount) :=
  acts_updParcel s n _ fun _ => ⟨rfl, rfl⟩

theorem acts_approve (s : State) (x : Charge) : Acts c s (s.approve x) := by
  unfold State.approve
  split
  · dsimp only
    split
    · exact (acts_creditParcel s _ _).trans (acts_updOp _ _ (fun o => { o with chargeRef := none, amount := none })
        (fun _ => ⟨rfl, rfl, rfl, rfl, rfl⟩) fun _ => .inl rfl)
    · exact acts_creditParcel s _ _
  · exact acts_updParcel s _ _ fun _ => ⟨rfl, rfl⟩

theorem acts_applyResult (s : State) (r : Nat) (x : Charge) (res : PayResult) (app : Text) :
    Acts c s (s.applyResult r x res app) := by
  unfold State.applyResult
  dsimp only
  have h2 : Acts c s (if res = .APPROVED then (s.settleRecord r x.ref).approve x
      else (s.settleRecord r x.ref).dropParcelRef x.comp x.ref) := by
    refine (acts_settleRecord s r x.ref).trans ?_
    split
    · exact acts_approve _ x
    · exact acts_dropParcelRef _ _ _
  have h3 : ∀ u, Acts c s u → Acts c s (u.post (u.paymentResult r x res app)) := fun u h => h.trans (acts_post u _)
  have h4 := h3 _ h2
  split
  · exact h4
  · by_cases hr : res = .APPROVED
    · simp only [hr, if_true] at h4 ⊢
      exact h4.trans (acts_joinQueue _ _)
    · simp only [hr, if_false] at h4 ⊢
      exact h4.trans (acts_endJob _ _ _)

theorem acts_lateResult (s : State) (r : Nat) (x : Charge) (res : PayResult) (app : Text) :
    Acts c s (s.lateResult r x res app) := by
  unfold State.lateResult
  dsimp only
  refine (acts_settleRecord s r x.ref).trans ?_
  split
  · split
    · exact (acts_creditParcel _ _ _).trans (acts_post _ _)
    · exact ((acts_dropParcelRef _ _ _).trans (acts_queueReversal _ _)).trans (acts_post _ _)
  · exact (acts_dropParcelRef _ _ _).trans (acts_post _ _)

theorem acts_strayResult (s : State) (r ref : Nat) (res : PayResult) (app : Text) :
    Acts c s (s.strayResult r ref res app) := by
  have h1 : Acts c s (s.updReader r fun x => x.ackFirst ref) :=
    .one (.reader s r _ fun h => ⟨Reader.ackFirst_listOk ref h.1, h.2⟩)
  unfold State.strayResult
  dsimp only
  split
  · exact h1
  · exact h1.trans (acts_post _ _)

theorem acts_takeResult (s : State) (r ref : Nat) (res : PayResult) (app : Text) :
    Acts c s (s.takeResult r ref res app) := by
  unfold State.takeResult
  split
  · split
    · exact acts_lateResult s r _ res app
    · exact acts_applyResult s r _ res app
  · exact acts_strayResult s r ref res app

/-- What a lost reader is left with (R163). -/
def Reader.lost (x : Reader) : Reader :=
  ({ x with state := .OFFLINE, unanswered := 0, pollTimer := .running }).keepOwed

/-- What follows where a reader has become OFFLINE (R163). -/
theorem acts_readerLost (s : State) (r : Nat) : Acts c (s.updReader r Reader.lost) (s.readerLost r) := by
  unfold State.readerLost
  dsimp only
  split
  · exact .refl _
  · split
    · exact .refl _
    · rename_i j _
      refine (acts_endJob (s.updReader r Reader.lost) j .READER_OFFLINE).trans ?_
      split
      · exact (acts_dropCharge _ r).trans (acts_dropParcelRef _ _ _)
      · exact acts_charge _ r _

theorem acts_returnReader (s : State) (r : Nat) : Acts c s (s.returnReader r) := by
  refine (acts_pollTimer s r .stopped).trans ?_
  unfold State.returnReader
  dsimp only
  split
  · exact acts_owe _ r (fun x => { x with state := .ABANDONING }) _ rfl fun _ => ⟨rfl, rfl⟩
  · exact acts_restReader _ r

theorem acts_backOnBus (s : State) (r : Nat) (b : Bool) : Acts c s (s.backOnBus r b) := by
  unfold State.backOnBus
  split
  · exact acts_returnReader s r
  · exact .refl s

theorem acts_reversalEnd (s : State) (r ref : Nat) (k : EventKind) : Acts c s (s.reversalEnd r ref k) := by
  unfold State.reversalEnd
  split
  · exact ((acts_dropReversal s ref).trans (acts_post _ _)).trans (acts_restReader _ r)
  · exact .refl s

theorem State.updReader_updReader (s : State) (r : Nat) (f g : Reader → Reader) :
    (s.updReader r f).updReader r g = s.updReader r fun x => g (f x) := by
  unfold State.updReader State.updPbc
  dsimp only
  congr 2
  cases r with
  | zero => rfl
  | succ k =>
    by_cases h : k < 4
    · simp [tput, tget, h]
    · simp only [tput]
      rw [Vector.setIfInBounds_eq_of_size_le (by omega), Vector.setIfInBounds_eq_of_size_le (by omega),
        Vector.setIfInBounds_eq_of_size_le (by omega)]

end Sys2Proof.Machine
end

