-- ==== Sys2Proof/Proofs/ActsExec.lean ====
section
/-! Every command is a chain of acts that ends in a next state. -/

namespace Sys2Proof.Machine

open Sys2Proof

/-- A command ends in a next state that a chain of its acts leads to. -/
def Runs (c : Instr) (s : State) : Prop := ∃ t, exec c s = .next t ∧ Acts c s t

theorem Runs.of {c : Instr} {s t : State} (e : exec c s = .next t) (a : Acts c s t) : Runs c s := ⟨t, e, a⟩

/-- A command that a test of its own state makes or ignores. -/
theorem Runs.ite {c : Instr} {s t u : State} {p : Prop} [Decidable p]
    (e : exec c s = if p then .next t else .next u) (a : p → Acts c s t) (b : ¬p → Acts c s u) : Runs c s := by
  by_cases h : p
  · exact ⟨t, by rw [e, if_pos h], a h⟩
  · exact ⟨u, by rw [e, if_neg h], b h⟩

/-- A request of the catalogue. -/
theorem Runs.request {α : Type} {c : Instr} {s : State} {h : ReqHead} {kind : Nat} {p : List Byte} {d : Codec α}
    {owner : α → State → Answer} (e : exec c s = .next (s.takeRequest h kind p d owner))
    (a : ∀ x u, Acts c u (owner x u).state) : Runs c s :=
  ⟨_, e, acts_takeRequest s h kind p d owner a⟩

variable {c : Instr}

/-! ### The receiver -/

theorem acts_receive (s : State) (f : RxFrame) : Acts c s (s.updKli fun k => k.receive f) := by
  refine acts_updKli s _ fun k => ?_
  unfold Kli.receive
  split
  · rename_i room
    dsimp only [Config.rxFrames] at room
    refine ⟨?_, rfl, rfl, rfl, rfl, rfl⟩
    simp only [List.length_append, List.length_singleton]
    omega
  · exact ⟨le_max_left _ _, rfl, rfl, rfl, rfl, rfl⟩

theorem acts_partialRx (s : State) (b : List Byte) : Acts c s (s.updKli fun k => { k with partialRx := b }) :=
  acts_updKli s _ fun _ => ⟨le_max_left _ _, rfl, rfl, rfl, rfl, rfl⟩

theorem runs_kioskFrameComplete (n : Byte) (b : List Byte) (x : BitVec 16) (s : State) :
    Runs (Instr.kioskFrameComplete n b x) s := by
  have arm : exec (.kioskFrameComplete n b x) s = execKioskFrameComplete n b x s := rfl
  unfold execKioskFrameComplete at arm
  split at arm
  · split at arm
    · split at arm
      · exact ⟨_, arm, acts_receive s _⟩
      · exact ⟨_, arm, .refl s⟩
    · exact ⟨_, arm, acts_partialRx s _⟩
  · exact ⟨_, arm, .refl s⟩

theorem runs_unknownRequestKind (h : ReqHead) (k : Byte) (p : List Byte) (s : State) :
    Runs (Instr.unknownRequestKind h k p) s :=
  .ite rfl (fun _ => (acts_beginRequest s h).trans (acts_reply _ _ _ _ _)) fun _ => .refl s

/-! ### The supply and the clock -/

theorem runs_mainsGoodChange (v : Bool) (s : State) : Runs (Instr.mainsGoodChange v) s :=
  .of rfl ((Acts.one (.levels s v s.scu.batteryLow ⟨v, .inl rfl⟩)).trans (acts_decideMode _ (.inl ⟨v, .inl rfl⟩)))

theorem runs_batteryLowChange (v : Bool) (s : State) : Runs (Instr.batteryLowChange v) s :=
  .of rfl ((Acts.one (.levels s s.scu.mainsGood v ⟨v, .inr rfl⟩)).trans (acts_decideMode _ (.inl ⟨v, .inr rfl⟩)))

theorem runs_minuteTick (s : State) : Runs .minuteTick s := by
  refine .ite rfl (fun room => ?_) fun _ => .refl s
  have ticked : Acts .minuteTick s (s.updScu Scu.ticked) := by
    refine .one (.scu s _ ⟨rfl, rfl, rfl, rfl, rfl, rfl, rfl, fun ⟨_, hp⟩ => ?_⟩)
    have room' : s.scu.minute < 4294967295 := room
    simp only [Scu.ticked]
    exact ⟨by omega, by split <;> omega⟩
  split
  · exact ticked
  · exact ticked.trans (acts_handOn _ _)

theorem runs_restart (h : ReqHead) (p : List Byte) (s : State) : Runs (Instr.restart h p) s :=
  .request rfl fun _ u => acts_startup u (fun x => { x with restartDue := true })
    fun _ => ⟨rfl, rfl, rfl, rfl, rfl, rfl, rfl, rfl, rfl⟩

/-! ### The column links -/

theorem acts_bindDue (s : State) (l serial : Nat) (p : Pass) (at_ : (s.link l).enumPass = some p) :
    Acts c s (s.updLink l fun x => { x with enumPass := some { p with bindDue := some serial } }) := by
  refine .one (.link s l _ ⟨rfl, .refl _, .refl _, fun _ => .refl _, fun ok q hq => ?_⟩)
  cases hq
  exact ok p at_

theorem State.enumPass_endExchange (s : State) (l : Nat) (e : LastExchange) :
    ((s.endExchange l e).link l).enumPass = (s.link l).enumPass := by
  unfold State.endExchange
  rw [State.link_updLink]
  split <;> rfl

theorem runs_claim (l serial k chan cur : Nat) (s : State) : Runs (Instr.claim l serial k chan cur) s := by
  have arm : exec (.claim l serial k chan cur) s = execClaim l serial k chan cur s := rfl
  unfold execClaim at arm
  split at arm
  · dsimp only at arm
    have ended := acts_endExchange (c := .claim l serial k chan cur) s l .step
    split at arm
    · exact ⟨_, arm, ended⟩
    · rename_i p at_
      split at arm
      · exact ⟨_, arm, ((ended.trans (acts_bindDue _ l serial p
          ((State.enumPass_endExchange s l .step).trans at_))).trans (acts_applyClaim _ _ _ _ _ _)).trans (acts_pass _)⟩
      · exact ⟨_, arm, ended.trans (acts_endRound _ l)⟩
  · exact ⟨_, arm, .refl s⟩

theorem runs_boardStatus (l k : Nat) (rs : List Reading) (done : Bool) (s : State) :
    Runs (Instr.boardStatus l k rs done) s := by
  have arm : exec (.boardStatus l k rs done) s = execBoardStatus l k rs done s := rfl
  unfold execBoardStatus at arm
  split at arm
  · dsimp only at arm
    split at arm
    · exact ⟨_, arm, ((acts_endExchange s l _).trans (acts_takeStatus _ l k rs done)).trans (acts_pass _)⟩
    · exact ⟨_, arm, acts_endExchange s l _⟩
  · exact ⟨_, arm, .refl s⟩

theorem runs_strikeAck (l : Nat) (s : State) : Runs (Instr.strikeAck l) s := by
  have arm : exec (.strikeAck l) s = execStrikeAck l s := rfl
  unfold execStrikeAck at arm
  split at arm
  · exact ⟨_, arm, (acts_endExchange s l _).trans (acts_strikeAcked _ l _ ⟨l, rfl⟩)⟩
  · exact ⟨_, arm, .refl s⟩

theorem runs_boardBusy (l : Nat) (s : State) : Runs (Instr.boardBusy l) s :=
  .ite rfl (fun _ => ((acts_endExchange s l _).trans (acts_strikeFailed _ l)).trans (acts_pass _)) fun _ => .refl s

theorem runs_noChannel (l : Nat) (s : State) : Runs (Instr.noChannel l) s :=
  .ite rfl (fun _ => ((acts_endExchange s l _).trans (acts_strikeNoChannel _ l)).trans (acts_pass _)) fun _ => .refl s

theorem runs_boardResponseTimeout (l : Nat) (s : State) : Runs (Instr.boardResponseTimeout l) s := by
  have arm : exec (.boardResponseTimeout l) s = execBoardResponseTimeout l s := rfl
  unfold execBoardResponseTimeout at arm
  split at arm
  · exact ⟨_, arm, .refl s⟩
  · dsimp only at arm
    split at arm
    · exact ⟨_, arm, ((acts_endExchange s l _).trans (acts_endPass _ l _)).trans (acts_pass _)⟩
    · exact ⟨_, arm, acts_endExchange s l _⟩
  · exact ⟨_, arm, ((acts_endExchange s l _).trans (acts_endRound _ l)).trans (acts_pass _)⟩
  · exact ⟨_, arm, ((acts_endExchange s l _).trans (acts_pollMissed _ l _)).trans (acts_pass _)⟩
  · exact ⟨_, arm, ((acts_endExchange s l _).trans (acts_strikeFailed _ l)).trans (acts_pass _)⟩

theorem runs_rollCallTimerExpiry (l : Nat) (s : State) : Runs (Instr.rollCallTimerExpiry l) s :=
  .ite rfl (fun _ => acts_beginPass s l (fun x => x) _ (Nat.zero_le _) fun _ => ⟨rfl, rfl, rfl, rfl⟩) fun _ => .refl s

theorem runs_strikeDoneGraceExpiry (l : Nat) (s : State) : Runs (Instr.strikeDoneGraceExpiry l) s := by
  have arm : exec (.strikeDoneGraceExpiry l) s = execStrikeDoneGraceExpiry l s := rfl
  unfold execStrikeDoneGraceExpiry at arm
  split at arm
  · rename_i k _
    split at arm
    · refine ⟨_, arm, Acts.trans ?_ (acts_pass _)⟩
      have reported := (acts_dropStrike (c := .strikeDoneGraceExpiry l) s l).trans 
        (acts_reportFault _ .DONE_MISSING l k.slot (some k.channel) (some k.comp))
      split
      · exact reported
      · exact reported.trans (acts_strikeEnd _ _ _)
    · exact ⟨_, arm, .refl s⟩
  · exact ⟨_, arm, .refl s⟩

theorem runs_strikeDurationExpiry (l : Nat) (s : State) : Runs (Instr.strikeDurationExpiry l) s := by
  have arm : exec (.strikeDurationExpiry l) s = execStrikeDurationExpiry l s := rfl
  unfold execStrikeDurationExpiry at arm
  split at arm
  · rename_i k at_
    split at arm
    · split at arm
      · exact ⟨_, arm, (acts_dropStrike s l).trans (acts_pass _)⟩
      · exact ⟨_, arm, acts_strike s l _ at_ fun _ _ => ⟨⟨_, rfl, rfl⟩, rfl, rfl, rfl, rfl⟩⟩
    · exact ⟨_, arm, .refl s⟩
  · exact ⟨_, arm, .refl s⟩

/-! ### The cycle timers -/

theorem runs_openWaitExpiry (job : Nat) (s : State) : Runs (Instr.openWaitExpiry job) s := by
  have arm : exec (.openWaitExpiry job) s = execOpenWaitExpiry job s := rfl
  unfold execOpenWaitExpiry at arm
  split at arm
  · rename_i o ho
    split at arm
    · exact ⟨_, arm, (acts_endOp s o _ _ (State.lists_of_opByJob ho)).trans (acts_pass _)⟩
    · exact ⟨_, arm, .refl s⟩
  · exact ⟨_, arm, .refl s⟩

theorem runs_confirmLimitExpiry (job : Nat) (s : State) : Runs (Instr.confirmLimitExpiry job) s := by
  have arm : exec (.confirmLimitExpiry job) s = execConfirmLimitExpiry job s := rfl
  unfold execConfirmLimitExpiry at arm
  split at arm
  · rename_i o ho
    split at arm
    · exact ⟨_, arm, (acts_endOp s o _ _ (State.lists_of_opByJob ho)).trans (acts_pass _)⟩
    · exact ⟨_, arm, .refl s⟩
  · exact ⟨_, arm, .refl s⟩

theorem runs_ajarLimitExpiry (job : Nat) (s : State) : Runs (Instr.ajarLimitExpiry job) s := by
  have arm : exec (.ajarLimitExpiry job) s = execAjarLimitExpiry job s := rfl
  unfold execAjarLimitExpiry at arm
  split at arm
  · rename_i o ho
    split at arm
    · refine ⟨_, arm, ?_⟩
      have stopped : ∀ b : Bool, Acts (.ajarLimitExpiry job) s
          (s.updOp job fun o => { o with ajar := none, ajarPosted := o.ajarPosted || b }) := fun b =>
        acts_updOp s job _ (fun _ => ⟨rfl, rfl, rfl, rfl, rfl⟩) fun _ => .inl rfl
      split
      · exact (stopped _).trans (acts_post _ _)
      · exact stopped _
    · exact ⟨_, arm, .refl s⟩
  · exact ⟨_, arm, .refl s⟩

/-! ### The payment bus -/

theorem runs_chargeTaken (r : Nat) (s : State) : Runs (Instr.chargeTaken r) s := by
  have arm : exec (.chargeTaken r) s = execChargeTaken r s := rfl
  unfold execChargeTaken at arm
  split at arm
  · exact ⟨_, arm, (acts_busAnswered s r _).trans (acts_charge _ r _)⟩
  · exact ⟨_, arm, .refl s⟩

/-- An owed message that stood in an outgoing list joins its tail again. -/
theorem Reader.enlist_unlist_listOk {x : Reader} {m : BusMsg} (hm : m.isOwed = true) (due : m ∈ x.outgoing)
    (h : x.listOk = true) : ((x.unlist m).enlist m).listOk = true := by
  rcases Reader.listOk_cases h with e | ⟨a, e, -⟩ | ⟨a, b, e, ha, hb⟩
  · simp [e] at due
  · obtain rfl : m = a := by simpa [e] using due
    simp [Reader.enlist, Reader.unlist, Reader.listOk, e, hm]
  · have other : a ≠ m := fun same => by simp [same, BusMsg.not_ack_of_owed hm] at ha
    obtain rfl : m = b := by simpa [e, Ne.symm other] using due
    simp [Reader.enlist, Reader.unlist, Reader.listOk, e, hm, List.erase_cons_tail, other, ha]

theorem acts_answeredAgain (s : State) (r : Nat) (m : BusMsg) (hm : m.isOwed = true)
    (due : m ∈ (s.reader r).outgoing) :
    Acts c s (((s.busAnswered r m).updReader r fun x => x.notOffered m).updReader r fun x => x.enlist m) := by
  unfold State.busAnswered
  rw [State.updReader_updReader, State.updReader_updReader]
  have freed : Acts c s (s.updPbc fun p => { p with line := none, retry := none, lastReader := r }) :=
    acts_updPbc s _ fun _ => ⟨rfl, .refl _, rfl⟩
  refine freed.then (.reader _ r _ fun ⟨ok, _⟩ => ⟨?_, Nat.zero_le _⟩)
  exact Reader.enlist_unlist_listOk (x := s.reader r) hm due ok

theorem runs_readerBusy (r : Nat) (s : State) : Runs (Instr.readerBusy r) s := by
  have arm : exec (.readerBusy r) s = execReaderBusy r s := rfl
  unfold execReaderBusy at arm
  split at arm
  · rename_i m _
    split at arm
    · rename_i owed
      refine ⟨_, arm, ?_⟩
      split
      · rename_i due
        exact acts_answeredAgain s r m owed (by simpa using due)
      · exact (acts_busAnswered s r m).trans (acts_charge _ r _)
    · exact ⟨_, arm, .refl s⟩
  · exact ⟨_, arm, .refl s⟩

theorem runs_nothingYet (r : Nat) (s : State) : Runs (Instr.nothingYet r) s := by
  have arm : exec (.nothingYet r) s = execNothingYet r s := rfl
  unfold execNothingYet at arm
  split at arm
  · exact ⟨_, arm, (acts_busAnswered s r _).trans (acts_backOnBus _ r _)⟩
  · exact ⟨_, arm, acts_busAnswered s r _⟩
  · exact ⟨_, arm, .refl s⟩

theorem runs_result (r ref : Nat) (res : PayResult) (app : Text) (s : State) : Runs (Instr.result r ref res app) s := by
  have arm : exec (.result r ref res app) s = execResult r ref res app s := rfl
  unfold execResult at arm
  split at arm
  · split at arm
    · exact ⟨_, arm, (((acts_busAnswered s r _).trans (acts_takeResult _ r ref res app)).trans
        (acts_backOnBus _ r _)).trans (acts_pass _)⟩
    · exact ⟨_, arm, .refl s⟩
  · exact ⟨_, arm, .refl s⟩

theorem runs_abandoned (r : Nat) (s : State) : Runs (Instr.abandoned r) s := by
  have arm : exec (.abandoned r) s = execAbandoned r s := rfl
  unfold execAbandoned at arm
  split at arm
  · dsimp only at arm
    split at arm
    · exact ⟨_, arm, (((acts_busAnswered s r _).trans (acts_dropCharge _ r)).trans (acts_dropParcelRef _ _ _)).trans
        (acts_restReader _ r)⟩
    · exact ⟨_, arm, acts_busAnswered s r _⟩
  · exact ⟨_, arm, .refl s⟩

theorem runs_reversed (r : Nat) (s : State) : Runs (Instr.reversed r) s := by
  have arm : exec (.reversed r) s = execReversed r s := rfl
  unfold execReversed at arm
  split at arm
  · exact ⟨_, arm, (acts_busAnswered s r _).trans (acts_reversalEnd _ r _ _)⟩
  · exact ⟨_, arm, .refl s⟩

theorem runs_reverseFailed (r : Nat) (s : State) : Runs (Instr.reverseFailed r) s := by
  have arm : exec (.reverseFailed r) s = execReverseFailed r s := rfl
  unfold execReverseFailed at arm
  split at arm
  · exact ⟨_, arm, (acts_busAnswered s r _).trans (acts_reversalEnd _ r _ _)⟩
  · exact ⟨_, arm, .refl s⟩

/-- A reader that leaves a message unanswered (R150, R154). -/
def Reader.missed (x : Reader) (m : BusMsg) : Reader :=
  { x with unanswered := x.unanswered + 1,
           charge := x.charge.map fun c =>
             if m = .CHARGE c.ref c.amount ∧ c.phase = .OFFERED then { c with offer := true } else c }

theorem State.unanswered_missed (s : State) (r : Nat) (m : BusMsg) :
    ((s.updReader r fun x => x.missed m).reader r).unanswered = (s.reader r).unanswered + 1 ∨
      s.reader r = Reader.empty := by
  rw [State.reader_updReader]
  split
  · exact .inl rfl
  · exact .inr (tget_outside _ _ (by omega))

theorem runs_readerResponseTimeout (r : Nat) (s : State) : Runs (Instr.readerResponseTimeout r) s := by
  have arm : exec (.readerResponseTimeout r) s = execReaderResponseTimeout r s := rfl
  unfold execReaderResponseTimeout at arm
  split at arm
  · exact ⟨_, arm, .refl s⟩
  · rename_i m _
    have freed : Acts (.readerResponseTimeout r) s
        (s.updPbc fun p => { p with line := none, retry := none, lastReader := r }) :=
      acts_updPbc s _ fun _ => ⟨rfl, .refl _, rfl⟩
    dsimp only at arm
    split at arm
    · split at arm
      · refine ⟨_, arm, Acts.trans (Acts.trans ?_ (acts_readerLost _ r)) (acts_pass _)⟩
        rw [State.updReader_updReader]
        exact freed.trans (.one (.reader _ r (fun x => (x.missed m).lost) fun h =>
          ⟨Reader.listOk_sublist h.1 List.filter_sublist, Nat.zero_le _⟩))
      · rename_i room
        refine ⟨_, arm, Acts.trans (freed.trans (.one (.reader _ r (fun x => x.missed m) fun h => ⟨h.1, ?_⟩)))
          (acts_updPbc _ (fun p => { p with retry := some (r, m) }) fun _ => ⟨rfl, .refl _, rfl⟩)⟩
        rcases State.unanswered_missed (s.updPbc fun p => { p with line := none, retry := none, lastReader := r }) r m
          with e | e
        · exact Nat.le_of_lt_succ (e.symm.trans_lt (Nat.lt_of_not_le room))
        · rw [e]
          exact (by decide : 0 + 1 ≤ 2)
    · exact ⟨_, arm, freed⟩

theorem runs_paymentTimeout (r : Nat) (s : State) : Runs (Instr.paymentTimeout r) s := by
  have arm : exec (.paymentTimeout r) s = execPaymentTimeout r s := rfl
  unfold execPaymentTimeout at arm
  split at arm
  · split at arm
    · exact ⟨_, arm, ((acts_endJob s _ _).trans (acts_abandonCharge _ r)).trans (acts_pass _)⟩
    · exact ⟨_, arm, .refl s⟩
  · exact ⟨_, arm, .refl s⟩

/-! ### Every command -/

theorem exec_runs (c : Instr) (s : State) : Runs c s := by
  cases c with
  | status h p => exact .request rfl fun _ u => .refl u
  | fetchEvents h p => exact .request rfl fun n u => acts_fetch u n
  | eventMask h p => exact .request rfl fun m u => .one (.mask u m ⟨h, p, rfl⟩)
  | timeSet h p => exact .request rfl fun w u => acts_timeSet u w ⟨h, p, rfl⟩
  | clockAdvance h p => exact .request rfl fun n u => acts_clockAdvance u n
  | mode h p => exact .request rfl fun m u => acts_setBase u m ⟨h, p, rfl⟩
  | quote h p => exact .request rfl fun q u => acts_quoteFor u q
  | readCompartment h p => exact .request rfl fun n u => by split <;> exact .refl u
  | findParcel h p => exact .request rfl fun q u => acts_findParcel u q
  | holdMap h p => exact .request rfl fun _ u => .refl u
  | listBoards h p => exact .request rfl fun _ u => .refl u
  | readFaultCapture h p => exact .request rfl fun _ u => .refl u
  | restart h p => exact runs_restart h p s
  | collect h p => exact .request rfl fun n u => acts_collect u _ n
  | pay h p => exact .request rfl fun n u => acts_payFee u _ n
  | returnDrop h p => exact .request rfl fun d u => acts_returnDrop u _ d
  | reserve h p => exact .request rfl fun r u => acts_reserve u r
  | reservationRelease h p => exact .request rfl fun r u => acts_release u r
  | deposit h p => exact .request rfl fun d u => acts_deposit u _ d
  | tag h p => exact .request rfl fun r u => acts_asCourier u _ _ fun k => acts_tagRange u k r
  | untag h p => exact .request rfl fun n u => acts_asCourier u _ _ fun k => acts_untagOne u k n
  | sweep h p => exact .request rfl fun _ u => acts_asCourier u _ _ fun k => acts_sweepRun u k
  | sweepCancel h p => exact .request rfl fun _ u => acts_asCourier u _ _ fun k => acts_sweepStop u k
  | serviceOpen h p => exact .request rfl fun n u => acts_serviceOpen u n
  | serviceRemove h p => exact .request rfl fun n u => acts_serviceRemove u n
  | clearFault h p => exact .request rfl fun n u => acts_clearFault u n
  | hold h p => exact .request rfl fun t u => acts_hold u t ⟨h, p, rfl⟩
  | holdRelease h p => exact .request rfl fun t u => acts_holdRelease u t ⟨h, p, rfl⟩
  | setOutOfService h p => exact .request rfl fun n u => acts_setOut u n
  | reinstate h p => exact .request rfl fun n u => acts_reinstate u n
  | setClass h p => exact .request rfl fun x u => acts_setClass u x.1 x.2
  | sectionDefine h p => exact .request rfl fun r u => acts_define u r ⟨h, p, rfl⟩
  | sectionEnable h p => exact .request rfl fun x u => acts_enable u x.1 x.2 ⟨h, p, rfl⟩
  | mapWrite h p => exact .request rfl fun x u => acts_mapWrite u x.1 x.2 ⟨h, p, rfl⟩
  | boardAccept h p => exact .request rfl fun x u => acts_boardAccept u x.1 x.2
  | linkReset h p => exact .request rfl fun l u => acts_linkReset u l
  | tariffLoad h p => exact .request rfl fun x u => acts_tariffLoad u x.1 x.2 ⟨h, p, rfl⟩
  | tariffSchedule h p => exact .request rfl fun x u => acts_schedule u x.1 x.2
  | config h p => exact .request rfl fun v u => acts_configure u v ⟨h, p, rfl⟩
  | clearFaultCapture h p => exact .request rfl fun _ u => acts_clearCapture u
  | factoryClear h p => exact .request rfl fun _ u => acts_factoryClear u ⟨h, p, rfl⟩
  | unknownRequestKind h k p => exact runs_unknownRequestKind h k p s
  | kioskFrameComplete n b x => exact runs_kioskFrameComplete n b x s
  | frameGapTimeout b => exact .of rfl (acts_partialRx s _)
  | mainsGoodChange v => exact runs_mainsGoodChange v s
  | batteryLowChange v => exact runs_batteryLowChange v s
  | powerOn i => exact .of rfl (.one (.restart s i _ (.inl rfl)))
  | brownout i => exact .of rfl (.one (.restart s i _ (.inr (.inl rfl))))
  | hostRestart i => exact .of rfl (.one (.restart s i _ (.inr (.inr rfl))))
  | minuteTick => exact runs_minuteTick s
  | linkExchangeStart l => exact .ite rfl (fun _ => acts_chooseExchange s l) fun _ => .refl s
  | rollCallBid l n => exact .ite rfl (fun _ => acts_line s l _) fun _ => .refl s
  | claim l n k x y => exact runs_claim l n k x y s
  | boardStatus l k rs d => exact runs_boardStatus l k rs d s
  | strikeAck l => exact runs_strikeAck l s
  | boardBusy l => exact runs_boardBusy l s
  | noChannel l => exact runs_noChannel l s
  | boardResponseTimeout l => exact runs_boardResponseTimeout l s
  | rollCallTimerExpiry l => exact runs_rollCallTimerExpiry l s
  | strikeDoneGraceExpiry l => exact runs_strikeDoneGraceExpiry l s
  | strikeDurationExpiry l => exact runs_strikeDurationExpiry l s
  | openWaitExpiry j => exact runs_openWaitExpiry j s
  | ajarLimitExpiry j => exact runs_ajarLimitExpiry j s
  | confirmLimitExpiry j => exact runs_confirmLimitExpiry j s
  | busExchangeStart => exact .ite rfl (fun _ => acts_chooseBus s) fun _ => .refl s
  | chargeTaken r => exact runs_chargeTaken r s
  | readerBusy r => exact runs_readerBusy r s
  | nothingYet r => exact runs_nothingYet r s
  | result r ref x t => exact runs_result r ref x t s
  | abandoned r => exact runs_abandoned r s
  | reversed r => exact runs_reversed r s
  | reverseFailed r => exact runs_reverseFailed r s
  | readerResponseTimeout r => exact runs_readerResponseTimeout r s
  | readerPollTimerExpiry r => exact .ite rfl (fun _ => acts_pollTimer s r _) fun _ => .refl s
  | paymentTimeout r => exact runs_paymentTimeout r s
  | auditLimitExpiry => exact .ite rfl (fun _ => acts_endAudit s) fun _ => .refl s
  | frameLengthDiscard n => exact .ite rfl (fun _ => .refl s) fun _ => acts_partialRx s _

end Sys2Proof.Machine
end

