-- ==== Sys2Proof/Proofs/Standing.lean ====
section
/-! The standing properties of the queue, the Kiosk Link Interface, the supply and the directory, and who may change
what: each a case analysis over the acts. -/

namespace Sys2Proof.Machine

open Sys2Proof

variable {c : Instr}

/-! ### From the acts to a step -/

/-- A property that every act keeps is kept by a chain of acts. -/
theorem Acts.keep {P : State → Prop} (h : ∀ s t, Act c s t → P s → P t) {s t : State} (a : Acts c s t) : P s → P t := by
  intro hs
  induction a with
  | refl => exact hs
  | tail _ b ih => exact h _ _ b ih

/-- A reading that every act leaves is left by a chain of acts. -/
theorem Acts.same {α : Type} {g : State → α} (h : ∀ s t, Act c s t → g t = g s) {s t : State} (a : Acts c s t) :
    g t = g s :=
  Acts.keep (P := fun u => g u = g s) (fun _ _ b e => (h _ _ b).trans e) a rfl

/-- What a step does: nothing, or the acts of the command at the front of the queue. -/
theorem step_acts {s t : State} (h : step s = .next t) :
    s.pending = [] ∧ t = s ∨ ∃ c cs, s.pending = c :: cs ∧ exec c { s with pending := cs } = .next t ∧
      Acts c { s with pending := cs } t := by
  unfold step at h
  split at h
  · rename_i e
    exact .inl ⟨e, (Host.Outcome.next.inj h).symm⟩
  · rename_i c cs e
    obtain ⟨v, hv, a⟩ := exec_runs c { s with pending := cs }
    cases Host.Outcome.next.inj (hv.symm.trans h)
    exact .inr ⟨c, cs, e, hv, a⟩

/-- A property of the state without its queue that every command keeps is kept by every step. -/
theorem step_keep {P : State → Prop} (queue : ∀ (s : State) (cs : List Instr), P s → P { s with pending := cs })
    (h : ∀ (c : Instr) (s t : State), exec c s = .next t → Acts c s t → P s → P t) {s t : State} (hs : P s)
    (e : step s = .next t) : P t := by
  rcases step_acts e with ⟨-, rfl⟩ | ⟨c, cs, -, ex, a⟩
  · exact hs
  · exact h c _ _ ex a (queue s cs hs)

/-- A property that every act keeps is kept by every step. -/
theorem step_keep_acts {P : State → Prop} (queue : ∀ (s : State) (cs : List Instr), P s → P { s with pending := cs })
    (h : ∀ (c : Instr) (s t : State), Act c s t → P s → P t) {s t : State} (hs : P s) (e : step s = .next t) : P t :=
  step_keep queue (fun c _ _ _ a => Acts.keep (h c) a) hs e

/-! ### The blocks that an act of several blocks leaves -/

theorem State.retire_eq (s : State) (n : Nat) : s.retire n =
    { s with comps := (s.retire n).comps, alloc := (s.retire n).alloc, tariff := (s.retire n).tariff } := by
  unfold State.retire
  dsimp only
  split
  · rfl
  · rename_i p _
    unfold State.releasePage
    cases p.code <;> cases p.page <;> rfl

theorem State.undo_eq (s : State) (n : Nat) : (s.undo n).1 =
    { s with comps := (s.undo n).1.comps, tariff := (s.undo n).1.tariff } := by
  unfold State.undo
  dsimp only
  split
  · rfl
  · rename_i p _
    unfold State.releasePage
    split
    · split <;> cases p.page <;> rfl
    · cases p.page <;> rfl

theorem State.createOp_eq {s t : State} {pu : Purpose} {st n u job : Nat} {a : Addr} {g : Stage}
    (h : s.createOp pu st n a u g = some (t, job)) : t = { s with hce := t.hce, links := t.links } := by
  unfold State.createOp at h
  split at h
  · dsimp only at h
    split at h <;> cases h <;> rfl
  · cases h

theorem State.dropStrike_eq (s : State) (l : Nat) :
    s.dropStrike l = { s with links := (s.dropStrike l).links, arb := (s.dropStrike l).arb } := by
  unfold State.dropStrike
  split <;> rfl

theorem State.updSide_eq (s : State) (k : Courier) (f : SweepSide → SweepSide) :
    s.updSide k f = { s with swu := (s.updSide k f).swu } := rfl

theorem State.restartWith_eq (s : State) (i : RestartInputs) (k : ResetCause) :
    (s.restartWith i k).sects = s.sects ∧ (s.restartWith i k).hatchMap = s.hatchMap ∧
    (s.restartWith i k).capture = s.capture ∧ (s.restartWith i k).alloc = s.alloc ∧
    (s.restartWith i k).tariff = s.tariff ∧ (s.restartWith i k).pending = s.pending ∧
    (s.restartWith i k).scu = s.scu.restarted i k ∧
    (s.restartWith i k).comps = s.comps.map (fun c => { c with tagOwner := none }) ∧
    (s.restartWith i k).hce = { ops := [], lastJob := 0 } ∧
    (s.restartWith i k).swu = { k1 := SweepSide.idle, k2 := SweepSide.idle } ∧
    (s.restartWith i k).gates = Vector.replicate 4 { wrong := [], lockout := none } ∧
    (s.restartWith i k).arb = { capacity := capacityOf i.straps (s.scu.restarted i k).mode, granted := 0, turn := 1 } ∧
    (s.restartWith i k).links =
      s.links.mapFinIdx (fun j x _ => x.restarted (decide (j + 1 ≤ i.straps.links.count))) ∧
    (s.restartWith i k).pbc = ⟨s.pbc.readers.map Reader.restarted, s.pbc.reversals, s.pbc.refCounter, none, none, 0⟩ := by
  unfold State.restartWith
  dsimp only
  split <;> exact ⟨rfl, rfl, rfl, rfl, rfl, rfl, rfl, rfl, rfl, rfl, rfl, rfl, rfl, rfl⟩

/-! ### The queue of the commands -/

theorem Act.pending {s t : State} (a : Act c s t) : t.pending = s.pending := by
  cases a with
  | retire n => exact (kept_retire s n).pending
  | undo n => exact (kept_undo s n).pending
  | create _ _ _ _ _ _ _ _ made => exact (kept_createOp made).pending
  | dropStrike l => exact (kept_dropStrike s l).pending
  | restart i k => exact (s.restartWith_eq i k).2.2.2.2.2.1
  | _ => rfl

/-- Settles O2: every act leaves the queue, and every command is a chain of acts. -/
theorem everyCommandCompletes : Obligations.EveryCommandCompletes := by
  intro c s
  obtain ⟨t, e, a⟩ := exec_runs c s
  exact ⟨t, e, a.same fun _ _ => Act.pending⟩

/-- Settles O1, by the two branches of the step. -/
theorem stepRunsTheFrontCommand : Obligations.StepRunsTheFrontCommand := by
  constructor
  · intro c cs s h
    unfold step
    rw [h]
  · intro s h
    unfold step
    rw [h]

/-! ### The Kiosk Link Interface -/

theorem Kli.refresh_mask_ok {k : Kli} (m : ClassSet) (h : k.ok) : (Kli.refresh { k with mask := m }).ok := by
  obtain ⟨room, rx, flags, -⟩ := h
  exact ⟨room, rx, flags, Kli.refresh_attention _⟩

theorem Kli.restarted_ok (k : Kli) (keep : Bool) : (k.restarted keep).ok := by
  refine ⟨Nat.zero_le _, Nat.zero_le _, fun c => ?_, ?_⟩
  · cases c <;> simp [Kli.restarted, ClassSet.none, ClassSet.get]
  · have nothing : ∀ c, ClassSet.none.get c = false := fun c => by cases c <;> rfl
    simp [Kli.restarted, nothing]

theorem Act.kli_ok {s t : State} (a : Act c s t) (h : s.kli.ok) : t.kli.ok := by
  cases a with
  | kli f ok mask => exact ok h
  | mask m => exact Kli.refresh_mask_ok m h
  | factory => exact Kli.refresh_mask_ok _ h
  | retire n => exact (congrArg State.kli (s.retire_eq n) :) ▸ h
  | undo n => exact (congrArg State.kli (s.undo_eq n) :) ▸ h
  | create _ _ _ _ _ _ _ _ made => exact (congrArg State.kli (State.createOp_eq made) :) ▸ h
  | dropStrike l => exact (congrArg State.kli (s.dropStrike_eq l) :) ▸ h
  | restart i k =>
    unfold State.restartWith
    dsimp only
    split
    · exact Kli.post_ok (Kli.restarted_ok _ _) _
    · exact Kli.restarted_ok _ _
  | _ => exact h

/-- Settles O3: each act keeps the queue, its flags and ATTENTION consistent. -/
theorem kioskLinkInvariantKept : Obligations.KioskLinkInvariantKept := by
  intro s t
  exact step_keep_acts (P := fun u => u.kli.ok) (fun _ _ => id) (fun _ _ _ => Act.kli_ok)

/-! ### The board directory -/

theorem State.slot_updLink_holds {s : State} {l : Nat} {f : Link → Link} (h : (s.link l).Holds (f (s.link l)))
    (m k : Nat) : (s.slot m k).Holds ((s.updLink l f).slot m k) := by
  unfold State.slot
  rw [State.link_updLink]
  split
  · rename_i e
    exact e.1 ▸ h.slots k
  · exact .refl _

theorem Kept.slot_holds {s t : State} (h : Kept s t) (l k : Nat) : (s.slot l k).Holds (t.slot l k) := by
  have same : t.slot l k = s.slot l k := by
    unfold State.slot Link.slotAt
    rw [(h.link l).1]
  exact same ▸ .refl _

/-- A table made entry by entry, read at one of its numbers. -/
theorem tget_mapFinIdx {α : Type} {n : Nat} (v : Vector α n) (d : α) (f : (i : Nat) → α → i < n → α) (k : Nat) :
    (∃ j, ∃ hj : j < n, k = j + 1 ∧ tget (v.mapFinIdx f) d k = f j (tget v d k) hj) ∨
      (k = 0 ∨ n < k) ∧ tget (v.mapFinIdx f) d k = d := by
  by_cases h : k = 0 ∨ n < k
  · exact .inr ⟨h, tget_outside _ _ h⟩
  · obtain ⟨j, rfl⟩ : ∃ j, k = j + 1 := ⟨k - 1, by omega⟩
    have hj : j < n := by omega
    exact .inl ⟨j, hj, rfl, by simp [tget, hj]⟩

theorem Slot.cleared_ok (x : Slot) : x.cleared.ok :=
  ⟨fun h => (nomatch h), fun h => (nomatch h), fun h => (nomatch h)⟩

theorem Slot.empty_ok : Slot.empty.ok := ⟨fun h => (nomatch h), fun h => (nomatch h), fun h => (nomatch h)⟩

/-- A link after a restart, or one outside the table. -/
theorem State.link_restartWith (s : State) (i : RestartInputs) (k : ResetCause) (l : Nat) :
    (∃ b, (s.restartWith i k).link l = (s.link l).restarted b) ∨ (s.restartWith i k).link l = Link.empty := by
  obtain ⟨-, -, -, -, -, -, -, -, -, -, -, -, links, -⟩ := s.restartWith_eq i k
  unfold State.link
  rw [links]
  rcases tget_mapFinIdx s.links Link.empty
    (fun j x _ => x.restarted (decide (j + 1 ≤ i.straps.links.count))) l with ⟨j, _, _, e⟩ | ⟨-, e⟩
  · exact .inl ⟨_, e⟩
  · exact .inr e

theorem Link.slotAt_empty (k : Nat) : Link.empty.slotAt k = Slot.empty := by
  cases k with
  | zero => rfl
  | succ j =>
    unfold Link.slotAt tget Link.empty
    dsimp only
    by_cases h : j < 8 <;> simp [h]

/-- A slot after a restart is the slot cleared, or an empty one. -/
theorem State.slot_restartWith (s : State) (i : RestartInputs) (k : ResetCause) (l j : Nat) :
    (s.restartWith i k).slot l j = (s.slot l j).cleared ∨ (s.restartWith i k).slot l j = Slot.empty := by
  unfold State.slot
  rcases s.link_restartWith i k l with ⟨b, e⟩ | e
  · rw [e]
    have read : ((s.link l).restarted b).slotAt j = _ := tget_map (s.link l).slots Slot.empty Slot.cleared j
    rw [read]
    split
    · exact .inl rfl
    · exact .inr rfl
  · rw [e]
    exact .inr (Link.slotAt_empty j)

/-- An act keeps the state of every slot, or a restart clears it. -/
theorem Act.slot_holds {s t : State} (a : Act c s t) (l k : Nat) :
    (s.slot l k).Holds (t.slot l k) := by
  cases a with
  | link m f holds => exact State.slot_updLink_holds holds l k
  | dropStrike m => exact (kept_dropStrike s m).slot_holds l k
  | grant o => exact (kept_grant s o).slot_holds l k
  | create _ _ _ _ _ _ _ _ made => exact (kept_createOp made).slot_holds l k
  | remove o =>
    exact ((kept_updLink s o.link (fun x => x.leave o.job) fun _ => ⟨rfl, rfl, rfl, rfl, rfl, rfl, rfl, rfl⟩).trans
      (kept_removeOp _ _)).slot_holds l k
  | join o job =>
    exact ((kept_updOp s job fun o => { o with stage := .QUEUED }).trans (kept_updLink _ o.link
      (fun x => { x with prio := x.prio ++ [job] }) fun _ => ⟨rfl, rfl, rfl, rfl, rfl, rfl, rfl, rfl⟩)).slot_holds l k
  | retire n => exact (kept_retire s n).slot_holds l k
  | undo n => exact (kept_undo s n).slot_holds l k
  | restart i r =>
    rcases s.slot_restartWith i r l k with e | e
    · rw [e]
      exact ⟨fun _ => Slot.cleared_ok _, fun _ => Nat.zero_le _⟩
    · rw [e]
      exact ⟨fun _ => Slot.empty_ok, fun _ => Nat.zero_le _⟩
  | _ => exact .refl _

/-- Settles O9: no act leaves a slot in a state without the serial it requires. -/
theorem slotsKeepTheirSerials : Obligations.SlotsKeepTheirSerials := by
  intro s t
  exact step_keep_acts (P := State.slotsOk) (fun _ _ => id) fun _ _ _ a h l k => (a.slot_holds l k).1 (h l k)

end Sys2Proof.Machine
end

