-- ==== Sys2Proof/Proofs/Settings.lean ====
section
/-! The mode and the capacity, and what each retained setting, section, map entry, tariff page and hatch-cycle count is
changed by. -/

namespace Sys2Proof.Machine

open Sys2Proof

variable {c : Instr}

/-! ### Requests and what they keep -/

/-- A property that survives the Kiosk Link Interface, the clearing of a tag list and the owner survives the request. -/
theorem takeRequest_keeps {α : Type} {P : State → Prop} (kli : ∀ u f, P u → P (u.updKli f))
    (tags : ∀ u k, P u → P (u.clearTagList k)) {s : State} {h : ReqHead} {kind : Nat} {p : List Byte} {d : Codec α}
    {owner : α → State → Answer} (ow : ∀ x u, P u → P (owner x u).state) (hs : P s) :
    P (s.takeRequest h kind p d owner) := by
  have replied : ∀ u k st b, P u → P (u.reply h k st b) := fun u k st b hu => by
    unfold State.reply
    exact kli u _ hu
  unfold State.takeRequest
  split
  · unfold State.answerRequest
    have begun : P (s.beginRequest h) := kli s _ hs
    dsimp only
    split
    · exact replied _ _ _ _ begun
    · split
      · exact replied _ _ _ _ begun
      · refine replied _ _ _ _ (ow _ _ ?_)
        unfold State.clearForKind
        split
        · split
          · exact tags _ _ begun
          · exact begun
        · exact begun
  · exact hs

theorem State.clearTagList_eq (s : State) (k : Courier) :
    s.clearTagList k = { s with comps := (s.clearTagList k).comps, swu := (s.clearTagList k).swu } := by
  have folded : ∀ (l : List TagEntry) (u : State),
      l.foldl (fun s e => s.updComp e.comp fun x => { x with tagOwner := none }) u =
        { u with comps := (l.foldl (fun s e => s.updComp e.comp fun x => { x with tagOwner := none }) u).comps } := by
    intro l
    induction l with
    | nil => exact fun _ => rfl
    | cons e l ih =>
      intro u
      rw [List.foldl_cons, ih]
      rfl
  unfold State.clearTagList
  rw [folded]
  rfl

/-! ### The mode (R197) and the capacity (R73) -/

theorem Kept.foldl {α : Type} {f : State → α → State} (h : ∀ s x, Kept s (f s x)) (l : List α) :
    ∀ s, Kept s (l.foldl f s) := by
  induction l with
  | nil => exact fun s => .refl s
  | cons x l ih => exact fun s => (h s x).trans (ih _)

theorem kept_endAllQueued (s : State) : Kept s s.endAllQueued := by
  unfold State.endAllQueued
  exact Kept.foldl (fun s l => kept_endJobs _ _ s) _ s

/-- A decision that changes the mode is followed by ends, passes and top-ups alone. -/
theorem kept_decideMode {s : State} (h : s.modeNow ≠ s.scu.mode) : Kept (s.withMode s.modeNow) s.decideMode := by
  unfold State.decideMode
  dsimp only
  rw [if_neg h]
  have posted := kept_post (s.withMode s.modeNow) ((s.withMode s.modeNow).modeChanged s.scu.mode)
  have passed : ∀ u, Kept (s.withMode s.modeNow) u → Kept (s.withMode s.modeNow)
      (State.pass (if s.modeNow = .DORMANT then u.endAllQueued else u)) := by
    intro u hu
    split
    · exact (hu.trans (kept_endAllQueued u)).trans (kept_pass _)
    · exact hu.trans (kept_pass _)
  split
  · exact (((passed _ posted).trans (kept_topUpEnd _ _)).trans (kept_topUpEnd _ _)).trans (kept_pass _)
  · exact passed _ posted

theorem State.decideMode_same {s : State} (h : s.modeNow = s.scu.mode) : s.decideMode = s := by
  unfold State.decideMode
  rw [if_pos h]

theorem State.decideMode_scu (s : State) : s.decideMode.scu = { s.scu with mode := s.modeNow } := by
  by_cases h : s.modeNow = s.scu.mode
  · rw [State.decideMode_same h, h]
  · exact (kept_decideMode h).scu

/-- The capacity follows the mode (R73). -/
def State.capacityFollows (s : State) : Prop := s.arb.capacity = capacityOf s.scu.straps s.scu.mode

/-- A decision of the mode makes it follow the inputs, whatever it was. -/
theorem State.decideMode_supplyOk {s : State} (h : s.capacityFollows) : s.decideMode.supplyOk := by
  by_cases e : s.modeNow = s.scu.mode
  · rw [State.decideMode_same e]
    exact ⟨e.symm, h⟩
  · have k := kept_decideMode e
    refine ⟨?_, ?_⟩
    · rw [k.scu]
      rfl
    · rw [k.capacity, k.scu]
      rfl

/-! ### Who writes the supply and clock state -/

/-- An act keeps the straps, the inputs, the mode, the base mode and the capacity, or its command is one that may change
them. -/
theorem Act.supply {s t : State} (a : Act c s t)
    (level : ¬∃ v, c = .mainsGoodChange v ∨ c = .batteryLowChange v) (mode : ¬∃ h p, c = .mode h p ∨ c = .factoryClear h p)
    (hs : s.supplyOk) : t.supplyOk := by
  have kept : ∀ {u : State}, Kept s u → u.supplyOk := fun k => by
    unfold State.supplyOk
    rw [k.capacity, k.scu]
    exact hs
  cases a with
  | scu f holds =>
    unfold State.supplyOk
    rw [State.updScu_scu, State.updScu_arb, holds.mode, holds.mainsGood, holds.batteryLow, holds.base, holds.straps]
    exact hs
  | retire n => exact kept (kept_retire s n)
  | undo n => exact kept (kept_undo s n)
  | create _ _ _ _ _ _ _ _ made => exact kept (kept_createOp made)
  | dropStrike l => exact kept (kept_dropStrike s l)
  | levels g b by_ => exact absurd by_ level
  | base b by_ =>
    obtain ⟨h, p, e⟩ := by_
    exact absurd ⟨h, p, .inl e⟩ mode
  | mode m by_ => exact absurd by_ (not_or.mpr ⟨level, mode⟩)
  | factory by_ =>
    obtain ⟨h, p, e⟩ := by_
    exact absurd ⟨h, p, .inr e⟩ mode
  | restart i k =>
    obtain ⟨-, -, -, -, -, -, scu, -, -, -, -, arb, -⟩ := s.restartWith_eq i k
    unfold State.supplyOk
    rw [scu, arb]
    exact ⟨rfl, rfl⟩
  | _ => exact hs

theorem State.supplyOk_clearTagList {s : State} (k : Courier) (h : s.supplyOk) : (s.clearTagList k).supplyOk := by
  rw [State.clearTagList_eq]
  exact h

/-- FACTORY_CLEAR leaves the capacity of the mode it decides again. -/
theorem State.factoryClear_supplyOk {s : State} (h : s.supplyOk) : s.factoryClear.state.supplyOk := by
  unfold State.factoryClear
  split
  · exact h
  · split
    · exact h
    · split
      · exact h
      · dsimp only
        refine State.decideMode_supplyOk ?_
        have start : s.factoryBlocks.capacityFollows := h.2
        have cleared : Acts .minuteTick s.factoryBlocks ((List.range' 1 4).foldl State.clearLink s.factoryBlocks) :=
          Acts.foldl (fun s l => acts_clearLink s l) _ _
        refine Acts.keep (P := State.capacityFollows) (fun u v a hu => ?_) cleared start
        unfold State.capacityFollows at hu ⊢
        cases a with
        | scu f holds =>
          rw [State.updScu_scu, State.updScu_arb, holds.mode, holds.straps]
          exact hu
        | retire n => rw [(kept_retire u n).capacity, (kept_retire u n).scu]; exact hu
        | undo n => rw [(kept_undo u n).capacity, (kept_undo u n).scu]; exact hu
        | create _ _ _ _ _ _ _ _ made => rw [(kept_createOp made).capacity, (kept_createOp made).scu]; exact hu
        | dropStrike l => rw [(kept_dropStrike u l).capacity, (kept_dropStrike u l).scu]; exact hu
        | mode m by_ =>
          rcases by_ with ⟨_, e | e⟩ | ⟨_, _, e | e⟩ <;> cases e
        | restart i k by_ => rcases by_ with e | e | e <;> cases e
        | _ => exact hu

/-- Settles O4: the commands that change an input decide the mode again, every other act keeps it. -/
theorem supplyInvariantKept : Obligations.SupplyInvariantKept := by
  intro s t
  refine step_keep (P := State.supplyOk) (fun _ _ => id) fun c s t e a hs => ?_
  have kli : ∀ (u : State) (f : Kli → Kli), u.supplyOk → (u.updKli f).supplyOk := fun _ _ => id
  have tags : ∀ (u : State) (k : Courier), u.supplyOk → (u.clearTagList k).supplyOk := fun _ k =>
    State.supplyOk_clearTagList k
  by_cases level : ∃ v, c = .mainsGoodChange v ∨ c = .batteryLowChange v
  · obtain ⟨v, rfl | rfl⟩ := level
    · have run := Host.Outcome.next.inj (e : Host.Outcome.next _ = _)
      exact run ▸ State.decideMode_supplyOk hs.2
    · have run := Host.Outcome.next.inj (e : Host.Outcome.next _ = _)
      exact run ▸ State.decideMode_supplyOk hs.2
  · by_cases mode : ∃ h p, c = .mode h p ∨ c = .factoryClear h p
    · obtain ⟨h, p, rfl | rfl⟩ := mode
      · cases Host.Outcome.next.inj e
        refine takeRequest_keeps kli tags (fun m u hu => ?_) hs
        unfold State.setBase
        split
        · exact hu
        · split
          · exact hu
          · exact State.decideMode_supplyOk hu.2
      · cases Host.Outcome.next.inj e
        exact takeRequest_keeps kli tags (fun _ _ => State.factoryClear_supplyOk) hs
    · exact a.keep (fun _ _ b => b.supply level mode) hs

/-! ### Changes by the commands that may make them -/

/-- A reading that only the acts of some commands change is changed by a step of such a command alone. -/
theorem step_changes {α : Type} {g : State → α} {L : Instr → Prop} {s t : State}
    (queue : ∀ cs, g { s with pending := cs } = g s) (h : ∀ c u v, ¬L c → Act c u v → g v = g u) (e : step s = .next t)
    (ne : g t ≠ g s) : ∃ c cs, s.pending = c :: cs ∧ L c := by
  rcases step_acts e with ⟨-, rfl⟩ | ⟨c, cs, front, -, a⟩
  · exact absurd rfl ne
  · refine ⟨c, cs, front, ?_⟩
    by_contra other
    exact ne ((a.same fun u v => h c u v other).trans (queue cs))

theorem Act.keeps_straps {s t : State} (a : Act c s t) (other : ¬∃ i, c = .powerOn i ∨ c = .brownout i ∨ c = .hostRestart i) :
    t.scu.straps = s.scu.straps := by
  cases a with
  | scu f holds => exact holds.straps
  | retire n => exact congrArg _ (kept_retire s n).scu
  | undo n => exact congrArg _ (kept_undo s n).scu
  | create _ _ _ _ _ _ _ _ made => exact congrArg _ (kept_createOp made).scu
  | dropStrike l => exact congrArg _ (kept_dropStrike s l).scu
  | restart i k by_ => exact absurd ⟨i, by_⟩ other
  | _ => rfl

theorem Act.keeps_config {s t : State} (a : Act c s t) (other : ¬∃ h p, c = .config h p ∨ c = .factoryClear h p) :
    t.scu.config = s.scu.config := by
  cases a with
  | scu f holds => exact holds.config
  | retire n => exact congrArg _ (kept_retire s n).scu
  | undo n => exact congrArg _ (kept_undo s n).scu
  | create _ _ _ _ _ _ _ _ made => exact congrArg _ (kept_createOp made).scu
  | dropStrike l => exact congrArg _ (kept_dropStrike s l).scu
  | config v by_ => exact absurd (by_.imp fun _ => Exists.imp fun _ => .inl) other
  | factory by_ => exact absurd (by_.imp fun _ => Exists.imp fun _ => .inr) other
  | restart i k => rw [(s.restartWith_eq i k).2.2.2.2.2.2.1]; rfl
  | _ => rfl

theorem Act.keeps_wallOffset {s t : State} (a : Act c s t) (other : ¬∃ h p, c = .timeSet h p ∨ c = .factoryClear h p) :
    t.scu.wallOffset = s.scu.wallOffset := by
  cases a with
  | scu f holds => exact holds.wallOffset
  | retire n => exact congrArg _ (kept_retire s n).scu
  | undo n => exact congrArg _ (kept_undo s n).scu
  | create _ _ _ _ _ _ _ _ made => exact congrArg _ (kept_createOp made).scu
  | dropStrike l => exact congrArg _ (kept_dropStrike s l).scu
  | offset o by_ => exact absurd (by_.imp fun _ => Exists.imp fun _ => .inl) other
  | factory by_ => exact absurd (by_.imp fun _ => Exists.imp fun _ => .inr) other
  | restart i k => rw [(s.restartWith_eq i k).2.2.2.2.2.2.1]; rfl
  | _ => rfl

theorem Act.keeps_base {s t : State} (a : Act c s t) (other : ¬∃ h p, c = .mode h p ∨ c = .factoryClear h p) :
    t.scu.base = s.scu.base := by
  cases a with
  | scu f holds => exact holds.base
  | retire n => exact congrArg _ (kept_retire s n).scu
  | undo n => exact congrArg _ (kept_undo s n).scu
  | create _ _ _ _ _ _ _ _ made => exact congrArg _ (kept_createOp made).scu
  | dropStrike l => exact congrArg _ (kept_dropStrike s l).scu
  | base o by_ => exact absurd (by_.imp fun _ => Exists.imp fun _ => .inl) other
  | factory by_ => exact absurd (by_.imp fun _ => Exists.imp fun _ => .inr) other
  | restart i k => rw [(s.restartWith_eq i k).2.2.2.2.2.2.1]; rfl
  | _ => rfl

theorem Act.keeps_mask {s t : State} (a : Act c s t) (other : ¬∃ h p, c = .eventMask h p ∨ c = .factoryClear h p) :
    t.kli.mask = s.kli.mask := by
  cases a with
  | kli f ok mask => exact mask
  | retire n => exact (kept_retire s n).mask
  | undo n => exact (kept_undo s n).mask
  | create _ _ _ _ _ _ _ _ made => exact (kept_createOp made).mask
  | dropStrike l => exact (kept_dropStrike s l).mask
  | mask m by_ => exact absurd (by_.imp fun _ => Exists.imp fun _ => .inl) other
  | factory by_ => exact absurd (by_.imp fun _ => Exists.imp fun _ => .inr) other
  | restart i k =>
    unfold State.restartWith
    dsimp only
    split
    · exact Kli.post_mask _ _
    · rfl
  | _ => rfl

/-- Settles O15: the acts that write each setting, and the commands that make them. -/
theorem settingsChangeOnlyByTheirRequests : Obligations.SettingsChangeOnlyByTheirRequests := by
  intro s t e
  refine ⟨fun ne => ?_, fun ne => ?_, fun ne => ?_, fun ne => ?_, fun ne => ?_⟩
  · obtain ⟨_, cs, front, i, rfl | rfl | rfl⟩ :=
      step_changes (g := fun u => u.scu.straps) (fun _ => rfl) (fun _ _ _ o a => a.keeps_straps o) e ne
    exacts [⟨i, cs, .inl front⟩, ⟨i, cs, .inr (.inl front)⟩, ⟨i, cs, .inr (.inr front)⟩]
  · obtain ⟨_, cs, front, h, p, rfl | rfl⟩ :=
      step_changes (g := fun u => u.scu.config) (fun _ => rfl) (fun _ _ _ o a => a.keeps_config o) e ne
    exacts [⟨h, p, cs, .inl front⟩, ⟨h, p, cs, .inr front⟩]
  · obtain ⟨_, cs, front, h, p, rfl | rfl⟩ :=
      step_changes (g := fun u => u.scu.wallOffset) (fun _ => rfl) (fun _ _ _ o a => a.keeps_wallOffset o) e ne
    exacts [⟨h, p, cs, .inl front⟩, ⟨h, p, cs, .inr front⟩]
  · obtain ⟨_, cs, front, h, p, rfl | rfl⟩ :=
      step_changes (g := fun u => u.scu.base) (fun _ => rfl) (fun _ _ _ o a => a.keeps_base o) e ne
    exacts [⟨h, p, cs, .inl front⟩, ⟨h, p, cs, .inr front⟩]
  · obtain ⟨_, cs, front, h, p, rfl | rfl⟩ :=
      step_changes (g := fun u => u.kli.mask) (fun _ => rfl) (fun _ _ _ o a => a.keeps_mask o) e ne
    exacts [⟨h, p, cs, .inl front⟩, ⟨h, p, cs, .inr front⟩]

/-! ### Sections and map entries -/

theorem Act.keeps_sects {s t : State} (a : Act c s t) (other : ¬∃ h p, c = .sectionDefine h p ∨ c = .sectionEnable h p ∨
    c = .hold h p ∨ c = .holdRelease h p ∨ c = .factoryClear h p) : t.sects = s.sects := by
  cases a with
  | retire n => exact (kept_retire s n).sects
  | undo n => exact (kept_undo s n).sects
  | create _ _ _ _ _ _ _ _ made => exact (kept_createOp made).sects
  | dropStrike l => exact (kept_dropStrike s l).sects
  | holdFlag i b by_ =>
    obtain ⟨h, p, e | e⟩ := by_
    exacts [absurd ⟨h, p, .inr (.inr (.inl e))⟩ other, absurd ⟨h, p, .inr (.inr (.inr (.inl e)))⟩ other]
  | sect i f by_ =>
    obtain ⟨h, p, e | e⟩ := by_
    exacts [absurd ⟨h, p, .inl e⟩ other, absurd ⟨h, p, .inr (.inl e)⟩ other]
  | factory by_ =>
    obtain ⟨h, p, e⟩ := by_
    exact absurd ⟨h, p, .inr (.inr (.inr (.inr e)))⟩ other
  | restart i k => exact (s.restartWith_eq i k).1
  | _ => rfl

theorem Act.keeps_hatchMap {s t : State} (a : Act c s t) (other : ¬∃ h p, c = .sectionDefine h p ∨ c = .mapWrite h p ∨
    c = .factoryClear h p) : t.hatchMap = s.hatchMap := by
  cases a with
  | retire n => exact (kept_retire s n).hatchMap
  | undo n => exact (kept_undo s n).hatchMap
  | create _ _ _ _ _ _ _ _ made => exact (kept_createOp made).hatchMap
  | dropStrike l => exact (kept_dropStrike s l).hatchMap
  | mapEntry n v by_ =>
    obtain ⟨h, p, e | e⟩ := by_
    exacts [absurd ⟨h, p, .inl e⟩ other, absurd ⟨h, p, .inr (.inl e)⟩ other]
  | factory by_ =>
    obtain ⟨h, p, e⟩ := by_
    exact absurd ⟨h, p, .inr (.inr e)⟩ other
  | restart i k => exact (s.restartWith_eq i k).2.1
  | _ => rfl

/-- Settles O14: the acts that write a section or a map entry, and the commands that make them. -/
theorem sectionsAndMapChangeOnlyByTheirRequests : Obligations.SectionsAndMapChangeOnlyByTheirRequests := by
  intro s t e
  refine ⟨fun ne => ?_, fun ne => ?_⟩
  · obtain ⟨_, cs, front, h, p, k⟩ := step_changes (g := State.sects) (fun _ => rfl) (fun _ _ _ o a => a.keeps_sects o) e ne
    refine ⟨h, p, cs, ?_⟩
    rcases k with rfl | rfl | rfl | rfl | rfl <;> simp [front]
  · obtain ⟨_, cs, front, h, p, k⟩ :=
      step_changes (g := State.hatchMap) (fun _ => rfl) (fun _ _ _ o a => a.keeps_hatchMap o) e ne
    refine ⟨h, p, cs, ?_⟩
    rcases k with rfl | rfl | rfl <;> simp [front]

/-! ### Tariff pages -/

theorem Act.keeps_pages {s t : State} (a : Act c s t) (other : ¬∃ h p, c = .tariffLoad h p ∨ c = .factoryClear h p) :
    t.tariff.pages = s.tariff.pages := by
  cases a with
  | retire n => exact (kept_retire s n).pages
  | undo n => exact (kept_undo s n).pages
  | create _ _ _ _ _ _ _ _ made => exact (kept_createOp made).pages
  | dropStrike l => exact (kept_dropStrike s l).pages
  | tariff f pages => exact pages
  | storePage i p by_ => exact absurd (by_.imp fun _ => Exists.imp fun _ => .inl) other
  | factory by_ => exact absurd (by_.imp fun _ => Exists.imp fun _ => .inr) other
  | restart i k => rw [(s.restartWith_eq i k).2.2.2.2.1]
  | _ => rfl

/-- A TARIFF_LOAD leaves a page in use, and the grounds of its use. -/
theorem State.tariffLoad_inUse {s : State} (n : Nat) (x : Page) {i : Fin 4} (used : s.pageInUse i = true) :
    (s.tariffLoad n x).state.page i = s.page i ∧ (s.tariffLoad n x).state.pageInUse i = true := by
  unfold State.tariffLoad
  split
  · exact ⟨rfl, used⟩
  · split
    · exact ⟨rfl, used⟩
    · rename_i j _
      split
      · exact ⟨rfl, used⟩
      · rename_i free
        have apart : j.val ≠ i.val := fun e => free (Fin.ext e ▸ used)
        have same : (s.storePage j x.clamped).page i = s.page i := by simp [State.page, State.storePage, apart]
        refine ⟨same, ?_⟩
        unfold State.pageInUse at used ⊢
        rw [same]
        exact used

theorem State.pageInUse_iff (s : State) (i : Fin 4) : s.pageInUse i = true ↔ (s.page i).isSome = true ∧
    (s.tariff.active = i ∨ (∃ w, s.tariff.scheduled = some w ∧ w.page = i) ∨ 0 < s.pageRefs i) := by
  simp [State.pageInUse, State.scheduledPage, Option.any_eq_true, or_assoc]

/-- Settles O13: the acts that write a page, and the test of TARIFF_LOAD. -/
theorem tariffPagesChangeOnlyByLoadAndClear : Obligations.TariffPagesChangeOnlyByLoadAndClear := by
  intro s t i e ne
  have pages : t.tariff.pages ≠ s.tariff.pages := fun same => ne (by unfold State.page; rw [same])
  obtain ⟨_, cs, front, h, p, rfl | rfl⟩ :=
    step_changes (g := fun u => u.tariff.pages) (fun _ => rfl) (fun _ _ _ o a => a.keeps_pages o) e pages
  · refine .inl ⟨h, p, cs, front, ?_⟩
    rw [← State.pageInUse_iff]
    intro used
    refine ne ?_
    have run : t = ({ s with pending := cs } : State).takeRequest h 37 p .loadReq fun x s => s.tariffLoad x.1 x.2 := by
      unfold step at e
      rw [front] at e
      exact (Host.Outcome.next.inj e).symm
    rw [run]
    refine (takeRequest_keeps (s := { s with pending := cs })
      (P := fun u => u.page i = s.page i ∧ u.pageInUse i = true) (fun _ _ => id)
      (fun u k hu => ?_) (fun x u hu => ?_) ⟨rfl, used⟩).1
    · rw [State.clearTagList_eq]
      exact hu
    · obtain ⟨same, still⟩ := State.tariffLoad_inUse x.1 x.2 hu.2
      exact ⟨same.trans hu.1, still⟩
  · exact .inr ⟨h, p, cs, front⟩

/-! ### Hatch-cycle counts -/

theorem State.hatchCount_updComp {s : State} {n : Nat} {f : Compartment → Compartment}
    (h : (f (s.comp n)).hatchCount = (s.comp n).hatchCount) (m : Nat) :
    ((s.updComp n f).comp m).hatchCount = (s.comp m).hatchCount := by
  rw [State.comp_updComp]
  split
  · rename_i e
    rw [h, e.1]
  · rfl

theorem State.comp_map {s t : State} {f : Compartment → Compartment} (h : t.comps = s.comps.map f) (n : Nat) :
    t.comp n = if isComp n then f (s.comp n) else Compartment.factory := by
  unfold State.comp
  rw [h]
  exact tget_map s.comps Compartment.factory f n

theorem State.hatchCount_map {s t : State} {f : Compartment → Compartment} (h : t.comps = s.comps.map f)
    (same : ∀ x : Compartment, (f x).hatchCount = x.hatchCount) (n : Nat) :
    (t.comp n).hatchCount = (s.comp n).hatchCount := by
  rw [State.comp_map h]
  split
  · exact same _
  · rename_i out
    unfold State.comp
    rw [tget_outside _ _ (by unfold isComp at out; omega)]

/-- An act leaves a count as it is, or is the rise that STRIKE_ACK makes. -/
theorem Act.hatchCount {s t : State} (a : Act c s t) (n : Nat) : (t.comp n).hatchCount = (s.comp n).hatchCount ∨
    (∃ l, c = .strikeAck l) ∧ (t.comp n).hatchCount = addMin (s.comp n).hatchCount 1 := by
  cases a with
  | comp m f holds => exact .inl (State.hatchCount_updComp holds.hatchCount n)
  | resect m f holds => exact .inl (State.hatchCount_updComp holds.hatchCount n)
  | strikeCount m by_ =>
    rw [State.comp_updComp]
    split
    · rename_i e
      rw [e.1]
      exact .inr ⟨by_, rfl⟩
    · exact .inl rfl
  | retire m => exact .inl ((kept_retire s m).comp n).2.2.2
  | undo m => exact .inl ((kept_undo s m).comp n).2.2.2
  | create _ _ _ _ _ _ _ _ made => exact .inl ((kept_createOp made).comp n).2.2.2
  | dropStrike l => exact .inl ((kept_dropStrike s l).comp n).2.2.2
  | grant o => exact .inl ((kept_grant s o).comp n).2.2.2
  | deposit d m code =>
    have kept := kept_updRefs (s.updComp m fun x =>
      { x with state := .DEPOSITING, reservation := none,
               parcel := some (d.parcel s.tariff.active s.now code x.priorOf) }) s.tariff.active (· + 1)
    exact .inl ((kept.comp n).2.2.2.trans (State.hatchCount_updComp rfl n))
  | factory => exact .inl (State.hatchCount_map (f := Compartment.cleared) rfl (fun _ => rfl) n)
  | restart i k => exact .inl (State.hatchCount_map (s.restartWith_eq i k).2.2.2.2.2.2.2.1 (fun _ => rfl) n)
  | _ => exact .inl rfl

/-- The counts after a STRIKE_ACK. -/
theorem State.hatchCount_strikeAcked (s : State) (l m n : Nat) :
    ((s.strikeAcked l m).comp n).hatchCount =
      if m = n ∧ isComp m then addMin (s.comp n).hatchCount 1 else (s.comp n).hatchCount := by
  have counted : ((s.updComp m fun c => { c with hatchCount := addMin c.hatchCount 1 }).comp n).hatchCount =
      if m = n ∧ isComp m then addMin (s.comp n).hatchCount 1 else (s.comp n).hatchCount := by
    rw [State.comp_updComp]
    split
    · rename_i e
      rw [e.1]
    · rfl
  unfold State.strikeAcked
  dsimp only
  split
  · exact counted
  · split <;> exact counted

/-- Settles O12: no act but that of STRIKE_ACK writes a count, and it writes that of the STRIKE on the line. -/
theorem hatchCountRisesOnlyAtStrikeAck : Obligations.HatchCountRisesOnlyAtStrikeAck := by
  intro s t n e ne
  obtain ⟨_, cs, front, l, rfl⟩ := step_changes (g := fun u => (u.comp n).hatchCount) (fun _ => rfl)
    (fun _ _ _ o a => (a.hatchCount n).resolve_right fun rise => o rise.1) e ne
  have run : execStrikeAck l { s with pending := cs } = .next t := by
    unfold step at e
    rw [front] at e
    exact e
  unfold execStrikeAck at run
  split at run
  · rename_i slot ch d m at_
    cases Host.Outcome.next.inj run
    have count := State.hatchCount_strikeAcked (State.endExchange { s with pending := cs } l .other) l m n
    by_cases struck : m = n ∧ isComp m
    · rw [if_pos struck] at count
      exact ⟨l, slot, ch, d, cs, front, struck.1 ▸ at_, count⟩
    · rw [if_neg struck] at count
      exact absurd count ne
  · cases Host.Outcome.next.inj run
    exact absurd rfl ne

end Sys2Proof.Machine
end

