-- ==== Sys2Proof/Proofs/Bounds.lean ====
section
/-! The sizes of the lists, the tables and the counters, part by part, and what a creation and an approval do to them. -/

namespace Sys2Proof.Machine

open Sys2Proof

variable {c : Instr}

/-! ### Counting operations after an update -/

/-- An update that moves nothing into a set of operations does not make it larger. -/
theorem countP_map_le {α : Type} {p : α → Bool} {g : α → α} (h : ∀ x, p (g x) = true → p x = true) (l : List α) :
    (l.map g).countP p ≤ l.countP p := by
  rw [List.countP_map]
  exact List.countP_mono_left fun x _ => h x

/-- An update that moves nothing into a set and one member out of it makes it smaller. -/
theorem countP_map_lt {α : Type} {p : α → Bool} {g : α → α} (h : ∀ x, p (g x) = true → p x = true) {l : List α} {x : α}
    (there : x ∈ l) (before : p x = true) (after : p (g x) = false) : (l.map g).countP p + 1 ≤ l.countP p := by
  obtain ⟨a, b, rfl⟩ := List.append_of_mem there
  have ha := countP_map_le h a
  have hb := countP_map_le h b
  simp only [List.map_append, List.map_cons, List.countP_append, List.countP_cons, before, after]
  rw [if_neg Bool.false_ne_true, if_pos trivial]
  omega

/-! ### The operation table and the queues of the links -/

theorem State.prioTaken_eq (s : State) (l : Nat) : s.prioTaken l = (s.link l).prio.length +
    s.hce.ops.countP fun o => decide (o.stage = .AWAIT_PAYMENT ∧ o.link = l) := by
  unfold State.prioTaken
  rw [List.countP_eq_length_filter]

theorem State.stationOps_eq (s : State) (st : Nat) :
    s.stationOps st = s.hce.ops.countP fun o => decide (o.station = st ∧ o.purpose ≠ .SWEEP) := by
  unfold State.stationOps
  rw [List.countP_eq_length_filter]

theorem State.sweepOps_eq (s : State) : s.sweepOps = s.hce.ops.countP fun o => decide (o.purpose = .SWEEP) := by
  unfold State.sweepOps
  rw [List.countP_eq_length_filter]

/-- The operation table, its counts by station and purpose, and the places of the queues, within their sizes. -/
structure State.TablesFit (s : State) : Prop where
  entries : s.hce.ops.length ≤ 48
  lastJob : s.hce.lastJob ≤ 65535
  station : ∀ st, s.stationOps st ≤ stationLimit st
  sweeps : s.sweepOps ≤ 24
  prio : ∀ l, s.prioTaken l ≤ 6
  bulk : ∀ l, (s.link l).bulk.length ≤ 24

/-- A change that adds no operation and takes no place. -/
structure State.NoMore (s t : State) : Prop where
  entries : t.hce.ops.length ≤ s.hce.ops.length
  lastJob : t.hce.lastJob = s.hce.lastJob ∨ t.hce.lastJob ≤ 65535
  station : ∀ st, t.stationOps st ≤ s.stationOps st
  sweeps : t.sweepOps ≤ s.sweepOps
  prio : ∀ l, t.prioTaken l ≤ s.prioTaken l
  bulk : ∀ l, (t.link l).bulk.length ≤ (s.link l).bulk.length

theorem State.NoMore.fit {s t : State} (h : s.NoMore t) (fit : s.TablesFit) : t.TablesFit where
  entries := h.entries.trans fit.entries
  lastJob := h.lastJob.elim (fun e => e ▸ fit.lastJob) id
  station st := (h.station st).trans (fit.station st)
  sweeps := h.sweeps.trans fit.sweeps
  prio l := (h.prio l).trans (fit.prio l)
  bulk l := (h.bulk l).trans (fit.bulk l)

/-- The operations change by a map that keeps what the counts read, and no queue grows. -/
theorem State.NoMore.of_map {s t : State} (g : Op → Op) (ops : t.hce.ops = s.hce.ops.map g)
    (last : t.hce.lastJob = s.hce.lastJob) (holds : ∀ o : Op, o.Holds (g o))
    (queues : ∀ l, (t.link l).prio.length ≤ (s.link l).prio.length ∧ (t.link l).bulk.length ≤ (s.link l).bulk.length) :
    s.NoMore t where
  entries := by rw [ops, List.length_map]
  lastJob := .inl last
  station st := by
    rw [State.stationOps_eq, State.stationOps_eq, ops]
    refine countP_map_le (fun o h => ?_) _
    obtain ⟨-, -, -, hs, hp, -⟩ := holds o
    simpa [hs, hp] using h
  sweeps := by
    rw [State.sweepOps_eq, State.sweepOps_eq, ops]
    refine countP_map_le (fun o h => ?_) _
    obtain ⟨-, -, -, -, hp, -⟩ := holds o
    simpa [hp] using h
  prio l := by
    rw [State.prioTaken_eq, State.prioTaken_eq, ops]
    refine Nat.add_le_add (queues l).1 (countP_map_le (fun o h => ?_) _)
    obtain ⟨-, -, hl, -, -, stage⟩ := holds o
    simp only [decide_eq_true_eq] at h ⊢
    exact ⟨stage h.1, hl ▸ h.2⟩
  bulk l := (queues l).2

theorem Op.Holds.refl (o : Op) : o.Holds o := ⟨rfl, rfl, rfl, rfl, rfl, id⟩

theorem Op.Holds.ite {p : Op → Prop} [DecidablePred p] {f : Op → Op} (h : ∀ o : Op, o.Holds (f o)) (o : Op) :
    o.Holds (if p o then f o else o) := by
  split
  · exact h o
  · exact .refl o

/-- Neither queue of a link grows. -/
theorem State.queues_updLink {s : State} {l : Nat} {f : Link → Link} (prio : (f (s.link l)).prio.Sublist (s.link l).prio)
    (bulk : (f (s.link l)).bulk.Sublist (s.link l).bulk) (m : Nat) :
    ((s.updLink l f).link m).prio.length ≤ (s.link m).prio.length ∧
      ((s.updLink l f).link m).bulk.length ≤ (s.link m).bulk.length := by
  rw [State.link_updLink]
  split
  · rename_i e
    exact e.1 ▸ ⟨prio.length_le, bulk.length_le⟩
  · exact ⟨le_rfl, le_rfl⟩

theorem State.NoMore.refl (s : State) : s.NoMore s :=
  ⟨le_rfl, .inl rfl, fun _ => le_rfl, le_rfl, fun _ => le_rfl, fun _ => le_rfl⟩

/-- The tables and the links are as they were. -/
theorem State.NoMore.of_eq {s t : State} (hce : t.hce = s.hce) (links : t.links = s.links) : s.NoMore t :=
  .of_map id (by rw [hce, List.map_id]) (by rw [hce]) .refl fun l => by
    unfold State.link
    rw [links]
    exact ⟨le_rfl, le_rfl⟩

/-- A link changes and no operation does. -/
theorem State.NoMore.updLink {s : State} {l : Nat} {f : Link → Link} (prio : (f (s.link l)).prio.Sublist (s.link l).prio)
    (bulk : (f (s.link l)).bulk.Sublist (s.link l).bulk) : s.NoMore (s.updLink l f) :=
  .of_map id (by rw [List.map_id]; rfl) rfl .refl (State.queues_updLink prio bulk)

theorem State.NoMore.dropStrike (s : State) (l : Nat) : s.NoMore (s.dropStrike l) := by
  unfold State.dropStrike
  split
  · rename_i k _
    have freed := State.NoMore.updLink (s := s) (l := l) (f := fun x => { x with strike := none }) (.refl _) (.refl _)
    exact ⟨freed.entries, freed.lastJob, freed.station, freed.sweeps, freed.prio, freed.bulk⟩
  · exact .refl s

theorem Link.leave_sublist (x : Link) (job : Nat) : (x.leave job).prio.Sublist x.prio ∧ (x.leave job).bulk.Sublist x.bulk :=
  ⟨List.filter_sublist, List.filter_sublist⟩

theorem State.NoMore.grant (s : State) (o : Op) : s.NoMore (s.grant o) :=
  .of_map (fun y => if y.job = o.job then { y with stage := .STRIKING } else y) rfl rfl
    (Op.Holds.ite fun _ => ⟨rfl, rfl, rfl, rfl, rfl, fun h => (nomatch h)⟩)
    (State.queues_updLink (s := s) (f := fun x => { x.leave o.job with strike := some (Strike.ofOp o) })
      (Link.leave_sublist _ _).1 (Link.leave_sublist _ _).2)

theorem State.NoMore.remove (s : State) (o : Op) :
    s.NoMore ((s.updLink o.link fun x => x.leave o.job).removeOp o.job) := by
  have sub : ((s.updLink o.link fun x => x.leave o.job).removeOp o.job).hce.ops.Sublist s.hce.ops := List.filter_sublist
  have queues := State.queues_updLink (s := s) (f := fun x => x.leave o.job) (Link.leave_sublist (s.link o.link) o.job).1
    (Link.leave_sublist _ _).2
  refine ⟨sub.length_le, .inl rfl, fun st => ?_, ?_, fun l => ?_, fun l => (queues l).2⟩
  · rw [State.stationOps_eq, State.stationOps_eq]
    exact sub.countP_le
  · rw [State.sweepOps_eq, State.sweepOps_eq]
    exact sub.countP_le
  · rw [State.prioTaken_eq, State.prioTaken_eq]
    exact Nat.add_le_add (queues l).1 sub.countP_le

/-- An approval gives up the place its operation held before payment for the one its job takes. -/
theorem State.NoMore.join {s : State} {o : Op} {job : Nat} (there : s.opByJob job = some o)
    (stage : o.stage = .AWAIT_PAYMENT) : s.NoMore ((s.updOp job fun o => { o with stage := .QUEUED }).updLink o.link
        fun x => { x with prio := x.prio ++ [job] }) := by
  have waits := State.NoMore.of_map (s := s) (t := s.updOp job fun o => { o with stage := .QUEUED })
    (fun o => if o.job = job then { o with stage := .QUEUED } else o) rfl rfl
    (Op.Holds.ite fun _ => ⟨rfl, rfl, rfl, rfl, rfl, fun h => (nomatch h)⟩) fun _ => ⟨le_rfl, le_rfl⟩
  refine ⟨waits.entries, waits.lastJob, waits.station, waits.sweeps, fun l => ?_, fun l => ?_⟩
  · by_cases at_ : o.link = l ∧ 1 ≤ o.link ∧ o.link ≤ 4
    · rw [State.prioTaken_eq, State.prioTaken_eq, State.link_updLink, if_pos at_]
      have mem : o ∈ s.hce.ops := List.mem_of_find?_eq_some there
      have named : o.job = job := by simpa using List.find?_some there
      have fewer := countP_map_lt (p := fun y : Op => decide (y.stage = .AWAIT_PAYMENT ∧ y.link = l))
        (g := fun y => if y.job = job then { y with stage := .QUEUED } else y) (fun y hy => by
          by_cases e : y.job = job <;> simp_all) mem (by simp [stage, at_.1]) (by simp [named])
      have same : (s.updOp job fun o => { o with stage := .QUEUED }).link o.link = s.link l := at_.1 ▸ rfl
      simp only [List.length_append, List.length_singleton, same]
      have ops : ((s.updOp job fun o => { o with stage := .QUEUED }).updLink o.link
        fun x => { x with prio := x.prio ++ [job] }).hce.ops =
          s.hce.ops.map fun y => if y.job = job then { y with stage := .QUEUED } else y := rfl
      rw [ops]
      omega
    · have same : ((s.updOp job fun o => { o with stage := .QUEUED }).updLink o.link
        fun x => { x with prio := x.prio ++ [job] }).link l = s.link l := by
        rw [State.link_updLink, if_neg at_]
        rfl
      have := waits.prio l
      rw [State.prioTaken_eq] at this ⊢
      rw [same]
      exact this
  · rw [State.link_updLink]
    split
    · rename_i e
      exact e.1 ▸ le_rfl
    · exact le_rfl

/-- What a creation tests before it takes an entry (R69, R70). -/
theorem State.createOp_roomFor {s t : State} {pu : Purpose} {st n u job : Nat} {a : Addr} {g : Stage}
    (h : s.createOp pu st n a u g = some (t, job)) : s.roomFor st pu a.link = true := by
  unfold State.createOp at h
  split at h
  · assumption
  · cases h

theorem nextNumber_pos (taken : List Nat) (fuel last : Nat) : 1 ≤ nextNumber taken fuel last := by
  induction fuel generalizing last with
  | zero => unfold nextNumber; omega
  | succ k ih =>
    unfold nextNumber
    dsimp only
    split
    · exact ih _
    · omega

theorem State.nextJob_le (s : State) : s.nextJob ≤ 65535 := nextNumber_le _ _ _

/-- The table after a creation. -/
theorem State.createOp_hce {s t : State} {pu : Purpose} {st n u job : Nat} {a : Addr} {g : Stage}
    (h : s.createOp pu st n a u g = some (t, job)) :
    job = s.nextJob ∧ t.hce = { ops := s.hce.ops ++ [newOp s.nextJob pu st n a u g], lastJob := s.nextJob } := by
  unfold State.createOp at h
  split at h
  · dsimp only at h
    split at h <;> cases h <;> exact ⟨rfl, rfl⟩
  · cases h

/-- The links after a creation: the job has joined its queue, unless it waits for its payment (R69, R71). -/
theorem State.createOp_link {s t : State} {pu : Purpose} {st n u job : Nat} {a : Addr} {g : Stage}
    (h : s.createOp pu st n a u g = some (t, job)) (l : Nat) :
    t.link l = if g ≠ .AWAIT_PAYMENT ∧ a.link = l ∧ 1 ≤ a.link ∧ a.link ≤ 4 then (s.link l).join pu s.nextJob
      else s.link l := by
  unfold State.createOp at h
  split at h
  · dsimp only at h
    split at h
    · cases h
      rfl
    · rename_i later
      cases h
      rw [State.link_updLink]
      by_cases e : a.link = l ∧ 1 ≤ a.link ∧ a.link ≤ 4
      · rw [if_pos e, if_pos ⟨fun hg => later hg, e⟩]
        exact e.1 ▸ rfl
      · rw [if_neg e, if_neg fun k => e k.2]
        rfl
  · cases h

/-- The counts after a creation. -/
theorem State.createOp_counts {s t : State} {pu : Purpose} {st n u job : Nat} {a : Addr} {g : Stage}
    (h : s.createOp pu st n a u g = some (t, job)) (hg : g = .QUEUED ∨ g = .AWAIT_PAYMENT ∧ pu ≠ .SWEEP)
    (ha : 1 ≤ a.link ∧ a.link ≤ 4) :
    (∀ q, t.stationOps q = s.stationOps q + if q = st ∧ pu ≠ .SWEEP then 1 else 0) ∧
    t.sweepOps = s.sweepOps + (if pu = .SWEEP then 1 else 0) ∧
    ∀ l, t.prioTaken l = s.prioTaken l + (if l = a.link ∧ pu ≠ .SWEEP then 1 else 0) ∧
      (t.link l).bulk = (s.link l).bulk ++ if l = a.link ∧ pu = .SWEEP then [s.nextJob] else [] := by
  obtain ⟨-, hce⟩ := State.createOp_hce h
  refine ⟨fun q => ?_, ?_, fun l => ⟨?_, ?_⟩⟩
  · rw [State.stationOps_eq, State.stationOps_eq, hce]
    simp only [List.countP_append, List.countP_singleton, newOp, decide_eq_true_eq, eq_comm (a := st)]
  · rw [State.sweepOps_eq, State.sweepOps_eq, hce]
    simp only [List.countP_append, List.countP_singleton, newOp, decide_eq_true_eq]
  · rw [State.prioTaken_eq, State.prioTaken_eq, hce, State.createOp_link h]
    simp only [List.countP_append, List.countP_singleton, newOp, decide_eq_true_eq]
    rcases hg with rfl | ⟨rfl, hp⟩
    · by_cases e : a.link = l
      · subst e
        cases pu <;> simp [ha, Link.join] <;> omega
      · simp [e, Ne.symm e]
    · simp [hp, eq_comm (a := l), Nat.add_assoc]
  · rw [State.createOp_link h]
    by_cases e : a.link = l
    · subst e
      rcases hg with rfl | ⟨rfl, hp⟩
      · cases pu <;> simp [ha, Link.join]
      · simp [hp]
    · simp [e, Ne.symm e]

theorem State.roomFor_iff (s : State) (st : Nat) (pu : Purpose) (l : Nat) : s.roomFor st pu l = true ↔
    s.hce.ops.length < 48 ∧ (if pu = .SWEEP then s.sweepOps < 24 ∧ (s.link l).bulk.length < 24
      else s.stationOps st < stationLimit st ∧ s.prioTaken l < 6) := by
  unfold State.roomFor State.stationFull
  cases pu <;> simp only [Bool.and_eq_true, decide_eq_true_eq, Bool.not_eq_true', decide_eq_false_iff_not, not_le,
    reduceCtorEq, if_false, if_true] <;> exact Iff.rfl

theorem State.TablesFit.create {s t : State} {pu : Purpose} {st n u job : Nat} {a : Addr} {g : Stage}
    (h : s.createOp pu st n a u g = some (t, job)) (hg : g = .QUEUED ∨ g = .AWAIT_PAYMENT ∧ pu ≠ .SWEEP)
    (ha : 1 ≤ a.link ∧ a.link ≤ 4) (fit : s.TablesFit) : t.TablesFit := by
  obtain ⟨station, sweeps, queues⟩ := State.createOp_counts h hg ha
  obtain ⟨entries, room⟩ := (State.roomFor_iff s st pu a.link).mp (State.createOp_roomFor h)
  obtain ⟨-, hce⟩ := State.createOp_hce h
  refine ⟨?_, ?_, fun q => ?_, ?_, fun l => ?_, fun l => ?_⟩
  · rw [hce]
    simp only [List.length_append, List.length_singleton]
    omega
  · rw [hce]
    exact s.nextJob_le
  · rw [station]
    have := fit.station q
    split
    · rename_i e
      rw [if_neg e.2] at room
      rw [e.1]
      omega
    · omega
  · rw [sweeps]
    have := fit.sweeps
    split
    · rename_i e
      rw [if_pos e] at room
      omega
    · omega
  · rw [(queues l).1]
    have := fit.prio l
    split
    · rename_i e
      rw [if_neg e.2] at room
      rw [e.1]
      omega
    · omega
  · rw [(queues l).2, List.length_append]
    have := fit.bulk l
    split
    · rename_i e
      rw [if_pos e.2] at room
      rw [e.1, List.length_singleton]
      omega
    · simpa using this

theorem Act.tablesFit {s t : State} (a : Act c s t) (fit : s.TablesFit) : t.TablesFit := by
  have frame : ∀ {u : State}, u.hce = s.hce → u.links = s.links → u.TablesFit := fun h l =>
    (State.NoMore.of_eq h l).fit fit
  cases a with
  | link l f holds => exact (State.NoMore.updLink holds.prio holds.bulk).fit fit
  | dropStrike l => exact (State.NoMore.dropStrike s l).fit fit
  | grant o => exact (State.NoMore.grant s o).fit fit
  | remove o => exact (State.NoMore.remove s o).fit fit
  | join o job there stage => exact (State.NoMore.join there stage).fit fit
  | op job f holds =>
    exact (State.NoMore.of_map (t := s.updOp job f) (fun o => if o.job = job then f o else o) rfl rfl
      (Op.Holds.ite holds) fun _ => ⟨le_rfl, le_rfl⟩).fit fit
  | create _ _ _ _ _ _ _ _ made link alone stage => exact fit.create made stage link
  | startRun k =>
    exact ⟨fit.entries, s.nextJob_le, fit.station, fit.sweeps, fit.prio, fit.bulk⟩
  | retire n => exact frame (s.hce_retire n) (congrArg State.links (s.retire_eq n) :)
  | undo n => exact frame (s.hce_undo n) (congrArg State.links (s.undo_eq n) :)
  | restart i k =>
    obtain ⟨-, -, -, -, -, -, -, -, hce, -⟩ := s.restartWith_eq i k
    have nothing : ∀ l, ((s.restartWith i k).link l).prio = [] ∧ ((s.restartWith i k).link l).bulk = [] := by
      intro l
      rcases s.link_restartWith i k l with ⟨b, e⟩ | e <;> rw [e] <;> exact ⟨rfl, rfl⟩
    refine ⟨?_, ?_, fun st => ?_, ?_, fun l => ?_, fun l => ?_⟩
    · rw [hce]; exact Nat.zero_le _
    · rw [hce]; exact Nat.zero_le _
    · rw [State.stationOps_eq, hce]; exact Nat.zero_le _
    · rw [State.sweepOps_eq, hce]; exact Nat.zero_le _
    · rw [State.prioTaken_eq, hce, (nothing l).1]; exact Nat.zero_le _
    · rw [(nothing l).2]; exact Nat.zero_le _
  | _ => exact frame rfl rfl

/-! ### The other lists and counters -/

theorem Alloc.retire_length {a : Alloc} (code now : Nat) (h : a.retired.length ≤ 128) :
    (a.retire code now).retired.length ≤ 128 := by
  unfold Alloc.retire
  dsimp only
  rw [List.length_append, List.length_singleton]
  split
  · rename_i room
    exact room
  · rw [List.length_drop]
    omega

theorem Act.retiredFit {s t : State} (a : Act c s t) (h : s.alloc.retired.length ≤ 128) :
    t.alloc.retired.length ≤ 128 := by
  cases a with
  | alloc f sub => exact sub.length_le.trans h
  | retire n =>
    unfold State.retire
    dsimp only
    split
    · exact h
    · rename_i p _
      have kept : ∀ u : State, (u.releasePage p).alloc = u.alloc := fun u => by
        unfold State.releasePage
        split <;> rfl
      cases p.code
      · exact (congrArg (fun x : Alloc => x.retired.length) (kept s)).trans_le h
      · refine (congrArg (fun x : Alloc => x.retired.length) (kept _)).trans_le ?_
        exact Alloc.retire_length _ _ h
  | undo n => exact (congrArg State.alloc (s.undo_eq n) :) ▸ h
  | create _ _ _ _ _ _ _ _ made => exact (congrArg State.alloc (State.createOp_eq made) :) ▸ h
  | dropStrike l => exact (congrArg State.alloc (s.dropStrike_eq l) :) ▸ h
  | factory => exact Nat.zero_le _
  | restart i k => exact (s.restartWith_eq i k).2.2.2.1 ▸ h
  | _ => exact h

theorem Act.busFit {s t : State} (a : Act c s t) (h : s.pbc.reversals.length ≤ 8 ∧ s.pbc.refCounter ≤ 65535) :
    t.pbc.reversals.length ≤ 8 ∧ t.pbc.refCounter ≤ 65535 := by
  cases a with
  | pbc f holds => exact ⟨holds.reversals h.1, holds.refCounter h.2⟩
  | retire n => exact (congrArg State.pbc (s.retire_eq n) :) ▸ h
  | undo n => exact (congrArg State.pbc (s.undo_eq n) :) ▸ h
  | create _ _ _ _ _ _ _ _ made => exact (congrArg State.pbc (State.createOp_eq made) :) ▸ h
  | dropStrike l => exact (congrArg State.pbc (s.dropStrike_eq l) :) ▸ h
  | factory => exact ⟨h.1, Nat.zero_le _⟩
  | restart i k =>
    obtain ⟨-, -, -, -, -, -, -, -, -, -, -, -, -, pbc⟩ := s.restartWith_eq i k
    rw [pbc]
    exact h
  | _ => exact h

theorem Act.captureFit {s t : State} (a : Act c s t) (h : s.capture.further ≤ 255) : t.capture.further ≤ 255 := by
  cases a with
  | capture f fits => exact fits h
  | retire n => exact (congrArg State.capture (s.retire_eq n) :) ▸ h
  | undo n => exact (congrArg State.capture (s.undo_eq n) :) ▸ h
  | create _ _ _ _ _ _ _ _ made => exact (congrArg State.capture (State.createOp_eq made) :) ▸ h
  | dropStrike l => exact (congrArg State.capture (s.dropStrike_eq l) :) ▸ h
  | factory => exact Nat.zero_le _
  | restart i k => exact (s.restartWith_eq i k).2.2.1 ▸ h
  | _ => exact h

theorem Act.minuteFit {s t : State} (a : Act c s t) (h : s.scu.minute ≤ 4294967295 ∧ s.scu.persisted ≤ 4294967295) :
    t.scu.minute ≤ 4294967295 ∧ t.scu.persisted ≤ 4294967295 := by
  cases a with
  | scu f holds => exact holds.minute h
  | retire n => exact (kept_retire s n).scu ▸ h
  | undo n => exact (kept_undo s n).scu ▸ h
  | create _ _ _ _ _ _ _ _ made => exact (kept_createOp made).scu ▸ h
  | dropStrike l => exact (kept_dropStrike s l).scu ▸ h
  | restart i k =>
    rw [(s.restartWith_eq i k).2.2.2.2.2.2.1]
    refine ⟨?_, h.2⟩
    unfold Scu.restarted
    dsimp only
    split
    · exact Nat.min_le_right _ _
    · exact h.2
  | _ => exact h

theorem Act.sidesFit {s t : State} (a : Act c s t) (h : ∀ k, (s.side k).fits) (k : Courier) : (t.side k).fits := by
  have frame : ∀ {u : State}, u.swu = s.swu → (u.side k).fits := fun e => State.side_eq_of_swu e k ▸ h k
  cases a with
  | side j f fits =>
    by_cases e : j = k
    · subst e
      rw [State.side_updSide_self]
      exact fits (h j)
    · obtain rfl : k = j.other := by cases j <;> cases k <;> simp_all [Courier.other]
      rw [State.side_updSide_other]
      exact h _
  | startRun j =>
    by_cases e : j = k
    · subst e
      unfold State.startRun
      rw [State.side_updSide_self]
      refine ⟨Nat.zero_le _, fun r hr => ?_⟩
      cases hr
      have moved : (byComp (s.side j).tags).length = (s.side j).tags.length := List.length_insertionSort _ _
      exact moved.trans_le (h j).1
    · obtain rfl : k = j.other := by cases j <;> cases k <;> simp_all [Courier.other]
      unfold State.startRun
      rw [State.side_updSide_other]
      exact h _
  | retire n => exact frame (congrArg State.swu (s.retire_eq n) :)
  | undo n => exact frame (congrArg State.swu (s.undo_eq n) :)
  | create _ _ _ _ _ _ _ _ made => exact frame (congrArg State.swu (State.createOp_eq made) :)
  | dropStrike l => exact frame (congrArg State.swu (s.dropStrike_eq l) :)
  | restart i r =>
    obtain ⟨-, -, -, -, -, -, -, -, -, swu, -⟩ := s.restartWith_eq i r
    have idle : (s.restartWith i r).side k = SweepSide.idle := by
      unfold State.side
      rw [swu]
      cases k <;> rfl
    rw [idle]
    exact ⟨Nat.zero_le _, fun _ hr => (nomatch hr)⟩
  | _ => exact frame rfl

theorem Act.gatesFit {s t : State} (a : Act c s t) (h : ∀ st, (s.gate st).wrong.length ≤ 5) (st : Nat) :
    (t.gate st).wrong.length ≤ 5 := by
  have frame : ∀ {u : State}, u.gates = s.gates → (u.gate st).wrong.length ≤ 5 := fun e => by
    unfold State.gate
    rw [e]
    exact h st
  cases a with
  | gates f fits => exact fits h st
  | retire n => exact frame (kept_retire s n).gates
  | undo n => exact frame (kept_undo s n).gates
  | create _ _ _ _ _ _ _ _ made => exact frame (kept_createOp made).gates
  | dropStrike l => exact frame (kept_dropStrike s l).gates
  | restart i k =>
    obtain ⟨-, -, -, -, -, -, -, -, -, -, gates, -⟩ := s.restartWith_eq i k
    unfold State.gate
    rw [gates]
    cases st with
    | zero => exact Nat.zero_le _
    | succ j =>
      unfold tget
      by_cases e : j < 4 <;> simp [e]
  | _ => exact frame rfl

theorem Reader.empty_fits : Reader.empty.fits := ⟨rfl, Nat.zero_le _⟩

theorem Act.readersFit {s t : State} (a : Act c s t) (h : ∀ r, (s.reader r).fits) (r : Nat) : (t.reader r).fits := by
  have frame : ∀ {u : State}, u.pbc.readers = s.pbc.readers → (u.reader r).fits := fun e => by
    unfold State.reader
    rw [e]
    exact h r
  cases a with
  | reader q f fits =>
    rw [State.reader_updReader]
    split
    · exact fits (h q)
    · exact h r
  | pbc f holds => exact frame holds.readers
  | retire n => exact frame (congrArg (fun u : State => u.pbc.readers) (s.retire_eq n) :)
  | undo n => exact frame (congrArg (fun u : State => u.pbc.readers) (s.undo_eq n) :)
  | create _ _ _ _ _ _ _ _ made => exact frame (congrArg (fun u : State => u.pbc.readers) (State.createOp_eq made) :)
  | dropStrike l => exact frame (congrArg (fun u : State => u.pbc.readers) (s.dropStrike_eq l) :)
  | restart i k =>
    obtain ⟨-, -, -, -, -, -, -, -, -, -, -, -, -, pbc⟩ := s.restartWith_eq i k
    unfold State.reader
    rw [pbc]
    dsimp only
    rw [tget_map]
    split
    · exact ⟨rfl, Nat.zero_le _⟩
    · exact Reader.empty_fits
  | _ => exact frame rfl

theorem Kept.passOk {s t : State} (k : Kept s t) {l : Nat} (h : (s.link l).passOk) : (t.link l).passOk := by
  obtain ⟨-, -, -, -, pass, -⟩ := k.link l
  unfold Link.passOk
  rw [pass]
  exact h

theorem Act.passFit {s t : State} (a : Act c s t) (h : ∀ l, (s.link l).passOk) (l : Nat) : (t.link l).passOk := by
  cases a with
  | link m f holds =>
    rw [State.link_updLink]
    split
    · exact holds.pass (h m)
    · exact h l
  | dropStrike m => exact (kept_dropStrike s m).passOk (h l)
  | grant o => exact (kept_grant s o).passOk (h l)
  | create _ _ _ _ _ _ _ _ made => exact (kept_createOp made).passOk (h l)
  | remove o =>
    exact ((kept_updLink s o.link (fun x => x.leave o.job) fun _ => ⟨rfl, rfl, rfl, rfl, rfl, rfl, rfl, rfl⟩).trans
      (kept_removeOp _ _)).passOk (h l)
  | join o job =>
    exact ((kept_updOp s job fun o => { o with stage := .QUEUED }).trans (kept_updLink _ o.link
      (fun x => { x with prio := x.prio ++ [job] }) fun _ => ⟨rfl, rfl, rfl, rfl, rfl, rfl, rfl, rfl⟩)).passOk (h l)
  | retire n => exact (kept_retire s n).passOk (h l)
  | undo n => exact (kept_undo s n).passOk (h l)
  | restart i r =>
    rcases s.link_restartWith i r l with ⟨b, e⟩ | e <;> rw [e] <;> intro p hp
    · unfold Link.restarted at hp
      dsimp only at hp
      split at hp
      · cases hp
        exact Nat.zero_le _
      · cases hp
    · cases hp
  | _ => exact h l

/-! ### The bounds together -/

/-- The bounds, sorted by the block that each reads. -/
theorem State.bounded_iff (s : State) : s.bounded ↔ s.TablesFit ∧ s.alloc.retired.length ≤ 128 ∧
    (s.pbc.reversals.length ≤ 8 ∧ s.pbc.refCounter ≤ 65535) ∧ s.capture.further ≤ 255 ∧
    (s.scu.minute ≤ 4294967295 ∧ s.scu.persisted ≤ 4294967295) ∧ (∀ k, (s.side k).fits) ∧
    (∀ st, (s.gate st).wrong.length ≤ 5) ∧ (∀ n, (s.comp n).hatchCount ≤ 4294967295) ∧ (∀ r, (s.reader r).fits) ∧
    (∀ l k, (s.slot l k).unanswered ≤ 2) ∧ ∀ l, (s.link l).passOk := by
  constructor
  · rintro ⟨⟨entries, last, retired, rev, ref, cap, min, per⟩, sides, gates, counts, un, slots, pass, station, sweeps,
      queues, lists⟩
    exact ⟨⟨entries, last, station, sweeps, fun l => (queues l).1, fun l => (queues l).2⟩, retired, ⟨rev, ref⟩, cap,
      ⟨min, per⟩, sides, gates, counts, fun r => ⟨lists r, un r⟩, slots, pass⟩
  · rintro ⟨⟨entries, last, station, sweeps, prio, bulk⟩, retired, ⟨rev, ref⟩, cap, ⟨min, per⟩, sides, gates, counts,
      readers, slots, pass⟩
    exact ⟨⟨entries, last, retired, rev, ref, cap, min, per⟩, sides, gates, counts, fun r => (readers r).2, slots, pass,
      station, sweeps, fun l => ⟨prio l, bulk l⟩, fun r => (readers r).1⟩

theorem Act.bounded {s t : State} (a : Act c s t) (h : s.bounded) : t.bounded := by
  obtain ⟨tables, retired, bus, cap, minute, sides, gates, counts, readers, slots, pass⟩ := s.bounded_iff.mp h
  refine t.bounded_iff.mpr ⟨a.tablesFit tables, a.retiredFit retired, a.busFit bus, a.captureFit cap,
    a.minuteFit minute, a.sidesFit sides, a.gatesFit gates, fun n => ?_, a.readersFit readers,
    fun l k => (a.slot_holds l k).2 (slots l k), a.passFit pass⟩
  rcases a.hatchCount n with same | ⟨-, rise⟩
  · exact same ▸ counts n
  · rw [rise]
    exact Nat.min_le_right _ _

/-! ### An approval -/

/-- With the job numbers distinct, an update that takes one operation out of a set makes it one smaller. -/
theorem countP_map_one {p : Op → Bool} {g : Op → Op} {l : List Op} {o : Op} (distinct : (l.map (·.job)).Nodup)
    (there : o ∈ l) (before : p o = true) (after : p (g o) = false) (others : ∀ y, y.job ≠ o.job → g y = y) :
    (l.map g).countP p + 1 = l.countP p := by
  induction l with
  | nil => cases there
  | cons y l ih =>
    rw [List.map_cons, List.nodup_cons] at distinct
    obtain ⟨fresh, distinct⟩ := distinct
    rcases List.mem_cons.mp there with rfl | later
    · have rest : l.map g = l := by
        conv_rhs => rw [← List.map_id l]
        exact List.map_congr_left fun y hy => others y fun e => fresh (e ▸ List.mem_map_of_mem hy)
      simp [rest, before, after]
    · have apart : y.job ≠ o.job := fun e => fresh (e ▸ List.mem_map_of_mem later)
      simp only [List.map_cons, List.countP_cons, others y apart]
      have := ih distinct later
      omega

theorem State.joinQueue_present {s : State} {j : Nat} {o : Op} (there : s.opByJob j = some o)
    (stage : o.stage = .AWAIT_PAYMENT) (present : (s.slot o.link o.slot).state = .PRESENT) :
    s.joinQueue j = (s.updOp j fun o => { o with stage := .QUEUED }).updLink o.link
      fun x => { x with prio := x.prio ++ [j] } := by
  unfold State.joinQueue
  rw [there]
  simp [stage, present]

/-- The first entry of a job number in a table after the update of that entry. -/
theorem find?_job_map {l : List Op} {j : Nat} {o : Op} {f : Op → Op} (h : l.find? (fun y => y.job == j) = some o)
    (keep : ∀ y : Op, (f y).job = y.job) :
    (l.map fun y => if y.job = j then f y else y).find? (fun y => y.job == j) = some (f o) := by
  induction l with
  | nil => cases h
  | cons y l ih =>
    by_cases e : y.job = j
    · have : y = o := by simpa [e] using h
      simp [← this, e, keep]
    · have e' : (y.job == j) = false := by simpa using e
      rw [List.find?_cons, e'] at h
      simp only [List.map_cons, if_neg e, List.find?_cons, e']
      exact ih h

/-- Settles O5: the bounds by the acts, the creation by its tests, the approval by the distinct job numbers. -/
theorem boundsKept : Obligations.BoundsKept := by
  refine ⟨fun s t => step_keep_acts (P := State.bounded) (fun _ _ => id) fun _ _ _ => Act.bounded, ?_, ?_⟩
  · intro pu st n u a g s hg
    have room := State.roomFor_iff s st pu a.link
    unfold stationLimit at room
    refine ⟨fun full => ?_, fun free lo hi => ?_⟩
    · unfold State.createOp
      rw [if_neg fun h => full (room.mp h)]
    · have made : ∃ t, s.createOp pu st n a u g = some (t, s.nextJob) := by
        unfold State.createOp
        rw [if_pos (room.mpr free)]
        dsimp only
        split <;> exact ⟨_, rfl⟩
      obtain ⟨t, made⟩ := made
      obtain ⟨station, sweeps, queues⟩ := State.createOp_counts made hg ⟨lo, hi⟩
      exact ⟨t, made, (State.createOp_hce made).2, station, sweeps, queues, State.createOp_eq made⟩
  · intro j o s distinct there stage lo hi present
    dsimp only
    rw [State.joinQueue_present there stage present]
    have named : o.job = j := by simpa using List.find?_some there
    refine ⟨?_, find?_job_map there fun _ => rfl, fun l => ⟨?_, ?_⟩⟩
    · rw [State.link_updLink, if_pos ⟨rfl, lo, hi⟩]
      rfl
    · have same : ((s.updOp j fun o => { o with stage := .QUEUED }).updLink o.link
          fun x => { x with prio := x.prio ++ [j] }).hce.ops =
          s.hce.ops.map fun y => if y.job = j then { y with stage := .QUEUED } else y := rfl
      rw [State.prioTaken_eq, State.prioTaken_eq, State.link_updLink, same]
      have mem : o ∈ s.hce.ops := List.mem_of_find?_eq_some there
      have one := countP_map_one (p := fun y : Op => decide (y.stage = .AWAIT_PAYMENT ∧ y.link = o.link))
        (g := fun y => if y.job = j then { y with stage := .QUEUED } else y) distinct mem
        (by simp [stage]) (by simp [named]) fun y hy => if_neg (named ▸ hy)
      by_cases e : o.link = l
      · subst e
        rw [if_pos ⟨rfl, lo, hi⟩]
        have kept : (s.updOp j fun o => { o with stage := .QUEUED }).link o.link = s.link o.link := rfl
        simp only [kept, List.length_append, List.length_singleton]
        omega
      · rw [if_neg fun k => e k.1, List.countP_map]
        refine congrArg₂ (· + ·) rfl (List.countP_congr fun y hy => ?_)
        by_cases k : y.job = j
        · obtain rfl : y = o := List.inj_on_of_nodup_map distinct hy mem (k.trans named.symm)
          simp [k, e]
        · simp [k]
    · rw [State.link_updLink]
      split
      · rename_i e
        exact e.1 ▸ rfl
      · rfl

end Sys2Proof.Machine
end

