-- ==== Sys2Proof/Proofs/Grants.lean ====
section
/-! The granted units and the strikes in flight, the job numbers and the queues, and the one operation of a
compartment. -/

namespace Sys2Proof.Machine

open Sys2Proof

variable {c : Instr}

/-! ### A number not taken (R69, R152) -/

/-- A taken answer means that every number looked at was taken. -/
theorem nextNumber_taken {taken : List Nat} {fuel last : Nat} (h : nextNumber taken fuel last ∈ taken) :
    ∀ i ≤ fuel, (last + i) % 65535 + 1 ∈ taken := by
  induction fuel generalizing last with
  | zero =>
    intro i hi
    obtain rfl : i = 0 := by omega
    exact h
  | succ k ih =>
    unfold nextNumber at h
    dsimp only at h
    split at h
    · rename_i first
      intro i hi
      rcases Nat.eq_zero_or_pos i with rfl | pos
      · exact List.contains_iff_mem.mp first
      · have later := ih h (i - 1) (by omega)
        have same : (last % 65535 + 1 + (i - 1)) % 65535 = (last + i) % 65535 := by omega
        exact same ▸ later
    · rename_i first
      exact absurd (List.contains_iff_mem.mpr h) first

/-- With as many looks as numbers taken, the answer is not taken. -/
theorem nextNumber_fresh {taken : List Nat} (last : Nat) (few : taken.length < 65535) :
    nextNumber taken taken.length last ∉ taken := by
  intro h
  have all := nextNumber_taken h
  have distinct : ((List.range (taken.length + 1)).map fun i => (last + i) % 65535 + 1).Nodup := by
    refine List.Nodup.map_on (fun i hi j hj e => ?_) List.nodup_range
    simp only [List.mem_range] at hi hj
    omega
  have inside : ((List.range (taken.length + 1)).map fun i => (last + i) % 65535 + 1) ⊆ taken := by
    intro n hn
    obtain ⟨i, hi, rfl⟩ := List.mem_map.mp hn
    exact all i (by simpa [Nat.lt_succ_iff] using hi)
  have := (distinct.subperm inside).length_le
  simp at this

/-- The next job number is that of no operation. -/
theorem State.nextJob_fresh {s : State} (few : s.hce.ops.length ≤ 48) : s.nextJob ∉ s.hce.ops.map (·.job) := by
  have short : ∀ x : Option Nat, x.toList.length ≤ 1 := fun x => by cases x <;> simp
  have size : s.jobsTaken.length < 65535 := by
    have h1 := short (s.swu.k1.run.map (·.job))
    have h2 := short (s.swu.k2.run.map (·.job))
    unfold State.jobsTaken
    simp only [List.length_append, List.length_map]
    omega
  have fresh : s.nextJob ∉ s.jobsTaken := nextNumber_fresh s.hce.lastJob size
  intro h
  exact fresh (List.mem_append_left _ (List.mem_append_left _ h))

/-! ### The granted units -/

/-- The units of the strikes in flight. -/
def State.strikeSum (s : State) : Nat :=
  (s.link 1).strikeUnits + (s.link 2).strikeUnits + (s.link 3).strikeUnits + (s.link 4).strikeUnits

/-- One link written moves the sum by the units of its strike. -/
theorem State.strikeSum_updLink (s : State) {l : Nat} (f : Link → Link) (hl : 1 ≤ l ∧ l ≤ 4) :
    (s.updLink l f).strikeSum + (s.link l).strikeUnits = s.strikeSum + (f (s.link l)).strikeUnits := by
  obtain ⟨lo, hi⟩ := hl
  unfold State.strikeSum
  interval_cases l <;> simp [State.link_updLink] <;> omega

theorem State.link_outside (s : State) {l : Nat} (h : ¬(1 ≤ l ∧ l ≤ 4)) : s.link l = Link.empty :=
  tget_outside _ _ (by omega)

theorem State.updLink_outside (s : State) {l : Nat} (f : Link → Link) (h : ¬(1 ≤ l ∧ l ≤ 4)) (m : Nat) :
    (s.updLink l f).link m = s.link m := by
  rw [State.link_updLink, if_neg fun k => h k.2]

theorem State.strikeSum_same {s t : State} (h : ∀ l, (t.link l).strikeUnits = (s.link l).strikeUnits) :
    t.strikeSum = s.strikeSum := by
  unfold State.strikeSum
  rw [h, h, h, h]

/-! ### Jobs, queues and compartments -/

/-- The jobs are distinct, every queued job is that of one operation on the link of its queue, and no compartment has
two operations. -/
structure State.JobsOk (s : State) : Prop where
  distinct : (s.hce.ops.map (·.job)).Nodup
  few : s.hce.ops.length ≤ 48
  links : ∀ o ∈ s.hce.ops, 1 ≤ o.link ∧ o.link ≤ 4
  queued : ∀ l j, j ∈ (s.link l).prio ++ (s.link l).bulk → ∃ o ∈ s.hce.ops, o.job = j ∧ o.link = l
  alone : (s.hce.ops.map (·.comp)).Nodup

theorem State.grants_iff (s : State) :
    s.grantsExact ∧ s.oneOpEach ↔ s.arb.granted = s.strikeSum ∧ s.JobsOk :=
  ⟨fun ⟨⟨g, d, f, l, q⟩, a⟩ => ⟨g, d, f, l, q, a⟩, fun ⟨g, d, f, l, q, a⟩ => ⟨⟨g, d, f, l, q⟩, a⟩⟩

/-- The operation of a queued job is on the link of the queue. -/
theorem State.JobsOk.link_of_queued {s : State} (ok : s.JobsOk) {o : Op} {l : Nat} (there : o ∈ s.hce.ops)
    (queued : o.job ∈ (s.link l).prio ++ (s.link l).bulk) : o.link = l := by
  obtain ⟨y, hy, job, link⟩ := ok.queued l o.job queued
  exact List.inj_on_of_nodup_map ok.distinct there hy job.symm ▸ link

/-- The operations change by a map that keeps job, compartment and link, and every queued job was queued there. -/
theorem State.JobsOk.of_map {s t : State} (ok : s.JobsOk) (g : Op → Op) (ops : t.hce.ops = s.hce.ops.map g)
    (holds : ∀ o : Op, (g o).job = o.job ∧ (g o).comp = o.comp ∧ (g o).link = o.link)
    (queues : ∀ l j, j ∈ (t.link l).prio ++ (t.link l).bulk → j ∈ (s.link l).prio ++ (s.link l).bulk) : t.JobsOk where
  distinct := by
    have same : (t.hce.ops.map (·.job)) = s.hce.ops.map (·.job) := by
      rw [ops, List.map_map]
      exact List.map_congr_left fun o _ => (holds o).1
    exact same ▸ ok.distinct
  few := by
    rw [ops, List.length_map]
    exact ok.few
  links := by
    rw [ops]
    intro o ho
    obtain ⟨y, hy, rfl⟩ := List.mem_map.mp ho
    rw [(holds y).2.2]
    exact ok.links y hy
  queued l j hj := by
    obtain ⟨o, ho, job, link⟩ := ok.queued l j (queues l j hj)
    obtain ⟨hg, -, hl⟩ := holds o
    exact ⟨g o, ops ▸ List.mem_map_of_mem ho, hg.trans job, hl.trans link⟩
  alone := by
    have same : (t.hce.ops.map (·.comp)) = s.hce.ops.map (·.comp) := by
      rw [ops, List.map_map]
      exact List.map_congr_left fun o _ => (holds o).2.1
    exact same ▸ ok.alone

theorem State.JobsOk.of_eq {s t : State} (ok : s.JobsOk) (ops : t.hce.ops = s.hce.ops) (links : t.links = s.links) :
    t.JobsOk :=
  ok.of_map id (by rw [ops, List.map_id]) (fun _ => ⟨rfl, rfl, rfl⟩) fun l j hj => by
    unfold State.link at hj ⊢
    rw [links] at hj
    exact hj

/-- What waits in the queues of a link that lost some of it waited there. -/
theorem mem_queues_updLink {s : State} {l : Nat} {f : Link → Link} (prio : (f (s.link l)).prio.Sublist (s.link l).prio)
    (bulk : (f (s.link l)).bulk.Sublist (s.link l).bulk) {m j : Nat}
    (h : j ∈ ((s.updLink l f).link m).prio ++ ((s.updLink l f).link m).bulk) :
    j ∈ (s.link m).prio ++ (s.link m).bulk := by
  rw [State.link_updLink] at h
  split at h
  · rename_i e
    exact e.1 ▸ (prio.append bulk).subset h
  · exact h

theorem State.JobsOk.updLink {s : State} (ok : s.JobsOk) {l : Nat} {f : Link → Link}
    (prio : (f (s.link l)).prio.Sublist (s.link l).prio) (bulk : (f (s.link l)).bulk.Sublist (s.link l).bulk) :
    (s.updLink l f).JobsOk :=
  ok.of_map id (by rw [List.map_id]; rfl) (fun _ => ⟨rfl, rfl, rfl⟩) fun _ _ => mem_queues_updLink prio bulk

theorem State.JobsOk.updOp {s : State} (ok : s.JobsOk) (job : Nat) {f : Op → Op} (holds : ∀ o : Op, o.Holds (f o)) :
    (s.updOp job f).JobsOk :=
  ok.of_map (fun o => if o.job = job then f o else o) rfl
    (fun o => by obtain ⟨j, n, l, -⟩ := Op.Holds.ite (p := fun o => o.job = job) holds o; exact ⟨j, n, l⟩)
    fun _ _ => id

/-- An operation leaves the table and the queue of its link. -/
theorem State.JobsOk.remove {s : State} (ok : s.JobsOk) {o : Op} (there : s.lists o) :
    ((s.updLink o.link fun x => x.leave o.job).removeOp o.job).JobsOk := by
  obtain ⟨y, hy, hj, hl⟩ := there
  have sub : ((s.updLink o.link fun x => x.leave o.job).removeOp o.job).hce.ops.Sublist s.hce.ops := List.filter_sublist
  refine ⟨ok.distinct.sublist (sub.map _), sub.length_le.trans ok.few, fun x hx => ok.links x (sub.subset hx),
    fun m j mem => ?_, ok.alone.sublist (sub.map _)⟩
  have before : j ∈ (s.link m).prio ++ (s.link m).bulk := mem_queues_updLink (f := fun x => x.leave o.job)
    (Link.leave_sublist (s.link o.link) o.job).1 (Link.leave_sublist _ _).2 mem
  obtain ⟨x, hx, job, link⟩ := ok.queued m j before
  refine ⟨x, ?_, job, link⟩
  have apart : x.job ≠ o.job := by
    intro e
    have at_ : m = o.link := by
      obtain rfl : x = y := List.inj_on_of_nodup_map ok.distinct hx hy (e.trans hj.symm)
      exact link.symm.trans hl
    have range := ok.links y hy
    rw [hl] at range
    have read : ((s.updLink o.link fun x => x.leave o.job).removeOp o.job).link m = (s.link m).leave o.job := by
      have := State.link_updLink s o.link m fun x => x.leave o.job
      rw [if_pos ⟨at_.symm, range⟩] at this
      exact this.trans (at_ ▸ rfl)
    rw [read] at mem
    have left : j ≠ o.job := by
      rcases List.mem_append.mp mem with h | h <;> simpa using (List.mem_filter.mp h).2
    exact left (job ▸ e)
  exact List.mem_filter.mpr ⟨hx, by simpa using apart⟩

theorem State.JobsOk.join {s : State} (ok : s.JobsOk) {o : Op} {job : Nat} (there : s.opByJob job = some o) :
    ((s.updOp job fun o => { o with stage := .QUEUED }).updLink o.link fun x => { x with prio := x.prio ++ [job] }).JobsOk := by
  have staged : (s.updOp job fun o => { o with stage := .QUEUED }).JobsOk :=
    ok.updOp job fun _ => ⟨rfl, rfl, rfl, rfl, rfl, fun h => (nomatch h)⟩
  refine ⟨staged.distinct, staged.few, staged.links, fun l j hj => ?_, staged.alone⟩
  rw [State.link_updLink] at hj
  split at hj
  · rename_i e
    simp only [List.append_assoc, List.mem_append, List.mem_singleton] at hj
    rw [e.1] at hj
    have old : j ∈ (s.link l).prio ++ (s.link l).bulk → ∃ o ∈ (s.updOp job fun o => { o with stage := .QUEUED }).hce.ops,
      o.job = j ∧ o.link = l := staged.queued l j
    rcases hj with h | rfl | h
    · exact old (List.mem_append_left _ h)
    · have named : o.job = j := by simpa using List.find?_some there
      exact ⟨_, List.mem_map_of_mem (List.mem_of_find?_eq_some there), by simp [named], by simp [named, e.1]⟩
    · exact old (List.mem_append_right _ h)
  · exact staged.queued l j hj

theorem Link.mem_join {x : Link} {pu : Purpose} {job j : Nat} :
    j ∈ (x.join pu job).prio ++ (x.join pu job).bulk ↔ j ∈ x.prio ++ x.bulk ∨ j = job := by
  cases pu <;> simp [Link.join, or_assoc, or_comm (a := j = job)]

theorem State.JobsOk.create {s t : State} (ok : s.JobsOk) {pu : Purpose} {st n u job : Nat} {a : Addr} {g : Stage}
    (made : s.createOp pu st n a u g = some (t, job)) (link : 1 ≤ a.link ∧ a.link ≤ 4) (alone : s.hasOp n = false) :
    t.JobsOk := by
  obtain ⟨-, hce⟩ := State.createOp_hce made
  obtain ⟨room, -⟩ := (State.roomFor_iff _ _ _ _).mp (State.createOp_roomFor made)
  refine ⟨?_, ?_, ?_, fun l j hj => ?_, ?_⟩
  · rw [hce, List.map_append, List.map_singleton]
    exact ok.distinct.append (List.nodup_singleton _) (by simpa [newOp] using State.nextJob_fresh ok.few)
  · rw [hce, List.length_append, List.length_singleton]
    exact room
  · rw [hce]
    intro o ho
    rcases List.mem_append.mp ho with h | h
    · exact ok.links o h
    · obtain rfl := List.mem_singleton.mp h
      exact link
  · have old : j ∈ (s.link l).prio ++ (s.link l).bulk → ∃ o ∈ t.hce.ops, o.job = j ∧ o.link = l := fun h => by
      obtain ⟨o, ho, e⟩ := ok.queued l j h
      exact ⟨o, hce ▸ List.mem_append_left _ ho, e⟩
    rw [State.createOp_link made] at hj
    split at hj
    · rename_i e
      rcases Link.mem_join.mp hj with h | rfl
      · exact old h
      · refine ⟨newOp s.nextJob pu st n a u g, ?_, rfl, e.2.1⟩
        rw [hce]
        exact List.mem_append_right _ (List.mem_singleton_self _)
    · exact old hj
  · rw [hce, List.map_append, List.map_singleton]
    refine ok.alone.append (List.nodup_singleton _) ?_
    have absent : ∀ o ∈ s.hce.ops, o.comp ≠ n := by simpa [State.hasOp, State.opOn] using alone
    simpa [newOp] using absent

/-! ### The heads -/

/-- The head that a link offers is one of its queued jobs, and the link has no strike in flight (R72). -/
theorem State.readyHead_spec {s : State} {l : Nat} {o : Op} (h : s.readyHead l = some o) :
    (s.link l).strike = none ∧ o ∈ s.hce.ops ∧ o.job ∈ (s.link l).prio ++ (s.link l).bulk := by
  unfold State.readyHead at h
  dsimp only at h
  split at h
  · cases h
  · rename_i free
    have idle : (s.link l).strike = none := by simpa using free
    have found : ∀ j, s.opByJob j = some o → o ∈ s.hce.ops ∧ o.job = j := fun j hj =>
      ⟨List.mem_of_find?_eq_some hj, by simpa using List.find?_some hj⟩
    split at h
    · rename_i j js first
      obtain ⟨there, rfl⟩ := found j h
      exact ⟨idle, there, by simp [first]⟩
    · split at h
      · split at h
        · rename_i j js first
          obtain ⟨there, rfl⟩ := found j h
          exact ⟨idle, there, by simp [first]⟩
        · cases h
      · cases h

theorem State.grant_granted {s : State} {o : Op} (head : s.readyHead s.arb.turn = some o) (ok : s.JobsOk)
    (sum : s.arb.granted = s.strikeSum) : (s.grant o).arb.granted = (s.grant o).strikeSum := by
  obtain ⟨free, there, queued⟩ := State.readyHead_spec head
  have link := ok.link_of_queued there queued
  have moved := s.strikeSum_updLink (fun x => { x.leave o.job with strike := some (Strike.ofOp o) }) (ok.links o there)
  have nothing : (s.link o.link).strikeUnits = 0 := by
    unfold Link.strikeUnits
    rw [link, free]
  rw [nothing] at moved
  have here : (s.grant o).strikeSum = s.strikeSum + o.units := moved
  rw [here, ← sum]
  rfl

theorem State.dropStrike_granted {s : State} (l : Nat) (sum : s.arb.granted = s.strikeSum) :
    (s.dropStrike l).arb.granted = (s.dropStrike l).strikeSum := by
  unfold State.dropStrike
  split
  · rename_i k at_
    have inside : 1 ≤ l ∧ l ≤ 4 := by
      by_contra out
      rw [s.link_outside out] at at_
      cases at_
    have moved := s.strikeSum_updLink (fun x => { x with strike := none }) inside
    have units : (s.link l).strikeUnits = k.units := by
      unfold Link.strikeUnits
      rw [at_]
    have nothing : ({ s.link l with strike := none } : Link).strikeUnits = 0 := rfl
    have here : ((s.updLink l fun x => { x with strike := none }).returnUnits k.units).strikeSum + k.units =
      s.strikeSum := by
      rw [units, nothing] at moved
      exact moved
    have back : ((s.updLink l fun x => { x with strike := none }).returnUnits k.units).arb.granted =
      s.arb.granted - k.units := rfl
    rw [back]
    omega
  · exact sum

theorem Act.grants {s t : State} (a : Act c s t) (h : s.arb.granted = s.strikeSum ∧ s.JobsOk) :
    t.arb.granted = t.strikeSum ∧ t.JobsOk := by
  obtain ⟨sum, ok⟩ := h
  have frame : ∀ {u : State}, u.arb = s.arb → u.links = s.links → u.hce.ops = s.hce.ops →
      u.arb.granted = u.strikeSum ∧ u.JobsOk := fun arb links ops => by
    refine ⟨?_, ok.of_eq ops links⟩
    rw [arb, sum]
    exact (State.strikeSum_same fun l => by unfold State.link; rw [links]).symm
  -- the sum where every link keeps its strike
  have still : ∀ {u : State} (l : Nat) (f : Link → Link), (f (s.link l)).strikeUnits = (s.link l).strikeUnits →
      u.links = (s.updLink l f).links → u.arb = s.arb → u.arb.granted = u.strikeSum := fun l f units links arb => by
    rw [arb, sum]
    refine (State.strikeSum_same fun m => ?_).symm
    have read := State.link_updLink s l m f
    unfold State.link at read units ⊢
    rw [links, read]
    split
    · rename_i e
      exact e.1 ▸ units
    · rfl
  cases a with
  | link l f holds => exact ⟨still l f holds.units rfl rfl, ok.updLink holds.prio holds.bulk⟩
  | dropStrike l =>
    refine ⟨State.dropStrike_granted l sum, ?_⟩
    unfold State.dropStrike
    split
    · exact (ok.updLink (l := l) (f := fun x => { x with strike := none }) (.refl _) (.refl _)).of_eq rfl rfl
    · exact ok
  | grant o head =>
    refine ⟨State.grant_granted head ok sum, ?_⟩
    have left := ok.updLink (l := o.link) (f := fun x => { x.leave o.job with strike := some (Strike.ofOp o) })
      (Link.leave_sublist _ _).1 (Link.leave_sublist _ _).2
    exact (left.updOp o.job (f := fun o => { o with stage := .STRIKING })
      fun _ => ⟨rfl, rfl, rfl, rfl, rfl, fun h => (nomatch h)⟩).of_eq rfl rfl
  | create _ pu _ _ _ _ _ _ made link alone stage =>
    refine ⟨?_, ok.create made link alone⟩
    have arb : t.arb = s.arb := (congrArg State.arb (State.createOp_eq made) :)
    rw [arb, sum]
    refine (State.strikeSum_same fun l => ?_).symm
    rw [State.createOp_link made]
    split
    · cases pu <;> rfl
    · rfl
  | advance => exact ⟨sum, ok.of_eq rfl rfl⟩
  | mode m => exact ⟨sum, ok.of_eq rfl rfl⟩
  | op job f holds => exact ⟨sum, ok.updOp job holds⟩
  | remove o there => exact ⟨still o.link (fun x => x.leave o.job) rfl rfl rfl, ok.remove there⟩
  | join o job there =>
    exact ⟨still o.link (fun x => { x with prio := x.prio ++ [job] }) rfl rfl rfl, ok.join there⟩
  | retire n =>
    exact frame (congrArg State.arb (s.retire_eq n) :) (congrArg State.links (s.retire_eq n) :)
      (congrArg Hce.ops (s.hce_retire n))
  | undo n =>
    exact frame (congrArg State.arb (s.undo_eq n) :) (congrArg State.links (s.undo_eq n) :)
      (congrArg Hce.ops (s.hce_undo n))
  | restart i k =>
    obtain ⟨-, -, -, -, -, -, -, -, hce, -, -, arb, -⟩ := s.restartWith_eq i k
    have idle : ∀ l, ((s.restartWith i k).link l).strikeUnits = 0 ∧ ((s.restartWith i k).link l).prio = [] ∧
        ((s.restartWith i k).link l).bulk = [] := by
      intro l
      rcases s.link_restartWith i k l with ⟨b, e⟩ | e <;> rw [e] <;> exact ⟨rfl, rfl, rfl⟩
    refine ⟨?_, ?_, ?_, ?_, fun l j hj => ?_, ?_⟩
    · unfold State.strikeSum
      rw [arb, (idle 1).1, (idle 2).1, (idle 3).1, (idle 4).1]
    · rw [hce]; exact List.nodup_nil
    · rw [hce]; exact Nat.zero_le _
    · rw [hce]; exact fun o ho => (nomatch ho)
    · rw [(idle l).2.1, (idle l).2.2] at hj
      cases hj
    · rw [hce]; exact List.nodup_nil
  | _ => exact frame rfl rfl rfl

/-- Settles O8: each act keeps the sum of the granted units, the queues and the one operation of a compartment. -/
theorem grantedUnitsAreThoseOfTheStrikes : Obligations.GrantedUnitsAreThoseOfTheStrikes := by
  intro s t exact_ one e
  refine t.grants_iff.mpr (step_keep_acts (P := fun u => u.arb.granted = u.strikeSum ∧ u.JobsOk) ?_
    (fun _ _ _ => Act.grants) (s.grants_iff.mp ⟨exact_, one⟩) e)
  rintro u cs ⟨sum, distinct, few, links, queued, alone⟩
  exact ⟨sum, distinct, few, links, queued, alone⟩

end Sys2Proof.Machine
end

