-- ==== Sys2Proof/Proofs/Parcels.lean ====
section
/-! The parcel records: where they stand, the references of the pages they name, and their access codes. -/

namespace Sys2Proof.Machine

open Sys2Proof

variable {c : Instr}

/-! ### The compartment table as a list -/

theorem State.comps_toList (s : State) : s.comps.toList = compNos.map s.comp := by
  refine List.ext_getElem (by simp [compNos]) fun i h h' => ?_
  have inside : i < 240 := by simpa using h
  simp [compNos, State.comp, Nat.add_comm 1, tget, inside]

/-- The page that the parcel of a compartment names. -/
def State.pageAt (s : State) (n : Nat) : Option (Fin 4) := (s.comp n).bond.1

/-- The access code of the parcel of a compartment. -/
def State.codeAt (s : State) (n : Nat) : Option Nat := (s.comp n).bond.2

theorem State.namers_length (s : State) (i : Fin 4) :
    (s.namers i).length = compNos.countP fun n => decide (s.pageAt n = some i) := by
  unfold State.namers
  rw [← List.countP_eq_length_filter]
  refine List.countP_congr fun n _ => ?_
  unfold State.pageAt Compartment.bond
  cases (s.comp n).parcel <;> simp

theorem State.mem_liveCodes {s : State} {k : Nat} : k ∈ s.liveCodes ↔ ∃ n, isComp n ∧ s.codeAt n = some k := by
  unfold State.liveCodes
  rw [State.comps_toList, List.filterMap_map, List.mem_filterMap]
  simp only [mem_compNos]
  rfl

theorem State.nodup_liveCodes {s : State} : s.liveCodes.Nodup ↔
    ∀ n m k, isComp n → isComp m → s.codeAt n = some k → s.codeAt m = some k → n = m := by
  have list : s.liveCodes = compNos.filterMap s.codeAt := by
    unfold State.liveCodes
    rw [State.comps_toList, List.filterMap_map]
    rfl
  rw [list]
  constructor
  · intro h n m k hn hm e e'
    have pairs := List.pairwise_filterMap.mp h
    by_contra apart
    have : Std.Symm fun a b => ∀ x, s.codeAt a = some x → ∀ y, s.codeAt b = some y → x ≠ y :=
      ⟨fun a b r x hx y hy => (r y hy x hx).symm⟩
    exact pairs.forall (mem_compNos.mpr hn) (mem_compNos.mpr hm) apart k e k e' rfl
  · intro h
    refine List.pairwise_filterMap.mpr (nodup_compNos.imp_of_mem fun {n m} hn hm apart k e k' e' same => ?_)
    exact apart (h n m k (mem_compNos.mp hn) (mem_compNos.mp hm) e (same ▸ e'))

theorem State.codesDistinct_iff (s : State) : s.codesDistinct ↔
    (∀ n m k, isComp n → isComp m → s.codeAt n = some k → s.codeAt m = some k → n = m) ∧
    (s.alloc.retired.map (·.code)).Nodup ∧ ∀ e ∈ s.alloc.retired, ∀ n, isComp n → s.codeAt n ≠ some e.code := by
  unfold State.codesDistinct
  rw [State.nodup_liveCodes]
  simp only [State.mem_liveCodes, not_exists, not_and, ne_eq]

/-- Counting over a list without repetition, where one entry changes. -/
theorem countP_change {p q : Nat → Bool} {n : Nat} {l : List Nat} (nodup : l.Nodup) (there : n ∈ l)
    (others : ∀ m, m ≠ n → q m = p m) :
    l.countP q + (if p n then 1 else 0) = l.countP p + if q n then 1 else 0 := by
  induction l with
  | nil => cases there
  | cons m l ih =>
    obtain ⟨fresh, nodup⟩ := List.nodup_cons.mp nodup
    simp only [List.countP_cons]
    by_cases e : m = n
    · subst e
      have rest : l.countP q = l.countP p := List.countP_congr fun k hk => by
        rw [others k fun e => fresh (e ▸ hk)]
      omega
    · rw [others m e]
      have later := ih nodup (List.mem_of_ne_of_mem (Ne.symm e) there)
      omega

/-! ### A parcel record that leaves -/

/-- A parcel record leaves compartment `n`, and the page it names loses a reference. -/
structure State.Unloads (s t : State) (n : Nat) (p : Parcel) : Prop where
  there : (s.comp n).parcel = some p
  gone : (t.comp n).parcel = none
  others : ∀ m, m ≠ n → t.comp m = s.comp m
  refs : ∀ i, t.pageRefs i = if p.page = some i then s.pageRefs i - 1 else s.pageRefs i

theorem State.pageRefs_updRefs (s : State) (i j : Fin 4) (f : Nat → Nat) :
    (s.updRefs i f).pageRefs j = if i = j then f (s.pageRefs i) else s.pageRefs j := by
  by_cases e : i = j
  · subst e
    simp [State.pageRefs, State.updRefs]
  · have apart : i.val ≠ j.val := fun k => e (Fin.ext k)
    simp [State.pageRefs, State.updRefs, e, apart]

theorem State.pageRefs_releasePage (s : State) (p : Parcel) (i : Fin 4) :
    (s.releasePage p).pageRefs i = if p.page = some i then s.pageRefs i - 1 else s.pageRefs i := by
  unfold State.releasePage
  cases p.page with
  | none => simp
  | some j =>
    dsimp only
    rw [State.pageRefs_updRefs]
    by_cases e : j = i
    · simp [e]
    · simp [e]

theorem State.comp_outside (s : State) {n : Nat} (h : ¬isComp n) : s.comp n = Compartment.factory :=
  tget_outside _ _ (by unfold isComp at h; omega)

theorem State.isComp_of_parcel {s : State} {n : Nat} {p : Parcel} (h : (s.comp n).parcel = some p) : isComp n := by
  by_contra out
  rw [s.comp_outside out] at h
  cases h

/-- An update that empties the parcel record, after the page has lost its reference. -/
theorem State.Unloads.of {s u : State} {n : Nat} {p : Parcel} {f : Compartment → Compartment}
    (there : (s.comp n).parcel = some p) (gone : ∀ x : Compartment, (f x).parcel = none) (comps : u.comps = s.comps)
    (refs : ∀ i, u.pageRefs i = if p.page = some i then s.pageRefs i - 1 else s.pageRefs i) :
    s.Unloads (u.updComp n f) n p where
  there := there
  gone := by
    obtain ⟨lo, hi⟩ := State.isComp_of_parcel there
    rw [State.comp_updComp_self _ _ lo hi]
    exact gone _
  others m apart := by
    rw [State.comp_updComp_ne _ _ (Ne.symm apart)]
    unfold State.comp
    rw [comps]
  refs := refs

theorem State.comps_releasePage (s : State) (p : Parcel) : (s.releasePage p).comps = s.comps := by
  unfold State.releasePage
  split <;> rfl

theorem State.retire_unloads {s : State} {n : Nat} {p : Parcel} (there : (s.comp n).parcel = some p) :
    s.Unloads (s.retire n) n p := by
  unfold State.retire
  rw [there]
  dsimp only
  cases p.code with
  | none =>
    refine .of there (fun x => ?_) (State.comps_releasePage s p) (State.pageRefs_releasePage s p)
    rfl
  | some k =>
    refine .of there (fun x => ?_) (State.comps_releasePage _ p) (State.pageRefs_releasePage _ p)
    rfl

theorem State.undo_unloads {s : State} {n : Nat} {p : Parcel} (there : (s.comp n).parcel = some p) :
    s.Unloads (s.undo n).1 n p := by
  unfold State.undo
  rw [there]
  dsimp only
  split
  · split
    all_goals
      dsimp only
      refine .of there (fun x => ?_) (State.comps_releasePage s p) (State.pageRefs_releasePage s p)
      rfl
  · dsimp only
    refine .of there (fun x => ?_) (State.comps_releasePage s p) (State.pageRefs_releasePage s p)
    rfl

theorem State.retire_none {s : State} {n : Nat} (h : (s.comp n).parcel = none) : s.retire n = s := by
  unfold State.retire
  rw [h]

theorem State.undo_none {s : State} {n : Nat} (h : (s.comp n).parcel = none) : (s.undo n).1 = s := by
  unfold State.undo
  rw [h]

/-- The state that each compartment has and its parcel, after a record has left. -/
theorem State.Unloads.placed {s t : State} {n : Nat} {p : Parcel} (h : s.Unloads t n p) (placed : s.parcelsPlaced) :
    t.parcelsPlaced := by
  intro m at_
  by_cases e : m = n
  · exact e ▸ h.gone
  · rw [h.others m e] at at_ ⊢
    exact placed m at_

theorem State.Unloads.refsExact {s t : State} {n : Nat} {p : Parcel} (h : s.Unloads t n p) (refs : s.refsExact) :
    t.refsExact := by
  intro i
  have before := refs i
  rw [State.namers_length] at before ⊢
  rw [h.refs i]
  have change := countP_change (p := fun m => decide (s.pageAt m = some i)) (q := fun m => decide (t.pageAt m = some i))
    nodup_compNos (mem_compNos.mpr (State.isComp_of_parcel h.there)) fun m e => by
      unfold State.pageAt
      rw [h.others m e]
  have old : s.pageAt n = p.page := by simp [State.pageAt, Compartment.bond, h.there]
  have new : t.pageAt n = none := by simp [State.pageAt, Compartment.bond, h.gone]
  simp only [old, new, decide_eq_true_eq, reduceCtorEq, if_false] at change
  split at change
  · rename_i e
    rw [if_pos e]
    omega
  · rename_i e
    rw [if_neg e]
    omega

/-! ### What an act does to the parcel records -/

/-- An act leaves every bond and every reference, takes a parcel record out, or is one of those that write them. -/
theorem State.bond_updComp {s : State} {n : Nat} {f : Compartment → Compartment}
    (h : (f (s.comp n)).bond = (s.comp n).bond) (m : Nat) : ((s.updComp n f).comp m).bond = (s.comp m).bond := by
  rw [State.comp_updComp]
  split
  · rename_i e
    rw [h, e.1]
  · rfl

theorem State.placed_updComp {s : State} {n : Nat} {f : Compartment → Compartment} (placed : s.parcelsPlaced)
    (h : (f (s.comp n)).placed) : (s.updComp n f).parcelsPlaced := by
  intro m
  rw [State.comp_updComp]
  split
  · exact h
  · exact placed m

/-- Every compartment keeps the page and the code of its parcel. -/
def State.sameBonds (s t : State) : Prop := ∀ n, (t.comp n).bond = (s.comp n).bond

theorem State.refsExact_of_same {s t : State} (bonds : s.sameBonds t) (refs : ∀ i, t.pageRefs i = s.pageRefs i)
    (h : s.refsExact) : t.refsExact := by
  intro i
  have before := h i
  rw [State.namers_length] at before ⊢
  rw [refs, before]
  exact List.countP_congr fun n _ => by
    unfold State.pageAt
    rw [bonds n]

theorem State.comp_of_comps {s t : State} (h : t.comps = s.comps) (n : Nat) : t.comp n = s.comp n := by
  unfold State.comp
  rw [h]

theorem State.comp_depositComp (s : State) (d : DepositReq) (n code m : Nat) : (s.depositComp d n code).comp m =
    if n = m ∧ isComp n then { s.comp n with
      state := .DEPOSITING, reservation := none, parcel := some (d.parcel s.tariff.active s.now code (s.comp n).priorOf) }
    else s.comp m :=
  State.comp_updComp s n m fun x => { x with
    state := .DEPOSITING, reservation := none, parcel := some (d.parcel s.tariff.active s.now code x.priorOf) }

theorem State.pageRefs_depositComp (s : State) (d : DepositReq) (n code : Nat) (i : Fin 4) :
    (s.depositComp d n code).pageRefs i = if s.tariff.active = i then s.pageRefs i + 1 else s.pageRefs i := by
  unfold State.depositComp
  rw [State.pageRefs_updRefs]
  split
  · rename_i e
    exact e ▸ rfl
  · rfl

/-- A delivery's parcel record joins a compartment that has none. -/
theorem State.refsExact_deposit {s : State} (d : DepositReq) {n : Nat} (code : Nat) (inTable : isComp n)
    (empty : (s.comp n).parcel = none) (refs : s.refsExact) : (s.depositComp d n code).refsExact := by
  intro i
  have before := refs i
  rw [State.namers_length] at before ⊢
  rw [State.pageRefs_depositComp]
  have change := countP_change (p := fun m => decide (s.pageAt m = some i))
    (q := fun m => decide ((s.depositComp d n code).pageAt m = some i)) nodup_compNos (mem_compNos.mpr inTable)
    fun m e => by
      unfold State.pageAt
      rw [State.comp_depositComp, if_neg fun k => e k.1.symm]
  have old : s.pageAt n = none := by simp [State.pageAt, Compartment.bond, empty]
  have new : (s.depositComp d n code).pageAt n = some s.tariff.active := by
    unfold State.pageAt
    rw [State.comp_depositComp, if_pos ⟨rfl, inTable⟩]
    rfl
  simp only [old, new, decide_eq_true_eq, reduceCtorEq, if_false, Option.some.injEq] at change
  split at change
  · rename_i e
    rw [if_pos e]
    omega
  · rename_i e
    rw [if_neg e]
    omega

theorem State.parcelsPlaced_of_comps {s t : State} (h : t.comps = s.comps) (placed : s.parcelsPlaced) :
    t.parcelsPlaced := fun n => by
  rw [State.comp_of_comps h]
  exact placed n

theorem State.comp_factoryBlocks (s : State) (n : Nat) : (s.factoryBlocks.comp n).parcel = none := by
  have read := State.comp_map (s := s) (t := s.factoryBlocks) (f := Compartment.cleared) rfl n
  rw [read]
  split <;> rfl

theorem State.comp_restartWith (s : State) (i : RestartInputs) (k : ResetCause) (n : Nat) :
    ((s.restartWith i k).comp n).state = (s.comp n).state ∧
      ((s.restartWith i k).comp n).parcel = (s.comp n).parcel := by
  obtain ⟨-, -, -, -, -, -, -, comps, -⟩ := s.restartWith_eq i k
  rw [State.comp_map comps]
  split
  · exact ⟨rfl, rfl⟩
  · rename_i out
    rw [s.comp_outside out]
    exact ⟨rfl, rfl⟩

theorem State.comps_grant (s : State) (o : Op) :
    (s.grant o).comps = (s.updComp o.comp fun x => { x with purpose := some o.purpose }).comps := rfl

theorem Act.placed {s t : State} (a : Act c s t) (placed : s.parcelsPlaced) : t.parcelsPlaced := by
  cases a with
  | comp n f holds => exact State.placed_updComp placed (holds.placed (placed n))
  | resect n f holds => exact State.placed_updComp placed (holds.placed (placed n))
  | strikeCount n => exact State.placed_updComp placed (placed n)
  | retire n =>
    cases hp : (s.comp n).parcel with
    | none => exact (State.retire_none hp).symm ▸ placed
    | some p => exact (State.retire_unloads hp).placed placed
  | undo n =>
    cases hp : (s.comp n).parcel with
    | none => exact (State.undo_none hp).symm ▸ placed
    | some p => exact (State.undo_unloads hp).placed placed
  | deposit d n code inTable =>
    intro m
    rw [State.comp_depositComp]
    split
    · rintro (h | h | h) <;> cases h
    · exact placed m
  | create _ _ _ _ _ _ _ _ made => exact State.parcelsPlaced_of_comps (congrArg State.comps (State.createOp_eq made) :) placed
  | dropStrike l => exact State.parcelsPlaced_of_comps (congrArg State.comps (s.dropStrike_eq l) :) placed
  | grant o =>
    have here : (s.updComp o.comp fun x => { x with purpose := some o.purpose }).parcelsPlaced :=
      State.placed_updComp placed (placed o.comp)
    exact State.parcelsPlaced_of_comps (s.comps_grant o) here
  | factory => exact fun n _ => s.comp_factoryBlocks n
  | restart i k =>
    intro n
    rw [(s.comp_restartWith i k n).1, (s.comp_restartWith i k n).2]
    exact placed n
  | _ => exact State.parcelsPlaced_of_comps rfl placed

theorem Act.refsExact {s t : State} (a : Act c s t) (placed : s.parcelsPlaced) (refs : s.refsExact) : t.refsExact := by
  have frame : ∀ {u : State}, u.comps = s.comps → (∀ i, u.pageRefs i = s.pageRefs i) → u.refsExact :=
    fun comps same => State.refsExact_of_same (fun n => by rw [State.comp_of_comps comps]) same refs
  have changed : ∀ n (f : Compartment → Compartment), (f (s.comp n)).bond = (s.comp n).bond →
      (s.updComp n f).refsExact := fun n f same =>
    State.refsExact_of_same (State.bond_updComp same) (fun _ => rfl) refs
  cases a with
  | comp n f holds => exact changed n f (holds.bond (placed n))
  | resect n f holds => exact changed n f (holds.bond (placed n))
  | strikeCount n => exact changed n _ rfl
  | retire n =>
    cases hp : (s.comp n).parcel with
    | none => exact (State.retire_none hp).symm ▸ refs
    | some p => exact (State.retire_unloads hp).refsExact refs
  | undo n =>
    cases hp : (s.comp n).parcel with
    | none => exact (State.undo_none hp).symm ▸ refs
    | some p => exact (State.undo_unloads hp).refsExact refs
  | deposit d n code inTable free =>
    exact State.refsExact_deposit d code inTable (placed n (free.imp_right .inl)) refs
  | tariff f pages same => exact frame rfl fun i => by unfold State.pageRefs; rw [State.updTariff_tariff, same]
  | create _ _ _ _ _ _ _ _ made =>
    exact frame (congrArg State.comps (State.createOp_eq made) :) fun i =>
      (congrArg (fun u : State => u.pageRefs i) (State.createOp_eq made) :)
  | dropStrike l =>
    exact frame (congrArg State.comps (s.dropStrike_eq l) :) fun i =>
      (congrArg (fun u : State => u.pageRefs i) (s.dropStrike_eq l) :)
  | grant o =>
    have here := changed o.comp (fun x => { x with purpose := some o.purpose }) rfl
    exact State.refsExact_of_same (fun n => by rw [State.comp_of_comps (s.comps_grant o)]) (fun _ => rfl) here
  | factory =>
    intro i
    have zero : s.factoryBlocks.pageRefs i = 0 := by simp [State.pageRefs, State.factoryBlocks, Tariff.factory]
    rw [State.namers_length, zero]
    refine (List.countP_eq_zero.mpr fun n _ => ?_).symm
    simp [State.pageAt, Compartment.bond, s.comp_factoryBlocks n]
  | restart i k =>
    obtain ⟨-, -, -, -, tariff, -⟩ := s.restartWith_eq i k
    refine State.refsExact_of_same (fun n => ?_) (fun j => ?_) refs
    · unfold Compartment.bond
      rw [(s.comp_restartWith i k n).2]
    · unfold State.pageRefs
      rw [tariff]
  | _ => exact frame rfl fun _ => rfl

/-- Settles O6: a reference is counted where a parcel record joins and lost where it leaves. -/
theorem referenceCountsKept : Obligations.ReferenceCountsKept := by
  intro s t placed refs e
  exact step_keep_acts (P := fun u => u.parcelsPlaced ∧ u.refsExact) (fun _ _ => id) 
    (fun _ _ _ a h => ⟨a.placed h.1, a.refsExact h.1 h.2⟩) ⟨placed, refs⟩ e

/-! ### Access codes -/

theorem State.codesDistinct_of_same {s t : State} (bonds : s.sameBonds t)
    (retired : t.alloc.retired.Sublist s.alloc.retired) (h : s.codesDistinct) : t.codesDistinct := by
  have same : ∀ n, t.codeAt n = s.codeAt n := fun n => by unfold State.codeAt; rw [bonds n]
  obtain ⟨one, nodup, apart⟩ := s.codesDistinct_iff.mp h
  refine t.codesDistinct_iff.mpr ⟨fun n m k => ?_, nodup.sublist (retired.map _), fun e he n hn => ?_⟩
  · rw [same, same]
    exact one n m k
  · rw [same]
    exact apart e (retired.subset he) n hn

/-- A parcel record leaves: its code is no longer live, and only it may have been retired. -/
theorem State.Unloads.codesDistinct {s t : State} {n : Nat} {p : Parcel} (h : s.Unloads t n p)
    (retired : t.alloc.retired.Sublist s.alloc.retired ∨ ∃ k r, p.code = some k ∧ r.Sublist s.alloc.retired ∧
      t.alloc.retired = r ++ [{ code := k, minute := s.now }]) (codes : s.codesDistinct) : t.codesDistinct := by
  have old : s.codeAt n = p.code := by simp [State.codeAt, Compartment.bond, h.there]
  have new : t.codeAt n = none := by simp [State.codeAt, Compartment.bond, h.gone]
  have others : ∀ m, m ≠ n → t.codeAt m = s.codeAt m := fun m e => by unfold State.codeAt; rw [h.others m e]
  have sub : ∀ m k, t.codeAt m = some k → m ≠ n ∧ s.codeAt m = some k := fun m k e => by
    have apart : m ≠ n := fun e' => by rw [e', new] at e; cases e
    exact ⟨apart, others m apart ▸ e⟩
  obtain ⟨one, nodup, apart⟩ := s.codesDistinct_iff.mp codes
  refine t.codesDistinct_iff.mpr ⟨fun a b k ha hb ea eb => one a b k ha hb (sub a k ea).2 (sub b k eb).2, ?_, ?_⟩
  · rcases retired with less | ⟨k, r, code, less, e⟩
    · exact nodup.sublist (less.map _)
    · rw [e, List.map_append, List.map_singleton]
      refine (nodup.sublist (less.map _)).append (List.nodup_singleton _) ?_
      intro x hx hk
      obtain rfl := List.mem_singleton.mp hk
      obtain ⟨y, hy, ey⟩ := List.mem_map.mp hx
      exact apart y (less.subset hy) n (State.isComp_of_parcel h.there) (by rw [old, code, ey])
  · intro e he m hm live
    obtain ⟨away, before⟩ := sub m _ live
    rcases retired with less | ⟨k, r, code, less, eq⟩
    · exact apart e (less.subset he) m hm before
    · rw [eq] at he
      rcases List.mem_append.mp he with h' | h'
      · exact apart e (less.subset h') m hm before
      · obtain rfl := List.mem_singleton.mp h'
        exact away (one m n k hm (State.isComp_of_parcel h.there) before (old.trans code))

theorem State.alloc_releasePage (s : State) (p : Parcel) : (s.releasePage p).alloc = s.alloc := by
  unfold State.releasePage
  split <;> rfl

/-- The retired list after the retirement of a parcel. -/
theorem State.retired_retire {s : State} {n : Nat} {p : Parcel} (there : (s.comp n).parcel = some p) :
    (s.retire n).alloc.retired.Sublist s.alloc.retired ∨ ∃ k r, p.code = some k ∧ r.Sublist s.alloc.retired ∧
      (s.retire n).alloc.retired = r ++ [{ code := k, minute := s.now }] := by
  have retired : (s.retire n).alloc = match p.code with
      | some k => s.alloc.retire k s.now
      | none => s.alloc := by
    unfold State.retire
    rw [there]
    dsimp only
    cases p.code
    · exact State.alloc_releasePage s p
    · exact State.alloc_releasePage _ p
  cases code : p.code with
  | none =>
    rw [code] at retired
    exact .inl (retired ▸ .refl _)
  | some k =>
    rw [code] at retired
    refine .inr ⟨k, _, rfl, ?_, congrArg Alloc.retired retired⟩
    split
    · exact .refl _
    · exact List.drop_sublist _ _

theorem Act.codes {s t : State} (a : Act c s t) (placed : s.parcelsPlaced) (h : s.codesDistinct) : t.codesDistinct := by
  have frame : ∀ {u : State}, u.comps = s.comps → u.alloc = s.alloc → u.codesDistinct := fun comps alloc =>
    State.codesDistinct_of_same (fun n => by rw [State.comp_of_comps comps]) (alloc ▸ .refl _) h
  have changed : ∀ n (f : Compartment → Compartment), (f (s.comp n)).bond = (s.comp n).bond →
      (s.updComp n f).codesDistinct := fun n f same =>
    State.codesDistinct_of_same (State.bond_updComp same) (.refl _) h
  cases a with
  | comp n f holds => exact changed n f (holds.bond (placed n))
  | resect n f holds => exact changed n f (holds.bond (placed n))
  | strikeCount n => exact changed n _ rfl
  | retire n =>
    cases hp : (s.comp n).parcel with
    | none => exact (State.retire_none hp).symm ▸ h
    | some p => exact (State.retire_unloads hp).codesDistinct (State.retired_retire hp) h
  | undo n =>
    cases hp : (s.comp n).parcel with
    | none => exact (State.undo_none hp).symm ▸ h
    | some p =>
      have alloc : (s.undo n).1.alloc = s.alloc := (congrArg State.alloc (s.undo_eq n) :)
      exact (State.undo_unloads hp).codesDistinct (.inl (alloc ▸ .refl _)) h
  | deposit d n code inTable free fresh =>
    obtain ⟨one, nodup, apart⟩ := s.codesDistinct_iff.mp h
    obtain ⟨unused, never⟩ : code ∉ s.liveCodes ∧ ∀ e ∈ s.alloc.retired, e.code ≠ code := by
      simpa [State.codeUsed] using fresh
    have here : (s.depositComp d n code).codeAt n = some code := by
      unfold State.codeAt
      rw [State.comp_depositComp, if_pos ⟨rfl, inTable⟩]
      rfl
    have others : ∀ m, m ≠ n → (s.depositComp d n code).codeAt m = s.codeAt m := fun m e => by
      unfold State.codeAt
      rw [State.comp_depositComp, if_neg fun k => e k.1.symm]
    have elsewhere : ∀ m, isComp m → m ≠ n → (s.depositComp d n code).codeAt m ≠ some code := fun m hm e live =>
      unused (State.mem_liveCodes.mpr ⟨m, hm, others m e ▸ live⟩)
    refine (State.codesDistinct_iff _).mpr ⟨fun a b k ha hb ea eb => ?_, nodup, fun e he m hm live => ?_⟩
    · by_cases na : a = n
      · by_contra ab
        have kc : code = k := Option.some.inj (here.symm.trans (na ▸ ea))
        exact elsewhere b hb (fun nb => ab (na.trans nb.symm)) (kc ▸ eb)
      · by_cases nb : b = n
        · have kc : code = k := Option.some.inj (here.symm.trans (nb ▸ eb))
          exact absurd (kc ▸ ea) (elsewhere a ha na)
        · exact one a b k ha hb (others a na ▸ ea) (others b nb ▸ eb)
    · by_cases nm : m = n
      · rw [nm, here] at live
        exact never e he (Option.some.inj live).symm
      · exact apart e he m hm (others m nm ▸ live)
  | alloc f sub => exact State.codesDistinct_of_same (s := s) (t := s.updAlloc f) (fun _ => rfl) sub h
  | create _ _ _ _ _ _ _ _ made =>
    exact frame (congrArg State.comps (State.createOp_eq made) :) (congrArg State.alloc (State.createOp_eq made) :)
  | dropStrike l => exact frame (congrArg State.comps (s.dropStrike_eq l) :) (congrArg State.alloc (s.dropStrike_eq l) :)
  | grant o => exact changed o.comp (fun x => { x with purpose := some o.purpose }) rfl
  | factory =>
    refine (State.codesDistinct_iff _).mpr ⟨fun n m k _ _ e => ?_, List.nodup_nil, fun e he => (nomatch he)⟩
    unfold State.codeAt at e
    unfold Compartment.bond at e
    rw [s.comp_factoryBlocks n] at e
    cases e
  | restart i k =>
    obtain ⟨-, -, -, alloc, -⟩ := s.restartWith_eq i k
    refine State.codesDistinct_of_same (fun n => ?_) (alloc ▸ .refl _) h
    unfold Compartment.bond
    rw [(s.comp_restartWith i k n).2]
  | _ => exact frame rfl rfl

/-- Settles O7: a code is drawn unused, and retired as its parcel record leaves. -/
theorem codesStayDistinct : Obligations.CodesStayDistinct := by
  intro s t placed codes e
  exact (step_keep_acts (P := fun u => u.parcelsPlaced ∧ u.codesDistinct) (fun _ _ => id)
    (fun _ _ _ a h => ⟨a.placed h.1, a.codes h.1 h.2⟩) ⟨placed, codes⟩ e).2

end Sys2Proof.Machine
end

