-- ==== Sys2Proof/Proofs/Wiring.lean ====
section
/-! Sections, map entries, resolution and the law of distinct addresses (R29 to R42). -/

namespace Sys2Proof.Machine

open Sys2Proof

variable {c : Instr}

/-! ### What the wiring depends on -/

/-- Compartments, sections and map entries name the same addresses: all but the hold flags is as it was. -/
structure State.SameWiring (s t : State) : Prop where
  sect : ∀ n, (t.comp n).sect = (s.comp n).sect
  sects : ∀ i, ∃ b, t.sect i = { s.sect i with hold := b }
  map : ∀ n, t.mapEntry n = s.mapEntry n

theorem State.SameWiring.refl (s : State) : s.SameWiring s := ⟨fun _ => rfl, fun i => ⟨(s.sect i).hold, rfl⟩, fun _ => rfl⟩

theorem State.SameWiring.namedAddr {s t : State} (h : s.SameWiring t) (n : Nat) : t.namedAddr n = s.namedAddr n := by
  unfold State.namedAddr
  rw [h.sect n]
  cases (s.comp n).sect with
  | none => rfl
  | some i =>
    obtain ⟨b, e⟩ := h.sects i
    dsimp only
    rw [e, h.map n]
    rfl

theorem State.SameWiring.enabled {s t : State} (h : s.SameWiring t) (n : Nat) :
    t.enabledRec (t.comp n) = s.enabledRec (s.comp n) := by
  unfold State.enabledRec
  rw [h.sect n]
  cases (s.comp n).sect with
  | none => rfl
  | some i =>
    obtain ⟨b, e⟩ := h.sects i
    dsimp only
    rw [e]

theorem State.SameWiring.law {s t : State} (h : s.SameWiring t) (law : s.sectionsAgree ∧ s.aliasFree) :
    t.sectionsAgree ∧ t.aliasFree := by
  obtain ⟨agree, free⟩ := law
  refine ⟨fun n lo hi i => ?_, fun n m a hn hn' hm hm' => ?_⟩
  · obtain ⟨b, e⟩ := h.sects i
    rw [h.sect n, e]
    exact agree n lo hi i
  · rw [h.enabled n, h.enabled m, h.namedAddr n, h.namedAddr m]
    exact free n m a hn hn' hm hm'

theorem State.SameWiring.trans {s t u : State} (h : s.SameWiring t) (k : t.SameWiring u) : s.SameWiring u where
  sect n := (k.sect n).trans (h.sect n)
  sects i := by
    obtain ⟨b, e⟩ := h.sects i
    obtain ⟨b', e'⟩ := k.sects i
    exact ⟨b', by rw [e', e]⟩
  map n := (k.map n).trans (h.map n)

theorem Kept.sameWiring {s t : State} (k : Kept s t) : s.SameWiring t where
  sect n := (k.comp n).2.1
  sects i := ⟨(s.sect i).hold, by unfold State.sect; rw [k.sects]⟩
  map n := by unfold State.mapEntry; rw [k.hatchMap]

/-- Compartments, sections and map entries as they were. -/
theorem State.SameWiring.of_eq {s t : State} (comps : t.comps = s.comps) (sects : t.sects = s.sects)
    (map : t.hatchMap = s.hatchMap) : s.SameWiring t where
  sect n := by rw [State.comp_of_comps comps]
  sects i := ⟨(s.sect i).hold, by unfold State.sect; rw [sects]⟩
  map n := by unfold State.mapEntry; rw [map]

theorem State.sect_updSect (s : State) (i j : Fin 8) (f : Sect → Sect) :
    (s.updSect i f).sect j = if i = j then f (s.sect i) else s.sect j := by
  by_cases e : i = j
  · subst e
    simp [State.sect, State.updSect]
  · have apart : i.val ≠ j.val := fun k => e (Fin.ext k)
    simp [State.sect, State.updSect, e, apart]

theorem State.SameWiring.updComp {s : State} {n : Nat} {f : Compartment → Compartment}
    (h : (f (s.comp n)).sect = (s.comp n).sect) : s.SameWiring (s.updComp n f) where
  sect m := by
    rw [State.comp_updComp]
    split
    · rename_i e
      rw [h, e.1]
    · rfl
  sects i := ⟨(s.sect i).hold, rfl⟩
  map _ := rfl

/-- The requests that draw the sections and the map. -/
def Instr.draws (c : Instr) : Prop :=
  ∃ h p, c = .sectionDefine h p ∨ c = .sectionEnable h p ∨ c = .mapWrite h p ∨ c = .factoryClear h p

theorem Act.sameWiring {s t : State} (a : Act c s t) (other : ¬Instr.draws c) : s.SameWiring t := by
  cases a with
  | comp n f holds sect => exact .updComp sect
  | resect n f holds by_ =>
    obtain ⟨h, p, e⟩ := by_
    exact absurd ⟨h, p, .inl e⟩ other
  | strikeCount n => exact .updComp rfl
  | retire n => exact (kept_retire s n).sameWiring
  | undo n => exact (kept_undo s n).sameWiring
  | deposit d n code =>
    have placed : s.SameWiring (s.updComp n fun x => { x with
      state := .DEPOSITING, reservation := none, parcel := some (d.parcel s.tariff.active s.now code x.priorOf) }) :=
      .updComp rfl
    exact placed.trans (kept_updRefs _ _ _).sameWiring
  | create _ _ _ _ _ _ _ _ made => exact (kept_createOp made).sameWiring
  | dropStrike l => exact (kept_dropStrike s l).sameWiring
  | grant o => exact (kept_grant s o).sameWiring
  | holdFlag i b =>
    refine ⟨fun _ => rfl, fun j => ?_, fun _ => rfl⟩
    rw [State.sect_updSect]
    split
    · rename_i e
      exact ⟨b, e ▸ rfl⟩
    · exact ⟨(s.sect j).hold, rfl⟩
  | sect i f by_ =>
    obtain ⟨h, p, e | e⟩ := by_
    exacts [absurd ⟨h, p, .inl e⟩ other, absurd ⟨h, p, .inr (.inl e)⟩ other]
  | mapEntry n e by_ =>
    obtain ⟨h, p, e | e⟩ := by_
    exacts [absurd ⟨h, p, .inl e⟩ other, absurd ⟨h, p, .inr (.inr (.inl e))⟩ other]
  | factory by_ =>
    obtain ⟨h, p, e⟩ := by_
    exact absurd ⟨h, p, .inr (.inr (.inr e))⟩ other
  | restart i k =>
    obtain ⟨sects, map, -, -, -, -, -, comps, -⟩ := s.restartWith_eq i k
    refine ⟨fun n => ?_, fun j => ⟨(s.sect j).hold, by unfold State.sect; rw [sects]⟩, fun n => ?_⟩
    · rw [State.comp_map comps]
      split
      · rfl
      · rename_i out
        rw [s.comp_outside out]
    · unfold State.mapEntry
      rw [map]
  | _ => exact .of_eq rfl rfl rfl

/-! ### Resolution (R32, R33, R36) -/

/-- A compartment outside the sections, or in a section that is not enabled, is unreachable. -/
theorem State.resolution_outside {s : State} {n : Nat} (h : (s.comp n).sect = none) : s.resolution n = .unreachable := by
  simp [State.resolution, State.located, h]

theorem State.resolution_disabled {s : State} {n : Nat} {i : Fin 8} (h : (s.comp n).sect = some i)
    (off : (s.sect i).enabled = false) : s.resolution n = .unreachable := by
  simp [State.resolution, State.located, h, off]

/-- Where the section is enabled, a resolution reaches the address located or ends as the stored entry says. -/
theorem State.resolution_direct {s : State} {n : Nat} {i : Fin 8} (h : (s.comp n).sect = some i)
    (on : (s.sect i).enabled = true) (mode : (s.sect i).mode = .DIRECT) :
    s.resolution n = s.reach ((s.sect i).directAddr n) := by
  simp [State.resolution, State.located, h, on, mode]

theorem State.resolution_mapped {s : State} {n : Nat} {i : Fin 8} (h : (s.comp n).sect = some i)
    (on : (s.sect i).enabled = true) (mode : (s.sect i).mode = .MAPPED) :
    s.resolution n = match s.mapEntry n with
      | none => .unreachable
      | some e => if e.matching n then s.reach e.addr else .mapFault e.addr := by
  simp only [State.resolution, State.located, h, on, mode]
  cases s.mapEntry n with
  | none => rfl
  | some e =>
    dsimp only
    by_cases hm : e.matching n = true
    · rw [if_pos hm, if_neg (by decide), if_pos hm]
    · rw [if_neg hm, if_neg (by decide), if_neg hm]

theorem MapEntry.matching_iff (e : MapEntry) (n : Nat) :
    e.matching n = true ↔ e.check = (90 + n + 17 * e.link + 31 * e.slot + 7 * e.channel) % 256 := by
  simp [MapEntry.matching, checkByte]

theorem State.reach_present {s : State} {a : Addr} {cc cu : Nat} (fitted : s.linkFitted a.link = true)
    (present : (s.slot a.link a.slot).state = .PRESENT) (chan : (s.slot a.link a.slot).chanCode = some cc)
    (cur : (s.slot a.link a.slot).curCode = some cu) :
    s.reach a = if a.channel < 4 * (cc + 1) then .ok a (2 * (cu + 1)) else .unreachable := by
  simp only [State.reach, fitted, present, Slot.channels, chan, Slot.units, cur, channelsOf, unitsOf]
  by_cases e : a.channel < 4 * (cc + 1)
  · simp [e]
  · simp [e, Nat.le_of_not_lt e]

theorem State.reach_absent {s : State} {a : Addr}
    (h : s.linkFitted a.link = false ∨ (s.slot a.link a.slot).state ≠ .PRESENT) : s.reach a = .unreachable := by
  unfold State.reach
  rcases h with h | h
  · rw [if_pos h]
  · rw [if_pos h]
    split <;> rfl

/-- Settles O41, by the section and its mode, and then by the address. -/
theorem resolutionFollowsTheSection : Obligations.ResolutionFollowsTheSection := by
  intro n s
  refine ⟨State.resolution_outside, fun i h => ⟨State.resolution_disabled h, fun on mode none => ?_,
    fun e on mode entry wrong => ?_, fun a on located => ?_⟩⟩
  · rw [State.resolution_mapped h on mode, none]
  · rw [State.resolution_mapped h on mode, entry]
    have mismatch : ¬e.matching n = true := fun k => wrong ((e.matching_iff n).mp k)
    simp only [mismatch, MapEntry.addr]
    rfl
  · have reaches : s.resolution n = s.reach a := by
      rcases located with ⟨mode, rfl⟩ | ⟨mode, e, entry, check, rfl⟩
      · exact State.resolution_direct h on mode
      · rw [State.resolution_mapped h on mode, entry]
        dsimp only
        rw [if_pos ((e.matching_iff n).mpr check)]
        rfl
    rw [reaches]
    exact ⟨fun _ _ => State.reach_present, State.reach_absent⟩

/-! ### The address check (R42) -/

/-- Two compartments of enabled sections are wired at one address. -/
def State.Meets (s : State) (n m : Nat) : Prop :=
  isComp n ∧ isComp m ∧ n ≠ m ∧ s.enabledRec (s.comp n) = true ∧ s.enabledRec (s.comp m) = true ∧
    ∃ a, s.namedAddr n = some a ∧ s.namedAddr m = some a

theorem State.mem_aliasTable {s : State} {n : Nat} {a : Addr} :
    (n, a) ∈ s.aliasTable ↔ isComp n ∧ s.enabledRec (s.comp n) = true ∧ s.namedAddr n = some a := by
  unfold State.aliasTable
  rw [List.mem_filterMap]
  constructor
  · rintro ⟨m, hm, e⟩
    split at e
    · rename_i on
      cases named : s.namedAddr m with
      | none => rw [named] at e; cases e
      | some b =>
        rw [named] at e
        cases e
        exact ⟨mem_compNos.mp hm, on, named⟩
    · cases e
  · rintro ⟨hn, on, named⟩
    exact ⟨n, mem_compNos.mpr hn, by rw [if_pos on, named]; rfl⟩

/-- The pair that the check names are two compartments that meet. -/
theorem State.meets_of_aliasAmong {s : State} {ns : List Nat} {n m : Nat}
    (h : aliasAmong s.aliasTable ns = some (n, m)) : s.Meets n m := by
  induction ns with
  | nil => cases h
  | cons k ns ih =>
    unfold aliasAmong at h
    split at h
    · exact ih h
    · rename_i e he
      split at h
      · rename_i e' he'
        cases h
        have first : e.1 = n := by simpa using List.find?_some he
        obtain ⟨apart, same⟩ : e'.1 ≠ n ∧ e'.2 = e.2 := by simpa using List.find?_some he'
        obtain ⟨k, a⟩ := e
        obtain ⟨k', a'⟩ := e'
        obtain ⟨hn, on, named⟩ := State.mem_aliasTable.mp (List.mem_of_find?_eq_some he)
        obtain ⟨hm, on', named'⟩ := State.mem_aliasTable.mp (List.mem_of_find?_eq_some he')
        dsimp only at first apart same
        subst first same
        exact ⟨hn, hm, Ne.symm apart, on, on', _, named, named'⟩
      · exact ih h

/-- A check that passes names no compartment of its list that meets another. -/
theorem State.not_meets_of_aliasAmong {s : State} {ns : List Nat} (h : aliasAmong s.aliasTable ns = none) {n m : Nat}
    (hn : n ∈ ns) : ¬s.Meets n m := by
  induction ns with
  | nil => cases hn
  | cons k ns ih =>
    rintro ⟨cn, cm, apart, on, on', a, named, named'⟩
    have meets : s.Meets n m := ⟨cn, cm, apart, on, on', a, named, named'⟩
    unfold aliasAmong at h
    split at h
    · rename_i absent
      rcases List.mem_cons.mp hn with rfl | later
      · have := List.find?_eq_none.mp absent (n, a) (State.mem_aliasTable.mpr ⟨cn, on, named⟩)
        simp at this
      · exact ih h later meets
    · rename_i e he
      split at h
      · cases h
      · rename_i alone
        rcases List.mem_cons.mp hn with rfl | later
        · have first : e.1 = n := by simpa using List.find?_some he
          obtain ⟨k, b⟩ := e
          obtain ⟨-, -, at_⟩ := State.mem_aliasTable.mp (List.mem_of_find?_eq_some he)
          dsimp only at first
          subst first
          obtain rfl : a = b := Option.some.inj (named.symm.trans at_)
          have := List.find?_eq_none.mp alone (m, a) (State.mem_aliasTable.mpr ⟨cm, on', named'⟩)
          simp [apart.symm] at this
        · exact ih h later meets

theorem State.aliasFree_iff (s : State) : s.aliasFree ↔ ∀ n m, ¬s.Meets n m := by
  constructor
  · rintro free n m ⟨hn, hm, apart, on, on', a, named, named'⟩
    exact apart (free n m a hn.1 hn.2 hm.1 hm.2 on on' named named')
  · intro h n m a hn hn' hm hm' on on' named named'
    by_contra apart
    exact h n m ⟨⟨hn, hn'⟩, ⟨hm, hm'⟩, apart, on, on', a, named, named'⟩

/-- The address check passes exactly where no two compartments meet, whatever compartments it looks at first. -/
theorem State.aliasCheck_none_iff (s : State) (ns : List Nat) : s.aliasCheck ns = none ↔ s.aliasFree := by
  rw [State.aliasFree_iff]
  constructor
  · intro h n m meets
    exact State.not_meets_of_aliasAmong h (List.mem_append_right _ (mem_compNos.mpr meets.1)) meets
  · intro h
    cases e : s.aliasCheck ns with
    | none => rfl
    | some p => exact absurd (State.meets_of_aliasAmong e) (h p.1 p.2)

/-! ### SECTION_DEFINE (R38, R39) -/

theorem mem_affected {old new : Sect} {n : Nat} :
    n ∈ affected old new ↔ isComp n ∧ (old.coversNo n = true ∨ new.coversNo n = true) := by
  unfold affected
  rw [List.mem_filter, mem_compNos, Bool.or_eq_true]

theorem mem_affected_iff {old new : Sect} {n : Nat} (hn : isComp n) :
    n ∈ affected old new ∧ isComp n ↔ old.coversNo n = true ∨ new.coversNo n = true :=
  ⟨fun h => (mem_affected.mp h.1).2, fun h => ⟨mem_affected.mpr ⟨hn, h⟩, hn⟩⟩

theorem nodup_affected (old new : Sect) : (affected old new).Nodup := nodup_compNos.filter _

/-- The affected compartments redrawn one after the other. -/
def State.redraws (s : State) (i : Fin 8) (new : Sect) (ns : List Nat) : State :=
  ns.foldl (fun s n => s.redraw i new n) s

theorem State.redraw_eq (s : State) (i : Fin 8) (new : Sect) (n : Nat) :
    s.redraw i new n = (s.updComp n (new.redrawn i n)).setMapEntry n none := rfl

theorem State.redraws_eq (i : Fin 8) (new : Sect) (ns : List Nat) : ∀ s : State, s.redraws i new ns =
    { s with comps := (s.redraws i new ns).comps, hatchMap := (s.redraws i new ns).hatchMap } := by
  induction ns with
  | nil => exact fun _ => rfl
  | cons n ns ih =>
    intro s
    exact (ih (s.redraw i new n)).trans rfl

theorem State.comp_redraws (i : Fin 8) (new : Sect) (ns : List Nat) (nodup : ns.Nodup) : ∀ (s : State) (m : Nat),
    (s.redraws i new ns).comp m = if m ∈ ns ∧ isComp m then new.redrawn i m (s.comp m) else s.comp m := by
  induction ns with
  | nil =>
    intro s m
    rw [if_neg fun h => (nomatch h.1)]
    rfl
  | cons n ns ih =>
    intro s m
    obtain ⟨fresh, nodup⟩ := List.nodup_cons.mp nodup
    refine (ih nodup (s.redraw i new n) m).trans ?_
    have read : (s.redraw i new n).comp m = if n = m ∧ 1 ≤ n ∧ n ≤ 240 then new.redrawn i n (s.comp n) else s.comp m :=
      State.comp_updComp s n m (new.redrawn i n)
    rw [read]
    by_cases e : n = m
    · subst e
      by_cases inside : isComp n
      · rw [if_neg fun h => fresh h.1, if_pos ⟨rfl, inside⟩, if_pos ⟨List.mem_cons_self, inside⟩]
      · rw [if_neg fun h => inside h.2, if_neg fun h => inside h.2, if_neg fun h => inside h.2]
    · rw [if_neg (c := n = m ∧ 1 ≤ n ∧ n ≤ 240) fun h => e h.1]
      simp [Ne.symm e]

theorem State.mapEntry_redraws (i : Fin 8) (new : Sect) (ns : List Nat) : ∀ (s : State) (m : Nat),
    (s.redraws i new ns).mapEntry m = if m ∈ ns ∧ isComp m then none else s.mapEntry m := by
  induction ns with
  | nil =>
    intro s m
    rw [if_neg fun h => (nomatch h.1)]
    rfl
  | cons n ns ih =>
    intro s m
    refine (ih (s.redraw i new n) m).trans ?_
    have read := State.mapEntry_setMapEntry (s.updComp n (new.redrawn i n)) n m none
    rw [State.redraw_eq, read]
    by_cases e : n = m
    · subst e
      by_cases inside : isComp n
      · simp [inside]
      · rw [if_neg fun h => inside h.2, if_neg fun h => inside h.2, if_neg fun h => inside h.2]
        rfl
    · simp [e, Ne.symm e]
      rfl

/-- The record of every section after SECTION_DEFINE. -/
theorem State.sects_defineSect (s : State) (i : Fin 8) (new : Sect) : (s.defineSect i new).sects = s.sects.set i.val new := by
  have := State.redraws_eq i new (affected (s.sect i) new) (s.updSect i fun _ => new)
  exact congrArg State.sects this

theorem State.sect_defineSect (s : State) (i j : Fin 8) (new : Sect) :
    (s.defineSect i new).sect j = if i = j then new else s.sect j := by
  have same : (s.defineSect i new).sect j = (s.updSect i fun _ => new).sect j := by
    unfold State.sect
    rw [State.sects_defineSect]
    rfl
  rw [same, State.sect_updSect]

theorem State.comp_defineSect (s : State) (i : Fin 8) (new : Sect) {m : Nat} (hm : isComp m) :
    (s.defineSect i new).comp m = if new.coversNo m then { s.comp m with sect := some i, cls := new.cls }
      else if (s.sect i).coversNo m then { s.comp m with sect := none } else s.comp m := by
  have read := State.comp_redraws i new (affected (s.sect i) new) (nodup_affected _ _) (s.updSect i fun _ => new) m
  refine read.trans ?_
  rw [if_congr (mem_affected_iff hm) rfl rfl]
  unfold Sect.redrawn
  by_cases hn : new.coversNo m = true
  · rw [if_pos (.inr hn), if_pos hn, if_pos hn]
    rfl
  · by_cases ho : (s.sect i).coversNo m = true
    · rw [if_pos (.inl ho), if_neg hn, if_neg hn, if_pos ho]
      rfl
    · rw [if_neg (not_or.mpr ⟨ho, hn⟩), if_neg hn, if_neg ho]
      rfl

theorem State.mapEntry_defineSect (s : State) (i : Fin 8) (new : Sect) {m : Nat} (hm : isComp m) :
    (s.defineSect i new).mapEntry m = if new.coversNo m || (s.sect i).coversNo m then none else s.mapEntry m := by
  have read := State.mapEntry_redraws i new (affected (s.sect i) new) (s.updSect i fun _ => new) m
  refine read.trans ?_
  rw [if_congr ((mem_affected_iff hm).trans or_comm) rfl rfl]
  simp only [Bool.or_eq_true]
  rfl

theorem State.defineSect_eq (s : State) (i : Fin 8) (new : Sect) : s.defineSect i new =
    { s with sects := (s.defineSect i new).sects, comps := (s.defineSect i new).comps,
             hatchMap := (s.defineSect i new).hatchMap } := by
  have drawn := State.redraws_eq i new (affected (s.sect i) new) (s.updSect i fun _ => new)
  have sects : (s.defineSect i new).sects = (s.updSect i fun _ => new).sects := (congrArg State.sects drawn :)
  rw [sects]
  exact drawn

theorem overlapping_of_covers {a b : Sect} {n : Nat} (ha : a.coversNo n = true) (hb : b.coversNo n = true) :
    overlapping a b = true := by
  simp only [Sect.coversNo, decide_eq_true_eq] at ha hb
  simp only [overlapping, decide_eq_true_eq]
  omega

theorem State.apart_of_overlapOf {s : State} {i : Fin 8} {new : Sect} (h : s.overlapOf i new = none) {j : Fin 8} {n : Nat}
    (apart : j ≠ i) (hn : new.coversNo n = true) : (s.sect j).coversNo n = false := by
  by_contra covered
  have none := List.find?_eq_none.mp h j (List.mem_finRange j)
  simp [apart, overlapping_of_covers hn (by simpa using covered)] at none

/-- A redrawn section keeps the agreement of the fields with the ranges. -/
theorem State.sectionsAgree_defineSect {s : State} {i : Fin 8} {new : Sect} (agree : s.sectionsAgree)
    (room : s.overlapOf i new = none) : (s.defineSect i new).sectionsAgree := by
  intro n lo hi j
  rw [State.comp_defineSect s i new ⟨lo, hi⟩, State.sect_defineSect]
  have old := agree n lo hi j
  by_cases hn : new.coversNo n = true
  · rw [if_pos hn]
    by_cases e : i = j
    · simp [e, hn]
    · simp [e, State.apart_of_overlapOf room (Ne.symm e) hn]
  · rw [if_neg hn]
    by_cases ho : (s.sect i).coversNo n = true
    · rw [if_pos ho]
      have owned := (agree n lo hi i).mpr ho
      by_cases e : i = j
      · simp [e, hn]
      · rw [if_neg e, ← old, owned]
        simp [e]
    · rw [if_neg ho]
      by_cases e : i = j
      · subst e
        rw [if_pos rfl, old]
        simp [hn, ho]
      · rw [if_neg e, old]

/-- A redrawn section that needs no address check brings no two compartments together. -/
theorem State.aliasFree_defineSect {s : State} {i : Fin 8} {new : Sect} (agree : s.sectionsAgree) (free : s.aliasFree)
    (quiet : ¬(new.enabled = true ∧ new.mode = .DIRECT)) : (s.defineSect i new).aliasFree := by
  -- a compartment that still names an address in an enabled section is outside both ranges
  have still : ∀ n a, isComp n → (s.defineSect i new).enabledRec ((s.defineSect i new).comp n) = true →
      (s.defineSect i new).namedAddr n = some a → s.enabledRec (s.comp n) = true ∧ s.namedAddr n = some a := by
    intro n a hn on named
    unfold State.enabledRec at on ⊢
    unfold State.namedAddr at named ⊢
    rw [State.comp_defineSect s i new hn] at on named
    rw [State.mapEntry_defineSect s i new hn] at named
    by_cases covered : new.coversNo n = true
    · simp only [covered, if_true, Bool.true_or, State.sect_defineSect] at on named
      cases mode : new.mode with
      | DIRECT => exact absurd ⟨on, mode⟩ quiet
      | MAPPED => simp [mode] at named
    · by_cases left : (s.sect i).coversNo n = true
      · simp [covered, left] at on
      · simp only [covered, left, if_false, Bool.or_false, State.sect_defineSect, Bool.false_eq_true] at on named
        cases field : (s.comp n).sect with
        | none => rw [field] at on; cases on
        | some j =>
          have apart : i ≠ j := fun e => left ((agree n hn.1 hn.2 i).mp (e ▸ field))
          rw [field] at on named
          simp only [apart, if_false] at on named
          exact ⟨on, named⟩
  intro n m a hn hn' hm hm' on on' named named'
  obtain ⟨on, named⟩ := still n a ⟨hn, hn'⟩ on named
  obtain ⟨on', named'⟩ := still m a ⟨hm, hm'⟩ on' named'
  exact free n m a hn hn' hm hm' on on' named named'

theorem State.onSect_keeps {P : State → Prop} {s : State} {n : Nat} {f : Fin 8 → Answer} (h : P s)
    (hf : ∀ i, P (f i).state) : P (s.onSect n f).state := by
  unfold State.onSect
  split
  · exact h
  · split
    · exact hf _
    · exact h

theorem State.orAlias_law {s v : State} {ns : List Nat} {ok : Answer} (law : s.sectionsAgree ∧ s.aliasFree)
    (state : ok.state = v) (agree : v.sectionsAgree) :
    (s.orAlias v ns ok).state.sectionsAgree ∧ (s.orAlias v ns ok).state.aliasFree := by
  unfold State.orAlias
  split
  · exact law
  · rename_i passed
    rw [state]
    exact ⟨agree, (State.aliasCheck_none_iff v ns).mp passed⟩

theorem State.define_law {s : State} (r : DefineReq) (law : s.sectionsAgree ∧ s.aliasFree) :
    (s.define r).state.sectionsAgree ∧ (s.define r).state.aliasFree := by
  refine State.onSect_keeps (P := fun u => u.sectionsAgree ∧ u.aliasFree) law fun i => ?_
  dsimp only
  split
  · exact law
  · split
    · exact law
    · rename_i room
      split
      · exact law
      · split
        · exact law
        · split
          · exact law
          · have agree := State.sectionsAgree_defineSect (new := r.apply (s.sect i)) law.1 room
            split
            · exact State.orAlias_law law rfl agree
            · rename_i quiet
              exact ⟨agree, State.aliasFree_defineSect law.1 law.2 quiet⟩

/-! ### SECTION_ENABLE and MAP_WRITE (R40, R41) -/

theorem State.namedAddr_enable (s : State) (i : Fin 8) (on : Bool) (n : Nat) :
    (s.updSect i fun x => { x with enabled := on }).namedAddr n = s.namedAddr n := by
  unfold State.namedAddr
  have comp : (s.updSect i fun x => { x with enabled := on }).comp n = s.comp n := rfl
  rw [comp]
  cases (s.comp n).sect with
  | none => rfl
  | some j =>
    dsimp only
    rw [State.sect_updSect]
    by_cases e : i = j
    · subst e
      rw [if_pos rfl]
      rfl
    · rw [if_neg e]
      rfl

theorem State.sectionsAgree_enable {s : State} (i : Fin 8) (on : Bool) (agree : s.sectionsAgree) :
    (s.updSect i fun x => { x with enabled := on }).sectionsAgree := by
  intro n lo hi j
  rw [State.sect_updSect]
  have old := agree n lo hi j
  split
  · rename_i e
    subst e
    exact old
  · exact old

theorem State.aliasFree_disable {s : State} (i : Fin 8) (free : s.aliasFree) :
    (s.updSect i fun x => { x with enabled := false }).aliasFree := by
  have still : ∀ n, (s.updSect i fun x => { x with enabled := false }).enabledRec
      ((s.updSect i fun x => { x with enabled := false }).comp n) = true → s.enabledRec (s.comp n) = true := by
    intro n on
    unfold State.enabledRec at on ⊢
    have comp : (s.updSect i fun x => { x with enabled := false }).comp n = s.comp n := rfl
    rw [comp] at on
    cases field : (s.comp n).sect with
    | none => rw [field] at on; cases on
    | some j =>
      rw [field] at on
      dsimp only at on
      rw [State.sect_updSect] at on
      split at on
      · cases on
      · exact on
  intro n m a hn hn' hm hm' on on' named named'
  rw [State.namedAddr_enable] at named named'
  exact free n m a hn hn' hm hm' (still n on) (still m on') named named'

theorem State.enable_law {s : State} (k : Nat) (on : Bool) (law : s.sectionsAgree ∧ s.aliasFree) :
    (s.enable k on).state.sectionsAgree ∧ (s.enable k on).state.aliasFree := by
  refine State.onSect_keeps (P := fun u => u.sectionsAgree ∧ u.aliasFree) law fun i => ?_
  have agree := State.sectionsAgree_enable i on law.1
  dsimp only
  split
  · exact State.orAlias_law law rfl agree
  · rename_i off
    split
    · exact law
    · obtain rfl : on = false := by simpa using off
      exact ⟨agree, State.aliasFree_disable i law.2⟩

theorem State.namedAddr_setMapEntry_ne (s : State) {n m : Nat} (e : Option MapEntry) (h : n ≠ m) :
    (s.setMapEntry n e).namedAddr m = s.namedAddr m := by
  have entry : (s.setMapEntry n e).mapEntry m = s.mapEntry m := by
    rw [State.mapEntry_setMapEntry, if_neg fun k => h k.1]
  unfold State.namedAddr
  rw [entry]
  rfl

/-- An entry written where it names nothing in an enabled section brings no two compartments together. -/
theorem State.aliasFree_setMapEntry {s : State} {n : Nat} {e : Option MapEntry} (mapped : s.mapped n = true)
    (quiet : ¬(e.isSome ∧ s.enabledRec (s.comp n) = true)) (free : s.aliasFree) : (s.setMapEntry n e).aliasFree := by
  have away : ∀ m a, isComp m → s.enabledRec (s.comp m) = true → (s.setMapEntry n e).namedAddr m = some a → n ≠ m := by
    rintro m a hm on named rfl
    have none : e = none := by
      by_contra some
      exact quiet ⟨Option.ne_none_iff_isSome.mp some, on⟩
    subst none
    unfold State.mapped at mapped
    unfold State.namedAddr at named
    have comp : (s.setMapEntry n none).comp n = s.comp n := rfl
    have entry : (s.setMapEntry n none).mapEntry n = none := by
      rw [State.mapEntry_setMapEntry, if_pos ⟨rfl, hm⟩]
    rw [comp, entry] at named
    cases field : (s.comp n).sect with
    | none => rw [field] at mapped; cases mapped
    | some i =>
      rw [field] at mapped named
      have mode : (s.sect i).mode = .MAPPED := by simpa using mapped
      have same : (s.setMapEntry n none).sect i = s.sect i := rfl
      simp [same, mode] at named
  intro k m a hk hk' hm hm' on on' named named'
  rw [State.namedAddr_setMapEntry_ne s e (away k a ⟨hk, hk'⟩ on named)] at named
  rw [State.namedAddr_setMapEntry_ne s e (away m a ⟨hm, hm'⟩ on' named')] at named'
  exact free k m a hk hk' hm hm' on on' named named'

theorem State.mapWrite_law {s : State} (n : Nat) (a : AddrReq ⊕ Unit) (law : s.sectionsAgree ∧ s.aliasFree) :
    (s.mapWrite n a).state.sectionsAgree ∧ (s.mapWrite n a).state.aliasFree := by
  unfold State.mapWrite State.onComp
  split
  · exact law
  · split
    · split
      · exact law
      · dsimp only
        split
        · exact law
        · rename_i mapped
          split
          · exact law
          · have agree : (s.setMapEntry n (newEntry n a)).sectionsAgree := law.1
            split
            · exact State.orAlias_law law rfl agree
            · rename_i quiet
              exact ⟨agree, State.aliasFree_setMapEntry (by simpa using mapped) quiet law.2⟩
    · exact law

/-! ### The law of distinct addresses at every step -/

theorem State.factoryBlocks_law (s : State) : s.factoryBlocks.sectionsAgree ∧ s.factoryBlocks.aliasFree := by
  have outside : ∀ n, (s.factoryBlocks.comp n).sect = none := fun n => by
    have read := State.comp_map (s := s) (t := s.factoryBlocks) (f := Compartment.cleared) rfl n
    rw [read]
    split <;> rfl
  refine ⟨fun n _ _ i => ?_, fun n m a _ _ _ _ on => ?_⟩
  · have plain : s.factoryBlocks.sect i = Sect.factory := by simp [State.sect, State.factoryBlocks]
    rw [outside, plain]
    simp [Sect.coversNo, Sect.factory]
    omega
  · unfold State.enabledRec at on
    rw [outside] at on
    cases on

theorem State.factoryClear_law {s : State} (law : s.sectionsAgree ∧ s.aliasFree) :
    s.factoryClear.state.sectionsAgree ∧ s.factoryClear.state.aliasFree := by
  unfold State.factoryClear
  split
  · exact law
  · split
    · exact law
    · split
      · exact law
      · dsimp only
        -- the links are cleared and the mode decided by acts that no command's label restricts to the sections
        have cleared : Acts (.mainsGoodChange true) s.factoryBlocks
            ((List.range' 1 4).foldl State.clearLink s.factoryBlocks) :=
          Acts.foldl (fun s l => acts_clearLink s l) _ _
        have decided := cleared.trans (acts_decideMode _ (.inl ⟨true, .inl rfl⟩))
        refine Acts.keep (P := fun u => u.sectionsAgree ∧ u.aliasFree) (fun u v a h => ?_) decided s.factoryBlocks_law
        refine (a.sameWiring ?_).law h
        rintro ⟨_, _, e | e | e | e⟩ <;> cases e

theorem State.clearTagList_sameWiring (s : State) (k : Courier) : s.SameWiring (s.clearTagList k) := by
  have cleared := acts_clearTagList (c := .minuteTick) s k
  refine Acts.keep (P := fun u => s.SameWiring u) (fun u v a h => h.trans (a.sameWiring ?_)) cleared (.refl s)
  rintro ⟨_, _, e | e | e | e⟩ <;> cases e

/-- Settles O10: the requests that draw sections and map entries keep the law by their checks, no other act touches what
it reads. -/
theorem aliasLawKept : Obligations.AliasLawKept := by
  intro s t agree free
  refine step_keep (P := fun u => u.sectionsAgree ∧ u.aliasFree) (fun _ _ => id) (fun c s t e a law => ?_) ⟨agree, free⟩
  by_cases draws : Instr.draws c
  · have request : ∀ {α : Type} {h : ReqHead} {kind : Nat} {p : List Byte} {d : Codec α} {owner : α → State → Answer},
        (∀ x (u : State), u.sectionsAgree ∧ u.aliasFree → (owner x u).state.sectionsAgree ∧ (owner x u).state.aliasFree) →
        (s.takeRequest h kind p d owner).sectionsAgree ∧ (s.takeRequest h kind p d owner).aliasFree := fun ow =>
      takeRequest_keeps (P := fun u => u.sectionsAgree ∧ u.aliasFree) (fun _ _ => id)
        (fun u k => (u.clearTagList_sameWiring k).law) ow law
    obtain ⟨h, p, rfl | rfl | rfl | rfl⟩ := draws
    · have run := Host.Outcome.next.inj (e : Host.Outcome.next _ = _)
      exact run ▸ request fun r _ => State.define_law r
    · have run := Host.Outcome.next.inj (e : Host.Outcome.next _ = _)
      exact run ▸ request fun x _ => State.enable_law x.1 x.2
    · have run := Host.Outcome.next.inj (e : Host.Outcome.next _ = _)
      exact run ▸ request fun x _ => State.mapWrite_law x.1 x.2
    · have run := Host.Outcome.next.inj (e : Host.Outcome.next _ = _)
      exact run ▸ request fun _ _ => State.factoryClear_law
  · exact a.keep (P := fun u => u.sectionsAgree ∧ u.aliasFree) (fun _ _ b => (b.sameWiring draws).law) law

end Sys2Proof.Machine
end

