-- ==== Sys2Proof/Proofs/WiringRequests.lean ====
section
/-! SECTION_DEFINE, SECTION_ENABLE and MAP_WRITE (R37 to R42). -/

namespace Sys2Proof.Machine

open Sys2Proof

/-! ### A request and its owner's answer -/

/-- A request whose kind clears no tag list ends in the state and the reply that its owner answers with. -/
theorem State.takeRequest_of {α : Type} {s v : State} {h : ReqHead} {kind : Nat} {p : List Byte} {d : Codec α} {x : α}
    {owner : α → State → Answer} {st : Status} {b : ReplyBody} (a : s.asks h kind p) (hp : d.parse p = some x)
    (hk : clearsTags kind = false) (e : owner x (s.took h) = { state := v, status := st, body := b })
    (hs : st ≠ .BAD_REQUEST) :
    s.takeRequest h kind p d owner = v.updKli fun k => { k with reply := some (replyTo h kind st b) } := by
  rw [State.takeRequest_answered s owner a hp hk (by rw [e]; exact hs), e]

/-- The payload of a request whose first field is a letter outside A to H does not parse. -/
theorem Codec.parse_letter_outside {α : Type} (d : Codec α) {b : Byte} (q : List Byte) (hb : 8 ≤ b.toNat) :
    (Codec.letter.pair d).parse (b :: q) = none := by
  simp [Codec.parse, Codec.pair, Codec.letter_outside q hb]

theorem Sect.mem_covers {x : Sect} {n : Nat} : n ∈ x.covers ↔ x.coversNo n = true := by
  simp [Sect.covers, Sect.coversNo, List.mem_range'_1]

/-! ### SECTION_DEFINE -/

theorem State.redraws_took (i : Fin 8) (new : Sect) (h : ReqHead) (ns : List Nat) : ∀ s : State,
    (s.took h).redraws i new ns = (s.redraws i new ns).took h := by
  induction ns with
  | nil => exact fun _ => rfl
  | cons n ns ih => exact fun s => ih (s.redraw i new n)

theorem State.defineSect_took (s : State) (h : ReqHead) (i : Fin 8) (new : Sect) :
    (s.took h).defineSect i new = (s.defineSect i new).took h :=
  State.redraws_took i new h (affected (s.sect i) new) (s.updSect i fun _ => new)

theorem State.orAlias_passed {s v : State} {ns : List Nat} {ok : Answer} (h : v.aliasCheck ns = none) :
    s.orAlias v ns ok = ok := by
  unfold State.orAlias
  rw [h]

/-- No other section covers a compartment of the new range, so none overlaps it. -/
theorem State.overlapOf_none {s : State} {i : Fin 8} {new : Sect}
    (room : ∀ j m, j ≠ i → new.coversNo m = true → (s.sect j).coversNo m = false) : s.overlapOf i new = none := by
  refine List.find?_eq_none.mpr fun j _ => ?_
  by_cases e : j = i
  · simp [e]
  · have out := room j (max new.first (s.sect j).first) e
    simp only [Sect.coversNo, decide_eq_true_eq, decide_eq_false_iff_not] at out
    simp only [overlapping, Bool.and_eq_true, decide_eq_true_eq, not_and]
    omega

/-- SECTION_DEFINE that meets none of its refusals redraws (R38, R39). -/
theorem State.define_redraws {s : State} {r : DefineReq} {i : Fin 8} (letter : r.sect = i.val) (sv : s.serves)
    (ok : r.ok = true) (room : s.overlapOf i (r.apply (s.sect i)) = none) (slots : (r.apply (s.sect i)).pastSlot8 = false)
    (unused : ∀ m, isComp m → (s.sect i).coversNo m = true ∨ (r.apply (s.sect i)).coversNo m = true →
      s.hasOp m = false ∧ ((s.comp m).state = .FREE ∨ (s.comp m).state = .OUT_OF_SERVICE))
    (passes : (r.apply (s.sect i)).enabled = true → (r.apply (s.sect i)).mode = .DIRECT →
      (s.defineSect i (r.apply (s.sect i))).aliasCheck (r.apply (s.sect i)).covers = none) :
    s.define r = { state := s.defineSect i (r.apply (s.sect i)), status := .OK, body := .empty } := by
  have idle : (affected (s.sect i) (r.apply (s.sect i))).any s.hasOp = false := by
    rw [List.any_eq_false]
    intro m hm
    obtain ⟨inside, at_⟩ := mem_affected.mp hm
    simp [(unused m inside at_).1]
  have free : (affected (s.sect i) (r.apply (s.sect i))).any (fun n => !(s.comp n).state.unused) = false := by
    rw [List.any_eq_false]
    intro m hm
    obtain ⟨inside, at_⟩ := mem_affected.mp hm
    rcases (unused m inside at_).2 with e | e <;> simp [e, CompState.unused]
  unfold State.define
  rw [letter, State.onSect_served s i _ sv]
  simp only [ok, room, slots, idle, free, Bool.true_eq_false, if_false, Bool.false_eq_true]
  split
  · rename_i both
    exact State.orAlias_passed (passes both.1 both.2)
  · rfl

/-- Settles O42: the owner's answer, and what the redrawing leaves. -/
theorem sectionDefineRedraws : Obligations.SectionDefineRedraws := by
  refine ⟨fun h p r i s a hp letter sv ok => ?_, fun h b q s a hb => ?_, fun r s sv hr => ?_⟩
  · intro old new room slots unused passes
    have owner : (s.took h).define r = { state := (s.took h).defineSect i new, status := .OK, body := .empty } := by
      refine State.define_redraws (s := s.took h) letter sv ok (State.overlapOf_none room) slots unused fun on mode => ?_
      rw [State.defineSect_took]
      exact passes on mode
    have run : exec (.sectionDefine h p) s = .next (s.takeRequest h 32 p .defineReq fun r s => s.define r) := rfl
    rw [State.takeRequest_of a hp rfl owner (by decide), State.defineSect_took] at run
    have cls : new.cls = r.cls := by
      have same : (r.apply old).cls = r.cls := by
        unfold DefineReq.apply
        split <;> rfl
      exact same
    refine ⟨_, run, rfl, State.sects_defineSect s i new, fun m hm => ?_, fun m hm => State.mapEntry_defineSect s i new hm,
      ?_, ?_⟩
    · have read := State.comp_defineSect s i new hm
      rw [cls] at read
      exact read
    · exact (congrArg (fun u : State => u.kli.queue) (State.defineSect_eq s i new) :)
    · rw [State.defineSect_eq s i new]
      rfl
  · have refused : Codec.defineReq.parse (b :: q) = none := by
      simp [Codec.parse, Codec.defineReq, Codec.iso, Codec.pair, Codec.letter_outside q hb]
    exact congrArg Host.Outcome.next (State.takeRequest_badRequest s (fun r s => s.define r) a refused)
  · exact State.onSect_outside s _ sv hr

/-! ### SECTION_ENABLE -/

theorem State.SameWiring.meets {s t : State} (w : s.SameWiring t) (n m : Nat) : t.Meets n m ↔ s.Meets n m := by
  unfold State.Meets
  rw [w.enabled n, w.enabled m, w.namedAddr n, w.namedAddr m]

theorem State.enable_served {s : State} (i : Fin 8) (on : Bool) (sv : s.serves) : s.enable i.val on =
    if on then s.orAlias (s.updSect i fun x => { x with enabled := on }) (s.sect i).covers
        { state := s.updSect i fun x => { x with enabled := on }, status := .OK, body := .empty }
      else if (s.sect i).covers.any s.hasOp then s.refuse .BUSY
      else { state := s.updSect i fun x => { x with enabled := on }, status := .OK, body := .empty } := by
  unfold State.enable
  rw [State.onSect_served s i _ sv]

/-- Settles O43: the two ways of the flag, and the pair that a failed address check names. -/
theorem sectionEnableObeysTheAliasLaw : Obligations.SectionEnableObeysTheAliasLaw := by
  refine ⟨fun h p i on s t a hp sv ht => ?_, fun h b q s a hb => ?_, fun n on s sv hn => State.onSect_outside s _ sv hn⟩
  · intro meet
    have drawn : t = s.updSect i fun x => { x with enabled := on } := ht
    have wiring : t.SameWiring ((s.took h).updSect i fun x => { x with enabled := on }) := drawn ▸ .of_eq rfl rfl rfl
    have run : exec (.sectionEnable h p) s =
      .next (s.takeRequest h 33 p (Codec.letter.pair Codec.flag) fun x s => s.enable x.1 x.2) := rfl
    have owner := State.enable_served (s := s.took h) i on sv
    have ends : ∀ {v : State} {st : Status} {b : ReplyBody}, (s.took h).enable i.val on = ⟨v, st, b⟩ → st ≠ .BAD_REQUEST →
        exec (.sectionEnable h p) s = .next (v.updKli fun k => { k with reply := some (replyTo h 33 st b) }) := fun e ne => by
      rw [run, State.takeRequest_of a hp rfl e ne]
    refine ⟨fun off idle => ?_, fun on_ apart => ?_, fun on_ pair => ?_⟩
    · have free : ((s.took h).sect i).covers.any (s.took h).hasOp = false := by
        rw [List.any_eq_false]
        intro n hn
        simp [show (s.took h).hasOp n = false from idle n (Sect.mem_covers.mp hn)]
      rw [free, if_neg (by simp [off]), if_neg (by decide)] at owner
      rw [drawn]
      exact ends owner (by decide)
    · have passes : ((s.took h).updSect i fun x => { x with enabled := on }).aliasCheck ((s.took h).sect i).covers = none :=
        (State.aliasCheck_none_iff _ _).mpr ((State.aliasFree_iff _).mpr fun n m k => apart n m ((wiring.meets n m).mp k))
      rw [State.orAlias_passed passes, if_pos on_] at owner
      rw [drawn]
      exact ends owner (by decide)
    · cases found : ((s.took h).updSect i fun x => { x with enabled := on }).aliasCheck ((s.took h).sect i).covers with
      | none =>
        obtain ⟨n, m, k⟩ := pair
        have free := (State.aliasFree_iff _).mp ((State.aliasCheck_none_iff _ _).mp found)
        exact absurd ((wiring.meets n m).mpr k) (free n m)
      | some nm =>
        obtain ⟨n, m⟩ := nm
        refine ⟨n, m, (wiring.meets n m).mp (State.meets_of_aliasAmong found), ?_⟩
        rw [if_pos on_] at owner
        unfold State.orAlias at owner
        rw [found] at owner
        exact ends owner (by decide)
  · exact congrArg Host.Outcome.next (State.takeRequest_badRequest s (fun x s => s.enable x.1 x.2) a
      (Codec.parse_letter_outside Codec.flag q hb))

/-! ### MAP_WRITE -/

/-- A compartment in service goes to the owner's own rule (R14, R37). -/
theorem State.onComp_served {s : State} {n : Nat} (f : State → Answer) (sv : s.serves) (hn : isComp n) :
    s.onComp n f = f s := by
  simp [State.onComp, State.serviceCheck, State.starting, sv.1, sv.2, hn]

theorem State.mapWrite_served {s : State} {n : Nat} {i : Fin 8} (a : AddrReq ⊕ Unit) (sv : s.serves) (hn : isComp n)
    (field : (s.comp n).sect = some i) (mode : (s.sect i).mode = .MAPPED) (idle : s.hasOp n = false)
    (ok : mapFieldsOk a = true) : s.mapWrite n a =
      if (newEntry n a).isSome ∧ (s.sect i).enabled = true then
        s.orAlias (s.setMapEntry n (newEntry n a)) [n]
          { state := s.setMapEntry n (newEntry n a), status := .OK, body := .mapEntry (newEntry n a) }
      else { state := s.setMapEntry n (newEntry n a), status := .OK, body := .mapEntry (newEntry n a) } := by
  have mapped : s.mapped n = true := by simp [State.mapped, field, mode]
  have on : s.enabledRec (s.comp n) = (s.sect i).enabled := by simp [State.enabledRec, field]
  unfold State.mapWrite
  rw [State.onComp_served _ sv hn]
  simp only [ok, mapped, idle, on, Bool.true_eq_false, if_false, Bool.false_eq_true]

/-- An address that no other compartment of an enabled section has keeps the law of distinct addresses. -/
theorem State.aliasFree_newEntry {s : State} {n : Nat} {i : Fin 8} {e : MapEntry} (field : (s.comp n).sect = some i)
    (mode : (s.sect i).mode = .MAPPED) (free : s.aliasFree)
    (alone : ∀ m, isComp m → m ≠ n → s.enabledRec (s.comp m) = true → s.namedAddr m ≠ some e.addr) :
    (s.setMapEntry n (some e)).aliasFree := by
  have here : ∀ a, isComp n → (s.setMapEntry n (some e)).namedAddr n = some a → a = e.addr := by
    intro a hn named
    have entry : (s.setMapEntry n (some e)).mapEntry n = some e := by
      rw [State.mapEntry_setMapEntry, if_pos ⟨rfl, hn⟩]
    have comp : (s.setMapEntry n (some e)).comp n = s.comp n := rfl
    have same : (s.setMapEntry n (some e)).sect i = s.sect i := rfl
    unfold State.namedAddr at named
    simp only [comp, field, same, mode, entry, Option.map_some, Option.some.injEq] at named
    exact named.symm
  refine (State.aliasFree_iff _).mpr ?_
  rintro k m ⟨hk, hm, apart, on, on', a, named, named'⟩
  by_cases ek : k = n
  · subst ek
    obtain rfl := here a hk named
    rw [State.namedAddr_setMapEntry_ne s _ apart] at named'
    exact alone m hm (Ne.symm apart) on' named'
  · by_cases em : m = n
    · subst em
      obtain rfl := here a hm named'
      rw [State.namedAddr_setMapEntry_ne s _ (Ne.symm apart)] at named
      exact alone k hk apart on named
    · rw [State.namedAddr_setMapEntry_ne s _ (Ne.symm ek)] at named
      rw [State.namedAddr_setMapEntry_ne s _ (Ne.symm em)] at named'
      exact apart (free k m a hk.1 hk.2 hm.1 hm.2 on on' named named')

/-- Settles O44: the entry written, and the address check where the section is enabled. -/
theorem mapWriteStoresTheCheckByte : Obligations.MapWriteStoresTheCheckByte := by
  intro h p n i s a sv hn field mode idle
  have run : exec (.mapWrite h p) s = .next (s.takeRequest h 34 p .mapReq fun x s => s.mapWrite x.1 x.2) := rfl
  refine ⟨fun l k ch hp hl hl' hk hk' hch law => ?_, fun hp => ?_⟩
  · have fields : mapFieldsOk (.inl { link := l, slot := k, third := ch }) = true := by
      simp [mapFieldsOk, AddrReq.mapOk, hl, hl', hk, hk', hch]
    have owner := State.mapWrite_served (s := s.took h) _ sv hn field mode idle fields
    have stored : (s.took h).mapWrite n (.inl { link := l, slot := k, third := ch }) =
        { state := (s.took h).setMapEntry n (newEntry n (.inl { link := l, slot := k, third := ch })),
          status := .OK, body := .mapEntry (newEntry n (.inl { link := l, slot := k, third := ch })) } := by
      rw [owner]
      split
      · rename_i both
        obtain ⟨free, alone⟩ := law both.2
        refine State.orAlias_passed ((State.aliasCheck_none_iff _ _).mpr ?_)
        exact State.aliasFree_newEntry (s := s.took h) field mode free alone
      · rfl
    rw [run, State.takeRequest_of a hp rfl stored (by decide)]
    rfl
  · have owner := State.mapWrite_served (s := s.took h) (.inr ()) sv hn field mode idle rfl
    rw [run, State.takeRequest_of a hp rfl (owner.trans (if_neg fun k => (nomatch k.1))) (by decide)]
    rfl

end Sys2Proof.Machine
end

