-- ==== Sys2Proof/Proofs/Frames.lean ====
section
/-! Payload layouts, the receiver, and the checks before an owner (R184 to R187). -/

namespace Sys2Proof.Machine

open Sys2Proof

/-! ### Layouts read back what they wrote (R184) -/

/-- A layout reads a value it can carry back from the front of any payload that begins with its bytes. -/
def Codec.ReadsBack {α : Type} (c : Codec α) : Prop :=
  ∀ a q, c.wf a = true → c.dec (c.enc a ++ q) = some (a, q)

theorem Codec.ReadsBack.parse {α : Type} {c : Codec α} (r : c.ReadsBack) (a : α) (w : c.wf a = true) :
    c.parse (c.enc a) = some a := by
  have read := r a [] w
  rw [List.append_nil] at read
  rw [Codec.parse, read]

theorem byteOf_toNat (n : Nat) : (byteOf n).toNat = n % 256 := BitVec.toNat_ofNat n 8

theorem byteOf_toNat_of_lt {n : Nat} (h : n < 256) : (byteOf n).toNat = n := by
  rw [byteOf_toNat, Nat.mod_eq_of_lt h]

theorem Codec.next_cons {α : Type} (f : Nat → Option α) (b : Byte) (q : List Byte) :
    Codec.next f (b :: q) = (f b.toNat).map fun a => (a, q) := rfl

theorem Codec.nat8_readsBack : Codec.nat8.ReadsBack := by
  intro n q w
  have small : n < 256 := of_decide_eq_true w
  simp [Codec.nat8, Codec.next_cons, byteOf_toNat_of_lt small]

theorem Codec.nat16_readsBack : Codec.nat16.ReadsBack := by
  intro n q w
  have small : n < 65536 := of_decide_eq_true w
  have value : n / 256 % 256 * 256 + n % 256 = n := by omega
  simp [Codec.nat16, byteOf_toNat, value]

theorem Codec.nat32_readsBack : Codec.nat32.ReadsBack := by
  intro n q w
  have small : n < 4294967296 := of_decide_eq_true w
  have value : n / 16777216 % 256 * 16777216 + n / 65536 % 256 * 65536 + n / 256 % 256 * 256 + n % 256 = n := by omega
  simp [Codec.nat32, byteOf_toNat, value]

theorem Codec.below_readsBack (k : Nat) : (Codec.below k).ReadsBack := by
  intro n q w
  obtain ⟨inside, small⟩ := of_decide_eq_true w
  simp [Codec.below, Codec.next_cons, byteOf_toNat_of_lt small, inside]

theorem Codec.named_readsBack {α : Type} {ofNum : Nat → α} {num : α → Nat} (k : Nat) (back : ∀ a, ofNum (num a) = a) :
    (Codec.named ofNum num k).ReadsBack := by
  intro a q w
  obtain ⟨inside, small⟩ := of_decide_eq_true w
  simp [Codec.named, Codec.next_cons, byteOf_toNat_of_lt small, inside, back]

theorem Codec.flag_readsBack : Codec.flag.ReadsBack := by
  intro b q _
  cases b <;> rfl

theorem Codec.text_readsBack : Codec.text.ReadsBack := by
  intro t q w
  obtain ⟨some_, short⟩ := of_decide_eq_true w
  have len : (byteOf t.length).toNat = t.length := byteOf_toNat_of_lt (by omega)
  simp [Codec.text, len, some_, short]

/-- The two digits in a byte are those it was made of. -/
theorem bcdOf_bcdByte (n : Nat) : bcdOf (bcdByte n) = some (n % 100) := by
  have value : (bcdByte n).toNat = n / 10 % 10 * 16 + n % 10 := byteOf_toNat_of_lt (by omega)
  unfold bcdOf
  rw [value, if_pos (by omega)]
  exact congrArg some (by omega)

theorem Codec.code_readsBack : Codec.code.ReadsBack := by
  intro n q w
  have small : n < 1000000 := of_decide_eq_true w
  have digits : (n / 10000 % 100 * 100 + n / 100 % 100) * 100 + n % 100 = n := by omega
  simp [Codec.code, bcdOf_bcdByte, digits]

theorem Codec.nothing_readsBack : Codec.nothing.ReadsBack := fun _ _ _ => rfl

theorem Codec.ReadsBack.pair {α β : Type} {a : Codec α} {b : Codec β} (ra : a.ReadsBack) (rb : b.ReadsBack) :
    (a.pair b).ReadsBack := by
  rintro ⟨x, y⟩ q w
  obtain ⟨wx, wy⟩ := (Bool.and_eq_true _ _).mp w
  simp [Codec.pair, ra x _ wx, rb y _ wy]

theorem Codec.opt_dec_some {α : Type} (a : Codec α) (q : List Byte) :
    a.opt.dec (1 :: q) = (a.dec q).map (Prod.map some id) := rfl

theorem Codec.alt_dec_first {α β : Type} (a : Codec α) (b : Codec β) (q : List Byte) :
    (a.alt b).dec (0 :: q) = (a.dec q).map (Prod.map Sum.inl id) := rfl

theorem Codec.alt_dec_second {α β : Type} (a : Codec α) (b : Codec β) (q : List Byte) :
    (a.alt b).dec (1 :: q) = (b.dec q).map (Prod.map Sum.inr id) := rfl

theorem Codec.ReadsBack.opt {α : Type} {a : Codec α} (ra : a.ReadsBack) : a.opt.ReadsBack := by
  intro x q w
  cases x with
  | none => rfl
  | some v => exact (Codec.opt_dec_some a (a.enc v ++ q)).trans (by rw [ra v q w]; rfl)

theorem Codec.ReadsBack.alt {α β : Type} {a : Codec α} {b : Codec β} (ra : a.ReadsBack) (rb : b.ReadsBack) :
    (a.alt b).ReadsBack := by
  intro x q w
  cases x with
  | inl v => exact (Codec.alt_dec_first a b (a.enc v ++ q)).trans (by rw [ra v q w]; rfl)
  | inr v => exact (Codec.alt_dec_second a b (b.enc v ++ q)).trans (by rw [rb v q w]; rfl)

theorem Codec.ReadsBack.iso {α β : Type} {c : Codec α} {f : α → β} {g : β → α} (r : c.ReadsBack)
    (back : ∀ b, f (g b) = b) : (c.iso f g).ReadsBack := by
  intro b q w
  simp [Codec.iso, r (g b) q w, back]

theorem Codec.ReadsBack.perClass {c : Codec Nat} (r : c.ReadsBack) : c.perClass.ReadsBack :=
  (r.pair (r.pair (r.pair r))).iso fun _ => rfl

theorem Codec.sizeClass_readsBack : Codec.sizeClass.ReadsBack := Codec.named_readsBack 4 fun c => by cases c <;> rfl

theorem Codec.filter_readsBack : Codec.filter.ReadsBack := Codec.named_readsBack 2 fun f => by cases f <;> rfl

theorem Codec.letter_readsBack : Codec.letter.ReadsBack := Codec.below_readsBack 8

theorem Codec.addr_readsBack : Codec.addr.ReadsBack :=
  (nat8_readsBack.pair (nat8_readsBack.pair nat8_readsBack)).iso fun _ => rfl

theorem Codec.mask_readsBack : Codec.mask.ReadsBack :=
  (flag_readsBack.pair (flag_readsBack.pair (flag_readsBack.pair (flag_readsBack.pair flag_readsBack)))).iso fun _ => rfl

theorem Codec.quoteReq_readsBack : Codec.quoteReq.ReadsBack :=
  ((code_readsBack.alt nat8_readsBack).pair nat32_readsBack.opt).iso fun _ => rfl

theorem Codec.dropReq_readsBack : Codec.dropReq.ReadsBack :=
  (nat8_readsBack.pair (sizeClass_readsBack.pair (text_readsBack.pair flag_readsBack))).iso fun _ => rfl

theorem Codec.reserveReq_readsBack : Codec.reserveReq.ReadsBack :=
  (nat8_readsBack.pair (sizeClass_readsBack.pair (nat8_readsBack.pair (nat16_readsBack.pair nat16_readsBack)))).iso
    fun _ => rfl

theorem Codec.depositReq_readsBack : Codec.depositReq.ReadsBack :=
  (nat8_readsBack.pair (sizeClass_readsBack.pair (text_readsBack.pair (flag_readsBack.pair nat16_readsBack.opt)))).iso
    fun _ => rfl

theorem Codec.tagReq_readsBack : Codec.tagReq.ReadsBack :=
  (nat16_readsBack.pair (nat16_readsBack.pair (filter_readsBack.pair nat8_readsBack))).iso fun _ => rfl

theorem Codec.geometry_readsBack : (Codec.addr.alt Codec.nothing).ReadsBack := addr_readsBack.alt nothing_readsBack

theorem Codec.defineReq_readsBack : Codec.defineReq.ReadsBack :=
  (letter_readsBack.pair (nat8_readsBack.pair (nat8_readsBack.pair (sizeClass_readsBack.pair geometry_readsBack)))).iso
    fun _ => rfl

theorem Codec.page_readsBack : Codec.page.ReadsBack :=
  (nat16_readsBack.perClass.pair (nat8_readsBack.pair (nat32_readsBack.perClass.pair (nat32_readsBack.perClass.pair
    (nat32_readsBack.pair (nat8_readsBack.pair (nat16_readsBack.pair (nat16_readsBack.pair (nat8_readsBack.pair
      (nat16_readsBack.pair nat32_readsBack.perClass)))))))))).iso fun _ => rfl

theorem Codec.configReq_readsBack : Codec.configReq.ReadsBack :=
  (nat8_readsBack.pair (nat16_readsBack.perClass.pair (nat8_readsBack.pair (nat16_readsBack.perClass.pair
    (nat8_readsBack.pair nat8_readsBack.perClass))))).iso fun _ => rfl

/-- Settles O16: each payload is put together of layouts that read back what they wrote. -/
theorem payloadsParseBack : Obligations.PayloadsParseBack :=
  ⟨Codec.nat8_readsBack.parse, Codec.nat16_readsBack.parse, (Codec.below_readsBack 5).parse, Codec.code_readsBack.parse,
    Codec.mask_readsBack.parse, Codec.quoteReq_readsBack.parse, (Codec.code_readsBack.alt Codec.text_readsBack).parse,
    Codec.dropReq_readsBack.parse, Codec.reserveReq_readsBack.parse, Codec.depositReq_readsBack.parse,
    Codec.tagReq_readsBack.parse, (Codec.nat8_readsBack.alt Codec.letter_readsBack).parse,
    (Codec.nat8_readsBack.pair Codec.sizeClass_readsBack).parse, Codec.defineReq_readsBack.parse,
    (Codec.letter_readsBack.pair Codec.flag_readsBack).parse, (Codec.nat8_readsBack.pair Codec.geometry_readsBack).parse,
    (Codec.nat8_readsBack.pair Codec.nat8_readsBack).parse, (Codec.nat8_readsBack.pair Codec.page_readsBack).parse,
    (Codec.nat8_readsBack.pair Codec.nat32_readsBack).parse, Codec.configReq_readsBack.parse⟩

/-! ### The receiver (R185, R187) -/

theorem lengthOk_iff (len : Byte) : lengthOk len = true ↔ 4 ≤ len.toNat ∧ len.toNat ≤ 250 := decide_eq_true_iff

/-- A complete frame of valid length goes by its check: into the receive buffer, or off. -/
theorem execKioskFrameComplete_checked {len st k tg : Byte} {p : List Byte} (c : BitVec 16) (s : State)
    (lo : 4 ≤ len.toNat) (hi : len.toNat ≤ 250) (size : p.length + 3 = len.toNat) :
    execKioskFrameComplete len (st :: k :: tg :: p) c s =
      if crc16 (len :: st :: k :: tg :: p) = c then
        .next (s.updKli fun x => x.receive { station := st, kind := k, tag := tg, payload := p })
      else .next (s.updKli fun x => { x with partialRx := [] }) :=
  if_pos ⟨(lengthOk_iff len).mpr ⟨lo, hi⟩, size⟩

theorem Kli.receive_joins {k : Kli} (f : RxFrame) (room : k.rx.length < 3) :
    k.receive f = { k with partialRx := [], rx := k.rx ++ [f] } := if_pos room

theorem Kli.receive_discards {k : Kli} (f : RxFrame) (full : 3 ≤ k.rx.length) :
    k.receive f = { k with partialRx := [] } := if_neg (Nat.not_lt.mpr full)

/-- Settles O17: the check decides, then the room in the buffer. -/
theorem receiverTakesAndDiscardsFrames : Obligations.ReceiverTakesAndDiscardsFrames := by
  refine ⟨by decide +kernel, fun len st k tg p s lo hi size => ?_, fun b s => rfl, fun b s out => ?_⟩
  · have run : ∀ c, exec (.kioskFrameComplete len (st :: k :: tg :: p) c) s = _ := fun c =>
      execKioskFrameComplete_checked c s lo hi size
    refine ⟨fun room => ?_, fun full => ?_, fun c wrong => ?_⟩
    · rw [run, if_pos rfl]
      exact congrArg (fun u => Host.Outcome.next { s with kli := u }) (Kli.receive_joins _ room)
    · rw [run, if_pos rfl]
      exact congrArg (fun u => Host.Outcome.next { s with kli := u }) (Kli.receive_discards _ full)
    · rw [run, if_neg (Ne.symm wrong)]
      rfl
  · exact if_neg fun ok => by
      have := (lengthOk_iff b).mp ok
      omega

/-! ### The checks before an owner (R186) -/

/-- A request of the catalogue is taken whole by its kind's layout and owner, and its payload holds exactly the fields of
its kind where that layout parses it. -/
def TakenAs (kind : Nat) (f : ReqHead → List Byte → Instr) : Prop :=
  ∃ (α : Type) (d : Codec α) (owner : ReqHead → α → State → Answer),
    (∀ h p s, exec (f h p) s = .next (s.takeRequest h kind p d (owner h))) ∧ ∀ p, parses kind p = (d.parse p).isSome

theorem Codec.isSome_parse_blank (p : List Byte) : (Codec.blank.parse p).isSome = (p.length == 1) := by
  match p with
  | [] => rfl
  | [_] => rfl
  | _ :: _ :: _ => rfl

theorem requestOf_takenAs {kind : Nat} {f : ReqHead → List Byte → Instr} (e : requestOf kind = some f) :
    TakenAs kind f := by
  have named : kind ≠ 0 := by
    rintro rfl
    cases e
  unfold requestOf at e
  rw [if_neg named] at e
  obtain ⟨inside, -⟩ := List.getElem?_eq_some_iff.mp e
  have last : kind - 1 < 41 := inside
  have low : 1 ≤ kind := Nat.one_le_iff_ne_zero.mpr named
  have high : kind ≤ 41 := by omega
  interval_cases kind <;> cases e <;> exact ⟨_, _, _, fun _ _ _ => rfl, fun p => by simp [parses, Codec.isSome_parse_blank]⟩

theorem stationMay_iff (kind st : Nat) : stationMay kind st = true ↔
    if kind ≤ 13 then st = 0 else if kind ≤ 16 then 1 ≤ st ∧ st ≤ 4 else if kind ≤ 23 then st = 5 ∨ st = 6
    else st = 7 := by
  unfold stationMay
  split_ifs <;> exact decide_eq_true_iff

theorem State.takeRequest_refused {α : Type} {s : State} {h : ReqHead} {kind : Nat} {p : List Byte} {st : Status}
    (d : Codec α) (owner : α → State → Answer) (turn : s.kli.turnOf (requestFrame h (byteOf kind) p) = true)
    (r : kliRefusal h kind = some st) :
    s.takeRequest h kind p d owner = (s.took h).reply h (byteOf kind) st .empty := by
  unfold State.takeRequest State.answerRequest
  rw [if_pos turn, r]
  rfl

theorem kliRefusal_badStation {h : ReqHead} (kind : Nat) (out : 7 < h.station.toNat) :
    kliRefusal h kind = some .BAD_REQUEST := if_pos out

theorem kliRefusal_wrongStation {h : ReqHead} {kind : Nat} (known : h.station.toNat ≤ 7)
    (may : stationMay kind h.station.toNat = false) : kliRefusal h kind = some .WRONG_STATION := by
  unfold kliRefusal
  rw [if_neg (Nat.not_lt.mpr known), if_pos may]

theorem kliRefusal_keyOff {h : ReqHead} {kind : Nat} (service : h.station.toNat = 7) (of : 24 ≤ kind)
    (off : h.keyOn = false) : kliRefusal h kind = some .KEY_OFF := by
  have may : stationMay kind h.station.toNat = true := by
    rw [stationMay_iff, if_neg (by omega), if_neg (by omega), if_neg (by omega)]
    exact service
  unfold kliRefusal
  rw [if_neg (by omega), if_neg (by simp [may]), if_pos ⟨service, off⟩]

/-- Settles O18: the turn, then the refusals of R186 in their order. -/
theorem refusedRequestsReachNoOwner : Obligations.RefusedRequestsReachNoOwner := by
  refine ⟨fun h kind p s out => ⟨fun turn => if_pos ⟨out, turn⟩, fun waits => ?_⟩, fun kind f h p s e => ?_⟩
  · refine if_neg fun both => ?_
    rw [waits] at both
    exact nomatch both.2
  · obtain ⟨α, d, owner, run, fields⟩ := requestOf_takenAs e
    refine ⟨fun waits => ?_, fun turn => ⟨fun out => ?_, fun known may => ?_, fun service of off => ?_, fun a bad => ?_⟩⟩
    · rw [run, State.takeRequest_waits s d (owner h) waits]
    · rw [run, State.takeRequest_refused d (owner h) turn (kliRefusal_badStation kind out)]
      rfl
    · have wrong : stationMay kind h.station.toNat = false :=
        Bool.eq_false_iff.mpr fun ok => may ((stationMay_iff kind h.station.toNat).mp ok)
      rw [run, State.takeRequest_refused d (owner h) turn (kliRefusal_wrongStation known wrong),
        State.reply_eq _ _ _ _ _ (by decide)]
      rfl
    · rw [run, State.takeRequest_refused d (owner h) turn (kliRefusal_keyOff service of off),
        State.reply_eq _ _ _ _ _ (by decide)]
      rfl
    · have refused : d.parse p = none := by
        rw [fields] at bad
        exact Option.not_isSome_iff_eq_none.mp (Bool.eq_false_iff.mp bad)
      rw [run, State.takeRequest_badRequest s (owner h) ⟨a, turn⟩ refused]

end Sys2Proof.Machine
end

