-- ==== Sys2Proof/Proofs/Management.lean ====
section
/-! The state after reset, and the plain requests of the management station (R143, R193 to R195, R199). -/

namespace Sys2Proof.Machine

open Sys2Proof

/-! ### Reset -/

theorem tget_replicate {α : Type} (n i : Nat) (x d : α) : tget (Vector.replicate n x) d i = x ∨
    tget (Vector.replicate n x) d i = d := by
  cases i with
  | zero => exact .inr rfl
  | succ k =>
    by_cases inside : k < n
    · exact .inl (by simp [tget, inside])
    · exact .inr (by simp [tget, inside])

theorem State.comp_reset (n : Nat) : State.reset.comp n = Compartment.factory :=
  (tget_replicate 240 n Compartment.factory Compartment.factory).elim id id

theorem State.sect_reset (i : Fin 8) : State.reset.sect i = Sect.factory :=
  Vector.getElem_replicate i.isLt

theorem State.reader_reset (r : Nat) : State.reset.reader r = Reader.empty :=
  (tget_replicate 4 r Reader.empty Reader.empty).elim id id

theorem State.gate_reset (st : Nat) : State.reset.gate st = { wrong := [], lockout := none } :=
  (tget_replicate 4 st (⟨[], none⟩ : Gate) ⟨[], none⟩).elim id id

/-- Every fitted link begins its full pass; no other item of a link is set. -/
theorem State.link_reset (l : Nat) : State.reset.link l = Link.empty ∨
    State.reset.link l = { Link.empty with enumPass := some { full := true, rounds := 0, bindDue := none } } :=
  (tget_replicate 4 l _ Link.empty).symm

theorem State.slot_reset (l k : Nat) : State.reset.slot l k = Slot.empty := by
  unfold State.slot
  rcases State.link_reset l with e | e <;> rw [e] <;> exact Link.slotAt_empty k

theorem State.liveCodes_reset : State.reset.liveCodes = [] := by
  refine List.filterMap_eq_nil_iff.mpr fun c hc => ?_
  have blank : c ∈ List.replicate 240 Compartment.factory := hc
  rw [List.eq_of_mem_replicate blank]
  rfl

theorem State.bounded_reset : State.reset.bounded := by
  refine ⟨by decide, fun k => ?_, fun st => ?_, fun n => ?_, fun r => ?_, fun l k => ?_, fun l p pass => ?_,
    fun st => Nat.zero_le _, by decide, fun l => ?_, fun r => ?_⟩
  · cases k <;> exact ⟨Nat.zero_le _, fun _ none => nomatch none⟩
  · rw [State.gate_reset]
    exact Nat.zero_le _
  · rw [State.comp_reset]
    exact Nat.zero_le _
  · rw [State.reader_reset]
    exact Nat.zero_le _
  · rw [State.slot_reset]
    exact Nat.zero_le _
  · rcases State.link_reset l with e | e <;> rw [e] at pass <;> cases pass
    exact Nat.zero_le _
  · have empty : (State.reset.link l).prio = [] ∧ (State.reset.link l).bulk = [] := by
      rcases State.link_reset l with e | e <;> rw [e] <;> exact ⟨rfl, rfl⟩
    unfold State.prioTaken
    rw [empty.1, empty.2]
    exact ⟨Nat.zero_le _, Nat.zero_le _⟩
  · rw [State.reader_reset]
    rfl

theorem State.kli_reset : State.reset.kli.ok := by
  have nothing : ∀ c, ClassSet.none.get c = false := fun c => by cases c <;> rfl
  refine ⟨Nat.zero_le _, Nat.zero_le _, fun c => ?_, ?_⟩ <;> simp [State.reset, nothing]

theorem State.refsExact_reset : State.reset.refsExact := by
  intro i
  have none_ : State.reset.namers i = [] := by
    refine List.filter_eq_nil_iff.mpr fun n _ => ?_
    rw [State.comp_reset]
    exact Bool.false_ne_true
  rw [none_]
  exact Vector.getElem_replicate i.isLt

theorem State.grantsExact_reset : State.reset.grantsExact := by
  refine ⟨rfl, .nil, Nat.zero_le _, fun o ho => (nomatch ho), fun l j hj => ?_⟩
  rcases State.link_reset l with e | e <;> rw [e] at hj <;> cases hj

theorem State.sectionsAgree_reset : State.reset.sectionsAgree := by
  intro n _ _ i
  rw [State.comp_reset, State.sect_reset]
  refine ⟨fun h => (nomatch h), fun covered => ?_⟩
  have inside : 1 ≤ n ∧ n < 1 + 0 := of_decide_eq_true covered
  omega

/-- Settles O11: no list holds anything, and every numbered record is its factory record. -/
theorem resetMeetsTheInvariants : Obligations.ResetMeetsTheInvariants := by
  refine ⟨State.kli_reset, ⟨rfl, rfl⟩, State.bounded_reset, fun n _ => ?_, State.refsExact_reset, ?_, .nil,
    State.grantsExact_reset, fun l k => ?_, State.sectionsAgree_reset, fun n m a _ _ _ _ on => ?_⟩
  · rw [State.comp_reset]
    rfl
  · exact ⟨State.liveCodes_reset ▸ .nil, .nil, fun e he => nomatch he⟩
  · rw [State.slot_reset]
    exact ⟨fun h => (nomatch h), fun h => (nomatch h), fun h => (nomatch h)⟩
  · rw [State.comp_reset] at on
    exact nomatch on

/-! ### The reading requests (R27, R28, R67, R143, R195) -/

theorem State.findCode_first {s : State} {n c : Nat} {x : Parcel} (hn : isComp n) (parcel : (s.comp n).parcel = some x)
    (code : x.code = some c)
    (first : ∀ k y, isComp k → k < n → (s.comp k).parcel = some y → y.code ≠ some c) : s.findCode c = some n := by
  refine List.find?_range'_eq_some.mpr ⟨by simp [parcel, code], List.mem_range'_1.mpr ⟨hn.1, by omega⟩, fun k lo below => ?_⟩
  cases held : (s.comp k).parcel with
  | none => simp
  | some y => simpa using first k y ⟨lo, by omega⟩ below held

theorem State.quoteReply_tells {s : State} {n : Nat} {x : Parcel} {i : Fin 4} (m : Option Nat)
    (parcel : (s.comp n).parcel = some x) (page : x.page = some i) : s.quoteReply n m =
      s.tell (.quoted n i x.declared x.pending x.paidThrough x.retryUntil (s.quoteAt (max s.now (m.getD s.now)) x)) := by
  simp only [State.quoteReply, parcel, page]

theorem compNoOk_of {n : Nat} (hn : isComp n) : compNoOk n = true := decide_eq_true hn

/-- Settles O19: each owner tells something and leaves the state. -/
theorem readingRequestsChangeNothing : Obligations.ReadingRequestsChangeNothing := by
  intro h p s
  refine ⟨fun a hp => ?_, fun n a hp hn => ?_, fun q a hp found => ?_, fun a hp => ?_,
    fun n m x i w a hp hn named parcel page => ?_⟩
  · have arm : exec (.status h p) s = execStatus h p s := rfl
    rw [arm, execStatus, State.takeRequest_tell s (fun _ s => .statusOf s.statusReply) a (Codec.parse_blank hp) rfl]
    rfl
  · have owner : (if compNoOk n then (s.took h).tell (.compartment ((s.took h).compReply n))
        else (s.took h).refuse .NOT_FOUND) = ⟨s.took h, .OK, .compartment (s.compReply n)⟩ := if_pos (compNoOk_of hn)
    exact congrArg Host.Outcome.next (State.takeRequest_of
      (owner := fun n s => if compNoOk n then s.tell (.compartment (s.compReply n)) else s.refuse .NOT_FOUND)
      a hp rfl owner (by decide))
  · have owner : (s.took h).findParcel q =
        ⟨s.took h, .OK, .found (s.matches q).length (((s.matches q).take 8).filterMap s.foundParcel)⟩ := if_neg found
    exact congrArg Host.Outcome.next
      (State.takeRequest_of (owner := fun q s => s.findParcel q) a hp rfl owner (by decide))
  · have arm : exec (.listBoards h p) s = execListBoards h p s := rfl
    rw [arm, execListBoards,
      State.takeRequest_tell s (fun _ s => .boards (s.linkNos.map fun l => (s.link l).listed)) a (Codec.parse_blank hp) rfl]
    rfl
  · have told := State.quoteReply_tells (s := s.took h) m parcel page
    have owner : (s.took h).quoteFor { what := w, minute := m } = (s.took h).quoteReply n m := by
      rcases named with rfl | ⟨c, rfl, code, first⟩
      · exact if_pos (compNoOk_of hn)
      · have found : (s.took h).findCode c = some n := State.findCode_first hn parcel code first
        simp only [State.quoteFor, found]
    exact congrArg Host.Outcome.next
      (State.takeRequest_of (owner := fun q s => s.quoteFor q) a hp rfl (owner.trans told) (by decide))

/-! ### Events (R193, R194) -/

/-- What FETCH_EVENTS takes: the oldest records, as many as asked and as fit. -/
theorem takeFitting_spec : ∀ (n room : Nat) (l : List EventRec), ∃ rest, l = takeFitting n room l ++ rest ∧
    (takeFitting n room l).length ≤ n ∧ ((takeFitting n room l).map fun e => e.bytes.length).sum ≤ room ∧
    ∀ e es, rest = e :: es → (takeFitting n room l).length < n →
      room < ((takeFitting n room l).map fun e => e.bytes.length).sum + e.bytes.length
  | 0, room, l => ⟨l, by simp [takeFitting]⟩
  | n + 1, room, [] => ⟨[], by simp [takeFitting]⟩
  | n + 1, room, e :: es => by
    obtain ⟨rest, split_, few, fit, most⟩ := takeFitting_spec n (room - e.bytes.length) es
    by_cases fits : e.bytes.length ≤ room
    · refine ⟨rest, ?_⟩
      simp only [takeFitting, if_pos fits, List.cons_append, List.length_cons, List.map_cons, List.sum_cons]
      refine ⟨congrArg _ split_, by omega, by omega, fun x xs next short => ?_⟩
      have := most x xs next (by omega)
      omega
    · refine ⟨e :: es, ?_⟩
      simp only [takeFitting, if_neg fits, List.nil_append, List.length_nil, List.map_nil, List.sum_nil]
      refine ⟨trivial, by omega, by omega, fun x xs next _ => ?_⟩
      cases next
      omega

theorem ClassSet.get_inter (a b : ClassSet) (c : EventClass) : (a.inter b).get c = (a.get c && b.get c) := by
  cases c <;> rfl

theorem ClassSet.get_ofQueue (q : List EventRec) (c : EventClass) :
    (ClassSet.ofQueue q).get c = true ↔ ∃ e ∈ q, e.kind.cls = c := by
  have flag : (ClassSet.ofQueue q).get c = queueHas q c := by cases c <;> rfl
  simp [flag, queueHas]

/-- Settles O21. -/
theorem fetchTakesTheOldestRecords : Obligations.FetchTakesTheOldestRecords := by
  intro h n s a hn
  obtain ⟨rest, split_, few, fit, most⟩ := takeFitting_spec (clamp 1 8 n) 243 s.kli.queue
  have left : s.kli.queue.drop (takeFitting (clamp 1 8 n) 243 s.kli.queue).length = rest := by
    calc s.kli.queue.drop (takeFitting (clamp 1 8 n) 243 s.kli.queue).length
        = (takeFitting (clamp 1 8 n) 243 s.kli.queue ++ rest).drop (takeFitting (clamp 1 8 n) 243 s.kli.queue).length :=
          congrArg (List.drop _) split_
      _ = rest := List.drop_left
  have number : s.kli.queue.length - (takeFitting (clamp 1 8 n) 243 s.kli.queue).length = rest.length := by
    rw [← left, List.length_drop]
  refine ⟨takeFitting (clamp 1 8 n) 243 s.kli.queue, _,
    congrArg Host.Outcome.next (State.takeRequest_of (owner := fun n s => s.fetch n) a (Codec.parse_nat8_byteOf hn) rfl
      (rfl : (s.took h).fetch n = ⟨_, _, _⟩) (by decide)), ?_⟩
  have queue : (((s.took h).updKli fun x => x.fetched (takeFitting (clamp 1 8 n) 243 s.kli.queue).length).kli.queue) = rest :=
    left
  refine ⟨?_, few, fit, fun e es next short => most e es (queue.symm.trans next) short, ?_, rfl, fun c => ?_, rfl, rfl⟩
  · exact split_.trans (congrArg _ queue.symm)
  · refine congrArg (fun k => some (replyTo h 2 .OK (.events _ k s.kli.overflow))) ?_
    exact number.trans (congrArg List.length queue.symm)
  · have flags : (s.kli.pendingFl.inter (ClassSet.ofQueue rest)).get c = true ↔
        s.kli.pendingFl.get c = true ∧ ∃ e ∈ rest, e.kind.cls = c := by
      rw [ClassSet.get_inter, Bool.and_eq_true, ClassSet.get_ofQueue]
    rw [← left] at flags
    exact flags

/-- Settles O22. -/
theorem eventMaskIsStoredWhole : Obligations.EventMaskIsStoredWhole := by
  intro h p m s a hp
  refine ⟨_, congrArg Host.Outcome.next (State.takeRequest_of (owner := fun m s => s.setMask m) a hp rfl
    (rfl : (s.took h).setMask m = ⟨_, _, _⟩) (by decide)), rfl, rfl, ?_, rfl, rfl, rfl, rfl⟩
  exact Kli.refresh_attention { s.kli.took h with mask := m }

/-! ### The clock (R199) -/

/-- The offset that TIME_SET stores makes the wall minute named stand now. -/
theorem wallOffsetFor_spec {w : Nat} (hw : w ≤ 1439) (m : Nat) :
    wallOffsetFor w m ≤ 1439 ∧ (m + wallOffsetFor w m) % 1440 = w := by
  unfold wallOffsetFor
  omega

/-- Settles O23. -/
theorem timeSetPlacesTheWallMinute : Obligations.TimeSetPlacesTheWallMinute := by
  intro h p w s a hp running hw
  obtain ⟨small, stands⟩ := wallOffsetFor_spec hw s.now
  refine ⟨wallOffsetFor w s.now, small, stands, ?_⟩
  have going : ¬ (s.took h).starting = true := fun st => (s.starting_iff.mp st) running
  have owner : (s.took h).timeSet w = ⟨(s.took h).updScu fun u => { u with wallOffset := wallOffsetFor w s.now }, .OK,
      .wall (wallOffsetFor w s.now) w⟩ := by
    unfold State.timeSet
    rw [if_neg going, if_neg (by omega)]
    rfl
  exact congrArg Host.Outcome.next (State.takeRequest_of (owner := fun w s => s.timeSet w) a hp rfl owner (by decide))

end Sys2Proof.Machine
end

