-- ==== Sys2Proof/Proofs/Tariffs.lean ====
section
/-! TARIFF_LOAD and TARIFF_SCHEDULE, the stored ranges, and the quote (R128 to R141). -/

namespace Sys2Proof.Machine

open Sys2Proof

/-! ### TARIFF_LOAD and TARIFF_SCHEDULE (R131, R133) -/

theorem State.serviceCheck_served {s : State} (sv : s.serves) : s.serviceCheck = none := by
  simp [State.serviceCheck, State.starting, sv.1, sv.2]

theorem pageOf_val (i : Fin 4) : pageOf i.val = some i := dif_pos i.isLt

theorem State.pageInUse_grounds (s : State) (i : Fin 4) : s.pageInUse i = true ↔
    (s.page i).isSome = true ∧ (s.tariff.active = i ∨ s.scheduledPage i = true ∨ 0 < s.pageRefs i) := by
  simp [State.pageInUse, or_assoc]

/-- TARIFF_LOAD that is served goes by the page's use. -/
theorem State.tariffLoad_served {s : State} (i : Fin 4) (x : Page) (sv : s.serves) : s.tariffLoad i.val x =
    if s.pageInUse i then ⟨s, .IN_USE, .pageInUse (decide (s.tariff.active = i)) (s.scheduledPage i)
      (decide (0 < s.pageRefs i)) (s.pageRefs i)⟩
    else ⟨s.storePage i x.clamped, .OK, .pageStored x.clamped (decide (x.clamped ≠ x)) (s.pageRefs i)⟩ := by
  unfold State.tariffLoad
  rw [State.serviceCheck_served sv, pageOf_val]

/-- TARIFF_SCHEDULE of a LOADED page that is served goes by the active page and the minute. -/
theorem State.schedule_served {s : State} {i : Fin 4} (m : Nat) (sv : s.serves) (loaded : (s.page i).isSome = true) :
    s.schedule i.val m =
      if s.tariff.active = i then ⟨s.setSwitch none, .OK, .switchCancelled s.tariff.scheduled (s.pageRefs i)⟩
      else if s.now < m then ⟨s.setSwitch (some ⟨i, m⟩), .OK, .switchStored ⟨i, m⟩ (s.pageRefs i)⟩
      else ⟨s.switchPage i, .OK, .switched s.tariff.active i (s.pageRefs i)⟩ := by
  have held : ¬ (s.page i).isNone = true := by
    rw [← Option.not_isSome, loaded]
    exact Bool.false_ne_true
  unfold State.schedule
  rw [State.serviceCheck_served sv, pageOf_val]
  exact if_neg held

theorem State.schedule_cancels {s : State} {i : Fin 4} (m : Nat) (sv : s.serves) (loaded : (s.page i).isSome = true)
    (active : s.tariff.active = i) :
    s.schedule i.val m = ⟨s.setSwitch none, .OK, .switchCancelled s.tariff.scheduled (s.pageRefs i)⟩ :=
  (State.schedule_served m sv loaded).trans (if_pos active)

theorem State.schedule_stores {s : State} {i : Fin 4} {m : Nat} (sv : s.serves) (loaded : (s.page i).isSome = true)
    (other : s.tariff.active ≠ i) (later : s.now < m) :
    s.schedule i.val m = ⟨s.setSwitch (some ⟨i, m⟩), .OK, .switchStored ⟨i, m⟩ (s.pageRefs i)⟩ := by
  rw [State.schedule_served m sv loaded, if_neg other, if_pos later]

theorem State.schedule_switches {s : State} {i : Fin 4} {m : Nat} (sv : s.serves) (loaded : (s.page i).isSome = true)
    (other : s.tariff.active ≠ i) (due : m ≤ s.now) :
    s.schedule i.val m = ⟨s.switchPage i, .OK, .switched s.tariff.active i (s.pageRefs i)⟩ := by
  rw [State.schedule_served m sv loaded, if_neg other, if_neg (Nat.not_lt.mpr due)]

/-- Settles O45. -/
theorem tariffsAreLoadedAndScheduled : Obligations.TariffsAreLoadedAndScheduled := by
  refine ⟨fun h p i x s a hp sv => ?_, fun h p i m s a hp sv loaded => ?_⟩
  · have served := State.tariffLoad_served (s := s.took h) i x sv
    refine ⟨fun used => ?_, fun free => ?_⟩
    · have owner := served.trans (if_pos (((s.took h).pageInUse_grounds i).mpr used))
      exact congrArg Host.Outcome.next
        (State.takeRequest_of (owner := fun x s => s.tariffLoad x.1 x.2) a hp rfl owner (by simp))
    · have owner := served.trans (if_neg fun used => free (((s.took h).pageInUse_grounds i).mp used))
      exact congrArg Host.Outcome.next
        (State.takeRequest_of (owner := fun x s => s.tariffLoad x.1 x.2) a hp rfl owner (by simp))
  · have run : exec (.tariffSchedule h p) s =
      .next (s.takeRequest h 38 p (Codec.nat8.pair Codec.nat32) fun x s => s.schedule x.1 x.2) := rfl
    refine ⟨fun active => ?_, fun other later => ?_, fun other due => ?_⟩
    · rw [run, State.takeRequest_of a hp rfl (State.schedule_cancels (s := s.took h) m sv loaded active) (by simp)]
      rfl
    · rw [run, State.takeRequest_of a hp rfl (State.schedule_stores (s := s.took h) sv loaded other later) (by simp)]
      rfl
    · rw [run, State.takeRequest_of a hp rfl (State.schedule_switches (s := s.took h) sv loaded other due) (by simp)]
      rfl

/-! ### Stored values (R128, R130, R205) -/

theorem clamp_mem {lo hi : Nat} (h : lo ≤ hi) (x : Nat) : lo ≤ clamp lo hi x ∧ clamp lo hi x ≤ hi := by
  unfold clamp
  split_ifs <;> omega

theorem clamp_le (hi x : Nat) : clamp 0 hi x ≤ hi := (clamp_mem (Nat.zero_le hi) x).2

theorem clamp_of_mem {lo hi x : Nat} (h : lo ≤ x) (h' : x ≤ hi) : clamp lo hi x = x := by
  rw [clamp, if_neg (by omega), if_neg (by omega)]

theorem PerClass.get_map {α β : Type} (p : PerClass α) (f : α → β) (k : SizeClass) : (p.map f).get k = f (p.get k) := by
  cases k <;> rfl

theorem PerClass.map_of_fixed {α : Type} {p : PerClass α} {f : α → α} (h : ∀ k, f (p.get k) = p.get k) :
    p.map f = p := by
  obtain ⟨a, b, c, d⟩ := p
  simp only [PerClass.map, PerClass.mk.injEq]
  exact ⟨h .S, h .M, h .L, h .XL⟩

/-- A rounding unit is one of the five. -/
def isUnit (u : Nat) : Prop := u = 1 ∨ u = 5 ∨ u = 10 ∨ u = 50 ∨ u = 100

theorem clampUnit_isUnit (x : Nat) : isUnit (clampUnit x) := by
  unfold clampUnit isUnit
  split_ifs <;> omega

theorem clampUnit_of_isUnit {x : Nat} (h : isUnit x) : clampUnit x = x := by
  rcases h with rfl | rfl | rfl | rfl | rfl <;> rfl

theorem clampUnit_le (x : Nat) : clampUnit x ≤ max x 1 := by
  unfold clampUnit
  split_ifs <;> omega

/-- Settles O46: every field is clamped on its own, and the ceiling then brought to a multiple of the unit. -/
theorem storedValuesLieInRange : Obligations.StoredValuesLieInRange := by
  refine ⟨fun x => ⟨⟨clampUnit_isUnit x.unit, Nat.dvd_sub_mod _, ?_, clamp_le 4 _, clamp_le 1439 _, clamp_le 720 _,
      clamp_le 60 _, (clamp_mem (by decide) _).1, (clamp_mem (by decide) _).2, fun k => ?_⟩, fun ok => ?_,
      clampUnit_le x.unit, ?_⟩, fun c => ⟨⟨clamp_le 7 _, (clamp_mem (by decide) _).1, (clamp_mem (by decide) _).2,
      (clamp_mem (by decide) _).1, (clamp_mem (by decide) _).2, fun k => ?_⟩, fun ok => ?_⟩⟩
  · exact (Nat.sub_le _ _).trans (Nat.min_le_right _ _)
  · simp only [Page.clamped, PerClass.get_map]
    exact ⟨clamp_le _ _, clamp_le _ _, clamp_le _ _, clamp_le _ _⟩
  · obtain ⟨unit, multiple, top, period, start, length, grace, overdue, overdue', classes⟩ := ok
    have u : clampUnit x.unit = x.unit := clampUnit_of_isUnit unit
    have ceiling : min x.ceiling 500000 - min x.ceiling 500000 % x.unit = x.ceiling := by
      rw [Nat.min_eq_left top, Nat.mod_eq_zero_of_dvd multiple, Nat.sub_zero]
    have free : x.freeMin.map (clamp 0 2880) = x.freeMin :=
      PerClass.map_of_fixed fun k => clamp_of_mem (Nat.zero_le _) (classes k).1
    have rate : x.rate.map (clamp 0 9999) = x.rate :=
      PerClass.map_of_fixed fun k => clamp_of_mem (Nat.zero_le _) (classes k).2.1
    have cap : x.dayCap.map (clamp 0 50000) = x.dayCap :=
      PerClass.map_of_fixed fun k => clamp_of_mem (Nat.zero_le _) (classes k).2.2.1
    have fee : x.returnFee.map (clamp 0 9999) = x.returnFee :=
      PerClass.map_of_fixed fun k => clamp_of_mem (Nat.zero_le _) (classes k).2.2.2
    unfold Page.clamped
    simp only [u, ceiling, free, rate, cap, fee, clamp_of_mem (Nat.zero_le _) period, clamp_of_mem (Nat.zero_le _) start,
      clamp_of_mem (Nat.zero_le _) length, clamp_of_mem (Nat.zero_le _) grace, clamp_of_mem overdue overdue']
  · exact (Nat.sub_le _ _).trans (Nat.min_le_left _ _)
  · simp only [ConfigVals.clamped, PerClass.get_map]
    exact ⟨(clamp_mem (by decide) _).1, (clamp_mem (by decide) _).2, (clamp_mem (by decide) _).1,
      (clamp_mem (by decide) _).2, clamp_le _ _⟩
  · obtain ⟨retry, wait, wait', pay, pay', classes⟩ := ok
    have strike : c.strikeMs.map (clamp 200 1500) = c.strikeMs :=
      PerClass.map_of_fixed fun k => clamp_of_mem (classes k).1 (classes k).2.1
    have ajar : c.ajar.map (clamp 30 900) = c.ajar :=
      PerClass.map_of_fixed fun k => clamp_of_mem (classes k).2.2.1 (classes k).2.2.2.1
    have walkUp : c.walkUp.map (clamp 0 20) = c.walkUp :=
      PerClass.map_of_fixed fun k => clamp_of_mem (Nat.zero_le _) (classes k).2.2.2.2
    unfold ConfigVals.clamped
    simp only [strike, ajar, walkUp, clamp_of_mem (Nat.zero_le _) retry, clamp_of_mem wait wait', clamp_of_mem pay pay']

/-! ### The quote (R136 to R141) -/

/-- A period has started exactly where its start is earlier than the dwell (R138). -/
theorem lt_periodsStarted {free len dwell i : Nat} (hl : 0 < len) :
    i < periodsStarted free len dwell ↔ free + i * len < dwell := by
  unfold periodsStarted
  split
  · omega
  · rw [← Nat.succ_le_iff, Nat.le_div_iff_mul_le hl, Nat.succ_mul]
    omega

/-- The days of dwell that a number of periods reach, the last of them that of the last start (R139). -/
theorem dayNos_periodStarts (free len n : Nat) :
    dayNos (periodStarts free len (n + 1)) = List.range ((free + n * len) / 1440 + 1) := by
  unfold dayNos periodStarts
  rw [List.range_succ, List.map_append, List.map_singleton, List.getLast?_append]
  rfl

/-- Every start lies in a day that is reached. -/
theorem mem_dayNos {free len n i : Nat} (hi : i < n) : (free + i * len) / 1440 ∈ dayNos (periodStarts free len n) := by
  obtain ⟨m, rfl⟩ : ∃ m, n = m + 1 := ⟨n - 1, by omega⟩
  rw [dayNos_periodStarts, List.mem_range]
  have : i * len ≤ m * len := Nat.mul_le_mul_right len (Nat.lt_succ_iff.mp hi)
  omega

/-- The charge of a day is the rate for each open period that starts in it (R140). -/
theorem dayCharge_openStarts (rate free len n d : Nat) (shut : Nat → Bool) :
    dayCharge rate ((periodStarts free len n).filter fun x => !shut x) d =
      (List.range n).countP (fun i => !shut (free + i * len) && (free + i * len) / 1440 == d) * rate := by
  unfold dayCharge periodStarts
  rw [List.filter_filter, ← List.countP_eq_length_filter, List.countP_map]
  exact congrArg (· * rate) (List.countP_congr fun i _ => by simp [and_comm])

theorem length_openStarts (free len n : Nat) (shut : Nat → Bool) :
    n - ((periodStarts free len n).filter fun x => !shut x).length =
      (List.range n).countP fun i => shut (free + i * len) := by
  have all := List.length_eq_countP_add_countP (fun i => shut (free + i * len)) (l := List.range n)
  rw [List.length_range] at all
  have others : ((periodStarts free len n).filter fun x => !shut x).length =
      (List.range n).countP fun i => decide ¬ shut (free + i * len) = true := by
    unfold periodStarts
    rw [← List.countP_eq_length_filter, List.countP_map]
    exact List.countP_congr fun i _ => by simp
  omega

/-- A sum over days that are not charged beyond `k` is that over the first `k`. -/
theorem sum_range_eq {f : Nat → Nat} {k m : Nat} (le : k ≤ m) (zero : ∀ d, k ≤ d → f d = 0) :
    ((List.range k).map f).sum = ((List.range m).map f).sum := by
  obtain ⟨j, rfl⟩ := Nat.exists_eq_add_of_le le
  have rest : ((List.range j).map fun d => f (k + d)).sum = 0 := by
    rw [List.sum_eq_zero_iff]
    rintro x hx
    obtain ⟨d, -, rfl⟩ := List.mem_map.mp hx
    exact zero _ (Nat.le_add_right k d)
  rw [List.range_add, List.map_append, List.sum_append, List.map_map]
  exact (congrArg (_ + ·) rest).symm

/-- Counting the members of a list by a value below `k` counts them all. -/
theorem sum_countP_eq_length {f : Nat → Nat} {k : Nat} : ∀ {l : List Nat}, (∀ x ∈ l, f x < k) →
    ((List.range k).map fun d => l.countP fun x => f x == d).sum = l.length
  | [], _ => by simp
  | x :: l, below => by
    have one : ((List.range k).map fun d => if f x = d then 1 else 0).sum = 1 := by
      have inside : f x ∈ Finset.range k := Finset.mem_range.mpr (below x List.mem_cons_self)
      exact (Finset.sum_ite_eq (Finset.range k) (f x) fun _ => 1).trans (if_pos inside)
    have split_ : (fun d => (x :: l).countP fun y => f y == d) =
        fun d => (l.countP fun y => f y == d) + if f x = d then 1 else 0 := by
      funext d
      simp [List.countP_cons]
    rw [split_, List.sum_map_add, one, sum_countP_eq_length fun y hy => below y (List.mem_cons_of_mem x hy)]
    rfl

theorem roundUp_pos {u : Nat} (x : Nat) (h : 0 < u) : roundUp u x = (x + u - 1) / u * u := if_neg (Nat.ne_of_gt h)

theorem roundUp_zero (u : Nat) : roundUp u 0 = 0 := by
  unfold roundUp
  split
  · rfl
  · rw [Nat.div_eq_of_lt (by omega), Nat.zero_mul]

/-- Rounding up to a unit that divides the bound stays within it. -/
theorem roundUp_le {u x c : Nat} (h : 0 < u) (le : x ≤ c) (multiple : u ∣ c) : roundUp u x ≤ c := by
  obtain ⟨k, rfl⟩ := multiple
  rw [roundUp_pos x h, Nat.mul_comm u k]
  refine Nat.mul_le_mul_right u (Nat.lt_succ_iff.mp ((Nat.div_lt_iff_lt_mul h).mpr ?_))
  rw [Nat.succ_mul, Nat.mul_comm k u]
  omega

/-- The closed window in the words of R139. -/
theorem Page.closedAt_eq (pg : Page) (wall x : Nat) : pg.closedAt wall x =
    decide (0 < pg.windowLen ∧ ((((wall + x) % 1440 : Nat) : Int) - pg.windowStart) % 1440 < pg.windowLen) := by
  unfold Page.closedAt
  refine decide_eq_decide.mpr (and_congr_right fun _ => ?_)
  omega

theorem capped_eq (cap c : Nat) : capped cap c = if 0 < cap then min c cap else c := by
  unfold capped
  split_ifs <;> omega

end Sys2Proof.Machine
end

