-- ==== Sys2Proof/Proofs/Quotes.lean ====
section
/-! The quote of a delivery parcel in the words of R136 to R141. -/

namespace Sys2Proof.Machine

open Sys2Proof

/-- What a day of dwell is charged before its cap, counted over the periods (R139, R140). -/
def Page.charge (pg : Page) (k : SizeClass) (wall n d : Nat) : Nat :=
  (List.range n).countP (fun i => !pg.closedAt wall (pg.freeMin.get k + i * pg.period) &&
    (pg.freeMin.get k + i * pg.period) / 1440 == d) * pg.rate.get k

/-- The sum of the capped days (R140). -/
def Page.charged (pg : Page) (k : SizeClass) (wall n : Nat) : Nat :=
  ((List.range 60).map fun d => capped (pg.dayCap.get k) (pg.charge k wall n d)).sum

theorem Page.period_pos (pg : Page) : 15 ≤ pg.period := Nat.le_mul_of_pos_right 15 (Nat.two_pow_pos pg.periodCode)

/-- The days reached are the first ones, and at most 60. -/
theorem dayNos_eq_range {free len n : Nat} (bound : ∀ i, i < n → free + i * len < 86400) :
    ∃ k, k ≤ 60 ∧ dayNos (periodStarts free len n) = List.range k := by
  cases n with
  | zero => exact ⟨0, Nat.zero_le _, rfl⟩
  | succ m =>
    have := bound m (Nat.lt_succ_self m)
    exact ⟨_, by omega, dayNos_periodStarts free len m⟩

/-- A day that no period reaches is not charged. -/
theorem Page.charge_unreached {pg : Page} {k : SizeClass} (wall : Nat) {n d : Nat}
    (out : d ∉ dayNos (periodStarts (pg.freeMin.get k) pg.period n)) : pg.charge k wall n d = 0 := by
  have none_ : (List.range n).countP (fun i => !pg.closedAt wall (pg.freeMin.get k + i * pg.period) &&
      (pg.freeMin.get k + i * pg.period) / 1440 == d) = 0 := by
    refine List.countP_eq_zero.mpr fun i hi at_ => out ?_
    obtain ⟨-, day⟩ := (Bool.and_eq_true _ _).mp at_
    exact eq_of_beq day ▸ mem_dayNos (List.mem_range.mp hi)
  rw [Page.charge, none_, Nat.zero_mul]

theorem Page.dayCharge_eq (pg : Page) (k : SizeClass) (wall n : Nat) :
    dayCharge (pg.rate.get k) ((periodStarts (pg.freeMin.get k) pg.period n).filter fun x => !pg.closedAt wall x) =
      pg.charge k wall n :=
  funext fun d => dayCharge_openStarts _ _ _ _ d fun x => pg.closedAt wall x

/-- The days beyond those reached add nothing to the sum. -/
theorem Page.charged_eq {pg : Page} {k : SizeClass} (wall : Nat) {n : Nat}
    (bound : ∀ i, i < n → pg.freeMin.get k + i * pg.period < 86400) :
    (((dayNos (periodStarts (pg.freeMin.get k) pg.period n)).map (pg.charge k wall n)).map
      (capped (pg.dayCap.get k))).sum = pg.charged k wall n := by
  obtain ⟨m, few, days⟩ := dayNos_eq_range bound
  rw [days, List.map_map]
  refine sum_range_eq few fun d beyond => ?_
  have free : pg.charge k wall n d = 0 := Page.charge_unreached wall (by simpa [days] using beyond)
  rw [Function.comp_apply, free]
  unfold capped
  split <;> omega

/-- Within the paid-through time nothing is due (R136). -/
theorem quoteOn_paidThrough {pg : Page} {offset now : Nat} {x : Parcel} {m : Nat} (paid : x.paidThrough = some m)
    (within : now ≤ m) : quoteOn pg offset now x =
      { due := 0, total := x.paid, paid := x.paid, dwell := min (now - x.depositMinute) 86400, periods := 0, closed := 0,
        paidUp := true, dwellClamped := decide (86400 < now - x.depositMinute), dayCap := false, ceiling := false,
        rounded := false } := by
  unfold quoteOn
  rw [paid]
  exact if_pos (decide_eq_true within)

/-- The quote outside the paid-through time, by the charges of the days (R138 to R141). -/
theorem quoteOn_running {pg : Page} {offset now n wall bounded : Nat} {x : Parcel}
    (late : ∀ m, x.paidThrough = some m → m < now)
    (hn : n = periodsStarted (pg.freeMin.get x.declared) pg.period (min (now - x.depositMinute) 86400))
    (hwall : wall = (x.depositMinute + offset) % 1440) (hb : bounded = min (pg.charged x.declared wall n) pg.ceiling) :
    quoteOn pg offset now x =
      { due := roundUp pg.unit bounded - x.paid, total := roundUp pg.unit bounded, paid := x.paid
        dwell := min (now - x.depositMinute) 86400, periods := n
        closed := (List.range n).countP fun i => pg.closedAt wall (pg.freeMin.get x.declared + i * pg.period)
        paidUp := decide (roundUp pg.unit bounded ≤ x.paid), dwellClamped := decide (86400 < now - x.depositMinute)
        dayCap := ((dayNos (periodStarts (pg.freeMin.get x.declared) pg.period n)).map (pg.charge x.declared wall n)).any
          fun c => decide (0 < pg.dayCap.get x.declared ∧ pg.dayCap.get x.declared < c)
        ceiling := decide (pg.ceiling < pg.charged x.declared wall n)
        rounded := decide (roundUp pg.unit bounded ≠ bounded) } := by
  have bound : ∀ i, i < n → pg.freeMin.get x.declared + i * pg.period < 86400 := fun i hi =>
    ((lt_periodsStarted (Nat.lt_of_lt_of_le (by decide) pg.period_pos)).mp (hn ▸ hi)).trans_le (Nat.min_le_right _ _)
  have running : ¬ (match x.paidThrough with | some t => decide (now ≤ t) | none => false) = true := by
    cases paid : x.paidThrough with
    | none => exact Bool.false_ne_true
    | some m => simpa using late m paid
  rw [hb]
  simp only [← Page.charged_eq _ bound, ← length_openStarts, ← Page.dayCharge_eq]
  subst hn hwall
  exact if_neg running

/-- On a page with no closed window every period is charged its rate. -/
theorem Page.charged_of_open {pg : Page} {k : SizeClass} (wall : Nat) {n : Nat} (window : pg.windowLen = 0)
    (cap : pg.dayCap.get k = 0) (bound : ∀ i, i < n → pg.freeMin.get k + i * pg.period < 86400) :
    pg.charged k wall n = n * pg.rate.get k := by
  have opens : ∀ x, pg.closedAt wall x = false := fun x => by simp [Page.closedAt, window]
  have days : ∀ i ∈ List.range n, (pg.freeMin.get k + i * pg.period) / 1440 < 60 := fun i hi => by
    have := bound i (List.mem_range.mp hi)
    omega
  have count := sum_countP_eq_length days
  rw [List.length_range] at count
  have terms : (fun d => capped (pg.dayCap.get k) (pg.charge k wall n d)) = fun d =>
      ((List.range n).countP fun i => (pg.freeMin.get k + i * pg.period) / 1440 == d) * pg.rate.get k := by
    funext d
    simp [capped, cap, Page.charge, opens]
  rw [Page.charged, terms, List.sum_map_mul_right, count]

/-- A day cap has cut a charge exactly where some day's charge passes it (R140). -/
theorem Page.dayCap_iff {pg : Page} {k : SizeClass} (wall n : Nat) :
    (((dayNos (periodStarts (pg.freeMin.get k) pg.period n)).map (pg.charge k wall n)).any fun c =>
      decide (0 < pg.dayCap.get k ∧ pg.dayCap.get k < c)) = true ↔
      0 < pg.dayCap.get k ∧ ∃ d, pg.dayCap.get k < pg.charge k wall n d := by
  simp only [List.any_map, List.any_eq_true, Function.comp_apply, decide_eq_true_eq]
  constructor
  · rintro ⟨d, -, cap, cut⟩
    exact ⟨cap, d, cut⟩
  · rintro ⟨cap, d, cut⟩
    refine ⟨d, ?_, cap, cut⟩
    by_contra out
    rw [Page.charge_unreached wall out] at cut
    exact absurd cut (Nat.not_lt_zero _)

/-- With no period started nothing is charged. -/
theorem Page.charged_none (pg : Page) (k : SizeClass) (wall : Nat) : pg.charged k wall 0 = 0 :=
  (Page.charged_eq (pg := pg) (k := k) wall fun _ none => absurd none (Nat.not_lt_zero _)).symm

/-- No more periods start than fit into the greatest dwell. -/
theorem periods_le {free len n : Nat} (hl : 15 ≤ len) (bound : ∀ i, i < n → free + i * len < 86400) : n ≤ 5760 := by
  by_contra many
  have last := bound 5760 (by omega)
  have : 5760 * 15 ≤ 5760 * len := Nat.mul_le_mul_left 5760 hl
  omega

/-- Settles O48. -/
theorem quotesFollowTheTariff : Obligations.QuotesFollowTheTariff := by
  intro pg offset now x
  obtain ⟨n, hn⟩ : ∃ n, n = periodsStarted (pg.freeMin.get x.declared) pg.period (min (now - x.depositMinute) 86400) :=
    ⟨_, rfl⟩
  have len : 0 < pg.period := Nat.lt_of_lt_of_le (by decide) pg.period_pos
  have started : ∀ i, i < n ↔ pg.freeMin.get x.declared + i * pg.period < min (now - x.depositMinute) 86400 :=
    fun i => hn ▸ lt_periodsStarted len
  have bound : ∀ i, i < n → pg.freeMin.get x.declared + i * pg.period < 86400 := fun i hi =>
    ((started i).mp hi).trans_le (Nat.min_le_right _ _)
  obtain ⟨wall, hwall⟩ : ∃ wall, wall = (x.depositMinute + offset) % 1440 := ⟨_, rfl⟩
  obtain ⟨bounded, hb⟩ : ∃ b, b = min (pg.charged x.declared wall n) pg.ceiling := ⟨_, rfl⟩
  intro q free period dwell count
  have hcount : count = n := hn.symm
  have general : q.dwell = dwell ∧ q.paid = x.paid := by
    by_cases late : ∀ m, x.paidThrough = some m → m < now
    · have e : q = _ := quoteOn_running late hn hwall hb
      rw [e]
      exact ⟨rfl, rfl⟩
    · push Not at late
      obtain ⟨m, paid, within⟩ := late
      have e : q = _ := quoteOn_paidThrough paid within
      rw [e]
      exact ⟨rfl, rfl⟩
  refine ⟨general.1, general.2, fun m paid within => ?_, fun late => ?_⟩
  · have e : q = _ := quoteOn_paidThrough paid within
    rw [e]
    exact ⟨rfl, rfl, rfl⟩
  · have e : q = _ := quoteOn_running late hn hwall hb
    have closed_le : ∀ c : Nat → Bool, (List.range n).countP c ≤ n := fun c =>
      List.countP_le_length.trans (Nat.le_of_eq List.length_range)
    rw [hcount, e]
    dsimp only
    refine ⟨rfl, closed_le _, periods_le pg.period_pos bound, started, fun none_ => ?_, ?_, fun unit multiple => ?_⟩
    · subst none_
      rw [hb, Page.charged_none, Nat.zero_min]
      exact ⟨rfl, roundUp_zero _⟩
    · have shut : (fun i => decide (0 < pg.windowLen ∧
          (((((x.depositMinute + offset) % 1440 + (free + i * period)) % 1440 : Nat) : Int) - pg.windowStart) % 1440 <
            pg.windowLen)) = fun i => pg.closedAt wall (pg.freeMin.get x.declared + i * pg.period) :=
        funext fun i => hwall ▸ (pg.closedAt_eq _ _).symm
      have charge : (fun d => (List.range n).countP
          (fun i => !pg.closedAt wall (pg.freeMin.get x.declared + i * pg.period) && (free + i * period) / 1440 == d) *
            pg.rate.get x.declared) = pg.charge x.declared wall n := rfl
      have sum : ((List.range 60).map fun d => if 0 < pg.dayCap.get x.declared then
          min (pg.charge x.declared wall n d) (pg.dayCap.get x.declared) else pg.charge x.declared wall n d).sum =
          pg.charged x.declared wall n := by
        simp only [← capped_eq]
        rfl
      have opened := congrFun shut
      simp only [opened, congrFun charge, sum, ← hb]
      exact ⟨trivial, Page.dayCap_iff wall n, decide_eq_true_iff, decide_eq_true_iff, fun unit => roundUp_pos _ unit⟩
    · have top : roundUp pg.unit bounded ≤ pg.ceiling := roundUp_le unit (hb ▸ Nat.min_le_right _ _) multiple
      refine ⟨top, ?_, Nat.sub_add_eq_max _ _, ?_, fun window cap => ⟨?_, ?_, ?_⟩⟩
      · rw [roundUp_pos _ unit]
        exact Nat.dvd_mul_left _ _
      · exact decide_eq_true_iff.trans Nat.sub_eq_zero_iff_le.symm
      · refine List.countP_eq_zero.mpr fun i _ => ?_
        simp [Page.closedAt, window]
      · refine Bool.eq_false_iff.mpr fun cut => ?_
        have := ((Page.dayCap_iff wall n).mp cut).1
        omega
      · rw [hb, Page.charged_of_open _ window cap bound, roundUp_pos _ unit]

end Sys2Proof.Machine
end

