-- ==== Sys2Proof/Proofs/ServiceRequests.lean ====
section
/-! The service requests that change one compartment (R20, R23, R24). -/

namespace Sys2Proof.Machine

open Sys2Proof

section
variable {s : State} {n : Nat} (sv : s.serves) (hn : isComp n)
include sv hn

theorem State.clearFault_busy (busy : s.hasOp n = true) : s.clearFault n = s.refuse .BUSY := by
  unfold State.clearFault
  rw [State.onComp_served _ sv hn, if_pos busy]

theorem State.clearFault_closed {a : Addr} {u : Nat} (idle : s.hasOp n = false) (res : s.resolution n = .ok a u)
    (closed : (s.slot a.link a.slot).shownClosed a.channel = true) :
    s.clearFault n = ⟨s.updComp n fun c => { c with causes := {} }, .OK, .causes (s.comp n).causes⟩ := by
  unfold State.clearFault
  rw [State.onComp_served _ sv hn]
  simp only [idle, res, closed, if_true, Bool.false_eq_true, if_false]

theorem State.setOut_taken (taken : (s.comp n).state ≠ .FREE) : s.setOut n = s.refuse .WRONG_STATE := by
  unfold State.setOut
  rw [State.onComp_served _ sv hn, if_pos taken]

theorem State.setOut_busy (free : (s.comp n).state = .FREE) (busy : s.hasOp n = true) : s.setOut n = s.refuse .BUSY := by
  unfold State.setOut
  rw [State.onComp_served _ sv hn, if_neg fun h => h free, if_pos busy]

theorem State.setOut_free (free : (s.comp n).state = .FREE) (idle : s.hasOp n = false) :
    s.setOut n = ⟨s.setState n .OUT_OF_SERVICE, .OK, .empty⟩ := by
  unfold State.setOut
  rw [State.onComp_served _ sv hn, if_neg fun h => h free, if_neg (Bool.eq_false_iff.mp idle)]

theorem State.reinstate_busy (busy : s.hasOp n = true) : s.reinstate n = s.refuse .BUSY := by
  unfold State.reinstate
  rw [State.onComp_served _ sv hn, if_pos busy]

theorem State.reinstate_wrongState (idle : s.hasOp n = false) (state : (s.comp n).state ≠ .OUT_OF_SERVICE) :
    s.reinstate n = s.refuse .WRONG_STATE := by
  unfold State.reinstate
  rw [State.onComp_served _ sv hn, if_neg (Bool.eq_false_iff.mp idle), if_pos state]

theorem State.reinstate_faulted (idle : s.hasOp n = false) (state : (s.comp n).state = .OUT_OF_SERVICE)
    (bad : (s.comp n).causes.isEmpty = false) : s.reinstate n = s.refuse .FAULTED := by
  unfold State.reinstate
  rw [State.onComp_served _ sv hn, if_neg (Bool.eq_false_iff.mp idle), if_neg fun k => k state, if_pos bad]

theorem State.reinstate_back (idle : s.hasOp n = false) (state : (s.comp n).state = .OUT_OF_SERVICE)
    (good : (s.comp n).causes.isEmpty = true) : s.reinstate n = ⟨s.setState n .FREE, .OK, .empty⟩ := by
  unfold State.reinstate
  rw [State.onComp_served _ sv hn, if_neg (Bool.eq_false_iff.mp idle), if_neg fun k => k state, if_neg (by simp [good])]

theorem State.setClass_busy (k : SizeClass) (busy : s.hasOp n = true) : s.setClass n k = s.refuse .BUSY := by
  unfold State.setClass
  rw [State.onComp_served _ sv hn, if_pos busy]

theorem State.setClass_taken (k : SizeClass) (idle : s.hasOp n = false) (free : (s.comp n).state ≠ .FREE)
    (out : (s.comp n).state ≠ .OUT_OF_SERVICE) : s.setClass n k = s.refuse .WRONG_STATE := by
  have taken : (s.comp n).state.unused = false := by
    unfold CompState.unused
    split <;> trivial
  unfold State.setClass
  rw [State.onComp_served _ sv hn, if_neg (Bool.eq_false_iff.mp idle), if_pos taken]

theorem State.setClass_unused (k : SizeClass) (idle : s.hasOp n = false)
    (unused : (s.comp n).state = .FREE ∨ (s.comp n).state = .OUT_OF_SERVICE) :
    s.setClass n k = ⟨s.updComp n fun c => { c with cls := k }, .OK, .empty⟩ := by
  have ok : (s.comp n).state.unused = true := by rcases unused with e | e <;> rw [e] <;> rfl
  unfold State.setClass
  rw [State.onComp_served _ sv hn, if_neg (Bool.eq_false_iff.mp idle), if_neg (by simp [ok])]

end

theorem Slot.shownClosed_of {x : Slot} {ch : Nat} {b : BoardStat} {r : Reading} (last : x.lastStatus = some b)
    (read : b.readings[ch]? = some r) (closed : r.hatchOpen = false) : x.shownClosed ch = true := by
  simp [Slot.shownClosed, last, read, closed]

/-- Settles O39: each request ends by its own test. -/
theorem compartmentsAreSetAndCleared : Obligations.CompartmentsAreSetAndCleared := by
  intro h p n s sv hn
  have served : (s.took h).serves := sv
  have clear : exec (.clearFault h p) s = .next (s.takeRequest h 26 p .nat8 fun n s => s.clearFault n) := rfl
  have out : exec (.setOutOfService h p) s = .next (s.takeRequest h 29 p .nat8 fun n s => s.setOut n) := rfl
  have back : exec (.reinstate h p) s = .next (s.takeRequest h 30 p .nat8 fun n s => s.reinstate n) := rfl
  have cls : exec (.setClass h p) s =
    .next (s.takeRequest h 31 p (Codec.nat8.pair Codec.sizeClass) fun x s => s.setClass x.1 x.2) := rfl
  refine ⟨fun hp => ⟨fun a idle ad u b r res last read closed => ?_, fun a idle free => ?_, fun a idle state good => ?_,
    fun a idle => ⟨fun state => ?_, fun state bad => ?_⟩, fun a taken => ?_, fun busy => ⟨fun a => ?_, fun a free => ?_,
    fun a => ?_⟩⟩, fun k a hp => ⟨fun busy => ?_, fun idle free gone => ?_, fun idle unused => ?_⟩⟩
  · have shown := Slot.shownClosed_of last read closed
    rw [clear, State.takeRequest_of a hp rfl (State.clearFault_closed served hn idle res shown) (by simp)]
    rfl
  · rw [out, State.takeRequest_of a hp rfl (State.setOut_free served hn free idle) (by simp)]
    rfl
  · rw [back, State.takeRequest_of a hp rfl (State.reinstate_back served hn idle state good) (by simp)]
    rfl
  · rw [back, State.takeRequest_of a hp rfl (State.reinstate_wrongState served hn idle state) (by simp)]
    rfl
  · rw [back, State.takeRequest_of a hp rfl (State.reinstate_faulted served hn idle state bad) (by simp)]
    rfl
  · rw [out, State.takeRequest_of a hp rfl (State.setOut_taken served hn taken) (by simp)]
    rfl
  · rw [clear, State.takeRequest_of a hp rfl (State.clearFault_busy served hn busy) (by simp)]
    rfl
  · rw [out, State.takeRequest_of a hp rfl (State.setOut_busy served hn free busy) (by simp)]
    rfl
  · rw [back, State.takeRequest_of a hp rfl (State.reinstate_busy served hn busy) (by simp)]
    rfl
  · rw [cls, State.takeRequest_of a hp rfl (State.setClass_busy served hn k busy) (by simp)]
    rfl
  · rw [cls, State.takeRequest_of a hp rfl (State.setClass_taken served hn k idle free gone) (by simp)]
    rfl
  · rw [cls, State.takeRequest_of a hp rfl (State.setClass_unused served hn k idle unused) (by simp)]
    rfl

end Sys2Proof.Machine
end

