-- ==== Sys2Proof/Proofs/CourierRequests.lean ====
section
/-! RESERVATION_RELEASE, TAG and UNTAG (R97, R175 to R177). -/

namespace Sys2Proof.Machine

open Sys2Proof

/-! ### A courier station's request -/

/-- A request that clears its station's tag list ends in the state and the reply that its owner answers with. -/
theorem State.takeRequest_cleared {α : Type} {s v : State} {h : ReqHead} {kind : Nat} {p : List Byte} {d : Codec α} {x : α}
    {owner : α → State → Answer} {st : Status} {b : ReplyBody} {k : Courier} (a : s.asks h kind p)
    (hp : d.parse p = some x) (hk : clearsTags kind = true) (courier : courierOf h.station.toNat = some k)
    (e : owner x ((s.took h).clearTagList k) = { state := v, status := st, body := b }) (hs : st ≠ .BAD_REQUEST) :
    s.takeRequest h kind p d owner = v.updKli fun k => { k with reply := some (replyTo h kind st b) } := by
  have cleared : (s.took h).clearForKind kind h.station.toNat = (s.took h).clearTagList k := by
    unfold State.clearForKind
    rw [courier]
    exact if_pos hk
  rw [State.takeRequest_eq s owner a hp, cleared, e, State.reply_eq _ _ _ _ _ hs]

theorem State.idleCheck_served {s : State} (sv : s.serves) : s.idleCheck = none := by
  simp [State.idleCheck, State.starting, sv.1, sv.2]

theorem State.asCourier_of {s : State} {st : Nat} {k : Courier} (f : Courier → State → Answer)
    (courier : courierOf st = some k) : s.asCourier st f = f k s := by
  unfold State.asCourier
  rw [courier]

theorem State.clearTagList_scu (s : State) (k : Courier) : (s.clearTagList k).scu = s.scu :=
  (congrArg State.scu (s.clearTagList_eq k) :)

theorem State.clearTagList_kli (s : State) (k : Courier) : (s.clearTagList k).kli = s.kli :=
  (congrArg State.kli (s.clearTagList_eq k) :)

/-! ### Writing several compartments -/

/-- Writing compartments one after another touches the compartment table alone. -/
theorem State.foldl_updComp_frame (f : Compartment → Compartment) (ns : List Nat) : ∀ s : State,
    ns.foldl (fun s n => s.updComp n f) s = { s with comps := (ns.foldl (fun s n => s.updComp n f) s).comps } := by
  induction ns with
  | nil => exact fun _ => rfl
  | cons n ns ih => exact fun s => ih (s.updComp n f)

/-- What each compartment reads after several, each once, have been written. -/
theorem State.comp_foldl_updComp_mem (f : Compartment → Compartment) {ns : List Nat} : ∀ (s : State), ns.Nodup →
    (∀ n ∈ ns, isComp n) → ∀ m, (ns.foldl (fun s n => s.updComp n f) s).comp m = if m ∈ ns then f (s.comp m) else s.comp m := by
  induction ns with
  | nil => exact fun _ _ _ _ => rfl
  | cons n ns ih =>
    intro s nodup inTable m
    obtain ⟨out, nodup⟩ := List.nodup_cons.mp nodup
    obtain ⟨lo, hi⟩ := inTable n List.mem_cons_self
    rw [List.foldl_cons, ih _ nodup (fun k hk => inTable k (List.mem_cons_of_mem _ hk)) m]
    by_cases e : m = n
    · subst e
      rw [if_neg out, if_pos List.mem_cons_self, State.comp_updComp_self s f lo hi]
    · rw [State.comp_updComp_ne s f (Ne.symm e)]
      simp only [List.mem_cons, e, false_or]

theorem State.onlyComps_updKli {s t : State} (frame : t = { s with comps := t.comps }) (f : Kli → Kli) :
    s.onlyComps (t.updKli f) :=
  (congrArg (fun u : State => { u with kli := f t.kli }) frame :)

/-! ### RESERVATION_RELEASE (R97) -/

/-- The compartment is RESERVED under the reference. -/
def Compartment.reservedUnder (c : Compartment) (ref : Nat) : Prop :=
  c.state = .RESERVED ∧ ∃ r, c.reservation = some r ∧ r.ref = ref

/-- The compartment is DEPOSITING with a prior state reserved under the reference. -/
def Compartment.priorUnder (c : Compartment) (ref : Nat) : Prop :=
  c.state = .DEPOSITING ∧ ∃ x r, c.parcel = some x ∧ x.prior = some (.reserved r) ∧ r.ref = ref

theorem State.mem_reservedUnder {s : State} {ref n : Nat} :
    n ∈ s.reservedUnder ref ↔ isComp n ∧ (s.comp n).reservedUnder ref := by
  simp only [State.reservedUnder, List.mem_filter, mem_compNos, Compartment.reservedUnder, Bool.and_eq_true,
    decide_eq_true_eq, Option.any_eq_true]

theorem Prior.under_iff {ref : Nat} (p : Prior) : p.under ref = true ↔ ∃ r, p = .reserved r ∧ r.ref = ref := by
  cases p <;> simp [Prior.under]

theorem State.mem_priorUnder {s : State} {ref n : Nat} :
    n ∈ s.priorUnder ref ↔ isComp n ∧ (s.comp n).priorUnder ref := by
  simp only [State.priorUnder, List.mem_filter, mem_compNos, Compartment.priorUnder, Bool.and_eq_true,
    decide_eq_true_eq, Option.any_eq_true, Prior.under_iff]
  refine and_congr_right fun _ => and_congr_right fun _ => ⟨?_, ?_⟩
  · rintro ⟨x, hx, q, hq, r, rfl, ref⟩
    exact ⟨x, r, hx, hq, ref⟩
  · rintro ⟨x, r, hx, hq, ref⟩
    exact ⟨x, hx, _, hq, r, rfl, ref⟩

/-- A compartment freed of its reservation. -/
def Compartment.freed (c : Compartment) : Compartment := { c with state := .FREE, reservation := none }

/-- A compartment whose deposit would be undone to FREE. -/
def Compartment.unreserved (c : Compartment) : Compartment :=
  { c with parcel := c.parcel.map fun x => { x with prior := some .free } }

/-- The compartments under a reference freed, and the prior states under it made free. -/
def State.released (s : State) (ref : Nat) : State :=
  (s.priorUnder ref).foldl (fun s n => s.updComp n Compartment.unreserved)
    ((s.reservedUnder ref).foldl (fun s n => s.updComp n Compartment.freed) s)

theorem State.release_served {s : State} {ref : Nat} (sv : s.serves)
    (some_ : ¬ (s.reservedUnder ref = [] ∧ s.priorUnder ref = [])) : s.release ref =
      ⟨s.released ref, .OK, .released (s.reservedUnder ref).length (s.priorUnder ref).length⟩ := by
  unfold State.release
  rw [State.idleCheck_served sv]
  exact if_neg some_

theorem State.released_frame (s : State) (ref : Nat) : s.released ref = { s with comps := (s.released ref).comps } := by
  unfold State.released
  rw [State.foldl_updComp_frame, State.foldl_updComp_frame Compartment.freed]

/-- Only the compartments under the reference are written. -/
theorem State.comp_released (s : State) (ref n : Nat) : (s.released ref).comp n =
    if n ∈ s.priorUnder ref then ((if n ∈ s.reservedUnder ref then (s.comp n).freed else s.comp n)).unreserved
    else if n ∈ s.reservedUnder ref then (s.comp n).freed else s.comp n := by
  unfold State.released
  have prior := State.comp_foldl_updComp_mem Compartment.unreserved (ns := s.priorUnder ref)
    ((s.reservedUnder ref).foldl (fun s n => s.updComp n Compartment.freed) s) (nodup_compNos.filter _)
    fun m hm => (State.mem_priorUnder.mp hm).1
  have under := State.comp_foldl_updComp_mem Compartment.freed (ns := s.reservedUnder ref) s (nodup_compNos.filter _)
    fun m hm => (State.mem_reservedUnder.mp hm).1
  rw [prior, under]

/-- Settles O35. -/
theorem releaseFreesTheReservations : Obligations.ReleaseFreesTheReservations := by
  intro h p ref k s v a hp courier sv hv under prior found
  have served : v.serves := by
    unfold State.serves
    rw [hv, State.clearTagList_scu]
    exact sv
  have isUnder : ∀ n, isComp n → under n → n ∈ v.reservedUnder ref := fun n hn u => State.mem_reservedUnder.mpr ⟨hn, u⟩
  have isPrior : ∀ n, isComp n → prior n → n ∈ v.priorUnder ref := fun n hn u => State.mem_priorUnder.mpr ⟨hn, u⟩
  have one_ : v.reservedUnder ref ≠ [] ∨ v.priorUnder ref ≠ [] := by
    obtain ⟨n, hn, u | u⟩ := found
    · exact .inl (List.ne_nil_of_mem (isUnder n hn u))
    · exact .inr (List.ne_nil_of_mem (isPrior n hn u))
  have owner := State.release_served (ref := ref) served (not_and_or.mpr one_)
  rw [hv] at owner
  have run : exec (.reservationRelease h p) s = .next (s.takeRequest h 18 p .nat16 fun r s => s.release r) := rfl
  rw [State.takeRequest_cleared a hp rfl courier owner (by simp), ← hv] at run
  have read := v.comp_released ref
  refine ⟨_, _, _, run, rfl, ?_, ?_, fun n hn u => (read n).trans ?_, fun n hn u => (read n).trans ?_,
    fun n u u' => (read n).trans ?_, ?_, ?_, ?_⟩
  · exact State.onlyComps_updKli (v.released_frame ref) _
  · have kept : (v.released ref).kli.queue = v.kli.queue := (congrArg (fun u : State => u.kli.queue) (v.released_frame ref) :)
    exact kept.trans (by rw [hv, State.clearTagList_kli]; rfl)
  · rw [if_neg fun m => ?_, if_pos (isUnder n hn u)]
    · rfl
    · have other := (State.mem_priorUnder.mp m).2.1
      rw [u.1] at other
      cases other
  · rw [if_pos (isPrior n hn u), if_neg fun m => ?_]
    · rfl
    · have other := (State.mem_reservedUnder.mp m).2.1
      rw [u.1] at other
      cases other
  · rw [if_neg fun m => u' (State.mem_priorUnder.mp m).2, if_neg fun m => u (State.mem_reservedUnder.mp m).2]
  · exact List.countP_eq_length_filter.symm
  · rw [List.countP_eq_length_filter]
    refine congrArg List.length (List.filter_congr fun n _ => congrArg _ ?_)
    cases (v.comp n).parcel with
    | none => rfl
    | some x =>
      simp only [Option.any_some]
      cases x.prior with
      | none => rfl
      | some q => cases q <;> rfl
  · rcases one_ with e | e
    · exact Nat.add_pos_left (List.length_pos_iff.mpr e) _
    · exact Nat.add_pos_right _ (List.length_pos_iff.mpr e)

/-! ### TAG (R175) -/

/-- The clipped range is the compartments between its ends, ascending. -/
theorem clippedRange_eq (first last : Nat) :
    clippedRange first last = compNos.filter fun n => decide (first ≤ n ∧ n ≤ last) := by
  refine List.Pairwise.eq_of_mem_iff (r := (· < ·)) List.pairwise_lt_range'
    (List.Pairwise.filter _ List.pairwise_lt_range') fun n => ?_
  simp only [clippedRange, List.mem_range'_1, List.mem_filter, mem_compNos, decide_eq_true_eq, isComp]
  omega

/-- TAG adds the compartment (R175). -/
def State.mayTag (s : State) (r : TagReq) (n : Nat) : Bool :=
  s.eligible n r.filter r.carrier && (s.comp n).tagOwner.isNone

/-- TAG counts the compartment as skipped (R175). -/
def State.skips (s : State) (r : TagReq) (n : Nat) : Bool := !s.mayTag r n && s.loaded n

theorem State.comp_addTag_ne (s : State) (k : Courier) (r : TagReq) {n m : Nat} (h : n ≠ m) :
    (s.addTag k r n).comp m = s.comp m :=
  State.comp_updComp_ne s (fun x => { x with tagOwner := some k }) h

theorem State.mayTag_addTag (s : State) (k : Courier) (r : TagReq) {n m : Nat} (h : n ≠ m) :
    (s.addTag k r n).mayTag r m = s.mayTag r m := by
  have read : (s.addTag k r n).comp m = s.comp m := s.comp_addTag_ne k r h
  have held : ∀ c, (s.addTag k r n).heldRec c = s.heldRec c := fun _ => rfl
  have op : (s.addTag k r n).hasOp m = s.hasOp m := rfl
  unfold State.mayTag State.eligible
  rw [read, op]
  simp only [held]

theorem State.skips_addTag (s : State) (k : Courier) (r : TagReq) {n m : Nat} (h : n ≠ m) :
    (s.addTag k r n).skips r m = s.skips r m := by
  have read : (s.addTag k r n).comp m = s.comp m := s.comp_addTag_ne k r h
  unfold State.skips State.loaded
  rw [State.mayTag_addTag s k r h, read]

theorem State.tags_addTag (s : State) (k : Courier) (r : TagReq) (n : Nat) :
    ((s.addTag k r n).side k).tags = (s.side k).tags ++ [{ comp := n, filter := r.filter, carrier := r.carrier }] := by
  cases k <;> rfl

theorem tagOver_cons (k : Courier) (r : TagReq) (n : Nat) (ns : List Nat) (a b : Nat) (s : State) :
    tagOver k r (n :: ns) a b s =
      if s.mayTag r n then
        if (s.side k).tags.length < 64 then tagOver k r ns (a + 1) b (s.addTag k r n)
        else ⟨s, .BUSY, .tagStopped a b n⟩
      else if s.loaded n then tagOver k r ns a (b + 1) s else tagOver k r ns a b s := rfl

/-- With room in the list, the walk of TAG adds the compartments it may and counts the others at rest. -/
theorem tagOver_room (k : Courier) (r : TagReq) : ∀ (ns : List Nat) (a b : Nat) (s : State), ns.Nodup →
    (s.side k).tags.length + (ns.filter (s.mayTag r)).length ≤ 64 →
    tagOver k r ns a b s = ⟨(ns.filter (s.mayTag r)).foldl (fun s n => s.addTag k r n) s, .OK,
      .tagged (a + (ns.filter (s.mayTag r)).length) (b + (ns.filter (s.skips r)).length)⟩
  | [], _, _, _, _, _ => rfl
  | n :: ns, a, b, s, nodup, room => by
    obtain ⟨out, nodup⟩ := List.nodup_cons.mp nodup
    have apart : ∀ m ∈ ns, n ≠ m := fun m hm e => out (e ▸ hm)
    rw [tagOver_cons]
    by_cases may : s.mayTag r n = true
    · have skip : s.skips r n = false := by simp [State.skips, may]
      have later : ns.filter ((s.addTag k r n).mayTag r) = ns.filter (s.mayTag r) :=
        List.filter_congr fun m hm => s.mayTag_addTag k r (apart m hm)
      have later' : ns.filter ((s.addTag k r n).skips r) = ns.filter (s.skips r) :=
        List.filter_congr fun m hm => s.skips_addTag k r (apart m hm)
      rw [List.filter_cons_of_pos may] at room ⊢
      rw [List.filter_cons_of_neg (by simp [skip]), if_pos may, if_pos (by simp only [List.length_cons] at room; omega),
        tagOver_room k r ns (a + 1) b _ nodup ?_, later, later', List.foldl_cons, List.length_cons, Nat.add_right_comm,
        Nat.add_assoc]
      rw [later, State.tags_addTag, List.length_append]
      simp only [List.length_cons, List.length_nil] at room ⊢
      omega
    · rw [List.filter_cons_of_neg may] at room ⊢
      rw [if_neg may]
      by_cases at_ : s.loaded n = true
      · have skip : s.skips r n = true := by simp [State.skips, may, at_]
        rw [if_pos at_, tagOver_room k r ns a (b + 1) s nodup room, List.filter_cons_of_pos skip, List.length_cons,
          Nat.add_right_comm b, Nat.add_assoc b]
      · have skip : ¬ s.skips r n = true := by simp [State.skips, at_]
        rw [if_neg at_, tagOver_room k r ns a b s nodup room, List.filter_cons_of_neg skip]

theorem State.updSide_updSide (s : State) (k : Courier) (f g : SweepSide → SweepSide) :
    (s.updSide k f).updSide k g = s.updSide k fun x => g (f x) := by cases k <;> rfl

theorem State.updSide_id (s : State) (k : Courier) : s.updSide k (fun x => x) = s := by cases k <;> rfl

theorem State.foldl_updComp_updSide (k : Courier) (f : SweepSide → SweepSide) (g : Compartment → Compartment)
    (ns : List Nat) : ∀ s : State, ns.foldl (fun s n => s.updComp n g) (s.updSide k f) =
      (ns.foldl (fun s n => s.updComp n g) s).updSide k f := by
  induction ns with
  | nil => exact fun _ => rfl
  | cons n ns ih => exact fun s => ih (s.updComp n g)

/-- Tag entries at the end of a tag list. -/
def SweepSide.listed (l : List TagEntry) (x : SweepSide) : SweepSide := { x with tags := x.tags ++ l }

/-- The entry that a TAG makes of a compartment (R175). -/
def TagReq.entry (r : TagReq) (n : Nat) : TagEntry := { comp := n, filter := r.filter, carrier := r.carrier }

/-- The tags added join the list in order, and their compartments take the station as tag owner. -/
theorem State.foldl_addTag (k : Courier) (r : TagReq) (ns : List Nat) : ∀ s : State,
    ns.foldl (fun s n => s.addTag k r n) s =
      (ns.foldl (fun s n => s.updComp n fun x => { x with tagOwner := some k }) s).updSide k
        (SweepSide.listed (ns.map r.entry)) := by
  induction ns with
  | nil =>
    intro s
    have nothing : SweepSide.listed [] = fun x => x := by
      funext x
      simp [SweepSide.listed]
    exact (nothing ▸ s.updSide_id k).symm
  | cons n ns ih =>
    intro s
    have together : (fun x => SweepSide.listed (ns.map r.entry) (SweepSide.listed [r.entry n] x)) =
        SweepSide.listed ((n :: ns).map r.entry) := by
      funext x
      simp [SweepSide.listed]
    have first : s.addTag k r n = (s.updComp n fun x => { x with tagOwner := some k }).updSide k
      (SweepSide.listed [r.entry n]) := rfl
    rw [List.foldl_cons, ih, List.foldl_cons, first, State.foldl_updComp_updSide, State.updSide_updSide, together]

theorem State.tagRange_served {s : State} {k : Courier} {r : TagReq} (sv : s.serves) (carrier : carrierOk r.carrier = true) :
    s.tagRange k r = tagOver k r (clippedRange r.first r.last) 0 0 s := by
  unfold State.tagRange
  rw [State.idleCheck_served sv]
  exact if_pos carrier

/-! ### UNTAG (R176) -/

/-- The entry of a compartment gone from a tag list, and the compartment untagged. -/
def State.untagged (s : State) (k : Courier) (n : Nat) : State :=
  (s.updComp n fun x => { x with tagOwner := none }).updSide k fun x => { x with tags := withoutComp x.tags n }

theorem State.untag_starting {s : State} {k : Courier} {n : Nat} (st : s.scu.phase ≠ none) :
    s.untag k n = s.refuse .STARTING := if_pos (s.starting_iff.mpr st)

theorem any_comp_iff {l : List TagEntry} {n : Nat} : (l.any fun e => e.comp == n) = true ↔ ∃ e ∈ l, e.comp = n := by
  simp

theorem State.untag_notFound {s : State} {k : Courier} {n : Nat} (running : s.scu.phase = none)
    (out : ∀ e ∈ (s.side k).tags, e.comp ≠ n) : s.untag k n = s.refuse .NOT_FOUND := by
  unfold State.untag
  rw [if_neg fun st => (s.starting_iff.mp st) running, if_neg fun found => ?_]
  obtain ⟨e, he, at_⟩ := any_comp_iff.mp found
  exact out e he at_

theorem State.untag_found {s : State} {k : Courier} {n : Nat} (running : s.scu.phase = none)
    (found : ∃ e ∈ (s.side k).tags, e.comp = n) :
    s.untag k n = ⟨s.untagged k n, .OK, .untagged ((s.untagged k n).side k).tags.length⟩ := by
  unfold State.untag
  rw [if_neg fun st => (s.starting_iff.mp st) running, if_pos (any_comp_iff.mpr found)]
  rfl

/-- Settles O36. -/
theorem tagAndUntagKeepTheList : Obligations.TagAndUntagKeepTheList := by
  refine ⟨fun h p r k s a hp courier sv lo hi => ?_, fun h p n k s a hp courier => ?_⟩
  · intro range add skip room
    have served : (s.took h).serves := sv
    have hrange : clippedRange r.first r.last = range := clippedRange_eq r.first r.last
    have nodup : range.Nodup := nodup_compNos.filter _
    have owner : (s.took h).asCourier h.station.toNat (fun c s => s.tagRange c r) =
        ⟨add.foldl (fun s n => s.addTag k r n) (s.took h), .OK, .tagged add.length skip.length⟩ := by
      rw [State.asCourier_of _ courier, State.tagRange_served served (decide_eq_true ⟨lo, hi⟩), hrange,
        tagOver_room k r range 0 0 (s.took h) nodup room, Nat.zero_add, Nat.zero_add]
      rfl
    rw [State.foldl_addTag] at owner
    have run : exec (.tag h p) s =
      .next (s.takeRequest h 20 p .tagReq fun t s => s.asCourier h.station.toNat fun c s => s.tagRange c t) := rfl
    rw [State.takeRequest_of a hp rfl owner (by simp)] at run
    have comps := State.foldl_updComp_frame (fun x => { x with tagOwner := some k }) add (s.took h)
    have read := State.comp_foldl_updComp_mem (fun x => { x with tagOwner := some k }) (s.took h) (nodup.filter _)
      (ns := add) fun n hn => mem_compNos.mp (List.mem_of_mem_filter (List.mem_of_mem_filter hn))
    rw [comps] at run
    refine ⟨_, run, rfl, ?_, ?_, ?_, fun n => ?_, rfl, ?_⟩
    · cases k <;> rfl
    · cases k <;> rfl
    · cases k <;> rfl
    · refine Eq.trans ?_ (read n)
      cases k <;> rfl
    · cases k <;> rfl
  · have run : exec (.untag h p) s =
      .next (s.takeRequest h 21 p .nat8 fun n s => s.asCourier h.station.toNat fun c s => s.untag c n) := rfl
    have at_ := State.asCourier_of (s := s.took h) (fun c s => s.untag c n) courier
    refine ⟨fun st => ?_, fun running out => ?_, fun running found => ?_⟩
    · rw [run, State.takeRequest_of a hp rfl (at_.trans (State.untag_starting (s := s.took h) st)) (by simp)]
      rfl
    · rw [run, State.takeRequest_of a hp rfl (at_.trans (State.untag_notFound (s := s.took h) running out)) (by simp)]
      rfl
    · rw [State.takeRequest_of a hp rfl (at_.trans (State.untag_found (s := s.took h) running found)) (by simp)] at run
      refine ⟨_, run, rfl, ?_, ?_, ?_, ?_, fun m hm => ?_, ?_, ?_⟩
      · cases k <;> rfl
      · cases k <;> rfl
      · cases k <;> rfl
      · have read : ((s.took h).updComp n fun x => { x with tagOwner := none }).comp n =
            if n = n ∧ 1 ≤ n ∧ n ≤ 240 then { s.comp n with tagOwner := none } else s.comp n :=
          State.comp_updComp (s.took h) n n _
        have none_ : (((s.took h).updComp n fun x => { x with tagOwner := none }).comp n).tagOwner = none := by
          rw [read]
          split
          · rfl
          · rename_i out
            have outside : ¬ isComp n := fun inside => out ⟨rfl, inside⟩
            rw [s.comp_outside outside]
            rfl
        exact Eq.trans (by cases k <;> rfl) none_
      · have read : ((s.took h).updComp n fun x => { x with tagOwner := none }).comp m = s.comp m :=
          State.comp_updComp_ne (s.took h) (fun x => { x with tagOwner := none }) (Ne.symm hm)
        exact Eq.trans (by cases k <;> rfl) read
      · cases k <;> rfl
      · cases k <;> rfl

end Sys2Proof.Machine
end

