-- ==== Sys2Proof/Proofs/Searches.lean ====
section
/-! The searches of the allocator: what they leave, what they take, and RESERVE (R92 to R95). -/

namespace Sys2Proof.Machine

open Sys2Proof

/-! ### What a failed resolution leaves (R34) -/

/-- Resolutions have been made and nothing else: compartments whose resolution ends MAP_FAULT have MAP_CHECK, and the
capture record and events of those may have changed. -/
def State.mapMarked (s t : State) : Prop :=
  t = { s with comps := t.comps, capture := t.capture, kli := t.kli } ∧
  ∀ m, t.comp m = s.comp m ∨ ∃ a, s.resolution m = .mapFault a ∧
    t.comp m = { s.comp m with causes := (s.comp m).causes.add .MAP_CHECK }

/-- A resolution reads the section field of the compartment, the sections, the hatch map, the links and the straps. -/
theorem State.resolution_congr {s t : State} {n : Nat} (field : (t.comp n).sect = (s.comp n).sect)
    (sects : t.sects = s.sects) (map : t.hatchMap = s.hatchMap) (links : t.links = s.links) (scu : t.scu = s.scu) :
    t.resolution n = s.resolution n := by
  have sect : ∀ i, t.sect i = s.sect i := fun i => by simp only [State.sect, sects]
  have entry : t.mapEntry n = s.mapEntry n := by simp only [State.mapEntry, map]
  have fitted : ∀ l, t.linkFitted l = s.linkFitted l := fun l => by
    unfold State.linkFitted State.numLinks
    rw [scu]
  have slot : ∀ l k, t.slot l k = s.slot l k := fun l k => by simp only [State.slot, State.link, links]
  unfold State.resolution State.located State.reach
  simp only [field, sect, entry, fitted, slot]

theorem State.mapMarked.resolution {s t : State} (h : s.mapMarked t) (n : Nat) : t.resolution n = s.resolution n := by
  obtain ⟨frame, comps⟩ := h
  have field : (t.comp n).sect = (s.comp n).sect := by
    rcases comps n with e | ⟨a, -, e⟩ <;> rw [e]
  rw [frame]
  exact State.resolution_congr (frame ▸ field) rfl rfl rfl rfl

theorem State.mapMarked.refl (s : State) : s.mapMarked s := ⟨rfl, fun _ => .inl rfl⟩

theorem State.mapMarked.trans {s t u : State} (h : s.mapMarked t) (h' : t.mapMarked u) : s.mapMarked u := by
  refine ⟨?_, fun m => ?_⟩
  · have e := h'.1
    rw [h.1] at e
    exact e
  · rcases h'.2 m with e | ⟨a, fault, e⟩
    · rw [e]
      exact h.2 m
    · refine .inr ⟨a, h.resolution m ▸ fault, ?_⟩
      rcases h.2 m with e' | ⟨b, -, e'⟩
      · rw [e, e']
      · rw [e, e']
        rfl

/-- A compartment whose resolution does not end MAP_FAULT is as it was. -/
theorem State.mapMarked.comp {s t : State} (h : s.mapMarked t) {m : Nat} (ok : ∀ a, s.resolution m ≠ .mapFault a) :
    t.comp m = s.comp m := (h.2 m).resolve_right fun ⟨a, fault, _⟩ => ok a fault

theorem State.reportFault_frame (s : State) (k : FaultKind) (l j : Nat) (ch n : Option Nat) :
    s.reportFault k l j ch n = { s with
      capture := (s.reportFault k l j ch n).capture, kli := (s.reportFault k l j ch n).kli } := by
  unfold State.reportFault
  split <;> rfl

theorem State.comp_reportFault (s : State) (k : FaultKind) (l j : Nat) (ch n : Option Nat) (m : Nat) :
    (s.reportFault k l j ch n).comp m = s.comp m := by
  rw [s.reportFault_frame k l j ch n]
  rfl

theorem State.afterResolve_mapMarked (s : State) (n : Nat) : s.mapMarked (s.afterResolve n) := by
  unfold State.afterResolve
  split
  · rename_i a fault
    refine ⟨?_, fun m => ?_⟩
    · unfold State.mapFaultEffect
      rw [State.reportFault_frame]
      rfl
    · unfold State.mapFaultEffect
      rw [State.comp_reportFault]
      by_cases e : n = m
      · subst e
        refine (Decidable.em (isComp n)).elim (fun inside => .inr ⟨a, fault, ?_⟩) fun out => .inl ?_
        · exact State.comp_updComp_self s _ inside.1 inside.2
        · rw [State.comp_outside _ out, State.comp_outside _ out]
      · exact .inl (State.comp_updComp_ne s _ e)
  · exact .refl s

theorem State.afterResolve_of_ok {s : State} {n : Nat} (ok : ∀ a, s.resolution n ≠ .mapFault a) : s.afterResolve n = s := by
  unfold State.afterResolve
  split
  · rename_i a fault
    exact absurd fault (ok a)
  · rfl

/-! ### The search of one class (R92, R93) -/

/-- The compartment may be taken: a candidate without an operation, that resolves (R92, R11). -/
def State.fits (s : State) (st : CompState) (k : SizeClass) (m : Nat) : Prop :=
  s.candidate m st k = true ∧ s.hasOp m = false ∧ ∃ a u, s.resolution m = .ok a u

theorem State.candidate_congr {s t : State} {m : Nat} (st : CompState) (k : SizeClass) (comp : t.comp m = s.comp m)
    (sects : t.sects = s.sects) : t.candidate m st k = s.candidate m st k := by
  have sect : ∀ i, t.sect i = s.sect i := fun i => by simp only [State.sect, sects]
  unfold State.candidate State.heldRec State.sectHeld State.enabledRec
  simp only [comp, sect]

theorem State.mapMarked.fits {s t : State} (h : s.mapMarked t) (st : CompState) (k : SizeClass) (m : Nat) :
    t.fits st k m ↔ s.fits st k m := by
  unfold State.fits
  rw [h.resolution m]
  by_cases ok : ∃ a u, s.resolution m = .ok a u
  · have same : t.comp m = s.comp m := h.comp fun a fault => by
      obtain ⟨b, u, e⟩ := ok
      rw [fault] at e
      cases e
    have op : t.hasOp m = s.hasOp m := by rw [h.1]; rfl
    rw [State.candidate_congr st k same (by rw [h.1]), op]
  · exact ⟨fun f => absurd f.2.2 ok, fun f => absurd f.2.2 ok⟩

/-- A search of one class over `ns` has led from `s` to `t` and chosen `o`: it has passed over compartments that may not be
taken, marked those whose resolution fails, and taken the first that may be, as long as the reserve test holds. -/
def State.searched (s : State) (st : CompState) (k : SizeClass) (reserve : Bool) (ns : List Nat) (t : State)
    (o : Option Chosen) : Prop :=
  s.mapMarked t ∧
  (∀ c, o = some c → s.fits st k c.comp ∧ s.resolution c.comp = .ok c.addr c.units ∧
    (∃ pre post, ns = pre ++ c.comp :: post ∧ ∀ m ∈ pre, ¬ s.fits st k m) ∧
    (reserve = true → t.reserveTest k = true)) ∧
  (o = none → (∀ m ∈ ns, ¬ s.fits st k m) ∨ (reserve = true ∧ t.reserveTest k = false))

/-- A compartment that may not be taken is passed over. -/
theorem State.searched.passOver {s u t : State} {st : CompState} {k : SizeClass} {reserve : Bool} {n : Nat}
    {ns : List Nat} {o : Option Chosen} (marked : s.mapMarked u) (skip : ¬ s.fits st k n)
    (h : u.searched st k reserve ns t o) : s.searched st k reserve (n :: ns) t o := by
  obtain ⟨marked', taken, none_⟩ := h
  refine ⟨marked.trans marked', fun c hc => ?_, fun hn => ?_⟩
  · obtain ⟨fit, res, ⟨pre, post, place, passed⟩, test⟩ := taken c hc
    refine ⟨(marked.fits st k _).mp fit, marked.resolution _ ▸ res, ⟨n :: pre, post, by rw [place]; rfl, fun m hm => ?_⟩, test⟩
    rcases List.mem_cons.mp hm with rfl | hm
    · exact skip
    · exact fun f => passed m hm ((marked.fits st k m).mpr f)
  · refine (none_ hn).imp_left fun all m hm => ?_
    rcases List.mem_cons.mp hm with rfl | hm
    · exact skip
    · exact fun f => all m hm ((marked.fits st k m).mpr f)

theorem searchIn_spec {st : CompState} {k : SizeClass} {reserve : Bool} : ∀ (ns : List Nat) {s t : State} {o : Option Chosen},
    searchIn st k reserve ns s = (t, o) → s.searched st k reserve ns t o
  | [], s, t, o, e => by
    cases e
    exact ⟨.refl s, fun c none_ => (nomatch none_), fun _ => .inl fun m hm => (nomatch hm)⟩
  | n :: ns, s, t, o, e => by
    unfold searchIn at e
    split at e
    · rename_i stop
      cases e
      obtain ⟨r, test⟩ := (Bool.and_eq_true _ _).mp stop
      exact ⟨.refl s, fun c none_ => (nomatch none_), fun _ => .inr ⟨r, by simpa using test⟩⟩
    · rename_i go
      split at e
      · rename_i may
        obtain ⟨cand, idle⟩ := (Bool.and_eq_true _ _).mp may
        split at e
        · rename_i a u ok
          cases e
          refine ⟨.refl s, fun c hc => ?_, fun none_ => (nomatch none_)⟩
          cases hc
          refine ⟨⟨cand, by simpa using idle, a, u, ok⟩, ok, ⟨[], ns, rfl, fun m hm => (nomatch hm)⟩, fun r => ?_⟩
          simpa [r] using go
        · rename_i fails
          exact .passOver (s.afterResolve_mapMarked n) (fun ⟨_, _, a, u, ok⟩ => fails a u ok) (searchIn_spec ns e)
      · rename_i may
        exact .passOver (.refl s) (fun ⟨cand, idle, _⟩ => may (by simp [cand, idle])) (searchIn_spec ns e)

/-- With no entry whose check byte mismatches a search changes nothing. -/
theorem searchIn_unmarked {st : CompState} {k : SizeClass} {reserve : Bool} {s : State}
    (ok : ∀ m b, s.resolution m ≠ .mapFault b) : ∀ ns, (searchIn st k reserve ns s).1 = s
  | [] => rfl
  | n :: ns => by
    unfold searchIn
    split
    · rfl
    · split
      · split
        · rfl
        · rw [State.afterResolve_of_ok (ok n)]
          exact searchIn_unmarked ok ns
      · exact searchIn_unmarked ok ns

/-! ### Wear order and the FREE count (R9, R93) -/

/-- The first compartment is less worn, or as worn and not of a higher number (R93). -/
abbrev State.noMoreWorn (s : State) (a b : Nat) : Prop :=
  (s.comp a).hatchCount < (s.comp b).hatchCount ∨ ((s.comp a).hatchCount = (s.comp b).hatchCount ∧ a ≤ b)

/-- The first compartment is less worn, or as worn and of a lower number. -/
def State.sooner (s : State) (a b : Nat) : Prop :=
  (s.comp a).hatchCount < (s.comp b).hatchCount ∨ ((s.comp a).hatchCount = (s.comp b).hatchCount ∧ a < b)

theorem State.pairwise_wearOrder (s : State) (k : SizeClass) : (s.wearOrder k).Pairwise s.noMoreWorn := by
  have total : Std.Total s.noMoreWorn := ⟨fun a b => by unfold State.noMoreWorn; omega⟩
  have trans : IsTrans Nat s.noMoreWorn := ⟨fun a b c => by unfold State.noMoreWorn; omega⟩
  exact List.pairwise_insertionSort s.noMoreWorn _

theorem State.nodup_wearOrder (s : State) (k : SizeClass) : (s.wearOrder k).Nodup :=
  (List.perm_insertionSort _ _).nodup_iff.mpr (nodup_compNos.filter _)

theorem State.sooner_wearOrder (s : State) (k : SizeClass) : (s.wearOrder k).Pairwise s.sooner := by
  refine ((s.pairwise_wearOrder k).and (s.nodup_wearOrder k)).imp fun {a b} h => ?_
  obtain ⟨worn, apart⟩ := h
  unfold State.sooner
  unfold State.noMoreWorn at worn
  omega

theorem State.mem_wearOrder {s : State} {k : SizeClass} {n : Nat} :
    n ∈ s.wearOrder k ↔ isComp n ∧ (s.comp n).state = .FREE ∧ (s.comp n).cls = k := by
  simp [State.wearOrder, List.mem_insertionSort, mem_compNos]

theorem State.candidate_iff {s : State} {n : Nat} {st : CompState} {k : SizeClass} : s.candidate n st k = true ↔
    (s.comp n).state = st ∧ (s.comp n).cls = k ∧ s.held n = false ∧ (s.comp n).causes.isEmpty = true ∧
      s.enabledRec (s.comp n) = true := by
  simp [State.candidate, State.held, and_assoc]

theorem State.freeCount_eq (s : State) (k : SizeClass) :
    s.freeCount k = compNos.countP fun n => decide ((s.comp n).cls = k) && s.freeCounted (s.comp n) := by
  rw [State.freeCount, State.comps_toList, ← List.countP_eq_length_filter, List.countP_map]
  rfl

/-- The FREE count of a class counts its candidates in FREE. -/
theorem State.freeCount_candidates (s : State) (k : SizeClass) :
    s.freeCount k = compNos.countP fun n => s.candidate n .FREE k := by
  rw [State.freeCount_eq]
  refine List.countP_congr fun n _ => ?_
  rw [State.candidate_iff]
  simp [State.freeCounted, State.held]
  tauto

theorem Causes.isEmpty_add (c : Causes) (k : Cause) : (c.add k).isEmpty = false := by
  cases k <;> simp [Causes.add, Causes.isEmpty]

theorem State.mapMarked.candidate {s t : State} (h : s.mapMarked t) {m : Nat} {st : CompState} {k : SizeClass}
    (c : t.candidate m st k = true) : s.candidate m st k = true := by
  rcases h.2 m with e | ⟨a, -, e⟩
  · rwa [State.candidate_congr st k e (by rw [h.1])] at c
  · have clean := (State.candidate_iff.mp c).2.2.2.1
    rw [e, Causes.isEmpty_add] at clean
    cases clean

theorem State.mapMarked.freeCount_le {s t : State} (h : s.mapMarked t) (k : SizeClass) : t.freeCount k ≤ s.freeCount k := by
  rw [State.freeCount_candidates, State.freeCount_candidates]
  exact List.countP_mono_left fun m _ c => h.candidate c

/-- Settles O32. -/
theorem searchTakesTheLeastWorn : Obligations.SearchTakesTheLeastWorn := by
  refine ⟨fun k reserve s t c e => ?_, fun k s few => ?_⟩
  · obtain ⟨marked, taken, -⟩ := searchIn_spec _ e
    obtain ⟨⟨cand, idle, -⟩, res, ⟨pre, post, place, passed⟩, test⟩ := taken c rfl
    have inOrder : c.comp ∈ s.wearOrder k := by
      rw [place]
      exact List.mem_append_right _ List.mem_cons_self
    obtain ⟨inTable, free, cls⟩ := State.mem_wearOrder.mp inOrder
    obtain ⟨-, -, held, clean, on⟩ := State.candidate_iff.mp cand
    have order := s.sooner_wearOrder k
    rw [place] at order
    have first := (List.pairwise_cons.mp (List.pairwise_append.mp order).2.1).1
    refine ⟨inTable, free, cls, held, clean, on, idle, res, fun m hm apart cand' idle' ok => ?_, fun r => ?_,
      marked.1, marked.2⟩
    · have listed : m ∈ s.wearOrder k :=
        State.mem_wearOrder.mpr ⟨hm, (State.candidate_iff.mp cand').1, (State.candidate_iff.mp cand').2.1⟩
      rw [place, List.mem_append, List.mem_cons] at listed
      rcases listed with before | same | after
      · exact absurd ⟨cand', idle', ok⟩ (passed m before)
      · exact absurd same apart
      · exact first m after
    · have enough := of_decide_eq_true (test r)
      exact ⟨enough, marked.freeCount_le k⟩
  · have stop : s.reserveTest k = false := decide_eq_false (Nat.not_lt.mpr few)
    cases s.wearOrder k with
    | nil => rfl
    | cons n ns =>
      unfold searchIn
      rw [stop]
      rfl

/-! ### RESERVE (R94, R95) -/

/-- RESERVE may take the compartment: a FREE candidate of the class that resolves (R92, R95). -/
def State.reserves (s : State) (k : SizeClass) (m : Nat) : Bool :=
  s.candidate m .FREE k && (match s.resolution m with
    | .ok _ _ => true
    | _ => false)

theorem State.reserves_iff {s : State} {k : SizeClass} {m : Nat} :
    s.reserves k m = true ↔ s.candidate m .FREE k = true ∧ ∃ a u, s.resolution m = .ok a u := by
  unfold State.reserves
  cases s.resolution m <;> simp

theorem State.comp_reserveComp_ne (s : State) (r : Reservation) {n m : Nat} (h : n ≠ m) :
    (s.reserveComp n r).comp m = s.comp m :=
  State.comp_updComp_ne s (fun c => { c with state := .RESERVED, reservation := some r }) h

theorem State.comp_reserveComp_self (s : State) (r : Reservation) {n : Nat} (hn : isComp n) :
    (s.reserveComp n r).comp n = { s.comp n with state := .RESERVED, reservation := some r } :=
  State.comp_updComp_self s _ hn.1 hn.2

theorem State.resolution_reserveComp (s : State) (r : Reservation) {n : Nat} (hn : isComp n) (m : Nat) :
    (s.reserveComp n r).resolution m = s.resolution m := by
  refine State.resolution_congr ?_ rfl rfl rfl rfl
  by_cases e : n = m
  · subst e
    rw [State.comp_reserveComp_self s r hn]
  · rw [State.comp_reserveComp_ne s r e]

theorem State.reserves_reserveComp (s : State) (r : Reservation) (k : SizeClass) {n m : Nat} (hn : isComp n) (h : n ≠ m) :
    (s.reserveComp n r).reserves k m = s.reserves k m := by
  unfold State.reserves
  rw [State.resolution_reserveComp s r hn, State.candidate_congr _ _ (State.comp_reserveComp_ne s r h) rfl]

/-- A list in which one member stops being counted counts one less. -/
theorem countP_one_less {l : List Nat} {p q : Nat → Bool} {n : Nat} (nodup : l.Nodup) (hn : n ∈ l) (was : p n = true)
    (gone : q n = false) (same : ∀ m, n ≠ m → q m = p m) : l.countP q + 1 = l.countP p := by
  have others : (l.erase n).countP q = (l.erase n).countP p := List.countP_congr fun m hm => by
    rw [same m fun e => nodup.not_mem_erase (e ▸ hm)]
  have perm := List.perm_cons_erase hn
  rw [perm.countP_eq, perm.countP_eq (p := p), List.countP_cons_of_pos was, List.countP_cons_of_neg (by simp [gone]), others]

/-- Taking a candidate lowers the FREE count of its class by one. -/
theorem State.freeCount_reserveComp (s : State) (r : Reservation) {k : SizeClass} {n : Nat} (hn : isComp n)
    (cand : s.candidate n .FREE k = true) : (s.reserveComp n r).freeCount k + 1 = s.freeCount k := by
  rw [State.freeCount_candidates, State.freeCount_candidates]
  refine countP_one_less nodup_compNos (mem_compNos.mpr hn) cand (Bool.eq_false_iff.mpr fun c => ?_) fun m h =>
    State.candidate_congr _ _ (State.comp_reserveComp_ne s r h) rfl
  have state := (State.candidate_iff.mp c).1
  rw [State.comp_reserveComp_self s r hn] at state
  cases state

/-- The compartments taken are the first of those that may be, and the taking stops only where it must (R95). -/
theorem reserveIn_spec {k : SizeClass} {r : Reservation} : ∀ (ns : List Nat) (want : Nat) {s t : State} {l : List Nat},
    ns.Nodup → (∀ n ∈ ns, isComp n) → (∀ m b, s.resolution m ≠ .mapFault b) → reserveIn k r want ns s = (t, l) →
    t = l.foldl (fun s n => s.reserveComp n r) s ∧ l <+: ns.filter (s.reserves k) ∧ l.length ≤ want ∧
      (l = [] ∨ s.walkUp k + l.length ≤ s.freeCount k) ∧
      (l.length = want ∨ s.freeCount k ≤ s.walkUp k + l.length ∨ l = ns.filter (s.reserves k))
  | _, 0, s, t, l, _, _, _, e => by
    simp only [reserveIn, Prod.mk.injEq] at e
    obtain ⟨rfl, rfl⟩ := e
    exact ⟨rfl, List.nil_prefix, Nat.le_refl 0, .inl rfl, .inl rfl⟩
  | [], want + 1, s, t, l, _, _, _, e => by
    cases e
    exact ⟨rfl, List.nil_prefix, Nat.zero_le _, .inl rfl, .inr (.inr rfl)⟩
  | n :: ns, want + 1, s, t, l, nodup, inTable, ok, e => by
    obtain ⟨out, nodup⟩ := List.nodup_cons.mp nodup
    have hn := inTable n List.mem_cons_self
    have inTable : ∀ n ∈ ns, isComp n := fun m hm => inTable m (List.mem_cons_of_mem n hm)
    unfold reserveIn at e
    by_cases test : s.reserveTest k = true
    · rw [if_pos test] at e
      have enough : s.walkUp k < s.freeCount k := of_decide_eq_true test
      by_cases may : s.reserves k n = true
      · obtain ⟨cand, a, u, res⟩ := State.reserves_iff.mp may
        rw [if_pos cand, res] at e
        cases found : reserveIn k r want ns (s.reserveComp n r) with
        | mk t' l' =>
          rw [found] at e
          dsimp only at e
          cases e
          obtain ⟨ht, pre, few, room, stop⟩ := reserveIn_spec ns want nodup inTable
            (fun m b => State.resolution_reserveComp s r hn m ▸ ok m b) found
          have later : ns.filter ((s.reserveComp n r).reserves k) = ns.filter (s.reserves k) :=
            List.filter_congr fun m hm => s.reserves_reserveComp r k hn fun e => out (e ▸ hm)
          have count := s.freeCount_reserveComp r hn cand
          have reserve : (s.reserveComp n r).walkUp k = s.walkUp k := rfl
          rw [later] at pre stop
          rw [reserve] at room stop
          rw [List.filter_cons_of_pos may, List.foldl_cons, List.length_cons]
          refine ⟨ht, List.cons_prefix_cons.mpr ⟨rfl, pre⟩, by omega, .inr ?_, ?_⟩
          · rcases room with rfl | room
            · exact enough
            · omega
          · rcases stop with full | few | all
            · exact .inl (by omega)
            · exact .inr (.inl (by omega))
            · exact .inr (.inr (congrArg _ all))
      · have skip : reserveIn k r (want + 1) ns s = (t, l) := by
          by_cases cand : s.candidate n .FREE k = true
          · rw [if_pos cand, State.afterResolve_of_ok (ok n)] at e
            split at e
            · rename_i a u res
              exact absurd (State.reserves_iff.mpr ⟨cand, a, u, res⟩) may
            · exact e
          · rwa [if_neg cand] at e
        rw [List.filter_cons_of_neg may]
        exact reserveIn_spec ns (want + 1) nodup inTable ok skip
    · rw [if_neg test] at e
      cases e
      exact ⟨rfl, List.nil_prefix, Nat.zero_le _, .inl rfl, .inr (.inl (Nat.not_lt.mp fun more => test (decide_eq_true more)))⟩

theorem State.reserve_found {s t : State} {r : ReserveReq} {l : List Nat} (sv : s.serves) (ok : r.ok = true)
    (found : reserveIn r.cls { carrier := r.carrier, ref := r.ref, expiry := addMin s.now r.duration } r.count
      (s.wearOrder r.cls) s = (t, l)) (some_ : l ≠ []) :
    s.reserve r = ⟨t, .OK, .reserved l r.cls (addMin s.now r.duration)⟩ := by
  unfold State.reserve
  rw [State.idleCheck_served sv]
  dsimp only
  rw [if_neg (by simp [ok]), found]
  exact if_neg some_

/-- Settles O34. -/
theorem reserveTakesCompartments : Obligations.ReserveTakesCompartments := by
  intro h p r k n u ad s v a hp courier sv c1 c2 n1 n2 d1 d2 hv hn cand res enough ok e fit sooner
  have scu : v.scu = s.scu := by
    rw [hv, State.clearTagList_scu]
    rfl
  have served : v.serves := by
    unfold State.serves
    rw [scu]
    exact sv
  have now : addMin v.now r.duration = e := by
    unfold State.now
    rw [scu]
    rfl
  cases found : reserveIn r.cls { carrier := r.carrier, ref := r.ref, expiry := e } r.count (v.wearOrder r.cls) v with
  | mk w l =>
    obtain ⟨hw, pre, few, room, stop⟩ := reserveIn_spec (v.wearOrder r.cls) r.count (v.nodup_wearOrder r.cls)
      (fun m hm => isComp_of_mem_wearOrder hm) ok found
    have fits : ∀ m, m ∈ (v.wearOrder r.cls).filter (v.reserves r.cls) ↔ fit m := fun m => by
      rw [List.mem_filter, State.reserves_iff, State.mem_wearOrder]
      refine ⟨fun ⟨⟨hm, _⟩, may⟩ => ⟨hm, may⟩, fun ⟨hm, may⟩ => ⟨⟨hm, ?_⟩, may⟩⟩
      obtain ⟨state, cls, -⟩ := State.candidate_iff.mp may.1
      exact ⟨state, cls⟩
    have some_ : l ≠ [] := by
      rintro rfl
      rcases stop with full | none_ | all
      · exact absurd full.symm (Nat.ne_of_gt n1)
      · exact absurd enough (Nat.not_lt.mpr none_)
      · have := (fits n).mpr ⟨hn, cand, ad, u, res⟩
        rw [← all] at this
        cases this
    have room := room.resolve_left some_
    have inTable : ∀ m ∈ l, isComp m := fun m hm => ((fits m).mp (pre.subset hm)).1
    have order := (v.sooner_wearOrder r.cls).filter (v.reserves r.cls)
    obtain ⟨rest, whole⟩ := pre
    have ranges : r.ok = true := by
      simp [ReserveReq.ok, carrierOk, c1, c2, n1, n2, d1, d2]
    have owner := State.reserve_found served ranges (now ▸ found) some_
    rw [now, hv] at owner
    have run : exec (.reserve h p) s = .next (s.takeRequest h 17 p .reserveReq fun r s => s.reserve r) := rfl
    rw [State.takeRequest_cleared a hp rfl courier owner (by simp)] at run
    have frame : w = { v with comps := w.comps } := by
      rw [hw]
      exact State.foldl_updComp_frame _ l v
    rw [← whole] at fits order
    obtain ⟨inner, -, across⟩ := List.pairwise_append.mp order
    refine ⟨l, _, run, rfl, some_, few, room, inner, fun m hm => (fits m).mp (List.mem_append_left _ hm),
      fun m hm q hq out => across m hm q ?_, ?_, State.onlyComps_updKli frame _, ?_, fun m => ?_⟩
    · exact (List.mem_append.mp ((fits q).mpr hq)).resolve_left out
    · refine stop.imp_right (.imp (fun most => Nat.le_antisymm most room) fun all q hq => ?_)
      rw [← whole] at all
      exact all ▸ (fits q).mpr hq
    · have kept : w.kli.queue = v.kli.queue := (congrArg (fun u : State => u.kli.queue) frame :)
      exact kept.trans (by rw [hv, State.clearTagList_kli]; rfl)
    · have nodup : l.Nodup := ((v.nodup_wearOrder r.cls).filter (v.reserves r.cls)).sublist
        (whole ▸ List.sublist_append_left l rest)
      have read := State.comp_foldl_updComp_mem
        (fun c => { c with state := .RESERVED, reservation := some { carrier := r.carrier, ref := r.ref, expiry := e } })
        v nodup inTable m
      exact (congrArg (fun u : State => u.comp m) hw).trans read

end Sys2Proof.Machine
end

