-- ==== Sys2Proof/Proofs/Steps.lean ====
section
/-! The searches of DEPOSIT and RETURN_DROP over several classes (R99, R169). -/

namespace Sys2Proof.Machine

open Sys2Proof

/-! ### The steps of a search in order -/

/-- The step of a search takes the first compartment of its list that may be taken. -/
def State.takes (s : State) (x : Step) (c : Chosen) : Prop :=
  s.fits x.st x.cls c.comp ∧ s.resolution c.comp = .ok c.addr c.units ∧
    ∃ pre post, x.comps = pre ++ c.comp :: post ∧ ∀ m ∈ pre, ¬ s.fits x.st x.cls m

/-- The step of a search takes nothing: none of its list may be taken, or the reserve test has failed on the way. -/
def State.takesNone (s : State) (x : Step) : Prop :=
  (∀ m ∈ x.comps, ¬ s.fits x.st x.cls m) ∨ (x.reserve = true ∧ ∃ u, s.mapMarked u ∧ u.reserveTest x.cls = false)

theorem State.mapMarked.takes {s u : State} (h : s.mapMarked u) {x : Step} {c : Chosen} (t : u.takes x c) : s.takes x c := by
  obtain ⟨fit, res, pre, post, place, passed⟩ := t
  exact ⟨(h.fits _ _ _).mp fit, h.resolution _ ▸ res, pre, post, place, fun m hm f => passed m hm ((h.fits _ _ m).mpr f)⟩

theorem State.mapMarked.takesNone {s u : State} (h : s.mapMarked u) {x : Step} (t : u.takesNone x) : s.takesNone x :=
  t.imp (fun none_ m hm f => none_ m hm ((h.fits _ _ m).mpr f))
    fun ⟨r, v, marked, test⟩ => ⟨r, v, h.trans marked, test⟩

/-- A search takes by the first of its steps that takes any. -/
theorem searchSteps_spec : ∀ (xs : List Step) {s t : State} {o : Option Chosen}, searchSteps xs s = (t, o) →
    s.mapMarked t ∧
    (∀ c, o = some c → ∃ pre x post, xs = pre ++ x :: post ∧ s.takes x c ∧ (x.reserve = true → t.reserveTest x.cls = true) ∧
      ∀ y ∈ pre, s.takesNone y) ∧
    (o = none → ∀ y ∈ xs, s.takesNone y)
  | [], s, t, o, e => by
    cases e
    exact ⟨.refl s, fun c none_ => (nomatch none_), fun _ y hy => (nomatch hy)⟩
  | x :: xs, s, t, o, e => by
    unfold searchSteps at e
    cases found : searchIn x.st x.cls x.reserve x.comps s with
    | mk u o' =>
      obtain ⟨marked, taken, none_⟩ := searchIn_spec x.comps found
      rw [found] at e
      cases o' with
      | some c =>
        cases e
        refine ⟨marked, fun c hc => ?_, fun h => (nomatch h)⟩
        obtain ⟨fit, res, place, test⟩ := taken c hc
        exact ⟨[], x, xs, rfl, ⟨fit, res, place⟩, test, fun y hy => (nomatch hy)⟩
      | none =>
        have nothing : s.takesNone x := (none_ rfl).imp_right fun ⟨r, test⟩ => ⟨r, u, marked, test⟩
        obtain ⟨marked', taken', none'⟩ := searchSteps_spec xs e
        refine ⟨marked.trans marked', fun c hc => ?_, fun hn y hy => ?_⟩
        · obtain ⟨pre, y, post, place, takes, test, before⟩ := taken' c hc
          refine ⟨x :: pre, y, post, by rw [place]; rfl, marked.takes takes, test, fun z hz => ?_⟩
          rcases List.mem_cons.mp hz with rfl | hz
          · exact nothing
          · exact marked.takesNone (before z hz)
        · rcases List.mem_cons.mp hy with rfl | hy
          · exact nothing
          · exact marked.takesNone (none' hn y hy)

theorem searchSteps_unmarked {s : State} (ok : ∀ m b, s.resolution m ≠ .mapFault b) : ∀ xs, (searchSteps xs s).1 = s
  | [] => rfl
  | x :: xs => by
    have same := searchIn_unmarked (st := x.st) (k := x.cls) (reserve := x.reserve) ok x.comps
    unfold searchSteps
    cases found : searchIn x.st x.cls x.reserve x.comps s with
    | mk u o =>
      rw [found] at same
      obtain rfl : u = s := same
      cases o with
      | some c => rfl
      | none => exact searchSteps_unmarked ok xs

theorem State.mapMarked.reserveTest {s t : State} (h : s.mapMarked t) (ok : ∀ m b, s.resolution m ≠ .mapFault b)
    (k : SizeClass) : t.reserveTest k = s.reserveTest k := by
  have count : t.freeCount k = s.freeCount k := by
    rw [State.freeCount_candidates, State.freeCount_candidates]
    exact List.countP_congr fun m _ => by rw [State.candidate_congr _ _ (h.comp (ok m)) (by rw [h.1])]
  have reserve : t.walkUp k = s.walkUp k := by rw [h.1]; rfl
  unfold State.reserveTest
  rw [count, reserve]

/-! ### The classes of a request -/

theorem SizeClass.mem_larger {k c : SizeClass} : c ∈ k.larger ↔ k.rank < c.rank := by
  cases k <;> cases c <;> decide

theorem SizeClass.rank_inj {k c : SizeClass} (h : k.rank = c.rank) : k = c := by
  revert h
  cases k <;> cases c <;> decide

theorem mem_classesFrom {k c : SizeClass} {up : Bool} :
    c ∈ classesFrom k up ↔ c = k ∨ (up = true ∧ k.rank < c.rank) := by
  cases up <;> simp [classesFrom, SizeClass.mem_larger]

/-- The classes are tried in ascending order. -/
theorem pairwise_classesFrom (k : SizeClass) (up : Bool) :
    (classesFrom k up).Pairwise fun a b => a.rank < b.rank := by
  cases k <;> cases up <;> decide

/-- A place in the steps made of a list is a place in that list. -/
theorem map_place {α β : Type} {f : α → β} {l : List α} {pre post : List β} {x : β} (h : l.map f = pre ++ x :: post) :
    ∃ pre' a post', l = pre' ++ a :: post' ∧ pre = pre'.map f ∧ x = f a ∧ post = post'.map f := by
  obtain ⟨pre', rest, rfl, rfl, cons⟩ := List.map_eq_append_iff.mp h
  obtain ⟨a, post', rfl, rfl, rfl⟩ := List.map_eq_cons_iff.mp cons
  exact ⟨pre', a, post', rfl, rfl, rfl, rfl⟩

/-- A place in two lists after each other is a place in the first or in the second. -/
theorem append_place {α : Type} {l l' pre post : List α} {x : α} (h : l ++ l' = pre ++ x :: post) :
    (∃ post', l = pre ++ x :: post') ∨ ∃ pre', pre = l ++ pre' ∧ l' = pre' ++ x :: post := by
  rcases List.append_eq_append_iff.mp h with ⟨pre', hpre, here⟩ | ⟨post', here, rest⟩
  · exact .inr ⟨pre', hpre, here⟩
  · cases post' with
    | nil => exact .inr ⟨[], by simpa using here.symm, rest.symm⟩
    | cons y ys =>
      obtain ⟨rfl, -⟩ := List.cons.inj rest
      exact .inl ⟨ys, here⟩

/-- Of the compartments of a class that may be taken, the first in wear order is the least worn. -/
theorem State.takes_leastWorn {s : State} {k : SizeClass} {c : Chosen} {reserve : Bool}
    (h : s.takes ⟨.FREE, k, reserve, s.wearOrder k⟩ c) : isComp c.comp ∧
      ∀ m, isComp m → s.fits .FREE k m → m ≠ c.comp → s.sooner c.comp m := by
  obtain ⟨-, -, pre, post, place, passed⟩ := h
  dsimp only at place passed
  have listed : c.comp ∈ s.wearOrder k := place ▸ List.mem_append_right _ List.mem_cons_self
  refine ⟨isComp_of_mem_wearOrder listed, fun m hm fit apart => ?_⟩
  obtain ⟨state, cls, -⟩ := State.candidate_iff.mp fit.1
  have there : m ∈ s.wearOrder k := State.mem_wearOrder.mpr ⟨hm, state, cls⟩
  have order := s.sooner_wearOrder k
  rw [place] at order there
  rcases List.mem_append.mp there with before | after
  · exact absurd fit (passed m before)
  · exact (List.pairwise_cons.mp (List.pairwise_append.mp order).2.1).1 m ((List.mem_cons.mp after).resolve_left apart)

/-- The search of a return drop takes of the smallest class the least worn, and none exactly where there is none (R169). -/
theorem dropSteps_spec (k : SizeClass) (s w : State) (o : Option Chosen) (e : searchSteps (s.dropSteps k) s = (w, o)) :
    let fit := fun (m : Nat) => isComp m ∧ k.rank ≤ (s.comp m).cls.rank ∧
      s.candidate m .FREE (s.comp m).cls = true ∧ s.hasOp m = false ∧ ∃ a u, s.resolution m = .ok a u
    ((∀ m b, s.resolution m ≠ .mapFault b) → w = s) ∧ (o = none ↔ ∀ m, ¬ fit m) ∧
    (∀ c, o = some c → fit c.comp ∧ s.resolution c.comp = .ok c.addr c.units ∧
      ∀ m, fit m → m ≠ c.comp → (s.comp c.comp).cls.rank < (s.comp m).cls.rank ∨
        ((s.comp c.comp).cls = (s.comp m).cls ∧ ((s.comp c.comp).hatchCount < (s.comp m).hatchCount ∨
          ((s.comp c.comp).hatchCount = (s.comp m).hatchCount ∧ c.comp < m)))) := by
  intro fit
  obtain ⟨-, taken, none_⟩ := searchSteps_spec _ e
  have may : ∀ m, fit m → (s.comp m).cls ∈ classesFrom k true ∧ s.fits .FREE (s.comp m).cls m := fun m ⟨_, rank, rest⟩ => by
    refine ⟨mem_classesFrom.mpr ?_, rest⟩
    rcases Nat.eq_or_lt_of_le rank with e | e
    · exact .inl (SizeClass.rank_inj e).symm
    · exact .inr ⟨rfl, e⟩
  have noneOf : ∀ {c}, s.takesNone ⟨.FREE, c, false, s.wearOrder c⟩ → ∀ m, fit m → (s.comp m).cls ≠ c := by
    rintro c (none_ | ⟨reserve, -⟩) m hm rfl
    · have f := (may m hm).2
      exact none_ m (State.mem_wearOrder.mpr ⟨hm.1, (State.candidate_iff.mp f.1).1, rfl⟩) f
    · cases reserve
  have found : ∀ c, o = some c → fit c.comp ∧ s.resolution c.comp = .ok c.addr c.units ∧
      ∀ m, fit m → m ≠ c.comp → (s.comp c.comp).cls.rank < (s.comp m).cls.rank ∨
        ((s.comp c.comp).cls = (s.comp m).cls ∧ s.sooner c.comp m) := by
    intro c hc
    obtain ⟨pre, x, post, place, takes, -, before⟩ := taken c hc
    obtain ⟨small, cls, large, classes, rfl, rfl, rfl⟩ := map_place place
    obtain ⟨inTable, least⟩ := State.takes_leastWorn takes
    obtain ⟨⟨cand, idle, ok⟩, res, -⟩ := takes
    have hcls : (s.comp c.comp).cls = cls := (State.candidate_iff.mp cand).2.1
    have used : cls ∈ classesFrom k true := classes ▸ List.mem_append_right _ List.mem_cons_self
    have rank : k.rank ≤ cls.rank := by
      rcases mem_classesFrom.mp used with rfl | ⟨-, larger⟩
      · exact le_rfl
      · exact larger.le
    refine ⟨⟨inTable, hcls ▸ rank, hcls ▸ cand, idle, ok⟩, res, fun m hm apart => ?_⟩
    obtain ⟨used', fits⟩ := may m hm
    have order := pairwise_classesFrom k true
    rw [classes] at used' order
    rw [hcls]
    rcases List.mem_append.mp used' with smaller | here
    · exact absurd rfl (noneOf (before _ (List.mem_map_of_mem smaller)) m hm)
    · rcases List.mem_cons.mp here with same | larger
      · exact .inr ⟨same.symm, least m hm.1 (same ▸ fits) apart⟩
      · exact .inl ((List.pairwise_cons.mp (List.pairwise_append.mp order).2.1).1 _ larger)
  refine ⟨fun ok => ?_, ⟨fun hn m hm => ?_, fun no => ?_⟩, found⟩
  · have same := searchSteps_unmarked ok (s.dropSteps k)
    rwa [e] at same
  · exact noneOf (none_ hn _ (List.mem_map_of_mem (may m hm).1)) m hm rfl
  · cases o with
    | none => rfl
    | some c => exact absurd (found c rfl).1 (no c.comp)

/-- RESERVED for the carrier, and under the reference where one is given (R99, step 1). -/
theorem State.mem_reservedFor {s : State} {carrier m : Nat} {ref : Option Nat} {k : SizeClass} :
    m ∈ s.reservedFor carrier ref k ↔ isComp m ∧ (s.comp m).state = .RESERVED ∧ (s.comp m).cls = k ∧
      ∃ r, (s.comp m).reservation = some r ∧ r.carrier = carrier ∧ ∀ y, ref = some y → r.ref = y := by
  cases ref <;> simp [State.reservedFor, mem_compNos, and_assoc, Option.any_eq_true]

/-- The search of a deposit takes a compartment reserved for the carrier before a FREE one, and of either the smallest class
(R99). -/
theorem depositSteps_spec (d : DepositReq) (s w : State) (c : Chosen) (ok : ∀ m b, s.resolution m ≠ .mapFault b)
    (e : searchSteps (s.depositSteps d) s = (w, some c)) :
    let may := fun (k : SizeClass) => k = d.declared ∨ (d.upsize = true ∧ d.declared.rank < k.rank)
    let ready := fun (m : Nat) (st : CompState) => isComp m ∧ may (s.comp m).cls ∧
      s.candidate m st (s.comp m).cls = true ∧ s.hasOp m = false ∧ ∃ a u, s.resolution m = .ok a u
    let kept := fun (m : Nat) => ready m .RESERVED ∧ ∃ r, (s.comp m).reservation = some r ∧ r.carrier = d.carrier ∧
      ∀ y, d.ref = some y → r.ref = y
    let cls := (s.comp c.comp).cls
    w = s ∧ s.resolution c.comp = .ok c.addr c.units ∧
    ((kept c.comp ∧ ∀ m, kept m → cls.rank < (s.comp m).cls.rank ∨ (cls = (s.comp m).cls ∧ c.comp ≤ m)) ∨
     (ready c.comp .FREE ∧ (∀ m, ¬ kept m) ∧ s.walkUp cls < s.freeCount cls ∧
      ∀ k, may k → k.rank < cls.rank →
        s.freeCount k ≤ s.walkUp k ∨ ∀ m, ready m .FREE → (s.comp m).cls ≠ k)) := by
  intro may ready kept cls
  have same : w = s := by
    have h := searchSteps_unmarked ok (s.depositSteps d)
    rwa [e] at h
  obtain ⟨-, taken, -⟩ := searchSteps_spec _ e
  obtain ⟨pre, x, post, place, takes, test, before⟩ := taken c rfl
  have noKept : ∀ {k}, s.takesNone ⟨.RESERVED, k, false, s.reservedFor d.carrier d.ref k⟩ → ∀ m, kept m →
      (s.comp m).cls ≠ k := by
    rintro k (none_ | ⟨reserve, -⟩) m ⟨⟨hm, -, fit⟩, res⟩ rfl
    · exact none_ m (State.mem_reservedFor.mpr ⟨hm, (State.candidate_iff.mp fit.1).1, rfl, res⟩) fit
    · cases reserve
  have noFree : ∀ {k}, s.takesNone ⟨.FREE, k, true, s.wearOrder k⟩ →
      s.freeCount k ≤ s.walkUp k ∨ ∀ m, ready m .FREE → (s.comp m).cls ≠ k := by
    rintro k (none_ | ⟨-, u, marked, test⟩)
    · refine .inr ?_
      rintro m ⟨hm, -, fit⟩ rfl
      exact none_ m (State.mem_wearOrder.mpr ⟨hm, (State.candidate_iff.mp fit.1).1, rfl⟩) fit
    · rw [marked.reserveTest ok] at test
      exact .inl (Nat.not_lt.mp (of_decide_eq_false test))
  have order := pairwise_classesFrom d.declared d.upsize
  have res := takes.2.1
  refine ⟨same, res, ?_⟩
  rcases append_place place with ⟨post', here⟩ | ⟨pre', hpre, here⟩
  swap
  · obtain ⟨small, k, large, classes, rfl, rfl, rfl⟩ := map_place here
    obtain ⟨inTable, -⟩ := State.takes_leastWorn takes
    obtain ⟨⟨cand, idle, fit⟩, -⟩ := takes
    have hcls : (s.comp c.comp).cls = k := (State.candidate_iff.mp cand).2.1
    have used : k ∈ classesFrom d.declared d.upsize := classes ▸ List.mem_append_right _ List.mem_cons_self
    have enough := test rfl
    rw [same] at enough
    refine .inr ⟨⟨inTable, hcls ▸ mem_classesFrom.mp used, hcls ▸ cand, idle, fit⟩, fun m hm => ?_, ?_, fun k' hk' smaller => ?_⟩
    · refine noKept (before _ ?_) m hm rfl
      rw [hpre]
      exact List.mem_append_left _ (List.mem_map_of_mem (mem_classesFrom.mpr hm.1.2.1))
    · show s.walkUp (s.comp c.comp).cls < s.freeCount (s.comp c.comp).cls
      rw [hcls]
      exact of_decide_eq_true enough
    · refine noFree (before _ ?_)
      rw [hpre]
      refine List.mem_append_right _ (List.mem_map_of_mem ?_)
      have there : k' ∈ classesFrom d.declared d.upsize := mem_classesFrom.mpr hk'
      rw [classes] at there order
      have smaller : k'.rank < k.rank := hcls ▸ smaller
      rcases List.mem_append.mp there with h | h
      · exact h
      · rcases List.mem_cons.mp h with rfl | h
        · exact absurd smaller (Nat.lt_irrefl _)
        · exact absurd ((List.pairwise_cons.mp (List.pairwise_append.mp order).2.1).1 _ h) (Nat.lt_asymm smaller)
  · obtain ⟨small, k, large, classes, rfl, rfl, rfl⟩ := map_place here
    obtain ⟨⟨cand, idle, fit⟩, -, first, last, ascending, passed⟩ := takes
    dsimp only at ascending passed
    have hcls : (s.comp c.comp).cls = k := (State.candidate_iff.mp cand).2.1
    have used : k ∈ classesFrom d.declared d.upsize := classes ▸ List.mem_append_right _ List.mem_cons_self
    have listed : c.comp ∈ s.reservedFor d.carrier d.ref k := ascending ▸ List.mem_append_right _ List.mem_cons_self
    obtain ⟨inTable, -, -, under⟩ := State.mem_reservedFor.mp listed
    refine .inl ⟨⟨⟨inTable, hcls ▸ mem_classesFrom.mp used, hcls ▸ cand, idle, fit⟩, under⟩, fun m hm => ?_⟩
    have there : (s.comp m).cls ∈ classesFrom d.declared d.upsize := mem_classesFrom.mpr hm.1.2.1
    rw [classes] at there order
    show (s.comp c.comp).cls.rank < _ ∨ ((s.comp c.comp).cls = _ ∧ _)
    rw [hcls]
    rcases List.mem_append.mp there with h | h
    · exact absurd rfl (noKept (before _ (List.mem_map_of_mem h)) m hm)
    · rcases List.mem_cons.mp h with h | h
      · refine .inr ⟨h.symm, ?_⟩
        have listed' : m ∈ s.reservedFor d.carrier d.ref k :=
          State.mem_reservedFor.mpr ⟨hm.1.1, (State.candidate_iff.mp hm.1.2.2.1).1, h, hm.2⟩
        have sorted : (s.reservedFor d.carrier d.ref k).Pairwise (· < ·) := List.Pairwise.filter _ List.pairwise_lt_range'
        rw [ascending] at listed' sorted
        rcases List.mem_append.mp listed' with earlier | later
        · exact absurd (h ▸ hm.1.2.2) (passed m earlier)
        · rcases List.mem_cons.mp later with rfl | later
          · exact le_rfl
          · exact ((List.pairwise_cons.mp (List.pairwise_append.mp sorted).2.1).1 m later).le
      · exact .inl ((List.pairwise_cons.mp (List.pairwise_append.mp order).2.1).1 _ h)

end Sys2Proof.Machine
end

