-- ==== Sys2Proof/Proofs/Deposits.lean ====
section
/-! DEPOSIT and RETURN_DROP: the compartment taken, its operation, the code and the charge (R98 to R106, R152, R153,
R167 to R170). -/

namespace Sys2Proof.Machine

open Sys2Proof

/-! ### Creations and charges (R69 to R71, R152, R153) -/

theorem State.roomFor_of {s : State} {st l : Nat} {pu : Purpose} (hpu : pu ≠ .SWEEP) (room : s.hasRoom st l) :
    s.roomFor st pu l = true := by
  rw [State.roomFor_iff, if_neg hpu]
  exact room

/-- A creation with room puts the operation QUEUED at the tail of its link's priority queue. -/
theorem State.createOp_queued {s : State} {st n u : Nat} {a : Addr} {pu : Purpose} (hpu : pu ≠ .SWEEP)
    (room : s.hasRoom st a.link) : s.createOp pu st n a u .QUEUED = some (s.enqueued pu st n a u, s.nextJob) := by
  unfold State.createOp
  rw [if_pos (State.roomFor_of hpu room)]
  cases pu with
  | SWEEP => exact absurd rfl hpu
  | _ => rfl

/-- The table with a new operation at its end (R69). -/
def State.withOp (s : State) (o : Op) : State := { s with hce := { ops := s.hce.ops ++ [o], lastJob := o.job } }

theorem State.createOp_awaiting {s : State} {st n u : Nat} {a : Addr} {pu : Purpose} (hpu : pu ≠ .SWEEP)
    (room : s.hasRoom st a.link) : s.createOp pu st n a u .AWAIT_PAYMENT =
      some (s.withOp (newOp s.nextJob pu st n a u .AWAIT_PAYMENT), s.nextJob) := by
  unfold State.createOp
  rw [if_pos (State.roomFor_of hpu room)]
  rfl

/-- An operation without a charge reference takes none (R152). -/
theorem State.nextRef_withOp (s : State) {o : Op} (h : o.chargeRef = none) : (s.withOp o).nextRef = s.nextRef := by
  have taken : (s.withOp o).refsTaken = s.refsTaken := by
    simp [State.refsTaken, State.withOp, List.filterMap_append, h]
  unfold State.nextRef
  rw [taken]
  rfl

/-- The last entry of the table is the one of its fresh job number. -/
theorem map_fresh {l : List Op} {o : Op} (f : Op → Op) (fresh : o.job ∉ l.map (·.job)) :
    (l ++ [o]).map (fun y => if y.job = o.job then f y else y) = l ++ [f o] := by
  have same : l.map (fun y => if y.job = o.job then f y else y) = l :=
    (List.map_congr_left fun y hy => if_neg fun e => fresh (List.mem_map.mpr ⟨y, hy, e⟩)).trans (List.map_id' l)
  rw [List.map_append, same]
  simp

/-- The state with a charge started for a parcel: the record, the reader with its message, the reference at the parcel
and at the operation (R153). -/
def State.charged (s : State) (r amount job n : Nat) (p : Parcel) : State :=
  { s with
      pbc := { s.pbc with refCounter := s.nextRef, readers := tput s.pbc.readers r { s.reader r with
        state := .CHARGING
        outgoing := (s.reader r).outgoing.filter BusMsg.isAck ++ [.CHARGE s.nextRef amount]
        charge := some { ref := s.nextRef, amount := amount, phase := .OFFERED, job := some job, comp := n,
                         ident := p.ident, timeout := some s.scu.config.payTimeout, offer := false } } }
      comps := tput s.comps n { s.comp n with
        parcel := some { p with chargeRef := some s.nextRef, chargeReader := if p.kind = .RETURN then some r else none } }
      hce := { s.hce with ops := s.hce.ops.map fun o =>
        if o.job = job then { o with chargeRef := some s.nextRef, amount := some amount } else o } }

theorem State.startCharge_eq {s : State} {r amount job n : Nat} {p : Parcel} (parcel : (s.comp n).parcel = some p) :
    s.startCharge r amount job n = s.charged r amount job n p := by
  unfold State.startCharge
  rw [parcel]
  have held : (tget s.comps Compartment.factory n).parcel = some p := parcel
  simp only [State.updParcel, State.updComp, State.updComps, State.updReader, State.updPbc, State.updOp, State.updHce,
    held, Option.map_some]
  rfl

/-! ### The code issuer (R105) -/

/-- The state after some draws of the code issuer. -/
def State.drawn (s : State) (j : Nat) : State := { s with alloc := { s.alloc with draws := s.alloc.draws + j } }

theorem drawFrom_fresh {n : Nat} {s : State} (fresh : s.codeUsed (Config.codeDraw s.alloc.draws).val = false) :
    drawFrom (n + 1) s = (s.drawn 1, some (Config.codeDraw s.alloc.draws).val) := by
  unfold drawFrom
  exact if_neg (Bool.eq_false_iff.mp fresh)

theorem drawFrom_used {n : Nat} {s : State} (used : s.codeUsed (Config.codeDraw s.alloc.draws).val = true) :
    drawFrom (n + 1) s = drawFrom n (s.drawn 1) := by
  conv_lhs => unfold drawFrom
  exact if_pos used

theorem State.drawn_drawn (s : State) (i j : Nat) : (s.drawn i).drawn j = s.drawn (i + j) := by
  unfold State.drawn
  dsimp only
  rw [Nat.add_assoc]

/-- The code issued is the first of the draws that is neither live nor retired. -/
theorem drawFrom_first {j : Nat} : ∀ {n : Nat} {s : State}, j < n →
    s.codeUsed (Config.codeDraw (s.alloc.draws + j)).val = false →
    (∀ i, i < j → s.codeUsed (Config.codeDraw (s.alloc.draws + i)).val = true) →
    drawFrom n s = (s.drawn (j + 1), some (Config.codeDraw (s.alloc.draws + j)).val) := by
  induction j with
  | zero =>
    intro n s within fresh used
    obtain ⟨n, rfl⟩ := Nat.exists_eq_succ_of_ne_zero (Nat.ne_of_gt within)
    exact drawFrom_fresh fresh
  | succ j ih =>
    intro n s within fresh used
    obtain ⟨n, rfl⟩ := Nat.exists_eq_succ_of_ne_zero (Nat.ne_of_gt (Nat.zero_lt_of_lt within))
    have shift (i : Nat) : (s.drawn 1).alloc.draws + i = s.alloc.draws + (i + 1) := by
      show s.alloc.draws + 1 + i = _
      omega
    have same (c : Nat) : (s.drawn 1).codeUsed c = s.codeUsed c := rfl
    rw [drawFrom_used (used 0 (Nat.succ_pos j)), ih (Nat.lt_of_succ_lt_succ within) (by rw [shift, same]; exact fresh)
      fun i hi => by rw [shift, same]; exact used (i + 1) (Nat.succ_lt_succ hi), State.drawn_drawn, shift,
      Nat.add_comm 1]

/-! ### DEPOSIT (R98 to R103) -/

theorem State.depositCheck_passes {s : State} {st : Nat} {d : DepositReq} (running : s.scu.phase = none)
    (mains : s.scu.mode = .OPEN ∨ s.scu.mode = .NIGHT) (lo : 1 ≤ d.carrier) (hi : d.carrier ≤ 250)
    (text : ∀ b ∈ d.text, 0x20 ≤ b.toNat ∧ b.toNat ≤ 0x7E) (loaded : (s.page s.tariff.active).isSome = true)
    (room : s.stationOps st < stationLimit st) : s.depositCheck st d = none := by
  have on : s.scu.mode.onMains = true := by rcases mains with e | e <;> rw [e] <;> rfl
  have page : (s.page s.tariff.active).isNone = false := by rw [← Option.not_isSome, loaded]; rfl
  have words : printable d.text = true := List.all_eq_true.mpr fun b hb => decide_eq_true (text b hb)
  have carrier : carrierOk d.carrier = true := decide_eq_true ⟨lo, hi⟩
  have free : s.stationFull st = false := decide_eq_false (Nat.not_le.mpr room)
  simp [State.depositCheck, State.starting, running, on, page, words, carrier, free]

/-- Marks of failed resolutions leave the room for an operation as it was. -/
theorem State.mapMarked.hasRoom {s t : State} (h : s.mapMarked t) (st l : Nat) : t.hasRoom st l ↔ s.hasRoom st l := by
  rw [h.1]
  exact Iff.rfl

/-- The compartment of an accepted deposit, its code and its operation (R102, R103). -/
theorem State.depositCreate_eq {w : State} {st j : Nat} {d : DepositReq} {lapsed : Bool} {c : Chosen}
    (room : w.hasRoom st c.addr.link) (few : j < 16)
    (fresh : w.codeUsed (Config.codeDraw (w.alloc.draws + j)).val = false)
    (used : ∀ i, i < j → w.codeUsed (Config.codeDraw (w.alloc.draws + i)).val = true) :
    w.depositCreate st d lapsed c =
      ⟨(((w.drawn (j + 1)).enqueued .DEPOSIT st c.comp c.addr c.units).depositComp d c.comp (Config.codeDraw (w.alloc.draws + j)).val).pass, .ACCEPTED,
        .depositing w.nextJob c.comp (w.comp c.comp).cls (decide ((w.comp c.comp).state = .RESERVED))
          (decide (d.declared.rank < (w.comp c.comp).cls.rank)) lapsed⟩ := by
  have drawn : w.drawCode = (w.drawn (j + 1), some (Config.codeDraw (w.alloc.draws + j)).val) :=
    drawFrom_first few fresh used
  have made := State.createOp_queued (s := w.drawn (j + 1)) (st := st) (n := c.comp) (u := c.units)
    (a := c.addr) (pu := .DEPOSIT) (by decide) room
  unfold State.depositCreate
  rw [drawn]
  dsimp only
  rw [made]
  rfl

/-- The compartment DEPOSITING with its operation and its code, priced by a page at a minute (R102, R103). -/
def State.deposited (w : State) (st : Nat) (d : DepositReq) (c : Chosen) (j : Nat) (pg : Fin 4) (now : Nat) : State :=
  let x := w.comp c.comp
  { (w.enqueued .DEPOSIT st c.comp c.addr c.units).withComp c.comp { x with
      state := .DEPOSITING
      reservation := none
      parcel := some (d.parcel pg now (Config.codeDraw (w.alloc.draws + j)).val x.priorOf) } with
    tariff := { w.tariff with refs := w.tariff.refs.set pg.val (w.pageRefs pg + 1) }
    alloc := { w.alloc with draws := w.alloc.draws + j + 1 } }

theorem State.deposit_found {v w : State} {st : Nat} {d : DepositReq} {c : Chosen} (check : v.depositCheck st d = none)
    (found : searchSteps (v.depositSteps d) v = (w, some c)) :
    v.deposit st d = w.depositCreate st d (v.lapsed d) c := by
  unfold State.deposit
  rw [check]
  dsimp only
  rw [found]

/-- Settles O33. -/
theorem depositTakesACompartment : Obligations.DepositTakesACompartment := by
  refine ⟨fun h p d k c j s v w a hp courier running mains lo hi text loaded hv found room few fresh used => ?_,
    fun d s w c ok found => depositSteps_spec d s w c ok found⟩
  intro st x code pg
  have kept : v = { s.took h with comps := v.comps, swu := v.swu } := by
    rw [hv]
    exact (s.took h).clearTagList_eq k
  obtain ⟨marked, -, -⟩ := searchSteps_spec _ found
  have roomV : v.hasRoom st c.addr.link := (marked.hasRoom st _).mp room
  have scu : v.scu = s.scu := by rw [kept]; rfl
  have tariff : v.tariff = s.tariff := by rw [kept]; rfl
  have check : v.depositCheck st d = none := by
    refine State.depositCheck_passes (by rw [scu]; exact running) (by rw [scu]; exact mains) lo hi text ?_ roomV.2.1
    unfold State.page
    rw [tariff]
    exact loaded
  have owner := (State.deposit_found check found).trans (State.depositCreate_eq (d := d) (lapsed := v.lapsed d) room few fresh used)
  rw [hv] at owner
  have run : exec (.deposit h p) s =
    .next (s.takeRequest h 19 p .depositReq fun d s => s.deposit h.station.toNat d) := rfl
  rw [State.takeRequest_cleared a hp rfl courier owner (by simp), ← hv] at run
  have wtariff : w.tariff = s.tariff := by rw [marked.1]; exact tariff
  have wscu : w.scu = s.scu := by rw [marked.1]; exact scu
  have active : w.tariff.active = pg := by rw [wtariff]
  have now : w.now = s.now := by unfold State.now; rw [wscu]
  have same : w.deposited st d c j w.tariff.active w.now = w.deposited st d c j pg s.now := by rw [active, now]
  exact ⟨_, run, congrArg (fun u : State => u.pass.updKli fun k => { k with reply := some (replyTo h 19 .ACCEPTED _) }) same⟩

/-! ### RETURN_DROP (R167 to R170) -/

theorem State.dropCheck_passes {s : State} {st : Nat} {d : DropReq} (running : s.scu.phase = none)
    (mode : s.scu.mode = .OPEN) (lo : 1 ≤ d.carrier) (hi : d.carrier ≤ 250)
    (text : ∀ b ∈ d.label, 0x20 ≤ b.toNat ∧ b.toNat ≤ 0x7E) (room : s.stationOps st < stationLimit st) :
    s.dropCheck st d = none := by
  have words : printable d.label = true := List.all_eq_true.mpr fun b hb => decide_eq_true (text b hb)
  have carrier : carrierOk d.carrier = true := decide_eq_true ⟨lo, hi⟩
  have free : s.stationFull st = false := decide_eq_false (Nat.not_le.mpr room)
  simp [State.dropCheck, State.starting, running, mode, words, carrier, free]

theorem State.readerTest_idle {s : State} {r : Nat} (fitted : s.readerFitted r = true) (idle : (s.reader r).state = .IDLE) :
    s.readerTest r = .OK := by
  simp [State.readerTest, fitted, idle]

theorem State.dropFee_ok {s : State} {st f : Nat} {d : DropReq}
    (fee : (d.prepaid = true ∧ f = 0) ∨ (d.prepaid = false ∧ s.returnFee d.declared = some f))
    (reader : 0 < f → s.readerFitted st = true ∧ (s.reader st).state = .IDLE) : s.dropFee st d = .ok f := by
  unfold State.dropFee
  rcases fee with ⟨pre, rfl⟩ | ⟨pre, price⟩
  · rw [if_pos pre]
  · rw [if_neg (Bool.eq_false_iff.mp pre), price]
    cases f with
    | zero => rfl
    | succ f =>
      obtain ⟨fitted, idle⟩ := reader (Nat.succ_pos f)
      exact if_pos (State.readerTest_idle fitted idle)

theorem State.returnDrop_found {v w : State} {st f : Nat} {d : DropReq} {c : Chosen} (check : v.dropCheck st d = none)
    (fee : v.dropFee st d = .ok f) (found : searchSteps (v.dropSteps d.declared) v = (w, some c)) :
    v.returnDrop st d = w.dropCreate st d f c := by
  unfold State.returnDrop
  rw [check, fee]
  dsimp only
  rw [found]

/-- Nothing is owed: the operation is QUEUED and an arbitration pass follows (R170). -/
theorem State.dropCreate_free {w : State} {st : Nat} {d : DropReq} {c : Chosen} (room : w.hasRoom st c.addr.link) :
    w.dropCreate st d 0 c = ⟨((w.enqueued .RETURN_DROP st c.comp c.addr c.units).updComp c.comp fun x =>
        { x with state := .DEPOSITING, parcel := some (d.parcel w.now) }).pass, .ACCEPTED,
      .dropping w.nextJob c.comp (w.comp c.comp).cls (decide (d.declared.rank < (w.comp c.comp).cls.rank))
        (.unpaid d.prepaid)⟩ := by
  unfold State.dropCreate
  dsimp only
  rw [if_pos rfl, State.createOp_queued (by decide) room]
  rfl

/-- The compartment made DEPOSITING with its operation waiting for the payment (R170). -/
def State.dropBegun (w : State) (st : Nat) (d : DropReq) (c : Chosen) : State :=
  (w.withOp (newOp w.nextJob .RETURN_DROP st c.comp c.addr c.units .AWAIT_PAYMENT)).updComp c.comp fun x =>
    { x with state := .DEPOSITING, parcel := some (d.parcel w.now) }

/-- A fee is owed: the operation waits for its payment and the charge is started (R170). -/
theorem State.dropCreate_owed {w : State} {st f : Nat} {d : DropReq} {c : Chosen} (owed : 0 < f)
    (room : w.hasRoom st c.addr.link) :
    w.dropCreate st d f c = ⟨(w.dropBegun st d c).startCharge st f w.nextJob c.comp, .ACCEPTED,
      .dropping w.nextJob c.comp (w.comp c.comp).cls (decide (d.declared.rank < (w.comp c.comp).cls.rank))
        (.charged f ((w.dropBegun st d c).startCharge st f w.nextJob c.comp).pbc.refCounter)⟩ := by
  have paid : f ≠ 0 := Nat.ne_of_gt owed
  unfold State.dropCreate
  dsimp only
  rw [if_neg paid, State.createOp_awaiting (by decide) room]
  exact if_neg paid

/-- The parcel of a drop is at the compartment taken. -/
theorem State.dropBegun_comp (w : State) (st : Nat) (d : DropReq) {c : Chosen} (known : isComp c.comp) :
    (w.dropBegun st d c).comp c.comp = { w.comp c.comp with state := .DEPOSITING, parcel := some (d.parcel w.now) } :=
  State.comp_updComp_self _ _ known.1 known.2

theorem State.dropBegun_nextRef (w : State) (st : Nat) (d : DropReq) (c : Chosen) :
    (w.dropBegun st d c).nextRef =
      (w.withComp c.comp { w.comp c.comp with state := .DEPOSITING, parcel := some (d.parcel w.now) }).nextRef :=
  State.nextRef_withOp (w.withComp c.comp { w.comp c.comp with state := .DEPOSITING, parcel := some (d.parcel w.now) })
    (o := newOp w.nextJob .RETURN_DROP st c.comp c.addr c.units .AWAIT_PAYMENT) rfl

/-- Settles O31: the answer of the owner in its two branches, over the search read as its two conditions. -/
theorem returnDropTakesACompartment : Obligations.ReturnDropTakesACompartment := by
  refine ⟨fun h p d f c s v w a hp running mode lo hi text bounded fee idle hv found room => ?_, dropSteps_spec⟩
  intro st up x
  obtain ⟨-, -, taken⟩ := dropSteps_spec d.declared v w _ found
  obtain ⟨⟨known, -⟩, -⟩ := taken c rfl
  obtain ⟨marked, -, -⟩ := searchSteps_spec _ found
  have roomV : v.hasRoom st c.addr.link := (marked.hasRoom st _).mp room
  have hce : w.hce = s.hce := by rw [marked.1, hv]; rfl
  have scu : w.scu = s.scu := by rw [marked.1, hv]; rfl
  have now : w.now = s.now := by unfold State.now; rw [scu]
  have parcel : d.parcel w.now = x := by rw [now]; rfl
  have priced : (d.prepaid = true ∧ f = 0) ∨ (d.prepaid = false ∧ v.returnFee d.declared = some f) := by rw [hv]; exact fee
  have readers : 0 < f → v.readerFitted st = true ∧ (v.reader st).state = .IDLE := by rw [hv]; exact idle
  have check : v.dropCheck st d = none :=
    State.dropCheck_passes (by rw [hv]; exact running) (by rw [hv]; exact mode) lo hi text roomV.2.1
  have owner := State.returnDrop_found check (State.dropFee_ok priced readers) found
  rw [hv] at owner
  have run : exec (.returnDrop h p) s =
    .next (s.takeRequest h 16 p .dropReq fun d s => s.returnDrop h.station.toNat d) := rfl
  rcases Nat.eq_zero_or_pos f with none_ | owed
  · subst none_
    rw [State.dropCreate_free room] at owner
    rw [State.takeRequest_of a hp rfl owner (by simp)] at run
    refine ⟨_, run, fun _ => ?_, fun more => absurd more (Nat.lt_irrefl 0)⟩
    rw [← parcel]
    rfl
  · have stands := w.dropBegun_comp st d known
    have present : ((w.dropBegun st d c).comp c.comp).parcel = some (d.parcel w.now) := by rw [stands]
    rw [State.dropCreate_owed owed room, State.startCharge_eq present] at owner
    rw [State.takeRequest_of a hp rfl owner (by simp)] at run
    have ⟨⟨may, _⟩, _⟩ := a
    have station : 1 ≤ st ∧ st ≤ 4 := (stationMay_iff 16 st).mp may
    have few : w.hce.ops.length ≤ 48 := Nat.le_of_lt room.1
    have timeout : w.scu.config.payTimeout = s.scu.config.payTimeout := by rw [scu]
    rw [← parcel, ← timeout]
    refine ⟨_, run, fun none_ => absurd none_ (Nat.ne_of_gt owed), fun _ =>
      ⟨rfl, w.dropBegun_nextRef st d c, rfl, ?_, fun m other => ?_, ?_, ?_, rfl, rfl, rfl, rfl⟩⟩
    · exact (tget_tput_self _ _ _ known.1 known.2).trans (by rw [stands]; rfl)
    · exact (tget_tput_ne _ _ _ (Ne.symm other)).trans (State.comp_updComp_ne _ _ (Ne.symm other))
    · exact congrArg (fun l => ({ ops := l, lastJob := w.nextJob } : Hce))
        (map_fresh (o := newOp w.nextJob .RETURN_DROP st c.comp c.addr c.units .AWAIT_PAYMENT) _ (State.nextJob_fresh few))
    · exact congrArg Reader.state (tget_tput_self _ _ _ station.1 station.2)

end Sys2Proof.Machine
end

