-- ==== Sys2Proof/Proofs/Collections.lean ====
section
/-! COLLECT and PAY: the collection gate, the collection queued, the charge started (R111 to R120, R153). -/

namespace Sys2Proof.Machine

open Sys2Proof

/-! ### Tables written twice, and as they stood -/

theorem tput_tput {α : Type} {n : Nat} (v : Vector α n) (i : Nat) (x y : α) : tput (tput v i x) i y = tput v i y := by
  cases i with
  | zero => rfl
  | succ i => exact Vector.setIfInBounds_setIfInBounds x

theorem tput_tget {α : Type} {n : Nat} (v : Vector α n) (i : Nat) (d : α) : tput v i (tget v d i) = v := by
  cases i with
  | zero => rfl
  | succ i =>
    refine Vector.ext fun j hj => ?_
    simp only [tput, tget, Vector.getElem_setIfInBounds]
    split
    · rename_i e
      subst e
      simp [hj]
    · rfl

/-! ### The tag of a compartment (R178) -/

theorem State.endRun_frame (s : State) (k : Courier) :
    s.endRun k = { s with swu := (s.endRun k).swu, kli := (s.endRun k).kli } := by
  unfold State.endRun
  cases (s.side k).run with
  | none => rfl
  | some r =>
    dsimp only
    split
    · cases k <;> rfl
    · rfl

theorem State.endRun_tags (s : State) (k j : Courier) :
    ((s.endRun k).side j).tags = (s.side j).tags ∧ (j ≠ k → (s.endRun k).side j = s.side j) := by
  unfold State.endRun
  cases (s.side k).run with
  | none => exact ⟨rfl, fun _ => rfl⟩
  | some r =>
    dsimp only
    split
    · by_cases own : j = k
      · subst own
        exact ⟨by cases j <;> rfl, fun other => absurd rfl other⟩
      · have beside : ((s.updSide k fun x => { x with run := none }).side j) = s.side j := by
          cases k <;> cases j <;> simp at own <;> rfl
        exact ⟨congrArg SweepSide.tags beside, fun _ => beside⟩
    · exact ⟨rfl, fun _ => rfl⟩

theorem State.clearTag_none {s : State} {n : Nat} (h : (s.comp n).tagOwner = none) : s.clearTag n = s := by
  unfold State.clearTag
  rw [h]

/-- A tag cleared changes the tag owner, the sweep unit and what a run that ends posts. -/
theorem State.clearTag_frame (s : State) (n : Nat) : s.clearTag n = { s with
    comps := tput s.comps n { s.comp n with tagOwner := none }
    swu := (s.clearTag n).swu
    kli := (s.clearTag n).kli } := by
  cases owner : (s.comp n).tagOwner with
  | none =>
    have same : tput s.comps n { s.comp n with tagOwner := none } = s.comps := by
      rw [← owner]
      exact tput_tget _ _ _
    rw [State.clearTag_none owner, same]
  | some k =>
    unfold State.clearTag
    rw [owner]
    dsimp only
    cases (((s.updComp n fun x => { x with tagOwner := none }).updSide k fun x =>
      { x with tags := withoutComp x.tags n }).side k).run with
    | none => cases k <;> rfl
    | some r =>
      dsimp only
      split
      · rw [State.endRun_frame]
        cases k <;> rfl
      · cases k <;> rfl

/-- The list of the owner loses the entry; the other station keeps what it has. -/
theorem State.clearTag_tags {s : State} {n : Nat} {k : Courier} (owner : (s.comp n).tagOwner = some k) :
    ((s.clearTag n).side k).tags = (s.side k).tags.filter (fun e => e.comp != n) ∧
      (s.clearTag n).side k.other = s.side k.other := by
  have differ : k.other ≠ k := by cases k <;> decide
  unfold State.clearTag
  rw [owner]
  dsimp only
  cases (((s.updComp n fun x => { x with tagOwner := none }).updSide k fun x =>
    { x with tags := withoutComp x.tags n }).side k).run with
  | none => cases k <;> exact ⟨rfl, rfl⟩
  | some r =>
    dsimp only
    split
    · obtain ⟨tags, -⟩ := State.endRun_tags (State.updRun ((s.updComp n fun x => { x with tagOwner := none }).updSide k
        fun x => { x with tags := withoutComp x.tags n }) k fun r =>
          { r with pending := withoutComp r.pending n, skipped := r.skipped + 1 }) k k
      obtain ⟨-, others⟩ := State.endRun_tags (State.updRun ((s.updComp n fun x => { x with tagOwner := none }).updSide k
        fun x => { x with tags := withoutComp x.tags n }) k fun r =>
          { r with pending := withoutComp r.pending n, skipped := r.skipped + 1 }) k k.other
      exact ⟨tags.trans (by cases k <;> rfl), (others differ).trans (by cases k <;> rfl)⟩
    · cases k <;> exact ⟨rfl, rfl⟩

/-! ### The gate (R111 to R115) -/

/-- No lockout of a station is in force. -/
def Gate.openAt (g : Gate) (now : Nat) : Prop := ∀ m, g.lockout = some m → m ≤ now

theorem Gate.lockedFor_open {g : Gate} {now : Nat} (h : g.openAt now) : g.lockedFor now = none := by
  unfold Gate.lockedFor
  cases e : g.lockout with
  | none => rfl
  | some m => exact if_neg (Nat.not_lt.mpr (h m e))

/-- The checks before the lookup that do not look at the gate all pass. -/
def State.collects (s : State) : Prop := s.scu.phase = none ∧ (s.scu.mode = .OPEN ∨ s.scu.mode = .BATTERY)

theorem State.gateCheck_collects {s : State} (st : Nat) (h : s.collects) : s.gateCheck st =
    match (s.gate st).lockedFor s.now with
    | some m => some (.LOCKED_OUT, .lockedOut m)
    | none => if s.stationFull st then some (.BUSY, .empty) else none := by
  obtain ⟨running, mode⟩ := h
  unfold State.gateCheck State.starting
  rw [running]
  rcases mode with e | e <;> rw [e] <;> rfl

theorem State.gateCheck_passes {s : State} {st : Nat} (h : s.collects) (unlocked : (s.gate st).openAt s.now)
    (room : s.stationOps st < stationLimit st) : s.gateCheck st = none := by
  rw [State.gateCheck_collects st h, Gate.lockedFor_open unlocked]
  exact if_neg fun full => absurd (of_decide_eq_true full) (Nat.not_le.mpr room)

theorem State.gateCheck_locked {s : State} {st m : Nat} (h : s.collects) (locked : (s.gate st).lockout = some m)
    (later : s.now < m) : s.gateCheck st = some (.LOCKED_OUT, .lockedOut (m - s.now)) := by
  have left : (s.gate st).lockedFor s.now = some (m - s.now) := by
    unfold Gate.lockedFor
    rw [locked]
    exact if_pos later
  rw [State.gateCheck_collects st h, left]

theorem State.gateCheck_full {s : State} {st : Nat} (h : s.collects) (unlocked : (s.gate st).openAt s.now)
    (full : stationLimit st ≤ s.stationOps st) : s.gateCheck st = some (.BUSY, .empty) := by
  rw [State.gateCheck_collects st h, Gate.lockedFor_open unlocked]
  exact if_pos (decide_eq_true full)

theorem State.lookup_isComp {s : State} {code n : Nat} (h : s.lookup code = some n) : isComp n :=
  mem_compNos.mp (List.mem_of_find?_eq_some h)

/-- The gate with its wrong-code list emptied (R115). -/
def State.gateCleared (s : State) (st : Nat) : State := s.setGate st { s.gate st with wrong := [] }

/-- The fee step is reached on the compartment of the code where it is free to serve (R112, R115). -/
theorem State.toFeeStep_reached {s : State} {st code n : Nat} {x : Parcel} (check : s.gateCheck st = none)
    (found : s.lookup code = some n) (parcel : (s.comp n).parcel = some x) (unheld : s.held n = false)
    (sound : (s.comp n).causes.isEmpty = true) (alone : s.hasOp n = false) :
    s.toFeeStep st code = .ok (s.gateCleared st, n, s.feeGround x) := by
  simp [State.toFeeStep, check, found, parcel, unheld, sound, alone, State.gateCleared]

theorem State.reachFor_ok {s : State} {n u : Nat} {a : Addr} (resolves : s.resolution n = .ok a u)
    (fits : u ≤ s.arb.capacity) : s.reachFor n = .ok (a, u) := by
  unfold State.reachFor
  rw [resolves]
  exact if_neg (Nat.not_lt.mpr fits)

/-! ### The collection queued (R117) -/

theorem State.collectNow_queued {s : State} {st n u : Nat} {a : Addr} (g : Ground) (resolves : s.resolution n = .ok a u)
    (fits : u ≤ s.arb.capacity) (room : s.hasRoom st a.link) : s.collectNow st n g =
      ⟨((s.enqueued .COLLECT st n a u).clearTag n).pass, .ACCEPTED, .collecting s.nextJob n (s.comp n).cls g⟩ := by
  unfold State.collectNow
  rw [State.reachFor_ok resolves fits]
  dsimp only
  rw [State.createOp_queued (by decide) room]

/-- COLLECT and PAY on a ground with nothing due create the collection (R116, R117). -/
theorem State.collect_nothingDue {s t : State} {st code n : Nat} {g : Ground} (step : s.toFeeStep st code = .ok (t, n, g))
    (nothing : g.due = 0) : s.collect st code = t.collectNow st n g ∧ s.payFee st code = t.collectNow st n g := by
  unfold State.collect State.payFee
  rw [step]
  cases g with
  | RETRY_WINDOW => exact ⟨rfl, rfl⟩
  | PAID_UP => exact ⟨rfl, rfl⟩
  | quoted q => exact ⟨if_neg (Nat.not_lt.mpr (Nat.le_of_eq nothing)), if_neg (Nat.not_lt.mpr (Nat.le_of_eq nothing))⟩

/-- COLLECT and PAY take one answer where their owners give one. -/
theorem exec_collect_or_pay {c : Instr} {kind code : Nat} {h : ReqHead} {p : List Byte} {s v : State} {st : Status}
    {b : ReplyBody} (which : (c = .collect h p ∧ kind = 14) ∨ (c = .pay h p ∧ kind = 15)) (a : s.asks h kind p)
    (hp : Codec.code.parse p = some code) (collects : kind = 14 → (s.took h).collect h.station.toNat code = ⟨v, st, b⟩)
    (pays : kind = 15 → (s.took h).payFee h.station.toNat code = ⟨v, st, b⟩) (hs : st ≠ .BAD_REQUEST) :
    exec c s = .next (v.updKli fun k => { k with reply := some (replyTo h kind st b) }) := by
  rcases which with ⟨rfl, rfl⟩ | ⟨rfl, rfl⟩
  · exact congrArg Host.Outcome.next (State.takeRequest_of (owner := fun c s => s.collect h.station.toNat c) a hp rfl
      (collects rfl) hs)
  · exact congrArg Host.Outcome.next (State.takeRequest_of (owner := fun c s => s.payFee h.station.toNat c) a hp rfl
      (pays rfl) hs)

/-- Settles O28. -/
theorem collectionWithNothingDueIsQueued : Obligations.CollectionWithNothingDueIsQueued := by
  intro h p code n u ad x s c kind which a hp running mode unlocked found parcel unheld sound alone nothing resolves fits room
  have check : (s.took h).gateCheck h.station.toNat = none :=
    State.gateCheck_passes ⟨running, mode⟩ unlocked room.2.1
  have step := State.toFeeStep_reached (s := s.took h) check found parcel unheld sound alone
  obtain ⟨collects, pays⟩ := State.collect_nothingDue step nothing
  have queued := State.collectNow_queued (s := (s.took h).gateCleared h.station.toNat) (s.feeGround x) resolves fits room
  exact ⟨_, exec_collect_or_pay which a hp (fun _ => collects.trans queued) (fun _ => pays.trans queued) (by simp), rfl⟩

/-! ### Refusals (R111 to R116) -/

/-- The first failed check answers both requests (R111). -/
theorem State.collect_refused {s : State} {st code : Nat} {x : Answer} (step : s.toFeeStep st code = .error x) :
    s.collect st code = x ∧ s.payFee st code = x := by
  unfold State.collect State.payFee
  rw [step]
  exact ⟨rfl, rfl⟩

theorem State.toFeeStep_checked {s : State} {st code : Nat} {x : Status} {b : ReplyBody}
    (check : s.gateCheck st = some (x, b)) : s.toFeeStep st code = .error ⟨s, x, b⟩ := by
  unfold State.toFeeStep
  rw [check]

theorem wrongAppend_eq {l : List Nat} (now : Nat) (few : l.length ≤ 5) :
    wrongAppend l now = l.drop (l.length - 4) ++ [now] := by
  unfold wrongAppend
  by_cases short : l.length < 5
  · rw [if_pos (show l.length < Config.wrongPlaces from short), Nat.sub_eq_zero_of_le (Nat.le_of_lt_succ short), List.drop_zero]
  · rw [if_neg (show ¬ l.length < Config.wrongPlaces from short), show l.length - 4 = 1 by omega]

theorem lockoutTest_iff {l : List Nat} (now : Nat) (few : l.length ≤ 5) :
    lockoutTest l now = true ↔ 5 ≤ l.length ∧ now < l.headD 0 + 10 := by
  cases l with
  | nil => simp [lockoutTest]
  | cons t l =>
    have places : Config.wrongPlaces = 5 := rfl
    simp only [lockoutTest, decide_eq_true_eq, List.headD_cons, places]
    omega

theorem State.wrongCode_locks {s : State} {st : Nat} (test : lockoutTest (wrongAppend (s.gate st).wrong s.now) s.now = true) :
    s.wrongCode st = ⟨s.setGate st { wrong := [], lockout := some (min (s.now + 15) 4294967295) }, .BAD_CODE,
      .badCodeLocked 15⟩ := if_pos test

theorem State.wrongCode_counts {s : State} {st : Nat}
    (test : lockoutTest (wrongAppend (s.gate st).wrong s.now) s.now ≠ true) :
    s.wrongCode st = ⟨s.setGate st { s.gate st with wrong := wrongAppend (s.gate st).wrong s.now }, .BAD_CODE,
      .badCode (wrongAppend (s.gate st).wrong s.now).length⟩ := if_neg test

/-- A code that no LOADED compartment has (R112, R113). -/
theorem State.toFeeStep_unknown {s : State} {st code : Nat} (check : s.gateCheck st = none)
    (unknown : s.lookup code = none) : s.toFeeStep st code = .error (s.wrongCode st) := by
  unfold State.toFeeStep
  rw [check]
  dsimp only
  rw [unknown]

/-- The refusals by the compartment of the code, in their order (R112). -/
theorem State.toFeeStep_compartment {s : State} {st code n : Nat} (check : s.gateCheck st = none)
    (found : s.lookup code = some n) :
    (s.held n = true → s.toFeeStep st code = .error (s.refuse .HELD)) ∧
    (s.held n = false → (s.comp n).causes.isEmpty = false → s.toFeeStep st code = .error (s.refuse .FAULTED)) ∧
    (s.held n = false → (s.comp n).causes.isEmpty = true → s.hasOp n = true →
      s.toFeeStep st code = .error (s.refuse .BUSY)) := by
  unfold State.toFeeStep
  rw [check]
  dsimp only
  rw [found]
  refine ⟨fun held => if_pos held, fun held faulted => ?_, fun held sound busy => ?_⟩
  · exact (if_neg (Bool.eq_false_iff.mp held)).trans (if_pos faulted)
  · exact (if_neg (Bool.eq_false_iff.mp held)).trans
      ((if_neg fun e => absurd (sound.symm.trans e) Bool.noConfusion).trans (if_pos busy))

/-- COLLECT where a fee is due answers with the quote (R116). -/
theorem State.collect_feeDue {s t : State} {st code n : Nat} {q : Quote} (step : s.toFeeStep st code = .ok (t, n, .quoted q))
    (due : 0 < q.due) : s.collect st code = ⟨t, .FEE_DUE, .feeDue q⟩ := by
  unfold State.collect
  rw [step]
  exact if_pos due

/-- Settles O29. -/
theorem collectionRefusals : Obligations.CollectionRefusals := by
  intro h p c kind code s which a hp st g l refuses
  have checked (x : Status) (b : ReplyBody) (hs : x ≠ .BAD_REQUEST) (check : (s.took h).gateCheck st = some (x, b)) :
      exec c s = .next { s with kli := s.kli.answered h kind x b } := by
    obtain ⟨collects, pays⟩ := State.collect_refused (State.toFeeStep_checked (code := code) check)
    exact exec_collect_or_pay which a hp (fun _ => collects) (fun _ => pays) hs
  have ⟨⟨may, _⟩, _⟩ := a
  have limit : stationLimit st = 1 := by
    have station : 1 ≤ st ∧ st ≤ 4 := by
      rcases which with ⟨-, rfl⟩ | ⟨-, rfl⟩ <;> exact (stationMay_iff _ st).mp may
    unfold stationLimit
    rw [if_neg (by omega), if_neg (by omega)]
  have answered (v : State) (x : Status) (b : ReplyBody) (hs : x ≠ .BAD_REQUEST)
      (step : (s.took h).toFeeStep st code = .error ⟨v, x, b⟩) :
      exec c s = .next (v.updKli fun k => { k with reply := some (replyTo h kind x b) }) := by
    obtain ⟨collects, pays⟩ := State.collect_refused step
    exact exec_collect_or_pay which a hp (fun _ => collects) (fun _ => pays) hs
  refine ⟨fun starting => ?_, fun running night => ?_, fun running dormant => ?_, fun running mode =>
    ⟨fun m locked later => ?_, fun unlocked busy => ?_, fun unlocked idle => ?_⟩⟩
  · exact checked .STARTING .empty (by simp) (if_pos ((State.starting_iff s).mpr starting))
  · refine checked .CLOSED .empty (by simp) ?_
    simp [State.gateCheck, State.starting, State.took, running, night]
  · refine checked .NO_POWER .empty (by simp) ?_
    simp [State.gateCheck, State.starting, State.took, running, dormant]
  · exact checked .LOCKED_OUT _ (by simp) (State.gateCheck_locked (s := s.took h) ⟨running, mode⟩ locked later)
  · exact checked .BUSY .empty (by simp) (State.gateCheck_full (s := s.took h) ⟨running, mode⟩ unlocked
      (limit.trans_le busy))
  · have check : (s.took h).gateCheck st = none := State.gateCheck_passes ⟨running, mode⟩ unlocked
      (by rw [limit]; exact Nat.lt_one_iff.mpr idle)
    refine ⟨fun n found => ?_, fun n x q pays found parcel unheld sound alone quoted due => ?_,
      fun unknown few _ => ?_⟩
    · obtain ⟨held, faulted, busy⟩ := State.toFeeStep_compartment check found
      exact ⟨fun e => answered _ _ _ (by simp) (held e), fun e f => answered _ _ _ (by simp) (faulted e f),
        fun e f o => answered _ _ _ (by simp) (busy e f o)⟩
    · have step := State.toFeeStep_reached (s := s.took h) check found parcel unheld sound alone
      subst pays
      refine exec_collect_or_pay (v := (s.took h).gateCleared st) (b := .feeDue q) which a hp (fun _ => ?_) (fun other => absurd other (by decide)) (by simp)
      exact State.collect_feeDue (step.trans (congrArg (fun g => Except.ok (_, n, g)) quoted)) due
    · have append : wrongAppend g.wrong s.now = l := wrongAppend_eq s.now few
      have length : l.length ≤ 5 := by simp [l]; omega
      have step := State.toFeeStep_unknown (s := s.took h) check unknown
      rw [← lockoutTest_iff s.now length, ← append]
      exact ⟨fun test => answered _ _ _ (by simp) (step.trans (congrArg Except.error (State.wrongCode_locks test))),
        fun test => answered _ _ _ (by simp) (step.trans (congrArg Except.error (State.wrongCode_counts test)))⟩

/-! ### The charge started (R119, R120, R153) -/

/-- The collection that waits for its payment, and its charge (R119, R120). -/
def State.payBegun (s : State) (st n u : Nat) (a : Addr) (q : Quote) (x : Parcel) : State :=
  (s.withOp (newOp s.nextJob .COLLECT st n a u .AWAIT_PAYMENT)).charged st q.due s.nextJob n x

theorem State.payNow_charged {s : State} {st n u : Nat} {ad : Addr} {q : Quote} {x : Parcel} (parcel : (s.comp n).parcel = some x)
    (free : x.chargeRef = none) (fitted : s.readerFitted st = true) (idle : (s.reader st).state = .IDLE)
    (resolves : s.resolution n = .ok ad u) (fits : u ≤ s.arb.capacity) (room : s.hasRoom st ad.link) :
    s.payNow st n q =
      ⟨(s.payBegun st n u ad q x).clearTag n, .ACCEPTED,
        .paying s.nextJob n (s.comp n).cls q.due ((s.payBegun st n u ad q x).clearTag n).pbc.refCounter q⟩ := by
  have uncharged : s.parcelCharged n = false := by simp [State.parcelCharged, parcel, free]
  unfold State.payNow
  rw [if_neg (Bool.eq_false_iff.mp uncharged), if_neg (not_not_intro (State.readerTest_idle fitted idle)),
    State.reachFor_ok resolves fits]
  dsimp only
  rw [State.createOp_awaiting (by decide) room]
  dsimp only
  rw [State.startCharge_eq (show ((s.withOp _).comp n).parcel = some x from parcel)]
  rfl

theorem State.payFee_due {s t : State} {st code n : Nat} {q : Quote} (step : s.toFeeStep st code = .ok (t, n, .quoted q))
    (due : 0 < q.due) : s.payFee st code = t.payNow st n q := by
  unfold State.payFee
  rw [step]
  exact if_pos due

section
variable (s : State) (st n u : Nat) (a : Addr) (q : Quote) (x : Parcel)

theorem State.payBegun_ref : (s.withOp (newOp s.nextJob .COLLECT st n a u .AWAIT_PAYMENT)).nextRef = s.nextRef :=
  State.nextRef_withOp s rfl

theorem State.payBegun_pbc : (s.payBegun st n u a q x).pbc = { s.pbc with
    refCounter := s.nextRef
    readers := tput s.pbc.readers st { s.reader st with
      state := .CHARGING
      outgoing := (s.reader st).outgoing.filter BusMsg.isAck ++ [.CHARGE s.nextRef q.due]
      charge := some { ref := s.nextRef, amount := q.due, phase := .OFFERED, job := some s.nextJob, comp := n,
                       ident := x.ident, timeout := some s.scu.config.payTimeout, offer := false } } } := by
  rw [← s.payBegun_ref st n u a]
  rfl

theorem State.payBegun_hce (few : s.hce.ops.length ≤ 48) : (s.payBegun st n u a q x).hce =
    { ops := s.hce.ops ++ [{ newOp s.nextJob .COLLECT st n a u .AWAIT_PAYMENT with
        chargeRef := some s.nextRef, amount := some q.due }], lastJob := s.nextJob } := by
  have marked := map_fresh (o := newOp s.nextJob .COLLECT st n a u .AWAIT_PAYMENT)
    (fun o => { o with chargeRef := some s.nextRef, amount := some q.due }) (State.nextJob_fresh few)
  have ref := s.payBegun_ref st n u a
  unfold State.payBegun State.charged
  rw [ref]
  exact congrArg (fun l => ({ ops := l, lastJob := s.nextJob } : Hce)) marked

theorem State.payBegun_comp (known : isComp n) : (s.payBegun st n u a q x).comp n = { s.comp n with
    parcel := some { x with chargeRef := some s.nextRef, chargeReader := if x.kind = .RETURN then some st else none } } := by
  rw [← s.payBegun_ref st n u a]
  exact tget_tput_self _ _ _ known.1 known.2

/-- The parcel holds the reference, and no reader where it is a delivery (R153). -/
theorem State.payBegun_clearTag_comps (known : isComp n) (delivery : x.kind = .DELIVERY) :
    ((s.payBegun st n u a q x).clearTag n).comps = tput s.comps n { s.comp n with
      tagOwner := none, parcel := some { x with chargeRef := some s.nextRef, chargeReader := none } } := by
  refine (congrArg State.comps ((s.payBegun st n u a q x).clearTag_frame n) :).trans ?_
  rw [s.payBegun_comp st n u a q x known, delivery]
  exact tput_tput _ _ _ _

theorem State.payBegun_prioTaken (few : s.hce.ops.length ≤ 48) :
    ((s.payBegun st n u a q x).clearTag n).prioTaken a.link = s.prioTaken a.link + 1 := by
  have hce : ((s.payBegun st n u a q x).clearTag n).hce = _ :=
    (congrArg State.hce ((s.payBegun st n u a q x).clearTag_frame n) :).trans (s.payBegun_hce st n u a q x few)
  have links : ((s.payBegun st n u a q x).clearTag n).links = s.links :=
    (congrArg State.links ((s.payBegun st n u a q x).clearTag_frame n) :)
  unfold State.prioTaken State.link
  rw [hce, links]
  simp [newOp, Nat.add_assoc]

end

/-- Settles O30. -/
theorem payStartsTheCharge : Obligations.PayStartsTheCharge := by
  intro h p code n u ad x q s a hp running mode unlocked bounded found parcel delivery free unheld sound alone quoted due
    fitted idle resolves fits room st r
  have known := State.lookup_isComp found
  have check : (s.took h).gateCheck st = none := State.gateCheck_passes ⟨running, mode⟩ unlocked room.2.1
  have step := (State.toFeeStep_reached (s := s.took h) check found parcel unheld sound alone).trans
    (congrArg (fun g => Except.ok (_, n, g)) quoted)
  have owner := (State.payFee_due step due).trans (State.payNow_charged (s := (s.took h).gateCleared st) (q := q) parcel free
    fitted idle resolves fits room)
  have run : exec (.pay h p) s = .next (s.takeRequest h 15 p .code fun c s => s.payFee h.station.toNat c) := rfl
  rw [State.takeRequest_of a hp rfl owner (by simp)] at run
  have few : s.hce.ops.length ≤ 48 := Nat.le_of_lt room.1
  have frame := (((s.took h).gateCleared st).payBegun st n u ad q x).clearTag_frame n
  have pbc := (congrArg State.pbc frame :).trans (((s.took h).gateCleared st).payBegun_pbc st n u ad q x)
  have hce := (congrArg State.hce frame :).trans (((s.took h).gateCleared st).payBegun_hce st n u ad q x few)
  refine ⟨_, run, ?_, hce, pbc, ((s.took h).gateCleared st).payBegun_clearTag_comps st n u ad q x known delivery,
    (congrArg State.gates frame :), ((s.took h).gateCleared st).payBegun_prioTaken st n u ad q x few,
    fun untagged => ?_, fun k owned => ?_, ?_⟩
  · exact congrArg (fun c : Pbc => some (replyTo h 15 .ACCEPTED
      (.paying s.nextJob n (s.comp n).cls q.due c.refCounter q))) pbc
  · have none_ : ((((s.took h).gateCleared st).payBegun st n u ad q x).comp n).tagOwner = none :=
      (congrArg Compartment.tagOwner (((s.took h).gateCleared st).payBegun_comp st n u ad q x known)).trans untagged
    rw [State.clearTag_none none_]
    exact ⟨rfl, rfl⟩
  · exact State.clearTag_tags ((congrArg Compartment.tagOwner
      (((s.took h).gateCleared st).payBegun_comp st n u ad q x known)).trans owned)
  · obtain ⟨cs, w, k, e⟩ : ∃ cs w k, (((s.took h).gateCleared st).payBegun st n u ad q x).clearTag n =
      { ((s.took h).gateCleared st).payBegun st n u ad q x with comps := cs, swu := w, kli := k } := ⟨_, _, _, frame⟩
    rw [e]
    rfl

end Sys2Proof.Machine
end

