-- ==== Sys2Proof/Proofs/Restarts.lean ====
section
/-! Restarts: what they clear, keep and begin (R45, R49, R68, R148, R165, R173, R191, R196, R197, R200, R201). -/

namespace Sys2Proof.Machine

open Sys2Proof

/-! ### The tables after a restart -/

theorem Slot.empty_cleared : Slot.empty.cleared = Slot.empty := rfl

/-- A slot after a restart keeps its commissioned serial alone (R45). -/
theorem State.slot_restartWith_eq (s : State) (i : RestartInputs) (k : ResetCause) (l j : Nat) :
    (s.restartWith i k).slot l j = (s.slot l j).cleared := by
  obtain ⟨-, -, -, -, -, -, -, -, -, -, -, -, links, -⟩ := s.restartWith_eq i k
  unfold State.slot State.link
  rw [links]
  rcases tget_mapFinIdx s.links Link.empty
    (fun j x _ => x.restarted (decide (j + 1 ≤ i.straps.links.count))) l with ⟨m, _, _, e⟩ | ⟨out, e⟩
  · rw [e]
    have read : ((s.link l).restarted (decide (m + 1 ≤ i.straps.links.count))).slotAt j = _ :=
      tget_map (s.link l).slots Slot.empty Slot.cleared j
    refine read.trans ?_
    split
    · rfl
    · rename_i outside
      unfold Link.slotAt
      rw [tget_outside (tget s.links Link.empty l).slots _ (by omega)]
      rfl
  · rw [e, tget_outside _ _ out, Link.slotAt_empty]
    rfl

/-- A fitted link begins the full pass of the ENUMERATE phase (R45, R49). -/
theorem State.enumPass_restartWith (s : State) (i : RestartInputs) (k : ResetCause) {l : Nat} (lo : 1 ≤ l)
    (hi : l ≤ i.straps.links.count) :
    ((s.restartWith i k).link l).enumPass = some { full := true, rounds := 0, bindDue := none } := by
  obtain ⟨-, -, -, -, -, -, -, -, -, -, -, -, links, -⟩ := s.restartWith_eq i k
  have few : i.straps.links.count ≤ 4 := by cases i.straps.links <;> decide
  unfold State.link
  rw [links]
  rcases tget_mapFinIdx s.links Link.empty
    (fun j x _ => x.restarted (decide (j + 1 ≤ i.straps.links.count))) l with ⟨m, _, rfl, e⟩ | ⟨out, -⟩
  · rw [e]
    exact if_pos (decide_eq_true hi)
  · omega

/-- Everything else of a link begins empty (R45). -/
theorem State.link_restartWith_cleared (s : State) (i : RestartInputs) (k : ResetCause) (l : Nat) :
    let x := (s.restartWith i k).link l
    x.strike = none ∧ x.line = none ∧ x.rollTimer = false ∧ x.pollTurn = none ∧ x.unbindDue = false ∧ x.prio = [] ∧
      x.bulk = [] := by
  dsimp only
  rcases s.link_restartWith i k l with ⟨b, e⟩ | e <;> rw [e] <;> exact ⟨rfl, rfl, rfl, rfl, rfl, rfl, rfl⟩

theorem State.comp_restartWith_eq (s : State) (i : RestartInputs) (k : ResetCause) (n : Nat) :
    (s.restartWith i k).comp n = { s.comp n with tagOwner := none } := by
  obtain ⟨-, -, -, -, -, -, -, comps, -⟩ := s.restartWith_eq i k
  rw [State.comp_map comps]
  split
  · rfl
  · rename_i out
    have default_ : s.comp n = Compartment.factory := tget_outside _ _ (by unfold isComp at out; omega)
    rw [default_]
    rfl

/-- A reader keeps its charge record, without its operation and timeout (R148, R165). -/
theorem State.reader_restartWith (s : State) (i : RestartInputs) (k : ResetCause) (r : Nat) :
    (s.restartWith i k).reader r = (s.reader r).restarted := by
  obtain ⟨-, -, -, -, -, -, -, -, -, -, -, -, -, pbc⟩ := s.restartWith_eq i k
  unfold State.reader
  rw [pbc]
  refine (tget_map s.pbc.readers Reader.empty Reader.restarted r).trans ?_
  split
  · rfl
  · rename_i out
    rw [tget_outside _ _ (by omega)]
    rfl

theorem State.gate_restartWith (s : State) (i : RestartInputs) (k : ResetCause) (st : Nat) :
    (s.restartWith i k).gate st = { wrong := [], lockout := none } := by
  obtain ⟨-, -, -, -, -, -, -, -, -, -, gates, -⟩ := s.restartWith_eq i k
  unfold State.gate
  rw [gates]
  exact (tget_replicate 4 st _ _).elim id id

/-! ### The clock and the Kiosk Link Interface (R191, R200) -/

theorem State.kli_restartWith (s : State) (i : RestartInputs) (k : ResetCause) : (s.restartWith i k).kli =
    let x := s.kli.restarted (decide (k = .HOST_RESTART) && s.scu.restartDue)
    if i.cell.isNone then x.post { kind := .TIME_GAP, minute := (s.scu.restarted i k).minute } else x := by
  unfold State.restartWith
  dsimp only
  cases i.cell <;> rfl

/-- The clock cell held its count: the counter resumes and nothing is posted (R200). -/
theorem State.restartWith_cell (s : State) {i : RestartInputs} (k : ResetCause) {v : Nat} (cell : i.cell = some v)
    (fits : v ≤ 4294967295) : (s.restartWith i k).scu.minute = v ∧ (s.restartWith i k).scu.timeGap = s.scu.timeGap ∧
      (s.restartWith i k).kli = s.kli.restarted (decide (k = .HOST_RESTART) && s.scu.restartDue) := by
  obtain ⟨-, -, -, -, -, -, scu, -⟩ := s.restartWith_eq i k
  rw [s.kli_restartWith i k, scu, cell]
  refine ⟨?_, ?_, rfl⟩
  · unfold Scu.restarted
    rw [cell]
    exact Nat.min_eq_left fits
  · unfold Scu.restarted
    rw [cell]
    exact Bool.or_false _

/-- The clock cell lost its count: TIME_GAP (R200). -/
theorem State.restartWith_noCell (s : State) {i : RestartInputs} (k : ResetCause) (cell : i.cell = none) :
    (s.restartWith i k).scu.minute = s.scu.persisted ∧ (s.restartWith i k).scu.timeGap = true ∧
      (s.restartWith i k).kli = (s.kli.restarted (decide (k = .HOST_RESTART) && s.scu.restartDue)).post
        { kind := .TIME_GAP, minute := s.scu.persisted } := by
  obtain ⟨-, -, -, -, -, -, scu, -⟩ := s.restartWith_eq i k
  have minute : (s.scu.restarted i k).minute = s.scu.persisted := by
    unfold Scu.restarted
    rw [cell]
  rw [s.kli_restartWith i k, scu, minute, cell]
  refine ⟨rfl, ?_, rfl⟩
  unfold Scu.restarted
  rw [cell]
  exact Bool.or_true _

/-- What the Kiosk Link Interface keeps over a restart, with or without TIME_GAP (R187, R191, R193). -/
theorem State.restartWith_kli_kept (s : State) (i : RestartInputs) (k : ResetCause) :
    let x := (s.restartWith i k).kli
    x.rx = [] ∧ x.partialRx = [] ∧ x.overflow = false ∧ x.mask = s.kli.mask ∧
      x.reply = if k = .HOST_RESTART ∧ s.scu.restartDue = true then s.kli.reply.filter Reply.ofRestart else none := by
  have base : (s.kli.restarted (decide (k = .HOST_RESTART) && s.scu.restartDue)).reply =
      if k = .HOST_RESTART ∧ s.scu.restartDue = true then s.kli.reply.filter Reply.ofRestart else none := by
    simp [Kli.restarted]
  dsimp only
  rw [← base]
  cases cell : i.cell with
  | some v =>
    rw [s.kli_restartWith i k, cell]
    exact ⟨rfl, rfl, rfl, rfl, rfl⟩
  | none =>
    obtain ⟨-, -, e⟩ := s.restartWith_noCell k cell
    rw [e]
    exact ⟨rfl, rfl, rfl, rfl, rfl⟩

/-- Settles O26. -/
theorem restartsClearAndKeep : Obligations.RestartsClearAndKeep := by
  refine ⟨fun h p s a blank => ?_, fun i s c cause which => ?_⟩
  · have parsed := Codec.parse_blank blank
    exact congrArg Host.Outcome.next (State.takeRequest_of (owner := fun _ s =>
      { state := s.updScu fun u => { u with restartDue := true }, status := .OK, body := .empty }) a parsed rfl rfl (by simp))
  · have run : exec c s = .next (s.restartWith i cause) := by
      rcases which with ⟨rfl, rfl⟩ | ⟨rfl, rfl⟩ | ⟨rfl, rfl⟩ <;> rfl
    obtain ⟨sects, map, capture, alloc, tariff, -, scu, -, hce, swu, -, arb, -, pbc⟩ := s.restartWith_eq i cause
    obtain ⟨rx, part, over_, mask, reply⟩ := s.restartWith_kli_kept i cause
    refine ⟨_, run, hce, (congrArg (·.granted) arb :), (congrArg (·.turn) arb :), ?_, (congrArg Scu.mode scu :),
      (congrArg Scu.straps scu :), (congrArg Scu.cause scu :), (congrArg Scu.phase scu :), (congrArg Scu.base scu :),
      (congrArg Scu.config scu :), (congrArg Scu.wallOffset scu :), (congrArg Scu.persisted scu :), fun v cell fits => ?_,
      fun cell => ?_, rx, part, over_, mask, reply, sects, map, capture, tariff, congrArg Alloc.retired alloc,
      (congrArg Pbc.reversals pbc :), (congrArg Pbc.refCounter pbc :), s.comp_restartWith_eq i cause, fun st => ?_, swu,
      fun r => ?_, (congrArg Pbc.line pbc :), (congrArg Pbc.retry pbc :), fun l => ?_, fun l k => ?_⟩
    · rw [scu]
      exact (congrArg (·.capacity) arb :)
    · obtain ⟨minute, gap, kli⟩ := s.restartWith_cell cause cell fits
      rw [kli]
      exact ⟨minute, gap, rfl, rfl, rfl⟩
    · obtain ⟨minute, gap, kli⟩ := s.restartWith_noCell cause cell
      rw [kli]
      refine ⟨minute, gap, rfl, rfl, ?_⟩
      show (false || s.kli.mask.meets { ClassSet.none with system := true }) = s.kli.mask.system
      simp [ClassSet.meets, ClassSet.none]
    · rw [s.gate_restartWith i cause st]
      exact ⟨rfl, rfl⟩
    · rw [s.reader_restartWith i cause r]
      exact ⟨rfl, rfl, rfl, rfl, rfl, rfl⟩
    · obtain ⟨strike, line, roll, turn, unbind, prio, bulk⟩ := s.link_restartWith_cleared i cause l
      exact ⟨strike, line, roll, turn, unbind, prio, bulk, fun lo hi => s.enumPass_restartWith i cause lo hi⟩
    · rw [s.slot_restartWith_eq i cause l k]
      exact ⟨rfl, rfl, rfl, rfl, rfl, rfl, rfl, rfl, rfl⟩

end Sys2Proof.Machine
end

