-- ==== Sys2Proof/Proofs/Arbitration.lean ====
section
/-! Service cycles and the arbitration pass (R21, R72 to R76). -/

namespace Sys2Proof.Machine

open Sys2Proof

/-! ### The turn pointer (R74) -/

/-- The state with the turn pointer at a link. -/
def State.turnedTo (s : State) (t : Nat) : State := { s with arb := { s.arb with turn := t } }

/-- The pointer after some advances around the fitted links. -/
def turnAfter (links turn k : Nat) : Nat := (turn - 1 + k) % links + 1

theorem State.numLinks_range (s : State) : 1 ≤ s.numLinks ∧ s.numLinks ≤ 4 := by
  unfold State.numLinks
  cases s.scu.straps.links <;> decide

/-- The numbers of links are one to four. -/
theorem one_to_four {n : Nat} (h : 1 ≤ n ∧ n ≤ 4) : n = 1 ∨ n = 2 ∨ n = 3 ∨ n = 4 := by omega

theorem turnAfter_succ {links turn k : Nat} (few : 1 ≤ links ∧ links ≤ 4) :
    (if links ≤ turnAfter links turn k then 1 else turnAfter links turn k + 1) = turnAfter links turn (k + 1) := by
  unfold turnAfter
  rcases one_to_four few with rfl | rfl | rfl | rfl <;> split <;> omega

theorem turnAfter_round {links turn : Nat} (few : 1 ≤ links ∧ links ≤ 4) (fitted : 1 ≤ turn ∧ turn ≤ links) :
    turnAfter links turn 0 = turn ∧ turnAfter links turn links = turn := by
  unfold turnAfter
  rcases one_to_four few with rfl | rfl | rfl | rfl <;> omega

/-- Every fitted link is reached within one round. -/
theorem turnAfter_reaches {links turn l : Nat} (few : 1 ≤ links ∧ links ≤ 4) (fitted : 1 ≤ turn ∧ turn ≤ links)
    (known : 1 ≤ l ∧ l ≤ links) : ∃ k, k < links ∧ turnAfter links turn k = l ∧
      ∀ i, i < k → turnAfter links turn i ≠ l := by
  refine ⟨(l + links - turn) % links, Nat.mod_lt _ few.1, ?_, fun i hi => ?_⟩
  · unfold turnAfter
    rcases one_to_four few with rfl | rfl | rfl | rfl <;> omega
  · unfold turnAfter
    rcases one_to_four few with rfl | rfl | rfl | rfl <;> omega

theorem turnAfter_fitted {links turn k : Nat} (few : 1 ≤ links) :
    1 ≤ turnAfter links turn k ∧ turnAfter links turn k ≤ links :=
  ⟨Nat.succ_pos _, Nat.mod_lt _ few⟩

/-! ### The pass (R74) -/

/-- A link without a ready head is passed by. -/
theorem passLoop_passesBy {f run : Nat} {s : State} (more : run < s.numLinks) (nothing : s.readyHead s.arb.turn = none) :
    passLoop (f + 1) run s = passLoop f (run + 1) s.advance := by
  conv_lhs => unfold passLoop
  rw [if_neg (Nat.not_le.mpr more), nothing]

theorem passLoop_grants {f run : Nat} {s : State} {o : Op} (more : run < s.numLinks)
    (head : s.readyHead s.arb.turn = some o) (fits : o.units ≤ s.arb.free) :
    passLoop (f + 1) run s = passLoop f 0 (s.grant o).advance := by
  conv_lhs => unfold passLoop
  rw [if_neg (Nat.not_le.mpr more), head]
  exact if_pos fits

theorem passLoop_ends {f run : Nat} {s : State} {o : Op} (more : run < s.numLinks)
    (head : s.readyHead s.arb.turn = some o) (above : s.arb.capacity < o.units) :
    passLoop (f + 1) run s = passLoop f 0 (s.endOp o .NO_POWER) := by
  have tight : ¬ o.units ≤ s.arb.free := Nat.not_le.mpr (Nat.lt_of_le_of_lt (Nat.sub_le _ _) above)
  conv_lhs => unfold passLoop
  rw [if_neg (Nat.not_le.mpr more), head]
  exact (if_neg tight).trans (if_pos above)

theorem passLoop_holds {f run : Nat} {s : State} {o : Op} (more : run < s.numLinks)
    (head : s.readyHead s.arb.turn = some o) (tight : s.arb.free < o.units) (within : o.units ≤ s.arb.capacity) :
    passLoop (f + 1) run s = s := by
  conv_lhs => unfold passLoop
  rw [if_neg (Nat.not_le.mpr more), head]
  exact (if_neg (Nat.not_le.mpr tight)).trans (if_neg (Nat.not_lt.mpr within))

theorem passLoop_stops {f run : Nat} {s : State} (round : s.numLinks ≤ run) : passLoop f run s = s := by
  cases f with
  | zero => rfl
  | succ f =>
    unfold passLoop
    exact if_pos round

theorem State.advance_turnedTo (s : State) (k : Nat) :
    (s.turnedTo (turnAfter s.numLinks s.arb.turn k)).advance = s.turnedTo (turnAfter s.numLinks s.arb.turn (k + 1)) := by
  rw [← turnAfter_succ s.numLinks_range]
  rfl

/-- Links without a ready head are passed by in turn. -/
theorem passLoop_passesByAll {s : State} (fuel : Nat) (k : Nat) : ∀ run j : Nat, run + k ≤ s.numLinks →
    (∀ i, j ≤ i → i < j + k → s.readyHead (turnAfter s.numLinks s.arb.turn i) = none) →
    passLoop (fuel + k) run (s.turnedTo (turnAfter s.numLinks s.arb.turn j)) =
      passLoop fuel (run + k) (s.turnedTo (turnAfter s.numLinks s.arb.turn (j + k))) := by
  induction k with
  | zero => exact fun _ _ _ _ => rfl
  | succ k ih =>
    intro run j within nothing
    have head : (s.turnedTo (turnAfter s.numLinks s.arb.turn j)).readyHead
        (s.turnedTo (turnAfter s.numLinks s.arb.turn j)).arb.turn = none := nothing j (Nat.le_refl j) (by omega)
    have more : run < (s.turnedTo (turnAfter s.numLinks s.arb.turn j)).numLinks := Nat.lt_of_lt_of_le (by omega) within
    rw [← Nat.add_assoc, passLoop_passesBy more head, State.advance_turnedTo,
      ih (run + 1) (j + 1) (by omega) fun i lo hi => nothing i (by omega) (by omega)]
    exact congrArg₂ (fun a b => passLoop fuel a (s.turnedTo (turnAfter s.numLinks s.arb.turn b))) (by omega) (by omega)

/-- With no ready head at any fitted link a pass ends as it began (R74). -/
theorem passLoop_quiet {s : State} {fuel : Nat} (enough : s.numLinks ≤ fuel) (turn : s.linkFitted s.arb.turn = true)
    (nothing : ∀ m, s.linkFitted m = true → s.readyHead m = none) : passLoop fuel 0 s = s := by
  obtain ⟨start, round⟩ := turnAfter_round s.numLinks_range (of_decide_eq_true turn)
  obtain ⟨f, rfl⟩ : ∃ f, fuel = f + s.numLinks := ⟨fuel - s.numLinks, by omega⟩
  have all := passLoop_passesByAll (s := s) f s.numLinks 0 0 (by omega) fun i _ _ =>
    nothing _ (decide_eq_true (turnAfter_fitted s.numLinks_range.1))
  rw [start, Nat.zero_add, round] at all
  exact all.trans (passLoop_stops (Nat.le_refl s.numLinks))

/-- With no job queued a pass moves the pointer at most. -/
theorem passLoop_idle {s : State} (nothing : ∀ m, s.readyHead m = none) : ∀ fuel run t : Nat,
    ∃ u, passLoop fuel run (s.turnedTo t) = s.turnedTo u
  | 0, _, t => ⟨t, rfl⟩
  | fuel + 1, run, t => by
    by_cases more : run < s.numLinks
    · rw [passLoop_passesBy (s := s.turnedTo t) more (nothing t)]
      exact passLoop_idle nothing fuel (run + 1) _
    · exact ⟨t, passLoop_stops (s := s.turnedTo t) (Nat.not_lt.mp more)⟩

theorem State.pass_idle {s : State} (nothing : ∀ m, s.readyHead m = none) : ∃ t, s.pass = s.turnedTo t :=
  passLoop_idle nothing s.passBound 0 s.arb.turn

theorem State.readyHead_of_empty {s : State} {l : Nat} (prio : (s.link l).prio = []) (bulk : (s.link l).bulk = []) :
    s.readyHead l = none := State.readyHead_of_offersNone (.inr ⟨prio, .inl bulk⟩)

/-! ### The grant (R74, R75) -/

theorem State.opByJob_mem {s : State} {j : Nat} {o : Op} (h : s.opByJob j = some o) : o ∈ s.hce.ops :=
  List.mem_of_find?_eq_some h

theorem State.passBound_pos {s : State} (h : s.hce.ops ≠ []) : 15 ≤ s.passBound := by
  have one := List.length_pos_of_ne_nil h
  unfold State.passBound
  dsimp only
  omega

/-- A link offers nothing once its head has been granted; the others offer what they did. -/
theorem State.granted_offersNone {s : State} {o : Op} {m : Nat} (known : 1 ≤ o.link ∧ o.link ≤ 4)
    (others : m ≠ o.link → s.offersNone m) : (s.granted o).offersNone m := by
  have read : (s.granted o).link m = _ := tget_tput s.links Link.empty _ o.link m
  by_cases e : o.link = m
  · rw [if_pos ⟨e, known⟩] at read
    exact .inl (by rw [read]; rfl)
  · rw [if_neg fun c => e c.1] at read
    unfold State.offersNone at others ⊢
    rw [read]
    exact others fun c => e c.symm

/-- The one head that fits is granted, and the pointer stands past its link (R74, R75). -/
theorem State.pass_grants {s : State} {l : Nat} {o : Op} (fitted : s.linkFitted l = true)
    (turn : s.linkFitted s.arb.turn = true) (offered : s.offers l o) (own : o.link = l)
    (others : ∀ m, s.linkFitted m = true → m ≠ l → s.offersNone m) (fits : o.units ≤ s.arb.capacity - s.arb.granted) :
    s.pass = (s.granted o).turnedPast l := by
  have few := s.numLinks_range
  obtain ⟨k, near, there, before⟩ := turnAfter_reaches few (of_decide_eq_true turn) (of_decide_eq_true fitted)
  obtain ⟨start, -⟩ := turnAfter_round few (of_decide_eq_true turn)
  have fuel := State.passBound_pos (List.ne_nil_of_mem (State.opByJob_mem offered.2.1))
  obtain ⟨f, hf⟩ : ∃ f, s.passBound = (f + s.numLinks) + 1 + k := ⟨s.passBound - s.numLinks - 1 - k, by omega⟩
  have reach := passLoop_passesByAll (s := s) (f + s.numLinks + 1) k 0 0 (by omega) fun i _ hi =>
    State.readyHead_of_offersNone (others _ (decide_eq_true (turnAfter_fitted few.1)) (before i (by omega)))
  rw [start, Nat.zero_add, there] at reach
  have head : (s.turnedTo l).readyHead (s.turnedTo l).arb.turn = some o := State.readyHead_of_offers offered
  have grants := passLoop_grants (f := f + s.numLinks) (run := k) (s := s.turnedTo l) near head fits
  have range : 1 ≤ o.link ∧ o.link ≤ 4 := by
    have := of_decide_eq_true fitted
    omega
  have quiet := passLoop_quiet (s := ((s.granted o).turnedPast l)) (fuel := f + s.numLinks) (Nat.le_add_left _ _)
    (by
      have := of_decide_eq_true fitted
      refine decide_eq_true ?_
      show 1 ≤ (if s.numLinks ≤ l then 1 else l + 1) ∧ (if s.numLinks ≤ l then 1 else l + 1) ≤ s.numLinks
      split <;> omega)
    fun m hm => State.readyHead_of_offersNone (State.granted_offersNone (s := s) range fun c => others m hm (own ▸ c))
  unfold State.pass
  rw [hf]
  exact reach.trans (grants.trans quiet)

/-! ### Service cycles (R21) -/

theorem State.serviceCreate_queued {s : State} {n u : Nat} {a : Addr} {pu : Purpose} (hpu : pu ≠ .SWEEP)
    (resolves : s.resolution n = .ok a u) (room : s.hasRoom 7 a.link) : s.serviceCreate pu n =
      ⟨((s.enqueued pu 7 n a u).clearTag n).pass, .ACCEPTED, .servicing s.nextJob⟩ := by
  unfold State.serviceCreate
  rw [resolves]
  dsimp only
  rw [State.createOp_queued hpu room]

theorem State.stationNotFull {s : State} {st : Nat} (room : s.stationOps st < stationLimit st) : s.stationFull st = false :=
  decide_eq_false (Nat.not_le.mpr room)

theorem State.serviceOpen_queued {s : State} {n u : Nat} {a : Addr} (serves : s.serves) (known : isComp n)
    (alone : s.hasOp n = false) (resolves : s.resolution n = .ok a u) (room : s.hasRoom 7 a.link) : s.serviceOpen n =
      ⟨((s.enqueued .SERVICE_OPEN 7 n a u).clearTag n).pass, .ACCEPTED, .servicing s.nextJob⟩ := by
  unfold State.serviceOpen
  rw [State.onComp_served _ serves known, alone, State.stationNotFull room.2.1]
  exact State.serviceCreate_queued (by decide) resolves room

theorem State.serviceRemove_queued {s : State} {n u : Nat} {a : Addr} (serves : s.serves) (known : isComp n)
    (full : (s.comp n).state = .LOADED ∨ (s.comp n).state = .RETURN_LOADED)
    (alone : s.hasOp n = false) (resolves : s.resolution n = .ok a u) (room : s.hasRoom 7 a.link) : s.serviceRemove n =
      ⟨((s.enqueued .SERVICE_REMOVE 7 n a u).clearTag n).pass, .ACCEPTED, .servicing s.nextJob⟩ := by
  have holds : (s.comp n).state.full = true := by rcases full with e | e <;> rw [e] <;> rfl
  unfold State.serviceRemove
  rw [State.onComp_served _ serves known, alone, State.stationNotFull room.2.1, holds]
  exact State.serviceCreate_queued (by decide) resolves room

/-- Settles O38. -/
theorem serviceCyclesAreQueued : Obligations.ServiceCyclesAreQueued := by
  refine ⟨fun h p n u kind ad pu c s which a hp serves known alone resolves room => ?_,
    fun l o s fitted turn offered own others fits => State.pass_grants fitted turn offered own others fits,
    fun s turn nothing => ?_, fun o s offered own => ⟨fun within tight => ?_, fun f => ⟨fun fits => ?_, fun above => ?_⟩⟩,
    fun f run s more nothing => passLoop_passesBy more (State.readyHead_of_offersNone nothing)⟩
  · rcases which with ⟨rfl, rfl, rfl⟩ | ⟨rfl, rfl, rfl, full⟩
    · exact ⟨_, congrArg Host.Outcome.next (State.takeRequest_of (owner := fun n s => s.serviceOpen n) a hp rfl
        (State.serviceOpen_queued (s := s.took h) serves known alone resolves room) (by simp)), rfl⟩
    · exact ⟨_, congrArg Host.Outcome.next (State.takeRequest_of (owner := fun n s => s.serviceRemove n) a hp rfl
        (State.serviceRemove_queued (s := s.took h) serves known full alone resolves room) (by simp)), rfl⟩
  · have few := s.numLinks_range
    refine passLoop_quiet ?_ turn fun m hm => State.readyHead_of_offersNone (nothing m hm)
    unfold State.passBound
    dsimp only
    omega
  · have fuel := State.passBound_pos (List.ne_nil_of_mem (State.opByJob_mem offered.2.1))
    obtain ⟨f, hf⟩ : ∃ f, s.passBound = f + 1 := ⟨s.passBound - 1, by omega⟩
    unfold State.pass
    rw [hf]
    exact passLoop_holds s.numLinks_range.1 (State.readyHead_of_offers offered) tight within
  · exact passLoop_grants s.numLinks_range.1 (State.readyHead_of_offers offered) fits
  · exact passLoop_ends s.numLinks_range.1 (State.readyHead_of_offers offered) above

end Sys2Proof.Machine
end

