-- ==== Sys2Proof/Proofs/Minutes.lean ====
section
/-! A bank minute handed on, CLOCK_ADVANCE (R96, R108, R114, R134, R145, R146, R199, R200). -/

namespace Sys2Proof.Machine

open Sys2Proof

/-! ### Records posted in a row (R191) -/

theorem Kli.queue_post {k : Kli} (e : EventRec) (room : k.queue.length + 1 ≤ 64) : (k.post e).queue = k.queue ++ [e] := by
  have free : k.queue.length < Config.queuePlaces := room
  unfold Kli.post
  rw [if_pos free]
  rfl

theorem Kli.queue_posts (es : List EventRec) : ∀ k : Kli, k.queue.length + es.length ≤ 64 →
    (es.foldl Kli.post k).queue = k.queue ++ es := by
  induction es with
  | nil => exact fun k _ => (List.append_nil _).symm
  | cons e es ih =>
    intro k room
    have first := Kli.queue_post (k := k) e (by simp at room; omega)
    rw [List.foldl_cons, ih _ (by rw [first]; simp at room ⊢; omega), first]
    simp

/-! ### One visit to every compartment -/

/-- A compartment read, changed and its event posted where a test finds something due. -/
def State.visit (h : Nat → Compartment → Option (Compartment × EventRec)) (s : State) (n : Nat) : State :=
  match h n (s.comp n) with
  | none => s
  | some (c, e) => (s.updComp n fun _ => c).post e

/-- The compartment after a visit. -/
def visited (h : Nat → Compartment → Option (Compartment × EventRec)) (n : Nat) (c : Compartment) : Compartment :=
  (h n c).elim c Prod.fst

section
variable (h : Nat → Compartment → Option (Compartment × EventRec))

theorem State.visit_frame (s : State) (n : Nat) :
    s.visit h n = { s with comps := (s.visit h n).comps, kli := (s.visit h n).kli } := by
  unfold State.visit
  cases h n (s.comp n) <;> rfl

theorem State.comp_visit (s : State) {n : Nat} (known : isComp n) (m : Nat) :
    (s.visit h n).comp m = if m = n then visited h n (s.comp n) else s.comp m := by
  unfold State.visit visited
  cases found : h n (s.comp n) with
  | none =>
    dsimp only
    split
    · rename_i e
      rw [e]
      rfl
    · rfl
  | some r =>
    refine (State.comp_updComp s n m fun _ => r.1).trans ?_
    by_cases e : m = n
    · rw [if_pos ⟨e.symm, known⟩, if_pos e]
      rfl
    · rw [if_neg fun c => e c.1.symm, if_neg e]

theorem State.kli_visit (s : State) (n : Nat) :
    (s.visit h n).kli = ((h n (s.comp n)).map Prod.snd).toList.foldl Kli.post s.kli := by
  unfold State.visit
  cases h n (s.comp n) <;> rfl

/-- Visits to different compartments do not see each other. -/
theorem State.visits_spec (ns : List Nat) : ∀ s : State, ns.Nodup → (∀ n ∈ ns, isComp n) →
    let t := ns.foldl (State.visit h) s
    t = { s with comps := t.comps, kli := t.kli } ∧
    (∀ m, t.comp m = if m ∈ ns then visited h m (s.comp m) else s.comp m) ∧
    t.kli = (ns.filterMap fun n => (h n (s.comp n)).map Prod.snd).foldl Kli.post s.kli := by
  induction ns with
  | nil => exact fun s _ _ => ⟨rfl, fun _ => rfl, rfl⟩
  | cons n ns ih =>
    intro s distinct known
    obtain ⟨fresh, rest⟩ := List.nodup_cons.mp distinct
    have read := s.comp_visit h (known n List.mem_cons_self)
    obtain ⟨frame, comps, kli⟩ := ih (s.visit h n) rest fun m hm => known m (List.mem_cons_of_mem n hm)
    have same : ∀ m ∈ ns, (s.visit h n).comp m = s.comp m := fun m hm => by
      rw [read, if_neg fun e : m = n => fresh (e ▸ hm)]
    refine ⟨frame.trans (congrArg (fun u : State => { u with
      comps := (ns.foldl (State.visit h) (s.visit h n)).comps
      kli := (ns.foldl (State.visit h) (s.visit h n)).kli }) (s.visit_frame h n)), fun m => (comps m).trans ?_, kli.trans ?_⟩
    · by_cases hm : m ∈ ns
      · rw [if_pos hm, if_pos (List.mem_cons_of_mem n hm), same m hm]
      · rw [if_neg hm, read]
        by_cases e : m = n
        · rw [if_pos e, if_pos (e ▸ List.mem_cons_self), e]
        · rw [if_neg e, if_neg fun c => (List.mem_cons.mp c).elim e hm]
    · have tail : (ns.filterMap fun m => (h m ((s.visit h n).comp m)).map Prod.snd) =
          ns.filterMap fun m => (h m (s.comp m)).map Prod.snd := List.filterMap_congr fun m hm => by rw [same m hm]
      rw [tail, s.kli_visit h n, ← List.foldl_append]
      cases e : h n (s.comp n) <;> simp [e]

/-- A fold of steps that are visits where the clock and the tariff stand as they do at its beginning. -/
theorem foldl_eq_visits {s : State} (F : State → Nat → State)
    (eq : ∀ (u : State) (n : Nat), u.scu = s.scu → u.tariff = s.tariff → F u n = u.visit h n) (ns : List Nat) :
    ∀ u : State, u.scu = s.scu → u.tariff = s.tariff → ns.foldl F u = ns.foldl (State.visit h) u := by
  induction ns with
  | nil => exact fun _ _ _ => rfl
  | cons n ns ih =>
    intro u scu tariff
    rw [List.foldl_cons, List.foldl_cons, eq u n scu tariff]
    refine ih _ ?_ ?_
    · rw [State.visit_frame]
      exact scu
    · rw [State.visit_frame]
      exact tariff

end

/-! ### What is due at a minute (R96, R146) -/

/-- A reservation that has expired by a minute, freed with its event (R96). -/
def expireMark (m n : Nat) (c : Compartment) : Option (Compartment × EventRec) :=
  match c.state, c.reservation with
  | .RESERVED, some r =>
    if r.expiry ≤ m then
      some ({ c with state := .FREE, reservation := none },
        { kind := .RESERVATION_EXPIRED, minute := m, comp := some n, carrier := some r.carrier, resRef := some r.ref })
    else none
  | _, _ => none

/-- A delivery that is overdue at a minute by its page, marked with its event (R146). -/
def overdueMark (page : Parcel → Page) (m n : Nat) (c : Compartment) : Option (Compartment × EventRec) :=
  match c.state, c.parcel with
  | .LOADED, some p =>
    if p.kind = .DELIVERY ∧ p.overdue = false ∧ p.depositMinute ≤ m ∧ (page p).overdueMin ≤ m - p.depositMinute then
      some ({ c with parcel := some { p with overdue := true } },
        { kind := .PARCEL_OVERDUE, minute := m, comp := some n, carrier := some p.carrier, text := some p.text,
          deposit := some p.depositMinute, page := p.page })
    else none
  | _, _ => none

theorem expireMark_due {m n : Nat} {c : Compartment} {r : Reservation} (state : c.state = .RESERVED)
    (reserved : c.reservation = some r) : expireMark m n c = if r.expiry ≤ m then
      some ({ c with state := .FREE, reservation := none },
        { kind := .RESERVATION_EXPIRED, minute := m, comp := some n, carrier := some r.carrier, resRef := some r.ref })
      else none := by
  unfold expireMark
  rw [state, reserved]

theorem expireMark_other {m n : Nat} {c : Compartment} (state : c.state ≠ .RESERVED) : expireMark m n c = none := by
  unfold expireMark
  split
  · rename_i e _
    exact absurd e state
  · rfl

theorem overdueMark_other {page : Parcel → Page} {m n : Nat} {c : Compartment} (state : c.state ≠ .LOADED) :
    overdueMark page m n c = none := by
  unfold overdueMark
  split
  · rename_i e _
    exact absurd e state
  · rfl

theorem overdueMark_due {page : Parcel → Page} {m n : Nat} {c : Compartment} {p : Parcel} (state : c.state = .LOADED)
    (parcel : c.parcel = some p) : overdueMark page m n c =
      if p.kind = .DELIVERY ∧ p.overdue = false ∧ p.depositMinute ≤ m ∧ (page p).overdueMin ≤ m - p.depositMinute then
        some ({ c with parcel := some { p with overdue := true } },
          { kind := .PARCEL_OVERDUE, minute := m, comp := some n, carrier := some p.carrier, text := some p.text,
            deposit := some p.depositMinute, page := p.page })
      else none := by
  unfold overdueMark
  rw [state, parcel]

/-- A compartment whose reservation has expired is not LOADED after it. -/
theorem visited_expireMark_loaded {m n : Nat} {c : Compartment} :
    (visited (expireMark m) n c).state = .LOADED ↔ c.state = .LOADED := by
  unfold visited
  by_cases state : c.state = .RESERVED
  · cases reserved : c.reservation with
    | none =>
      have none_ : expireMark m n c = none := by
        unfold expireMark
        rw [state, reserved]
      rw [none_]
      rfl
    | some r =>
      rw [expireMark_due state reserved, state]
      split
      · exact iff_of_false (fun e => nomatch e) (fun e => nomatch e)
      · rw [Option.elim_none, state]
  · rw [expireMark_other state]
    rfl

theorem State.expireAt_eq (u : State) (n : Nat) : u.expireAt n = u.visit (expireMark u.now) n := by
  unfold State.expireAt State.visit
  dsimp only
  by_cases state : (u.comp n).state = .RESERVED
  · cases reserved : (u.comp n).reservation with
    | none =>
      unfold expireMark
      rw [state, reserved]
    | some r =>
      rw [expireMark_due state reserved, state]
      dsimp only
      split <;> rfl
  · rw [expireMark_other state]
    split
    · rename_i e _
      exact absurd e state
    · rfl

theorem State.updParcel_eq {s : State} {n : Nat} {p : Parcel} (f : Parcel → Parcel) (parcel : (s.comp n).parcel = some p) :
    s.updParcel n f = s.updComp n fun _ => { s.comp n with parcel := some (f p) } := by
  show s.updComp n (fun _ => { s.comp n with parcel := (s.comp n).parcel.map f }) = _
  rw [parcel]
  rfl

theorem State.overdueAt_eq (u : State) (n : Nat) : u.overdueAt n = u.visit (overdueMark u.parcelPage u.now) n := by
  unfold State.overdueAt State.visit
  dsimp only
  by_cases state : (u.comp n).state = .LOADED
  · cases parcel : (u.comp n).parcel with
    | none =>
      unfold overdueMark
      rw [state, parcel]
    | some p =>
      conv_lhs => rw [state]
      rw [overdueMark_due state parcel]
      dsimp only
      split
      · rw [State.updParcel_eq _ parcel]
        rfl
      · rfl
  · rw [overdueMark_other state]
    split
    · rename_i e _
      exact absurd e state
    · rfl

theorem State.expiryScan_eq (s : State) : s.expiryScan = compNos.foldl (State.visit (expireMark s.now)) s := by
  refine foldl_eq_visits (s := s) (expireMark s.now) State.expireAt (fun u n scu _ => ?_) compNos s rfl rfl
  have now : u.now = s.now := congrArg Scu.minute scu
  rw [u.expireAt_eq, now]

theorem State.overdueEval_eq (s : State) :
    s.overdueEval = compNos.foldl (State.visit (overdueMark s.parcelPage s.now)) s := by
  refine foldl_eq_visits (s := s) (overdueMark s.parcelPage s.now) State.overdueAt (fun u n scu tariff => ?_) compNos s rfl rfl
  have now : u.now = s.now := congrArg Scu.minute scu
  have page : u.parcelPage = s.parcelPage := by
    funext p
    unfold State.parcelPage State.page
    rw [tariff]
  rw [u.overdueAt_eq, now, page]

/-! ### The hand-on (R199) -/

/-- The Tariff Store after the switch test (R134, R135). -/
def Tariff.switchedAt (t : Tariff) (m : Nat) : Tariff :=
  match t.scheduled with
  | some w => if w.minute ≤ m then { t with active := w.page, scheduled := none } else t
  | none => t

/-- The events of the switch test. -/
def Tariff.switchEvents (t : Tariff) (m : Nat) : List EventRec :=
  match t.scheduled with
  | some w => if w.minute ≤ m then
      [{ kind := .TARIFF_SWITCHED, minute := m, page := some w.page, prevPage := some t.active }] else []
  | none => []

theorem State.switchTest_eq (s : State) : s.switchTest = { s with
    tariff := s.tariff.switchedAt s.now
    kli := (s.tariff.switchEvents s.now).foldl Kli.post s.kli } := by
  unfold State.switchTest Tariff.switchedAt Tariff.switchEvents
  cases s.tariff.scheduled with
  | none => rfl
  | some w =>
    dsimp only
    split <;> rfl

theorem Tariff.switchedAt_pages (t : Tariff) (m : Nat) : (t.switchedAt m).pages = t.pages := by
  unfold Tariff.switchedAt
  split
  · split <;> rfl
  · rfl

/-- The events of the expiry scan and of the overdue evaluation at a minute. -/
def State.expiryEvents (s : State) : List EventRec :=
  compNos.filterMap fun n => (expireMark s.now n (s.comp n)).map Prod.snd

def State.overdueEvents (s : State) : List EventRec :=
  compNos.filterMap fun n => (overdueMark s.parcelPage s.now n (visited (expireMark s.now) n (s.comp n))).map Prod.snd

/-- What a hand-on leaves of every compartment. -/
def State.handedComp (s : State) (evaluate : Bool) (n : Nat) : Compartment :=
  let c := visited (expireMark s.now) n (s.comp n)
  if evaluate then visited (overdueMark s.parcelPage s.now) n c else c

/-- The state after the expiry scan, the ageing, the lockout removal and the switch test. -/
theorem State.beforeOverdue_eq (s : State) : let t := s.expiryScan.ageRetired.clearLockouts.switchTest
    t = { s with
      comps := t.comps
      alloc := { s.alloc with retired := s.alloc.retired.filter fun e => decide (s.now - e.minute < Config.retiredAge) }
      gates := s.gates.map fun g => g.unlock s.now
      tariff := s.tariff.switchedAt s.now
      kli := (s.expiryEvents ++ s.tariff.switchEvents s.now).foldl Kli.post s.kli } ∧
    ∀ m, isComp m → t.comp m = visited (expireMark s.now) m (s.comp m) := by
  obtain ⟨frame, comps, kli⟩ := State.visits_spec (expireMark s.now) compNos s nodup_compNos fun n hn => mem_compNos.mp hn
  rw [← s.expiryScan_eq] at frame comps kli
  generalize s.expiryScan = u at frame comps kli
  obtain ⟨cs, k, rfl⟩ : ∃ cs k, u = { s with comps := cs, kli := k } := ⟨_, _, frame⟩
  dsimp only at kli
  subst kli
  dsimp only
  rw [State.switchTest_eq]
  refine ⟨?_, fun m hm => (comps m).trans (if_pos (mem_compNos.mpr hm))⟩
  rw [List.foldl_append]
  rfl

theorem State.handOn_eq (s : State) (evaluate : Bool) : let t := s.handOn evaluate
    t = { s with
      comps := t.comps
      alloc := { s.alloc with retired := s.alloc.retired.filter fun e => decide (s.now - e.minute < Config.retiredAge) }
      gates := s.gates.map fun g => g.unlock s.now
      tariff := s.tariff.switchedAt s.now
      kli := (s.expiryEvents ++ s.tariff.switchEvents s.now ++ if evaluate then s.overdueEvents else []).foldl Kli.post
        s.kli } ∧
    ∀ m, isComp m → t.comp m = s.handedComp evaluate m := by
  obtain ⟨frame, comps⟩ := s.beforeOverdue_eq
  dsimp only at frame comps
  unfold State.handOn
  dsimp only
  generalize s.expiryScan.ageRetired.clearLockouts.switchTest = v at frame comps
  cases evaluate with
  | false =>
    rw [if_neg Bool.false_ne_true, if_neg Bool.false_ne_true, List.append_nil]
    exact ⟨frame, comps⟩
  | true =>
    obtain ⟨cs, e⟩ : ∃ cs, v = { s with
      comps := cs
      alloc := { s.alloc with retired := s.alloc.retired.filter fun e => decide (s.now - e.minute < Config.retiredAge) }
      gates := s.gates.map fun g => g.unlock s.now
      tariff := s.tariff.switchedAt s.now
      kli := (s.expiryEvents ++ s.tariff.switchEvents s.now).foldl Kli.post s.kli } := ⟨_, frame⟩
    have page : v.parcelPage = s.parcelPage := by
      funext p
      unfold State.parcelPage State.page
      rw [e]
      dsimp only
      rw [Tariff.switchedAt_pages]
    have now : v.now = s.now := by rw [e]; rfl
    obtain ⟨after, later, kli⟩ := State.visits_spec (overdueMark s.parcelPage s.now) compNos v nodup_compNos
      fun n hn => mem_compNos.mp hn
    rw [if_pos rfl, v.overdueEval_eq, page, now]
    have events : (compNos.filterMap fun n => (overdueMark s.parcelPage s.now n (v.comp n)).map Prod.snd) =
        s.overdueEvents := List.filterMap_congr fun n hn => by rw [comps n (mem_compNos.mp hn)]
    rw [events] at kli
    refine ⟨?_, fun m hm => (later m).trans ((if_pos (mem_compNos.mpr hm)).trans (by rw [comps m hm]; rfl))⟩
    refine after.trans ?_
    rw [kli, e, if_pos rfl, List.foldl_append (l := _ ++ _)]

/-! ### The parts of a hand-on, read from outside -/

theorem State.handedComp_unloaded {s : State} {n : Nat} (evaluate : Bool) (state : (s.comp n).state ≠ .LOADED) :
    s.handedComp evaluate n = visited (expireMark s.now) n (s.comp n) := by
  have other : (visited (expireMark s.now) n (s.comp n)).state ≠ .LOADED := fun e => state (visited_expireMark_loaded.mp e)
  unfold State.handedComp
  cases evaluate with
  | false => rfl
  | true =>
    conv_lhs => unfold visited
    dsimp only
    rw [if_pos rfl]
    have none_ := overdueMark_other (page := s.parcelPage) (m := s.now) (n := n) other
    unfold visited at none_
    rw [none_]
    rfl

theorem visited_expireMark_unreserved {m n : Nat} {c : Compartment} (state : c.state ≠ .RESERVED) :
    visited (expireMark m) n c = c := by
  unfold visited
  rw [expireMark_other state]
  rfl

/-- A reservation at a hand-on (R96). -/
theorem State.handedComp_reserved {s : State} {n : Nat} {r : Reservation} (evaluate : Bool)
    (state : (s.comp n).state = .RESERVED) (reserved : (s.comp n).reservation = some r) :
    s.handedComp evaluate n = if r.expiry ≤ s.now then { s.comp n with state := .FREE, reservation := none } else s.comp n := by
  rw [State.handedComp_unloaded evaluate (by rw [state]; decide)]
  unfold visited
  rw [expireMark_due state reserved]
  split <;> rfl

theorem State.handedComp_other {s : State} {n : Nat} (evaluate : Bool) (unreserved : (s.comp n).state ≠ .RESERVED)
    (unloaded : (s.comp n).state ≠ .LOADED) : s.handedComp evaluate n = s.comp n := by
  rw [State.handedComp_unloaded evaluate unloaded, visited_expireMark_unreserved unreserved]

/-- A delivery at a hand-on (R146). -/
theorem State.handedComp_loaded {s : State} {n : Nat} {x : Parcel} (q : Prop) [Decidable q]
    (state : (s.comp n).state = .LOADED) (parcel : (s.comp n).parcel = some x) (delivery : x.kind = .DELIVERY)
    (fresh : x.overdue = false) (past : x.depositMinute ≤ s.now) : s.handedComp (decide q) n = { s.comp n with
      parcel := some { x with overdue := decide (q ∧ (s.parcelPage x).overdueMin ≤ s.now - x.depositMinute) } } := by
  have same : ∀ b : Bool, b = false → s.comp n = { s.comp n with parcel := some { x with overdue := b } } := by
    rintro b rfl
    rw [← fresh, ← parcel]
  unfold State.handedComp
  dsimp only
  rw [visited_expireMark_unreserved (by rw [state]; decide)]
  by_cases hq : q
  · rw [if_pos (decide_eq_true hq)]
    unfold visited
    rw [overdueMark_due state parcel]
    by_cases late : (s.parcelPage x).overdueMin ≤ s.now - x.depositMinute
    · rw [if_pos ⟨delivery, fresh, past, late⟩, decide_eq_true (show q ∧ _ from ⟨hq, late⟩)]
      rfl
    · rw [if_neg fun c => late c.2.2.2]
      exact same _ (decide_eq_false fun c => late c.2)
  · rw [if_neg fun c => hq (of_decide_eq_true c)]
    exact same _ (decide_eq_false fun c => hq c.1)

theorem Gate.unlock_eq (g : Gate) (m : Nat) : (g.lockout = none → g.unlock m = g) ∧
    ∀ e, g.lockout = some e → g.unlock m = if e ≤ m then { g with lockout := none } else g := by
  unfold Gate.unlock
  refine ⟨fun h => ?_, fun e h => ?_⟩ <;> rw [h]

/-- A sum of two counts of entries that exclude each other. -/
theorem List.countP_add_countP_le {α : Type} {p q r : α → Bool} (l : List α) (hp : ∀ x, p x = true → r x = true)
    (hq : ∀ x, q x = true → r x = true) (apart : ∀ x, p x = true → q x = false) :
    l.countP p + l.countP q ≤ l.countP r := by
  induction l with
  | nil => exact Nat.le_refl 0
  | cons x l ih =>
    have head : (if p x = true then 1 else 0) + (if q x = true then 1 else 0) ≤ if r x = true then 1 else 0 := by
      by_cases h : p x = true
      · rw [if_pos h, if_neg (Bool.eq_false_iff.mp (apart x h)), if_pos (hp x h)]
      · rw [if_neg h, Nat.zero_add]
        by_cases k : q x = true
        · rw [if_pos k, if_pos (hq x k)]
        · rw [if_neg k]
          exact Nat.zero_le _
    simp only [List.countP_cons]
    omega

/-- With room in the event queue a hand-on posts all that is due (R191). -/
theorem State.handedOn_events {s : State} (m : Nat) (now : s.now = m)
    (room : s.kli.queue.length +
      compNos.countP (fun n => decide ((s.comp n).state = .RESERVED ∨ (s.comp n).state = .LOADED)) + 1 ≤ 64)
    (evaluate : Bool) : (s.handOn evaluate).kli.queue = s.kli.queue ++ (s.expiryEvents ++ s.tariff.switchEvents m ++
      if evaluate then s.overdueEvents else []) := by
  obtain ⟨frame, -⟩ := s.handOn_eq evaluate
  have kli : (s.handOn evaluate).kli = _ := (congrArg State.kli frame :)
  have expired : s.expiryEvents.length = compNos.countP fun n => (expireMark s.now n (s.comp n)).isSome := by
    unfold State.expiryEvents
    rw [List.length_filterMap_eq_countP]
    simp
  have overdue : s.overdueEvents.length = compNos.countP fun n =>
      (overdueMark s.parcelPage s.now n (visited (expireMark s.now) n (s.comp n))).isSome := by
    unfold State.overdueEvents
    rw [List.length_filterMap_eq_countP]
    simp
  have switched : (s.tariff.switchEvents s.now).length ≤ 1 := by
    unfold Tariff.switchEvents
    split
    · split <;> simp
    · simp
  have both := List.countP_add_countP_le compNos
    (p := fun n => (expireMark s.now n (s.comp n)).isSome)
    (q := fun n => (overdueMark s.parcelPage s.now n (visited (expireMark s.now) n (s.comp n))).isSome)
    (r := fun n => decide ((s.comp n).state = .RESERVED ∨ (s.comp n).state = .LOADED))
    (fun n due => decide_eq_true (Or.inl (by
      by_contra other
      rw [expireMark_other other] at due
      cases due)))
    (fun n due => decide_eq_true (Or.inr (by
      by_contra other
      rw [overdueMark_other fun e => other (visited_expireMark_loaded.mp e)] at due
      cases due)))
    (fun n due => by
      have reserved : (s.comp n).state = .RESERVED := by
        by_contra other
        rw [expireMark_other other] at due
        cases due
      rw [overdueMark_other fun e => ?_]
      · rfl
      · have loaded := visited_expireMark_loaded.mp e
        rw [reserved] at loaded
        cases loaded)
  rw [kli, now, Kli.queue_posts]
  rw [now] at switched
  have last : (if evaluate = true then s.overdueEvents else []).length ≤ s.overdueEvents.length := by
    split
    · exact Nat.le_refl _
    · exact Nat.zero_le _
  simp only [List.length_append]
  omega

theorem State.parcelPage_of {s : State} {x : Parcel} {i : Fin 4} {pg : Page} (named : x.page = some i)
    (loaded : s.page i = some pg) : s.parcelPage x = pg := by
  unfold State.parcelPage
  rw [named]
  dsimp only
  rw [loaded]
  rfl

/-- The events of a hand-on (R96, R135, R146). -/
theorem State.handOn_posts (s : State) (q : Prop) [Decidable q] (room : s.kli.queue.length +
      compNos.countP (fun n => decide ((s.comp n).state = .RESERVED ∨ (s.comp n).state = .LOADED)) + 1 ≤ 64) :
    let t := s.handOn (decide q)
    s.kli.queue <+: t.kli.queue ∧
    (∀ n r, isComp n → (s.comp n).state = .RESERVED → (s.comp n).reservation = some r → r.expiry ≤ s.now →
      { kind := .RESERVATION_EXPIRED, minute := s.now, comp := some n, carrier := some r.carrier, resRef := some r.ref } ∈
        t.kli.queue) ∧
    (∀ w, s.tariff.scheduled = some w → w.minute ≤ s.now →
      { kind := .TARIFF_SWITCHED, minute := s.now, page := some w.page, prevPage := some s.tariff.active } ∈ t.kli.queue) ∧
    (∀ n x i pg, isComp n → (s.comp n).state = .LOADED → (s.comp n).parcel = some x → x.kind = .DELIVERY →
      x.page = some i → s.page i = some pg → x.overdue = false → x.depositMinute ≤ s.now →
      q ∧ pg.overdueMin ≤ s.now - x.depositMinute →
      { kind := .PARCEL_OVERDUE, minute := s.now, comp := some n, carrier := some x.carrier, text := some x.text,
        deposit := some x.depositMinute, page := some i } ∈ t.kli.queue) := by
  have queue := State.handedOn_events s.now rfl room (decide q)
  refine ⟨⟨_, queue.symm⟩, fun n r known state reserved due => ?_, fun w scheduled due => ?_,
    fun n x i pg known state parcel delivery hx hp fresh past late => ?_⟩ <;> rw [queue]
  · refine List.mem_append_right _ (List.mem_append_left _ (List.mem_append_left _ ?_))
    refine List.mem_filterMap.mpr ⟨n, mem_compNos.mpr known, ?_⟩
    rw [expireMark_due state reserved, if_pos due]
    rfl
  · refine List.mem_append_right _ (List.mem_append_left _ (List.mem_append_right _ ?_))
    unfold Tariff.switchEvents
    rw [scheduled]
    dsimp only
    rw [if_pos due]
    exact List.mem_singleton_self _
  · refine List.mem_append_right _ (List.mem_append_right _ ?_)
    rw [if_pos (decide_eq_true late.1)]
    refine List.mem_filterMap.mpr ⟨n, mem_compNos.mpr known, ?_⟩
    rw [visited_expireMark_unreserved (by rw [state]; decide), overdueMark_due state parcel, State.parcelPage_of hx hp,
      if_pos ⟨delivery, fresh, past, late.2⟩, ← hx]
    rfl

/-- What a hand-on leaves (R199). -/
theorem State.handedOn_handOn (s : State) (q : Prop) [Decidable q] : s.handedOn (s.handOn (decide q)) s.now q := by
  obtain ⟨frame, comps⟩ := s.handOn_eq (decide q)
  have all : ∀ n, (s.handOn (decide q)).comp n = s.handedComp (decide q) n := fun n => by
    by_cases known : isComp n
    · exact comps n known
    · have out := s.comp_outside known
      rw [State.comp_outside _ known, State.handedComp_other _ (by rw [out]; decide) (by rw [out]; decide), out]
  have gates : (s.handOn (decide q)).gates = _ := (congrArg State.gates frame :)
  have gate : ∀ st, (s.handOn (decide q)).gate st = (s.gate st).unlock s.now := fun st => by
    unfold State.gate
    rw [gates, tget_map s.gates { wrong := [], lockout := none } (fun g => g.unlock s.now) st]
    split
    · rfl
    · rw [tget_outside s.gates _ (by omega)]
      rfl
  refine ⟨?_, fun n r state reserved => (all n).trans (State.handedComp_reserved _ state reserved),
    fun n x i pg state parcel delivery hx hp fresh past => ?_, fun n unreserved unloaded =>
      (all n).trans (State.handedComp_other _ unreserved unloaded), ?_, fun st open_ => (gate st).trans
      ((Gate.unlock_eq _ _).1 open_), fun st e locked => (gate st).trans ((Gate.unlock_eq _ _).2 e locked), ?_,
    fun room => ?_⟩
  · obtain ⟨cs, al, ga, ta, k, e⟩ : ∃ cs al ga ta k, s.handOn (decide q) =
        { s with comps := cs, alloc := al, gates := ga, tariff := ta, kli := k } := ⟨_, _, _, _, _, frame⟩
    rw [e]
  · rw [← State.parcelPage_of hx hp]
    exact (all n).trans (State.handedComp_loaded q state parcel delivery fresh past)
  · refine (congrArg State.alloc frame :).trans (congrArg (fun l => { s.alloc with retired := l }) ?_)
    refine List.filter_congr fun e _ => ?_
    have age : Config.retiredAge = 2880 := rfl
    rw [decide_eq_decide, age]
    omega
  · exact (congrArg State.tariff frame :)
  · exact State.handOn_posts s q (by omega)

theorem State.handOn_scu (s : State) (evaluate : Bool) : (s.handOn evaluate).scu = s.scu :=
  (congrArg State.scu (s.handOn_eq evaluate).1 :)

theorem State.clockAdvance_advances {s : State} (n : Nat) (running : s.scu.phase = none) (gap : s.scu.timeGap = true) :
    let m := addMin s.now (clamp 1 10080 n)
    s.clockAdvance n = ⟨(s.updScu fun u => { u with minute := m, persisted := m, timeGap := false }).handOn
      (quarterCrossed s.now m), .OK, .advanced (clamp 1 10080 n) m⟩ := by
  intro m
  unfold State.clockAdvance
  rw [if_neg (show ¬ s.starting = true by rw [State.starting_iff, running]; exact fun e => e rfl),
    if_neg (by rw [gap]; decide)]

/-- A hand-on after the clock alone has changed, with the reply formed after it. -/
theorem State.handedOn_replied {s u : State} {c : Scu} {k : Kli} {m : Nat} {q : Prop} [Decidable q]
    (h : ({ s with scu := c, kli := k } : State).handedOn u m q) (queue : k.queue = s.kli.queue) (r : Option Reply) :
    s.handedOn (u.updKli fun x => { x with reply := r }) m q := by
  obtain ⟨frame, freed, overdue, others, alloc, unlocked, locked, tariff, events⟩ := h
  dsimp only at events
  rw [queue] at events
  exact ⟨(congrArg (fun v : State => v.updKli fun x => { x with reply := r }) frame :), freed, overdue, others, alloc,
    unlocked, locked, tariff, events⟩

/-- Settles O24. -/
theorem clockAdvanceRaisesTheCounter : Obligations.ClockAdvanceRaisesTheCounter := by
  intro h p n s a hp running gap d m
  have run : exec (.clockAdvance h p) s = .next (s.takeRequest h 5 p .nat16 fun n s => s.clockAdvance n) := rfl
  rw [State.takeRequest_of a hp rfl (State.clockAdvance_advances (s := s.took h) n running gap) (by simp)] at run
  have handed := ((s.took h).updScu fun u => { u with minute := m, persisted := m, timeGap := false }).handedOn_handOn
    (s.now / 15 < m / 15)
  exact ⟨_, run, rfl, State.handOn_scu _ _, State.handedOn_replied handed rfl _⟩

end Sys2Proof.Machine
end

