-- ==== Sys2Proof/Proofs/TopUps.lean ====
section
/-! The top-up of a sweep run; SWEEP and SWEEP_CANCEL (R174, R178 to R180, R182, R183). -/

namespace Sys2Proof.Machine

open Sys2Proof

/-! ### The test of a pending entry (R174, R180) -/

/-- The entry passes the test of R174 under the run's station. -/
def State.tested (s : State) (k : Courier) (e : TagEntry) : Bool :=
  s.eligible e.comp e.filter e.carrier && decide ((s.comp e.comp).tagOwner = some k)

/-- The entry passes the test and its compartment resolves. -/
def State.sweeps (s : State) (k : Courier) (e : TagEntry) : Bool :=
  s.tested k e && (match s.resolution e.comp with | .ok _ _ => true | _ => false)

theorem State.sweeps_ok {s : State} {k : Courier} {e : TagEntry} {a : Addr} {u : Nat} (ok : s.resolution e.comp = .ok a u) :
    s.sweeps k e = s.tested k e := by
  unfold State.sweeps
  rw [ok]
  exact Bool.and_true _

theorem State.sweeps_failed {s : State} {k : Courier} {e : TagEntry} (failed : ∀ a u, s.resolution e.comp ≠ .ok a u) :
    s.sweeps k e = false := by
  unfold State.sweeps
  cases r : s.resolution e.comp with
  | ok a u => exact absurd r (failed a u)
  | unreachable => exact Bool.and_false _
  | mapFault a => exact Bool.and_false _

theorem State.sweeps_untested {s : State} {k : Courier} {e : TagEntry} (untested : s.tested k e = false) :
    s.sweeps k e = false := by
  unfold State.sweeps
  rw [untested]
  rfl

/-- A resolution reads the slots of the links, not their queues. -/
theorem State.resolution_congr_slots {s t : State} {n : Nat} (field : (t.comp n).sect = (s.comp n).sect)
    (sects : t.sects = s.sects) (map : t.hatchMap = s.hatchMap) (slot : ∀ l k, t.slot l k = s.slot l k)
    (scu : t.scu = s.scu) : t.resolution n = s.resolution n := by
  have sect : ∀ i, t.sect i = s.sect i := fun i => by simp only [State.sect, sects]
  have entry : t.mapEntry n = s.mapEntry n := by simp only [State.mapEntry, map]
  have fitted : ∀ l, t.linkFitted l = s.linkFitted l := fun l => by
    unfold State.linkFitted State.numLinks
    rw [scu]
  unfold State.resolution State.located State.reach
  simp only [field, sect, entry, fitted, slot]

/-- The test of an entry reads its compartment, the sections and whether the compartment has an operation. -/
theorem State.tested_congr {s t : State} {k : Courier} {e : TagEntry} (comp : t.comp e.comp = s.comp e.comp)
    (sects : t.sects = s.sects) (hasOp : t.hasOp e.comp = s.hasOp e.comp) : t.tested k e = s.tested k e := by
  have held : t.heldRec (s.comp e.comp) = s.heldRec (s.comp e.comp) := by
    unfold State.heldRec State.sectHeld State.sect
    rw [sects]
  unfold State.tested State.eligible
  dsimp only
  rw [comp, hasOp, held]

theorem State.tested_owner {s : State} {k : Courier} {e : TagEntry} (h : s.tested k e = true) :
    (s.comp e.comp).tagOwner = some k := of_decide_eq_true (Bool.and_eq_true_iff.mp h).2

theorem State.tested_alone {s : State} {k : Courier} {e : TagEntry} (h : s.tested k e = true) : s.hasOp e.comp = false := by
  obtain ⟨eligible, -⟩ := Bool.and_eq_true_iff.mp h
  obtain ⟨-, alone⟩ := Bool.and_eq_true_iff.mp eligible
  exact Bool.not_eq_true' _ ▸ alone

/-- The compartment of an entry that passes the test is one of the table. -/
theorem State.tested_known {s : State} {k : Courier} {e : TagEntry} (h : s.tested k e = true) : isComp e.comp := by
  by_contra out
  have owner := State.tested_owner h
  rw [s.comp_outside out] at owner
  cases owner

/-! ### What a top-up leaves, entry by entry -/

/-- The record of a compartment whose entry was dropped: no tag owner, and MAP_CHECK where its resolution ended MAP_FAULT. -/
def State.droppedComp (s : State) (k : Courier) (e : TagEntry) : Compartment :=
  { s.comp e.comp with
    tagOwner := none
    causes := match s.tested k e, s.resolution e.comp with
      | true, .mapFault _ => (s.comp e.comp).causes.add .MAP_CHECK
      | _, _ => (s.comp e.comp).causes }

/-- A top-up has taken the entries `gone` of a run, made the operations `made` and left `rest` pending (R180). -/
structure State.Topped (s u : State) (k : Courier) (r : Run) (gone rest : List TagEntry) (made : List Op) : Prop where
  short : made.length ≤ gone.length
  frame : u = { s with
    comps := u.comps, links := u.links, capture := u.capture, hce := u.hce, swu := u.swu, kli := u.kli }
  run : u.side k = { s.side k with
    run := some { r with pending := rest, skipped := r.skipped + (gone.length - made.length) } }
  other : u.side k.other = s.side k.other
  ops : u.hce.ops = s.hce.ops ++ made
  each : ∀ o ∈ made, o.purpose = .SWEEP ∧ o.station = k.station ∧ o.stage = .QUEUED ∧
    s.resolution o.comp = .ok ⟨o.link, o.slot, o.channel⟩ o.units ∧ ∃ e ∈ gone, e.comp = o.comp ∧ s.sweeps k e = true
  links : ∀ l, u.link l = { s.link l with
    bulk := (s.link l).bulk ++ (made.filter fun o => o.link == l).map (·.job) }
  comps : ∀ n, (∀ e ∈ gone, e.comp ≠ n) → u.comp n = s.comp n
  distinct : (gone.map (·.comp)).Nodup → made.map (·.comp) = (gone.filter (s.sweeps k)).map (·.comp) ∧
    ∀ e ∈ gone, u.comp e.comp = if s.sweeps k e then s.comp e.comp else s.droppedComp k e
  field : ∀ n, (u.comp n).sect = (s.comp n).sect

theorem State.Topped.resolution {s u : State} {k : Courier} {r : Run} {gone rest : List TagEntry} {made : List Op}
    (h : s.Topped u k r gone rest made) (n : Nat) : u.resolution n = s.resolution n := by
  have slot : ∀ l j, u.slot l j = s.slot l j := fun l j => by
    unfold State.slot
    rw [h.links l]
    rfl
  exact State.resolution_congr_slots (h.field n) (congrArg State.sects h.frame :) (congrArg State.hatchMap h.frame :) slot
    (congrArg State.scu h.frame :)

theorem State.Topped.nothing {s : State} {k : Courier} {r : Run} {rest : List TagEntry} (run : (s.side k).run = some r)
    (pending : r.pending = rest) : s.Topped s k r [] rest [] where
  short := Nat.le_refl 0
  frame := rfl
  run := by
    have same : ({ r with pending := rest, skipped := r.skipped + (0 - 0) } : Run) = r := by
      rw [← pending]
      rfl
    show _ = { s.side k with run := some { r with pending := rest, skipped := r.skipped + (0 - 0) } }
    rw [same, ← run]
  other := rfl
  ops := (List.append_nil _).symm
  each := fun _ h => nomatch h
  links := fun l => by rw [List.filter_nil, List.map_nil, List.append_nil]
  comps := fun _ _ => rfl
  distinct := fun _ => ⟨rfl, fun _ h => nomatch h⟩
  field := fun _ => rfl

/-- The operation of a compartment among those of a table with more at its end. -/
theorem State.hasOp_append {s u : State} {made : List Op} (ops : u.hce.ops = s.hce.ops ++ made) (n : Nat) :
    u.hasOp n = (s.hasOp n || made.any fun o => o.comp == n) := by
  unfold State.hasOp State.opOn
  rw [ops, List.find?_append, Option.isSome_or]
  congr 1
  rw [Bool.eq_iff_iff, List.find?_isSome, List.any_eq_true]

/-- One entry taken, then others: the test of an entry sees only what happened to its own compartment. -/
theorem State.Topped.then {s v u : State} {k : Courier} {r : Run} {e : TagEntry} {es gone rest : List TagEntry}
    {first made : List Op} (h : s.Topped v k r [e] es first)
    (spent : ∀ e', e'.comp = e.comp → v.tested k e' = false)
    (h' : v.Topped u k { r with pending := es, skipped := r.skipped + (1 - first.length) } gone rest made) :
    s.Topped u k r (e :: gone) rest (first ++ made) := by
  have own : ∀ o ∈ first, o.comp = e.comp := fun o ho => by
    obtain ⟨-, -, -, -, e', he', same, -⟩ := h.each o ho
    rw [← same, List.mem_singleton.mp he']
  have tested : ∀ e', e'.comp ≠ e.comp → v.tested k e' = s.tested k e' := fun e' other => by
    refine State.tested_congr (h.comps _ fun x hx => ?_) (congrArg State.sects h.frame :) ?_
    · rw [List.mem_singleton.mp hx]
      exact fun c => other c.symm
    · rw [State.hasOp_append h.ops, (List.any_eq_false.mpr fun o ho => ?_), Bool.or_false]
      rw [own o ho]
      simpa using fun c => other c.symm
  have sweeps : ∀ e', e'.comp ≠ e.comp → v.sweeps k e' = s.sweeps k e' := fun e' other => by
    unfold State.sweeps
    rw [tested e' other, h.resolution]
  refine ⟨?_, ?_, ?_, ?_, ?_, ?_, fun l => ?_, fun n others => ?_, fun distinct => ?_, fun n => ?_⟩
  · have := h.short
    have := h'.short
    simp only [List.length_cons, List.length_append, List.length_nil] at *
    omega
  · refine h'.frame.trans (congrArg (fun w : State => { w with
      comps := u.comps, links := u.links, capture := u.capture, hce := u.hce, swu := u.swu, kli := u.kli }) h.frame)
  · have one := h.short
    have more := h'.short
    rw [h'.run, h.run]
    have sum : r.skipped + (1 - first.length) + (gone.length - made.length) =
        r.skipped + ((e :: gone).length - (first ++ made).length) := by
      simp only [List.length_cons, List.length_append, List.length_nil] at *
      omega
    dsimp only
    rw [sum]
  · exact h'.other.trans h.other
  · rw [h'.ops, h.ops, List.append_assoc]
  · intro o ho
    rcases List.mem_append.mp ho with ho | ho
    · obtain ⟨pu, st, stage, reach, e', he', same, fit⟩ := h.each o ho
      exact ⟨pu, st, stage, reach, e', List.mem_cons.mpr (.inl (List.mem_singleton.mp he')), same, fit⟩
    · obtain ⟨pu, st, stage, reach, e', he', same, fit⟩ := h'.each o ho
      refine ⟨pu, st, stage, (h.resolution _).symm.trans reach, e', List.mem_cons_of_mem e he', same, ?_⟩
      rw [← sweeps e' fun c => ?_]
      · exact fit
      · rw [State.sweeps_untested (spent e' c)] at fit
        cases fit
  · rw [h'.links l, h.links l, List.filter_append, List.map_append, List.append_assoc]
  · refine (h'.comps n fun x hx => others x (List.mem_cons_of_mem e hx)).trans (h.comps n fun x hx => ?_)
    exact others x (List.mem_cons.mpr (.inl (List.mem_singleton.mp hx)))
  · obtain ⟨fresh, rest_⟩ := List.nodup_cons.mp distinct
    obtain ⟨ops, comps⟩ := h.distinct (List.nodup_singleton _)
    obtain ⟨ops', comps'⟩ := h'.distinct rest_
    have other : ∀ x ∈ gone, x.comp ≠ e.comp := fun x hx c => fresh (List.mem_map.mpr ⟨x, hx, c⟩)
    refine ⟨?_, fun x hx => ?_⟩
    · have rest_ : gone.filter (v.sweeps k) = gone.filter (s.sweeps k) :=
        List.filter_congr fun x hx => sweeps x (other x hx)
      rw [List.map_append, ops, ops', rest_, ← List.map_append, ← List.filter_append]
      rfl
    · rcases List.mem_cons.mp hx with rfl | hx
      · rw [h'.comps x.comp other]
        exact comps x (List.mem_singleton_self x)
      · have same : v.comp x.comp = s.comp x.comp := h.comps _ fun y hy => by
          rw [List.mem_singleton.mp hy]
          exact fun c => other x hx c.symm
        rw [comps' x hx, sweeps x (other x hx), same]
        unfold State.droppedComp
        rw [same, tested x (other x hx), h.resolution]
  · rw [h'.field, h.field]

/-! ### One entry (R180) -/

theorem State.side_updRun_self {s : State} {k : Courier} {r : Run} (f : Run → Run) (run : (s.side k).run = some r) :
    (s.updRun k f).side k = { s.side k with run := some (f r) } := by
  unfold State.updRun
  rw [State.side_updSide_self, run]
  rfl

theorem State.updRun_frame (s : State) (k : Courier) (f : Run → Run) : s.updRun k f = { s with swu := (s.updRun k f).swu } := by
  cases k <;> rfl

theorem State.comp_updRun (s : State) (k : Courier) (f : Run → Run) (n : Nat) : (s.updRun k f).comp n = s.comp n := by
  rw [State.updRun_frame]
  rfl

/-- An entry that passes the test and finds room is made an operation at the tail of its link's bulk queue. -/
theorem State.topped_made {s t : State} {k : Courier} {r : Run} {e : TagEntry} {es : List TagEntry} {a : Addr} {u job : Nat}
    (run : (s.side k).run = some r) (passes : s.tested k e = true) (resolves : s.resolution e.comp = .ok a u)
    (made : s.createOp .SWEEP k.station e.comp a u .QUEUED = some (t, job)) :
    s.Topped (t.updRun k fun r => { r with pending := es }) k r [e] es
      [newOp s.nextJob .SWEEP k.station e.comp a u .QUEUED] := by
  have frame := State.createOp_frame made
  obtain ⟨-, hce⟩ := State.createOp_hce made
  have known := State.resolution_ok_link resolves
  have comp : ∀ n, (t.updRun k fun r => { r with pending := es }).comp n = s.comp n := fun n => by
    rw [State.comp_updRun, frame]
    rfl
  have side : ∀ j, t.side j = s.side j := fun j => by
    rw [frame]
    cases j <;> rfl
  have run' : (t.side k).run = some r := by rw [side, run]
  have fits : s.sweeps k e = true := (State.sweeps_ok resolves).trans passes
  refine ⟨Nat.le_refl 1, ?_, ?_, ?_, ?_, fun o ho => ?_, fun l => ?_, fun n _ => comp n, fun _ => ⟨?_, fun x hx => ?_⟩,
    fun n => congrArg Compartment.sect (comp n)⟩
  · obtain ⟨hc, li, e⟩ : ∃ hc li, t = { s with hce := hc, links := li } := ⟨_, _, frame⟩
    rw [e]
    cases k <;> rfl
  · rw [State.side_updRun_self _ run', side]
    rfl
  · exact (State.side_updSide_other _ _ _).trans (side _)
  · rw [State.updRun_frame]
    exact congrArg Hce.ops hce
  · rw [List.mem_singleton.mp ho]
    exact ⟨rfl, rfl, rfl, resolves, e, List.mem_singleton_self e, rfl, fits⟩
  · have read : (t.updRun k fun r => { r with pending := es }).link l = t.link l := by
      rw [State.updRun_frame]
      rfl
    rw [read, State.createOp_link made]
    by_cases own : a.link = l
    · rw [if_pos ⟨by decide, own, known⟩]
      simp [Link.join, newOp, own]
    · rw [if_neg fun c => own c.2.1]
      simp [newOp, own]
  · simp [newOp, fits]
  · rw [List.mem_singleton.mp hx, fits, comp]
    rfl

/-- An entry that does not sweep is dropped: its tag owner cleared, counted skipped. -/
theorem State.topped_dropped {s w : State} {k : Courier} {r : Run} {e : TagEntry} {es : List TagEntry}
    (run : (s.side k).run = some r) (marked : s.mapMarked w) (others : ∀ n, n ≠ e.comp → w.comp n = s.comp n)
    (swu : w.swu = s.swu) (fails : s.sweeps k e = false)
    (own : { w.comp e.comp with tagOwner := none } = s.droppedComp k e) :
    s.Topped (w.dropPending k e.comp es) k r [e] es [] := by
  obtain ⟨frame, -⟩ := marked
  have side : ∀ j, w.side j = s.side j := fun j => by cases j <;> simp only [State.side, swu]
  have run' : ((w.updComp e.comp fun x => { x with tagOwner := none }).side k).run = some r := (congrArg SweepSide.run (side k)).trans run
  have comp : ∀ n, (w.dropPending k e.comp es).comp n = if n = e.comp then s.droppedComp k e else s.comp n := fun n => by
    have read : (w.dropPending k e.comp es).comp n = (w.updComp e.comp fun x => { x with tagOwner := none }).comp n :=
      State.comp_updRun _ _ _ _
    rw [read]
    by_cases here : n = e.comp
    · rw [if_pos here, here, ← own]
      by_cases known : isComp e.comp
      · exact State.comp_updComp_self w _ known.1 known.2
      · rw [State.comp_outside _ known, State.comp_outside _ known]
        rfl
    · rw [if_neg here, State.comp_updComp_ne w _ (Ne.symm here), others n here]
  refine ⟨Nat.zero_le 1, ?_, ?_, ?_, ?_, (fun _ h => nomatch h), fun l => ?_, fun n h => ?_, fun _ => ⟨?_, fun x hx => ?_⟩,
    fun n => ?_⟩
  · obtain ⟨cs, ca, kl, e⟩ : ∃ cs ca kl, w = { s with comps := cs, capture := ca, kli := kl } := ⟨_, _, _, frame⟩
    rw [e]
    cases k <;> rfl
  · refine (State.side_updRun_self _ run').trans ?_
    have same : (w.updComp e.comp fun x => { x with tagOwner := none }).side k = s.side k := side k
    rw [same]
    rfl
  · exact (State.side_updSide_other _ _ _).trans (side _)
  · have ops : (w.dropPending k e.comp es).hce = w.hce := by cases k <;> rfl
    rw [ops, frame, List.append_nil]
  · have read : (w.dropPending k e.comp es).link l = s.link l := by
      have links : (w.dropPending k e.comp es).links = w.links := by cases k <;> rfl
      unfold State.link
      rw [links, frame]
    rw [read, List.filter_nil, List.map_nil, List.append_nil]
  · rw [comp, if_neg fun c => h e (List.mem_singleton_self e) c.symm]
  · rw [List.filter_singleton, fails]
    rfl
  · rw [List.mem_singleton.mp hx, fails, comp, if_pos rfl]
    rfl
  · rw [comp]
    split
    · rename_i c
      rw [c]
      rfl
    · rfl

/-- The entry taken can not be taken again. -/
theorem State.tested_after_dropped {w : State} {k : Courier} {n : Nat} {es : List TagEntry} (e' : TagEntry)
    (same : e'.comp = n) : (w.dropPending k n es).tested k e' = false := by
  have owner : ((w.dropPending k n es).comp n).tagOwner = none := by
    have read : (w.dropPending k n es).comp n = (w.updComp n fun x => { x with tagOwner := none }).comp n :=
      State.comp_updRun _ _ _ _
    rw [read]
    by_cases known : isComp n
    · rw [State.comp_updComp_self w _ known.1 known.2]
    · rw [State.comp_outside _ known]
      rfl
  unfold State.tested
  rw [same, owner]
  exact Bool.and_false _

theorem State.tested_with_op {s : State} {k : Courier} (e : TagEntry) (busy : s.hasOp e.comp = true) :
    s.tested k e = false := by
  by_contra passes
  have alone := State.tested_alone (Bool.eq_true_of_not_eq_false passes)
  rw [busy] at alone
  cases alone

/-- What a top-up leaves pending begins with an entry whose operation found no room (R70). -/
def State.stopsAt (u : State) (rest : List TagEntry) : Prop :=
  ∀ e es, rest = e :: es → ∃ a w, u.resolution e.comp = .ok a w ∧
    (48 ≤ u.hce.ops.length ∨ 24 ≤ u.sweepOps ∨ 24 ≤ (u.link a.link).bulk.length)

theorem State.roomFor_sweep_false {s : State} {st l : Nat} (full : s.roomFor st .SWEEP l ≠ true) :
    48 ≤ s.hce.ops.length ∨ 24 ≤ s.sweepOps ∨ 24 ≤ (s.link l).bulk.length := by
  rw [ne_eq, State.roomFor_iff, if_pos rfl] at full
  omega

section
variable {s v : State} {k : Courier} {e : TagEntry} {es : List TagEntry} {t : TopUp} {a : Addr} {u job : Nat}

theorem topUpOver_untested (h : s.tested k e = false) : topUpOver k (e :: es) s t =
    topUpOver k es (s.dropPending k e.comp es) { t with dropped := t.dropped + 1 } := by
  conv_lhs => unfold topUpOver
  exact if_neg (Bool.eq_false_iff.mp h)

theorem topUpOver_failed (h : s.tested k e = true) (failed : ∀ a u, s.resolution e.comp ≠ .ok a u) :
    topUpOver k (e :: es) s t =
      topUpOver k es ((s.afterResolve e.comp).dropPending k e.comp es) { t with dropped := t.dropped + 1 } := by
  conv_lhs => unfold topUpOver
  refine (if_pos h).trans ?_
  cases r : s.resolution e.comp with
  | ok a u => exact absurd r (failed a u)
  | unreachable => rfl
  | mapFault a => rfl

theorem topUpOver_made (h : s.tested k e = true) (resolves : s.resolution e.comp = .ok a u)
    (made : s.createOp .SWEEP k.station e.comp a u .QUEUED = some (v, job)) : topUpOver k (e :: es) s t =
      topUpOver k es (v.updRun k fun r => { r with pending := es }) { t with made := t.made + 1 } := by
  conv_lhs => unfold topUpOver
  refine (if_pos h).trans ?_
  rw [resolves]
  dsimp only
  rw [made]

theorem topUpOver_full (h : s.tested k e = true) (resolves : s.resolution e.comp = .ok a u)
    (made : s.createOp .SWEEP k.station e.comp a u .QUEUED = none) : topUpOver k (e :: es) s t = (s, t) := by
  conv_lhs => unfold topUpOver
  refine (if_pos h).trans ?_
  rw [resolves]
  dsimp only
  rw [made]

end

/-- A failed resolution marks its own compartment at most. -/
theorem State.afterResolve_dropped {s : State} {k : Courier} {e : TagEntry} (tested : s.tested k e = true)
    (failed : ∀ a u, s.resolution e.comp ≠ .ok a u) : (∀ n, n ≠ e.comp → (s.afterResolve e.comp).comp n = s.comp n) ∧
      { (s.afterResolve e.comp).comp e.comp with tagOwner := none } = s.droppedComp k e := by
  have known := State.tested_known tested
  unfold State.afterResolve State.droppedComp
  rw [tested]
  cases r : s.resolution e.comp with
  | ok a u => exact absurd r (failed a u)
  | unreachable => exact ⟨fun _ _ => rfl, rfl⟩
  | mapFault a =>
    have read : ∀ n, (s.mapFaultEffect e.comp a).comp n =
        (s.updComp e.comp fun c => { c with causes := c.causes.add .MAP_CHECK }).comp n :=
      fun n => State.comp_reportFault _ _ _ _ _ _ _
    dsimp only
    refine ⟨fun n other => ?_, ?_⟩
    · rw [read, State.comp_updComp_ne s _ (Ne.symm other)]
    · rw [read, State.comp_updComp_self s _ known.1 known.2]

/-- A top-up over the pending entries of a run, by the entries (R180). -/
theorem topUpOver_spec (k : Courier) (es : List TagEntry) : ∀ (s : State) (t : TopUp) (r : Run),
    (s.side k).run = some r → r.pending = es → ∃ gone rest made, es = gone ++ rest ∧
      s.Topped (topUpOver k es s t).1 k r gone rest made ∧ (topUpOver k es s t).1.stopsAt rest ∧
      (topUpOver k es s t).2 = { made := t.made + made.length, dropped := t.dropped + (gone.length - made.length) } := by
  induction es with
  | nil => exact fun s t r run pending => ⟨[], [], [], rfl, .nothing run pending, (fun _ _ h => nomatch h), rfl⟩
  | cons e es ih =>
    intro s t r run pending
    have dropped : ∀ w : State, s.mapMarked w → (∀ n, n ≠ e.comp → w.comp n = s.comp n) → w.swu = s.swu →
        s.sweeps k e = false → { w.comp e.comp with tagOwner := none } = s.droppedComp k e →
        ∃ gone rest made, e :: es = gone ++ rest ∧
          s.Topped (topUpOver k es (w.dropPending k e.comp es) { t with dropped := t.dropped + 1 }).1 k r gone rest made ∧
          (topUpOver k es (w.dropPending k e.comp es) { t with dropped := t.dropped + 1 }).1.stopsAt rest ∧
          (topUpOver k es (w.dropPending k e.comp es) { t with dropped := t.dropped + 1 }).2 =
            { made := t.made + made.length, dropped := t.dropped + (gone.length - made.length) } := by
      intro w marked others swu fails own
      have first := State.topped_dropped (es := es) run marked others swu fails own
      obtain ⟨gone, rest, made, rfl, topped, stops, counts⟩ := ih (w.dropPending k e.comp _) { t with dropped := t.dropped + 1 }
        { r with pending := _, skipped := r.skipped + (1 - 0) } (congrArg SweepSide.run first.run) rfl
      refine ⟨e :: gone, rest, made, rfl, first.then (fun e' same => State.tested_after_dropped e' same) topped, stops,
        counts.trans ?_⟩
      have short := topped.short
      simp only [List.length_cons, TopUp.mk.injEq, true_and]
      omega
    cases passes : s.tested k e with
    | false =>
      rw [topUpOver_untested passes]
      refine dropped s (.refl s) (fun _ _ => rfl) rfl (State.sweeps_untested passes) ?_
      unfold State.droppedComp
      rw [passes]
    | true =>
      by_cases reached : ∃ a u, s.resolution e.comp = .ok a u
      · obtain ⟨a, u, resolves⟩ := reached
        cases made : s.createOp .SWEEP k.station e.comp a u .QUEUED with
        | none =>
          rw [topUpOver_full passes resolves made]
          refine ⟨[], e :: es, [], rfl, .nothing run pending, fun e' es' same => ?_, rfl⟩
          cases same
          refine ⟨a, u, resolves, State.roomFor_sweep_false (st := k.station) fun room => ?_⟩
          unfold State.createOp at made
          rw [if_pos room] at made
          cases made
        | some made' =>
          obtain ⟨v, job⟩ := made'
          have first := State.topped_made (es := es) run passes resolves made
          rw [topUpOver_made passes resolves made]
          obtain ⟨gone, rest, made', rfl, topped, stops, counts⟩ := ih (v.updRun k fun r => { r with pending := _ })
            { t with made := t.made + 1 } { r with pending := _, skipped := r.skipped + (1 - 1) }
            (congrArg SweepSide.run first.run) rfl
          have spent : ∀ e' : TagEntry, e'.comp = e.comp →
              (v.updRun k fun r => { r with pending := gone ++ rest }).tested k e' = false := fun e' same =>
            State.tested_with_op e' (by rw [State.hasOp_append first.ops, same]; simp [newOp])
          refine ⟨e :: gone, rest, newOp s.nextJob .SWEEP k.station e.comp a u .QUEUED :: made', rfl,
            first.then spent topped, stops, counts.trans ?_⟩
          simp only [List.length_cons, TopUp.mk.injEq]
          omega
      · have failed : ∀ a u, s.resolution e.comp ≠ .ok a u := fun a u r => reached ⟨a, u, r⟩
        obtain ⟨others, own⟩ := State.afterResolve_dropped passes failed
        rw [topUpOver_failed passes failed]
        exact dropped _ (State.afterResolve_mapMarked s _) others (State.swu_afterResolve s _) (State.sweeps_failed failed) own

theorem State.toppedUp_of {s u : State} {k : Courier} {r : Run} {gone rest : List TagEntry} {made : List Op}
    (pending : r.pending = gone ++ rest) (h : s.Topped u k r gone rest made) (stops : u.stopsAt rest) :
    s.toppedUp u k r gone rest made := by
  refine ⟨pending, h.short, h.frame, h.run, h.other, h.ops, h.each, h.links, h.comps, fun distinct => ?_, fun e es same => ?_⟩
  · have part : (gone.map (·.comp)).Nodup := by
      rw [pending, List.map_append] at distinct
      exact (List.nodup_append.mp distinct).1
    obtain ⟨ops, comps⟩ := h.distinct part
    refine ⟨ops, fun e he => ?_⟩
    show (u.comp e.comp).tagOwner = if s.sweeps k e then some k else none
    rw [comps e he]
    cases fits : s.sweeps k e with
    | false => rfl
    | true => exact State.tested_owner (Bool.and_eq_true_iff.mp fits).1
  · obtain ⟨a, w, reach, full⟩ := stops e es same
    exact ⟨a, w, (h.resolution _).symm.trans reach, full⟩

theorem State.topUp_off {s : State} {k : Courier} (h : s.scu.mode = .BATTERY ∨ s.scu.mode = .DORMANT ∨ (s.side k).run = none) :
    (s.topUp k).1 = s := by
  unfold State.topUp
  cases run : (s.side k).run with
  | none => rfl
  | some r =>
    have off : s.scu.mode.onMains = false := by
      rcases h with e | e | e
      · rw [e]; rfl
      · rw [e]; rfl
      · rw [run] at e
        cases e
    dsimp only
    rw [off]
    rfl

theorem State.topUp_on {s : State} {k : Courier} {r : Run} (mains : s.scu.mode = .OPEN ∨ s.scu.mode = .NIGHT)
    (run : (s.side k).run = some r) : s.topUp k = topUpOver k r.pending s { made := 0, dropped := 0 } := by
  have on : s.scu.mode.onMains = true := by rcases mains with e | e <;> rw [e] <;> rfl
  unfold State.topUp
  rw [run]
  exact if_pos on

/-! ### SWEEP (R179) -/

theorem State.sweepRun_moves {s : State} {k : Courier} (check : s.sweepCheck k = none)
    (mains : s.scu.mode = .OPEN ∨ s.scu.mode = .NIGHT) : s.sweepRun k =
      let x := topUpOver k (byComp (s.side k).tags) (s.startRun k) { made := 0, dropped := 0 }
      ⟨(x.1.endRun k).pass, .ACCEPTED, .sweeping s.nextJob (s.side k).tags.length x.2.made x.2.dropped⟩ := by
  have run : ((s.startRun k).side k).run = some (Run.start s.nextJob (byComp (s.side k).tags)) :=
    congrArg SweepSide.run (State.side_updSide_self _ _ _)
  unfold State.sweepRun
  rw [check]
  dsimp only
  rw [State.topUp_on (s := s.startRun k) mains run]
  rfl

/-! ### SWEEP_CANCEL (R183) -/

theorem State.sweepStop_stops {s : State} {k : Courier} {r : Run} (running : s.scu.phase = none)
    (run : (s.side k).run = some r) : s.sweepStop k =
      let w := s.cancelPending k r.pending
      let x := w.endJobs (w.queuedSweeps k) .CANCELLED
      ⟨(x.endRun k).pass, .OK, .sweepCancelled r.pending.length (w.queuedSweeps k).length
        (x.hce.ops.filter (Op.sweepOf · k)).length⟩ := by
  unfold State.sweepStop
  rw [if_neg (show ¬ s.starting = true by rw [State.starting_iff, running]; exact fun e => e rfl), run]

/-- The pending compartments with their tag owners cleared. -/
def State.withoutOwners (s : State) (l : List TagEntry) : State :=
  l.foldl (fun s e => s.updComp e.comp fun x => { x with tagOwner := none }) s

theorem State.withoutOwners_frame (s : State) (l : List TagEntry) : s.withoutOwners l = { s with comps := (s.withoutOwners l).comps } := by
  have folded : s.withoutOwners l = (l.map (·.comp)).foldl (fun s n => s.updComp n fun x => { x with tagOwner := none }) s := by
    rw [List.foldl_map]
    rfl
  rw [folded]
  exact State.foldl_updComp_frame _ _ _

theorem State.cancelPending_eq (s : State) (k : Courier) (l : List TagEntry) : s.cancelPending k l =
    (s.withoutOwners l).updRun k fun r => { r with pending := [], cancelled := r.cancelled + l.length } := rfl

theorem State.sweepCheck_passes {s : State} {k : Courier} (running : s.scu.phase = none)
    (mains : s.scu.mode = .OPEN ∨ s.scu.mode = .NIGHT) (idle : (s.side k).run = none) (tags : (s.side k).tags ≠ []) :
    s.sweepCheck k = none := by
  have on : s.scu.mode.onMains = true := by rcases mains with e | e <;> rw [e] <;> rfl
  simp [State.sweepCheck, State.starting, running, on, idle, tags]

theorem State.side_withoutOwners (s : State) (l : List TagEntry) (k : Courier) : (s.withoutOwners l).side k = s.side k := by
  rw [State.withoutOwners_frame]
  cases k <;> rfl

theorem State.side_clearTagList (s : State) (k : Courier) : (s.clearTagList k).side k = { s.side k with tags := [] } := by
  refine (State.side_updSide_self _ _ _).trans ?_
  exact congrArg (fun x : SweepSide => { x with tags := [] }) (s.side_withoutOwners (s.side k).tags k)

/-- Settles O37: SWEEP by the top-up over the tag list moved, SWEEP_CANCEL by what it drops and whom it ends. -/
theorem sweepMovesTheTagList : Obligations.SweepMovesTheTagList := by
  refine ⟨fun h p k s a blank courier running mains idle tags => ?_, fun h p k r s v a blank courier running run hv => ?_⟩
  · intro may fit
    have check : (s.took h).sweepCheck k = none := State.sweepCheck_passes running mains idle tags
    have owner := (State.asCourier_of (s := s.took h) (fun c s => s.sweepRun c) courier).trans
      (State.sweepRun_moves check mains)
    have run : exec (.sweep h p) s = .next (s.takeRequest h 22 p .blank fun _ s =>
      s.asCourier h.station.toNat fun c s => s.sweepRun c) := rfl
    rw [State.takeRequest_of (owner := fun _ s => s.asCourier h.station.toNat fun c s => s.sweepRun c) a
      (Codec.parse_blank blank) rfl owner (by simp)] at run
    have began : ((s.took h).startRun k).side k =
        { tags := [], run := some (Run.start s.nextJob (byComp (s.side k).tags)) } := State.side_updSide_self _ _ _
    obtain ⟨gone, rest, made, parts, topped, stops, counts⟩ := topUpOver_spec k (byComp (s.side k).tags)
      ((s.took h).startRun k) { made := 0, dropped := 0 } _ (congrArg SweepSide.run began) rfl
    rw [show ((s.took h).side k).tags = (s.side k).tags from rfl, counts, Nat.zero_add, Nat.zero_add] at run
    refine ⟨gone, rest, made, _, _, run, rfl, parts, topped.short, ?_, topped.other.trans (State.side_updSide_other _ _ _),
      topped.ops, topped.each, topped.links, topped.comps, fun distinct => ?_, fun e es same => ?_, topped.frame⟩
    · rw [topped.run, began]
      exact congrArg (fun n => ({ tags := [], run := some { Run.start s.nextJob rest with skipped := n } } : SweepSide))
        (Nat.zero_add _)
    · refine topped.distinct ?_
      have sorted : ((byComp (s.side k).tags).map (·.comp)).Nodup :=
        ((List.perm_insertionSort _ _).map _).nodup_iff.mpr distinct
      rw [parts, List.map_append] at sorted
      exact (List.nodup_append.mp sorted).1
    · obtain ⟨b, w, reach, full⟩ := stops e es same
      exact ⟨b, w, (topped.resolution _).symm.trans reach, full⟩
  · intro jobs
    have kept : v = { s.took h with comps := v.comps, swu := v.swu } := by
      rw [hv]
      exact (s.took h).clearTagList_eq k
    have scu : v.scu = s.scu := (congrArg State.scu kept :)
    have run' : (v.side k).run = some r := by
      rw [hv, State.side_clearTagList]
      exact run
    have owner := (State.asCourier_of (s := v) (fun c s => s.sweepStop c) courier).trans
      (State.sweepStop_stops (by rw [scu]; exact running) run')
    have ownSide : ((v.withoutOwners r.pending).side k).run = some r := by rw [State.side_withoutOwners, run']
    have queued : (v.cancelPending k r.pending).queuedSweeps k = jobs := by
      have frame : v.cancelPending k r.pending = { v with
          comps := (v.cancelPending k r.pending).comps, swu := (v.cancelPending k r.pending).swu } := by
        rw [State.cancelPending_eq, State.updRun_frame, State.withoutOwners_frame]
      rw [frame, kept]
      rfl
    have run : exec (.sweepCancel h p) s = .next (s.takeRequest h 23 p .blank fun _ s =>
      s.asCourier h.station.toNat fun c s => s.sweepStop c) := rfl
    rw [hv] at owner
    rw [State.takeRequest_cleared (owner := fun _ s => s.asCourier h.station.toNat fun c s => s.sweepStop c) a
      (Codec.parse_blank blank) rfl courier owner (by simp), ← hv, queued] at run
    refine ⟨v.cancelPending k r.pending, _, run, ?_, ?_, ?_, ?_, rfl⟩
    · rw [State.cancelPending_eq, State.updRun_frame]
      rfl
    · rw [State.cancelPending_eq, State.side_updRun_self _ ownSide, State.side_withoutOwners]
    · rw [State.cancelPending_eq, State.updRun_frame, State.withoutOwners_frame]
    · rw [State.cancelPending_eq]
      exact (State.side_updSide_other _ _ _).trans (State.side_withoutOwners _ _ _)

end Sys2Proof.Machine
end

