-- ==== Sys2Proof/Proofs/Bus.lean ====
section
/-! The payment bus: the message chosen, the plain answers, a reader that returns (R149 to R151, R154, R158, R162,
R164). -/

namespace Sys2Proof.Machine

open Sys2Proof

/-! ### One reader, changed in steps -/

theorem State.reader_outside (s : State) {r : Nat} (out : ¬ (1 ≤ r ∧ r ≤ 4)) : s.reader r = Reader.empty :=
  tget_outside _ _ (by omega)

theorem State.reader_known_of_charge {s : State} {r : Nat} {c : Charge} (h : (s.reader r).charge = some c) :
    1 ≤ r ∧ r ≤ 4 := by
  by_contra out
  rw [s.reader_outside out] at h
  cases h

theorem State.awaited_of_line {s : State} {r : Nat} {m : BusMsg} (line : s.pbc.line = some (r, m)) :
    s.awaited r = some m := by
  unfold State.awaited
  rw [line]
  exact if_pos rfl

theorem State.readerUp_iff {s : State} {r : Nat} : s.readerUp r = true ↔ (s.reader r).state ≠ .OFFLINE :=
  decide_eq_true_iff

/-! ### The choice of the message (R150) -/

/-- The reader is OFFLINE or has nothing to be sent. -/
def State.readerQuiet (s : State) (q : Nat) : Prop := (s.reader q).state = .OFFLINE ∨ (s.reader q).outgoing = []

/-- The head of the list of a reader, with the reader. -/
def State.headFor (s : State) (r : Nat) : Option (Nat × BusMsg) := (s.reader r).outgoing.head?.map fun m => (r, m)

theorem State.headFor_quiet {s : State} {l : List Nat} (quiet : ∀ q ∈ l, s.readerQuiet q) :
    (l.filter s.readerUp).findSome? s.headFor = none := by
  refine List.findSome?_eq_none_iff.mpr fun q hq => ?_
  obtain ⟨mem, up⟩ := List.mem_filter.mp hq
  rcases quiet q mem with off | empty
  · exact absurd off (State.readerUp_iff.mp up)
  · unfold State.headFor
    rw [empty]
    rfl

theorem State.listedMessage_quiet {s : State} (quiet : ∀ q ∈ s.readerTurn, s.readerQuiet q) : s.listedMessage = none :=
  State.headFor_quiet quiet

/-- The first list in turn gives the message (R150, step 2). -/
theorem State.listedMessage_first {s : State} {l l' : List Nat} {r : Nat} {m : BusMsg} {ms : List BusMsg}
    (turn : s.readerTurn = l ++ r :: l') (quiet : ∀ q ∈ l, s.readerQuiet q) (up : (s.reader r).state ≠ .OFFLINE)
    (list : (s.reader r).outgoing = m :: ms) : s.listedMessage = some (r, m) := by
  have head : s.headFor r = some (r, m) := by
    unfold State.headFor
    rw [list]
    rfl
  show (s.readerTurn.filter s.readerUp).findSome? s.headFor = _
  rw [turn, List.filter_append, List.findSome?_append, State.headFor_quiet quiet,
    List.filter_cons_of_pos (State.readerUp_iff.mpr up), List.findSome?_cons, head]
  rfl

theorem List.find?_first {α : Type} {p : α → Bool} {l l' : List α} {x : α} (before : ∀ y ∈ l, p y = false) (here : p x = true) :
    (l ++ x :: l').find? p = some x := by
  rw [List.find?_append, List.find?_eq_none.mpr fun y hy => by rw [before y hy]; exact Bool.false_ne_true,
    List.find?_cons_of_pos here]
  rfl

theorem State.pollDue_iff {s : State} {r : Nat} :
    s.pollDue r = true ↔ (s.reader r).state = .OFFLINE ∧ (s.reader r).pollTimer = .expired := decide_eq_true_iff

section
variable {s : State}

theorem State.chooseBus_retry {r : Nat} {m : BusMsg} (retry : s.pbc.retry = some (r, m)) : s.chooseBus = s.sendTo r m := by
  unfold State.chooseBus
  rw [retry]

theorem State.chooseBus_listed {r : Nat} {m : BusMsg} (retry : s.pbc.retry = none) (listed : s.listedMessage = some (r, m)) :
    s.chooseBus = s.sendTo r m := by
  unfold State.chooseBus
  rw [retry, listed]

theorem State.chooseBus_pollDue {r : Nat} (retry : s.pbc.retry = none) (listed : s.listedMessage = none)
    (due : s.readerTurn.find? s.pollDue = some r) :
    s.chooseBus = (s.updReader r fun x => { x with pollTimer := .running }).sendTo r .POLL := by
  unfold State.chooseBus
  rw [retry, listed, due]

theorem State.chooseBus_poll {r : Nat} (retry : s.pbc.retry = none) (listed : s.listedMessage = none)
    (due : s.readerTurn.find? s.pollDue = none) (up : s.readerTurn.find? s.readerUp = some r) :
    s.chooseBus = s.sendTo r .POLL := by
  unfold State.chooseBus
  rw [retry, listed, due, up]

end

theorem exec_busExchangeStart {s : State} (free : s.pbc.line = none) : exec .busExchangeStart s = .next s.chooseBus :=
  if_pos free

/-! ### A reader that returns (R164) -/

/-- A REVERSE falls due with an entry that stands on the reader. -/
theorem Reader.oweReverse_has (x : Reader) (v : Reversal) : ∃ y ∈ (x.oweReverse v).outgoing, y.isReverse = true := by
  refine ⟨_, List.mem_append_right _ (List.mem_singleton_self _), ?_⟩
  cases found : x.outgoing.find? BusMsg.isReverse with
  | none => rfl
  | some y => exact List.find?_some found

theorem State.restReader_frame (s : State) (r : Nat) :
    s.restReader r = { s with pbc := { s.pbc with readers := (s.restReader r).pbc.readers } } := by
  unfold State.restReader
  split <;> rfl

/-- The state a reader rests in, by the entries that name it (R151). -/
theorem State.restReader_reader {s : State} {r : Nat} (known : 1 ≤ r ∧ r ≤ 4) :
    ((∀ v ∈ s.pbc.reversals, v.reader ≠ r) → (s.restReader r).reader r = { s.reader r with state := .IDLE }) ∧
    ((∃ v ∈ s.pbc.reversals, v.reader = r) → ∃ v, (s.restReader r).reader r =
      ({ s.reader r with state := .REVERSING } : Reader).oweReverse v) := by
  unfold State.restReader
  cases found : s.oldestReversal r with
  | none =>
    have absent : ∀ v ∈ s.pbc.reversals, v.reader ≠ r := fun v hv e =>
      absurd (List.find?_eq_none.mp found v hv) (not_not_intro (beq_iff_eq.mpr e))
    refine ⟨fun _ => ?_, fun ⟨v, hv, e⟩ => absurd e (absent v hv)⟩
    dsimp only
    rw [State.reader_updReader, if_pos ⟨rfl, known⟩]
  | some v =>
    have test : (v.reader == r) = true := List.find?_some (p := fun v : Reversal => v.reader == r) found
    have named : v.reader = r := beq_iff_eq.mp test
    refine ⟨fun absent => absurd named (absent v (List.mem_of_find?_eq_some found)), fun _ => ⟨v, ?_⟩⟩
    dsimp only
    rw [State.reader_updReader, if_pos ⟨rfl, known⟩]

theorem State.returnReader_charged {s : State} {r : Nat} {c : Charge} (known : 1 ≤ r ∧ r ≤ 4)
    (charge : (s.reader r).charge = some c) : s.returnReader r =
      s.updReader r fun x => ({ x with pollTimer := .stopped, state := .ABANDONING } : Reader).owe (.ABANDON c.ref) := by
  unfold State.returnReader
  have held : ((s.updReader r fun x => { x with pollTimer := .stopped }).reader r).charge = some c := by
    rw [State.reader_updReader, if_pos ⟨rfl, known⟩, ← charge]
  dsimp only
  rw [held]
  exact State.updReader_updReader s r _ _

theorem State.returnReader_uncharged {s : State} {r : Nat} (known : 1 ≤ r ∧ r ≤ 4) (charge : (s.reader r).charge = none) :
    s.returnReader r = (s.updReader r fun x => { x with pollTimer := .stopped }).restReader r := by
  unfold State.returnReader
  have held : ((s.updReader r fun x => { x with pollTimer := .stopped }).reader r).charge = none := by
    rw [State.reader_updReader, if_pos ⟨rfl, known⟩, ← charge]
  dsimp only
  rw [held]

/-- A reader is back on the bus (R164). -/
theorem State.returnReader_spec {s : State} {r : Nat} (known : 1 ≤ r ∧ r ≤ 4) : let t := s.returnReader r
    t = { s with pbc := { s.pbc with readers := t.pbc.readers } } ∧ (t.reader r).pollTimer = .stopped ∧
    (t.reader r).charge = (s.reader r).charge ∧
    (∀ c, (s.reader r).charge = some c → (t.reader r).state = .ABANDONING ∧
      ∃ y ∈ (t.reader r).outgoing, y.isAbandon = true) ∧
    ((s.reader r).charge = none → (∀ v ∈ s.pbc.reversals, v.reader ≠ r) → (t.reader r).state = .IDLE) ∧
    ((s.reader r).charge = none → (∃ v ∈ s.pbc.reversals, v.reader = r) → (t.reader r).state = .REVERSING ∧
      ∃ y ∈ (t.reader r).outgoing, y.isReverse = true) := by
  dsimp only
  cases charge : (s.reader r).charge with
  | some c =>
    rw [State.returnReader_charged known charge, State.reader_updReader, if_pos ⟨rfl, known⟩]
    exact ⟨rfl, rfl, charge, fun _ _ => ⟨rfl, _, List.mem_append_right _ (List.mem_singleton_self _), rfl⟩,
      fun e => (nomatch e), fun e => (nomatch e)⟩
  | none =>
    rw [State.returnReader_uncharged known charge]
    have stopped : (s.updReader r fun x => { x with pollTimer := .stopped }).reader r =
        { s.reader r with pollTimer := .stopped } := by rw [State.reader_updReader, if_pos ⟨rfl, known⟩]
    obtain ⟨idle, reversing⟩ := State.restReader_reader (s := s.updReader r fun x => { x with pollTimer := .stopped }) known
    rw [stopped] at idle reversing
    have kept : (s.updReader r fun x => { x with pollTimer := .stopped }).pbc.reversals = s.pbc.reversals := rfl
    have either : (∀ v ∈ s.pbc.reversals, v.reader ≠ r) ∨ ∃ v ∈ s.pbc.reversals, v.reader = r := by
      by_cases e : ∃ v ∈ s.pbc.reversals, v.reader = r
      · exact .inr e
      · exact .inl fun v hv h => e ⟨v, hv, h⟩
    refine ⟨State.restReader_frame _ r, ?_, ?_, fun _ e => (nomatch e), fun _ absent => ?_, fun _ present => ?_⟩
    · rcases either with absent | present
      · rw [idle absent]
      · obtain ⟨v, e⟩ := reversing present
        rw [e]
        rfl
    · rcases either with absent | present
      · rw [idle absent]
        exact charge
      · obtain ⟨v, e⟩ := reversing present
        rw [e]
        exact charge
    · rw [idle absent]
    · obtain ⟨v, e⟩ := reversing present
      rw [e]
      exact ⟨rfl, Reader.oweReverse_has _ v⟩

/-! ### Plain answers (R149, R150, R154) -/

/-- A reader whose message has been answered. -/
def Reader.answered (x : Reader) (m : BusMsg) : Reader := { x with unanswered := 0, outgoing := x.outgoing.erase m }

theorem State.busAnswered_eq (s : State) (r : Nat) (m : BusMsg) : s.busAnswered r m = { s with pbc := { s.pbc with
    line := none, retry := none, lastReader := r
    readers := tput s.pbc.readers r ((s.reader r).answered m) } } := rfl

theorem State.busAnswered_reader (s : State) {r : Nat} (m : BusMsg) (known : 1 ≤ r ∧ r ≤ 4) :
    (s.busAnswered r m).reader r = (s.reader r).answered m := tget_tput_self _ _ _ known.1 known.2

/-- The state with the line free after an exchange with a reader. -/
def State.lineFreed (s : State) (r : Nat) : State :=
  s.updPbc fun p => { p with line := none, retry := none, lastReader := r }

theorem State.busAnswered_then (s : State) (r : Nat) (m : BusMsg) (f : Reader → Reader) :
    (s.busAnswered r m).updReader r f = (s.lineFreed r).updReader r fun x => f (x.answered m) :=
  State.updReader_updReader (s.lineFreed r) r _ _

section
variable {s : State} {r : Nat} {m : BusMsg}

theorem exec_chargeTaken {ref a : Nat} (awaited : s.awaited r = some (.CHARGE ref a)) : exec (.chargeTaken r) s =
    .next ((s.busAnswered r (.CHARGE ref a)).updReader r fun x => { x with charge := x.charge.map fun c =>
      if c.ref = ref ∧ c.phase = .OFFERED then { c with phase := .TAKEN, offer := true } else c }) := by
  show execChargeTaken r s = _
  unfold execChargeTaken
  rw [awaited]

theorem exec_readerBusy (awaited : s.awaited r = some m) (kind : (m.isCharge || m.isAbandon || m.isReverse) = true)
    (listed : m ∈ (s.reader r).outgoing) : exec (.readerBusy r) s =
      .next (((s.busAnswered r m).updReader r fun x => x.notOffered m).updReader r fun x => x.enlist m) := by
  show execReaderBusy r s = _
  unfold execReaderBusy
  rw [awaited]
  exact (if_pos kind).trans (congrArg Host.Outcome.next (if_pos (List.contains_iff_mem.mpr listed)))

theorem exec_nothingYet_poll (awaited : s.awaited r = some .POLL) : exec (.nothingYet r) s =
    .next ((s.busAnswered r .POLL).backOnBus r (!s.readerUp r)) := by
  show execNothingYet r s = _
  unfold execNothingYet
  rw [awaited]

theorem exec_nothingYet_ack {ref : Nat} (awaited : s.awaited r = some (.RESULT_ACK ref)) : exec (.nothingYet r) s =
    .next (s.busAnswered r (.RESULT_ACK ref)) := by
  show execNothingYet r s = _
  unfold execNothingYet
  rw [awaited]

end

/-- Settles O58. -/
theorem busExchangesAndTheirAnswers : Obligations.BusExchangesAndTheirAnswers := by
  refine ⟨fun s free => ?_, fun r m s line => ?_⟩
  · intro sent quiet
    rw [exec_busExchangeStart free]
    refine ⟨fun r m retry => by rw [State.chooseBus_retry retry]; rfl, fun retry l r l' turn =>
      ⟨fun m ms before up list => ?_, fun silent before off due => ?_, fun silent before up => ?_⟩⟩
    · rw [State.chooseBus_listed retry (State.listedMessage_first turn before up list)]
      rfl
    · rw [State.chooseBus_pollDue retry (State.listedMessage_quiet silent)]
      · rfl
      · rw [turn]
        exact List.find?_first (fun q hq => Bool.eq_false_iff.mpr fun e => before q hq (State.pollDue_iff.mp e))
          (State.pollDue_iff.mpr ⟨off, due⟩)
    · rw [State.chooseBus_poll (r := r) retry (State.listedMessage_quiet fun q hq => (silent q hq).1)]
      · rfl
      · exact List.find?_eq_none.mpr fun q hq e => (silent q hq).2 (State.pollDue_iff.mp e)
      · rw [turn]
        exact List.find?_first (fun q hq => Bool.eq_false_iff.mpr fun e => State.readerUp_iff.mp e (before q hq))
          (State.readerUp_iff.mpr up)
  · intro x b
    have awaited := State.awaited_of_line line
    refine ⟨fun c charge held offered => ?_, fun kind listed => ?_, fun plain => ?_, fun poll lo hi off => ?_⟩
    · subst charge
      have taken : ((s.reader r).charge.map fun y =>
          if y.ref = c.ref ∧ y.phase = .OFFERED then { y with phase := .TAKEN, offer := true } else y) =
            some { c with phase := .TAKEN, offer := true } := by
        rw [held]
        exact congrArg some (if_pos ⟨rfl, offered⟩)
      rw [exec_chargeTaken awaited, State.busAnswered_then, ← taken]
      rfl
    · have known : (m.isCharge || m.isAbandon || m.isReverse) = true := by
        obtain ⟨ref, a, rfl | rfl | rfl⟩ := kind <;> rfl
      rw [exec_readerBusy awaited known listed, State.updReader_updReader, State.busAnswered_then]
      rfl
    · rcases plain with ⟨rfl, up⟩ | ⟨ref, rfl⟩
      · rw [exec_nothingYet_poll awaited, State.readerUp_iff.mpr up]
        rfl
      · rw [exec_nothingYet_ack awaited]
        rfl
    · subst poll
      have down : s.readerUp r = false := Bool.eq_false_iff.mpr fun e => State.readerUp_iff.mp e off
      obtain ⟨frame, stopped, -, charged, idle, reversing⟩ := State.returnReader_spec (s := s.busAnswered r .POLL) ⟨lo, hi⟩
      have read : ((s.busAnswered r .POLL).reader r).charge = (s.reader r).charge :=
        (congrArg Reader.charge (s.busAnswered_reader .POLL ⟨lo, hi⟩) :)
      rw [read] at charged idle reversing
      have back : (s.busAnswered r .POLL).backOnBus r (!s.readerUp r) = (s.busAnswered r .POLL).returnReader r := by
        rw [down]
        rfl
      refine ⟨_, (exec_nothingYet_poll awaited).trans (congrArg Host.Outcome.next back), stopped, charged, idle, reversing, ?_⟩
      obtain ⟨p, e⟩ : ∃ p, (s.busAnswered r .POLL).returnReader r = { s with pbc := p } := ⟨_, frame⟩
      rw [e]

end Sys2Proof.Machine
end

