-- ==== Sys2Proof/Proofs/Reconcile.lean ====
section
/-! The RECONCILE phase: charge records, reversal entries and poll timers after a restart (R166). -/

namespace Sys2Proof.Machine

open Sys2Proof

/-! ### References taken from a parcel -/

/-- A reference leaves a parcel that holds it. -/
def Parcel.withoutRef (p : Parcel) (ref : Nat) : Parcel :=
  if p.chargeRef = some ref then { p with chargeRef := none, chargeReader := none } else p

/-- A reference leaves the parcel of a compartment, if it holds it. -/
def Compartment.withoutRef (c : Compartment) (ref : Nat) : Compartment :=
  { c with parcel := c.parcel.map fun p => p.withoutRef ref }

theorem State.dropParcelRef_eq (s : State) (n ref : Nat) : s.dropParcelRef n ref = s.updComp n fun c => c.withoutRef ref := rfl

theorem Compartment.withoutRef_other {c : Compartment} {ref : Nat}
    (other : ∀ x, c.parcel = some x → x.chargeRef ≠ some ref) : c.withoutRef ref = c := by
  have same : (c.parcel.map fun p => p.withoutRef ref) = c.parcel := by
    cases parcel : c.parcel with
    | none => rfl
    | some x => exact congrArg some (if_neg (other x parcel))
  unfold Compartment.withoutRef
  rw [same]

theorem Compartment.withoutRef_holder {c : Compartment} {ref : Nat} {x : Parcel} (parcel : c.parcel = some x)
    (holds : x.chargeRef = some ref) :
    c.withoutRef ref = { c with parcel := some { x with chargeRef := none, chargeReader := none } } := by
  have cleared : (c.parcel.map fun p => p.withoutRef ref) = some { x with chargeRef := none, chargeReader := none } := by
    rw [parcel]
    exact congrArg some (if_pos holds)
  unfold Compartment.withoutRef
  rw [cleared]

theorem Compartment.withoutRefs_other (refs : List Nat) : ∀ {c : Compartment},
    (∀ x, c.parcel = some x → ∀ ref ∈ refs, x.chargeRef ≠ some ref) → refs.foldl Compartment.withoutRef c = c := by
  induction refs with
  | nil => exact fun _ => rfl
  | cons ref refs ih =>
    intro c other
    rw [List.foldl_cons, Compartment.withoutRef_other fun x hx => other x hx ref List.mem_cons_self]
    exact ih fun x hx r hr => other x hx r (List.mem_cons_of_mem ref hr)

theorem Compartment.withoutRefs_holder {ref : Nat} {x : Parcel} (holds : x.chargeRef = some ref) (refs : List Nat) :
    ∀ {c : Compartment}, c.parcel = some x → ref ∈ refs →
      refs.foldl Compartment.withoutRef c = { c with parcel := some { x with chargeRef := none, chargeReader := none } } := by
  induction refs with
  | nil => exact fun _ h => nomatch h
  | cons r refs ih =>
    intro c parcel mem
    rw [List.foldl_cons]
    by_cases e : ref = r
    · subst e
      rw [Compartment.withoutRef_holder parcel holds]
      refine Compartment.withoutRefs_other refs fun y hy r _ => ?_
      cases hy
      exact fun e => nomatch e
    · rw [Compartment.withoutRef_other fun y hy => by
        rw [parcel] at hy
        cases hy
        rw [holds]
        exact fun c => e (Option.some.inj c)]
      exact ih parcel ((List.mem_cons.mp mem).resolve_left e)

/-! ### The charge records (R166) -/

/-- A record of a reader no longer fitted. -/
def State.goneCharge (s : State) (r : Nat) : Option Charge := if s.readerFitted r then none else (s.reader r).charge

/-- The references that RECONCILE takes from a compartment's parcel. -/
def State.goneRefs (s : State) (ns : List Nat) (n : Nat) : List Nat :=
  ns.filterMap fun r => (s.goneCharge r).bind fun c => if c.comp = n then some c.ref else none

/-- PAYMENT_RESULT of a record that is dropped. -/
def State.unsettledEvent (s : State) (c : Charge) : EventRec :=
  EventRec.withFlags { s.event .PAYMENT_RESULT with comp := some c.comp, chargeRef := some c.ref, amount := some c.amount }
    { unsettled := true }

/-- A reader after its record has been reconciled. -/
def State.reconciledReader (s : State) (r : Nat) : Reader :=
  match (s.reader r).charge with
  | none => s.reader r
  | some c =>
    if s.readerFitted r then { s.reader r with charge := some { c with phase := .ABANDON_DUE }, outgoing := [.ABANDON c.ref] }
    else { s.reader r with charge := none, outgoing := (s.reader r).outgoing.filter fun m => !(m.isCharge || m.isAbandon) }

/-- What RECONCILE has done for some readers. -/
structure State.Reconciling (s u : State) (ns : List Nat) : Prop where
  frame : u = { s with comps := u.comps, pbc := { s.pbc with readers := u.pbc.readers }, kli := u.kli }
  reader : ∀ r, u.reader r = if r ∈ ns then s.reconciledReader r else s.reader r
  comp : ∀ n, isComp n → u.comp n = (s.goneRefs ns n).foldl Compartment.withoutRef (s.comp n)
  kli : u.kli = (ns.filterMap fun r => (s.goneCharge r).map s.unsettledEvent).foldl Kli.post s.kli

theorem State.goneRefs_append (s : State) (ns : List Nat) (r n : Nat) : s.goneRefs (ns ++ [r]) n =
    s.goneRefs ns n ++ ((s.goneCharge r).bind fun c => if c.comp = n then some c.ref else none).toList := by
  unfold State.goneRefs
  rw [List.filterMap_append]
  congr 1

theorem State.Reconciling.next {s u : State} {ns : List Nat} {r : Nat} (h : s.Reconciling u ns) (fresh : r ∉ ns)
    (known : 1 ≤ r ∧ r ≤ 4) : s.Reconciling (u.reconcileCharge r) (ns ++ [r]) := by
  have own : u.reader r = s.reader r := (h.reader r).trans (if_neg fresh)
  have fitted : u.readerFitted r = s.readerFitted r := by
    rw [h.frame]
    rfl
  have now : u.now = s.now := by
    rw [h.frame]
    rfl
  have event : ∀ c, u.unsettledEvent c = s.unsettledEvent c := fun c => by
    unfold State.unsettledEvent State.event
    rw [now]
  have readers : ∀ (v : State) (x : Reader), v.pbc.readers = tput u.pbc.readers r x → x = s.reconciledReader r →
      ∀ q, v.reader q = if q ∈ ns ++ [r] then s.reconciledReader q else s.reader q := by
    intro v x made e q
    have read : v.reader q = _ := (congrArg (fun w => tget w Reader.empty q) made).trans (tget_tput _ _ _ _ _)
    rw [read]
    by_cases here : r = q
    · subst here
      rw [if_pos ⟨rfl, known⟩, if_pos (List.mem_append_right _ (List.mem_singleton_self _)), e]
    · rw [if_neg fun c => here c.1]
      refine (h.reader q).trans ?_
      simp only [List.mem_append, List.mem_singleton, Ne.symm here, or_false]
  have kept : ∀ v : State, s.goneCharge r = none → v.comps = u.comps → v.kli = u.kli →
      (∀ n, isComp n → v.comp n = (s.goneRefs (ns ++ [r]) n).foldl Compartment.withoutRef (s.comp n)) ∧
      v.kli = ((ns ++ [r]).filterMap fun r => (s.goneCharge r).map s.unsettledEvent).foldl Kli.post s.kli := by
    intro v none_ comps kli
    refine ⟨fun n hn => ?_, ?_⟩
    · rw [State.goneRefs_append, none_, Option.bind_none, Option.toList_none, List.append_nil, ← h.comp n hn]
      unfold State.comp
      rw [comps]
    · rw [List.filterMap_append, kli, h.kli]
      simp [none_]
  unfold State.reconcileCharge
  rw [own]
  cases charge : (s.reader r).charge with
  | none =>
    have same : s.reader r = s.reconciledReader r := by
      unfold State.reconciledReader
      rw [charge]
    have none_ : s.goneCharge r = none := by
      unfold State.goneCharge
      rw [charge, ite_self]
    obtain ⟨comp, kli⟩ := kept u none_ rfl rfl
    have table : u.pbc.readers = tput u.pbc.readers r (u.reader r) := (tput_tget _ _ _).symm
    exact ⟨h.frame, readers u _ table (own.trans same), comp, kli⟩
  | some c =>
    dsimp only
    rw [fitted]
    cases fit : s.readerFitted r with
    | true =>
      have none_ : s.goneCharge r = none := if_pos fit
      obtain ⟨comp, kli⟩ := kept (u.updReader r fun x =>
        { x with charge := some { c with phase := .ABANDON_DUE }, outgoing := [.ABANDON c.ref] }) none_ rfl rfl
      refine ⟨?_, readers _ _ rfl ?_, comp, kli⟩
      · obtain ⟨cs, rs, k, e⟩ : ∃ cs rs k, u = { s with comps := cs, pbc := { s.pbc with readers := rs }, kli := k } :=
          ⟨_, _, _, h.frame⟩
        rw [e]
        rfl
      · have read : tget u.pbc.readers Reader.empty r = s.reader r := own
        rw [read]
        unfold State.reconciledReader
        rw [charge, fit]
        rfl
    | false =>
      have gone : s.goneCharge r = some c := (if_neg (Bool.eq_false_iff.mp fit)).trans charge
      refine ⟨?_, readers _ _ rfl ?_, fun n hn => ?_, ?_⟩
      · obtain ⟨cs, rs, k, e⟩ : ∃ cs rs k, u = { s with comps := cs, pbc := { s.pbc with readers := rs }, kli := k } :=
          ⟨_, _, _, h.frame⟩
        rw [e]
        rfl
      · have read : tget u.pbc.readers Reader.empty r = s.reader r := own
        rw [read]
        unfold State.reconciledReader
        rw [charge, fit]
        rfl
      · have read : (((u.dropCharge r).dropParcelRef c.comp c.ref)).comp n = _ :=
          State.comp_updComp (u.dropCharge r) c.comp n fun x => x.withoutRef c.ref
        rw [State.goneRefs_append, gone]
        refine read.trans ?_
        have base : (u.dropCharge r).comp n = (s.goneRefs ns n).foldl Compartment.withoutRef (s.comp n) := h.comp n hn
        by_cases here : c.comp = n
        · subst here
          rw [if_pos ⟨rfl, hn⟩, base, List.foldl_append]
          simp
        · rw [if_neg fun e => here e.1, base]
          simp [here]
      · rw [List.filterMap_append, List.foldl_append, ← h.kli]
        simp only [List.filterMap_cons, List.filterMap_nil, gone, Option.map_some, List.foldl_cons, List.foldl_nil]
        rw [← event]
        rfl

theorem State.Reconciling.all {s : State} (ns : List Nat) : ∀ {u : State} {done : List Nat}, s.Reconciling u done →
    (done ++ ns).Nodup → (∀ r ∈ ns, 1 ≤ r ∧ r ≤ 4) → s.Reconciling (ns.foldl State.reconcileCharge u) (done ++ ns) := by
  induction ns with
  | nil =>
    intro u done h _ _
    rw [List.append_nil]
    exact h
  | cons r ns ih =>
    intro u done h distinct known
    have split : done ++ r :: ns = (done ++ [r]) ++ ns := by simp
    rw [split] at distinct ⊢
    have fresh : r ∉ done := fun mem =>
      (List.nodup_append.mp (List.nodup_append.mp distinct).1).2.2 r mem r (List.mem_singleton_self r) rfl
    exact ih (h.next fresh (known r List.mem_cons_self)) distinct fun q hq => known q (List.mem_cons_of_mem r hq)

/-- The records of all readers are reconciled (R166). -/
theorem State.reconciling_records (s : State) :
    s.Reconciling ((List.range' 1 4).foldl State.reconcileCharge s) (List.range' 1 4) := by
  have none_ : s.Reconciling s [] := ⟨rfl, fun _ => rfl, fun _ _ => rfl, rfl⟩
  exact none_.all (List.range' 1 4) (by decide) (by decide)

/-! ### The reversal entries (R166) -/

/-- The entry does not stand under a reference that RECONCILE drops. -/
def State.keepsReversal (s : State) (vs : List Reversal) (v : Reversal) : Bool :=
  vs.all fun w => s.readerFitted w.reader || w.ref != v.ref

/-- REVERSAL_FAILED of the entries of readers no longer fitted. -/
def State.failedReversals (s : State) (vs : List Reversal) : List EventRec :=
  (vs.filter fun v => !s.readerFitted v.reader).map (s.reversalEvent .REVERSAL_FAILED)

theorem reconcileReversals_spec (vs : List Reversal) : ∀ u : State, vs.foldl State.reconcileReversal u = { u with
    pbc := { u.pbc with reversals := u.pbc.reversals.filter (u.keepsReversal vs) }
    kli := (u.failedReversals vs).foldl Kli.post u.kli } := by
  induction vs with
  | nil =>
    intro u
    have all : u.pbc.reversals.filter (u.keepsReversal []) = u.pbc.reversals := List.filter_eq_self.mpr fun _ _ => rfl
    rw [all]
    rfl
  | cons w vs ih =>
    intro u
    rw [List.foldl_cons, ih]
    cases fit : u.readerFitted w.reader with
    | true =>
      have same : u.reconcileReversal w = u := if_pos fit
      have keeps : u.keepsReversal (w :: vs) = u.keepsReversal vs := by
        funext v
        unfold State.keepsReversal
        rw [List.all_cons, fit, Bool.true_or, Bool.true_and]
      have events : u.failedReversals (w :: vs) = u.failedReversals vs := by
        unfold State.failedReversals
        rw [List.filter_cons_of_neg (by rw [fit]; decide)]
      rw [same, keeps, events]
    | false =>
      have dropped : u.reconcileReversal w = (u.dropReversal w.ref).post (u.reversalEvent .REVERSAL_FAILED w) :=
        if_neg (Bool.eq_false_iff.mp fit)
      have keeps : u.pbc.reversals.filter (u.keepsReversal (w :: vs)) =
          (u.pbc.reversals.filter fun v => v.ref != w.ref).filter (u.keepsReversal vs) := by
        rw [List.filter_filter]
        refine List.filter_congr fun v _ => ?_
        unfold State.keepsReversal
        rw [List.all_cons, fit, Bool.false_or, Bool.and_comm, bne_comm]
      have events : u.failedReversals (w :: vs) = u.reversalEvent .REVERSAL_FAILED w :: u.failedReversals vs := by
        unfold State.failedReversals
        rw [List.filter_cons_of_pos (by rw [fit]; rfl), List.map_cons]
      rw [dropped, keeps, events]
      rfl

/-- With the references distinct the entries kept are those of fitted readers. -/
theorem State.keepsReversal_distinct {s : State} {vs : List Reversal} (distinct : (vs.map (·.ref)).Nodup) :
    vs.filter (s.keepsReversal vs) = vs.filter fun v => s.readerFitted v.reader := by
  refine List.filter_congr fun v hv => ?_
  unfold State.keepsReversal
  rw [Bool.eq_iff_iff, List.all_eq_true]
  refine ⟨fun all => ?_, fun fit w hw => ?_⟩
  · have own := all v hv
    simpa using own
  · by_cases same : w.ref = v.ref
    · rw [List.inj_on_of_nodup_map distinct hw hv same, fit]
      rfl
    · rw [bne_iff_ne.mpr same, Bool.or_true]

/-! ### The poll timers, and RECONCILE (R166) -/

theorem updReaders_spec (f : Reader → Reader) (rs : List Nat) : ∀ u : State, rs.Nodup → (∀ r ∈ rs, 1 ≤ r ∧ r ≤ 4) →
    let t := rs.foldl (fun s r => s.updReader r f) u
    t = { u with pbc := { u.pbc with readers := t.pbc.readers } } ∧
      ∀ q, t.reader q = if q ∈ rs then f (u.reader q) else u.reader q := by
  induction rs with
  | nil => exact fun u _ _ => ⟨rfl, fun _ => rfl⟩
  | cons r rs ih =>
    intro u distinct known
    obtain ⟨fresh, rest⟩ := List.nodup_cons.mp distinct
    obtain ⟨frame, read⟩ := ih (u.updReader r f) rest fun q hq => known q (List.mem_cons_of_mem r hq)
    refine ⟨frame, fun q => (read q).trans ?_⟩
    rw [State.reader_updReader]
    by_cases here : r = q
    · subst here
      rw [if_neg fresh, if_pos ⟨rfl, known r List.mem_cons_self⟩, if_pos List.mem_cons_self]
    · rw [if_neg (show ¬ (r = q ∧ 1 ≤ r ∧ r ≤ 4) from fun c => here c.1)]
      simp only [List.mem_cons, Ne.symm here, false_or]

theorem State.readerNos_known (s : State) (r : Nat) : r ∈ s.readerNos ↔ s.readerFitted r = true := by
  unfold State.readerNos State.readerFitted
  rw [List.mem_range'_1, decide_eq_true_eq]
  omega

theorem State.readerFitted_known {s : State} {r : Nat} (h : s.readerFitted r = true) : 1 ≤ r ∧ r ≤ 4 := by
  have := of_decide_eq_true h
  have := s.scu.straps.readers.isLt
  omega

/-- The poll timers of the fitted readers have expired. -/
theorem State.pollTimers_expired (w : State) : let t := w.readerNos.foldl (fun s r =>
      s.updReader r fun x => { x with pollTimer := .expired }) w
    t = { w with pbc := { w.pbc with readers := t.pbc.readers } } ∧
      ∀ r, t.reader r = if w.readerFitted r then { w.reader r with pollTimer := .expired } else w.reader r := by
  obtain ⟨frame, read⟩ := updReaders_spec (fun x => { x with pollTimer := .expired }) w.readerNos w List.nodup_range'
    (fun r hr => State.readerFitted_known ((w.readerNos_known r).mp hr))
  refine ⟨frame, fun r => (read r).trans ?_⟩
  exact if_congr (w.readerNos_known r) rfl rfl

/-- The events of RECONCILE, in order (R166). -/
def State.reconcileEvents (s : State) : List EventRec :=
  (List.range' 1 4).filterMap (fun r => (s.goneCharge r).map s.unsettledEvent) ++ s.failedReversals s.pbc.reversals

/-- What RECONCILE leaves (R166). -/
theorem State.reconcile_eq (s : State) : let t := s.reconcile
    t = { s with
      comps := t.comps
      pbc := { s.pbc with readers := t.pbc.readers, reversals := s.pbc.reversals.filter (s.keepsReversal s.pbc.reversals) }
      kli := s.reconcileEvents.foldl Kli.post s.kli } ∧
    (∀ r, t.reader r = if s.readerFitted r then { s.reconciledReader r with pollTimer := .expired }
      else if 1 ≤ r ∧ r ≤ 4 then s.reconciledReader r else s.reader r) ∧
    ∀ n, isComp n → t.comp n = (s.goneRefs (List.range' 1 4) n).foldl Compartment.withoutRef (s.comp n) := by
  have first := s.reconciling_records
  unfold State.reconcile
  dsimp only
  generalize (List.range' 1 4).foldl State.reconcileCharge s = u at first
  obtain ⟨cs, rs, k, e⟩ : ∃ cs rs k, u = { s with comps := cs, pbc := { s.pbc with readers := rs }, kli := k } :=
    ⟨_, _, _, first.frame⟩
  have second := reconcileReversals_spec u.pbc.reversals u
  have kept : u.pbc.reversals.filter (u.keepsReversal u.pbc.reversals) =
      s.pbc.reversals.filter (s.keepsReversal s.pbc.reversals) := by rw [e]; rfl
  have failed : u.failedReversals u.pbc.reversals = s.failedReversals s.pbc.reversals := by rw [e]; rfl
  rw [kept, failed, first.kli, ← List.foldl_append] at second
  generalize u.pbc.reversals.foldl State.reconcileReversal u = w at second
  obtain ⟨frame, read⟩ := w.pollTimers_expired
  have reader : ∀ r, w.reader r = u.reader r := fun r => by rw [second]; rfl
  have fitted : ∀ r, w.readerFitted r = s.readerFitted r := fun r => by rw [second, e]; rfl
  have comp : ∀ n, w.comp n = u.comp n := fun n => by rw [second]; rfl
  generalize w.readerNos.foldl (fun s r => s.updReader r fun x => { x with pollTimer := .expired }) w = t at frame read
  refine ⟨?_, fun r => ?_, fun n hn => ?_⟩
  · obtain ⟨rs', e'⟩ : ∃ rs', t = { w with pbc := { w.pbc with readers := rs' } } := ⟨_, frame⟩
    rw [e', second, e]
    rfl
  · rw [read r, fitted, reader, first.reader r]
    have known : r ∈ List.range' 1 4 ↔ 1 ≤ r ∧ r ≤ 4 := by
      rw [List.mem_range'_1]
      omega
    cases fit : s.readerFitted r with
    | true =>
      rw [if_pos rfl, if_pos rfl, if_pos (known.mpr (State.readerFitted_known fit))]
    | false =>
      exact (if_neg (by decide)).trans ((if_congr known rfl rfl).trans (if_neg (by decide)).symm)
  · have same : t.comp n = w.comp n := by
      rw [frame]
      rfl
    rw [same, comp, first.comp n hn]

theorem State.reconcile_reader_fitted {s : State} {r : Nat} (fit : s.readerFitted r = true) :
    s.reconcile.reader r = { s.reader r with
      pollTimer := .expired
      charge := (s.reader r).charge.map fun c => { c with phase := .ABANDON_DUE }
      outgoing := match (s.reader r).charge with
        | some c => [.ABANDON c.ref]
        | none => (s.reader r).outgoing } := by
  rw [s.reconcile_eq.2.1 r, if_pos fit]
  unfold State.reconciledReader
  cases charge : (s.reader r).charge with
  | none =>
    dsimp only
    rw [← charge]
    simp [charge]
  | some c =>
    dsimp only
    rw [if_pos fit]
    rfl

theorem State.reconcile_reader_unfitted {s : State} {r : Nat} (fit : s.readerFitted r = false) :
    (s.reconcile.reader r).charge = none := by
  rw [s.reconcile_eq.2.1 r, fit, if_neg Bool.false_ne_true]
  unfold State.reconciledReader
  cases charge : (s.reader r).charge with
  | none =>
    dsimp only
    rw [ite_self, charge]
  | some c =>
    dsimp only
    rw [fit, if_neg Bool.false_ne_true, if_pos (State.reader_known_of_charge charge)]

theorem State.goneCharge_iff {s : State} {r : Nat} {c : Charge} :
    s.goneCharge r = some c ↔ s.readerFitted r = false ∧ (s.reader r).charge = some c := by
  unfold State.goneCharge
  cases s.readerFitted r <;> simp

theorem State.mem_goneRefs {s : State} {n ref : Nat} : ref ∈ s.goneRefs (List.range' 1 4) n ↔
    ∃ r c, s.goneCharge r = some c ∧ c.comp = n ∧ c.ref = ref := by
  unfold State.goneRefs
  rw [List.mem_filterMap]
  constructor
  · rintro ⟨r, _, taken⟩
    obtain ⟨c, gone, held⟩ := Option.bind_eq_some_iff.mp taken
    by_cases here : c.comp = n
    · rw [if_pos here] at held
      exact ⟨r, c, gone, here, Option.some.inj held⟩
    · rw [if_neg here] at held
      exact nomatch held
  · rintro ⟨r, c, gone, here, e⟩
    have := State.reader_known_of_charge (State.goneCharge_iff.mp gone).2
    refine ⟨r, List.mem_range'_1.mpr (by omega), ?_⟩
    rw [gone, Option.bind_some, if_pos here, e]

theorem Kli.mem_posts {k : Kli} {es : List EventRec} {e : EventRec} (room : k.queue.length + es.length ≤ 64) (mem : e ∈ es) :
    e ∈ (es.foldl Kli.post k).queue := by
  rw [Kli.queue_posts es k room]
  exact List.mem_append_right _ mem

theorem State.reconcileEvents_length (s : State) : s.reconcileEvents.length ≤ 4 + s.pbc.reversals.length := by
  unfold State.reconcileEvents State.failedReversals
  rw [List.length_append, List.length_map]
  refine Nat.add_le_add ?_ (List.length_filter_le _ _)
  have := List.length_filterMap_le (fun r => (s.goneCharge r).map s.unsettledEvent) (List.range' 1 4)
  exact this.trans (by decide)

/-- RECONCILE does what R166 says of it. -/
theorem State.reconciled_reconcile (s : State) : s.reconciled s.reconcile := by
  obtain ⟨frame, -, comps⟩ := s.reconcile_eq
  have kli : s.reconcile.kli = s.reconcileEvents.foldl Kli.post s.kli := (congrArg State.kli frame :)
  have reversals : s.reconcile.pbc.reversals = _ := (congrArg (fun u : State => u.pbc.reversals) frame :)
  refine ⟨?_, fun r fit => State.reconcile_reader_fitted fit, fun r fit => State.reconcile_reader_unfitted fit,
    fun distinct => reversals.trans (State.keepsReversal_distinct distinct), fun n other => ?_,
    fun r c x gone known parcel holds => ?_, fun room => ⟨fun r c gone => ?_, fun v mem fit => ?_⟩⟩
  · obtain ⟨cs, rs, vs, k, e⟩ : ∃ cs rs vs k, s.reconcile =
        { s with comps := cs, pbc := { s.pbc with readers := rs, reversals := vs }, kli := k } := ⟨_, _, _, _, frame⟩
    rw [e]
  · by_cases known : isComp n
    · rw [comps n known]
      refine Compartment.withoutRefs_other _ fun x hx ref mem => ?_
      obtain ⟨r, c, gone, here, e⟩ := State.mem_goneRefs.mp mem
      exact e ▸ other r c x (State.goneCharge_iff.mp gone) here hx
    · rw [comp_outside _ known, comp_outside _ known]
  · rw [comps c.comp known]
    exact Compartment.withoutRefs_holder holds _ parcel (State.mem_goneRefs.mpr ⟨r, c, State.goneCharge_iff.mpr gone, rfl, rfl⟩)
  · have known := State.reader_known_of_charge gone.2
    refine ⟨s.unsettledEvent c, ?_, rfl, rfl, rfl, rfl, _, rfl, rfl⟩
    rw [kli]
    refine Kli.mem_posts (by have := s.reconcileEvents_length; omega) (List.mem_append_left _ (List.mem_filterMap.mpr
      ⟨r, List.mem_range'_1.mpr (by omega), ?_⟩))
    rw [State.goneCharge_iff.mpr gone]
    rfl
  · refine ⟨s.reversalEvent .REVERSAL_FAILED v, ?_, ?_⟩
    · rw [kli]
      refine Kli.mem_posts (by have := s.reconcileEvents_length; omega) (List.mem_append_right _ (List.mem_map.mpr
        ⟨v, List.mem_filter.mpr ⟨mem, ?_⟩, rfl⟩))
      rw [fit]
      rfl
    · unfold State.reversalEvent
      cases v.origin <;> exact ⟨rfl, rfl, rfl, rfl⟩

end Sys2Proof.Machine
end

