-- ==== Sys2Proof/Proofs/Settling.lean ====
section
/-! What confirmation, undo, retirement and the end of an operation make of a compartment (R7, R12, R25, R86 to R88). -/

namespace Sys2Proof.Machine

open Sys2Proof

/-! ### Compartments confirmed, undone and retired -/

/-- A compartment whose pending parcel is confirmed at a minute (R12). -/
def Compartment.confirmed (c : Compartment) (m : Nat) (unver : Bool) : Compartment :=
  match c.parcel with
  | none => c
  | some p => { c with
      state := match p.kind with | .DELIVERY => .LOADED | .RETURN => .RETURN_LOADED
      parcel := some { p with pending := false, depositMinute := m, prior := none, unverified := unver || p.unverified } }

/-- A compartment whose parcel is retired (R25). -/
def Compartment.retired (c : Compartment) : Compartment :=
  match c.parcel with
  | none => c
  | some _ => { c with parcel := none, state := .FREE, tagOwner := none }

/-- A compartment whose pending parcel is undone at a minute (R7, R26). -/
def Compartment.undone (c : Compartment) (m : Nat) : Compartment :=
  match c.parcel.map Parcel.prior with
  | none => c
  | some (some (.reserved r)) =>
    if m < r.expiry then { c with state := .RESERVED, parcel := none, reservation := some r }
    else { c with state := .FREE, parcel := none }
  | some _ => { c with state := .FREE, parcel := none }

/-- A compartment with a cause added (R19). -/
def Compartment.withCause (c : Compartment) (k : Cause) : Compartment := { c with causes := c.causes.add k }

theorem Compartment.undone_reserved {c : Compartment} {m : Nat} {x : Parcel} {r : Reservation} (parcel : c.parcel = some x)
    (prior : x.prior = some (.reserved r)) : c.undone m =
      if m < r.expiry then { c with state := .RESERVED, parcel := none, reservation := some r }
      else { c with state := .FREE, parcel := none } := by
  have known : c.parcel.map Parcel.prior = some (some (.reserved r)) := by
    rw [parcel, Option.map_some, prior]
  unfold Compartment.undone
  rw [known]

theorem Compartment.undone_free {c : Compartment} {m : Nat} {x : Parcel} (parcel : c.parcel = some x)
    (prior : x.prior = some .free ∨ ∃ r, x.prior = some (.reserved r) ∧ r.expiry ≤ m) :
    c.undone m = { c with state := .FREE, parcel := none } := by
  rcases prior with free | ⟨r, reserved, over_⟩
  · have known : c.parcel.map Parcel.prior = some (some .free) := by
      rw [parcel, Option.map_some, free]
    unfold Compartment.undone
    rw [known]
  · rw [Compartment.undone_reserved parcel reserved, if_neg (Nat.not_lt.mpr over_)]

theorem Compartment.confirmed_parcel {c : Compartment} {m : Nat} {b : Bool} {x : Parcel} (parcel : c.parcel = some x) :
    c.confirmed m b = { c with
      state := match x.kind with | .DELIVERY => .LOADED | .RETURN => .RETURN_LOADED
      parcel := some { x with pending := false, depositMinute := m, prior := none, unverified := b || x.unverified } } := by
  unfold Compartment.confirmed
  rw [parcel]

theorem Compartment.retired_parcel {c : Compartment} {x : Parcel} (parcel : c.parcel = some x) :
    c.retired = { c with parcel := none, state := .FREE, tagOwner := none } := by
  unfold Compartment.retired
  rw [parcel]

/-! ### The model's operations on the compartment table -/

theorem State.updComp_same {s : State} {n : Nat} {f : Compartment → Compartment} (same : f (s.comp n) = s.comp n) :
    s.updComp n f = s := by
  have table : tput s.comps n (f (s.comp n)) = s.comps := by
    rw [same]
    exact tput_tget _ _ _
  exact congrArg (fun v => { s with comps := v }) table

theorem State.comp_of_updComp {s t : State} {n : Nat} {f : Compartment → Compartment}
    (made : t.comps = (s.updComp n f).comps) (m : Nat) :
    t.comp m = if n = m ∧ isComp n then f (s.comp n) else s.comp m := by
  have read : t.comp m = (s.updComp n f).comp m := congrArg (fun v => tget v Compartment.factory m) made
  exact read.trans (State.comp_updComp s n m f)

theorem State.confirmParcel_eq (s : State) (n : Nat) (b : Bool) :
    s.confirmParcel n b = s.updComp n fun c => c.confirmed s.now b := by
  unfold State.confirmParcel
  cases parcel : (s.comp n).parcel with
  | none =>
    refine (State.updComp_same ?_).symm
    unfold Compartment.confirmed
    rw [parcel]
  | some p =>
    have same : (s.comp n).confirmed s.now b = _ := Compartment.confirmed_parcel parcel
    exact (congrArg (fun x => { s with comps := tput s.comps n x }) same).symm

theorem State.comps_retire (s : State) (n : Nat) : (s.retire n).comps = (s.updComp n Compartment.retired).comps := by
  unfold State.retire
  cases parcel : (s.comp n).parcel with
  | none =>
    refine (congrArg State.comps (State.updComp_same ?_)).symm
    unfold Compartment.retired
    rw [parcel]
  | some p =>
    have same : (s.comp n).retired = _ := Compartment.retired_parcel parcel
    refine Eq.trans ?_ (congrArg (fun x => tput s.comps n x) same).symm
    unfold State.releasePage
    dsimp only
    cases p.code <;> cases p.page <;> rfl

theorem State.comps_undo (s : State) (n : Nat) : (s.undo n).1.comps = (s.updComp n fun c => c.undone s.now).comps := by
  unfold State.undo
  cases parcel : (s.comp n).parcel with
  | none =>
    refine (congrArg State.comps (State.updComp_same ?_)).symm
    unfold Compartment.undone
    rw [parcel]
    rfl
  | some p =>
    have same : (s.updComp n fun c => c.undone s.now).comps = tput s.comps n ((s.comp n).undone s.now) := rfl
    rw [same]
    unfold Compartment.undone State.releasePage
    rw [parcel, Option.map_some]
    dsimp only
    rcases prior : p.prior with _ | (_ | r)
    · cases p.page <;> rfl
    · cases p.page <;> rfl
    · dsimp only
      split <;> cases p.page <;> rfl

theorem State.alloc_retire {s : State} {n : Nat} {x : Parcel} (parcel : (s.comp n).parcel = some x) :
    (s.retire n).alloc = match x.code with | some k => s.alloc.retire k s.now | none => s.alloc := by
  unfold State.retire State.releasePage
  rw [parcel]
  dsimp only
  cases x.code <;> cases x.page <;> rfl

theorem Alloc.retire_retired (a : Alloc) (k m : Nat) : (a.retire k m).retired =
    a.retired.drop (if a.retired.length < 128 then 0 else 1) ++ [{ code := k, minute := m }] := by
  unfold Alloc.retire
  dsimp only
  by_cases room : a.retired.length < Config.retiredPlaces
  · rw [if_pos room, if_pos (show a.retired.length < 128 from room), List.drop_zero]
  · rw [if_neg room, if_neg (show ¬ a.retired.length < 128 from room)]

/-! ### The end of an operation on its compartment (R86 to R88) -/

/-- A delivery left behind opens its retry window (R124). -/
def Compartment.retried (c : Compartment) (m : Nat) : Compartment :=
  { c with parcel := c.parcel.map fun p => { p with retryUntil := some (addMin m Config.window) } }

/-- A compartment after the consistency check of a service opening (R22, R88). -/
def Compartment.checked (c : Compartment) (occ : Bool) : Compartment :=
  { c with
    causes := c.causes.afterCheck (consistent c.state occ)
    parcel := if consistent c.state occ then c.parcel.map fun p => { p with unverified := false } else c.parcel }

/-- A compartment after the end of an operation on it, by purpose and outcome (R86 to R88). -/
def Compartment.ended (c : Compartment) (pu : Purpose) (out : CycleOutcome) (occ : Bool) (m : Nat) : Compartment :=
  match pu with
  | .DEPOSIT | .RETURN_DROP =>
    match out with
    | .COMPLETED => c.confirmed m false
    | .UNCONFIRMED => (c.confirmed m true).withCause .AUDIT_REQUIRED
    | _ => c.undone m
  | .COLLECT =>
    match out with
    | .COMPLETED => c.retired
    | .LEFT_OCCUPIED => c.retried m
    | .UNCONFIRMED => c.withCause .AUDIT_REQUIRED
    | _ => c
  | .SWEEP =>
    match out with
    | .COMPLETED => c.retired
    | .UNCONFIRMED => { c with tagOwner := none }.withCause .AUDIT_REQUIRED
    | _ => { c with tagOwner := none }
  | .SERVICE_OPEN =>
    match out with
    | .COMPLETED => c.checked occ
    | .UNCONFIRMED => c.withCause .AUDIT_REQUIRED
    | _ => c
  | .SERVICE_REMOVE =>
    match out with
    | .COMPLETED => c.retired
    | .UNCONFIRMED => c.withCause .AUDIT_REQUIRED
    | _ => c

/-- Two changes of one compartment in a row. -/
theorem State.comps_updComp_updComp (s : State) (n : Nat) (f g : Compartment → Compartment) :
    ((s.updComp n f).updComp n g).comps = (s.updComp n fun c => g (f c)).comps := by
  by_cases known : isComp n
  · have read : (s.updComp n f).comp n = f (s.comp n) := (State.comp_updComp s n n f).trans (if_pos ⟨rfl, known⟩)
    show tput (tput s.comps n _) n (g ((s.updComp n f).comp n)) = _
    rw [read, tput_tput]
    rfl
  · have outside : ∀ (v : Vector Compartment 240) (x : Compartment), tput v n x = v := fun v x => by
      cases n with
      | zero => rfl
      | succ k => exact Vector.setIfInBounds_eq_of_size_le (by omega)
    show tput (tput s.comps n _) n _ = tput s.comps n _
    rw [outside, outside, outside]

theorem State.endDeposit_comps (s : State) (n : Nat) (out : CycleOutcome) (occ : Bool) : (s.endDeposit n out).1.comps =
    (s.updComp n fun c => c.ended .DEPOSIT out occ s.now).comps := by
  cases out
  case COMPLETED => exact congrArg State.comps (s.confirmParcel_eq n false)
  case UNCONFIRMED =>
    show ((s.confirmParcel n true).markCause n .AUDIT_REQUIRED).comps = _
    rw [s.confirmParcel_eq]
    exact s.comps_updComp_updComp n _ _
  all_goals exact s.comps_undo n

theorem State.endCollect_comps (s : State) (n : Nat) (out : CycleOutcome) (occ : Bool) : (s.endCollect n out).1.comps =
    (s.updComp n fun c => c.ended .COLLECT out occ s.now).comps := by
  cases out
  case COMPLETED => exact s.comps_retire n
  case UNCONFIRMED => rfl
  case LEFT_OCCUPIED => rfl
  all_goals exact congrArg State.comps (State.updComp_same (s := s) (n := n) rfl).symm

theorem State.endSweep_comps (s : State) (n : Nat) (out : CycleOutcome) (occ : Bool) : (s.endSweep n out).1.comps =
    (s.updComp n fun c => c.ended .SWEEP out occ s.now).comps := by
  cases out
  case COMPLETED => exact s.comps_retire n
  case UNCONFIRMED => exact s.comps_updComp_updComp n _ _
  all_goals rfl

theorem State.endServiceOpen_comps (s : State) (n : Nat) (out : CycleOutcome) (occ : Bool) :
    (s.endServiceOpen n out occ).1.comps = (s.updComp n fun c => c.ended .SERVICE_OPEN out occ s.now).comps := by
  cases out
  case COMPLETED => rfl
  case UNCONFIRMED => rfl
  all_goals exact congrArg State.comps (State.updComp_same (s := s) (n := n) rfl).symm

theorem State.endServiceRemove_comps (s : State) (n : Nat) (out : CycleOutcome) (occ : Bool) :
    (s.endServiceRemove n out).1.comps = (s.updComp n fun c => c.ended .SERVICE_REMOVE out occ s.now).comps := by
  cases out
  case COMPLETED => exact s.comps_retire n
  case UNCONFIRMED => rfl
  all_goals exact congrArg State.comps (State.updComp_same (s := s) (n := n) rfl).symm

theorem State.endEffect_comps (s : State) (o : Op) (out : CycleOutcome) (occ : Bool) : (s.endEffect o out occ).1.comps =
    (s.updComp o.comp fun c => c.ended o.purpose out occ s.now).comps := by
  unfold State.endEffect
  cases o.purpose
  case DEPOSIT => exact s.endDeposit_comps o.comp out occ
  case RETURN_DROP => exact s.endDeposit_comps o.comp out occ
  case COLLECT => exact s.endCollect_comps o.comp out occ
  case SWEEP => exact s.endSweep_comps o.comp out occ
  case SERVICE_OPEN => exact s.endServiceOpen_comps o.comp out occ
  case SERVICE_REMOVE => exact s.endServiceRemove_comps o.comp out occ

/-- What the end of an operation does to its compartment leaves the rest (R86 to R88). -/
theorem State.endEffect_frame (s : State) (o : Op) (out : CycleOutcome) (occ : Bool) : (s.endEffect o out occ).1 = { s with
    comps := (s.endEffect o out occ).1.comps
    alloc := (s.endEffect o out occ).1.alloc
    tariff := (s.endEffect o out occ).1.tariff } := by
  have undone : ∀ n, (s.undo n).1 = { s with
      comps := (s.undo n).1.comps, alloc := (s.undo n).1.alloc, tariff := (s.undo n).1.tariff } := fun n => by
    obtain ⟨cs, t, e⟩ : ∃ cs t, (s.undo n).1 = { s with comps := cs, tariff := t } := ⟨_, _, s.undo_eq n⟩
    rw [e]
  have confirmed : ∀ n b, s.confirmParcel n b = { s with
      comps := (s.confirmParcel n b).comps
      alloc := (s.confirmParcel n b).alloc
      tariff := (s.confirmParcel n b).tariff } := fun n b => by
    rw [s.confirmParcel_eq]
    rfl
  unfold State.endEffect
  cases o.purpose
  case DEPOSIT | RETURN_DROP =>
    cases out
    case COMPLETED => exact confirmed o.comp false
    case UNCONFIRMED =>
      have marked : ∀ t : State, t = { s with comps := t.comps, alloc := t.alloc, tariff := t.tariff } →
          t.markCause o.comp .AUDIT_REQUIRED = { s with
            comps := (t.markCause o.comp .AUDIT_REQUIRED).comps, alloc := t.alloc, tariff := t.tariff } := fun t e =>
        congrArg (fun u : State => u.markCause o.comp .AUDIT_REQUIRED) e
      exact marked _ (confirmed o.comp true)
    all_goals exact undone o.comp
  case SERVICE_OPEN => cases out <;> rfl
  case COLLECT =>
    cases out
    case COMPLETED => exact s.retire_eq o.comp
    all_goals rfl
  case SWEEP =>
    cases out
    case COMPLETED => exact s.retire_eq o.comp
    all_goals rfl
  case SERVICE_REMOVE =>
    cases out
    case COMPLETED => exact s.retire_eq o.comp
    all_goals rfl

end Sys2Proof.Machine
end

