-- ==== Sys2Proof/Proofs/Ends.lean ====
section
/-! The end of an operation: what it does to the compartment, the table, the queues, the reader and the events (R84 to R89). -/

namespace Sys2Proof.Machine

open Sys2Proof

/-! ### The parts of an end -/

/-- Records posted in turn. -/
def State.posts (s : State) (es : List EventRec) : State := { s with kli := es.foldl Kli.post s.kli }

/-- The note of an end (R89, R181). -/
def State.endNote (s : State) (o : Op) (out : CycleOutcome) (occ : Bool) : EndNote := (s.endEffect o out occ).2

/-- The state after the compartment and the reversal of an end (R86 to R88, R161). -/
def State.afterReversal (s : State) (o : Op) (out : CycleOutcome) (occ : Bool) : State × Bool :=
  (s.endEffect o out occ).1.reverseDrop o out (s.dropReader o)

/-- The state after an end but for its events, its run and its charge (R85). -/
def State.endedBy (s : State) (o : Op) (out : CycleOutcome) (occ : Bool) : State :=
  (((s.afterReversal o out occ).1.updComp o.comp fun c => { c with purpose := none }).updLink o.link fun x =>
    x.leave o.job).removeOp o.job

/-- CYCLE_DONE of an end, and RESERVATION_EXPIRED where the reservation of an undone deposit has lapsed (R7, R89). -/
def State.endEvents (s : State) (o : Op) (out : CycleOutcome) (occ : Bool) : List EventRec :=
  s.cycleDone o out (s.endNote o out occ) (s.afterReversal o out occ).2 ::
    ((s.endNote o out occ).lapsed.map (s.expiredEvent o.comp)).toList

/-- PARCEL_SWEPT of a SWEEP ended COMPLETED (R181). -/
def State.sweptEvents (s : State) (o : Op) (note : EndNote) : List EventRec :=
  (note.swept.map fun w => s.parcelSwept o note w.1 w.2).toList

/-- The fee that a swept parcel leaves unpaid (R181). -/
def EndNote.unpaid (note : EndNote) : Nat := (note.swept.bind fun w => w.2.map (·.due)).getD 0

theorem State.reverseDrop_frame (s : State) (o : Op) (out : CycleOutcome) (r : Nat) :
    (s.reverseDrop o out r).1 = { s with pbc := (s.reverseDrop o out r).1.pbc } := by
  unfold State.reverseDrop State.queueReversal
  by_cases owes : o.owesReversal out = true
  · rw [if_pos owes]
    dsimp only
    by_cases room : s.pbc.reversals.length < Config.reversalPlaces
    · rw [if_pos room]
      by_cases idle : (s.reader r).state = .IDLE
      · rw [if_pos idle]
        obtain ⟨rs, e⟩ : ∃ rs, ((s.updPbc fun p => { p with reversals := p.reversals ++
            [{ ref := o.chargeRef.getD 0, amount := o.amount.getD 0, reader := r, comp := o.comp, origin := .job o.job }]
            }).restReader r) = { s with pbc := rs } := ⟨_, State.restReader_frame _ r⟩
        rw [e]
      · rw [if_neg idle]
        rfl
    · rw [if_neg room]
  · rw [if_neg owes]

theorem State.afterReversal_frame (s : State) (o : Op) (out : CycleOutcome) (occ : Bool) :
    (s.afterReversal o out occ).1 = { s with
      comps := (s.endEffect o out occ).1.comps
      alloc := (s.endEffect o out occ).1.alloc
      tariff := (s.endEffect o out occ).1.tariff
      pbc := (s.afterReversal o out occ).1.pbc } := by
  obtain ⟨cs, al, ta, e⟩ : ∃ cs al ta, (s.endEffect o out occ).1 = { s with comps := cs, alloc := al, tariff := ta } :=
    ⟨_, _, _, s.endEffect_frame o out occ⟩
  unfold State.afterReversal
  refine (State.reverseDrop_frame _ o out _).trans ?_
  rw [e]

/-- The end of an operation touches its compartment, its table entry, its queue and what hangs on the parcel (R85). -/
theorem State.endedBy_frame (s : State) (o : Op) (out : CycleOutcome) (occ : Bool) : s.endedBy o out occ = { s with
    comps := (s.updComp o.comp fun c => { c.ended o.purpose out occ s.now with purpose := none }).comps
    links := (s.updLink o.link fun x => x.leave o.job).links
    alloc := (s.endEffect o out occ).1.alloc
    tariff := (s.endEffect o out occ).1.tariff
    hce := { s.hce with ops := s.hce.ops.filter fun y => y.job != o.job }
    pbc := (s.afterReversal o out occ).1.pbc } := by
  have comps : ((s.endEffect o out occ).1.updComp o.comp fun c => { c with purpose := none }).comps =
      (s.updComp o.comp fun c => { c.ended o.purpose out occ s.now with purpose := none }).comps := by
    refine Eq.trans ?_ (s.comps_updComp_updComp o.comp (fun c => c.ended o.purpose out occ s.now) fun c =>
      { c with purpose := none })
    have same := s.endEffect_comps o out occ
    exact congrArg (fun v => tput v o.comp { tget v Compartment.factory o.comp with purpose := none }) same
  unfold State.endedBy
  rw [s.afterReversal_frame, ← comps]
  rfl

/-! ### The end as a whole -/

theorem State.endOp_unfold (s : State) (o : Op) (out : CycleOutcome) (occ : Bool) : s.endOp o out occ =
    let t := (s.endedBy o out occ).posts (s.endEvents o out occ)
    let u := if o.purpose = .SWEEP then t.handSweep o out (s.endNote o out occ) else t
    if o.stage = .AWAIT_PAYMENT ∧ out = .HELD then u.abandonOf o.job else u := by
  have now : (s.endedBy o out occ).now = s.now := by
    rw [s.endedBy_frame]
    rfl
  have event : ∀ k, (s.endedBy o out occ).event k = s.event k := fun k => by
    unfold State.event
    rw [now]
  have done_ : (s.endedBy o out occ).cycleDone o out (s.endNote o out occ) (s.afterReversal o out occ).2 =
      s.cycleDone o out (s.endNote o out occ) (s.afterReversal o out occ).2 := by
    unfold State.cycleDone
    rw [event]
  have posted : (s.endedBy o out occ).posts (s.endEvents o out occ) =
      match (s.endNote o out occ).lapsed with
      | some v => (((s.endedBy o out occ).post ((s.endedBy o out occ).cycleDone o out (s.endNote o out occ)
          (s.afterReversal o out occ).2))).post (s.expiredEvent o.comp v)
      | none => (s.endedBy o out occ).post ((s.endedBy o out occ).cycleDone o out (s.endNote o out occ)
          (s.afterReversal o out occ).2) := by
    rw [done_]
    unfold State.endEvents
    cases (s.endNote o out occ).lapsed <;> rfl
  have expired : ∀ (u : State) (v : Reservation), u.now = s.now → u.expiredEvent o.comp v = s.expiredEvent o.comp v := by
    intro u v e
    unfold State.expiredEvent State.event
    rw [e]
  unfold State.endOp
  dsimp only
  rw [posted]
  change (if _ then _ else _) = _
  generalize reversed : (s.endEffect o out occ).1.reverseDrop o out (s.dropReader o) = w
  have base : ((w.1.updComp o.comp fun c => { c with purpose := none }).updLink o.link fun x => x.leave o.job).removeOp
      o.job = s.endedBy o out occ := by
    rw [← reversed]
    rfl
  have refused : w.2 = (s.afterReversal o out occ).2 := by
    rw [← reversed]
    rfl
  have note : (s.endEffect o out occ).2 = s.endNote o out occ := rfl
  rw [base, refused, note]
  cases (s.endNote o out occ).lapsed with
  | none => rfl
  | some v =>
    dsimp only
    rw [expired _ v (show ((s.endedBy o out occ).post _).now = s.now from now)]

/-- A state without a sweep run. -/
def State.noRun (s : State) : Prop := s.swu.k1.run = none ∧ s.swu.k2.run = none

theorem State.noRun.side {s : State} (h : s.noRun) (k : Courier) : (s.side k).run = none := by
  cases k
  · exact h.1
  · exact h.2

theorem State.topUpEnd_none {s : State} {k : Courier} (run : (s.side k).run = none) : s.topUpEnd k = s := by
  unfold State.topUpEnd
  rw [State.topUp_off (.inr (.inr run))]
  unfold State.endRun
  rw [run]

theorem State.updRun_none {s : State} {k : Courier} {f : Run → Run} (run : (s.side k).run = none) : s.updRun k f = s := by
  cases k
  case K1 =>
    have none_ : s.swu.k1.run = none := run
    show { s with swu := { s.swu with k1 := { s.swu.k1 with run := s.swu.k1.run.map f } } } = s
    rw [none_, Option.map_none, ← none_]
  case K2 =>
    have none_ : s.swu.k2.run = none := run
    show { s with swu := { s.swu with k2 := { s.swu.k2 with run := s.swu.k2.run.map f } } } = s
    rw [none_, Option.map_none, ← none_]

/-- The end of a SWEEP at the Sweep Unit, before the top-ups (R181). -/
def State.counted (s : State) (o : Op) (out : CycleOutcome) (note : EndNote) (k : Courier) : State :=
  (s.updRun k fun r => r.count out note.unpaid).posts (s.sweptEvents o note)

theorem State.handSweep_courier {s : State} {o : Op} {out : CycleOutcome} {note : EndNote} {k : Courier}
    (courier : courierOf o.station = some k) :
    s.handSweep o out note = ((s.counted o out note k).topUpEnd k).topUpEnd k.other := by
  unfold State.handSweep State.counted State.sweptEvents EndNote.unpaid
  rw [courier]
  dsimp only
  rcases note.swept with _ | ⟨paid, _ | q⟩ <;> rfl

theorem State.handSweep_noRun {s : State} {o : Op} {out : CycleOutcome} {note : EndNote} (h : s.noRun) :
    s.handSweep o out note = s.posts (if (courierOf o.station).isSome then s.sweptEvents o note else []) := by
  cases courier : courierOf o.station with
  | none =>
    unfold State.handSweep
    rw [courier]
    rfl
  | some k =>
    have idle : s.counted o out note k = s.posts (s.sweptEvents o note) := by
      unfold State.counted
      rw [State.updRun_none (h.side k)]
    have posted : (s.posts (s.sweptEvents o note)).noRun := h
    rw [State.handSweep_courier courier, idle, State.topUpEnd_none (posted.side k), State.topUpEnd_none (posted.side k.other)]
    rfl

/-- The events of an end where no sweep runs, or of one that is no SWEEP. -/
def State.allEvents (s : State) (o : Op) (out : CycleOutcome) (occ : Bool) : List EventRec :=
  s.endEvents o out occ ++
    if o.purpose = .SWEEP ∧ (courierOf o.station).isSome then s.sweptEvents o (s.endNote o out occ) else []

/-- The end of an operation that no sweep run hears of (R85). -/
theorem State.endOp_eq {s : State} {o : Op} {out : CycleOutcome} {occ : Bool} (alone : o.purpose ≠ .SWEEP ∨ s.noRun) :
    s.endOp o out occ =
      let t := (s.endedBy o out occ).posts (s.allEvents o out occ)
      if o.stage = .AWAIT_PAYMENT ∧ out = .HELD then t.abandonOf o.job else t := by
  rw [s.endOp_unfold]
  dsimp only
  have handed : (if o.purpose = .SWEEP then ((s.endedBy o out occ).posts (s.endEvents o out occ)).handSweep o out
      (s.endNote o out occ) else (s.endedBy o out occ).posts (s.endEvents o out occ)) =
      (s.endedBy o out occ).posts (s.allEvents o out occ) := by
    unfold State.allEvents
    by_cases sweep : o.purpose = .SWEEP
    · have idle := alone.resolve_left fun c => c sweep
      have stays : ((s.endedBy o out occ).posts (s.endEvents o out occ)).noRun := by
        rw [s.endedBy_frame]
        exact idle
      have swept : ((s.endedBy o out occ).posts (s.endEvents o out occ)).sweptEvents o (s.endNote o out occ) =
          s.sweptEvents o (s.endNote o out occ) := by
        rw [s.endedBy_frame]
        rfl
      rw [if_pos sweep, State.handSweep_noRun stays, swept]
      simp only [sweep, true_and]
      unfold State.posts
      rw [List.foldl_append]
    · rw [if_neg sweep, if_neg fun c => sweep c.1, List.append_nil]
  rw [handed]

theorem State.endOp_plain {s : State} {o : Op} {out : CycleOutcome} {occ : Bool} (alone : o.purpose ≠ .SWEEP ∨ s.noRun)
    (kept : ¬ (o.stage = .AWAIT_PAYMENT ∧ out = .HELD)) :
    s.endOp o out occ = (s.endedBy o out occ).posts (s.allEvents o out occ) :=
  (State.endOp_eq alone).trans (if_neg kept)

end Sys2Proof.Machine
end

