-- ==== Sys2Proof/Proofs/Endings.lean ====
section
/-! The end of an operation settles its compartment, its reversal and its run (R86 to R88, R161, R181, R182). -/

namespace Sys2Proof.Machine

open Sys2Proof

/-! ### Events posted -/

theorem Kli.mem_post {k : Kli} {x : EventRec} (e : EventRec) (mem : x ∈ k.queue) : x ∈ (k.post e).queue := by
  by_cases room : k.queue.length + 1 ≤ 64
  · rw [Kli.queue_post e room]
    exact List.mem_append_left _ mem
  · have full : ¬ k.queue.length < Config.queuePlaces := fun c => room c
    unfold Kli.post
    rw [if_neg full]
    exact mem

theorem Kli.mem_foldl_post {x : EventRec} (es : List EventRec) : ∀ {k : Kli}, x ∈ k.queue → x ∈ (es.foldl Kli.post k).queue := by
  induction es with
  | nil => exact fun mem => mem
  | cons e es ih => exact fun mem => ih (Kli.mem_post e mem)

theorem Kli.mem_posts_head {k : Kli} {e : EventRec} (es : List EventRec) (room : k.queue.length < 64) :
    e ∈ ((e :: es).foldl Kli.post k).queue := by
  refine Kli.mem_foldl_post es ?_
  rw [Kli.queue_post e room]
  exact List.mem_append_right _ (List.mem_singleton_self e)

theorem State.cycleDone_items (s : State) (o : Op) (out : CycleOutcome) (note : EndNote) (b : Bool) :
    let e := s.cycleDone o out note b
    e.kind = .CYCLE_DONE ∧ e.comp = some o.comp ∧ e.job = some o.job ∧ e.outcome = some out ∧
      e.chargeRef = o.chargeRef ∧ e.amount = (if o.chargeRef.isSome then o.amount else none) ∧
      e.flags = some { faulted := o.faulted, mismatch := note.mismatch, unverified := note.unverified,
                       refundNotIssued := b || o.refundNotIssued } := by
  unfold State.cycleDone
  cases note.ident <;> exact ⟨rfl, rfl, rfl, rfl, rfl, rfl, rfl⟩

/-- CYCLE_DONE stands in the queue after the end of an operation where it has room. -/
theorem State.cycleDone_posted (s t : State) (o : Op) (out : CycleOutcome) (occ : Bool) (es : List EventRec)
    (room : t.kli.queue.length < 64) : ∃ e ∈ (t.posts (s.endEvents o out occ ++ es)).kli.queue,
      e.kind = .CYCLE_DONE ∧ e.comp = some o.comp ∧ e.job = some o.job ∧ e.outcome = some out ∧
      e.chargeRef = o.chargeRef ∧ e.amount = (if o.chargeRef.isSome then o.amount else none) ∧
      ∃ f, e.flags = some f ∧ f.faulted = o.faulted ∧
        f.refundNotIssued = ((s.afterReversal o out occ).2 || o.refundNotIssued) := by
  obtain ⟨kind, comp, job, outcome, ref, amount, flags⟩ :=
    s.cycleDone_items o out (s.endNote o out occ) (s.afterReversal o out occ).2
  refine ⟨_, ?_, kind, comp, job, outcome, ref, amount, _, flags, rfl, rfl⟩
  exact Kli.mem_posts_head _ room

/-! ### An end on its compartment, read from outside -/

theorem State.endedBy_comps (s : State) (o : Op) (out : CycleOutcome) (occ : Bool) (es : List EventRec) :
    ((s.endedBy o out occ).posts es).comps =
      (s.updComp o.comp fun c => { c.ended o.purpose out occ s.now with purpose := none }).comps :=
  (congrArg State.comps (s.endedBy_frame o out occ) :)

theorem State.endedBy_comp {s : State} {o : Op} {out : CycleOutcome} {occ : Bool} (es : List EventRec) (known : isComp o.comp) :
    ((s.endedBy o out occ).posts es).comp o.comp =
      { (s.comp o.comp).ended o.purpose out occ s.now with purpose := none } :=
  (State.comp_of_updComp (s.endedBy_comps o out occ es) o.comp).trans (if_pos ⟨rfl, known⟩)

theorem State.endedBy_others (s : State) (o : Op) (out : CycleOutcome) (occ : Bool) (es : List EventRec) :
    s.otherComps ((s.endedBy o out occ).posts es) o.comp := fun m other =>
  (State.comp_of_updComp (s.endedBy_comps o out occ es) m).trans (if_neg fun c => other c.1.symm)

theorem State.endedBy_retired {s : State} {o : Op} {occ : Bool} {x : Parcel} {k : Nat} (es : List EventRec)
    (retires : o.purpose = .COLLECT ∨ o.purpose = .SERVICE_REMOVE ∨ o.purpose = .SWEEP)
    (parcel : (s.comp o.comp).parcel = some x) (code : x.code = some k) :
    ((s.endedBy o .COMPLETED occ).posts es).alloc.retired =
      s.alloc.retired.drop (if s.alloc.retired.length < 128 then 0 else 1) ++ [{ code := k, minute := s.now }] := by
  have alloc : ((s.endedBy o .COMPLETED occ).posts es).alloc = (s.endEffect o .COMPLETED occ).1.alloc :=
    (congrArg State.alloc (s.endedBy_frame o .COMPLETED occ) :)
  have effect : (s.endEffect o .COMPLETED occ).1 = s.retire o.comp := by
    unfold State.endEffect
    rcases retires with e | e | e <;> rw [e] <;> rfl
  rw [alloc, effect, State.alloc_retire parcel, code]
  exact s.alloc.retire_retired k s.now

/-- A service opening that ends COMPLETED checks the sensed occupancy (R22, R88). -/
theorem Compartment.checked_ok {c : Compartment} {occ : Bool} (ok : consistent c.state occ = true) : c.checked occ = { c with
    causes := { c.causes with auditRequired := false, mismatch := false, openAtStart := false }
    parcel := c.parcel.map fun p => { p with unverified := false } } := by
  unfold Compartment.checked Causes.afterCheck
  rw [ok]
  rfl

theorem Compartment.checked_mismatch {c : Compartment} {occ : Bool} (bad : consistent c.state occ = false) :
    c.checked occ = { c with causes := { c.causes with mismatch := true } } := by
  unfold Compartment.checked Causes.afterCheck
  rw [bad]
  rfl

/-- The consistency check of R22 by the state of the compartment. -/
theorem consistent_iff {st : CompState} {occ : Bool} : consistent st occ = true ↔
    st ≠ .DEPOSITING ∧ occ = decide (st = .LOADED ∨ st = .RETURN_LOADED) := by
  cases st <;> cases occ <;> decide

theorem Compartment.ended_undone {c : Compartment} {pu : Purpose} {out : CycleOutcome} {occ : Bool} {m : Nat}
    (deposit : pu = .DEPOSIT ∨ pu = .RETURN_DROP) (uncompleted : out ≠ .COMPLETED) (confirmed : out ≠ .UNCONFIRMED) :
    c.ended pu out occ m = c.undone m := by
  rcases deposit with rfl | rfl
  all_goals
    cases out
    case COMPLETED => exact absurd rfl uncompleted
    case UNCONFIRMED => exact absurd rfl confirmed
    all_goals rfl

theorem Compartment.ended_kept {c : Compartment} {pu : Purpose} {out : CycleOutcome} {occ : Bool} {m : Nat}
    (takes : pu = .COLLECT ∨ pu = .SERVICE_REMOVE) (uncompleted : out ≠ .COMPLETED) (confirmed : out ≠ .UNCONFIRMED)
    (emptied : out ≠ .LEFT_OCCUPIED) : c.ended pu out occ m = c := by
  rcases takes with rfl | rfl
  all_goals
    cases out
    case COMPLETED => exact absurd rfl uncompleted
    case UNCONFIRMED => exact absurd rfl confirmed
    case LEFT_OCCUPIED => exact absurd rfl emptied
    all_goals rfl

/-! ### The reversal of an undone return drop (R86, R161, R172) -/

theorem State.pbc_queueReversal {s : State} {v : Reversal} :
    (s.pbc.reversals.length < 8 → (s.queueReversal v).1.pbc.reversals = s.pbc.reversals ++ [v] ∧ (s.queueReversal v).2 = true) ∧
    (8 ≤ s.pbc.reversals.length → s.queueReversal v = (s, false)) := by
  unfold State.queueReversal
  refine ⟨fun room => ?_, fun full => if_neg (Nat.not_lt.mpr full)⟩
  rw [if_pos (show s.pbc.reversals.length < Config.reversalPlaces from room)]
  dsimp only
  by_cases idle : (s.reader v.reader).state = .IDLE
  · rw [if_pos idle]
    exact ⟨(congrArg (fun u : State => u.pbc.reversals) (State.restReader_frame _ v.reader) :), rfl⟩
  · rw [if_neg idle]
    exact ⟨rfl, rfl⟩

/-- The reversal that an undone return drop asks for (R161, R172). -/
def Op.reversalOf (o : Op) (ref a : Nat) (x : Parcel) : Reversal :=
  { ref := ref, amount := a, reader := x.chargeReader.getD o.station, comp := o.comp, origin := .job o.job }

section
variable {s : State} {o : Op} {out : CycleOutcome} {occ : Bool} {ref a : Nat} {x : Parcel}

theorem State.afterReversal_owed (purpose : o.purpose = .RETURN_DROP) (stage : o.stage ≠ .AWAIT_PAYMENT)
    (held : o.chargeRef = some ref) (amount : o.amount = some a) (uncompleted : out ≠ .COMPLETED)
    (confirmed : out ≠ .UNCONFIRMED) (parcel : (s.comp o.comp).parcel = some x) :
    s.afterReversal o out occ = (((s.endEffect o out occ).1.queueReversal (o.reversalOf ref a x)).1,
      !((s.endEffect o out occ).1.queueReversal (o.reversalOf ref a x)).2) := by
  have owes : o.owesReversal out = true := by
    unfold Op.owesReversal
    rw [held]
    simp [purpose, stage, uncompleted, confirmed]
  have reader : s.dropReader o = x.chargeReader.getD o.station := by
    unfold State.dropReader
    rw [parcel]
    rfl
  unfold State.afterReversal State.reverseDrop
  rw [if_pos owes, reader, held, amount]
  rfl

theorem State.pbc_endEffect : (s.endEffect o out occ).1.pbc = s.pbc := (congrArg State.pbc (s.endEffect_frame o out occ) :)

end

/-! ### The end of a SWEEP at its run (R181, R182) -/

theorem State.topUp_empty {s : State} {k : Courier} {r : Run} (run : (s.side k).run = some r) (pending : r.pending = []) :
    (s.topUp k).1 = s := by
  unfold State.topUp
  rw [run]
  dsimp only
  rw [pending]
  split <;> rfl

theorem State.topUpEnd_empty {s : State} {k : Courier} {r : Run} (run : (s.side k).run = some r) (pending : r.pending = []) :
    s.topUpEnd k = if s.hce.ops.any (Op.sweepOf · k) then s else
      (s.updSide k fun x => { x with run := none }).post (s.sweepDone k r) := by
  unfold State.topUpEnd
  rw [State.topUp_empty run pending]
  unfold State.endRun
  rw [run]
  dsimp only
  cases s.hce.ops.any (Op.sweepOf · k) with
  | true => exact if_neg fun c => nomatch c.2
  | false => exact if_pos ⟨pending, rfl⟩

theorem Run.count_pending (r : Run) (out : CycleOutcome) (due : Nat) : (r.count out due).pending = r.pending := by
  cases out <;> rfl

theorem Run.count_job (r : Run) (out : CycleOutcome) (due : Nat) : (r.count out due).job = r.job := by
  cases out <;> rfl

theorem Run.count_total (r : Run) (out : CycleOutcome) (due : Nat) : let r' := r.count out due
    r'.completed + r'.leftOccupied + r'.notOpened + r'.cancelled + r'.skipped =
      r.completed + r.leftOccupied + r.notOpened + r.cancelled + r.skipped + 1 := by
  cases out <;> simp only [Run.count] <;> omega

theorem State.counted_frame (s : State) (o : Op) (out : CycleOutcome) (note : EndNote) (k : Courier) :
    s.counted o out note k = { s with swu := (s.counted o out note k).swu, kli := (s.sweptEvents o note).foldl Kli.post s.kli } := by
  cases k <;> rfl

theorem State.counted_side (s : State) (o : Op) (out : CycleOutcome) (note : EndNote) (k : Courier) :
    (s.counted o out note k).side k = { s.side k with run := (s.side k).run.map fun r => r.count out note.unpaid } ∧
    (s.counted o out note k).side k.other = s.side k.other := by
  cases k <;> exact ⟨rfl, rfl⟩

/-- The state of a SWEEP's end as it comes to the Sweep Unit (R85, R181). -/
theorem State.endOp_sweep {s : State} {o : Op} {out : CycleOutcome} {occ : Bool} {k : Courier} (sweep : o.purpose = .SWEEP)
    (courier : courierOf o.station = some k) (kept : ¬ (o.stage = .AWAIT_PAYMENT ∧ out = .HELD)) :
    s.endOp o out occ = ((((s.endedBy o out occ).posts (s.endEvents o out occ)).counted o out (s.endNote o out occ) k
      ).topUpEnd k).topUpEnd k.other := by
  rw [s.endOp_unfold]
  dsimp only
  rw [if_pos sweep, if_neg kept, State.handSweep_courier courier]

theorem State.endNote_sweep {s : State} {o : Op} {out : CycleOutcome} {occ : Bool} {x : Parcel} (sweep : o.purpose = .SWEEP)
    (parcel : (s.comp o.comp).parcel = some x) : (s.endNote o out occ).lapsed = none ∧
      (s.endNote o out occ).swept = if out = .COMPLETED then
        some (x.paid, if x.kind = .DELIVERY then some (s.quoteAt s.now x) else none) else none := by
  have effect : s.endNote o out occ = (s.endSweep o.comp out).2 := by
    unfold State.endNote State.endEffect
    rw [sweep]
  rw [effect]
  cases out
  case COMPLETED =>
    refine ⟨rfl, ?_⟩
    show ((s.comp o.comp).parcel.map fun p => _) = _
    rw [parcel]
    rfl
  all_goals exact ⟨rfl, rfl⟩

/-! ### O56 -/

/-- The end of an operation that is no SWEEP on its compartment (R85 to R88). -/
theorem State.endOp_settles {o : Op} {out : CycleOutcome} {occ : Bool} {x : Parcel} {s : State} (plain : o.purpose ≠ .SWEEP)
    (kept : out = .HELD → o.stage ≠ .AWAIT_PAYMENT) (known : isComp o.comp) (parcel : (s.comp o.comp).parcel = some x) :
    let n := o.comp
    let c := { s.comp n with purpose := none }
    let t := s.endOp o out occ
    (t.hce.ops = s.hce.ops.filter (fun y => y.job != o.job) ∧ s.otherComps t n ∧ t.sects = s.sects ∧
      t.hatchMap = s.hatchMap ∧ t.arb = s.arb ∧ t.swu = s.swu ∧ t.scu = s.scu ∧ t.gates = s.gates ∧
      (s.kli.queue.length < 64 → ∃ e ∈ t.kli.queue, e.kind = .CYCLE_DONE ∧ e.comp = some n ∧ e.job = some o.job ∧
        e.outcome = some out)) ∧
    (o.purpose = .DEPOSIT ∨ o.purpose = .RETURN_DROP →
      let st := match x.kind with | .DELIVERY => CompState.LOADED | .RETURN => .RETURN_LOADED
      let y := { x with pending := false, depositMinute := s.now, prior := none }
      (out = .COMPLETED → t.comp n = { c with state := st, parcel := some y }) ∧
      (out = .UNCONFIRMED → t.comp n = { c with
        state := st, parcel := some { y with unverified := true }, causes := c.causes.add .AUDIT_REQUIRED }) ∧
      (out ≠ .COMPLETED → out ≠ .UNCONFIRMED →
        (∀ r, x.prior = some (.reserved r) → s.now < r.expiry →
          t.comp n = { c with state := .RESERVED, parcel := none, reservation := some r }) ∧
        (x.prior = some .free ∨ (∃ r, x.prior = some (.reserved r) ∧ r.expiry ≤ s.now) →
          t.comp n = { c with state := .FREE, parcel := none }))) ∧
    (o.purpose = .COLLECT ∨ o.purpose = .SERVICE_REMOVE →
      (out = .COMPLETED → t.comp n = { c with state := .FREE, parcel := none, tagOwner := none } ∧
        ∀ k, x.code = some k → t.alloc.retired =
          s.alloc.retired.drop (if s.alloc.retired.length < 128 then 0 else 1) ++ [{ code := k, minute := s.now }]) ∧
      (out = .UNCONFIRMED → t.comp n = { c with causes := c.causes.add .AUDIT_REQUIRED }) ∧
      (out = .LEFT_OCCUPIED → o.purpose = .COLLECT →
        t.comp n = { c with parcel := some { x with retryUntil := some (min (s.now + 15) 4294967295) } }) ∧
      (out ≠ .COMPLETED → out ≠ .UNCONFIRMED → out ≠ .LEFT_OCCUPIED → t.comp n = c)) ∧
    (o.purpose = .SERVICE_OPEN →
      (out = .COMPLETED → occ = decide (c.state = .LOADED ∨ c.state = .RETURN_LOADED) → c.state ≠ .DEPOSITING →
        t.comp n = { c with
          causes := { c.causes with auditRequired := false, mismatch := false, openAtStart := false }
          parcel := some { x with unverified := false } }) ∧
      (out = .COMPLETED → occ ≠ decide (c.state = .LOADED ∨ c.state = .RETURN_LOADED) →
        t.comp n = { c with causes := { c.causes with mismatch := true } }) ∧
      (out = .UNCONFIRMED → t.comp n = { c with causes := c.causes.add .AUDIT_REQUIRED })) := by
  dsimp only
  have whole := State.endOp_plain (s := s) (o := o) (out := out) (occ := occ) (.inl plain) fun c => kept c.2 c.1
  have frame := s.endedBy_frame o out occ
  have own := State.endedBy_comp (s := s) (out := out) (occ := occ) (s.allEvents o out occ) known
  rw [whole]
  refine ⟨⟨?_, s.endedBy_others o out occ _, ?_, ?_, ?_, ?_, ?_, ?_, fun room => ?_⟩, fun deposit => ⟨fun done_ => ?_,
    fun done_ => ?_, fun uncompleted unconfirmed => ⟨fun r prior early => ?_, fun free => ?_⟩⟩, fun takes =>
    ⟨fun done_ => ⟨?_, fun k code => ?_⟩, fun done_ => ?_, fun done_ collect => ?_, fun uncompleted unconfirmed emptied => ?_⟩,
    fun service => ⟨fun done_ agrees deposited => ?_, fun done_ differs => ?_, fun done_ => ?_⟩⟩
  · exact (congrArg (fun u : State => u.hce.ops) frame :)
  · exact (congrArg State.sects frame :)
  · exact (congrArg State.hatchMap frame :)
  · exact (congrArg State.arb frame :)
  · exact (congrArg State.swu frame :)
  · exact (congrArg State.scu frame :)
  · exact (congrArg State.gates frame :)
  · have kli : (s.endedBy o out occ).kli = s.kli := (congrArg State.kli frame :)
    obtain ⟨e, mem, kind, comp, job, outcome, -⟩ := s.cycleDone_posted (s.endedBy o out occ) o out occ
      (if o.purpose = .SWEEP ∧ (courierOf o.station).isSome then s.sweptEvents o (s.endNote o out occ) else [])
      (by rw [kli]; exact room)
    exact ⟨e, mem, kind, comp, job, outcome⟩
  · rw [own, done_]
    have made : (s.comp o.comp).ended o.purpose .COMPLETED occ s.now = (s.comp o.comp).confirmed s.now false := by
      rcases deposit with e | e <;> rw [e] <;> rfl
    rw [made, Compartment.confirmed_parcel parcel]
    rfl
  · rw [own, done_]
    have made : (s.comp o.comp).ended o.purpose .UNCONFIRMED occ s.now =
        ((s.comp o.comp).confirmed s.now true).withCause .AUDIT_REQUIRED := by
      rcases deposit with e | e <;> rw [e] <;> rfl
    rw [made, Compartment.confirmed_parcel parcel]
    rfl
  · rw [own, Compartment.ended_undone deposit uncompleted unconfirmed, Compartment.undone_reserved parcel prior, if_pos early]
  · rw [own, Compartment.ended_undone deposit uncompleted unconfirmed, Compartment.undone_free parcel free]
  · rw [own, done_]
    have made : (s.comp o.comp).ended o.purpose .COMPLETED occ s.now = (s.comp o.comp).retired := by
      rcases takes with e | e <;> rw [e] <;> rfl
    rw [made, Compartment.retired_parcel parcel]
  · subst done_
    exact State.endedBy_retired _ (takes.elim .inl fun e => .inr (.inl e)) parcel code
  · rw [own, done_]
    rcases takes with e | e <;> rw [e] <;> rfl
  · rw [own, done_, collect]
    show ({ (s.comp o.comp).retried s.now with purpose := none } : Compartment) = _
    unfold Compartment.retried
    rw [parcel]
    rfl
  · rw [own, Compartment.ended_kept takes uncompleted unconfirmed emptied]
  · rw [own, done_, service]
    show ({ (s.comp o.comp).checked occ with purpose := none } : Compartment) = _
    rw [Compartment.checked_ok (consistent_iff.mpr ⟨deposited, agrees⟩), parcel]
    rfl
  · rw [own, done_, service]
    show ({ (s.comp o.comp).checked occ with purpose := none } : Compartment) = _
    rw [Compartment.checked_mismatch (Bool.eq_false_iff.mpr fun c => differs (consistent_iff.mp c).2)]
  · rw [own, done_, service]
    rfl

/-- A service opening of a compartment without a parcel that ends COMPLETED (R22, R88). -/
theorem State.endOp_opened_empty {o : Op} {occ : Bool} {s : State} (service : o.purpose = .SERVICE_OPEN) (known : isComp o.comp)
    (parcel : (s.comp o.comp).parcel = none)
    (state : (s.comp o.comp).state = .FREE ∨ (s.comp o.comp).state = .RESERVED ∨ (s.comp o.comp).state = .OUT_OF_SERVICE) :
    let c := s.comp o.comp
    (s.endOp o .COMPLETED occ).comp o.comp = { c with
      purpose := none
      causes := if occ then { c.causes with mismatch := true }
        else { c.causes with auditRequired := false, mismatch := false, openAtStart := false } } := by
  dsimp only
  have plain : o.purpose ≠ .SWEEP := by
    rw [service]
    decide
  rw [State.endOp_plain (out := .COMPLETED) (.inl plain) (fun c => nomatch c.2), State.endedBy_comp _ known, service]
  show ({ (s.comp o.comp).checked occ with purpose := none } : Compartment) = _
  have check : consistent (s.comp o.comp).state occ = !occ := by
    rcases state with e | e | e <;> rw [e] <;> cases occ <;> rfl
  cases occ with
  | true =>
    rw [Compartment.checked_mismatch check]
    rfl
  | false =>
    rw [Compartment.checked_ok check, parcel]
    rfl

/-- A return drop undone after its fee was approved asks for the reversal (R86, R161, R172). -/
theorem State.endOp_reverses {o : Op} {out : CycleOutcome} {occ : Bool} {x : Parcel} {ref a : Nat} {s : State}
    (purpose : o.purpose = .RETURN_DROP) (stage : o.stage ≠ .AWAIT_PAYMENT) (held : o.chargeRef = some ref)
    (amount : o.amount = some a) (uncompleted : out ≠ .COMPLETED) (unconfirmed : out ≠ .UNCONFIRMED)
    (parcel : (s.comp o.comp).parcel = some x) :
    let t := s.endOp o out occ
    (s.pbc.reversals.length < 8 → t.pbc.reversals = s.pbc.reversals ++ [o.reversalOf ref a x]) ∧
    (8 ≤ s.pbc.reversals.length → t.pbc = s.pbc ∧
      (s.kli.queue.length < 64 → ∃ e ∈ t.kli.queue, e.kind = .CYCLE_DONE ∧ e.job = some o.job ∧
        e.chargeRef = some ref ∧ e.amount = some a ∧ ∃ f, e.flags = some f ∧ f.refundNotIssued = true)) := by
  dsimp only
  have plain : o.purpose ≠ .SWEEP := by
    rw [purpose]
    decide
  have owed := State.afterReversal_owed (occ := occ) purpose stage held amount uncompleted unconfirmed parcel
  have frame := s.endedBy_frame o out occ
  have pbc : (s.endedBy o out occ).pbc = (s.afterReversal o out occ).1.pbc := (congrArg State.pbc frame :)
  obtain ⟨room_, full_⟩ := State.pbc_queueReversal (s := (s.endEffect o out occ).1) (v := o.reversalOf ref a x)
  rw [State.pbc_endEffect] at room_ full_
  rw [State.endOp_plain (.inl plain) fun c => stage c.1]
  refine ⟨fun room => ?_, fun full => ⟨?_, fun place => ?_⟩⟩
  · have last : (s.endedBy o out occ).pbc.reversals = _ := congrArg Pbc.reversals pbc
    rw [owed] at last
    exact last.trans (room_ room).1
  · rw [owed, full_ full] at pbc
    exact pbc.trans State.pbc_endEffect
  · have kli : (s.endedBy o out occ).kli = s.kli := (congrArg State.kli frame :)
    obtain ⟨e, mem, kind, -, job, -, ref_, amount_, f, flags, -, refused⟩ := s.cycleDone_posted (s.endedBy o out occ) o out occ
      (if o.purpose = .SWEEP ∧ (courierOf o.station).isSome then s.sweptEvents o (s.endNote o out occ) else [])
      (by rw [kli]; exact place)
    refine ⟨e, mem, kind, job, ref_.trans held, amount_.trans ?_, f, flags, refused.trans ?_⟩
    · rw [held, amount]
      rfl
    · rw [owed, full_ full]
      rfl

/-- The end of a SWEEP comes to its run with the operation gone and one compartment more counted (R85, R181). -/
theorem State.endOp_counts {o : Op} {out : CycleOutcome} {occ : Bool} {k : Courier} {r : Run} {s : State}
    (sweep : o.purpose = .SWEEP) (courier : courierOf o.station = some k) (kept : out = .HELD → o.stage ≠ .AWAIT_PAYMENT)
    (run : (s.side k).run = some r) : ∃ (w : State) (r' : Run),
      s.endOp o out occ = (w.topUpEnd k).topUpEnd k.other ∧ (w.side k).run = some r' ∧ r'.pending = r.pending ∧
      w.hce.ops = s.hce.ops.filter (fun y => y.job != o.job) ∧
      r'.completed + r'.leftOccupied + r'.notOpened + r'.cancelled + r'.skipped =
        r.completed + r.leftOccupied + r.notOpened + r.cancelled + r.skipped + 1 := by
  refine ⟨_, r.count out (s.endNote o out occ).unpaid, State.endOp_sweep sweep courier fun c => kept c.2 c.1, ?_,
    r.count_pending out _, ?_, r.count_total out _⟩
  · have side : ((s.endedBy o out occ).posts (s.endEvents o out occ)).side k = s.side k := by
      rw [s.endedBy_frame]
      cases k <;> rfl
    have own := (State.counted_side ((s.endedBy o out occ).posts (s.endEvents o out occ)) o out (s.endNote o out occ) k).1
    rw [side, run] at own
    rw [own]
    rfl
  · have ops : (s.endedBy o out occ).hce.ops = _ := (congrArg (fun u : State => u.hce.ops) (s.endedBy_frame o out occ) :)
    exact (congrArg (fun u : State => u.hce.ops) (State.counted_frame _ o out (s.endNote o out occ) k) :).trans ops

/-- The state of a SWEEP's end as it comes to the test of R182: the run counted, its events posted. -/
def State.sweepEnded (s : State) (o : Op) (out : CycleOutcome) (occ : Bool) (k : Courier) : State :=
  ((s.endedBy o out occ).posts (s.endEvents o out occ)).counted o out (s.endNote o out occ) k

section
variable {o : Op} {out : CycleOutcome} {occ : Bool} {k : Courier} {r : Run} {s : State}

theorem State.sweepEnded_frame : s.sweepEnded o out occ k = { s.endedBy o out occ with
    swu := (s.sweepEnded o out occ k).swu
    kli := (s.endEvents o out occ ++ s.sweptEvents o (s.endNote o out occ)).foldl Kli.post s.kli } := by
  have swept : ((s.endedBy o out occ).posts (s.endEvents o out occ)).sweptEvents o (s.endNote o out occ) =
      s.sweptEvents o (s.endNote o out occ) := by
    rw [s.endedBy_frame]
    rfl
  have kli : (s.endedBy o out occ).kli = s.kli := (congrArg State.kli (s.endedBy_frame o out occ) :)
  refine (State.counted_frame _ o out (s.endNote o out occ) k).trans ?_
  rw [swept, List.foldl_append, ← kli]
  rfl

theorem State.sweepEnded_side : (s.sweepEnded o out occ k).side k =
      { s.side k with run := (s.side k).run.map fun r => r.count out (s.endNote o out occ).unpaid } ∧
    (s.sweepEnded o out occ k).side k.other = s.side k.other := by
  have side : ∀ q, ((s.endedBy o out occ).posts (s.endEvents o out occ)).side q = s.side q := fun q => by
    rw [s.endedBy_frame]
    cases q <;> rfl
  have := State.counted_side ((s.endedBy o out occ).posts (s.endEvents o out occ)) o out (s.endNote o out occ) k
  rw [side, side] at this
  exact this

theorem State.sweepEnded_ops : (s.sweepEnded o out occ k).hce.ops = s.hce.ops.filter fun y => y.job != o.job := by
  rw [State.sweepEnded_frame]
  exact (congrArg (fun u : State => u.hce.ops) (s.endedBy_frame o out occ) :)

/-- A run with nothing pending goes on while a SWEEP of it stands, and ends with the last (R182). -/
theorem State.endOp_lastSweep (sweep : o.purpose = .SWEEP) (courier : courierOf o.station = some k)
    (kept : out = .HELD → o.stage ≠ .AWAIT_PAYMENT) (run : (s.side k).run = some r) (pending : r.pending = [])
    (other : (s.side k.other).run = none) :
    let w := s.sweepEnded o out occ k
    s.endOp o out occ = if w.hce.ops.any (Op.sweepOf · k) then w else (w.updSide k fun x => { x with run := none }).post
      (w.sweepDone k (r.count out (s.endNote o out occ).unpaid)) := by
  obtain ⟨own, beside⟩ := State.sweepEnded_side (s := s) (o := o) (out := out) (occ := occ) (k := k)
  dsimp only
  rw [State.endOp_sweep sweep courier fun c => kept c.2 c.1]
  have counted : ((s.sweepEnded o out occ k).side k).run = some (r.count out (s.endNote o out occ).unpaid) := by
    rw [own, run]
    rfl
  have first := State.topUpEnd_empty counted ((r.count_pending out _).trans pending)
  unfold State.sweepEnded at first ⊢
  rw [first]
  refine State.topUpEnd_none ?_
  have idle : ((s.sweepEnded o out occ k).side k.other).run = none := by
    rw [beside]
    exact other
  unfold State.sweepEnded at idle
  split
  · exact idle
  · refine Eq.trans ?_ idle
    cases k <;> rfl

theorem sweepOf_any {ops : List Op} {j : Nat} : (ops.filter fun y => y.job != j).any (Op.sweepOf · k) = true ↔
    ∃ y ∈ ops, y.job ≠ j ∧ y.purpose = .SWEEP ∧ y.station = k.station := by
  rw [List.any_eq_true]
  constructor
  · rintro ⟨y, mem, is_⟩
    obtain ⟨there, differs⟩ := List.mem_filter.mp mem
    obtain ⟨purpose, station⟩ := of_decide_eq_true is_
    exact ⟨y, there, bne_iff_ne.mp differs, purpose, station⟩
  · rintro ⟨y, mem, differs, purpose, station⟩
    exact ⟨y, List.mem_filter.mpr ⟨mem, bne_iff_ne.mpr differs⟩, decide_eq_true ⟨purpose, station⟩⟩

end

/-- The fee left unpaid by a swept parcel. -/
theorem EndNote.unpaid_sweep {s : State} {o : Op} {out : CycleOutcome} {occ : Bool} {x : Parcel} (sweep : o.purpose = .SWEEP)
    (parcel : (s.comp o.comp).parcel = some x) : (s.endNote o out occ).unpaid =
      if out = .COMPLETED then if x.kind = .DELIVERY then (s.quoteAt s.now x).due else 0 else 0 := by
  unfold EndNote.unpaid
  rw [(State.endNote_sweep sweep parcel).2]
  by_cases done_ : out = .COMPLETED
  · rw [if_pos done_, if_pos done_]
    by_cases delivery : x.kind = .DELIVERY
    · rw [if_pos delivery, if_pos delivery]
      rfl
    · rw [if_neg delivery, if_neg delivery]
      rfl
  · rw [if_neg done_, if_neg done_]
    rfl

/-- A run after the end of one of its operations, by the outcome (R181). -/
theorem Run.count_eq (r : Run) (out : CycleOutcome) (due : Nat) : r.count out (if out = .COMPLETED then due else 0) =
    match out with
    | .COMPLETED => { r with completed := r.completed + 1, unpaid := r.unpaid + due }
    | .LEFT_OCCUPIED | .UNCONFIRMED => { r with leftOccupied := r.leftOccupied + 1 }
    | .NOT_OPENED | .STRIKE_FAILED | .NO_POWER | .ABORTED_LINK => { r with notOpened := r.notOpened + 1 }
    | .CANCELLED => { r with cancelled := r.cancelled + 1 }
    | _ => { r with skipped := r.skipped + 1 } := by
  cases out <;> rfl

theorem State.parcelSwept_items (s : State) (o : Op) (note : EndNote) (paid : Nat) (q : Option Quote) :
    let e := s.parcelSwept o note paid q
    e.kind = .PARCEL_SWEPT ∧ e.comp = some o.comp ∧ e.paid = some paid ∧
      e.amount = some (match q with | some x => x.due | none => 0) := by
  unfold State.parcelSwept
  cases note.ident <;> exact ⟨rfl, rfl, rfl, rfl⟩

section
variable {o : Op} {out : CycleOutcome} {occ : Bool} {x : Parcel} {k : Courier} {s : State}

/-- The compartments after the end of a SWEEP (R87, R181). -/
theorem State.sweepEnded_comp (known : isComp o.comp) : (s.sweepEnded o out occ k).comp o.comp =
    { (s.comp o.comp).ended o.purpose out occ s.now with purpose := none } := by
  rw [State.sweepEnded_frame]
  exact State.endedBy_comp [] known

theorem State.sweepEnded_others : s.otherComps (s.sweepEnded o out occ k) o.comp := fun m other => by
  rw [State.sweepEnded_frame]
  exact s.endedBy_others o out occ [] m other

/-- The queue after the end of a SWEEP (R89, R181). -/
theorem State.sweepEnded_queue (sweep : o.purpose = .SWEEP) (parcel : (s.comp o.comp).parcel = some x)
    (room : s.kli.queue.length + 2 ≤ 64) : (s.sweepEnded o out occ k).kli.queue =
      s.kli.queue ++ (s.cycleDone o out (s.endNote o out occ) (s.afterReversal o out occ).2 ::
        s.sweptEvents o (s.endNote o out occ)) := by
  have one : s.endEvents o out occ = [s.cycleDone o out (s.endNote o out occ) (s.afterReversal o out occ).2] := by
    unfold State.endEvents
    rw [(State.endNote_sweep sweep parcel).1]
    rfl
  have short : (s.sweptEvents o (s.endNote o out occ)).length ≤ 1 := by
    unfold State.sweptEvents
    cases (s.endNote o out occ).swept <;> simp
  rw [State.sweepEnded_frame, one]
  refine Kli.queue_posts _ s.kli ?_
  simp only [List.cons_append, List.nil_append, List.length_cons]
  omega

/-- The compartment of a SWEEP that ends otherwise than COMPLETED and UNCONFIRMED. -/
theorem Compartment.ended_swept {c : Compartment} {m : Nat} (uncompleted : out ≠ .COMPLETED) (unconfirmed : out ≠ .UNCONFIRMED) :
    c.ended .SWEEP out occ m = { c with tagOwner := none } := by
  cases out
  case COMPLETED => exact absurd rfl uncompleted
  case UNCONFIRMED => exact absurd rfl unconfirmed
  all_goals rfl

/-- The end of the last SWEEP of a run leaves the part as that end leaves it but for the run and its record (R182). -/
theorem State.endOp_lastSweep_frame {r : Run} (sweep : o.purpose = .SWEEP) (courier : courierOf o.station = some k)
    (kept : out = .HELD → o.stage ≠ .AWAIT_PAYMENT) (run : (s.side k).run = some r) (pending : r.pending = [])
    (other : (s.side k.other).run = none) :
    let w := s.sweepEnded o out occ k
    let t := s.endOp o out occ
    let r' := r.count out (s.endNote o out occ).unpaid
    let others := ∃ y ∈ s.hce.ops, y.job ≠ o.job ∧ y.purpose = .SWEEP ∧ y.station = k.station
    t = { w with swu := t.swu, kli := t.kli } ∧ (t.side k).tags = (s.side k).tags ∧ t.side k.other = s.side k.other ∧
      (others → (t.side k).run = some r' ∧ t.kli = w.kli) ∧
      (¬ others → (t.side k).run = none ∧ t.kli = w.kli.post (s.sweepDone k r')) := by
  obtain ⟨own, beside⟩ := State.sweepEnded_side (s := s) (o := o) (out := out) (occ := occ) (k := k)
  dsimp only
  have ended := State.endOp_lastSweep (occ := occ) sweep courier kept run pending other
  dsimp only at ended
  rw [State.sweepEnded_ops, run] at *
  have now : (s.sweepEnded o out occ k).now = s.now := by
    rw [State.sweepEnded_frame, s.endedBy_frame]
    rfl
  have record : ∀ r', (s.sweepEnded o out occ k).sweepDone k r' = s.sweepDone k r' := fun r' => by
    unfold State.sweepDone State.event
    rw [now]
  rw [record] at ended
  by_cases others : ∃ y ∈ s.hce.ops, y.job ≠ o.job ∧ y.purpose = .SWEEP ∧ y.station = k.station
  · rw [if_pos (sweepOf_any.mpr others)] at ended
    rw [ended]
    exact ⟨rfl, (congrArg SweepSide.tags own :), beside, fun _ => ⟨(congrArg SweepSide.run own :), rfl⟩, fun c => absurd others c⟩
  · rw [if_neg fun c => others (sweepOf_any.mp c)] at ended
    rw [ended]
    generalize s.sweepEnded o out occ k = w at own beside
    refine ⟨?_, ?_, ?_, fun c => absurd c others, fun _ => ⟨?_, ?_⟩⟩
    · cases k <;> rfl
    · refine Eq.trans ?_ (congrArg SweepSide.tags own :)
      cases k <;> rfl
    · refine Eq.trans ?_ beside
      cases k <;> rfl
    · cases k <;> rfl
    · cases k <;> rfl

end

/-- The end of the last SWEEPs of a run (R85, R87, R181, R182). -/
theorem State.endOp_swept {o : Op} {out : CycleOutcome} {occ : Bool} {x : Parcel} {k : Courier} {r : Run} {s : State}
    (sweep : o.purpose = .SWEEP) (courier : courierOf o.station = some k) (kept : out = .HELD → o.stage ≠ .AWAIT_PAYMENT)
    (known : isComp o.comp) (parcel : (s.comp o.comp).parcel = some x) (run : (s.side k).run = some r)
    (pending : r.pending = []) (other : (s.side k.other).run = none) (room : s.kli.queue.length ≤ 61) :
    let n := o.comp
    let c := { s.comp n with purpose := none, tagOwner := none }
    let t := s.endOp o out occ
    let due := if x.kind = .DELIVERY then (s.quoteAt s.now x).due else 0
    let r' := r.count out (if out = .COMPLETED then due else 0)
    let others := ∃ y ∈ s.hce.ops, y.job ≠ o.job ∧ y.purpose = .SWEEP ∧ y.station = k.station
    (out = .COMPLETED → t.comp n = { c with state := .FREE, parcel := none } ∧
      (∃ e ∈ t.kli.queue, e.kind = .PARCEL_SWEPT ∧ e.comp = some n ∧ e.paid = some x.paid ∧ e.amount = some due) ∧
      ∀ w, x.code = some w → t.alloc.retired =
        s.alloc.retired.drop (if s.alloc.retired.length < 128 then 0 else 1) ++ [{ code := w, minute := s.now }]) ∧
    (out = .UNCONFIRMED → t.comp n = { c with causes := c.causes.add .AUDIT_REQUIRED }) ∧
    (out ≠ .COMPLETED → out ≠ .UNCONFIRMED → t.comp n = c) ∧ s.otherComps t n ∧
    t.hce.ops = s.hce.ops.filter (fun y => y.job != o.job) ∧ (t.side k).tags = (s.side k).tags ∧
    t.side k.other = s.side k.other ∧ (others → (t.side k).run = some r') ∧
    (¬ others → (t.side k).run = none ∧ ∃ e ∈ t.kli.queue, e.kind = .SWEEP_DONE ∧ e.station = some k.station ∧
      e.job = some r.job ∧ e.amount = some r'.unpaid ∧
      e.counts = some ⟨r'.completed, r'.leftOccupied, r'.notOpened, r'.cancelled, r'.skipped⟩) := by
  dsimp only
  obtain ⟨frame, tags, beside, goes, ends⟩ := State.endOp_lastSweep_frame (occ := occ) sweep courier kept run pending other
  have queue := State.sweepEnded_queue (out := out) (occ := occ) (k := k) sweep parcel (by omega)
  have unpaid := EndNote.unpaid_sweep (out := out) (occ := occ) sweep parcel
  have comp : ∀ n, (s.endOp o out occ).comp n = (s.sweepEnded o out occ k).comp n := fun n =>
    (congrArg (fun u : State => u.comp n) frame :)
  have own := (comp o.comp).trans (State.sweepEnded_comp (out := out) (occ := occ) (k := k) known)
  rw [unpaid] at goes ends
  have keeps : ∀ e ∈ (s.sweepEnded o out occ k).kli.queue, e ∈ (s.endOp o out occ).kli.queue := fun e mem => by
    by_cases others : ∃ y ∈ s.hce.ops, y.job ≠ o.job ∧ y.purpose = .SWEEP ∧ y.station = k.station
    · rw [(goes others).2]
      exact mem
    · rw [(ends others).2]
      exact Kli.mem_post _ mem
  refine ⟨fun done_ => ⟨?_, ?_, fun w code => ?_⟩, fun done_ => ?_, fun uncompleted unconfirmed => ?_,
    fun m hm => (comp m).trans (State.sweepEnded_others m hm), ?_, tags, beside, fun c => (goes c).1, fun c => ⟨(ends c).1, ?_⟩⟩
  · subst done_
    rw [own, sweep]
    show ({ (s.comp o.comp).retired with purpose := none } : Compartment) = _
    rw [Compartment.retired_parcel parcel]
  · obtain ⟨kind, comp_, paid, amount⟩ := s.parcelSwept_items o (s.endNote o out occ) x.paid
      (if x.kind = .DELIVERY then some (s.quoteAt s.now x) else none)
    refine ⟨_, keeps _ ?_, kind, comp_, paid, amount.trans ?_⟩
    · rw [queue]
      refine List.mem_append_right _ (List.mem_cons_of_mem _ ?_)
      unfold State.sweptEvents
      rw [(State.endNote_sweep sweep parcel).2, if_pos done_]
      exact List.mem_singleton_self _
    · by_cases delivery : x.kind = .DELIVERY
      · rw [if_pos delivery, if_pos delivery]
      · rw [if_neg delivery, if_neg delivery]
  · subst done_
    have alloc : (s.endOp o .COMPLETED occ).alloc = (s.sweepEnded o .COMPLETED occ k).alloc := (congrArg State.alloc frame :)
    rw [alloc, State.sweepEnded_frame]
    exact State.endedBy_retired [] (.inr (.inr sweep)) parcel code
  · subst done_
    rw [own, sweep]
    rfl
  · rw [own, sweep, Compartment.ended_swept uncompleted unconfirmed]
  · have ops : (s.endOp o out occ).hce.ops = (s.sweepEnded o out occ k).hce.ops := (congrArg (fun u : State => u.hce.ops) frame :)
    exact ops.trans State.sweepEnded_ops
  · have short : (s.sweptEvents o (s.endNote o out occ)).length ≤ 1 := by
      unfold State.sweptEvents
      cases (s.endNote o out occ).swept <;> simp
    refine ⟨s.sweepDone k (r.count out (if out = .COMPLETED then
      if x.kind = .DELIVERY then (s.quoteAt s.now x).due else 0 else 0)), ?_, rfl, rfl, ?_, rfl, rfl⟩
    · rw [(ends c).2, Kli.queue_post _ (by rw [queue]; simp; omega)]
      exact List.mem_append_right _ (List.mem_singleton_self _)
    · exact congrArg some (r.count_job out _)

/-- Settles O56: the end of an operation does what its purpose and outcome say to its compartment, its reversal and its
run; each clause reads one part of `State.endedBy_frame`. -/
theorem endsSettleTheCompartment : Obligations.EndsSettleTheCompartment :=
  ⟨fun _ _ _ _ _ plain kept known parcel => State.endOp_settles plain kept known parcel,
    fun _ _ _ service known parcel state => State.endOp_opened_empty service known parcel state,
    fun _ _ _ _ _ _ _ purpose stage held amount uncompleted unconfirmed _ parcel =>
      State.endOp_reverses purpose stage held amount uncompleted unconfirmed parcel,
    fun _ _ occ _ _ r _ sweep courier kept known parcel run pending other room => by
      have swept := State.endOp_swept (occ := occ) sweep courier kept known parcel run pending other room
      dsimp only at swept
      rw [r.count_eq] at swept
      exact swept,
    fun _ _ _ _ _ _ sweep courier kept run => State.endOp_counts sweep courier kept run⟩

end Sys2Proof.Machine
end

