-- ==== Sys2Proof/Proofs/Startup.lean ====
section
/-! The audit settles compartments, and the start-up phases end (R44, R166, R202 to R204). -/

namespace Sys2Proof.Machine

open Sys2Proof

/-! ### What a settlement makes of a compartment (R204) -/

/-- The comparison of R22 at the audit. -/
def Compartment.compared (c : Compartment) : AuditReading → Compartment
  | .unread => c
  | .occupied => if consistent c.state true then c else c.withCause .OCCUPANCY_MISMATCH
  | .empty => if consistent c.state false then c else c.withCause .OCCUPANCY_MISMATCH

/-- AUDIT_REQUIRED for an unread compartment of an enabled section (R203). -/
def Compartment.unreadMarked (c : Compartment) (enabled : Bool) (rd : AuditReading) : Compartment :=
  if rd = .unread ∧ enabled = true then c.withCause .AUDIT_REQUIRED else c

/-- A compartment settled from its cycle purpose and its reading, but for the purpose (R204). -/
def Compartment.settledBody (c : Compartment) (rd : AuditReading) (m : Nat) : Compartment :=
  match c.purpose with
  | none => if c.state = .DEPOSITING then c.undone m else c.compared rd
  | some .DEPOSIT | some .RETURN_DROP => if rd = .empty then c.undone m else c.confirmed m true
  | some .COLLECT | some .SWEEP | some .SERVICE_REMOVE => if rd = .empty then c.retired else c
  | some .SERVICE_OPEN => c.compared rd

/-- A compartment without its cycle purpose. -/
def Compartment.idle (c : Compartment) : Compartment := { c with purpose := none }

/-- A compartment after the audit's settlement (R203, R204). -/
def Compartment.settled (c : Compartment) (enabled : Bool) (rd : AuditReading) (m : Nat) : Compartment :=
  ((c.unreadMarked enabled rd).settledBody rd m).idle

/-! ### What a settlement leaves of the rest -/

/-- A compartment has been changed, and with it at most codes, page references, reversals and events. -/
structure State.SettlesAt (n : Nat) (f : Compartment → Compartment) (s t : State) : Prop where
  comps : t.comps = (s.updComp n f).comps
  frame : t = { s with comps := t.comps, alloc := t.alloc, tariff := t.tariff, pbc := t.pbc, kli := t.kli }
  charge : ∀ r, (t.reader r).charge = (s.reader r).charge
  reversals : s.pbc.reversals <+: t.pbc.reversals

section
variable {n : Nat} {f g : Compartment → Compartment} {s t u : State}

theorem State.SettlesAt.refl (s : State) (n : Nat) : s.SettlesAt n id s :=
  ⟨(congrArg State.comps (State.updComp_same (s := s) (n := n) (f := id) rfl)).symm, rfl, fun _ => rfl, List.prefix_rfl⟩

theorem State.SettlesAt.trans (h : s.SettlesAt n f t) (h' : t.SettlesAt n g u) : s.SettlesAt n (fun c => g (f c)) u := by
  refine ⟨?_, ?_, fun r => (h'.charge r).trans (h.charge r), h.reversals.trans h'.reversals⟩
  · refine h'.comps.trans (Eq.trans ?_ (s.comps_updComp_updComp n f g))
    exact congrArg (fun v => tput v n (g (tget v Compartment.factory n))) h.comps
  · have e := h'.frame
    rw [h.frame] at e
    exact e

/-- The same settlement, said of another change that agrees on the compartment. -/
theorem State.SettlesAt.congr (h : s.SettlesAt n f t) (same : f (s.comp n) = g (s.comp n)) : s.SettlesAt n g t :=
  ⟨h.comps.trans (congrArg (fun x => tput s.comps n x) same), h.frame, h.charge, h.reversals⟩

theorem State.settlesAt_updComp (s : State) (n : Nat) (f : Compartment → Compartment) : s.SettlesAt n f (s.updComp n f) :=
  ⟨rfl, rfl, fun _ => rfl, List.prefix_rfl⟩

theorem State.SettlesAt.post (h : s.SettlesAt n f t) (e : EventRec) : s.SettlesAt n f (t.post e) :=
  ⟨h.comps, (congrArg (fun u : State => u.post e) h.frame).trans rfl, h.charge, h.reversals⟩

theorem State.SettlesAt.now (h : s.SettlesAt n f t) : t.now = s.now := by
  rw [h.frame]
  rfl

theorem State.SettlesAt.comp (h : s.SettlesAt n f t) (m : Nat) :
    t.comp m = if n = m ∧ isComp n then f (s.comp n) else s.comp m := State.comp_of_updComp h.comps m

theorem State.SettlesAt.own (h : s.SettlesAt n f t) (known : isComp n) : t.comp n = f (s.comp n) :=
  (h.comp n).trans (if_pos ⟨rfl, known⟩)

theorem State.SettlesAt.others (h : s.SettlesAt n f t) : s.otherComps t n := fun m other =>
  (h.comp m).trans (if_neg fun c => other c.1.symm)

end

theorem State.settlesAt_undo (s : State) (n : Nat) : s.SettlesAt n (fun c => c.undone s.now) (s.undo n).1 := by
  refine ⟨s.comps_undo n, ?_, fun r => ?_, ?_⟩
  · obtain ⟨cs, ta, e⟩ : ∃ cs ta, (s.undo n).1 = { s with comps := cs, tariff := ta } := ⟨_, _, s.undo_eq n⟩
    rw [e]
  · exact (congrArg (fun u : State => (u.reader r).charge) (s.undo_eq n) :)
  · rw [s.undo_eq n]

theorem State.settlesAt_retire (s : State) (n : Nat) : s.SettlesAt n Compartment.retired (s.retire n) := by
  refine ⟨s.comps_retire n, ?_, fun r => ?_, ?_⟩
  · obtain ⟨cs, al, ta, e⟩ : ∃ cs al ta, s.retire n = { s with comps := cs, alloc := al, tariff := ta } := ⟨_, _, _, s.retire_eq n⟩
    rw [e]
  · exact (congrArg (fun u : State => (u.reader r).charge) (s.retire_eq n) :)
  · rw [s.retire_eq n]

theorem State.settlesAt_confirm (s : State) (n : Nat) (b : Bool) :
    s.SettlesAt n (fun c => c.confirmed s.now b) (s.confirmParcel n b) := by
  rw [s.confirmParcel_eq]
  exact s.settlesAt_updComp n _

theorem State.charge_restReader (s : State) (r q : Nat) : ((s.restReader r).reader q).charge = (s.reader q).charge := by
  unfold State.restReader
  split
  all_goals
    rw [State.reader_updReader]
    split
    · rename_i h
      exact congrArg (fun x => (s.reader x).charge) h.1
    · rfl

theorem State.settlesAt_queueReversal (s : State) (n : Nat) (v : Reversal) : s.SettlesAt n id (s.queueReversal v).1 := by
  have same := (congrArg State.comps (State.updComp_same (s := s) (n := n) (f := id) rfl)).symm
  by_cases room : s.pbc.reversals.length < 8
  · obtain ⟨listed, -⟩ := (State.pbc_queueReversal (s := s) (v := v)).1 room
    have frame : (s.queueReversal v).1 = { s with pbc := (s.queueReversal v).1.pbc } ∧
        ∀ r, ((s.queueReversal v).1.reader r).charge = (s.reader r).charge := by
      unfold State.queueReversal
      rw [if_pos (show s.pbc.reversals.length < Config.reversalPlaces from room)]
      dsimp only
      by_cases idle : (s.reader v.reader).state = .IDLE
      · rw [if_pos idle]
        refine ⟨?_, fun r => ?_⟩
        · obtain ⟨b, e⟩ : ∃ b, (s.updPbc fun p => { p with reversals := p.reversals ++ [v] }).restReader v.reader =
              { s with pbc := b } := ⟨_, State.restReader_frame _ _⟩
          rw [e]
        · exact State.charge_restReader _ _ r
      · rw [if_neg idle]
        exact ⟨rfl, fun _ => rfl⟩
    refine ⟨?_, ?_, frame.2, ?_⟩
    · rw [frame.1]
      exact same
    · obtain ⟨b, e⟩ : ∃ b, (s.queueReversal v).1 = { s with pbc := b } := ⟨_, frame.1⟩
      rw [e]
    · rw [listed]
      exact List.prefix_append _ _
  · rw [(State.pbc_queueReversal (s := s) (v := v)).2 (Nat.not_lt.mp room)]
    exact State.SettlesAt.refl s n

theorem State.settlesAt_reverseRecovered (s : State) (n : Nat) (p : Parcel) : s.SettlesAt n id (s.reverseRecovered n p).1 := by
  unfold State.reverseRecovered
  split
  · split
    · exact State.SettlesAt.refl s n
    · exact s.settlesAt_queueReversal n _
  · exact State.SettlesAt.refl s n

theorem State.settlesAt_compare (s : State) (n : Nat) (rd : AuditReading) :
    s.SettlesAt n (fun c => c.compared rd) (s.auditCompare n rd) := by
  have tested : ∀ b : Bool, s.SettlesAt n
      (fun c => if consistent c.state b then c else c.withCause .OCCUPANCY_MISMATCH)
      (if consistent (s.comp n).state b then s else s.markCause n .OCCUPANCY_MISMATCH) := fun b => by
    by_cases ok : consistent (s.comp n).state b = true
    · rw [if_pos ok]
      exact (State.SettlesAt.refl s n).congr (if_pos ok).symm
    · rw [if_neg ok]
      exact (s.settlesAt_updComp n fun c => c.withCause .OCCUPANCY_MISMATCH).congr (if_neg ok).symm
  cases rd with
  | unread => exact State.SettlesAt.refl s n
  | occupied => exact tested true
  | empty => exact tested false

theorem State.settlesAt_markUnread (s : State) (n : Nat) (rd : AuditReading) :
    s.SettlesAt n (fun c => c.unreadMarked (s.enabledRec c) rd) (s.markUnread n rd) := by
  unfold State.markUnread
  by_cases marks : rd = .unread ∧ s.enabledRec (s.comp n) = true
  · rw [if_pos marks]
    exact (s.settlesAt_updComp n fun c => c.withCause .AUDIT_REQUIRED).congr (if_pos marks).symm
  · rw [if_neg marks]
    exact (State.SettlesAt.refl s n).congr (if_neg marks).symm

theorem State.settlesAt_postRecovered {s t : State} {n : Nat} {f : Compartment → Compartment} (h : s.SettlesAt n f t)
    (pu : Option Purpose) (note : EndNote) (ref : Option (Nat × Nat × Bool)) :
    s.SettlesAt n (fun c => (f c).idle) (t.postRecovered n pu note ref) := by
  have cleared := h.trans (t.settlesAt_updComp n Compartment.idle)
  unfold State.postRecovered
  dsimp only
  cases note.lapsed with
  | none => exact cleared.post _
  | some v => exact (cleared.post _).post _

theorem State.settlesAt_auditUndo (s : State) (n : Nat) (pu : Option Purpose) :
    s.SettlesAt n (fun c => (c.undone s.now).idle) (s.auditUndo n pu) := by
  unfold State.auditUndo
  dsimp only
  refine State.settlesAt_postRecovered ?_ _ _ _
  cases (s.comp n).parcel with
  | none => exact s.settlesAt_undo n
  | some p => exact (s.settlesAt_undo n).trans (State.settlesAt_reverseRecovered _ n p)

theorem State.settlesAt_auditConfirm (s : State) (n : Nat) (pu : Option Purpose) :
    s.SettlesAt n (fun c => (c.confirmed s.now true).idle) (s.auditConfirm n pu) := by
  unfold State.auditConfirm
  exact State.settlesAt_postRecovered (s.settlesAt_confirm n true) _ _ _

/-- A settlement but for the mark of an unread compartment (R204). -/
def State.settleBody (s : State) (n : Nat) (rd : AuditReading) : State :=
  let c := s.comp n
  match c.purpose with
  | none => if c.state = .DEPOSITING then s.auditUndo n none else s.auditCompare n rd
  | some .DEPOSIT | some .RETURN_DROP => if rd = .empty then s.auditUndo n c.purpose else s.auditConfirm n c.purpose
  | some .COLLECT | some .SWEEP | some .SERVICE_REMOVE =>
    if rd = .empty then (s.retire n).postRecovered n c.purpose (.of c.parcel) none
    else s.postRecovered n c.purpose (.of c.parcel) none
  | some .SERVICE_OPEN => (s.auditCompare n rd).postRecovered n c.purpose (.of c.parcel) none

theorem State.settle_eq (s : State) (n : Nat) (rd : AuditReading) : s.settle n rd = (s.markUnread n rd).settleBody n rd := rfl

section
variable {s : State} {n : Nat} {rd : AuditReading} {pu : Purpose}

theorem State.settleBody_undo (h : (s.comp n).purpose = none ∧ (s.comp n).state = .DEPOSITING ∨
      ((s.comp n).purpose = some .DEPOSIT ∨ (s.comp n).purpose = some .RETURN_DROP) ∧ rd = .empty) :
    s.settleBody n rd = s.auditUndo n (s.comp n).purpose ∧ (s.comp n).settledBody rd s.now = (s.comp n).undone s.now := by
  unfold State.settleBody Compartment.settledBody
  dsimp only
  rcases h with ⟨purpose, pending⟩ | ⟨purpose | purpose, empty⟩ <;> rw [purpose]
  · exact ⟨if_pos pending, if_pos pending⟩
  · exact ⟨if_pos empty, if_pos empty⟩
  · exact ⟨if_pos empty, if_pos empty⟩

theorem State.settleBody_confirm (purpose : (s.comp n).purpose = some .DEPOSIT ∨ (s.comp n).purpose = some .RETURN_DROP)
    (occupied : rd ≠ .empty) : s.settleBody n rd = s.auditConfirm n (s.comp n).purpose ∧
      (s.comp n).settledBody rd s.now = (s.comp n).confirmed s.now true := by
  unfold State.settleBody Compartment.settledBody
  dsimp only
  rcases purpose with purpose | purpose <;> rw [purpose] <;> exact ⟨if_neg occupied, if_neg occupied⟩

theorem State.settleBody_retire (purpose : (s.comp n).purpose = some .COLLECT ∨ (s.comp n).purpose = some .SWEEP ∨
      (s.comp n).purpose = some .SERVICE_REMOVE) (empty : rd = .empty) :
    s.settleBody n rd = (s.retire n).postRecovered n (s.comp n).purpose (.of (s.comp n).parcel) none ∧
      (s.comp n).settledBody rd s.now = (s.comp n).retired := by
  unfold State.settleBody Compartment.settledBody
  dsimp only
  rcases purpose with purpose | purpose | purpose <;> rw [purpose] <;> exact ⟨if_pos empty, if_pos empty⟩

theorem State.settleBody_keep (purpose : (s.comp n).purpose = some .COLLECT ∨ (s.comp n).purpose = some .SWEEP ∨
      (s.comp n).purpose = some .SERVICE_REMOVE) (occupied : rd ≠ .empty) :
    s.settleBody n rd = s.postRecovered n (s.comp n).purpose (.of (s.comp n).parcel) none ∧
      (s.comp n).settledBody rd s.now = s.comp n := by
  unfold State.settleBody Compartment.settledBody
  dsimp only
  rcases purpose with purpose | purpose | purpose <;> rw [purpose] <;> exact ⟨if_neg occupied, if_neg occupied⟩

theorem State.settleBody_open (purpose : (s.comp n).purpose = some .SERVICE_OPEN) :
    s.settleBody n rd = (s.auditCompare n rd).postRecovered n (s.comp n).purpose (.of (s.comp n).parcel) none ∧
      (s.comp n).settledBody rd s.now = (s.comp n).compared rd := by
  unfold State.settleBody Compartment.settledBody
  dsimp only
  rw [purpose]
  exact ⟨rfl, rfl⟩

theorem State.settleBody_compare (purpose : (s.comp n).purpose = none) (settled : (s.comp n).state ≠ .DEPOSITING) :
    s.settleBody n rd = s.auditCompare n rd ∧ (s.comp n).settledBody rd s.now = (s.comp n).compared rd := by
  unfold State.settleBody Compartment.settledBody
  dsimp only
  rw [purpose]
  exact ⟨if_neg settled, if_neg settled⟩

end

theorem Compartment.compared_idle {c : Compartment} {rd : AuditReading} (purpose : c.purpose = none) :
    (c.compared rd).idle = c.compared rd := by
  have plain : ∀ d : Compartment, d.purpose = none → d.idle = d := fun d e => by
    unfold Compartment.idle
    rw [← e]
  refine plain _ ?_
  unfold Compartment.compared
  cases rd with
  | unread => exact purpose
  | occupied => dsimp only; split <;> exact purpose
  | empty => dsimp only; split <;> exact purpose

/-- The branches of a settlement (R204). -/
theorem State.settlesAt_settleBody (s : State) (n : Nat) (rd : AuditReading) :
    s.SettlesAt n (fun c => (c.settledBody rd s.now).idle) (s.settleBody n rd) := by
  have of : ∀ {f : Compartment → Compartment} {t : State}, s.SettlesAt n (fun c => (f c).idle) t →
      s.settleBody n rd = t ∧ (s.comp n).settledBody rd s.now = f (s.comp n) →
      s.SettlesAt n (fun c => (c.settledBody rd s.now).idle) (s.settleBody n rd) := by
    rintro f t h ⟨body, comp⟩
    rw [body]
    exact h.congr (congrArg Compartment.idle comp.symm)
  have empties : rd = .empty ∨ rd ≠ .empty := em _
  cases purpose : (s.comp n).purpose with
  | none =>
    by_cases pending : (s.comp n).state = .DEPOSITING
    · exact of (s.settlesAt_auditUndo n _) (State.settleBody_undo (.inl ⟨purpose, pending⟩))
    · obtain ⟨body, comp⟩ := State.settleBody_compare (rd := rd) purpose pending
      rw [body]
      refine (s.settlesAt_compare n rd).congr ?_
      rw [comp, Compartment.compared_idle purpose]
  | some pu =>
    have deposit : (s.comp n).purpose = some .DEPOSIT ∨ (s.comp n).purpose = some .RETURN_DROP →
        s.SettlesAt n (fun c => (c.settledBody rd s.now).idle) (s.settleBody n rd) := fun opens => by
      rcases empties with empty | occupied
      · exact of (s.settlesAt_auditUndo n _) (State.settleBody_undo (.inr ⟨opens, empty⟩))
      · exact of (s.settlesAt_auditConfirm n _) (State.settleBody_confirm opens occupied)
    have take : (s.comp n).purpose = some .COLLECT ∨ (s.comp n).purpose = some .SWEEP ∨
        (s.comp n).purpose = some .SERVICE_REMOVE →
        s.SettlesAt n (fun c => (c.settledBody rd s.now).idle) (s.settleBody n rd) := fun taken => by
      rcases empties with empty | occupied
      · exact of (State.settlesAt_postRecovered (s.settlesAt_retire n) _ _ _) (State.settleBody_retire taken empty)
      · exact of (State.settlesAt_postRecovered (State.SettlesAt.refl s n) _ _ _) (State.settleBody_keep taken occupied)
    cases pu
    case DEPOSIT => exact deposit (.inl purpose)
    case RETURN_DROP => exact deposit (.inr purpose)
    case COLLECT => exact take (.inl purpose)
    case SWEEP => exact take (.inr (.inl purpose))
    case SERVICE_REMOVE => exact take (.inr (.inr purpose))
    case SERVICE_OPEN =>
      exact of (State.settlesAt_postRecovered (s.settlesAt_compare n rd) _ _ _) (State.settleBody_open purpose)

/-- A compartment is settled from its purpose and its reading (R203, R204). -/
theorem State.settlesAt_settle (s : State) (n : Nat) (rd : AuditReading) :
    s.SettlesAt n (fun c => c.settled (s.enabledRec c) rd s.now) (s.settle n rd) := by
  have marked := s.settlesAt_markUnread n rd
  have whole := marked.trans ((s.markUnread n rd).settlesAt_settleBody n rd)
  rw [marked.now] at whole
  exact whole

/-! ### The settlement of the compartments left unread (R203) -/

/-- Some compartments have been settled as unread. -/
structure State.SettledUnread (ns : List Nat) (s t : State) : Prop where
  frame : t = { s with comps := t.comps, alloc := t.alloc, tariff := t.tariff, pbc := t.pbc, kli := t.kli }
  comp : ∀ m, t.comp m = if m ∈ ns then (s.comp m).settled (s.enabledRec (s.comp m)) .unread s.now else s.comp m
  charge : ∀ r, (t.reader r).charge = (s.reader r).charge
  reversals : s.pbc.reversals <+: t.pbc.reversals

theorem State.settledUnread_fold (ns : List Nat) : ∀ s : State, ns.Nodup → (∀ n ∈ ns, isComp n) →
    s.SettledUnread ns (ns.foldl (fun s n => s.settle n .unread) s) := by
  induction ns with
  | nil => exact fun s _ _ => ⟨rfl, fun _ => rfl, fun _ => rfl, List.prefix_rfl⟩
  | cons n ns ih =>
    intro s distinct known
    obtain ⟨fresh, rest⟩ := List.nodup_cons.mp distinct
    have first := s.settlesAt_settle n .unread
    have later := ih (s.settle n .unread) rest fun m hm => known m (List.mem_cons_of_mem n hm)
    have enabled : ∀ c, (s.settle n .unread).enabledRec c = s.enabledRec c := fun c => by
      rw [first.frame]
      rfl
    refine ⟨?_, fun m => (later.comp m).trans ?_, fun r => (later.charge r).trans (first.charge r),
      first.reversals.trans later.reversals⟩
    · have e := later.frame
      rw [List.foldl_cons]
      generalize ns.foldl (fun s n => s.settle n .unread) (s.settle n .unread) = t at e
      rw [first.frame] at e
      exact e
    · rw [first.now, enabled]
      by_cases here : m = n
      · subst here
        rw [if_neg fresh, if_pos List.mem_cons_self, first.own (known m List.mem_cons_self)]
      · rw [first.others m here]
        simp only [List.mem_cons, here, false_or]

/-- The state as RECONCILE finds it when the AUDIT phase ends (R202, R203). -/
def State.auditSettled (s : State) : State :=
  ((compNos.filter fun n => s.scu.auditWait.contains n || s.scu.auditUnread.contains n).foldl
    (fun s n => s.settle n .unread) s).updScu fun u =>
      { u with phase := some .RECONCILE, auditWait := [], auditUnread := [], auditTimer := false }

theorem State.endAudit_eq (s : State) : s.endAudit = s.auditSettled.reconcile.endStartup := rfl

/-- The compartments that the audit leaves unread. -/
def State.leftUnread (s : State) (n : Nat) : Prop := isComp n ∧ (n ∈ s.scu.auditWait ∨ n ∈ s.scu.auditUnread)

theorem State.mem_leftUnread (s : State) (n : Nat) :
    n ∈ compNos.filter (fun n => s.scu.auditWait.contains n || s.scu.auditUnread.contains n) ↔ s.leftUnread n := by
  rw [List.mem_filter, mem_compNos, Bool.or_eq_true, List.contains_iff_mem, List.contains_iff_mem]
  rfl

theorem State.auditSettled_spec (s : State) : let v := s.auditSettled
    v = { s with
      comps := v.comps, alloc := v.alloc, tariff := v.tariff, pbc := v.pbc, kli := v.kli
      scu := { s.scu with phase := some .RECONCILE, auditWait := [], auditUnread := [], auditTimer := false } } ∧
    (∀ n, s.leftUnread n → v.comp n = (s.comp n).settled (s.enabledRec (s.comp n)) .unread s.now) ∧
    (∀ n, ¬ s.leftUnread n → v.comp n = s.comp n) ∧
    (∀ r, (v.reader r).charge = (s.reader r).charge) ∧ s.pbc.reversals <+: v.pbc.reversals := by
  have settled := State.settledUnread_fold (compNos.filter fun n => s.scu.auditWait.contains n || s.scu.auditUnread.contains n) s
    (nodup_compNos.filter _) fun n hn => mem_compNos.mp (List.mem_filter.mp hn).1
  unfold State.auditSettled
  generalize (compNos.filter fun n => s.scu.auditWait.contains n || s.scu.auditUnread.contains n).foldl
    (fun s n => s.settle n .unread) s = t at settled
  refine ⟨?_, fun n left => (settled.comp n).trans (if_pos ((s.mem_leftUnread n).mpr left)),
    fun n gone => (settled.comp n).trans (if_neg fun c => gone ((s.mem_leftUnread n).mp c)), settled.charge, settled.reversals⟩
  obtain ⟨cs, al, ta, b, k, e⟩ : ∃ cs al ta b k, t = { s with comps := cs, alloc := al, tariff := ta, pbc := b, kli := k } :=
    ⟨_, _, _, _, _, settled.frame⟩
  rw [e]
  rfl

/-! ### The end of the start-up phases (R166, R202) -/

/-- The state as the end of start-up hands its minute on. -/
def State.startupDone (s : State) : State :=
  { s with
    scu := { s.scu with phase := none }
    kli := s.kli.post { kind := .STARTUP_DONE, minute := s.now, mode := some s.scu.mode } }

theorem State.endStartup_eq (s : State) : s.endStartup = s.startupDone.handOn true := rfl

theorem State.endStartup_frame (s : State) : s.endStartup = { s with
    comps := s.endStartup.comps, alloc := s.endStartup.alloc, gates := s.endStartup.gates, tariff := s.endStartup.tariff
    scu := { s.scu with phase := none }, kli := s.endStartup.kli } := by
  obtain ⟨cs, al, g, ta, k, e⟩ : ∃ cs al g ta k, s.startupDone.handOn true =
      { s.startupDone with comps := cs, alloc := al, gates := g, tariff := ta, kli := k } :=
    ⟨_, _, _, _, _, (State.handOn_eq s.startupDone true).1⟩
  rw [s.endStartup_eq, e]
  rfl

theorem Compartment.kept_handed {s : State} {b : Bool} (n : Nat) :
    (s.handedComp b n).purpose = (s.comp n).purpose ∧ (s.handedComp b n).causes = (s.comp n).causes := by
  have expired : ∀ (m : Nat) (c : Compartment), (visited (expireMark m) n c).purpose = c.purpose ∧
      (visited (expireMark m) n c).causes = c.causes := fun m c => by
    unfold visited expireMark
    split
    · split <;> exact ⟨rfl, rfl⟩
    · exact ⟨rfl, rfl⟩
  have overdue : ∀ (f : Parcel → Page) (m : Nat) (c : Compartment), (visited (overdueMark f m) n c).purpose = c.purpose ∧
      (visited (overdueMark f m) n c).causes = c.causes := fun f m c => by
    unfold visited overdueMark
    split
    · split <;> exact ⟨rfl, rfl⟩
    · exact ⟨rfl, rfl⟩
  obtain ⟨purpose, causes⟩ := expired s.now (s.comp n)
  unfold State.handedComp
  dsimp only
  split
  · obtain ⟨purpose', causes'⟩ := overdue s.parcelPage s.now (visited (expireMark s.now) n (s.comp n))
    exact ⟨purpose'.trans purpose, causes'.trans causes⟩
  · exact ⟨purpose, causes⟩

theorem State.endStartup_comp (s : State) {n : Nat} (known : isComp n) :
    (s.endStartup.comp n).purpose = (s.comp n).purpose ∧ (s.endStartup.comp n).causes = (s.comp n).causes := by
  rw [s.endStartup_eq, (State.handOn_eq s.startupDone true).2 n known]
  exact Compartment.kept_handed n

theorem Compartment.kept_withoutRefs (refs : List Nat) : ∀ c : Compartment,
    (refs.foldl Compartment.withoutRef c).purpose = c.purpose ∧ (refs.foldl Compartment.withoutRef c).causes = c.causes := by
  induction refs with
  | nil => exact fun _ => ⟨rfl, rfl⟩
  | cons r refs ih => exact fun c => ih (c.withoutRef r)

theorem State.reconcile_comp (s : State) {n : Nat} (known : isComp n) :
    (s.reconcile.comp n).purpose = (s.comp n).purpose ∧ (s.reconcile.comp n).causes = (s.comp n).causes := by
  rw [s.reconcile_eq.2.2 n known]
  exact Compartment.kept_withoutRefs _ _

theorem Compartment.settled_unread (c : Compartment) (m : Nat) : let d := c.settled true .unread m
    d.purpose = none ∧ d.causes.auditRequired = true := by
  have marked : (c.unreadMarked true .unread) = c.withCause .AUDIT_REQUIRED := rfl
  have kept : ∀ d : Compartment, (d.settledBody .unread m).causes = d.causes := fun d => by
    have undone : (d.undone m).causes = d.causes := by
      unfold Compartment.undone
      split
      · rfl
      · split <;> rfl
      · rfl
    have confirmed : (d.confirmed m true).causes = d.causes := by
      unfold Compartment.confirmed
      split <;> rfl
    unfold Compartment.settledBody
    rcases d.purpose with _ | (_ | _ | _ | _ | _ | _)
    case none =>
      dsimp only
      split
      · exact undone
      · rfl
    case some.DEPOSIT | some.RETURN_DROP => exact confirmed
    all_goals rfl
  refine ⟨rfl, ?_⟩
  show ((c.unreadMarked true .unread).settledBody .unread m).causes.auditRequired = true
  rw [kept, marked]
  rfl

end Sys2Proof.Machine
end

