-- ==== Sys2Proof/Proofs/Audits.lean ====
section
/-! Minutes, the readings of the audit and the end of start-up (R199, R202 to R204). -/

namespace Sys2Proof.Machine

open Sys2Proof

/-! ### A minute (R199) -/

theorem State.handedOn_of {s u : State} {c : Scu} {k : Kli} {m : Nat} {q : Prop} [Decidable q]
    (h : ({ s with scu := c, kli := k } : State).handedOn u m q) (queue : k.queue = s.kli.queue) : s.handedOn u m q :=
  State.handedOn_replied h queue u.kli.reply

theorem exec_minuteTick {s : State} (below : s.scu.minute < 4294967295) : exec .minuteTick s = .next
    (if s.starting then s.updScu Scu.ticked else (s.updScu Scu.ticked).handOn (decide ((s.scu.minute + 1) % 15 = 0))) := by
  show execMinuteTick s = _
  unfold execMinuteTick
  exact if_pos below

theorem minuteTick_hands (s : State) (below : s.scu.minute < 4294967295) :
    let m := s.scu.minute + 1
    ∃ t, exec .minuteTick s = .next t ∧
      t.scu = { s.scu with minute := m, persisted := if m % 15 = 0 then m else s.scu.persisted } ∧
      (s.scu.phase ≠ none → t = { s with scu := t.scu }) ∧ (s.scu.phase = none → s.handedOn t m (m % 15 = 0)) := by
  refine ⟨_, exec_minuteTick below, ?_, fun starting => ?_, fun serving => ?_⟩
  · split
    · rfl
    · exact State.handOn_scu _ _
  · rw [if_pos ((State.starting_iff _).mpr starting)]
    rfl
  · rw [if_neg fun c => (State.starting_iff _).mp c serving]
    exact State.handedOn_of (State.handedOn_handOn (s.updScu Scu.ticked) ((s.scu.minute + 1) % 15 = 0)) rfl

/-! ### A reading of the audit (R55, R203, R204) -/

theorem State.postRecovered_event (s : State) (n : Nat) (pu : Option Purpose) (note : EndNote)
    (ref : Option (Nat × Nat × Bool)) (room : s.kli.queue.length < 64) : ∃ e ∈ (s.postRecovered n pu note ref).kli.queue,
      e.kind = .CYCLE_DONE ∧ e.comp = some n ∧ e.outcome = some .RECOVERED ∧ e.purpose = some pu := by
  have items : ∀ u : State, let e := u.recovered n pu note ref
      e.kind = .CYCLE_DONE ∧ e.comp = some n ∧ e.outcome = some .RECOVERED ∧ e.purpose = some pu := fun u => by
    unfold State.recovered
    cases note.ident <;> exact ⟨rfl, rfl, rfl, rfl⟩
  refine ⟨_, ?_, items (s.updComp n fun c => { c with purpose := none })⟩
  unfold State.postRecovered
  dsimp only
  cases note.lapsed with
  | none => exact Kli.mem_posts_head [] room
  | some v => exact Kli.mem_posts_head [_] room

theorem State.kli_undo (s : State) (n : Nat) : (s.undo n).1.kli = s.kli := (congrArg State.kli (s.undo_eq n) :)

theorem State.kli_queueReversal (s : State) (v : Reversal) : (s.queueReversal v).1.kli = s.kli := by
  unfold State.queueReversal
  split
  · dsimp only
    split
    · exact (congrArg State.kli (State.restReader_frame _ _) :)
    · rfl
  · rfl

theorem State.kli_reverseRecovered (s : State) (n : Nat) (p : Parcel) : (s.reverseRecovered n p).1.kli = s.kli := by
  unfold State.reverseRecovered
  split
  · split
    · rfl
    · exact s.kli_queueReversal _
  · rfl

theorem State.kli_auditCompare (s : State) (n : Nat) (rd : AuditReading) : (s.auditCompare n rd).kli = s.kli := by
  unfold State.auditCompare
  cases rd with
  | unread => rfl
  | occupied | empty => dsimp only; split <;> rfl

/-- CYCLE_DONE of a compartment that had a purpose or was DEPOSITING (R204). -/
theorem State.settleBody_event {s : State} {n : Nat} {rd : AuditReading}
    (due : (s.comp n).purpose ≠ none ∨ (s.comp n).state = .DEPOSITING) (room : s.kli.queue.length < 64) :
    ∃ e ∈ (s.settleBody n rd).kli.queue, e.kind = .CYCLE_DONE ∧ e.comp = some n ∧ e.outcome = some .RECOVERED ∧
      e.purpose = some (s.comp n).purpose := by
  have posted : ∀ (u : State) (note : EndNote) (ref : Option (Nat × Nat × Bool)), u.kli = s.kli →
      ∃ e ∈ (u.postRecovered n (s.comp n).purpose note ref).kli.queue, e.kind = .CYCLE_DONE ∧ e.comp = some n ∧
        e.outcome = some .RECOVERED ∧ e.purpose = some (s.comp n).purpose := fun u note ref e =>
    u.postRecovered_event n _ note ref (by rw [e]; exact room)
  have undone : ∃ e ∈ (s.auditUndo n (s.comp n).purpose).kli.queue, e.kind = .CYCLE_DONE ∧ e.comp = some n ∧
      e.outcome = some .RECOVERED ∧ e.purpose = some (s.comp n).purpose := by
    unfold State.auditUndo
    dsimp only
    cases (s.comp n).parcel with
    | none => exact posted _ _ _ (s.kli_undo n)
    | some p => exact posted _ _ _ ((State.kli_reverseRecovered _ n p).trans (s.kli_undo n))
  cases purpose : (s.comp n).purpose with
  | none =>
    rw [(State.settleBody_undo (rd := rd) (.inl ⟨purpose, due.resolve_left fun c => c purpose⟩)).1, ← purpose]
    exact undone
  | some pu =>
    rw [← purpose]
    have deposit : (s.comp n).purpose = some .DEPOSIT ∨ (s.comp n).purpose = some .RETURN_DROP →
        ∃ e ∈ (s.settleBody n rd).kli.queue, e.kind = .CYCLE_DONE ∧ e.comp = some n ∧ e.outcome = some .RECOVERED ∧
          e.purpose = some (s.comp n).purpose := fun opens => by
      by_cases empty : rd = .empty
      · rw [(State.settleBody_undo (.inr ⟨opens, empty⟩)).1]
        exact undone
      · rw [(State.settleBody_confirm opens empty).1]
        unfold State.auditConfirm
        refine posted _ _ _ ?_
        rw [s.confirmParcel_eq]
        rfl
    have take : (s.comp n).purpose = some .COLLECT ∨ (s.comp n).purpose = some .SWEEP ∨
        (s.comp n).purpose = some .SERVICE_REMOVE →
        ∃ e ∈ (s.settleBody n rd).kli.queue, e.kind = .CYCLE_DONE ∧ e.comp = some n ∧ e.outcome = some .RECOVERED ∧
          e.purpose = some (s.comp n).purpose := fun taken => by
      by_cases empty : rd = .empty
      · rw [(State.settleBody_retire taken empty).1]
        exact posted _ _ _ (congrArg State.kli (s.retire_eq n) :)
      · rw [(State.settleBody_keep taken empty).1]
        exact posted _ _ _ rfl
    cases pu
    case DEPOSIT => exact deposit (.inl purpose)
    case RETURN_DROP => exact deposit (.inr purpose)
    case COLLECT => exact take (.inl purpose)
    case SWEEP => exact take (.inr (.inl purpose))
    case SERVICE_REMOVE => exact take (.inr (.inr purpose))
    case SERVICE_OPEN =>
      rw [(State.settleBody_open purpose).1]
      exact posted _ _ _ (s.kli_auditCompare n rd)

/-- The reading a settled hatch reading gives the audit. -/
def AuditReading.of (r : Reading) : AuditReading := if r.occupied then .occupied else .empty

theorem AuditReading.of_read (r : Reading) : AuditReading.of r ≠ .unread := by
  unfold AuditReading.of
  split <;> decide

theorem AuditReading.of_occupied {r : Reading} (h : r.occupied = true) : AuditReading.of r = .occupied := if_pos h

theorem AuditReading.of_empty {r : Reading} (h : r.occupied = false) : AuditReading.of r = .empty :=
  if_neg (by rw [h]; decide)

theorem State.settle_read {s : State} {n : Nat} {rd : AuditReading} (read : rd ≠ .unread) :
    s.settle n rd = s.settleBody n rd := by
  rw [s.settle_eq]
  have same : s.markUnread n rd = s := if_neg fun c => read c.1
  rw [same]

/-- A closed and settled reading of a compartment that the audit waits for. -/
theorem State.auditRead_settles {s : State} {n : Nat} {r : Reading} (waits : n ∈ s.scu.auditWait)
    (closed : r.hatchOpen = false) (settled : r.settled = true) : s.auditRead n r =
      (s.settleBody n (AuditReading.of r)).updScu fun u => { u with auditWait := u.auditWait.filter (· != n) } := by
  unfold State.auditRead
  rw [if_pos (List.contains_iff_mem.mpr waits), closed, if_neg Bool.false_ne_true, settled, if_pos rfl]
  dsimp only
  have read : s.settle n (if r.occupied then .occupied else .empty) = s.settleBody n (AuditReading.of r) :=
    State.settle_read (AuditReading.of_read r)
  rw [read]

theorem Compartment.compared_read {c : Compartment} {r : Reading} (settled : c.state ≠ .DEPOSITING) :
    c.compared (AuditReading.of r) = { c with
      causes := if r.occupied = decide (c.state = .LOADED ∨ c.state = .RETURN_LOADED) then c.causes
        else c.causes.add .OCCUPANCY_MISMATCH } := by
  have test : consistent c.state r.occupied = true ↔ r.occupied = decide (c.state = .LOADED ∨ c.state = .RETURN_LOADED) :=
    consistent_iff.trans (and_iff_right settled)
  have compare : c.compared (AuditReading.of r) = if consistent c.state r.occupied then c else c.withCause .OCCUPANCY_MISMATCH := by
    unfold AuditReading.of
    cases r.occupied <;> rfl
  rw [compare]
  by_cases ok : consistent c.state r.occupied = true
  · rw [if_pos ok, if_pos (test.mp ok)]
  · rw [if_neg ok, if_neg fun e => ok (test.mpr e)]
    rfl

/-- The compartment that the audit settles from its reading (R204). -/
theorem State.auditRead_comp {s : State} {n : Nat} {r : Reading} (known : isComp n) :
    let v := s.settleBody n (AuditReading.of r)
    let c := s.comp n
    let own := { c with purpose := none }
    let opens := c.purpose = some .DEPOSIT ∨ c.purpose = some .RETURN_DROP
    let taken := c.purpose = some .COLLECT ∨ c.purpose = some .SWEEP ∨ c.purpose = some .SERVICE_REMOVE
    (v.comp n).purpose = none ∧
    (∀ x, c.parcel = some x → opens → r.occupied = true → v.comp n = { own with
      state := match x.kind with | .DELIVERY => CompState.LOADED | .RETURN => .RETURN_LOADED
      parcel := some { x with pending := false, depositMinute := s.now, prior := none, unverified := true } }) ∧
    (∀ x, c.parcel = some x → (opens ∧ r.occupied = false) ∨ (c.purpose = none ∧ c.state = .DEPOSITING) →
      (∀ v', x.prior = some (.reserved v') → s.now < v'.expiry →
        v.comp n = { own with state := .RESERVED, parcel := none, reservation := some v' }) ∧
      (x.prior = some .free ∨ (∃ v', x.prior = some (.reserved v') ∧ v'.expiry ≤ s.now) →
        v.comp n = { own with state := .FREE, parcel := none })) ∧
    (taken → r.occupied = true → v.comp n = own) ∧
    (∀ x, c.parcel = some x → taken → r.occupied = false →
      v.comp n = { own with state := .FREE, parcel := none, tagOwner := none }) ∧
    (c.purpose = some .SERVICE_OPEN → c.state ≠ .DEPOSITING → v.comp n = { own with
      causes := if r.occupied = decide (c.state = .LOADED ∨ c.state = .RETURN_LOADED) then c.causes
        else c.causes.add .OCCUPANCY_MISMATCH }) := by
  dsimp only
  have own := (s.settlesAt_settleBody n (AuditReading.of r)).own known
  have filled : r.occupied = true → AuditReading.of r ≠ .empty := fun e => by
    rw [AuditReading.of_occupied e]
    decide
  refine ⟨?_, fun x parcel opens occupied => ?_, fun x parcel pending => ?_, fun taken occupied => ?_,
    fun x parcel taken empty => ?_, fun opened settled => ?_⟩
  · rw [own]
    rfl
  · rw [own, (State.settleBody_confirm opens (filled occupied)).2, Compartment.confirmed_parcel parcel]
    rfl
  · have body := (State.settleBody_undo (s := s) (n := n) (rd := AuditReading.of r) (pending.symm.imp id fun h =>
      ⟨h.1, AuditReading.of_empty h.2⟩)).2
    rw [own, body]
    refine ⟨fun v' prior early => ?_, fun free => ?_⟩
    · rw [Compartment.undone_reserved parcel prior, if_pos early]
      rfl
    · rw [Compartment.undone_free parcel free]
      rfl
  · rw [own, (State.settleBody_keep taken (filled occupied)).2]
    rfl
  · rw [own, (State.settleBody_retire taken (AuditReading.of_empty empty)).2, Compartment.retired_parcel parcel]
    rfl
  · rw [own, (State.settleBody_open opened).2, Compartment.compared_read settled]
    rfl

theorem State.auditCompare_eq {s : State} {n : Nat} {rd : AuditReading} :
    s.auditCompare n rd = s.withComp n ((s.comp n).compared rd) := by
  have same : s.withComp n (s.comp n) = s := congrArg (fun v => { s with comps := v }) (tput_tget s.comps n _)
  cases rd with
  | unread => exact same.symm
  | occupied =>
    unfold State.auditCompare Compartment.compared
    dsimp only
    split
    · exact same.symm
    · rfl
  | empty =>
    unfold State.auditCompare Compartment.compared
    dsimp only
    split
    · exact same.symm
    · rfl

/-! ### The audit limit (R202, R203) -/

theorem State.reconcile_scu (s : State) : s.reconcile.scu = s.scu := (congrArg State.scu s.reconcile_eq.1 :)

/-- The parts that the end of the AUDIT phase leaves. -/
theorem State.endAudit_frame (s : State) : let t := s.endAudit
    t = { s with
      comps := t.comps, alloc := t.alloc, gates := t.gates, tariff := t.tariff, pbc := t.pbc, kli := t.kli
      scu := { s.scu with phase := none, auditWait := [], auditUnread := [], auditTimer := false } } := by
  obtain ⟨settled, -⟩ := s.auditSettled_spec
  dsimp only
  rw [s.endAudit_eq]
  generalize s.auditSettled = v at settled
  obtain ⟨cs, al, ta, b, k, e⟩ : ∃ cs al ta b k, v = { s with
      comps := cs, alloc := al, tariff := ta, pbc := b, kli := k
      scu := { s.scu with phase := some .RECONCILE, auditWait := [], auditUnread := [], auditTimer := false } } :=
    ⟨_, _, _, _, _, settled⟩
  obtain ⟨cs', b', k', e'⟩ : ∃ cs b k, v.reconcile = { v with comps := cs, pbc := b, kli := k } := ⟨_, _, _, v.reconcile_eq.1⟩
  obtain ⟨cs'', al', g', ta', k'', e''⟩ : ∃ cs al g ta k, v.reconcile.endStartup = { v.reconcile with
      comps := cs, alloc := al, gates := g, tariff := ta, scu := { v.reconcile.scu with phase := none }, kli := k } :=
    ⟨_, _, _, _, _, v.reconcile.endStartup_frame⟩
  rw [e'', e', e]

/-- What the end of the AUDIT phase makes of a compartment left unread. -/
theorem State.endAudit_comp {s : State} {n : Nat} (left : s.leftUnread n) : (s.endAudit.comp n).purpose = none ∧
    (s.enabledRec (s.comp n) = true → (s.endAudit.comp n).causes.auditRequired = true) := by
  obtain ⟨-, settled, -⟩ := s.auditSettled_spec
  obtain ⟨purpose, causes⟩ := s.auditSettled.reconcile.endStartup_comp left.1
  obtain ⟨purpose', causes'⟩ := s.auditSettled.reconcile_comp left.1
  rw [s.endAudit_eq, purpose, purpose', causes, causes', settled n left]
  refine ⟨rfl, fun enabled => ?_⟩
  rw [enabled]
  exact (Compartment.settled_unread _ _).2

theorem exec_auditLimitExpiry {s : State} (phase : s.scu.phase = some .AUDIT) (timer : s.scu.auditTimer = true) :
    exec .auditLimitExpiry s = .next s.endAudit := by
  show execAuditLimitExpiry s = _
  exact if_pos ⟨phase, timer⟩

theorem auditLimit_ends (s : State) (phase : s.scu.phase = some .AUDIT) (timer : s.scu.auditTimer = true) :
    ∃ t, exec .auditLimitExpiry s = .next t ∧
      t.scu = { s.scu with phase := none, auditWait := [], auditUnread := [], auditTimer := false } ∧
      (∀ n, isComp n → n ∈ s.scu.auditWait ∨ n ∈ s.scu.auditUnread →
        (t.comp n).purpose = none ∧ (s.enabledRec (s.comp n) = true → (t.comp n).causes.auditRequired = true)) ∧
      t.links = s.links ∧ t.hce = s.hce ∧ t.sects = s.sects ∧ t.hatchMap = s.hatchMap ∧ t.arb = s.arb ∧
      t.swu = s.swu ∧ t.capture = s.capture := by
  have frame := s.endAudit_frame
  exact ⟨_, exec_auditLimitExpiry phase timer, (congrArg State.scu frame :),
    fun n known left => State.endAudit_comp ⟨known, left⟩, (congrArg State.links frame :), (congrArg State.hce frame :),
    (congrArg State.sects frame :), (congrArg State.hatchMap frame :), (congrArg State.arb frame :),
    (congrArg State.swu frame :), (congrArg State.capture frame :)⟩

/-- A compartment left unread, marked where its section is enabled (R203). -/
def State.unreadComp (s : State) (n : Nat) : Compartment :=
  { s.comp n with causes := if s.enabledRec (s.comp n) then (s.comp n).causes.add .AUDIT_REQUIRED else (s.comp n).causes }

theorem State.unreadComp_eq (s : State) (n : Nat) :
    (s.comp n).unreadMarked (s.enabledRec (s.comp n)) .unread = s.unreadComp n := by
  unfold Compartment.unreadMarked State.unreadComp
  cases s.enabledRec (s.comp n) <;> rfl

theorem Compartment.settledBody_unread (c : Compartment) (m : Nat) :
    (∀ x, c.parcel = some x → c.purpose = some .DEPOSIT ∨ c.purpose = some .RETURN_DROP →
      c.settledBody .unread m = c.confirmed m true) ∧
    (c.purpose = some .COLLECT ∨ c.purpose = some .SWEEP ∨ c.purpose = some .SERVICE_REMOVE ∨
      c.purpose = some .SERVICE_OPEN ∨ (c.purpose = none ∧ c.state ≠ .DEPOSITING) → c.settledBody .unread m = c) ∧
    (c.purpose = none → c.state = .DEPOSITING → c.settledBody .unread m = c.undone m) := by
  unfold Compartment.settledBody
  refine ⟨fun x _ opens => ?_, fun keeps => ?_, fun purpose pending => ?_⟩
  · rcases opens with e | e <;> rw [e] <;> rfl
  · rcases keeps with e | e | e | e | ⟨e, settled⟩ <;> rw [e]
    case inr.inr.inr.inr => exact if_neg settled
    all_goals rfl
  · rw [purpose]
    exact if_pos pending

theorem auditLimit_settles (s : State) (phase : s.scu.phase = some .AUDIT) (timer : s.scu.auditTimer = true) :
    let left := fun n => isComp n ∧ (n ∈ s.scu.auditWait ∨ n ∈ s.scu.auditUnread)
    ∃ v : State, exec .auditLimitExpiry s = .next v.reconcile.endStartup ∧
      v.scu = { s.scu with phase := some .RECONCILE, auditWait := [], auditUnread := [], auditTimer := false } ∧
      (∀ r, (v.reader r).charge = (s.reader r).charge) ∧ s.pbc.reversals <+: v.pbc.reversals ∧
      (∀ n, ¬ left n → v.comp n = s.comp n) ∧
      ∀ n, left n →
        let c := s.comp n
        let own := { c with
          purpose := none
          causes := if s.enabledRec c then c.causes.add .AUDIT_REQUIRED else c.causes }
        (∀ x, c.parcel = some x → c.purpose = some .DEPOSIT ∨ c.purpose = some .RETURN_DROP →
          v.comp n = { own with
            state := match x.kind with | .DELIVERY => CompState.LOADED | .RETURN => .RETURN_LOADED
            parcel := some { x with pending := false, depositMinute := s.now, prior := none, unverified := true } }) ∧
        (c.purpose = some .COLLECT ∨ c.purpose = some .SWEEP ∨ c.purpose = some .SERVICE_REMOVE ∨
          c.purpose = some .SERVICE_OPEN ∨ (c.purpose = none ∧ c.state ≠ .DEPOSITING) → v.comp n = own) ∧
        (∀ x, c.parcel = some x → c.purpose = none → c.state = .DEPOSITING →
          (∀ w, x.prior = some (.reserved w) → s.now < w.expiry →
            v.comp n = { own with state := .RESERVED, parcel := none, reservation := some w }) ∧
          (x.prior = some .free ∨ (∃ w, x.prior = some (.reserved w) ∧ w.expiry ≤ s.now) →
            v.comp n = { own with state := .FREE, parcel := none })) := by
  obtain ⟨frame, settled, kept, charge, reversals⟩ := s.auditSettled_spec
  refine ⟨s.auditSettled, exec_auditLimitExpiry phase timer, (congrArg State.scu frame :), charge, reversals, kept,
    fun n left => ?_⟩
  have own := settled n left
  unfold Compartment.settled at own
  rw [s.unreadComp_eq] at own
  obtain ⟨opens, keeps, pends⟩ := (s.unreadComp n).settledBody_unread s.now
  refine ⟨fun x parcel purpose => ?_, fun purpose => ?_, fun x parcel purpose pending => ⟨fun w prior early => ?_, fun free => ?_⟩⟩
  · rw [own, opens x parcel purpose]
    exact congrArg Compartment.idle (Compartment.confirmed_parcel (c := s.unreadComp n) parcel)
  · rw [own, keeps purpose]
    rfl
  · rw [own, pends purpose pending]
    exact congrArg Compartment.idle ((Compartment.undone_reserved (c := s.unreadComp n) parcel prior).trans (if_pos early))
  · rw [own, pends purpose pending]
    exact congrArg Compartment.idle (Compartment.undone_free (c := s.unreadComp n) parcel free)

/-! ### The end of start-up (R202) -/

theorem endStartup_hands (s : State) :
    let u := { s with scu := { s.scu with phase := none } }
    let t := s.endStartup
    t.scu = u.scu ∧ u.handedOn t s.now True ∧
      (s.kli.queue.length < 64 → ∃ e ∈ t.kli.queue, e.kind = .STARTUP_DONE ∧ e.mode = some s.scu.mode) := by
  have handed := s.startupDone.handedOn_handOn True
  have frame := (State.handOn_eq s.startupDone true).1
  refine ⟨State.handOn_scu s.startupDone true, ?_, fun room => ?_⟩
  · obtain ⟨-, freed, overdue, others, alloc, unlocked, locked, tariff, -⟩ := handed
    have whole : s.endStartup = { s with
        comps := s.endStartup.comps, alloc := s.endStartup.alloc, gates := s.endStartup.gates
        tariff := s.endStartup.tariff, scu := s.endStartup.scu, kli := s.endStartup.kli } := by
      obtain ⟨cs, al, g, ta, k, e⟩ : ∃ cs al g ta k, s.endStartup = { s with
          comps := cs, alloc := al, gates := g, tariff := ta, scu := { s.scu with phase := none }, kli := k } :=
        ⟨_, _, _, _, _, s.endStartup_frame⟩
      rw [e]
    refine ⟨whole, freed, overdue, others, alloc, unlocked,
      locked, tariff, fun room => ?_⟩
    have room' : s.kli.queue.length +
        compNos.countP (fun n => decide ((s.comp n).state = .RESERVED ∨ (s.comp n).state = .LOADED)) + 2 ≤ 64 := room
    have queue : s.startupDone.kli.queue = s.kli.queue ++
        [{ kind := .STARTUP_DONE, minute := s.now, mode := some s.scu.mode }] := Kli.queue_post _ (by omega)
    have more : s.startupDone.kli.queue.length +
        compNos.countP (fun n => decide ((s.comp n).state = .RESERVED ∨ (s.comp n).state = .LOADED)) + 1 ≤ 64 := by
      rw [queue, List.length_append, List.length_singleton]
      omega
    obtain ⟨before, events⟩ := s.startupDone.handOn_posts True more
    have first : s.kli.queue <+: s.startupDone.kli.queue := by
      rw [queue]
      exact List.prefix_append _ _
    have same : s.startupDone.handOn (decide True) = s.endStartup := rfl
    rw [same] at before events
    exact ⟨first.trans before, events⟩
  · have kli : s.endStartup.kli = _ := (congrArg State.kli frame :)
    rw [kli]
    exact ⟨{ kind := .STARTUP_DONE, minute := s.now, mode := some s.scu.mode },
      Kli.mem_foldl_post _ (Kli.mem_posts_head [] room), rfl, rfl⟩

/-! ### The AUDIT phase begins (R44, R203) -/

/-- The compartment resolves (R32). -/
def State.found (s : State) (n : Nat) : Bool := match s.resolution n with | .ok _ _ => true | _ => false

/-- A compartment at the start of the audit: MAP_CHECK where its entry mismatches (R34). -/
def State.auditMarked (s : State) (n : Nat) : Compartment :=
  match s.resolution n with
  | .mapFault _ => { s.comp n with causes := (s.comp n).causes.add .MAP_CHECK }
  | _ => s.comp n

/-- The compartments of a list that the audit waits for. -/
def State.waitsOf (s : State) (ns : List Nat) : List Nat := ns.filter fun n => (s.comp n).sect.isSome && s.found n

/-- The compartments of a list that the audit leaves unread from the start. -/
def State.unreadOf (s : State) (ns : List Nat) : List Nat := ns.filter fun n => (s.comp n).sect.isSome && !s.found n

/-- The audit has resolved some compartments. -/
structure State.AuditResolved (s u : State) (ns : List Nat) : Prop where
  frame : u = { s with
    scu := { s.scu with
      auditWait := s.scu.auditWait ++ s.waitsOf ns
      auditUnread := s.scu.auditUnread ++ s.unreadOf ns }
    comps := u.comps, capture := u.capture, kli := u.kli }
  comp : ∀ m, isComp m → u.comp m = if m ∈ ns then s.auditMarked m else s.comp m

theorem State.auditMarked_sect (s : State) (n : Nat) : (s.auditMarked n).sect = (s.comp n).sect := by
  unfold State.auditMarked
  split <;> rfl

theorem State.AuditResolved.resolution {s u : State} {ns : List Nat} (h : s.AuditResolved u ns) (n : Nat) :
    u.resolution n = s.resolution n := by
  have field : (u.comp n).sect = (s.comp n).sect := by
    by_cases known : isComp n
    · rw [h.comp n known]
      split
      · exact s.auditMarked_sect n
      · rfl
    · rw [State.comp_outside _ known, State.comp_outside _ known]
  obtain ⟨cs, ca, k, e⟩ : ∃ cs ca k, u = { s with
      scu := { s.scu with
        auditWait := s.scu.auditWait ++ s.waitsOf ns
        auditUnread := s.scu.auditUnread ++ s.unreadOf ns }
      comps := cs, capture := ca, kli := k } := ⟨_, _, _, h.frame⟩
  have base : ({ s with comps := cs } : State).resolution n = s.resolution n :=
    State.resolution_congr (by rw [e] at field; exact field) rfl rfl rfl rfl
  rw [e]
  exact base

theorem State.afterResolve_comps (s : State) (n : Nat) :
    (s.afterResolve n).comps = (s.updComp n fun _ => s.auditMarked n).comps := by
  have same : s.comps = (s.updComp n fun _ => s.comp n).comps :=
    (congrArg State.comps (State.updComp_same (s := s) (n := n) (f := fun _ => s.comp n) rfl)).symm
  unfold State.afterResolve State.auditMarked
  cases s.resolution n with
  | ok a w => exact same
  | unreachable => exact same
  | mapFault a => exact (congrArg State.comps (State.reportFault_frame (s.markCause n .MAP_CHECK) _ _ _ _ _) :)

/-- What the audit does with one compartment at its start (R44, R203). -/
theorem State.auditResolve_eq (s : State) (n : Nat) : let t := s.auditResolve n
    t = { s with
      scu := { s.scu with
        auditWait := s.scu.auditWait ++ s.waitsOf [n]
        auditUnread := s.scu.auditUnread ++ s.unreadOf [n] }
      comps := t.comps, capture := t.capture, kli := t.kli } ∧
    t.comps = (s.updComp n fun _ => s.auditMarked n).comps := by
  have same : s.auditMarked n = s.comp n → (s.updComp n fun _ => s.auditMarked n) = s := fun e => State.updComp_same e
  have frame := (s.afterResolve_mapMarked n).1
  have comps := s.afterResolve_comps n
  dsimp only
  unfold State.auditResolve State.waitsOf State.unreadOf
  simp only [List.filter_cons, List.filter_nil]
  cases sect : (s.comp n).sect with
  | none =>
    have marked : s.auditMarked n = s.comp n := by
      unfold State.auditMarked
      rw [State.resolution_outside sect]
    rw [if_pos (show (none : Option (Fin 8)).isNone = true from rfl), same marked]
    simp
  | some i =>
    rw [if_neg (show ¬ (some i).isNone = true from Bool.false_ne_true)]
    unfold State.found
    cases res : s.resolution n with
    | ok a w =>
      have marked : s.auditMarked n = s.comp n := by
        unfold State.auditMarked
        rw [res]
      rw [same marked]
      simp [State.updScu]
    | unreachable | mapFault a =>
      refine ⟨?_, comps⟩
      generalize s.afterResolve n = u at frame
      obtain ⟨cs, ca, k, e⟩ : ∃ cs ca k, u = { s with comps := cs, capture := ca, kli := k } := ⟨_, _, _, frame⟩
      rw [e]
      simp [State.updScu]

theorem State.AuditResolved.next {s u : State} {ns : List Nat} {n : Nat} (h : s.AuditResolved u ns) (fresh : n ∉ ns)
    (known : isComp n) : s.AuditResolved (u.auditResolve n) (ns ++ [n]) := by
  have own : u.comp n = s.comp n := (h.comp n known).trans (if_neg fresh)
  have same := h.resolution n
  have marked : u.auditMarked n = s.auditMarked n := by
    unfold State.auditMarked
    rw [same, own]
  have found : u.found n = s.found n := by
    unfold State.found
    rw [same]
  have waits : u.waitsOf [n] = s.waitsOf [n] := List.filter_congr fun m hm => by
    rw [List.mem_singleton.mp hm, own, found]
  have unread : u.unreadOf [n] = s.unreadOf [n] := List.filter_congr fun m hm => by
    rw [List.mem_singleton.mp hm, own, found]
  obtain ⟨frame, comps⟩ := u.auditResolve_eq n
  rw [waits, unread] at frame
  rw [marked] at comps
  refine ⟨?_, fun m hm => ?_⟩
  · have joined : s.waitsOf (ns ++ [n]) = s.waitsOf ns ++ s.waitsOf [n] ∧
        s.unreadOf (ns ++ [n]) = s.unreadOf ns ++ s.unreadOf [n] := ⟨List.filter_append .., List.filter_append ..⟩
    rw [joined.1, joined.2, ← List.append_assoc, ← List.append_assoc]
    have e := h.frame
    generalize u.auditResolve n = v at frame
    obtain ⟨cs, ca, k, e⟩ : ∃ cs ca k, u = { s with
      scu := { s.scu with
        auditWait := s.scu.auditWait ++ s.waitsOf ns
        auditUnread := s.scu.auditUnread ++ s.unreadOf ns }
      comps := cs, capture := ca, kli := k } := ⟨_, _, _, h.frame⟩
    rw [e] at frame
    exact frame
  · rw [State.comp_of_updComp comps m]
    by_cases here : n = m
    · subst here
      rw [if_pos ⟨rfl, known⟩, if_pos (List.mem_append_right _ (List.mem_singleton_self n))]
    · rw [if_neg fun c => here c.1, h.comp m hm]
      simp only [List.mem_append, List.mem_singleton, Ne.symm here, or_false]

theorem State.AuditResolved.all {s : State} (ns : List Nat) : ∀ {u : State} {done : List Nat}, s.AuditResolved u done →
    (done ++ ns).Nodup → (∀ n ∈ ns, isComp n) → s.AuditResolved (ns.foldl State.auditResolve u) (done ++ ns) := by
  induction ns with
  | nil =>
    intro u done h _ _
    rw [List.append_nil]
    exact h
  | cons n ns ih =>
    intro u done h distinct known
    have split : done ++ n :: ns = (done ++ [n]) ++ ns := by simp
    rw [split] at distinct ⊢
    have fresh : n ∉ done := fun mem =>
      (List.nodup_append.mp (List.nodup_append.mp distinct).1).2.2 n mem n (List.mem_singleton_self n) rfl
    exact ih (h.next fresh (known n List.mem_cons_self)) distinct fun m hm => known m (List.mem_cons_of_mem n hm)

/-- The audit has resolved every compartment. -/
theorem State.auditResolved_all (s : State) : s.AuditResolved (compNos.foldl State.auditResolve s) compNos := by
  have none_ : s.AuditResolved s [] := by
    refine ⟨?_, fun _ _ => rfl⟩
    unfold State.waitsOf State.unreadOf
    simp
  exact none_.all compNos nodup_compNos fun n hn => mem_compNos.mp hn

/-- The AUDIT phase at its beginning, with the lists of the audit empty before (R203). -/
theorem State.auditBegun_beginAudit {s : State} (noWait : s.scu.auditWait = []) (noUnread : s.scu.auditUnread = []) :
    s.auditBegun s.beginAudit := by
  let s1 := s.updScu fun u => { u with phase := some .AUDIT, auditTimer := true }
  have resolved := s1.auditResolved_all
  have began : s.beginAudit = (compNos.foldl State.auditResolve s1).auditCheck := rfl
  rw [began]
  generalize compNos.foldl State.auditResolve s1 = u at resolved
  have wait : u.scu.auditWait = s.waitsOf compNos := by
    rw [resolved.frame]
    show s.scu.auditWait ++ _ = _
    rw [noWait]
    rfl
  have unread : u.scu.auditUnread = s.unreadOf compNos := by
    rw [resolved.frame]
    show s.scu.auditUnread ++ _ = _
    rw [noUnread]
    rfl
  have scu : u.scu = { s.scu with
      phase := some .AUDIT, auditTimer := true, auditWait := s.waitsOf compNos, auditUnread := s.unreadOf compNos } := by
    rw [← wait, ← unread, resolved.frame]
    rfl
  unfold State.auditCheck
  refine ⟨fun some_ => ?_, fun none_ => ?_⟩
  · have waits : u.scu.auditWait ≠ [] := by
      rw [wait]
      exact some_
    rw [if_neg waits]
    refine ⟨scu, fun n known => (resolved.comp n known).trans (if_pos (mem_compNos.mpr known)), ?_⟩
    obtain ⟨c, cs, ca, k, e⟩ : ∃ c cs ca k, u = { s1 with scu := c, comps := cs, capture := ca, kli := k } :=
      ⟨_, _, _, _, resolved.frame⟩
    rw [e]
    rfl
  · have waits : u.scu.auditWait = [] := by
      rw [wait]
      exact none_
    rw [if_pos waits]
    refine ⟨?_, fun n mem => ?_⟩
    · refine (congrArg State.scu u.endAudit_frame :).trans ?_
      rw [scu]
    · have known : isComp n := mem_compNos.mp (List.mem_filter.mp mem).1
      have left : u.leftUnread n := ⟨known, .inr (by rw [unread]; exact mem)⟩
      obtain ⟨purpose, marked⟩ := State.endAudit_comp left
      refine ⟨purpose, fun enabled => marked ?_⟩
      have field : (u.comp n).sect = (s.comp n).sect := by
        rw [resolved.comp n known, if_pos (mem_compNos.mpr known)]
        exact s1.auditMarked_sect n
      have sects : u.sects = s.sects := (congrArg State.sects resolved.frame :)
      unfold State.enabledRec State.sect at enabled ⊢
      rw [field, sects]
      exact enabled

/-- What the start of the AUDIT phase leaves. -/
theorem State.beginAudit_frame (s : State) : let t := s.beginAudit
    t = { s with
      comps := t.comps, capture := t.capture, alloc := t.alloc, gates := t.gates, tariff := t.tariff, pbc := t.pbc
      scu := t.scu, kli := t.kli } := by
  let s1 := s.updScu fun u => { u with phase := some .AUDIT, auditTimer := true }
  have resolved := s1.auditResolved_all
  have began : s.beginAudit = (compNos.foldl State.auditResolve s1).auditCheck := rfl
  dsimp only
  rw [began]
  generalize compNos.foldl State.auditResolve s1 = u at resolved
  obtain ⟨c, cs, ca, k, e⟩ : ∃ c cs ca k, u = { s1 with scu := c, comps := cs, capture := ca, kli := k } :=
    ⟨_, _, _, _, resolved.frame⟩
  unfold State.auditCheck
  split
  · obtain ⟨cs', al, g, ta, b, k', c', e'⟩ : ∃ cs al g ta b k c, u.endAudit = { u with
        comps := cs, alloc := al, gates := g, tariff := ta, pbc := b, kli := k, scu := c } :=
      ⟨_, _, _, _, _, _, _, u.endAudit_frame⟩
    rw [e', e]
    rfl
  · rw [e]
    rfl

/-! ### A link reports the end of its full pass (R49, R202) -/

theorem State.mem_linkNos {s : State} {l : Nat} : l ∈ s.linkNos ↔ s.linkFitted l = true := by
  unfold State.linkNos State.linkFitted
  rw [List.mem_range'_1, decide_eq_true_eq]
  omega

theorem State.reportPass_of (s : State) {l : Nat} (fitted : s.linkFitted l = true) :
    let v := s.withLink l { s.link l with reported := true }
    (s.scu.phase ≠ some .ENUMERATE → s.reportPass l = s) ∧
    (s.scu.phase = some .ENUMERATE →
      ((∃ m, m ≠ l ∧ s.linkFitted m = true ∧ (s.link m).reported = false) → s.reportPass l = v) ∧
      ((∀ m, m ≠ l → s.linkFitted m = true → (s.link m).reported = true) →
        s.scu.auditWait = [] → s.scu.auditUnread = [] → v.auditBegun (s.reportPass l))) := by
  have known : 1 ≤ l ∧ l ≤ 4 := State.linkFitted_range fitted
  have read : ∀ m, ((s.updLink l fun x => { x with reported := true }).link m).reported =
      if l = m then true else (s.link m).reported := fun m => by
    rw [State.link_updLink]
    by_cases here : l = m
    · rw [if_pos ⟨here, known⟩, if_pos here]
    · rw [if_neg fun c => here c.1, if_neg here]
  have member : ∀ m, m ∈ (s.updLink l fun x => { x with reported := true }).linkNos ↔ s.linkFitted m = true := fun m =>
    State.mem_linkNos
  dsimp only
  unfold State.reportPass
  refine ⟨fun other => if_neg other, fun phase => ⟨?_, fun all noWait noUnread => ?_⟩⟩
  · rintro ⟨m, differs, fit, silent⟩
    rw [if_pos phase]
    dsimp only
    refine if_neg fun all => ?_
    have := List.all_eq_true.mp all m ((member m).mpr fit)
    rw [read, if_neg (Ne.symm differs), silent] at this
    exact nomatch this
  · rw [if_pos phase]
    dsimp only
    rw [if_pos (List.all_eq_true.mpr fun m hm => ?_)]
    · exact State.auditBegun_beginAudit noWait noUnread
    · rw [read]
      by_cases here : l = m
      · rw [if_pos here]
      · rw [if_neg here]
        exact all m (Ne.symm here) ((member m).mp hm)

end Sys2Proof.Machine
end

