-- ==== Sys2Proof/Proofs/Exchanges.lean ====
section
/-! The exchanges of a column link: the choice of the next one, enumeration and the directory (R47 to R52). -/

namespace Sys2Proof.Machine

open Sys2Proof

/-! ### Links and slots written -/

theorem tput_tput_tget {α : Type} {n : Nat} (v : Vector α n) (d : α) (i : Nat) (f g : α → α) :
    tput (tput v i (f (tget v d i))) i (g (tget (tput v i (f (tget v d i))) d i)) = tput v i (g (f (tget v d i))) := by
  by_cases known : 1 ≤ i ∧ i ≤ n
  · rw [tget_tput_self v d _ known.1 known.2, tput_tput]
  · have outside : ∀ (w : Vector α n) (x : α), tput w i x = w := fun w x => by
      cases i with
      | zero => rfl
      | succ k => exact Vector.setIfInBounds_eq_of_size_le (by omega)
    rw [outside, outside, outside]

theorem State.updLink_updLink (s : State) (l : Nat) (f g : Link → Link) :
    (s.updLink l f).updLink l g = s.updLink l fun x => g (f x) :=
  congrArg (fun v => { s with links := v }) (tput_tput_tget s.links Link.empty l f g)

theorem State.updLink_same {s : State} {l : Nat} {f : Link → Link} (same : f (s.link l) = s.link l) : s.updLink l f = s := by
  have table : tput s.links l (f (s.link l)) = s.links := by
    rw [same]
    exact tput_tget _ _ _
  exact congrArg (fun v => { s with links := v }) table

theorem State.known_of_line {s : State} {l : Nat} {m : LinkMsg} (line : (s.link l).line = some m) : 1 ≤ l ∧ l ≤ 4 := by
  by_contra out
  have empty : s.link l = Link.empty := tget_outside s.links Link.empty (by omega)
  rw [empty] at line
  exact nomatch line

theorem Link.updSlot_same {x : Link} {k : Nat} {f : Slot → Slot} (same : f (x.slotAt k) = x.slotAt k) : x.updSlot k f = x := by
  unfold Link.updSlot
  rw [same]
  exact congrArg (fun v => { x with slots := v }) (tput_tget x.slots k Slot.empty)

theorem State.slot_link {s t : State} {l k : Nat} (same : (t.link l).slots = (s.link l).slots) : t.slot l k = s.slot l k :=
  congrArg (fun v => tget v Slot.empty k) same

theorem Kept.slot {s t : State} (h : Kept s t) (l k : Nat) : t.slot l k = s.slot l k := State.slot_link (h.link l).1

/-! ### The end of a pass (R49, R51, R52) -/

/-- A commissioned slot still EMPTY at the end of a full pass becomes OFFLINE (R51). -/
def Slot.missed (x : Slot) : Slot := if x.state = .EMPTY ∧ x.commissioned.isSome then x.enter .OFFLINE else x

theorem Slot.missed_state (x : Slot) : x.missed.state =
    if x.state = .EMPTY ∧ x.commissioned.isSome = true then .OFFLINE else x.state := by
  unfold Slot.missed
  split <;> rfl

/-- A link whose slots have been looked at, at the end of a full pass. -/
def Link.missed (x : Link) (ks : List Nat) : Link := ks.foldl (fun x k => x.updSlot k Slot.missed) x

theorem Link.missed_frame (ks : List Nat) : ∀ x : Link, x.missed ks = { x with slots := (x.missed ks).slots } := by
  induction ks with
  | nil => exact fun _ => rfl
  | cons k ks ih => exact fun x => ih (x.updSlot k Slot.missed)

theorem Link.slotAt_missed (ks : List Nat) : ∀ x : Link, ks.Nodup → (∀ k ∈ ks, 1 ≤ k ∧ k ≤ 8) → ∀ j,
    (x.missed ks).slotAt j = if j ∈ ks then (x.slotAt j).missed else x.slotAt j := by
  induction ks with
  | nil => exact fun _ _ _ _ => rfl
  | cons k ks ih =>
    intro x distinct known j
    obtain ⟨fresh, rest⟩ := List.nodup_cons.mp distinct
    refine (ih (x.updSlot k Slot.missed) rest (fun i hi => known i (List.mem_cons_of_mem k hi)) j).trans ?_
    rw [Link.slotAt_updSlot]
    by_cases here : k = j
    · subst here
      rw [if_neg fresh, if_pos ⟨rfl, known k List.mem_cons_self⟩, if_pos List.mem_cons_self]
    · rw [if_neg (show ¬ (k = j ∧ 1 ≤ k ∧ k ≤ 8) from fun c => here c.1)]
      simp only [List.mem_cons, Ne.symm here, false_or]

/-- A slot looked at, at the end of a full pass. -/
theorem State.missSlot_spec (s : State) (l k : Nat) : let t := s.missSlot l k
    t = { s with links := t.links, capture := t.capture, kli := t.kli } ∧
    t.links = (s.updLink l fun x => x.updSlot k Slot.missed).links := by
  unfold State.missSlot
  dsimp only
  by_cases missing : (s.slot l k).state = .EMPTY ∧ (s.slot l k).commissioned.isSome = true
  · rw [if_pos missing, State.reportFault_frame]
    have made : (s.slot l k).missed = (s.slot l k).enter .OFFLINE := if_pos missing
    exact ⟨rfl, congrArg (fun x => tput s.links l { s.link l with slots := tput (s.link l).slots k x }) made.symm⟩
  · rw [if_neg missing]
    have same : (s.slot l k).missed = s.slot l k := if_neg missing
    exact ⟨rfl, (congrArg State.links (State.updLink_same (Link.updSlot_same same))).symm⟩

theorem State.missSlots_spec (l : Nat) (ks : List Nat) : ∀ s : State, let t := ks.foldl (fun s k => s.missSlot l k) s
    t = { s with links := t.links, capture := t.capture, kli := t.kli } ∧
    t.links = (s.updLink l fun x => x.missed ks).links := by
  induction ks with
  | nil => exact fun s => ⟨rfl, (congrArg State.links (State.updLink_same (s := s) (l := l) (f := fun x => x) rfl)).symm⟩
  | cons k ks ih =>
    intro s
    obtain ⟨frame, links⟩ := ih (s.missSlot l k)
    obtain ⟨frame', links'⟩ := s.missSlot_spec l k
    refine ⟨?_, links.trans ?_⟩
    · have e := frame
      rw [List.foldl_cons]
      generalize ks.foldl (fun s k => s.missSlot l k) (s.missSlot l k) = t at e
      obtain ⟨ls, ca, kl, e'⟩ : ∃ ls ca kl, s.missSlot l k = { s with links := ls, capture := ca, kli := kl } :=
        ⟨_, _, _, frame'⟩
      rw [e'] at e
      exact e
    · refine Eq.trans ?_ (congrArg State.links (s.updLink_updLink l (fun x => x.updSlot k Slot.missed) fun x => x.missed ks))
      exact congrArg (fun v => tput v l ((tget v Link.empty l).missed ks)) links'

/-- A pass has ended, but for the report of a full one. -/
def State.passEnded (s : State) (l : Nat) (full : Bool) : State :=
  let s1 := s.updLink l fun x => { x with enumPass := none }
  let s2 := if full then slotNos.foldl (fun s k => s.missSlot l k) s1 else s1
  s2.updLink l fun x => { x with rollTimer := s2.anyOffline l }

theorem State.endPass_eq (s : State) (l : Nat) (full : Bool) :
    s.endPass l full = if full then (s.passEnded l full).reportPass l else s.passEnded l full := rfl

/-- A link after the end of a pass (R49, R51, R52). -/
def Link.passEnded (x : Link) (full : Bool) : Link :=
  let y := if full then ({ x with enumPass := none } : Link).missed slotNos else { x with enumPass := none }
  { y with rollTimer := slotNos.any fun k => decide ((y.slotAt k).state = .OFFLINE) }

theorem State.passEnded_spec (s : State) (l : Nat) (full : Bool) (known : 1 ≤ l ∧ l ≤ 4) : let t := s.passEnded l full
    t = { s with links := t.links, capture := t.capture, kli := t.kli } ∧
    ∀ m, t.link m = if l = m then (s.link l).passEnded full else s.link m := by
  have read : ∀ (t : State) (f : Link → Link), t.links = (s.updLink l f).links → ∀ m,
      t.link m = if l = m then f (s.link l) else s.link m := fun t f e m => by
    have := (congrArg (fun v => tget v Link.empty m) e).trans (s.link_updLink l m f)
    refine this.trans ?_
    by_cases here : l = m
    · rw [if_pos ⟨here, known⟩, if_pos here]
    · rw [if_neg fun c => here c.1, if_neg here]
  have timed : ∀ (u : State) (f : Link → Link), u = { s with links := u.links, capture := u.capture, kli := u.kli } →
      u.links = (s.updLink l f).links →
      let t := u.updLink l fun x => { x with rollTimer := u.anyOffline l }
      t = { s with links := t.links, capture := t.capture, kli := t.kli } ∧
      ∀ m, t.link m = if l = m then { f (s.link l) with
        rollTimer := slotNos.any fun k => decide (((f (s.link l)).slotAt k).state = .OFFLINE) } else s.link m := by
    intro u f frame links
    have own : u.link l = f (s.link l) := (read u f links l).trans (if_pos rfl)
    have offline : u.anyOffline l = slotNos.any fun k => decide (((f (s.link l)).slotAt k).state = .OFFLINE) := by
      unfold State.anyOffline State.slot
      rw [own]
    refine ⟨?_, fun m => ?_⟩
    · obtain ⟨ls, ca, k, e⟩ : ∃ ls ca k, u = { s with links := ls, capture := ca, kli := k } := ⟨_, _, _, frame⟩
      rw [e]
      rfl
    · refine (u.link_updLink l m _).trans ?_
      by_cases here : l = m
      · rw [if_pos ⟨here, known⟩, if_pos here, own, offline]
      · rw [if_neg fun c => here c.1, if_neg here, read u f links m, if_neg here]
  unfold State.passEnded Link.passEnded
  dsimp only
  cases full with
  | false => exact timed (s.updLink l fun x => { x with enumPass := none }) _ rfl rfl
  | true =>
    obtain ⟨frame, links⟩ := State.missSlots_spec l slotNos (s.updLink l fun x => { x with enumPass := none })
    rw [State.updLink_updLink] at links
    exact timed _ (fun x => ({ x with enumPass := none } : Link).missed slotNos) frame links

theorem slotNos_range {k : Nat} : k ∈ slotNos ↔ 1 ≤ k ∧ k ≤ 8 := by
  unfold slotNos
  rw [List.mem_range'_1]
  omega

theorem Link.slotAt_outside (x : Link) {k : Nat} (out : ¬ (1 ≤ k ∧ k ≤ 8)) : x.slotAt k = Slot.empty :=
  tget_outside x.slots Slot.empty (by omega)

/-- The parts of a link after the end of a pass. -/
theorem Link.passEnded_parts (x : Link) (full : Bool) : let y := x.passEnded full
    y = { x with slots := y.slots, enumPass := none, rollTimer := y.rollTimer } ∧
    (y.rollTimer = true ↔ ∃ k, 1 ≤ k ∧ k ≤ 8 ∧ (y.slotAt k).state = .OFFLINE) ∧
    ∀ k, (y.slotAt k).state = if full = true ∧ (x.slotAt k).state = .EMPTY ∧ (x.slotAt k).commissioned.isSome = true
      then .OFFLINE else (x.slotAt k).state := by
  refine ⟨?_, ?_, fun k => ?_⟩
  · unfold Link.passEnded
    cases full with
    | false => rfl
    | true =>
      dsimp only
      rw [if_pos rfl, Link.missed_frame]
  · unfold Link.passEnded
    dsimp only
    rw [List.any_eq_true]
    constructor
    · rintro ⟨k, mem, off⟩
      obtain ⟨low, high⟩ := slotNos_range.mp mem
      exact ⟨k, low, high, of_decide_eq_true off⟩
    · rintro ⟨k, low, high, off⟩
      exact ⟨k, slotNos_range.mpr ⟨low, high⟩, decide_eq_true off⟩
  · unfold Link.passEnded
    cases full with
    | false => exact (if_neg fun c => nomatch c.1).symm
    | true =>
      have timed : ∀ (y : Link) (b : Bool), ({ y with rollTimer := b } : Link).slotAt k = y.slotAt k := fun _ _ => rfl
      have begun : ({ x with enumPass := none } : Link).slotAt k = x.slotAt k := rfl
      dsimp only
      rw [if_pos rfl, timed, Link.slotAt_missed slotNos _ (by decide) fun j hj => slotNos_range.mp hj]
      by_cases known : 1 ≤ k ∧ k ≤ 8
      · rw [if_pos (slotNos_range.mpr known), Slot.missed_state]
        simp only [true_and, begun]
      · rw [if_neg fun c => known (slotNos_range.mp c)]
        have empty : x.slotAt k = Slot.empty := x.slotAt_outside known
        rw [begun, empty]
        exact (if_neg fun c => nomatch c.2.2).symm

/-- The report of a full pass changes no link but for the mark of its report. -/
theorem State.reportPass_link (s : State) (l m : Nat) :
    (s.reportPass l).link m = { s.link m with reported := ((s.reportPass l).link m).reported } := by
  have marked : (s.updLink l fun x => { x with reported := true }).link m =
      { s.link m with reported := ((s.updLink l fun x => { x with reported := true }).link m).reported } := by
    rw [State.link_updLink]
    split
    · rename_i here
      rw [here.1]
    · rfl
  unfold State.reportPass
  split
  · dsimp only
    split
    · have links : ∀ u : State, u.beginAudit.link m = u.link m := fun u =>
        congrArg (fun v => tget v Link.empty m) (congrArg State.links u.beginAudit_frame :)
      rw [links]
      exact marked
    · exact marked
  · rfl

/-- The end of a pass on its link and on the others (R49, R51, R52). -/
theorem State.endPass_link (s : State) (l : Nat) (full : Bool) (known : 1 ≤ l ∧ l ≤ 4) (m : Nat) :
    ((s.endPass l full).link m) = { (if l = m then (s.link l).passEnded full else s.link m) with
      reported := ((s.endPass l full).link m).reported } := by
  have links := (s.passEnded_spec l full known).2 m
  rw [s.endPass_eq]
  cases full with
  | false =>
    rw [if_neg Bool.false_ne_true, ← links]
  | true =>
    rw [if_pos rfl, ← links]
    exact State.reportPass_link _ l m

/-- What the end of a pass leaves in the directory (R49, R51, R52), read after it or after what keeps the links. -/
theorem State.endPass_reads {s t : State} {l : Nat} {full : Bool} (known : 1 ≤ l ∧ l ≤ 4)
    (kept : (s.endPass l full).link l |>.sameLine (t.link l)) :
    (t.link l).line = (s.link l).line ∧ (t.link l).lastEnded = (s.link l).lastEnded ∧ (t.link l).enumPass = none ∧
    ((t.link l).rollTimer = true ↔ ∃ k, 1 ≤ k ∧ k ≤ 8 ∧ (t.slot l k).state = .OFFLINE) ∧
    (∀ k, (t.slot l k).state = if full = true ∧ (s.slot l k).state = .EMPTY ∧
      (s.slot l k).commissioned.isSome = true then .OFFLINE else (s.slot l k).state) := by
  have made := s.endPass_link l full known l
  rw [if_pos rfl] at made
  obtain ⟨frame, timer, states⟩ := (s.link l).passEnded_parts full
  obtain ⟨slots, -, line, ended, pass, roll, -, -⟩ := kept
  have slot : ∀ k, t.slot l k = ((s.link l).passEnded full).slotAt k := fun k => by
    have same : (t.link l).slots = ((s.link l).passEnded full).slots := slots.trans (congrArg Link.slots made :)
    exact congrArg (fun v => tget v Slot.empty k) same
  refine ⟨line.trans ?_, ended.trans ?_, pass.trans ?_, ?_, fun k => ?_⟩
  · exact (congrArg Link.line made).trans (congrArg Link.line frame :)
  · exact (congrArg Link.lastEnded made).trans (congrArg Link.lastEnded frame :)
  · exact (congrArg Link.enumPass made).trans (congrArg Link.enumPass frame :)
  · rw [roll.trans (congrArg Link.rollTimer made)]
    simp only [slot]
    exact timer
  · rw [slot]
    exact states k

/-! ### The choice of the next exchange (R47) -/

section
variable {l : Nat} {s : State}

theorem exec_linkExchangeStart (fitted : s.linkFitted l = true) (free : (s.link l).line = none) :
    exec (.linkExchangeStart l) s = .next (s.chooseExchange l) := by
  show execLinkExchangeStart l s = _
  exact if_pos ⟨fitted, free⟩

theorem State.chooseExchange_unbind (due : (s.link l).unbindDue = true) : s.chooseExchange l = s.sendUnbind l := by
  unfold State.chooseExchange
  dsimp only
  rw [if_pos due]

theorem State.chooseExchange_strike {k : Strike} (noUnbind : (s.link l).unbindDue = false) (strike : (s.link l).strike = some k)
    (unacked : k.ackMinute = none) : s.chooseExchange l = s.sendStrike l k := by
  unfold State.chooseExchange
  dsimp only
  rw [noUnbind, if_neg Bool.false_ne_true, strike]
  dsimp only
  rw [unacked]
  rfl

theorem State.chooseExchange_done {k : Strike} (noUnbind : (s.link l).unbindDue = false) (strike : (s.link l).strike = some k)
    (acked : k.ackMinute.isSome = true) (due : ((s.link l).slotAt k.slot).state = .PRESENT ∧ (s.link l).lastEnded ≠ .poll k.slot) :
    s.chooseExchange l = s.updLink l fun y => { y with line := some (.poll k.slot) } := by
  have choice : (s.link l).doneDue = some k.slot := by
    unfold Link.doneDue
    rw [strike]
    exact if_pos ⟨acked, due⟩
  have sent : ¬ k.ackMinute.isNone = true := by
    cases e : k.ackMinute with
    | none => rw [e] at acked; exact nomatch acked
    | some m => exact Bool.false_ne_true
  unfold State.chooseExchange
  dsimp only
  rw [noUnbind, if_neg Bool.false_ne_true, strike]
  dsimp only
  rw [if_neg sent, choice]

theorem State.chooseExchange_later (noUnbind : (s.link l).unbindDue = false) (waits : ∀ k, (s.link l).strike = some k →
      k.ackMinute.isSome = true ∧ ¬ (k.ackMinute.isSome = true ∧ ((s.link l).slotAt k.slot).state = .PRESENT ∧
        (s.link l).lastEnded ≠ .poll k.slot)) : s.chooseExchange l = s.chooseLater l := by
  unfold State.chooseExchange
  dsimp only
  rw [noUnbind, if_neg Bool.false_ne_true]
  cases strike : (s.link l).strike with
  | none => rfl
  | some k =>
    obtain ⟨acked, idle⟩ := waits k strike
    have choice : (s.link l).doneDue = none := by
      unfold Link.doneDue
      rw [strike]
      exact if_neg idle
    have sent : ¬ k.ackMinute.isNone = true := by
      cases e : k.ackMinute with
      | none => rw [e] at acked; exact nomatch acked
      | some m => exact Bool.false_ne_true
    dsimp only
    rw [if_neg sent, choice]

/-! ### The turn of polls (R47, step 4) -/

theorem Link.nextPresent_none {x : Link} (none_ : ∀ k, (x.slotAt k).state ≠ .PRESENT) : x.nextPresent = none := by
  unfold Link.nextPresent
  exact List.find?_eq_none.mpr fun k _ c => none_ k (of_decide_eq_true c)

/-- How far a slot lies past the poll turn (R47, step 4). -/
def Link.passed (x : Link) (k : Nat) : Nat := (k + 7 + 7 * x.pollTurn.getD 8) % 8

theorem Link.nextPresent_first {x : Link} {k : Nat} (low : 1 ≤ k) (high : k ≤ 8) (present : (x.slotAt k).state = .PRESENT)
    (first : ∀ j, 1 ≤ j → j ≤ 8 → (x.slotAt j).state = .PRESENT → x.passed k ≤ x.passed j) : x.nextPresent = some k := by
  unfold Link.passed at first
  unfold Link.nextPresent
  generalize x.pollTurn.getD 8 = t at first
  dsimp only
  rw [List.find?_eq_some_iff_append]
  refine ⟨decide_eq_true present, ?_⟩
  have split : slotNos = List.range' 1 ((k + 7 + 7 * t) % 8) ++ ((k + 7 + 7 * t) % 8 + 1) ::
      List.range' ((k + 7 + 7 * t) % 8 + 2) (7 - (k + 7 + 7 * t) % 8) := by
    have small : (k + 7 + 7 * t) % 8 < 8 := Nat.mod_lt _ (by decide)
    generalize (k + 7 + 7 * t) % 8 = i at small
    unfold slotNos
    interval_cases i <;> rfl
  refine ⟨(List.range' 1 ((k + 7 + 7 * t) % 8)).map fun i => (t + i - 1) % 8 + 1,
    (List.range' ((k + 7 + 7 * t) % 8 + 2) (7 - (k + 7 + 7 * t) % 8)).map fun i => (t + i - 1) % 8 + 1, ?_, fun j mem => ?_⟩
  · have here : (t + ((k + 7 + 7 * t) % 8 + 1) - 1) % 8 + 1 = k := by omega
    conv_lhs => rw [split]
    rw [List.map_append, List.map_cons, here]
  · obtain ⟨i, hi, rfl⟩ := List.mem_map.mp mem
    obtain ⟨from_, below⟩ := List.mem_range'_1.mp hi
    rw [Bool.not_eq_true', decide_eq_false_iff_not]
    intro there
    have later := first _ (by omega) (by omega) there
    omega

/-! ### Steps 3 to 6 of R47 -/

theorem State.chooseLater_step {p : Pass} (pass : (s.link l).enumPass = some p)
    (turn : (s.link l).lastEnded ≠ .step ∨ ∀ k, ((s.link l).slotAt k).state ≠ .PRESENT) : s.chooseLater l = s.passStep l p := by
  unfold State.chooseLater
  dsimp only
  rw [pass]
  dsimp only
  by_cases other : (s.link l).lastEnded ≠ .step
  · rw [if_pos other]
  · rw [if_neg other, Link.nextPresent_none (turn.resolve_left other)]

theorem State.chooseLater_poll {k : Nat} (step : (s.link l).enumPass = none ∨ (s.link l).lastEnded = .step)
    (next : (s.link l).nextPresent = some k) : s.chooseLater l = s.updLink l fun y => y.pollNext k := by
  unfold State.chooseLater
  dsimp only
  cases pass : (s.link l).enumPass with
  | none => rw [next]
  | some p =>
    have ended := step.resolve_left fun c => by rw [pass] at c; exact nomatch c
    rw [next]
    dsimp only
    rw [if_neg fun c => c ended]

theorem State.chooseLater_none (noPass : (s.link l).enumPass = none) (none_ : ∀ k, ((s.link l).slotAt k).state ≠ .PRESENT) :
    s.chooseLater l = s := by
  unfold State.chooseLater
  dsimp only
  rw [noPass, Link.nextPresent_none none_]

theorem State.passStep_call {p : Pass} (noBind : p.bindDue = none) :
    s.passStep l p = s.updLink l fun x => { x with line := some .rollCall } := by
  unfold State.passStep
  rw [noBind]

theorem State.passStep_bind {p : Pass} {w : Nat} (known : 1 ≤ l ∧ l ≤ 4) (pass : (s.link l).enumPass = some p)
    (bind_ : p.bindDue = some w) : s.passStep l p = if 16 ≤ p.rounds + 1 then (s.endExchange l .step).endPass l p.full
      else (s.endExchange l .step).updLink l fun x => { x with enumPass := some { p with rounds := p.rounds + 1, bindDue := none } } := by
  have ended : ((s.endExchange l .step).link l).enumPass = some p := by
    have read : (s.endExchange l .step).link l = { s.link l with line := none, lastEnded := .step } :=
      (s.link_updLink l l _).trans (if_pos ⟨rfl, known⟩)
    rw [read]
    exact pass
  unfold State.passStep
  rw [bind_]
  dsimp only
  unfold State.endRound
  rw [ended]
  rfl

end

theorem State.link_endExchange {s : State} {l : Nat} (known : 1 ≤ l ∧ l ≤ 4) (e : LastExchange) :
    (s.endExchange l e).link l = { s.link l with line := none, lastEnded := e } :=
  (s.link_updLink l l _).trans (if_pos ⟨rfl, known⟩)

theorem State.slot_endExchange (s : State) (l m k : Nat) (e : LastExchange) : (s.endExchange l e).slot m k = s.slot m k := by
  have read := s.link_updLink l m fun x => { x with line := none, lastEnded := e }
  refine State.slot_link ?_
  have slots : ((s.endExchange l e).link m).slots = _ := congrArg Link.slots read
  rw [slots]
  split
  · rename_i here
    rw [here.1]
  · rfl

/-- The end of a pass after the exchange that ended it (R49, R51, R52). -/
theorem State.endPass_after {s t : State} {l : Nat} {full : Bool} {e : LastExchange} (known : 1 ≤ l ∧ l ≤ 4)
    (kept : (((s.endExchange l e).endPass l full).link l).sameLine (t.link l)) :
    (t.link l).line = none ∧ (t.link l).lastEnded = e ∧ (t.link l).enumPass = none ∧
    ((t.link l).rollTimer = true ↔ ∃ k, 1 ≤ k ∧ k ≤ 8 ∧ (t.slot l k).state = .OFFLINE) ∧
    (∀ k, (t.slot l k).state = if full = true ∧ (s.slot l k).state = .EMPTY ∧
      (s.slot l k).commissioned.isSome = true then .OFFLINE else (s.slot l k).state) := by
  obtain ⟨line, ended, pass, timer, states⟩ := State.endPass_reads known kept
  rw [State.link_endExchange known] at line ended
  refine ⟨line, ended, pass, timer, fun k => ?_⟩
  rw [states k, s.slot_endExchange]

/-- Settles O50, by the steps of R47 in their order. -/
theorem linksChooseTheNextExchange : Obligations.LinksChooseTheNextExchange := by
  intro l s fitted free
  have known := State.linkFitted_range fitted
  have run := exec_linkExchangeStart fitted free
  refine ⟨fun due => ?_, fun noUnbind => ⟨fun k strike unacked => ?_, fun k strike due => ?_, fun waits =>
    ⟨fun p pass turn => ⟨fun noBind => ?_, fun w bind_ early => ?_, fun w bind_ late => ?_⟩, fun step =>
      ⟨fun k turn => ?_, fun noPass none_ => ?_⟩⟩⟩⟩
  · rw [run, State.chooseExchange_unbind due]
    rfl
  · rw [run, State.chooseExchange_strike noUnbind strike unacked]
    rfl
  · rw [run, State.chooseExchange_done noUnbind strike due.1 due.2]
    rfl
  · rw [run, State.chooseExchange_later noUnbind waits, State.chooseLater_step pass turn, State.passStep_call noBind]
    rfl
  · rw [run, State.chooseExchange_later noUnbind waits, State.chooseLater_step pass turn, State.passStep_bind known pass bind_,
      if_neg (by omega)]
    unfold State.endExchange
    rw [State.updLink_updLink]
    have idle : ∀ q : Option Pass, ({ s.link l with line := none, lastEnded := .step, enumPass := q } : Link) =
        { s.link l with lastEnded := .step, enumPass := q } := fun q => by rw [← free]
    exact congrArg (fun x => Host.Outcome.next (s.withLink l x)) (idle _)
  · rw [State.chooseExchange_later noUnbind waits, State.chooseLater_step pass turn, State.passStep_bind known pass bind_,
      if_pos (by omega)] at run
    exact ⟨_, run, State.endPass_after known (Link.sameLine_refl _)⟩
  · obtain ⟨low, high, present, first⟩ := turn
    rw [run, State.chooseExchange_later noUnbind waits, State.chooseLater_poll step (Link.nextPresent_first low high present first)]
    rfl
  · rw [run, State.chooseExchange_later noUnbind waits, State.chooseLater_none noPass none_]

/-! ### Enumeration (R49 to R52) -/

theorem kept_opSlotLost (s : State) (o : Op) : Kept s (s.opSlotLost o) := by
  unfold State.opSlotLost
  split
  · exact .refl s
  · exact kept_endJob s _ _
  all_goals exact kept_endJob s _ _

theorem kept_strikeSlotLost (s : State) (l k : Nat) : Kept s (s.strikeSlotLost l k) := by
  unfold State.strikeSlotLost
  split
  · exact .refl s
  · split
    · split
      · exact kept_updLink s l _ fun x => ⟨rfl, rfl, rfl, rfl, rfl, rfl, rfl, rfl⟩
      · split
        · exact .refl s
        · exact kept_dropStrike s l
    · exact .refl s

theorem kept_foldl {α : Type} {f : State → α → State} (h : ∀ s x, Kept s (f s x)) (xs : List α) :
    ∀ s, Kept s (xs.foldl f s) := by
  induction xs with
  | nil => exact fun s => .refl s
  | cons x xs ih => exact fun s => (h s x).trans (ih _)

theorem kept_slotLost (s : State) (l k : Nat) : Kept s (s.slotLost l k) :=
  (kept_foldl kept_opSlotLost _ s).trans (kept_strikeSlotLost _ l k)

/-- A slot after a claim (R50). -/
def Slot.taken (x : Slot) (w cc cu : Nat) : Slot :=
  match x.state with
  | .EMPTY | .OFFLINE =>
    if x.commissioned = some w then (x.claimed w cc cu).enterPresent else (x.claimed w cc cu).enter .NEW
  | .NEW | .PRESENT => if x.serial = some w then x else x.enter .CONFLICT
  | .CONFLICT => x

theorem State.applyClaim_kept (s : State) (l w k cc cu : Nat) :
    Kept (s.updSlot l k fun x => x.taken w cc cu) (s.applyClaim l w k cc cu) := by
  have same : ∀ f : Slot → Slot, f (s.slot l k) = (s.slot l k).taken w cc cu →
      s.updSlot l k f = s.updSlot l k fun x => x.taken w cc cu := fun f e =>
    congrArg (fun x => { s with links := tput s.links l { s.link l with slots := tput (s.link l).slots k x } }) e
  have stays : (s.slot l k).taken w cc cu = s.slot l k → Kept (s.updSlot l k fun x => x.taken w cc cu) s := fun e => by
    have unchanged : (s.updSlot l k fun x => x.taken w cc cu) = s := State.updLink_same (Link.updSlot_same e)
    rw [unchanged]
    exact .refl s
  have enters : (s.slot l k).state = .EMPTY ∨ (s.slot l k).state = .OFFLINE → (s.slot l k).taken w cc cu =
      if (s.slot l k).commissioned = some w then ((s.slot l k).claimed w cc cu).enterPresent
      else ((s.slot l k).claimed w cc cu).enter .NEW := fun h => by
    unfold Slot.taken
    rcases h with state | state <;> rw [state]
  have contested : (s.slot l k).state = .NEW ∨ (s.slot l k).state = .PRESENT → (s.slot l k).taken w cc cu =
      if (s.slot l k).serial = some w then s.slot l k else (s.slot l k).enter .CONFLICT := fun h => by
    unfold Slot.taken
    rcases h with state | state <;> rw [state]
  have present := same (fun x => (x.claimed w cc cu).enterPresent)
  have new := same (fun x => (x.claimed w cc cu).enter .NEW)
  have conflict := same (fun x => x.enter .CONFLICT)
  unfold State.applyClaim
  dsimp only
  cases state : (s.slot l k).state with
  | EMPTY =>
    have made := enters (.inl state)
    by_cases known : (s.slot l k).commissioned = some w
    · rw [if_pos known] at made
      dsimp only
      rw [if_pos (decide_eq_true known), present made.symm]
      exact .refl _
    · rw [if_neg known] at made
      dsimp only
      rw [if_neg fun c => known (of_decide_eq_true c), new made.symm]
      exact kept_post _ _
  | OFFLINE =>
    have made := enters (.inr state)
    by_cases known : (s.slot l k).commissioned = some w
    · rw [if_pos known] at made
      dsimp only
      rw [if_pos (decide_eq_true known), present made.symm]
      exact kept_post _ _
    · rw [if_neg known] at made
      dsimp only
      rw [if_neg fun c => known (of_decide_eq_true c), new made.symm]
      exact kept_post _ _
  | NEW =>
    have made := contested (.inl state)
    dsimp only
    by_cases own : (s.slot l k).serial = some w
    · rw [if_pos own] at made ⊢
      exact stays made
    · rw [if_neg own] at made ⊢
      rw [conflict made.symm]
      exact (kept_post _ _).trans (kept_reportFault _ _ _ _ _ _)
  | PRESENT =>
    have made := contested (.inr state)
    dsimp only
    by_cases own : (s.slot l k).serial = some w
    · rw [if_pos own] at made ⊢
      exact stays made
    · rw [if_neg own] at made ⊢
      rw [conflict made.symm]
      exact ((kept_post _ _).trans (kept_reportFault _ _ _ _ _ _)).trans (kept_slotLost _ l k)
  | CONFLICT =>
    have made : (s.slot l k).taken w cc cu = s.slot l k := by
      unfold Slot.taken
      rw [state]
    dsimp only
    split
    · exact stays made
    · exact (stays made).trans (kept_reportFault _ _ _ _ _ _)

/-- Settles O51: bids, claims and the end of a pass go through `State.applyClaim_kept` and `State.endPass_after`. -/
theorem enumerationFindsTheBoards : Obligations.EnumerationFindsTheBoards := by
  refine ⟨fun l w s line => ?_, fun l w k cc cu p s line pass low high codes cur => ?_, fun l p s line pass => ?_,
    fun l s timer noPass noUnbind => ?_⟩
  · show execRollCallBid l w s = _
    exact if_pos line
  · have known := State.known_of_line line
    have run : exec (.claim l w k cc cu) s = .next ((((s.endExchange l .step).updLink l fun x =>
        { x with enumPass := some { p with bindDue := some w } }).applyClaim l w k cc cu).pass) := by
      show execClaim l w k cc cu s = _
      unfold execClaim
      rw [line, pass]
      exact if_pos ⟨rfl, decide_eq_true ⟨low, high, codes, cur⟩⟩
    generalize base : (s.endExchange l .step).updLink l (fun x => { x with enumPass := some { p with bindDue := some w } }) = u at run
    have own : u.link l = { s.link l with line := none, lastEnded := .step, enumPass := some { p with bindDue := some w } } := by
      rw [← base]
      unfold State.endExchange
      rw [State.updLink_updLink]
      exact (s.link_updLink l l _).trans (if_pos ⟨rfl, known⟩)
    have kept := u.applyClaim_kept l w k cc cu
    have claimed : (u.updSlot l k fun x => x.taken w cc cu).link l = (u.link l).updSlot k fun x => x.taken w cc cu :=
      (u.link_updLink l l _).trans (if_pos ⟨rfl, known⟩)
    obtain ⟨slots, -, free, ended, passed, -⟩ := kept.link l
    rw [claimed] at slots free ended passed
    have slot : ∀ j, (u.applyClaim l w k cc cu).slot l j = if k = j then (s.slot l k).taken w cc cu else s.slot l j := fun j => by
      have read : (u.applyClaim l w k cc cu).slot l j = ((u.link l).updSlot k fun x => x.taken w cc cu).slotAt j :=
        congrArg (fun v => tget v Slot.empty j) slots
      rw [read, Link.slotAt_updSlot, own]
      by_cases here : k = j
      · rw [if_pos ⟨here, low, high⟩, if_pos here]
        rfl
      · rw [if_neg fun c => here c.1, if_neg here]
        rfl
    refine ⟨_, run, free.trans ?_, ended.trans ?_, passed.trans ?_, fun j other => (slot j).trans (if_neg (Ne.symm other)),
      (slot k).trans ((if_pos rfl).trans ?_)⟩
    · exact (congrArg Link.line own :)
    · exact (congrArg Link.lastEnded own :)
    · exact (congrArg Link.enumPass own :)
    · unfold Slot.taken
      cases (s.slot l k).state <;> rfl
  · have known := State.known_of_line line
    have run : exec (.boardResponseTimeout l) s = .next ((s.endExchange l .step).endPass l p.full).pass := by
      show execBoardResponseTimeout l s = _
      unfold execBoardResponseTimeout
      rw [line, pass]
    obtain ⟨free, -, passed, timer, states⟩ := State.endPass_after known ((kept_pass _).link l)
    exact ⟨_, run, free, passed, timer, states⟩
  · show execRollCallTimerExpiry l s = _
    exact if_pos ⟨timer, noPass, noUnbind⟩

end Sys2Proof.Machine
end

