-- ==== Sys2Proof/Proofs/Phases.lean ====
section
/-! O57: minutes, the audit and the end of start-up. -/

namespace Sys2Proof.Machine

open Sys2Proof

/-- A reading of the start-up audit (R55, R203, R204). -/
theorem auditRead_reads (n : Nat) (r : Reading) (s : State) :
    let t := s.auditRead n r
    let c := s.comp n
    let own := { c with purpose := none }
    let opens := c.purpose = some .DEPOSIT ∨ c.purpose = some .RETURN_DROP
    let taken := c.purpose = some .COLLECT ∨ c.purpose = some .SWEEP ∨ c.purpose = some .SERVICE_REMOVE
    (n ∉ s.scu.auditWait → t = s) ∧
    (r.hatchOpen = false → r.settled = false → t = s) ∧
    (n ∈ s.scu.auditWait → isComp n →
      (r.hatchOpen = true → t = s.withComp n { c with causes := c.causes.add .OPEN_AT_START }) ∧
      (r.hatchOpen = false → r.settled = true →
        t.scu = { s.scu with auditWait := s.scu.auditWait.filter (· != n) } ∧ s.otherComps t n ∧
        (t.comp n).purpose = none ∧
        (∀ x, c.parcel = some x → opens → r.occupied = true → t.comp n = { own with
          state := match x.kind with | .DELIVERY => CompState.LOADED | .RETURN => .RETURN_LOADED
          parcel := some { x with pending := false, depositMinute := s.now, prior := none, unverified := true } }) ∧
        (∀ x, c.parcel = some x → (opens ∧ r.occupied = false) ∨ (c.purpose = none ∧ c.state = .DEPOSITING) →
          (∀ v, x.prior = some (.reserved v) → s.now < v.expiry →
            t.comp n = { own with state := .RESERVED, parcel := none, reservation := some v }) ∧
          (x.prior = some .free ∨ (∃ v, x.prior = some (.reserved v) ∧ v.expiry ≤ s.now) →
            t.comp n = { own with state := .FREE, parcel := none })) ∧
        (taken → r.occupied = true → t.comp n = own) ∧
        (∀ x, c.parcel = some x → taken → r.occupied = false →
          t.comp n = { own with state := .FREE, parcel := none, tagOwner := none }) ∧
        (c.purpose = none → c.state ≠ .DEPOSITING → t = { s.withComp n { c with
          causes := if r.occupied = decide (c.state = .LOADED ∨ c.state = .RETURN_LOADED) then c.causes
            else c.causes.add .OCCUPANCY_MISMATCH } with scu := t.scu }) ∧
        (c.purpose = some .SERVICE_OPEN → c.state ≠ .DEPOSITING → t.comp n = { own with
          causes := if r.occupied = decide (c.state = .LOADED ∨ c.state = .RETURN_LOADED) then c.causes
            else c.causes.add .OCCUPANCY_MISMATCH }) ∧
        (c.purpose ≠ none ∨ c.state = .DEPOSITING → s.kli.queue.length < 64 → ∃ e ∈ t.kli.queue,
          e.kind = .CYCLE_DONE ∧ e.comp = some n ∧ e.outcome = some .RECOVERED ∧ e.purpose = some c.purpose))) := by
  dsimp only
  refine ⟨fun out => ?_, fun closed unsettled => ?_, fun waits known => ⟨fun opened => ?_, fun closed settled => ?_⟩⟩
  · exact if_neg fun c => out (List.contains_iff_mem.mp c)
  · unfold State.auditRead
    rw [closed, unsettled, if_neg Bool.false_ne_true, if_neg Bool.false_ne_true, ite_self]
  · unfold State.auditRead
    rw [if_pos (List.contains_iff_mem.mpr waits), if_pos opened]
    rfl
  · have whole := State.auditRead_settles waits closed settled
    obtain ⟨idle, confirmed, undone, kept, retired, checked⟩ := State.auditRead_comp (s := s) (r := r) known
    have body := s.settlesAt_settleBody n (AuditReading.of r)
    rw [whole]
    refine ⟨?_, body.others, idle, confirmed, undone, kept, retired, fun purpose still => ?_, checked, fun due room =>
      State.settleBody_event due room⟩
    · have scu : (s.settleBody n (AuditReading.of r)).scu = s.scu := (congrArg State.scu body.frame :)
      exact congrArg (fun u : Scu => { u with auditWait := u.auditWait.filter (· != n) }) scu
    · rw [(State.settleBody_compare purpose still).1, State.auditCompare_eq, Compartment.compared_read still]
      rfl

/-- The full pass that ends on a link is reported before the arbitration pass (R49, R202). -/
theorem fullPass_reports (l : Nat) (p : Pass) (s : State) (line : (s.link l).line = some .rollCall)
    (pass : (s.link l).enumPass = some p) (full : p.full = true) :
    ∃ v : State, exec (.boardResponseTimeout l) s = .next (v.reportPass l).pass ∧ v.scu = s.scu ∧
      v.comps = s.comps ∧ v.sects = s.sects ∧ v.pbc = s.pbc ∧ ∀ m, (v.link m).reported = (s.link m).reported := by
  have known := State.known_of_line line
  have run : exec (.boardResponseTimeout l) s = .next ((s.endExchange l .step).endPass l p.full).pass := by
    show execBoardResponseTimeout l s = _
    unfold execBoardResponseTimeout
    rw [line, pass]
  rw [full, State.endPass_eq, if_pos rfl] at run
  obtain ⟨frame, links⟩ := (s.endExchange l .step).passEnded_spec l true known
  refine ⟨_, run, (congrArg State.scu frame :), (congrArg State.comps frame :), (congrArg State.sects frame :),
    (congrArg State.pbc frame :), fun m => (congrArg Link.reported (links m)).trans ?_⟩
  have exchanged : ∀ m, ((s.endExchange l .step).link m).reported = (s.link m).reported := fun m => by
    have read := congrArg Link.reported (s.link_updLink l m fun x => { x with line := none, lastEnded := .step })
    refine Eq.trans read ?_
    split
    · rename_i here
      rw [here.1]
    · rfl
  split
  · rename_i here
    exact (congrArg Link.reported (((s.endExchange l .step).link l).passEnded_parts true).1 :).trans (here ▸ exchanged l)
  · exact exchanged m

/-- Settles O57. -/
theorem minutesAndTheAuditLimit : Obligations.MinutesAndTheAuditLimit := by
  refine ⟨minuteTick_hands, fun s last => ?_, auditRead_reads, auditLimit_ends, auditLimit_settles, endStartup_hands,
    fullPass_reports, fun l s fitted => s.reportPass_of fitted⟩
  show execMinuteTick s = _
  refine if_neg fun below => ?_
  have : s.scu.minute < 4294967295 := below
  omega

end Sys2Proof.Machine
end

