-- ==== Sys2Proof/Proofs/EndSeries.lean ====
section
/-! Ends of several operations in a row (R57, R64, R76): what is gone, what is posted, what the compartments show. -/

namespace Sys2Proof.Machine

open Sys2Proof

/-! ### A charge handed over (R85, R157) -/

/-- The end of an operation that waits for payment hands over its charge: the reader and at most a parcel's reference
change. -/
theorem State.abandonCharge_spec (s : State) (r : Nat) : let t := s.abandonCharge r
    t = { s with comps := t.comps, pbc := t.pbc } ∧
    ∀ n, t.comp n = { s.comp n with parcel := (t.comp n).parcel } := by
  have dropped : ∀ (u : State) (m ref n : Nat), (u.dropParcelRef m ref).comp n =
      { u.comp n with parcel := ((u.dropParcelRef m ref).comp n).parcel } := fun u m ref n => by
    rw [u.dropParcelRef_eq, State.comp_updComp]
    split
    · rename_i here
      rw [here.1]
      rfl
    · rfl
  unfold State.abandonCharge
  dsimp only
  cases (s.reader r).charge with
  | none => exact ⟨rfl, fun _ => rfl⟩
  | some c =>
    dsimp only
    split
    · refine ⟨?_, fun n => ?_⟩
      · obtain ⟨b, e⟩ : ∃ b, ((s.dropCharge r).dropParcelRef c.comp c.ref).restReader r =
            { (s.dropCharge r).dropParcelRef c.comp c.ref with pbc := b } := ⟨_, State.restReader_frame _ r⟩
        rw [e]
        rfl
      · have same : ((((s.dropCharge r).dropParcelRef c.comp c.ref)).restReader r).comp n =
            ((s.dropCharge r).dropParcelRef c.comp c.ref).comp n :=
          congrArg (fun v => tget v Compartment.factory n) (congrArg State.comps (State.restReader_frame _ r) :)
        rw [same]
        exact dropped (s.dropCharge r) c.comp c.ref n
    · exact ⟨rfl, fun _ => rfl⟩

theorem State.abandonOf_spec (s : State) (j : Nat) : let t := s.abandonOf j
    t = { s with comps := t.comps, pbc := t.pbc } ∧
    ∀ n, t.comp n = { s.comp n with parcel := (t.comp n).parcel } := by
  unfold State.abandonOf
  cases s.readerOfJob j with
  | none => exact ⟨rfl, fun _ => rfl⟩
  | some r => exact s.abandonCharge_spec r

/-! ### What an end leaves of the causes and the purposes -/

theorem Compartment.undone_causes (c : Compartment) (m : Nat) : (c.undone m).causes = c.causes ∧ (c.undone m).purpose = c.purpose := by
  unfold Compartment.undone
  split
  · exact ⟨rfl, rfl⟩
  · split <;> exact ⟨rfl, rfl⟩
  · exact ⟨rfl, rfl⟩

theorem Compartment.confirmed_causes (c : Compartment) (m : Nat) (b : Bool) : (c.confirmed m b).causes = c.causes := by
  unfold Compartment.confirmed
  split <;> rfl

/-- An end other than COMPLETED adds AUDIT_REQUIRED at UNCONFIRMED and no cause else (R86 to R88). -/
theorem Compartment.ended_causes {c : Compartment} {pu : Purpose} {out : CycleOutcome} {occ : Bool} {m : Nat}
    (uncompleted : out ≠ .COMPLETED) : (c.ended pu out occ m).causes =
      if out = .UNCONFIRMED then c.causes.add .AUDIT_REQUIRED else c.causes := by
  by_cases unconfirmed : out = .UNCONFIRMED
  · subst unconfirmed
    rw [if_pos rfl]
    have confirmed : ((c.confirmed m true).withCause .AUDIT_REQUIRED).causes = c.causes.add .AUDIT_REQUIRED :=
      congrArg (fun k : Causes => k.add .AUDIT_REQUIRED) (c.confirmed_causes m true)
    cases pu
    case DEPOSIT | RETURN_DROP => exact confirmed
    all_goals rfl
  · rw [if_neg unconfirmed]
    by_cases deposit : pu = .DEPOSIT ∨ pu = .RETURN_DROP
    · rw [Compartment.ended_undone deposit uncompleted unconfirmed]
      exact (c.undone_causes m).1
    · cases pu
      case DEPOSIT => exact absurd (.inl rfl) deposit
      case RETURN_DROP => exact absurd (.inr rfl) deposit
      all_goals
        cases out
        case COMPLETED => exact absurd rfl uncompleted
        case UNCONFIRMED => exact absurd rfl unconfirmed
        all_goals rfl

/-! ### Ends in a row -/

/-- The entries of an operation's end stand among the events. -/
def EventRec.tells (x : EventRec) (o : Op) (out : CycleOutcome) : Prop :=
  x.kind = .CYCLE_DONE ∧ x.comp = some o.comp ∧ x.job = some o.job ∧ x.outcome = some out

/-- The runs of the courier stations, each of which may still post its SWEEP_DONE. -/
def State.runs (s : State) : Nat := (if s.swu.k1.run.isSome then 1 else 0) + (if s.swu.k2.run.isSome then 1 else 0)

theorem State.noRun.runs {s : State} (h : s.noRun) : s.runs = 0 := by
  unfold State.runs
  rw [h.1, h.2]
  rfl

/-- No end of an operation brings a top-up: no run stands, or the mode makes none (R180). -/
def State.calm (s : State) : Prop := s.noRun ∨ s.scu.mode = .BATTERY ∨ s.scu.mode = .DORMANT

/-- Some operations have ended, each with an outcome other than COMPLETED, and nothing else has left the table. -/
structure State.Ends (s v : State) (es : List (Op × CycleOutcome)) : Prop where
  ops : v.hce.ops = s.hce.ops.filter fun y => es.all fun e => y.job != e.1.job
  count : v.hce.ops.length + es.length ≤ s.hce.ops.length
  idle : ∀ n, (s.comp n).purpose = none → (v.comp n).purpose = none
  audit : ∀ n, (s.comp n).causes.auditRequired = true → (v.comp n).causes.auditRequired = true
  own : ∀ e ∈ es, isComp e.1.comp → (v.comp e.1.comp).purpose = none ∧
    (e.2 = .UNCONFIRMED → (v.comp e.1.comp).causes.auditRequired = true)
  queue : ∀ x ∈ s.kli.queue, x ∈ v.kli.queue
  length : v.kli.queue.length + v.runs ≤ s.kli.queue.length + s.runs + 2 * es.length
  told : s.kli.queue.length + s.runs + 2 * es.length ≤ 64 → ∀ e ∈ es, ∃ x ∈ v.kli.queue, x.tells e.1 e.2
  noRun : s.noRun → v.noRun
  scu : v.scu = s.scu

theorem State.Ends.calm {s v : State} {es : List (Op × CycleOutcome)} (h : s.Ends v es) (quiet : s.calm) : v.calm := by
  unfold State.calm
  rw [h.scu]
  exact quiet.imp_left h.noRun

/-- A step between two ends that changes nothing an end is told by. -/
theorem State.Ends.silent {s v : State} (ops : v.hce.ops = s.hce.ops) (comps : ∀ n, (v.comp n).purpose = (s.comp n).purpose ∧
    (v.comp n).causes = (s.comp n).causes) (queue : v.kli.queue = s.kli.queue) (swu : v.swu = s.swu) (scu : v.scu = s.scu) :
    s.Ends v [] where
  ops := ops.trans (List.filter_eq_self.mpr fun _ _ => rfl).symm
  count := by rw [ops]; exact Nat.le_refl _
  idle n a := (comps n).1.trans a
  audit n a := by rw [(comps n).2]; exact a
  own _ h := nomatch h
  queue x a := by rw [queue]; exact a
  length := by
    unfold State.runs
    rw [queue, swu]
    exact Nat.le_refl _
  told _ _ h := nomatch h
  noRun a := by
    unfold State.noRun
    rw [swu]
    exact a
  scu := scu

theorem State.Ends.refl (s : State) : s.Ends s [] := .silent rfl (fun _ => ⟨rfl, rfl⟩) rfl rfl rfl

theorem State.Ends.trans {s v w : State} {es fs : List (Op × CycleOutcome)} (h : s.Ends v es) (h' : v.Ends w fs) :
    s.Ends w (es ++ fs) := by
  refine ⟨?_, ?_, fun n a => h'.idle n (h.idle n a), fun n a => h'.audit n (h.audit n a), fun e mem known => ?_,
    fun x a => h'.queue x (h.queue x a), ?_, fun room e mem => ?_, fun a => h'.noRun (h.noRun a), h'.scu.trans h.scu⟩
  · rw [h'.ops, h.ops, List.filter_filter]
    refine List.filter_congr fun y _ => ?_
    rw [List.all_append, Bool.and_comm]
  · have := h.count
    have := h'.count
    rw [List.length_append]
    omega
  · rcases List.mem_append.mp mem with mem | mem
    · obtain ⟨purpose, audit⟩ := h.own e mem known
      exact ⟨h'.idle _ purpose, fun u => h'.audit _ (audit u)⟩
    · exact h'.own e mem known
  · have := h.length
    have := h'.length
    rw [List.length_append]
    omega
  · have := h.length
    rw [List.length_append] at room
    rcases List.mem_append.mp mem with mem | mem
    · obtain ⟨x, there, tells⟩ := h.told (by omega) e mem
      exact ⟨x, h'.queue x there, tells⟩
    · exact h'.told (by omega) e mem

theorem Kli.length_post_le (k : Kli) (e : EventRec) : (k.post e).queue.length ≤ k.queue.length + 1 := by
  by_cases room : k.queue.length + 1 ≤ 64
  · rw [Kli.queue_post e room]
    simp
  · have full : ¬ k.queue.length < Config.queuePlaces := fun c => room c
    unfold Kli.post
    rw [if_neg full]
    exact Nat.le_succ _

theorem Kli.length_posts_le (es : List EventRec) : ∀ k : Kli, (es.foldl Kli.post k).queue.length ≤ k.queue.length + es.length := by
  induction es with
  | nil => exact fun _ => Nat.le_refl _
  | cons e es ih =>
    intro k
    have first := k.length_post_le e
    have rest := ih (k.post e)
    rw [List.foldl_cons, List.length_cons]
    omega

theorem State.endNote_uncompleted {s : State} {o : Op} {out : CycleOutcome} {occ : Bool} (uncompleted : out ≠ .COMPLETED) :
    (s.endNote o out occ).swept = none := by
  unfold State.endNote State.endEffect
  cases o.purpose <;> cases out
  case DEPOSIT.COMPLETED | RETURN_DROP.COMPLETED | COLLECT.COMPLETED | SWEEP.COMPLETED | SERVICE_OPEN.COMPLETED |
    SERVICE_REMOVE.COMPLETED => exact absurd rfl uncompleted
  all_goals rfl

/-- An end other than COMPLETED posts at most two records. -/
theorem State.allEvents_length {s : State} {o : Op} {out : CycleOutcome} {occ : Bool} (uncompleted : out ≠ .COMPLETED) :
    (s.allEvents o out occ).length ≤ 2 := by
  have none_ : s.sweptEvents o (s.endNote o out occ) = [] := by
    unfold State.sweptEvents
    rw [State.endNote_uncompleted uncompleted]
    rfl
  unfold State.allEvents State.endEvents
  rw [none_, ite_self, List.append_nil]
  cases (s.endNote o out occ).lapsed <;> simp

/-- An end of an operation as far as its own events (R85 to R89). -/
theorem State.endedBy_ends {s : State} {o : Op} {out : CycleOutcome} (es : List EventRec) (few : (s.endEvents o out false).length +
    es.length ≤ 2) (there : ∃ y ∈ s.hce.ops, y.job = o.job) (uncompleted : out ≠ .COMPLETED) :
    s.Ends ((s.endedBy o out false).posts (s.endEvents o out false ++ es)) [(o, out)] := by
  have frame := s.endedBy_frame o out false
  have same : (s.endedBy o out false).kli = s.kli := (congrArg State.kli frame :)
  generalize base : (s.endedBy o out false).posts (s.endEvents o out false ++ es) = t
  have kli : t.kli = (s.endEvents o out false ++ es).foldl Kli.post s.kli := by
    rw [← base, ← same]
    rfl
  have hce : t.hce.ops = s.hce.ops.filter fun y => y.job != o.job := by
    rw [← base]
    exact (congrArg (fun u : State => u.hce.ops) frame :)
  have swu : t.swu = s.swu := by
    rw [← base]
    exact (congrArg State.swu frame :)
  have scu : t.scu = s.scu := by
    rw [← base]
    exact (congrArg State.scu frame :)
  have runs : t.runs = s.runs := by
    unfold State.runs
    rw [swu]
  have comp : ∀ n, (t.comp n).purpose = (if o.comp = n ∧ isComp o.comp then none else (s.comp n).purpose) ∧
      (t.comp n).causes = (if o.comp = n ∧ isComp o.comp ∧ out = .UNCONFIRMED then (s.comp n).causes.add .AUDIT_REQUIRED
        else (s.comp n).causes) := fun n => by
    have read := State.comp_of_updComp (s.endedBy_comps o out false (s.endEvents o out false ++ es)) n
    rw [base] at read
    rw [read]
    by_cases here : o.comp = n ∧ isComp o.comp
    · rw [if_pos here, if_pos here]
      refine ⟨rfl, (Compartment.ended_causes uncompleted).trans ?_⟩
      rw [here.1]
      exact if_congr ⟨fun u => ⟨rfl, here.1 ▸ here.2, u⟩, fun c => c.2.2⟩ rfl rfl
    · rw [if_neg here, if_neg here]
      exact ⟨rfl, (if_neg fun c => here ⟨c.1, c.2.1⟩).symm⟩
  refine ⟨?_, ?_, fun n a => ?_, fun n a => ?_, fun e mem known => ?_, fun x a => ?_, ?_, fun room e mem => ?_, fun a => ?_, scu⟩
  · rw [hce]
    exact List.filter_congr fun y _ => by simp
  · obtain ⟨y, mem, job⟩ := there
    rw [hce, List.length_singleton, Nat.succ_le_iff]
    refine List.length_filter_lt_length_iff_exists.mpr ⟨y, mem, ?_⟩
    rw [job]
    simp
  · rw [(comp n).1, a, ite_self]
  · rw [(comp n).2]
    split
    · rfl
    · exact a
  · obtain rfl := List.mem_singleton.mp mem
    exact ⟨by rw [(comp o.comp).1, if_pos ⟨rfl, known⟩], fun u => by rw [(comp o.comp).2, if_pos ⟨rfl, known, u⟩]; rfl⟩
  · rw [kli]
    exact Kli.mem_foldl_post _ a
  · have length := Kli.length_posts_le (s.endEvents o out false ++ es) s.kli
    rw [List.length_append] at length
    rw [kli, runs, List.length_singleton]
    omega
  · obtain rfl := List.mem_singleton.mp mem
    rw [List.length_singleton] at room
    obtain ⟨x, there, kind, comp, job, outcome, -⟩ := s.cycleDone_posted (s.endedBy o out false) o out false es
      (by rw [same]; omega)
    refine ⟨x, ?_, kind, comp, job, outcome⟩
    rw [← base]
    exact there
  · unfold State.noRun
    rw [swu]
    exact a

theorem State.abandonOf_ends (s : State) (j : Nat) : s.Ends (s.abandonOf j) [] := by
  obtain ⟨rest, comps⟩ := s.abandonOf_spec j
  refine .silent (congrArg (fun u : State => u.hce.ops) rest :) (fun n => ?_) (congrArg (fun u : State => u.kli.queue) rest :)
    (congrArg State.swu rest :) (congrArg State.scu rest :)
  rw [comps n]
  exact ⟨rfl, rfl⟩

/-- SWEEP_DONE of a run that has ended is one record for one run less (R182). -/
theorem State.endRun_ends (s : State) (k : Courier) : s.Ends (s.endRun k) [] := by
  unfold State.endRun
  cases run : (s.side k).run with
  | none => exact .refl s
  | some r =>
    dsimp only
    split
    · have fewer : (s.updSide k fun x => { x with run := none }).runs + 1 = s.runs := by
        unfold State.runs
        cases k with
        | K1 =>
          have run : s.swu.k1.run = some r := run
          change (if (none : Option Run).isSome then 1 else 0) + (if s.swu.k2.run.isSome then 1 else 0) + 1 = _
          rw [run]
          simp [Nat.add_comm]
        | K2 =>
          have run : s.swu.k2.run = some r := run
          change (if s.swu.k1.run.isSome then 1 else 0) + (if (none : Option Run).isSome then 1 else 0) + 1 = _
          rw [run]
          simp
      have length := s.kli.length_post_le (s.sweepDone k r)
      refine ⟨(List.filter_eq_self.mpr fun _ _ => rfl).symm, Nat.le_refl _, fun _ => id, fun _ => id, (fun _ h => nomatch h),
        fun x a => Kli.mem_post _ a, ?_, (fun _ _ h => nomatch h), fun quiet => ?_, rfl⟩
      · change (s.kli.post _).queue.length + (s.updSide k fun x => { x with run := none }).runs ≤ _
        rw [List.length_nil]
        have : (s.kli.post ((s.updSide k fun x => { x with run := none }).sweepDone k r)).queue.length ≤ s.kli.queue.length + 1 :=
          s.kli.length_post_le _
        omega
      · have none_ := quiet.side k
        rw [none_] at run
        exact nomatch run
    · exact .refl s

theorem State.topUpEnd_dark {s : State} (dark : s.scu.mode = .BATTERY ∨ s.scu.mode = .DORMANT) (k : Courier) :
    s.topUpEnd k = s.endRun k := by
  unfold State.topUpEnd
  rw [State.topUp_off (dark.elim .inl fun d => .inr (.inl d))]

/-- A SWEEP's end where no top-up is made (R180, R181). -/
theorem State.handSweep_ends {s : State} {o : Op} {out : CycleOutcome} {note : EndNote}
    (dark : s.scu.mode = .BATTERY ∨ s.scu.mode = .DORMANT) (none_ : s.sweptEvents o note = []) :
    s.Ends (s.handSweep o out note) [] := by
  cases courier : courierOf o.station with
  | none =>
    unfold State.handSweep
    rw [courier]
    exact .refl s
  | some k =>
    have frame := s.counted_frame o out note k
    rw [none_] at frame
    have sides := s.counted_side o out note k
    have scu : (s.counted o out note k).scu = s.scu := (congrArg State.scu frame :)
    have runs : (s.counted o out note k).runs = s.runs ∧ (s.noRun → (s.counted o out note k).noRun) := by
      unfold State.runs State.noRun
      obtain ⟨own, other⟩ := sides
      cases k with
      | K1 =>
        have own : (s.counted o out note .K1).swu.k1 = { s.swu.k1 with run := s.swu.k1.run.map fun r => r.count out note.unpaid } := own
        have other : (s.counted o out note .K1).swu.k2 = s.swu.k2 := other
        rw [own, other]
        simp
      | K2 =>
        have own : (s.counted o out note .K2).swu.k2 = { s.swu.k2 with run := s.swu.k2.run.map fun r => r.count out note.unpaid } := own
        have other : (s.counted o out note .K2).swu.k1 = s.swu.k1 := other
        rw [own, other]
        simp
    have counted : s.Ends (s.counted o out note k) [] := by
      have queue : (s.counted o out note k).kli = s.kli := (congrArg State.kli frame :)
      have comps : (s.counted o out note k).comps = s.comps := (congrArg State.comps frame :)
      have ops : (s.counted o out note k).hce = s.hce := (congrArg State.hce frame :)
      refine ⟨?_, ?_, fun n a => ?_, fun n a => ?_, (fun _ h => nomatch h), fun x a => ?_, ?_, (fun _ _ h => nomatch h), runs.2, scu⟩
      · rw [ops]
        exact (List.filter_eq_self.mpr fun _ _ => rfl).symm
      · rw [ops]
        exact Nat.le_refl _
      · rw [State.comp_of_comps comps]
        exact a
      · rw [State.comp_of_comps comps]
        exact a
      · rw [queue]
        exact a
      · rw [queue, runs.1]
        exact Nat.le_refl _
    have dark' : (s.counted o out note k).scu.mode = .BATTERY ∨ (s.counted o out note k).scu.mode = .DORMANT := by
      rw [scu]
      exact dark
    have first := State.endRun_ends (s.counted o out note k) k
    have dark'' : ((s.counted o out note k).endRun k).scu.mode = .BATTERY ∨ ((s.counted o out note k).endRun k).scu.mode = .DORMANT := by
      rw [first.scu]
      exact dark'
    rw [State.handSweep_courier courier, State.topUpEnd_dark dark', State.topUpEnd_dark dark'']
    exact (counted.trans first).trans (State.endRun_ends _ k.other)

/-- One end, where no top-up follows it (R85). -/
theorem State.endOp_ends {s : State} {o : Op} {out : CycleOutcome} (alone : o.purpose ≠ .SWEEP ∨ s.calm)
    (there : ∃ y ∈ s.hce.ops, y.job = o.job) (uncompleted : out ≠ .COMPLETED) : s.Ends (s.endOp o out) [(o, out)] := by
  have none_ : ∀ u : State, u.sweptEvents o (s.endNote o out false) = [] := fun u => by
    unfold State.sweptEvents
    rw [State.endNote_uncompleted uncompleted]
    rfl
  have few : (s.endEvents o out false).length + ([] : List EventRec).length ≤ 2 := by
    have all := State.allEvents_length (s := s) (o := o) (occ := false) uncompleted
    unfold State.allEvents at all
    rw [List.length_append] at all
    rw [List.length_nil]
    omega
  have ended := State.endedBy_ends (es := []) few there uncompleted
  rw [List.append_nil] at ended
  have swept : s.Ends (if o.purpose = .SWEEP then ((s.endedBy o out false).posts (s.endEvents o out false)).handSweep o out
      (s.endNote o out false) else (s.endedBy o out false).posts (s.endEvents o out false)) [(o, out)] := by
    split
    · rename_i sweep
      rcases alone with plain | quiet | dark
      · exact absurd sweep plain
      · rw [State.handSweep_noRun (ended.noRun quiet), none_, ite_self]
        exact ended
      · exact ended.trans (State.handSweep_ends (by rw [ended.scu]; exact dark) (none_ _))
    · exact ended
  rw [s.endOp_unfold]
  dsimp only
  split
  · exact swept.trans (State.abandonOf_ends _ _)
  · exact swept

/-! ### Jobs ended one after another -/

/-- Jobs end in turn, each with an outcome of its own. -/
def State.endEach (s : State) (js : List (Nat × CycleOutcome)) : State := js.foldl (fun v e => v.endJob e.1 e.2) s

theorem State.endJobs_eq (s : State) (js : List Nat) (out : CycleOutcome) :
    s.endJobs js out = s.endEach (js.map fun j => (j, out)) := by
  unfold State.endEach State.endJobs
  rw [List.foldl_map]

theorem State.endJob_none {s : State} {j : Nat} {out : CycleOutcome} (h : s.opByJob j = none) : s.endJob j out = s := by
  unfold State.endJob
  rw [h]

theorem State.endJob_some {s : State} {j : Nat} {out : CycleOutcome} {o : Op} (h : s.opByJob j = some o) :
    s.endJob j out = s.endOp o out := by
  unfold State.endJob
  rw [h]

/-- A job that ends is that of an operation of the table; what stays in the table was there before. -/
theorem State.endEach_ends (js : List (Nat × CycleOutcome)) : ∀ {s : State}, s.calm → (∀ e ∈ js, e.2 ≠ .COMPLETED) →
    ∃ es, s.Ends (s.endEach js) es ∧ (∀ f ∈ es, f.1 ∈ s.hce.ops ∧ (f.1.job, f.2) ∈ js) ∧
      ∀ e ∈ js, ∀ y ∈ (s.endEach js).hce.ops, y.job ≠ e.1 := by
  induction js with
  | nil => exact fun _ _ => ⟨[], State.Ends.refl _, (fun _ h => nomatch h), fun _ h => nomatch h⟩
  | cons e js ih =>
    intro s quiet uncompleted
    have later : ∀ f ∈ js, f.2 ≠ CycleOutcome.COMPLETED := fun f mem => uncompleted f (List.mem_cons_of_mem _ mem)
    cases found : s.opByJob e.1 with
    | none =>
      have gone : ∀ y ∈ s.hce.ops, y.job ≠ e.1 := fun y mem same => by
        have := List.find?_eq_none.mp found y mem
        simp [same] at this
      have skip : s.endEach (e :: js) = s.endEach js := by
        unfold State.endEach
        rw [List.foldl_cons, State.endJob_none found]
      obtain ⟨es, ends, each, rest⟩ := ih quiet later
      rw [skip]
      refine ⟨es, ends, fun f mem => ⟨(each f mem).1, List.mem_cons_of_mem _ (each f mem).2⟩, fun d mem y there => ?_⟩
      rcases List.mem_cons.mp mem with rfl | mem
      · rw [ends.ops] at there
        exact gone y (List.mem_filter.mp there).1
      · exact rest d mem y there
    | some o =>
      have there := State.opByJob_mem found
      have job : o.job = e.1 := by simpa using List.find?_some found
      have step : s.endEach (e :: js) = (s.endOp o e.2).endEach js := by
        unfold State.endEach
        rw [List.foldl_cons, State.endJob_some found]
      have first := State.endOp_ends (.inr quiet) ⟨o, there, rfl⟩ (uncompleted e List.mem_cons_self)
      obtain ⟨es, ends, each, rest⟩ := ih (first.calm quiet) later
      have kept : ∀ y ∈ (s.endOp o e.2).hce.ops, y ∈ s.hce.ops ∧ y.job ≠ o.job := fun y mem => by
        rw [first.ops] at mem
        simpa using mem
      rw [step]
      refine ⟨(o, e.2) :: es, first.trans ends, fun f mem => ?_, fun d mem y there' => ?_⟩
      · rcases List.mem_cons.mp mem with rfl | mem
        · exact ⟨there, by rw [job]; exact List.mem_cons_self⟩
        · exact ⟨(kept _ (each f mem).1).1, List.mem_cons_of_mem _ (each f mem).2⟩
      · rcases List.mem_cons.mp mem with rfl | mem
        · rw [ends.ops] at there'
          rw [← job]
          exact (kept y (List.mem_filter.mp there').1).2
        · exact rest d mem y there'

/-- The operations that meet a test, and no others, have ended, each with its outcome. -/
theorem State.Ends.endsThose {s v : State} {es : List (Op × CycleOutcome)} (h : s.Ends v es) {test : Op → Bool}
    {out : Op → CycleOutcome} (distinct : (s.hce.ops.map (·.job)).Nodup)
    (each : ∀ f ∈ es, f.1 ∈ s.hce.ops ∧ test f.1 = true ∧ f.2 = out f.1)
    (all : ∀ y ∈ v.hce.ops, test y = false) (room : s.kli.queue.length + s.runs + 2 * s.hce.ops.length ≤ 64) :
    s.endsThose v test out := by
  have mine : ∀ y ∈ s.hce.ops, test y = true → ∃ f ∈ es, f.1 = y := fun y mem tested => by
    by_contra none_
    have stays : y ∈ v.hce.ops := by
      rw [h.ops]
      refine List.mem_filter.mpr ⟨mem, List.all_eq_true.mpr fun f there => ?_⟩
      refine bne_iff_ne.mpr fun same => none_ ⟨f, there, ?_⟩
      exact (List.inj_on_of_nodup_map distinct mem (each f there).1 same).symm
    rw [all y stays] at tested
    exact nomatch tested
  refine ⟨h.ops.trans (List.filter_congr fun y mem => Bool.eq_iff_iff.mpr ?_), fun o mem tested => ?_⟩
  · rw [List.all_eq_true, Bool.not_eq_true']
    constructor
    · refine fun others => Bool.eq_false_iff.mpr fun tested => ?_
      obtain ⟨f, there, rfl⟩ := mine y mem tested
      exact absurd rfl (bne_iff_ne.mp (others f there))
    · refine fun untested f there => bne_iff_ne.mpr fun same => ?_
      have := List.inj_on_of_nodup_map distinct mem (each f there).1 same
      rw [this, (each f there).2.1] at untested
      exact nomatch untested
  · obtain ⟨f, there, rfl⟩ := mine o mem tested
    have few := h.count
    obtain ⟨-, -, outcome⟩ := each f there
    obtain ⟨x, posted, kind, comp, job, told⟩ := h.told (by omega) f there
    refine ⟨⟨x, posted, kind, comp, job, outcome ▸ told⟩, fun known => ?_⟩
    obtain ⟨purpose, audit⟩ := h.own f there known
    exact ⟨purpose, fun u => audit (outcome.trans u)⟩

/-! ### What no end touches: the granted units and the strikes -/

/-- The arbiter and the strikes in flight are as they were. -/
def State.strikesKept (s t : State) : Prop := t.arb = s.arb ∧ ∀ l, (t.link l).strike = (s.link l).strike

theorem State.strikesKept.trans {s t u : State} (h : s.strikesKept t) (k : t.strikesKept u) : s.strikesKept u :=
  ⟨k.1.trans h.1, fun l => (k.2 l).trans (h.2 l)⟩

theorem State.strikesKept_of_eq {s t : State} (arb : t.arb = s.arb) (links : t.links = s.links) : s.strikesKept t :=
  ⟨arb, fun l => congrArg (fun v => (tget v Link.empty l).strike) links⟩

/-- A top-up changes nothing, or what `State.Topped` says. -/
theorem State.topUp_cases (s : State) (k : Courier) :
    (s.topUp k).1 = s ∨ ∃ r gone rest made, s.Topped (s.topUp k).1 k r gone rest made := by
  by_cases off : s.scu.mode = .BATTERY ∨ s.scu.mode = .DORMANT ∨ (s.side k).run = none
  · exact .inl (State.topUp_off off)
  · obtain ⟨battery, dormant, run⟩ : s.scu.mode ≠ .BATTERY ∧ s.scu.mode ≠ .DORMANT ∧ (s.side k).run ≠ none := by
      simpa only [not_or] using off
    obtain ⟨r, run⟩ := Option.ne_none_iff_exists'.mp run
    have mains : s.scu.mode = .OPEN ∨ s.scu.mode = .NIGHT := by
      cases mode : s.scu.mode <;> simp_all
    rw [State.topUp_on mains run]
    obtain ⟨gone, rest, made, -, topped, -⟩ := topUpOver_spec k r.pending s { made := 0, dropped := 0 } r run rfl
    exact .inr ⟨r, gone, rest, made, topped⟩

theorem State.strikesKept_topUpEnd (s : State) (k : Courier) : s.strikesKept (s.topUpEnd k) := by
  have ended : ∀ u : State, u.strikesKept (u.endRun k) := fun u =>
    State.strikesKept_of_eq (congrArg State.arb (u.endRun_frame k) :) (congrArg State.links (u.endRun_frame k) :)
  refine State.strikesKept.trans ?_ (ended _)
  rcases s.topUp_cases k with same | ⟨r, gone, rest, made, topped⟩
  · rw [same]
    exact ⟨rfl, fun _ => rfl⟩
  · exact ⟨(congrArg State.arb topped.frame :), fun l => (congrArg Link.strike (topped.links l) :)⟩

/-- No end of an operation changes the units or a strike (R75: units go back by the strike alone). -/
theorem State.strikesKept_endOp (s : State) (o : Op) (out : CycleOutcome) (occ : Bool) : s.strikesKept (s.endOp o out occ) := by
  have frame := s.endedBy_frame o out occ
  have ended : s.strikesKept ((s.endedBy o out occ).posts (s.endEvents o out occ)) := by
    refine ⟨(congrArg State.arb frame :), fun l => ?_⟩
    have links : ((s.endedBy o out occ).posts (s.endEvents o out occ)).link l = (s.updLink o.link fun x => x.leave o.job).link l :=
      congrArg (fun v => tget v Link.empty l) (congrArg State.links frame :)
    rw [links, link_updLink]
    split
    · rename_i here
      rw [here.1]
      rfl
    · rfl
  have swept : ∀ (u : State) (note : EndNote), u.strikesKept (u.handSweep o out note) := fun u note => by
    cases courier : courierOf o.station with
    | none =>
      unfold State.handSweep
      rw [courier]
      exact ⟨rfl, fun _ => rfl⟩
    | some k =>
      rw [State.handSweep_courier courier]
      have counted := u.counted_frame o out note k
      exact (State.strikesKept_of_eq (congrArg State.arb counted :) (congrArg State.links counted :)).trans
        ((State.strikesKept_topUpEnd _ k).trans (State.strikesKept_topUpEnd _ k.other))
  have handed : ∀ u : State, u.strikesKept (u.abandonOf o.job) := fun u =>
    State.strikesKept_of_eq (congrArg State.arb (u.abandonOf_spec o.job).1 :) (congrArg State.links (u.abandonOf_spec o.job).1 :)
  rw [s.endOp_unfold]
  dsimp only
  have whole : s.strikesKept (if o.purpose = .SWEEP then ((s.endedBy o out occ).posts (s.endEvents o out occ)).handSweep o out
      (s.endNote o out occ) else (s.endedBy o out occ).posts (s.endEvents o out occ)) := by
    split
    · exact ended.trans (swept _ _)
    · exact ended
  split
  · exact whole.trans (handed _)
  · exact whole

theorem State.strikesKept_endJob (s : State) (j : Nat) (out : CycleOutcome) : s.strikesKept (s.endJob j out) := by
  cases found : s.opByJob j with
  | none =>
    rw [State.endJob_none found]
    exact ⟨rfl, fun _ => rfl⟩
  | some o =>
    rw [State.endJob_some found]
    exact s.strikesKept_endOp o out false

theorem State.strikesKept_foldl {α : Type} {f : State → α → State} (step : ∀ (s : State) x, s.strikesKept (f s x)) (xs : List α) :
    ∀ s : State, s.strikesKept (xs.foldl f s) := by
  induction xs with
  | nil => exact fun _ => ⟨rfl, fun _ => rfl⟩
  | cons x xs ih => exact fun s => (step s x).trans (ih _)

/-- Only a SWEEP's end, by the top-up after it, may touch the capture record (R34, R65). -/
theorem State.capture_endOp {s : State} {o : Op} {out : CycleOutcome} {occ : Bool} (alone : o.purpose ≠ .SWEEP ∨ s.noRun) :
    (s.endOp o out occ).capture = s.capture := by
  have ended : ((s.endedBy o out occ).posts (s.allEvents o out occ)).capture = s.capture :=
    (congrArg State.capture (s.endedBy_frame o out occ) :)
  rw [State.endOp_eq alone]
  dsimp only
  split
  · exact (congrArg State.capture (State.abandonOf_spec _ o.job).1 :).trans ended
  · exact ended

theorem State.noRun_endOp {s : State} {o : Op} {out : CycleOutcome} {occ : Bool} (quiet : s.noRun) :
    (s.endOp o out occ).noRun := by
  have ended : ((s.endedBy o out occ).posts (s.allEvents o out occ)).noRun := by
    have swu : ((s.endedBy o out occ).posts (s.allEvents o out occ)).swu = s.swu :=
      (congrArg State.swu (s.endedBy_frame o out occ) :)
    unfold State.noRun
    rw [swu]
    exact quiet
  rw [State.endOp_eq (.inr quiet)]
  dsimp only
  split
  · have swu := (congrArg State.swu (State.abandonOf_spec ((s.endedBy o out occ).posts (s.allEvents o out occ)) o.job).1 :)
    unfold State.noRun
    rw [swu]
    exact ended
  · exact ended

/-! ### No end but COMPLETED takes a fault cause away -/

theorem Causes.has_add (c : Causes) (k j : Cause) : (c.add k).has j = (c.has j || decide (j = k)) := by
  cases k <;> cases j <;> simp [Causes.add, Causes.has]

/-- Every fault cause of every compartment stands. -/
def State.causesKept (s t : State) : Prop := ∀ n k, (s.comp n).causes.has k = true → (t.comp n).causes.has k = true

theorem State.causesKept.trans {s t u : State} (h : s.causesKept t) (h' : t.causesKept u) : s.causesKept u :=
  fun n k a => h' n k (h n k a)

theorem State.causesKept_of_comps {s t : State} (comps : t.comps = s.comps) : s.causesKept t := fun n k a => by
  rw [State.comp_of_comps comps]
  exact a

theorem State.causesKept_updComp {s : State} {m : Nat} {f : Compartment → Compartment}
    (keeps : ∀ k, (s.comp m).causes.has k = true → (f (s.comp m)).causes.has k = true) : s.causesKept (s.updComp m f) :=
  fun n k a => by
    rw [State.comp_updComp]
    split
    · rename_i here
      rw [← here.1] at a
      exact keeps k a
    · exact a

theorem State.causesKept_markCause (s : State) (n : Nat) (k : Cause) : s.causesKept (s.markCause n k) :=
  State.causesKept_updComp fun j a => by rw [Causes.has_add, a, Bool.true_or]

theorem State.causesKept_afterResolve (s : State) (n : Nat) : s.causesKept (s.afterResolve n) := by
  unfold State.afterResolve
  split
  · unfold State.mapFaultEffect
    exact (s.causesKept_markCause n .MAP_CHECK).trans
      (State.causesKept_of_comps (congrArg State.comps (State.reportFault_frame _ .MAP_CHECK _ _ _ _) :))
  · exact State.causesKept_of_comps rfl

theorem State.causesKept_dropPending (s : State) (k : Courier) (n : Nat) (es : List TagEntry) :
    s.causesKept (s.dropPending k n es) :=
  (State.causesKept_updComp (f := fun x => { x with tagOwner := none }) fun _ a => a).trans
    (State.causesKept_of_comps (congrArg State.comps (State.updRun_frame _ k _) :))

theorem State.causesKept_topUpOver (k : Courier) (es : List TagEntry) : ∀ (s : State) (t : TopUp),
    s.causesKept (topUpOver k es s t).1 := by
  induction es with
  | nil => exact fun s _ => State.causesKept_of_comps rfl
  | cons e es ih =>
    intro s t
    by_cases tested : s.tested k e = true
    · by_cases resolves : ∃ a u, s.resolution e.comp = .ok a u
      · obtain ⟨a, u, resolves⟩ := resolves
        cases made : s.createOp .SWEEP k.station e.comp a u .QUEUED with
        | none =>
          rw [topUpOver_full tested resolves made]
          exact State.causesKept_of_comps rfl
        | some x =>
          obtain ⟨v, job⟩ := x
          have first : s.causesKept (v.updRun k fun r => { r with pending := es }) :=
            State.causesKept_of_comps ((congrArg State.comps (State.updRun_frame v k _) :).trans
              (congrArg State.comps (State.createOp_eq made) :))
          rw [topUpOver_made tested resolves made]
          exact first.trans (ih _ _)
      · have failed : ∀ a u, s.resolution e.comp ≠ .ok a u := fun a u same => resolves ⟨a, u, same⟩
        rw [topUpOver_failed tested failed]
        exact ((s.causesKept_afterResolve e.comp).trans (State.causesKept_dropPending _ k e.comp es)).trans (ih _ _)
    · rw [topUpOver_untested (Bool.eq_false_iff.mpr tested)]
      exact (s.causesKept_dropPending k e.comp es).trans (ih _ _)

theorem State.causesKept_topUpEnd (s : State) (k : Courier) : s.causesKept (s.topUpEnd k) := by
  have ended : s.causesKept (s.topUp k).1 := by
    unfold State.topUp
    split
    · exact State.causesKept_of_comps rfl
    · split
      · exact State.causesKept_topUpOver k _ _ _
      · exact State.causesKept_of_comps rfl
  exact ended.trans (State.causesKept_of_comps (congrArg State.comps (State.endRun_frame _ k) :))

theorem State.causesKept_endOp (s : State) (o : Op) {out : CycleOutcome} (uncompleted : out ≠ .COMPLETED) :
    s.causesKept (s.endOp o out) := by
  have ended : s.causesKept ((s.endedBy o out false).posts (s.endEvents o out false)) := by
    refine State.causesKept.trans (State.causesKept_updComp (m := o.comp)
      (f := fun c => { c.ended o.purpose out false s.now with purpose := none }) fun k a => ?_)
      (State.causesKept_of_comps (s.endedBy_comps o out false _))
    have causes := Compartment.ended_causes (c := s.comp o.comp) (pu := o.purpose) (occ := false) (m := s.now) uncompleted
    dsimp only
    rw [causes]
    split
    · rw [Causes.has_add, a, Bool.true_or]
    · exact a
  have swept : ∀ (u : State) (note : EndNote), u.causesKept (u.handSweep o out note) := fun u note => by
    cases courier : courierOf o.station with
    | none =>
      unfold State.handSweep
      rw [courier]
      exact State.causesKept_of_comps rfl
    | some k =>
      rw [State.handSweep_courier courier]
      have counted := u.counted_frame o out note k
      exact (State.causesKept_of_comps (congrArg State.comps counted :)).trans
        ((State.causesKept_topUpEnd _ k).trans (State.causesKept_topUpEnd _ k.other))
  have handed : ∀ u : State, u.causesKept (u.abandonOf o.job) := fun u n k a => by
    rw [(u.abandonOf_spec o.job).2 n]
    exact a
  rw [s.endOp_unfold]
  dsimp only
  have whole : s.causesKept (if o.purpose = .SWEEP then ((s.endedBy o out false).posts (s.endEvents o out false)).handSweep o out
      (s.endNote o out false) else (s.endedBy o out false).posts (s.endEvents o out false)) := by
    split
    · exact ended.trans (swept _ _)
    · exact ended
  split
  · exact whole.trans (handed _)
  · exact whole

/-! ### A cause that joins a compartment (R19) -/

theorem State.addCause_known {s : State} {n : Nat} {k : Cause} (has : (s.comp n).causes.has k = true) : s.addCause n k = s := by
  unfold State.addCause
  rw [if_pos has]

/-- A compartment with no operation that a cause ends takes the cause and no more. -/
theorem State.addCause_quiet {s : State} {n : Nat} {k : Cause} (fresh : (s.comp n).causes.has k = false)
    (stays : ∀ o, s.opOn n = some o → o.purpose.isService = true ∨ o.stage.striking = true) :
    s.addCause n k = s.markCause n k := by
  have same : (s.markCause n k).opOn n = s.opOn n := rfl
  unfold State.addCause
  rw [if_neg (by rw [fresh]; exact Bool.false_ne_true)]
  dsimp only
  rw [same]
  cases found : s.opOn n with
  | none => rfl
  | some o =>
    dsimp only
    refine if_neg fun ends => ?_
    rcases stays o found with service | striking
    · rw [ends.1] at service
      exact nomatch service
    · rw [ends.2] at striking
      exact nomatch striking

theorem State.addCause_ends {s : State} {n : Nat} {k : Cause} {o : Op} (fresh : (s.comp n).causes.has k = false)
    (found : s.opOn n = some o) (own : o.purpose.isService = false) (early : o.stage.striking = false) :
    s.addCause n k = (s.markCause n k).endOp { o with faulted := true } .HELD := by
  have same : (s.markCause n k).opOn n = s.opOn n := rfl
  unfold State.addCause
  rw [if_neg (by rw [fresh]; exact Bool.false_ne_true)]
  dsimp only
  rw [same, found]
  dsimp only
  exact if_pos ⟨own, early⟩

/-- A cause joins: at most the compartment's operation ends. -/
theorem State.addCause_cases (s : State) (n : Nat) (k : Cause) :
    (s.comp n).causes.has k = true ∧ s.addCause n k = s ∨ s.addCause n k = s.markCause n k ∨
    ∃ o, s.opOn n = some o ∧ s.addCause n k = (s.markCause n k).endOp { o with faulted := true } .HELD := by
  cases fresh : (s.comp n).causes.has k with
  | true => exact .inl ⟨rfl, State.addCause_known fresh⟩
  | false =>
    by_cases stays : ∀ o, s.opOn n = some o → o.purpose.isService = true ∨ o.stage.striking = true
    · exact .inr (.inl (State.addCause_quiet fresh stays))
    · simp only [not_forall, not_or, Bool.not_eq_true] at stays
      obtain ⟨o, found, own, early⟩ := stays
      exact .inr (.inr ⟨o, found, State.addCause_ends fresh found own early⟩)

theorem State.strikesKept_addCause (s : State) (n : Nat) (k : Cause) : s.strikesKept (s.addCause n k) := by
  rcases s.addCause_cases n k with ⟨-, same⟩ | same | ⟨o, -, same⟩ <;> rw [same]
  · exact State.strikesKept_of_eq rfl rfl
  · exact State.strikesKept_of_eq rfl rfl
  · exact (State.strikesKept_of_eq rfl rfl).trans (State.strikesKept_endOp (s.markCause n k) _ _ _)

theorem State.markCause_has {s : State} {n : Nat} (known : isComp n) (k : Cause) :
    ((s.markCause n k).comp n).causes.has k = true := by
  unfold State.markCause
  rw [State.comp_updComp, if_pos ⟨rfl, known⟩, Causes.has_add, decide_eq_true rfl, Bool.or_true]

/-- The cause stands after the end it may bring. -/
theorem State.addCause_has {s : State} {n : Nat} (known : isComp n) (k : Cause) :
    ((s.addCause n k).comp n).causes.has k = true := by
  rcases s.addCause_cases n k with ⟨has, same⟩ | same | ⟨o, -, same⟩ <;> rw [same]
  · exact has
  · exact State.markCause_has known k
  · exact State.causesKept_endOp _ _ (by decide) n k (State.markCause_has known k)

theorem State.capture_addCause {s : State} {n : Nat} {k : Cause}
    (alone : s.noRun ∨ ∀ o, s.opOn n = some o → o.purpose ≠ .SWEEP) : (s.addCause n k).capture = s.capture := by
  rcases s.addCause_cases n k with ⟨-, same⟩ | same | ⟨o, found, same⟩ <;> rw [same]
  · rfl
  · refine State.capture_endOp ?_
    rcases alone with quiet | plain
    · exact .inr quiet
    · exact .inl (plain o found)

/-- CYCLE_DONE of an operation's end (R85, R89), with room for it. -/
theorem State.endOp_tells {s : State} {o : Op} {out : CycleOutcome} {occ : Bool} (alone : o.purpose ≠ .SWEEP ∨ s.noRun)
    (room : s.kli.queue.length < 64) : ∃ e ∈ (s.endOp o out occ).kli.queue, e.tells o out ∧
      ∃ f, e.flags = some f ∧ f.faulted = o.faulted := by
  have same : (s.endedBy o out occ).kli = s.kli := (congrArg State.kli (s.endedBy_frame o out occ) :)
  obtain ⟨x, there, kind, comp, job, outcome, -, -, f, flags, faulted, -⟩ := s.cycleDone_posted (s.endedBy o out occ) o out occ
    (if o.purpose = .SWEEP ∧ (courierOf o.station).isSome then s.sweptEvents o (s.endNote o out occ) else [])
    (by rw [same]; exact room)
  refine ⟨x, ?_, ⟨kind, comp, job, outcome⟩, f, flags, faulted⟩
  rw [State.endOp_eq alone]
  dsimp only
  split
  · rw [(congrArg State.kli (State.abandonOf_spec _ o.job).1 :)]
    exact there
  · exact there

theorem State.ops_endOp {s : State} {o : Op} {out : CycleOutcome} {occ : Bool} (alone : o.purpose ≠ .SWEEP ∨ s.noRun) :
    (s.endOp o out occ).hce.ops = s.hce.ops.filter fun y => y.job != o.job := by
  have ended : ((s.endedBy o out occ).posts (s.allEvents o out occ)).hce.ops = s.hce.ops.filter fun y => y.job != o.job :=
    (congrArg (fun u : State => u.hce.ops) (s.endedBy_frame o out occ) :)
  rw [State.endOp_eq alone]
  dsimp only
  split
  · exact (congrArg (fun u : State => u.hce.ops) (State.abandonOf_spec _ o.job).1 :).trans ended
  · exact ended

end Sys2Proof.Machine
end

