-- ==== Sys2Proof/Proofs/CycleTimers.lean ====
section
/-! The strike's end and the cycle timers (R62, R77 to R80). -/

namespace Sys2Proof.Machine

open Sys2Proof

/-! ### One operation of the table written -/

theorem State.opByJob_updOp {s : State} {j : Nat} {o : Op} {f : Op → Op} (found : s.opByJob j = some o)
    (job : ∀ y, (f y).job = y.job) : (s.updOp j f).opByJob j = some (f o) := by
  have here : o.job = j := by simpa using List.find?_some found
  have same : ((fun y : Op => y.job == j) ∘ fun y => if y.job = j then f y else y) = fun y => y.job == j := funext fun y => by
    dsimp only [Function.comp]
    split
    · rw [job]
    · rfl
  unfold State.opByJob at found ⊢
  unfold State.updOp State.updHce
  dsimp only
  rw [List.find?_map, same, found, Option.map_some, if_pos here]

theorem State.opByJob_updOp_other {s : State} {i j : Nat} {f : Op → Op} (other : i ≠ j) (job : ∀ y, (f y).job = y.job) :
    (s.updOp j f).opByJob i = s.opByJob i := by
  have same : ((fun y : Op => y.job == i) ∘ fun y => if y.job = j then f y else y) = fun y => y.job == i := funext fun y => by
    dsimp only [Function.comp]
    split
    · rw [job]
    · rfl
  unfold State.opByJob State.updOp State.updHce
  dsimp only
  rw [List.find?_map, same]
  cases found : s.hce.ops.find? fun y => y.job == i with
  | none => rfl
  | some o =>
    have here : o.job = i := by simpa using List.find?_some found
    rw [Option.map_some, if_neg (here ▸ other)]

/-! ### A strike dropped -/

/-- The link with no strike in flight. -/
def Link.unstruck (x : Link) : Link := { x with strike := none }

theorem State.dropStrike_some {s : State} {l : Nat} {k : Strike} (strike : (s.link l).strike = some k) :
    s.dropStrike l = (s.updLink l Link.unstruck).returnUnits k.units := by
  unfold State.dropStrike
  rw [strike]
  rfl

theorem State.known_of_strike {s : State} {l : Nat} {k : Strike} (strike : (s.link l).strike = some k) : 1 ≤ l ∧ l ≤ 4 := by
  by_contra out
  rw [State.link_outside s out] at strike
  exact nomatch strike

theorem State.link_dropStrike {s : State} {l : Nat} {k : Strike} (strike : (s.link l).strike = some k) (m : Nat) :
    (s.dropStrike l).link m = if l = m then (s.link l).unstruck else s.link m := by
  have known := State.known_of_strike strike
  have same : (s.dropStrike l).link m = (s.updLink l Link.unstruck).link m := by
    rw [State.dropStrike_some strike]
    rfl
  rw [same, State.link_updLink]
  exact if_congr (and_iff_left known) rfl rfl

theorem State.granted_dropStrike {s : State} {l : Nat} {k : Strike} (strike : (s.link l).strike = some k) :
    (s.dropStrike l).arb = { s.arb with granted := s.arb.granted - k.units } := by
  rw [State.dropStrike_some strike]
  rfl

/-- The capture record after a report (R65). -/
theorem State.capture_reportFault (s : State) (kind : FaultKind) (l k : Nat) (ch n : Option Nat) :
    (s.reportFault kind l k ch n).capture = s.capture.after ⟨kind, l, k, ch, n, s.now⟩ := by
  obtain ⟨_, _, _, _, ⟨held, _⟩, _, _, _, _, _, _, _, _, _, _⟩ := s
  cases held <;> rfl

/-! ### The end of a strike, told to its operation (R77) -/

/-- What the end of its strike makes of a STRIKING operation. -/
def Op.struck (o : Op) (c : ConfigVals) (lim : Nat) (isOpen : Bool) : Op :=
  if isOpen then { o with stage := .OPEN, openWait := none, ajar := some lim }
  else if o.opened then { o with stage := .AWAIT_CONFIRM, openWait := none, ajar := some lim, confirm := some 10 }
  else { o with stage := .AWAIT_OPEN, openWait := some c.openWait }

/-- The first entry into OPEN posts HATCH_OPENED (R78). -/
def State.openedPost (s : State) (o : Op) : Kli :=
  s.kli.post { kind := .HATCH_OPENED, minute := s.now, job := some o.job, comp := some o.comp,
               station := some o.station, purpose := some (some o.purpose) }

theorem State.enterOpen_frame (s : State) (o : Op) :
    s.enterOpen o = { s with hce := (s.enterOpen o).hce, kli := s.openedPost o } := rfl

theorem State.opByJob_enterOpen {s : State} {o : Op} (found : s.opByJob o.job = some o) : (s.enterOpen o).opByJob o.job =
    some { o with stage := .OPEN, openWait := none, ajar := some (s.scu.config.ajar.get (s.comp o.comp).cls) } :=
  State.opByJob_updOp (f := fun y => { y with stage := .OPEN, openWait := none
                                              ajar := some (s.scu.config.ajar.get (s.comp o.comp).cls) }) found fun _ => rfl

theorem State.opByJob_enterConfirm {s : State} {j : Nat} {o : Op} (found : s.opByJob j = some o) :
    (s.enterConfirm j).opByJob j = some { o with stage := .AWAIT_CONFIRM, confirm := some 10 } :=
  State.opByJob_updOp (f := fun y => { y with stage := .AWAIT_CONFIRM, confirm := some Config.confirmSeconds }) found fun _ => rfl

theorem State.strikeEnd_tells {s : State} {j : Nat} {o : Op} (found : s.opByJob j = some o) (striking : o.stage = .STRIKING)
    (isOpen : Bool) : let t := s.strikeEnd j isOpen
    t.opByJob j = some (o.struck s.scu.config (s.scu.config.ajar.get (s.comp o.comp).cls) isOpen) ∧
    t = { s with hce := t.hce, kli := if isOpen || o.opened then s.openedPost o else s.kli } := by
  have job : o.job = j := by simpa using List.find?_some found
  subst job
  unfold State.strikeEnd Op.struck
  rw [found]
  dsimp only
  rw [if_pos striking]
  cases isOpen with
  | true => exact ⟨State.opByJob_enterOpen found, rfl⟩
  | false =>
    rw [if_neg Bool.false_ne_true, if_neg Bool.false_ne_true, Bool.false_or]
    by_cases opened : o.opened = true
    · rw [if_pos opened, if_pos opened, if_pos opened]
      exact ⟨State.opByJob_enterConfirm (State.opByJob_enterOpen found), rfl⟩
    · rw [if_neg opened, if_neg opened, if_neg opened]
      exact ⟨State.opByJob_updOp found fun _ => rfl, rfl⟩

/-! ### The timers -/

theorem exec_strikeDoneGraceExpiry {l : Nat} {k : Strike} {s : State} (strike : (s.link l).strike = some k)
    (acked : k.ackMinute.isSome = true) (here : k.slotLost = false) (told : k.opEnded = false) :
    exec (.strikeDoneGraceExpiry l) s =
      .next ((((s.dropStrike l).reportFault .DONE_MISSING l k.slot (some k.channel) (some k.comp)).strikeEnd k.job
        (k.hatchSeen.getD false)).pass) := by
  change execStrikeDoneGraceExpiry l s = _
  unfold execStrikeDoneGraceExpiry
  rw [strike]
  dsimp only
  rw [if_pos ⟨acked, here⟩, told]
  rfl

theorem exec_strikeDurationExpiry {l : Nat} {k : Strike} {s : State} (strike : (s.link l).strike = some k)
    (acked : k.ackMinute.isSome = true) : exec (.strikeDurationExpiry l) s =
      if k.slotLost then .next (s.dropStrike l).pass
      else .next (s.updLink l fun x => { x with strike := some { k with durationRun := true } }) := by
  change execStrikeDurationExpiry l s = _
  unfold execStrikeDurationExpiry
  rw [strike]
  dsimp only
  rw [if_pos acked]

/-- Settles O54. -/
theorem cycleTimersExpire : Obligations.CycleTimersExpire := by
  refine ⟨fun l k o s strike acked here told found striking => ?_, fun l k s strike acked => ?_, fun j o s found => ?_⟩
  · refine ⟨_, exec_strikeDoneGraceExpiry strike acked here told, ?_⟩
    generalize dropped : s.dropStrike l = u
    have drop : u = { s with links := u.links, arb := u.arb } := by
      rw [← dropped]
      exact s.dropStrike_eq l
    have report := u.reportFault_frame .DONE_MISSING l k.slot (some k.channel) (some k.comp)
    have capture := u.capture_reportFault .DONE_MISSING l k.slot (some k.channel) (some k.comp)
    generalize u.reportFault .DONE_MISSING l k.slot (some k.channel) (some k.comp) = w at report capture ⊢
    have found' : w.opByJob k.job = some o := by
      rw [report, drop]
      exact found
    obtain ⟨tells, frame⟩ := State.strikeEnd_tells found' striking (k.hatchSeen.getD false)
    generalize w.strikeEnd k.job (k.hatchSeen.getD false) = v at tells frame ⊢
    have links : v.links = u.links := (congrArg State.links frame :).trans (congrArg State.links report :)
    have arb : v.arb = u.arb := (congrArg State.arb frame :).trans (congrArg State.arb report :)
    have scu : w.scu = s.scu := (congrArg State.scu report :).trans (congrArg State.scu drop :)
    have comps : w.comps = s.comps := (congrArg State.comps report :).trans (congrArg State.comps drop :)
    have kept : u.capture = s.capture := (congrArg State.capture drop :)
    have minute : u.now = s.now := (congrArg State.now drop :)
    refine ⟨?_, ?_, ?_, ?_, (congrArg State.comps frame :).trans comps⟩
    · have same : v.link l = u.link l := congrArg (fun x => tget x Link.empty l) links
      rw [same, ← dropped, State.link_dropStrike strike, if_pos rfl]
      rfl
    · rw [arb, ← dropped, State.granted_dropStrike strike]
    · rw [← kept, ← minute]
      exact (congrArg State.capture frame :).trans capture
    · have lim : w.scu.config.ajar.get (w.comp o.comp).cls = s.scu.config.ajar.get (s.comp o.comp).cls := by
        unfold State.comp
        rw [scu, comps]
      rw [tells, lim, scu]
      unfold Op.struck
      cases k.hatchSeen with
      | none => rfl
      | some b => cases b <;> rfl
  · rw [exec_strikeDurationExpiry strike acked]
    refine ⟨fun here => ?_, fun lost => ⟨s.dropStrike l, ?_, ?_⟩⟩
    · rw [here]
      rfl
    · rw [lost]
      rfl
    · rw [State.dropStrike_some strike]
      rfl
  · refine ⟨fun stage timer => ?_, fun stage timer => ?_, fun timer stage unposted => ?_⟩
    · change execOpenWaitExpiry j s = _
      unfold execOpenWaitExpiry
      rw [found]
      dsimp only
      rw [if_pos ⟨stage, timer⟩]
    · change execConfirmLimitExpiry j s = _
      unfold execConfirmLimitExpiry
      rw [found]
      dsimp only
      rw [if_pos ⟨stage, timer⟩]
    · change execAjarLimitExpiry j s = _
      have now_ : decide (o.stage = .OPEN ∧ o.ajarPosted = false) = true := decide_eq_true ⟨stage, unposted⟩
      unfold execAjarLimitExpiry
      rw [found]
      dsimp only
      rw [if_pos timer, now_, if_pos rfl]
      simp only [Bool.or_true]
      rfl

end Sys2Proof.Machine
end

