-- ==== Sys2Proof/Proofs/StrikeAnswers.lean ====
section
/-! The answers to a STRIKE (R59 to R61, R63). -/

namespace Sys2Proof.Machine

open Sys2Proof

/-! ### The commands on a link whose line holds a STRIKE -/

theorem Link.striking_of_line {x : Link} {sl ch d n : Nat} (line : x.line = some (.strike sl ch d n)) : x.striking = true := by
  unfold Link.striking
  rw [line]

section
variable {l sl ch d n : Nat} {s : State}

theorem exec_strikeAck (line : (s.link l).line = some (.strike sl ch d n)) :
    exec (.strikeAck l) s = .next ((s.endExchange l .other).strikeAcked l n) := by
  change execStrikeAck l s = _
  unfold execStrikeAck
  rw [line]

theorem exec_strikeMissed (line : (s.link l).line = some (.strike sl ch d n)) {e : Instr}
    (answer : e = .boardBusy l ∨ e = .boardResponseTimeout l) :
    exec e s = .next ((s.endExchange l .other).strikeFailed l).pass := by
  rcases answer with rfl | rfl
  · change execBoardBusy l s = _
    unfold execBoardBusy
    rw [if_pos (Link.striking_of_line line)]
  · change execBoardResponseTimeout l s = _
    unfold execBoardResponseTimeout
    rw [line]

theorem exec_noChannel (line : (s.link l).line = some (.strike sl ch d n)) :
    exec (.noChannel l) s = .next ((s.endExchange l .other).strikeNoChannel l).pass := by
  change execNoChannel l s = _
  unfold execNoChannel
  rw [if_pos (Link.striking_of_line line)]

end

/-! ### A failed attempt -/

section
variable {l : Nat} {k : Strike} {s : State}

theorem State.strikeFailed_ended (strike : (s.link l).strike = some k) (ended : k.opEnded = true) :
    s.strikeFailed l = s.dropStrike l := by
  unfold State.strikeFailed
  rw [strike]
  dsimp only
  rw [if_pos ended]

theorem State.strikeFailed_again (strike : (s.link l).strike = some k) (told : k.opEnded = false)
    (within : k.failed < s.scu.config.retryLimit) :
    s.strikeFailed l = s.updLink l fun x => { x with strike := some { k with failed := k.failed + 1 } } := by
  unfold State.strikeFailed
  rw [strike]
  dsimp only
  rw [if_neg (by rw [told]; exact Bool.false_ne_true), if_neg (by omega)]

theorem State.strikeFailed_last (strike : (s.link l).strike = some k) (told : k.opEnded = false)
    (beyond : s.scu.config.retryLimit ≤ k.failed) :
    s.strikeFailed l = ((s.dropStrike l).endJob k.job .STRIKE_FAILED).reportFault .NO_RESPONSE l k.slot (some k.channel)
      (some k.comp) := by
  unfold State.strikeFailed
  rw [strike]
  dsimp only
  rw [if_neg (by rw [told]; exact Bool.false_ne_true), if_pos (by omega)]

theorem State.strikeNoChannel_eq (strike : (s.link l).strike = some k) : s.strikeNoChannel l =
    ((if k.opEnded then s.dropStrike l else (s.dropStrike l).endJob k.job .STRIKE_FAILED).addCause k.comp .MAP_CHECK).reportFault
      .NO_CHANNEL l k.slot (some k.channel) (some k.comp) := by
  unfold State.strikeNoChannel
  rw [strike]

/-- What a strike and the units are after the drop, whatever ends come behind it. -/
theorem State.strikesKept.dropped {v : State} (strike : (s.link l).strike = some k) (h : (s.dropStrike l).strikesKept v) :
    (v.link l).strike = none ∧ v.arb.granted = s.arb.granted - k.units := by
  refine ⟨(h.2 l).trans ?_, ?_⟩
  · rw [State.link_dropStrike strike, if_pos rfl]
    rfl
  · rw [h.1, State.granted_dropStrike strike]

theorem State.strikesKept_reportFault (s : State) (kind : FaultKind) (l k : Nat) (ch n : Option Nat) :
    s.strikesKept (s.reportFault kind l k ch n) :=
  State.strikesKept_of_eq (congrArg State.arb (s.reportFault_frame kind l k ch n) :)
    (congrArg State.links (s.reportFault_frame kind l k ch n) :)

/-- A posted record stays through a report. -/
theorem State.mem_reportFault {x : EventRec} (kind : FaultKind) (l k : Nat) (ch n : Option Nat) (mem : x ∈ s.kli.queue) :
    x ∈ (s.reportFault kind l k ch n).kli.queue := by
  unfold State.reportFault
  split
  · exact Kli.mem_post _ mem
  · exact mem

theorem State.mem_addCause {x : EventRec} {n : Nat} {c : Cause} (quiet : ∀ o, s.opOn n = some o →
    o.purpose.isService = true ∨ o.stage.striking = true) (mem : x ∈ s.kli.queue) : x ∈ (s.addCause n c).kli.queue := by
  cases fresh : (s.comp n).causes.has c with
  | true => rwa [State.addCause_known fresh]
  | false => rwa [State.addCause_quiet fresh quiet]

end

/-! ### The operation of a compartment -/

theorem State.opOn_mem {s : State} {n : Nat} {o : Op} (found : s.opOn n = some o) : o ∈ s.hce.ops ∧ o.comp = n :=
  ⟨List.mem_of_find?_eq_some found, by simpa using List.find?_some found⟩

theorem State.opByJob_job {s : State} {j : Nat} {o : Op} (found : s.opByJob j = some o) : o.job = j := by
  simpa using List.find?_some found

theorem Causes.add_same {c : Causes} {k : Cause} (has : c.has k = true) : c.add k = c := by
  obtain ⟨_, _, _, _, _⟩ := c
  cases k <;> cases has <;> rfl

/-- A compartment with no operation takes the cause and no more (R19). -/
theorem State.addCause_free {s : State} {n : Nat} (k : Cause) (free : s.opOn n = none) : s.addCause n k = s.markCause n k := by
  cases fresh : (s.comp n).causes.has k with
  | true =>
    have same : { s.comp n with causes := (s.comp n).causes.add k } = s.comp n :=
      congrArg (fun x => { s.comp n with causes := x }) (Causes.add_same fresh)
    rw [State.addCause_known fresh]
    exact (State.updComp_same (f := fun x => { x with causes := x.causes.add k }) same).symm
  | false => exact State.addCause_quiet fresh fun o found => by rw [free] at found; exact nomatch found

/-- With the one operation of a compartment gone, it has none (R11). -/
theorem State.opOn_none_of_gone {s v : State} {o : Op} (alone : s.oneOpEach) (there : o ∈ s.hce.ops)
    (ops : v.hce.ops = s.hce.ops.filter fun y => y.job != o.job) : v.opOn o.comp = none := by
  refine List.find?_eq_none.mpr fun y mem same => ?_
  rw [ops] at mem
  obtain ⟨mem, other⟩ := List.mem_filter.mp mem
  have : y = o := List.inj_on_of_nodup_map alone mem there (by simpa using same)
  rw [this] at other
  exact absurd rfl (bne_iff_ne.mp other)

theorem State.now_of_kept {s t : State} (h : Kept s t) : t.now = s.now := congrArg Scu.minute h.scu

theorem Capture.after_held (c : Capture) (f : CapturedFault) : (c.after f).held.isSome = true := by
  unfold Capture.after
  cases held : c.held with
  | none => rfl
  | some v =>
    rfl

/-! ### STRIKE_ACK -/

/-- The link whose STRIKE has been answered, the strike in flight now `k`. -/
def Link.answeredStrike (x : Link) (k : Option Strike) : Link := { x with line := none, lastEnded := .other, strike := k }

theorem State.updLink_answered (s : State) (l : Nat) (k : Option Strike) :
    (s.endExchange l .other).updLink l (fun x => { x with strike := k }) =
      s.withLink l ((s.link l).answeredStrike k) := s.updLink_updLink l _ _

theorem State.strikeAcked_eq {s : State} {l : Nat} {k : Strike} (n : Nat) (strike : (s.link l).strike = some k) :
    (s.endExchange l .other).strikeAcked l n =
      let t := (s.withLink l ((s.link l).answeredStrike (some { k with ackMinute := some s.now, late := k.opEnded }))).withComp n
        { s.comp n with hatchCount := min ((s.comp n).hatchCount + 1) 4294967295 }
      if k.opEnded then t.setLate l k.slot k.channel true else t := by
  have known := State.known_of_strike strike
  have strike' : ((s.endExchange l .other).link l).strike = some k := by
    rw [State.link_endExchange known]
    exact strike
  have answered := s.updLink_answered l (some { k with ackMinute := some s.now, late := k.opEnded })
  unfold State.strikeAcked
  rw [strike']
  dsimp only
  rw [← answered]
  rfl

theorem Slot.lateMark_set (x : Slot) {ch : Nat} (b : Bool) (known : ch < 16) :
    Slot.lateMark { x with late := x.late.setIfInBounds ch b } ch = b := by
  unfold Slot.lateMark
  dsimp only
  simp [known]

/-! ### The obligation -/

/-- Settles O53. -/
theorem strikeAnswersSettleTheAttempt : Obligations.StrikeAnswersSettleTheAttempt := by
  intro l sl ch d n k s line strike x c reported failed
  have known := State.known_of_strike strike
  generalize freed : s.endExchange l .other = u
  have frame : u = { s with links := u.links } := by rw [← freed]; rfl
  have strike' : (u.link l).strike = some k := by
    rw [← freed, State.link_endExchange known]
    exact strike
  have drop : u.dropStrike l = { s.withLink l { x with strike := none } with
      arb := { s.arb with granted := s.arb.granted - k.units } } := by
    rw [State.dropStrike_some strike', ← freed]
    have answered := s.updLink_answered l none
    exact congrArg (fun w : State => w.returnUnits k.units) answered
  have arb : u.arb = s.arb := (congrArg State.arb frame :)
  have dropped : ∀ {v : State}, (u.dropStrike l).strikesKept v → (v.link l).strike = none ∧
      v.arb.granted = s.arb.granted - k.units := fun h => by
    rw [← arb]
    exact h.dropped strike'
  refine ⟨fun told => ?_, fun ended => ?_, fun e answer => ?_, fun here => ?_⟩
  · rw [exec_strikeAck line, State.strikeAcked_eq n strike]
    dsimp only
    rw [told, if_neg Bool.false_ne_true]
    rfl
  · refine ⟨_, exec_strikeAck line, ?_⟩
    rw [State.strikeAcked_eq n strike]
    dsimp only
    rw [if_pos ended]
    generalize made : (s.withLink l ((s.link l).answeredStrike (some { k with ackMinute := some s.now, late := k.opEnded }))).withComp n
      { s.comp n with hatchCount := min ((s.comp n).hatchCount + 1) 4294967295 } = w
    have link : w.link l = (s.link l).answeredStrike (some { k with ackMinute := some s.now, late := k.opEnded }) := by
      rw [← made]
      exact tget_tput_self _ _ _ known.1 known.2
    have late : (w.setLate l k.slot k.channel true).link l = (w.link l).updSlot k.slot fun x =>
        { x with late := x.late.setIfInBounds k.channel true } := by
      unfold State.setLate State.updSlot
      rw [State.link_updLink, if_pos ⟨rfl, known⟩]
    refine ⟨by rw [← made]; rfl, ?_, fun low high channel => ?_, fun m other => ?_, by rw [← made]; rfl⟩
    · rw [late, link]
      exact congrArg (fun b => some { k with ackMinute := some s.now, late := b }) ended
    · unfold State.slot
      rw [late, Link.slotAt_updSlot, if_pos ⟨rfl, low, high⟩, Slot.lateMark_set _ _ channel]
    · rw [← made]
      exact tget_tput_ne _ _ _ (Ne.symm other)
  · have run := exec_strikeMissed line answer
    rw [freed] at run
    refine ⟨fun ended => ⟨_, run, ?_⟩, fun told within => ⟨_, run, ?_⟩, fun told beyond o found plain => ⟨_, run, ?_⟩⟩
    · rw [State.strikeFailed_ended strike' ended, drop]
    · rw [State.strikeFailed_again strike' told (by rw [frame]; exact within), ← freed]
      exact s.updLink_answered l _
    · have found' : (u.dropStrike l).opByJob k.job = some o := by
        rw [drop]
        exact found
      have told' := State.endOp_tells (s := u.dropStrike l) (out := .STRIKE_FAILED) (occ := false) (.inl plain)
      have ops := State.ops_endOp (s := u.dropStrike l) (out := .STRIKE_FAILED) (occ := false) (.inl plain)
      have capture := State.capture_endOp (s := u.dropStrike l) (out := .STRIKE_FAILED) (occ := false) (.inl plain)
      have now_ := State.now_of_kept (kept_endOp (u.dropStrike l) o .STRIKE_FAILED false)
      have strikes := State.strikesKept_endOp (u.dropStrike l) o .STRIKE_FAILED false
      rw [State.strikeFailed_last strike' told (by rw [frame]; exact beyond), State.endJob_some found']
      generalize (u.dropStrike l).endOp o .STRIKE_FAILED = w at told' ops capture now_ strikes ⊢
      have report := w.reportFault_frame .NO_RESPONSE l k.slot (some k.channel) (some k.comp)
      obtain ⟨strike_, granted⟩ := dropped (strikes.trans (w.strikesKept_reportFault .NO_RESPONSE l k.slot (some k.channel) (some k.comp)))
      refine ⟨strike_, granted, ?_, fun room => ?_, ?_⟩
      · rw [report]
        refine ops.trans ?_
        rw [drop, State.opByJob_job found]
        rfl
      · obtain ⟨e, mem, ⟨kind, comp, job, outcome⟩, -⟩ := told' (by rw [drop]; exact room)
        exact ⟨e, State.mem_reportFault _ _ _ _ _ mem, kind, job, comp, outcome⟩
      · rw [State.capture_reportFault, capture, now_, drop]
        rfl
  · have run := exec_noChannel line
    rw [freed, State.strikeNoChannel_eq strike'] at run
    refine ⟨_, run, ?_⟩
    have answer : ∀ {w : State}, Kept (u.dropStrike l) w → (u.dropStrike l).strikesKept w →
        let v := (w.addCause k.comp .MAP_CHECK).reportFault .NO_CHANNEL l k.slot (some k.channel) (some k.comp)
        (v.link l).strike = none ∧ v.arb.granted = s.arb.granted - k.units ∧ (v.comp k.comp).causes.mapCheck = true ∧
        v.capture.held.isSome = true ∧ (w.capture = s.capture →
          w.noRun ∨ (∀ o, w.opOn k.comp = some o → o.purpose ≠ .SWEEP) → v.capture = reported) := fun {w} kept strikes => by
      have now_ : (w.addCause k.comp .MAP_CHECK).now = s.now :=
        (State.now_of_kept (kept_addCause w k.comp .MAP_CHECK)).trans ((State.now_of_kept kept).trans (by rw [drop]; rfl))
      obtain ⟨strike_, granted⟩ := dropped (strikes.trans ((w.strikesKept_addCause k.comp .MAP_CHECK).trans
        (State.strikesKept_reportFault _ .NO_CHANNEL l k.slot (some k.channel) (some k.comp))))
      refine ⟨strike_, granted, ?_, ?_, fun same alone => ?_⟩
      · rw [State.comp_reportFault]
        exact State.addCause_has here .MAP_CHECK
      · rw [State.capture_reportFault]
        exact Capture.after_held _ _
      · rw [State.capture_reportFault, State.capture_addCause alone, same, now_]
    by_cases ended : k.opEnded = true
    · rw [if_pos ended]
      obtain ⟨strike_, granted, cause, held, capture⟩ := answer (Kept.refl _) (State.strikesKept_of_eq rfl rfl)
      have same : (u.dropStrike l).capture = s.capture := by rw [drop]; rfl
      have swu : (u.dropStrike l).swu = s.swu := by rw [drop]; rfl
      have ops : (u.dropStrike l).hce.ops = s.hce.ops := by rw [drop]; rfl
      refine ⟨strike_, granted, cause, held, fun alone => capture same ?_, fun o told => ?_, fun _ free => ?_⟩
      · refine alone.imp (fun quiet => ?_) fun plain o found => ?_
        · unfold State.noRun
          rw [swu]
          exact quiet
        · obtain ⟨mem, comp⟩ := State.opOn_mem found
          exact plain o (ops ▸ mem) (.inr comp)
      · rw [ended] at told
        exact nomatch told
      · have free' : (u.dropStrike l).opOn k.comp = none := by
          unfold State.opOn
          rw [ops]
          exact free
        refine ⟨capture same (.inr fun o found => ?_), ?_⟩
        · rw [free'] at found
          exact nomatch found
        · rw [State.reportFault_frame, State.addCause_free .MAP_CHECK free', drop]
          rfl
    · rw [if_neg ended]
      have ended := Bool.eq_false_iff.mpr ended
      obtain ⟨strike_, granted, cause, held, capture⟩ := answer (kept_endJob _ k.job .STRIKE_FAILED)
        ((u.dropStrike l).strikesKept_endJob k.job .STRIKE_FAILED)
      have same : (u.dropStrike l).capture = s.capture := by rw [drop]; rfl
      have swu : (u.dropStrike l).swu = s.swu := by rw [drop]; rfl
      have ops : (u.dropStrike l).hce.ops = s.hce.ops := by rw [drop]; rfl
      have quiet_ : s.noRun → (u.dropStrike l).noRun := fun quiet => by
        unfold State.noRun
        rw [swu]
        exact quiet
      refine ⟨strike_, granted, cause, held, ?_⟩
      cases found : s.opByJob k.job with
      | none =>
        have found' : (u.dropStrike l).opByJob k.job = none := by
          unfold State.opByJob
          rw [ops]
          exact found
        refine ⟨fun alone => ?_, fun o _ some_ => (nomatch some_), fun told => absurd told (by rw [ended]; exact Bool.false_ne_true)⟩
        rw [State.endJob_none found'] at capture ⊢
        refine capture same (alone.imp quiet_ fun plain o here => ?_)
        obtain ⟨mem, comp⟩ := State.opOn_mem here
        exact plain o (ops ▸ mem) (.inr comp)
      | some o =>
        have found' : (u.dropStrike l).opByJob k.job = some o := by
          unfold State.opByJob
          rw [ops]
          exact found
        have mem := State.opByJob_mem found
        have job := State.opByJob_job found
        rw [State.endJob_some found'] at capture ⊢
        have gone : o.purpose ≠ .SWEEP ∨ s.noRun → ((u.dropStrike l).endOp o .STRIKE_FAILED).hce.ops =
            s.hce.ops.filter fun y => y.job != o.job := fun alone => by
          rw [State.ops_endOp (alone.imp_right quiet_), ops]
        have kept : o.purpose ≠ .SWEEP ∨ s.noRun → ((u.dropStrike l).endOp o .STRIKE_FAILED).capture = s.capture :=
          fun alone => (State.capture_endOp (alone.imp_right quiet_)).trans same
        refine ⟨fun alone => ?_, fun o' _ some_ comp each alone => ?_, fun told => absurd told (by rw [ended]; exact Bool.false_ne_true)⟩
        · have mine : o.purpose ≠ .SWEEP ∨ s.noRun := alone.elim .inr fun plain => .inl (plain o mem (.inl job))
          refine capture (kept mine) (alone.imp (fun quiet => State.noRun_endOp (quiet_ quiet)) fun plain y here => ?_)
          obtain ⟨there, comp⟩ := State.opOn_mem here
          rw [gone mine] at there
          exact plain y (List.mem_filter.mp there).1 (.inr comp)
        · obtain rfl : o = o' := Option.some.inj some_
          have free := State.opOn_none_of_gone each mem (gone alone)
          have ends := State.endOp_ends (s := u.dropStrike l) (o := o) (out := .STRIKE_FAILED)
            (alone.imp_right fun quiet => .inl (quiet_ quiet)) ⟨o, ops ▸ mem, rfl⟩ (by decide)
          have tells := State.endOp_tells (s := u.dropStrike l) (o := o) (out := .STRIKE_FAILED) (occ := false) (alone.imp_right quiet_)
          have purpose := (ends.own (o, .STRIKE_FAILED) (List.mem_singleton.mpr rfl) (comp ▸ here)).1
          refine ⟨?_, ?_, fun room => ?_, capture (kept alone) (.inr fun y found => ?_)⟩
          · rw [State.reportFault_frame, ← comp, State.addCause_free .MAP_CHECK free, ← job]
            exact gone alone
          · rw [State.comp_reportFault, ← comp, State.addCause_free .MAP_CHECK free]
            unfold State.markCause
            rw [State.comp_updComp, if_pos ⟨rfl, comp ▸ here⟩]
            exact purpose
          · obtain ⟨e, posted, ⟨kind, comp', job', outcome⟩, -⟩ := tells (by rw [drop]; exact room)
            refine ⟨e, State.mem_reportFault _ _ _ _ _ ?_, kind, job', comp', outcome⟩
            rw [← comp, State.addCause_free .MAP_CHECK free]
            exact posted
          · rw [← comp, free] at found
            exact nomatch found

end Sys2Proof.Machine
end

