-- ==== Sys2Proof/Proofs/Polls.lean ====
section
/-! STATUS and unanswered polls (R54 to R57, R62). -/

namespace Sys2Proof.Machine

open Sys2Proof

theorem State.slot_updSlot (s : State) {l : Nat} (known : 1 ≤ l ∧ l ≤ 4) (k m j : Nat) (f : Slot → Slot) :
    (s.updSlot l k f).slot m j = if m = l ∧ j = k ∧ 1 ≤ k ∧ k ≤ 8 then f (s.slot l k) else s.slot m j := by
  unfold State.slot State.updSlot
  rw [State.link_updLink]
  by_cases line : l = m
  · subst line
    rw [if_pos ⟨rfl, known⟩, Link.slotAt_updSlot]
    exact if_congr ⟨fun h => ⟨rfl, h.1.symm, h.2⟩, fun h => ⟨h.2.1.symm, h.2.2⟩⟩ rfl rfl
  · rw [if_neg fun h => line h.1, if_neg fun h => line h.1.symm]

theorem State.known_of_present {s : State} {l k : Nat} (present : (s.slot l k).state = .PRESENT) :
    (1 ≤ l ∧ l ≤ 4) ∧ 1 ≤ k ∧ k ≤ 8 := by
  have slot : 1 ≤ k ∧ k ≤ 8 := by
    by_contra out
    unfold State.slot at present
    rw [Link.slotAt_outside _ out] at present
    exact nomatch present
  refine ⟨?_, slot⟩
  by_contra out
  unfold State.slot at present
  rw [State.link_outside s out] at present
  have empty : (Link.empty.slotAt k).state = .EMPTY := by
    cases k with
    | zero => rfl
    | succ k =>
      change ((Vector.replicate 8 Slot.empty)[k]?.getD Slot.empty).state = .EMPTY
      rw [Vector.getElem?_replicate]
      split <;> rfl
  rw [empty] at present
  exact nomatch present

/-! ### What a STATUS leaves of its link -/

/-- Between a STATUS and its end: the line, the sections and every other slot as they were, the polled slot's hatch memory
changed by `h`, and at most its late-strike marks else. -/
structure State.Reads (l k : Nat) (h : Vector HatchMem 16 → Vector HatchMem 16) (s t : State) : Prop where
  sects : t.sects = s.sects
  hatchMap : t.hatchMap = s.hatchMap
  line : ∀ m, (t.link m).line = (s.link m).line ∧ (t.link m).lastEnded = (s.link m).lastEnded
  others : ∀ m j, ¬ (m = l ∧ j = k) → t.slot m j = s.slot m j
  own : t.slot l k = { s.slot l k with hatch := h (s.slot l k).hatch, late := (t.slot l k).late }

section
variable {l k : Nat} {g h : Vector HatchMem 16 → Vector HatchMem 16} {s t u : State}

theorem State.Reads.trans (a : State.Reads l k g s t) (b : State.Reads l k h t u) : State.Reads l k (fun v => h (g v)) s u where
  sects := b.sects.trans a.sects
  hatchMap := b.hatchMap.trans a.hatchMap
  line m := ⟨(b.line m).1.trans (a.line m).1, (b.line m).2.trans (a.line m).2⟩
  others m j out := (b.others m j out).trans (a.others m j out)
  own := by
    rw [b.own, a.own]

theorem State.Reads.of_kept (a : Kept s t) : State.Reads l k id s t where
  sects := a.sects
  hatchMap := a.hatchMap
  line m := ⟨(a.link m).2.2.1, (a.link m).2.2.2.1⟩
  others m j _ := a.slot m j
  own := by rw [a.slot l k]; rfl

theorem State.Reads.of_links (sects : t.sects = s.sects) (hatchMap : t.hatchMap = s.hatchMap) (links : t.links = s.links) :
    State.Reads l k id s t := by
  have same : ∀ m, t.link m = s.link m := fun m => congrArg (fun v => tget v Link.empty m) links
  have slot : ∀ m j, t.slot m j = s.slot m j := fun m j => congrArg (fun x : Link => x.slotAt j) (same m)
  exact ⟨sects, hatchMap, fun m => ⟨by rw [same], by rw [same]⟩, fun m j _ => slot m j, by rw [slot]; rfl⟩

theorem State.reads_updSlot (known : 1 ≤ l ∧ l ≤ 4) {f : Slot → Slot} (slot : 1 ≤ k ∧ k ≤ 8)
    (own : f (s.slot l k) = { s.slot l k with hatch := h (s.slot l k).hatch, late := (f (s.slot l k)).late }) :
    State.Reads l k h s (s.updSlot l k f) where
  sects := rfl
  hatchMap := rfl
  line m := by
    unfold State.updSlot
    rw [State.link_updLink]
    split
    · rename_i here
      rw [here.1]
      exact ⟨rfl, rfl⟩
    · exact ⟨rfl, rfl⟩
  others m j out := by
    rw [State.slot_updSlot s known, if_neg fun h => out ⟨h.1, h.2.1⟩]
  own := by
    rw [State.slot_updSlot s known, if_pos ⟨rfl, rfl, slot⟩]
    exact own

end

/-! ### The readings of a STATUS -/

theorem kept_hatchReading (s : State) (o : Op) (b : Bool) : Kept s (s.hatchReading o b) := by
  unfold State.hatchReading State.enterOpen State.enterConfirm
  split
  · split
    · exact kept_updOp s _ _
    · exact Kept.refl s
  · split
    · exact (kept_updOp s _ _).trans (kept_post _ _)
    · exact Kept.refl s
  · split
    · exact Kept.refl s
    · exact kept_updOp s _ _
  · split
    · exact kept_updOp s _ _
    · exact Kept.refl s
  · exact Kept.refl s
  · exact Kept.refl s

theorem kept_occupancyReading (s : State) (j : Nat) (r : Reading) : Kept s (s.occupancyReading j r) := by
  unfold State.occupancyReading
  split
  · exact Kept.refl s
  · split
    · exact kept_endOp s _ _ _
    · exact Kept.refl s

theorem kept_opReading (s : State) (o : Op) (r : Reading) : Kept s (s.opReading o r) :=
  (kept_hatchReading s o r.hatchOpen).trans (kept_occupancyReading _ o.job r)

theorem kept_forcedTest (s : State) (l k ch n : Nat) (b : Bool) : Kept s (s.forcedTest l k ch n b) := by
  unfold State.forcedTest
  split
  · exact (kept_addCause s n .FORCED).trans (kept_post _ _)
  · exact Kept.refl s

theorem kept_cycleReading (s : State) (l k ch : Nat) (o : Op) (r : Reading) : Kept s (s.cycleReading l k ch o r) := by
  refine (kept_opReading s o r).trans ?_
  unfold State.cycleReading State.lateTest
  split
  · exact kept_forcedTest _ l k ch o.comp r.hatchOpen
  · exact Kept.refl _

theorem State.reads_auditRead (s : State) (l k n : Nat) (r : Reading) : State.Reads l k id s (s.auditRead n r) := by
  unfold State.auditRead
  split
  · split
    · exact .of_kept (kept_markCause s n _)
    · split
      · have frame := (s.settlesAt_settle n (if r.occupied then .occupied else .empty)).frame
        exact .of_links (congrArg State.sects frame :) (congrArg State.hatchMap frame :) (congrArg State.links frame :)
      · exact .of_links rfl rfl rfl
  · exact .of_links rfl rfl rfl

theorem State.reads_routeReading (s : State) (l k ch : Nat) (r : Reading) : State.Reads l k id s (s.routeReading l k ch r) := by
  unfold State.routeReading
  split
  · exact .of_kept (kept_cycleReading s l k ch _ r)
  · split
    · exact .of_links rfl rfl rfl
    · split
      · exact s.reads_auditRead l k _ r
      · exact .of_links rfl rfl rfl
      · split
        · split
          · exact .of_kept (kept_cycleReading s l k ch _ r)
          · exact .of_kept (kept_forcedTest s l k ch _ _)
        · exact .of_kept (kept_forcedTest s l k ch _ _)

/-- Hatch memory of an opening or a closing (R55). -/
def HatchMem.of (isOpen : Bool) : HatchMem := if isOpen then .opened else .closed

theorem State.reads_takeReading {l k : Nat} (s : State) (known : 1 ≤ l ∧ l ≤ 4) (slot : 1 ≤ k ∧ k ≤ 8) (ch : Nat) (r : Reading) :
    State.Reads l k (fun v => v.setIfInBounds ch (HatchMem.of r.hatchOpen)) s (s.takeReading l k ch r) := by
  have routed := s.reads_routeReading l k ch r
  have noted : State.Reads l k (fun v => v.setIfInBounds ch (HatchMem.of r.hatchOpen)) (s.routeReading l k ch r)
      ((s.routeReading l k ch r).setMemory l k ch r.hatchOpen) := State.reads_updSlot known slot rfl
  have cleared : ∀ u : State, State.Reads l k id u (u.clearLate l k ch r) := fun u => by
    unfold State.clearLate
    dsimp only
    split
    · exact State.reads_updSlot known slot rfl
    · exact .of_links rfl rfl rfl
  exact (routed.trans noted).trans (cleared _)

/-- The hatch memory after readings from channel `i` on. -/
def hatchAfter (rs : List Reading) (i : Nat) (v : Vector HatchMem 16) : Vector HatchMem 16 :=
  (rs.zipIdx i).foldl (fun v p => v.setIfInBounds p.2 (HatchMem.of p.1.hatchOpen)) v

theorem State.reads_takeReadings {l k : Nat} (known : 1 ≤ l ∧ l ≤ 4) (slot : 1 ≤ k ∧ k ≤ 8) (rs : List Reading) :
    ∀ (i : Nat) (s : State), State.Reads l k (hatchAfter rs i) s
      ((rs.zipIdx i).foldl (fun s p => s.takeReading l k p.2 p.1) s) := by
  induction rs with
  | nil => exact fun i s => .of_links rfl rfl rfl
  | cons r rs ih =>
    intro i s
    rw [List.zipIdx_cons, List.foldl_cons]
    exact (s.reads_takeReading known slot i r).trans (ih (i + 1) _)

theorem hatchAfter_below (rs : List Reading) : ∀ (i : Nat) (v : Vector HatchMem 16) (j : Nat), j < i →
    (hatchAfter rs i v)[j]? = v[j]? := by
  induction rs with
  | nil => exact fun _ _ _ _ => rfl
  | cons r rs ih =>
    intro i v j below
    have rest := ih (i + 1) (v.setIfInBounds i (HatchMem.of r.hatchOpen)) j (by omega)
    have step : hatchAfter (r :: rs) i v = hatchAfter rs (i + 1) (v.setIfInBounds i (HatchMem.of r.hatchOpen)) := rfl
    rw [step, rest, Vector.getElem?_setIfInBounds_ne (by omega)]

/-- Each channel's memory holds its reading (R55). -/
theorem hatchAfter_get (rs : List Reading) : ∀ (i : Nat) (v : Vector HatchMem 16) (ch : Nat) (r : Reading), rs[ch]? = some r →
    i + ch < 16 → (hatchAfter rs i v)[i + ch]? = some (HatchMem.of r.hatchOpen) := by
  induction rs with
  | nil => exact fun _ _ _ _ there => nomatch there
  | cons x rs ih =>
    intro i v ch r there inside
    have step : hatchAfter (x :: rs) i v = hatchAfter rs (i + 1) (v.setIfInBounds i (HatchMem.of x.hatchOpen)) := rfl
    rw [step]
    cases ch with
    | zero =>
      obtain rfl : x = r := Option.some.inj there
      simp only [Nat.add_zero] at inside ⊢
      rw [hatchAfter_below rs (i + 1) _ i (by omega), Vector.getElem?_setIfInBounds_self_of_lt inside]
    | succ ch =>
      have rest := ih (i + 1) (v.setIfInBounds i (HatchMem.of x.hatchOpen)) ch r there (by omega)
      rwa [show i + (ch + 1) = i + 1 + ch by omega]

/-! ### The rest of a STATUS -/

theorem kept_strikeEnd (s : State) (j : Nat) (b : Bool) : Kept s (s.strikeEnd j b) := by
  have opened : ∀ o : Op, Kept s (s.enterOpen o) := fun o => (kept_updOp s _ _).trans (kept_post _ _)
  unfold State.strikeEnd
  split
  · exact Kept.refl s
  · split
    · split
      · exact opened _
      · split
        · exact (opened _).trans (kept_updOp _ _ _)
        · exact kept_updOp s _ _
    · exact Kept.refl s

theorem kept_finishStrike (s : State) (l : Nat) (x : Strike) : Kept s (s.finishStrike l x) := by
  unfold State.finishStrike
  dsimp only
  split
  · exact kept_dropStrike s l
  · exact (kept_dropStrike s l).trans (kept_strikeEnd _ _ _)

theorem kept_strikeDone (s : State) (l k : Nat) (rs : List Reading) : Kept s (s.strikeDone l k rs) := by
  unfold State.strikeDone
  split
  · exact Kept.refl s
  · dsimp only
    split
    · exact (kept_finishStrike s l _).trans (kept_occupancyReading _ _ _)
    · exact kept_finishStrike s l _

theorem kept_noteHatch (s : State) (l k : Nat) (rs : List Reading) : Kept s (s.noteHatch l k rs) := by
  unfold State.noteHatch
  split
  · exact Kept.refl s
  · split
    · exact Kept.refl s
    · exact kept_updLink s l _ fun _ => ⟨rfl, rfl, rfl, rfl, rfl, rfl, rfl, rfl⟩

theorem State.reads_auditCheck (s : State) (l k : Nat) :
    State.Reads l k id s (if s.scu.phase = some .AUDIT then s.auditCheck else s) := by
  split
  · unfold State.auditCheck
    split
    · have frame := s.endAudit_frame
      exact .of_links (congrArg State.sects frame :) (congrArg State.hatchMap frame :) (congrArg State.links frame :)
    · exact .of_links rfl rfl rfl
  · exact .of_links rfl rfl rfl

/-- After a STATUS is kept, its readings and its strike-done change of the slot the hatch memory and the marks alone. -/
theorem State.reads_takeStatus {s : State} {l k : Nat} (known : 1 ≤ l ∧ l ≤ 4) (slot : 1 ≤ k ∧ k ≤ 8) (rs : List Reading)
    (done : Bool) : let kept := rs.take (min 16 (s.slot l k).channels)
    State.Reads l k (hatchAfter kept 0) (s.updSlot l k fun x => x.answered kept done) (s.takeStatus l k rs done) := by
  intro kept
  unfold State.takeStatus State.takeReadings
  dsimp only
  generalize (s.updSlot l k fun x => x.answered kept done) = u
  have read := (State.Reads.of_kept (l := l) (k := k) (kept_noteHatch u l k kept)).trans
    (State.reads_takeReadings known slot kept 0 (u.noteHatch l k kept))
  generalize (kept.zipIdx.foldl (fun s p => s.takeReading l k p.2 p.1) (u.noteHatch l k kept)) = w at read ⊢
  have told : State.Reads l k id w (if done = true then w.strikeDone l k kept else w) := by
    split
    · exact .of_kept (kept_strikeDone w l k kept)
    · exact .of_links rfl rfl rfl
  exact (read.trans told).trans (State.reads_auditCheck _ l k)

theorem exec_boardStatus {s : State} {l k : Nat} {rs : List Reading} {done : Bool} (line : (s.link l).line = some (.poll k))
    (present : (s.slot l k).state = .PRESENT) :
    exec (.boardStatus l k rs done) s = .next ((s.endExchange l (.poll k)).takeStatus l k rs done).pass := by
  change execBoardStatus l k rs done s = _
  unfold execBoardStatus
  rw [if_pos line]
  dsimp only
  rw [if_pos present]

theorem exec_pollMissed {s : State} {l k : Nat} (line : (s.link l).line = some (.poll k)) :
    exec (.boardResponseTimeout l) s = .next ((s.endExchange l (.poll k)).pollMissed l k).pass := by
  change execBoardResponseTimeout l s = _
  unfold execBoardResponseTimeout
  rw [line]

/-- What a STATUS leaves, said of any state that its readings may come to. -/
theorem State.Reads.status {s u t : State} {l k : Nat} {kept : List Reading} {done : Bool}
    (reads : State.Reads l k (hatchAfter kept 0) (u.updSlot l k fun x => x.answered kept done) t)
    (present : (s.slot l k).state = .PRESENT) (short : kept.length ≤ 16)
    (link : u.link l = { s.link l with line := none, lastEnded := .poll k }) (same : ∀ m j, u.slot m j = s.slot m j) :
    (t.link l).line = none ∧ (t.link l).lastEnded = .poll k ∧ (t.slot l k).state = .PRESENT ∧ (t.slot l k).unanswered = 0 ∧
    (t.slot l k).lastStatus = some { readings := kept, strikeDone := done } ∧
    (∀ (ch : Nat) (r : Reading), kept[ch]? = some r →
      (t.slot l k).hatch[ch]? = some (if r.hatchOpen then HatchMem.opened else .closed)) ∧
    (∀ m j, ¬ (m = l ∧ j = k) → t.slot m j = s.slot m j) := by
  obtain ⟨known, slot⟩ := State.known_of_present present
  have answered : State.slot (u.updSlot l k fun x => x.answered kept done) l k = (s.slot l k).answered kept done := by
    rw [State.slot_updSlot u known, if_pos ⟨rfl, rfl, slot⟩, same]
  obtain ⟨-, -, line, others, own⟩ := reads
  have held : ((u.updSlot l k fun x => x.answered kept done).link l).line = none ∧
      ((u.updSlot l k fun x => x.answered kept done).link l).lastEnded = .poll k := by
    unfold State.updSlot
    rw [State.link_updLink, if_pos ⟨rfl, known⟩, link]
    exact ⟨rfl, rfl⟩
  rw [answered] at own
  have state := congrArg Slot.state own
  have unanswered := congrArg Slot.unanswered own
  have status := congrArg Slot.lastStatus own
  have hatch := congrArg Slot.hatch own
  refine ⟨(line l).1.trans held.1, (line l).2.trans held.2, state.trans present, unanswered, status, fun ch r there => ?_,
    fun m j out => ?_⟩
  · have inside := (List.getElem?_eq_some_iff.mp there).1
    have mem := hatchAfter_get kept 0 (s.slot l k).hatch ch r there (by omega)
    rw [Nat.zero_add] at mem
    exact (congrArg (fun v : Vector HatchMem 16 => v[ch]?) hatch).trans mem
  · rw [others m j out, State.slot_updSlot u known, if_neg fun h => out ⟨h.1, h.2.1⟩, same]

/-! ### An unanswered poll -/

theorem State.pollMissed_again {s : State} {l k : Nat} (present : (s.slot l k).state = .PRESENT)
    (few : (s.slot l k).unanswered < 2) :
    s.pollMissed l k = s.updSlot l k fun x => { x with unanswered := x.unanswered + 1 } := by
  unfold State.pollMissed
  dsimp only
  rw [if_pos present, if_neg (by change ¬ (3 ≤ _); omega)]

/-- The slot of a third unanswered poll has left PRESENT, its operations not yet told (R56). -/
def State.slotMissed (s : State) (l k : Nat) : State :=
  (((s.updSlot l k fun x => x.enter .OFFLINE).postBoardChanged l k (s.slot l k).serial).reportFault
    .NO_RESPONSE l k none none).startRollTimer l

theorem State.pollMissed_third {s : State} {l k : Nat} (present : (s.slot l k).state = .PRESENT)
    (third : 2 ≤ (s.slot l k).unanswered) : s.pollMissed l k = (s.slotMissed l k).slotLost l k := by
  unfold State.pollMissed State.slotMissed
  dsimp only
  rw [if_pos present, if_pos (by change 3 ≤ _; omega)]

theorem State.slotMissed_spec (s : State) (l k : Nat) : let t := s.slotMissed l k
    t = { s with links := t.links, capture := t.capture, kli := t.kli } ∧
    t.links = tput s.links l { (s.link l).updSlot k (Slot.enter · .OFFLINE) with rollTimer := true } ∧
    t.capture = s.capture.after ⟨.NO_RESPONSE, l, k, none, none, s.now⟩ ∧
    t.kli.queue.length ≤ s.kli.queue.length + 2 := by
  intro t
  generalize posted : (s.updSlot l k fun x => x.enter .OFFLINE).postBoardChanged l k (s.slot l k).serial = u
  have made : t = (u.reportFault .NO_RESPONSE l k none none).startRollTimer l := by rw [← posted]; rfl
  have report := u.reportFault_frame .NO_RESPONSE l k none none
  have capture := u.capture_reportFault .NO_RESPONSE l k none none
  have length : (u.reportFault .NO_RESPONSE l k none none).kli.queue.length ≤ u.kli.queue.length + 1 := by
    unfold State.reportFault
    split
    · exact Kli.length_post_le _ _
    · exact Nat.le_succ _
  have first : u.kli.queue.length ≤ s.kli.queue.length + 1 := by
    rw [← posted]
    exact Kli.length_post_le _ _
  generalize u.reportFault .NO_RESPONSE l k none none = w at report capture length made
  have frame : w = { s with links := u.links, capture := w.capture, kli := w.kli } := by
    rw [report, ← posted]
    rfl
  have links : t.links = ((s.updSlot l k fun x => x.enter .OFFLINE).startRollTimer l).links := by
    have same : w.links = (s.updSlot l k fun x => x.enter .OFFLINE).links := by
      rw [report, ← posted]
      rfl
    rw [made]
    exact congrArg (fun v => tput v l { tget v Link.empty l with rollTimer := true }) same
  refine ⟨?_, ?_, ?_, ?_⟩
  · rw [made, frame]
    rfl
  · rw [links]
    unfold State.startRollTimer State.updSlot
    rw [State.updLink_updLink]
    rfl
  · rw [made]
    refine Eq.trans ?_ (capture.trans (by rw [← posted]; rfl))
    rfl
  · rw [made]
    exact length.trans (by omega)

/-! ### The operations of a slot that left PRESENT (R57) -/

/-- The outcome a slot's loss gives an operation. -/
def Op.lostOutcome (o : Op) : CycleOutcome := if o.stage = .QUEUED then .STRIKE_FAILED else .UNCONFIRMED

/-- The jobs a slot's loss ends. -/
def lostJobs (os : List Op) : List (Nat × CycleOutcome) :=
  (os.filter fun o => decide (o.stage ≠ .AWAIT_PAYMENT)).map fun o => (o.job, o.lostOutcome)

theorem State.opSlotLost_eq (s : State) (o : Op) :
    s.opSlotLost o = if o.stage = .AWAIT_PAYMENT then s else s.endJob o.job o.lostOutcome := by
  unfold State.opSlotLost Op.lostOutcome
  cases stage : o.stage <;> rfl

theorem State.opSlotLost_fold (os : List Op) : ∀ s : State, os.foldl State.opSlotLost s = s.endEach (lostJobs os) := by
  induction os with
  | nil => exact fun _ => rfl
  | cons o os ih =>
    intro s
    rw [List.foldl_cons, ih, State.opSlotLost_eq]
    by_cases waits : o.stage = .AWAIT_PAYMENT
    · rw [if_pos waits]
      unfold lostJobs
      rw [List.filter_cons_of_neg (by simp [waits])]
    · rw [if_neg waits]
      unfold lostJobs
      rw [List.filter_cons_of_pos (by simp [waits])]
      rfl

theorem mem_lostJobs {os : List Op} {e : Nat × CycleOutcome} :
    e ∈ lostJobs os ↔ ∃ o ∈ os, o.stage ≠ .AWAIT_PAYMENT ∧ (o.job, o.lostOutcome) = e := by
  unfold lostJobs
  simp only [List.mem_map, List.mem_filter, decide_eq_true_eq, and_assoc]

theorem Op.lostOutcome_uncompleted (o : Op) : o.lostOutcome ≠ .COMPLETED := by
  unfold Op.lostOutcome
  split <;> decide

theorem State.mem_opsAt {s : State} {l k : Nat} {o : Op} : o ∈ s.opsAt l k ↔ o ∈ s.hce.ops ∧ o.link = l ∧ o.slot = k := by
  unfold State.opsAt opsByComp
  rw [List.mem_insertionSort, List.mem_filter, decide_eq_true_eq]

theorem State.strikesKept_opSlotLost (s : State) (o : Op) : s.strikesKept (s.opSlotLost o) := by
  rw [State.opSlotLost_eq]
  split
  · exact State.strikesKept_of_eq rfl rfl
  · exact s.strikesKept_endJob _ _

/-- The strike of a lost slot touches the links and the arbiter alone. -/
theorem State.strikeSlotLost_frame (s : State) (l k : Nat) :
    s.strikeSlotLost l k = { s with links := (s.strikeSlotLost l k).links, arb := (s.strikeSlotLost l k).arb } := by
  unfold State.strikeSlotLost
  split
  · rfl
  · split
    · split
      · rfl
      · split
        · rfl
        · exact s.dropStrike_eq l
    · rfl

/-- The units of an acknowledged strike whose duration has not run stay; those of any other go back (R57, R62). -/
theorem State.strikeSlotLost_spec {s : State} {l k : Nat} {x : Strike} (strike : (s.link l).strike = some x) (here : x.slot = k) :
    let v := s.strikeSlotLost l k
    (x.ackMinute.isSome = true → x.durationRun = false → v.arb.granted = s.arb.granted ∧
      (v.link l).strike = some { x with slotLost := true, opEnded := true }) ∧
    (x.ackMinute.isSome = true ∧ x.durationRun = true ∨ x.ackMinute = none ∧ x.opEnded = false →
      v.arb.granted = s.arb.granted - x.units ∧ (v.link l).strike = none) := by
  have known := State.known_of_strike strike
  unfold State.strikeSlotLost
  rw [strike]
  dsimp only
  rw [if_pos here]
  refine ⟨fun acked runs => ?_, fun spent => ?_⟩
  · rw [if_pos ⟨acked, runs⟩, State.link_updLink, if_pos ⟨rfl, known⟩]
    exact ⟨rfl, rfl⟩
  · have kept : ¬ (x.ackMinute.isSome = true ∧ x.durationRun = false) := by
      rcases spent with ⟨-, run⟩ | ⟨unacked, -⟩
      · simp [run]
      · simp [unacked]
    have waits : ¬ (x.ackMinute.isNone = true ∧ x.opEnded = true) := by
      rcases spent with ⟨acked, -⟩ | ⟨-, told⟩
      · simp [Option.isSome_iff_ne_none.mp acked]
      · simp [told]
    rw [if_neg kept, if_neg waits, State.link_dropStrike strike, if_pos rfl, State.granted_dropStrike strike]
    exact ⟨rfl, rfl⟩

theorem State.slotLost_ends {s : State} {l k : Nat} (quiet : s.calm) : ∃ es, s.Ends (s.slotLost l k) es ∧
    (∀ f ∈ es, f.1 ∈ s.hce.ops ∧ (f.1.job, f.2) ∈ lostJobs (s.opsAt l k)) ∧
    ∀ e ∈ lostJobs (s.opsAt l k), ∀ y ∈ (s.slotLost l k).hce.ops, y.job ≠ e.1 := by
  obtain ⟨es, ends, each, rest⟩ := State.endEach_ends (lostJobs (s.opsAt l k)) quiet fun e mem => by
    obtain ⟨o, -, -, rfl⟩ := mem_lostJobs.mp mem
    exact o.lostOutcome_uncompleted
  have lost : s.slotLost l k = (s.endEach (lostJobs (s.opsAt l k))).strikeSlotLost l k := by
    unfold State.slotLost
    rw [State.opSlotLost_fold]
  generalize s.endEach (lostJobs (s.opsAt l k)) = w at *
  have frame := w.strikeSlotLost_frame l k
  have after : w.Ends (w.strikeSlotLost l k) [] := by
    rw [frame]
    exact State.Ends.silent rfl (fun _ => ⟨rfl, rfl⟩) rfl rfl rfl
  rw [lost]
  refine ⟨es, by simpa using ends.trans after, each, fun e mem y there => rest e mem y ?_⟩
  rwa [frame] at there

/-- The operations addressed to a lost slot end, those that wait for payment stand (R57). -/
theorem State.slotLost_endsThose {s : State} {l k : Nat} (quiet : s.noRun) (distinct : (s.hce.ops.map (·.job)).Nodup)
    (room : s.kli.queue.length + 2 * s.hce.ops.length ≤ 64) : s.endsThose (s.slotLost l k)
      (fun o => decide (o.link = l ∧ o.slot = k ∧ o.stage ≠ .AWAIT_PAYMENT)) Op.lostOutcome := by
  obtain ⟨es, ends, each, rest⟩ := State.slotLost_ends (l := l) (k := k) (.inl quiet)
  refine ends.endsThose distinct (fun f mem => ?_) (fun y there => decide_eq_false fun ⟨link, slot, stage⟩ => ?_)
    (by rw [quiet.runs]; exact room)
  · obtain ⟨there, told⟩ := each f mem
    obtain ⟨o, at_, stage, same⟩ := mem_lostJobs.mp told
    obtain ⟨mine, link, slot⟩ := State.mem_opsAt.mp at_
    obtain ⟨job, outcome⟩ := Prod.mk.inj same
    have : o = f.1 := List.inj_on_of_nodup_map distinct mine there job
    rw [this] at link slot stage outcome
    exact ⟨there, decide_eq_true ⟨link, slot, stage⟩, outcome.symm⟩
  · have before : y ∈ s.hce.ops := by
      rw [ends.ops] at there
      exact (List.mem_filter.mp there).1
    exact rest (y.job, y.lostOutcome) (mem_lostJobs.mpr ⟨y, State.mem_opsAt.mpr ⟨before, link, slot⟩, stage, rfl⟩) y there rfl

/-! ### The obligation -/

/-- Settles O52. -/
theorem pollsKeepTheReadings : Obligations.PollsKeepTheReadings := by
  refine ⟨fun l k rs done s line present => ⟨_, exec_boardStatus line present, ?_⟩, fun l k s line present =>
    ⟨fun few => ⟨_, exec_pollMissed line, ?_⟩, fun third => ⟨_, exec_pollMissed line, ?_⟩⟩⟩
  · obtain ⟨known, slot⟩ := State.known_of_present present
    have same := fun m j => s.slot_endExchange l m j (.poll k)
    have link := State.link_endExchange (s := s) known (.poll k)
    have frame : (s.endExchange l (.poll k)).sects = s.sects ∧ (s.endExchange l (.poll k)).hatchMap = s.hatchMap := ⟨rfl, rfl⟩
    generalize s.endExchange l (.poll k) = u at same link frame ⊢
    have reads := (State.reads_takeStatus (s := u) known slot rs done).trans (.of_kept (kept_pass _))
    rw [same] at reads
    obtain ⟨held, ended, state, unanswered, status, hatch, others⟩ :=
      reads.status present (by rw [List.length_take]; omega) link same
    exact ⟨held, ended, state, unanswered, status, hatch, others, reads.sects.trans frame.1, reads.hatchMap.trans frame.2⟩
  · have same := s.slot_endExchange l l k (.poll k)
    rw [State.pollMissed_again (by rw [same]; exact present) (by rw [same]; exact few)]
    unfold State.updSlot State.endExchange
    rw [State.updLink_updLink]
    rfl
  · obtain ⟨known, slot⟩ := State.known_of_present present
    have same := fun m j => s.slot_endExchange l m j (.poll k)
    have link := State.link_endExchange (s := s) known (.poll k)
    have frame : s.endExchange l (.poll k) = { s with links := (s.endExchange l (.poll k)).links } := rfl
    generalize s.endExchange l (.poll k) = u at same link frame ⊢
    rw [State.pollMissed_third (by rw [same]; exact present) (by rw [same]; exact third)]
    obtain ⟨missed, links, capture, length⟩ := u.slotMissed_spec l k
    generalize u.slotMissed l k = w at missed links capture length ⊢
    have whole : w = { s with links := w.links, capture := w.capture, kli := w.kli } := by
      rw [missed, frame]
    have link' : w.link l = { (u.link l).updSlot k (Slot.enter · .OFFLINE) with rollTimer := true } := by
      refine (congrArg (fun v => tget v Link.empty l) links).trans ?_
      exact tget_tput_self _ _ _ known.1 known.2
    have slots : ∀ j, w.slot l j = if j = k then { s.slot l k with state := .OFFLINE, unanswered := 0, lastStatus := none }
        else s.slot l j := fun j => by
      have read : w.slot l j = ((u.link l).updSlot k (Slot.enter · .OFFLINE)).slotAt j :=
        (congrArg (fun x : Link => x.slotAt j) link' :)
      rw [read, Link.slotAt_updSlot]
      by_cases here : j = k
      · subst here
        rw [if_pos ⟨rfl, slot⟩, if_pos rfl]
        exact congrArg (Slot.enter · .OFFLINE) (same l j)
      · rw [if_neg fun h => here h.1.symm, if_neg here]
        exact same l j
    have kept := kept_slotLost w l k
    have minute : u.now = s.now := (congrArg State.now frame :)
    have captured : w.capture = s.capture.after ⟨.NO_RESPONSE, l, k, none, none, s.now⟩ := by
      rw [capture, minute]
      exact congrArg (fun c : Capture => c.after _) (congrArg State.capture frame :)
    have ops : w.hce = s.hce := (congrArg State.hce whole :)
    have swu : w.swu = s.swu := (congrArg State.swu whole :)
    have arb : w.arb = s.arb := (congrArg State.arb whole :)
    refine ⟨?_, ?_, ?_, fun j other => ?_, ?_, fun x strike here => ?_, fun distinct quiet1 quiet2 room => ?_⟩
    · rw [kept.slot, slots, if_pos rfl]
    · rw [(kept.link l).2.2.2.2.2.1, link']
    · rw [(kept.link l).2.2.1, link', link]
      rfl
    · rw [kept.slot, slots, if_neg other]
    · rw [kept.captured (by rw [captured]; exact Capture.after_held _ _), captured]
    · have strikes : w.strikesKept ((w.opsAt l k).foldl State.opSlotLost w) :=
        State.strikesKept_foldl State.strikesKept_opSlotLost _ w
      have mine : (w.link l).strike = some x := by
        rw [link', link]
        exact strike
      unfold State.slotLost
      generalize (w.opsAt l k).foldl State.opSlotLost w = y at strikes ⊢
      have spec := State.strikeSlotLost_spec ((strikes.2 l).trans mine) here
      rw [strikes.1, arb] at spec
      exact spec
    · have ends := State.slotLost_endsThose (s := w) (l := l) (k := k)
        (by unfold State.noRun; rw [swu]; exact ⟨quiet1, quiet2⟩) (by rw [ops]; exact distinct) (by
          have : u.kli = s.kli := (congrArg State.kli frame :)
          rw [this] at length
          rw [ops]
          omega)
      unfold State.endsThose at ends ⊢
      rw [ops] at ends
      exact ends

end Sys2Proof.Machine
end

