-- ==== Sys2Proof/Proofs/Boards.lean ====
section
/-! BOARD_ACCEPT and LINK_RESET (R53, R64). -/

namespace Sys2Proof.Machine

open Sys2Proof

/-! ### BOARD_ACCEPT -/

theorem State.foldl_addCause_free (k : Cause) (ns : List Nat) : ∀ s : State, (∀ n ∈ ns, s.opOn n = none) →
    ns.foldl (fun s n => s.addCause n k) s = ns.foldl (fun s n => s.updComp n fun c => c.withCause k) s := by
  induction ns with
  | nil => exact fun _ _ => rfl
  | cons n ns ih =>
    intro s free
    rw [List.foldl_cons, List.foldl_cons, State.addCause_free k (free n List.mem_cons_self)]
    exact ih (s.markCause n k) fun m mem => free m (List.mem_cons_of_mem _ mem)

theorem State.hasOp_false {s : State} {n : Nat} (h : s.hasOp n = false) : s.opOn n = none := by
  simpa [State.hasOp] using h

/-- The slot as BOARD_ACCEPT leaves it. -/
def Slot.accepted (y : Slot) : Slot := { y with commissioned := y.serial }.enterPresent

theorem State.boardAccept_accepts {s : State} {l k : Nat} (running : s.scu.phase = none) (fitted : s.linkFitted l = true)
    (low : 1 ≤ k) (high : k ≤ 8) (new : (s.slot l k).state = .NEW) (alone : ∀ n ∈ s.compsAt l k, s.hasOp n = false) :
    s.boardAccept l k = { state := State.pass ((s.compsAt l k).foldl (fun s n => s.updComp n fun c => c.withCause .AUDIT_REQUIRED)
      (s.updSlot l k Slot.accepted)), status := .OK, body := .accepted (s.compsAt l k).length } := by
  have start : s.starting = false := by
    unfold State.starting
    rw [running]
    rfl
  have free := State.foldl_addCause_free .AUDIT_REQUIRED (s.compsAt l k) (s.updSlot l k Slot.accepted) fun n mem =>
    State.hasOp_false (alone n mem)
  unfold State.boardAccept
  rw [start, if_neg Bool.false_ne_true, if_neg (by rw [fitted]; simp; omega), if_neg (not_not.mpr new), ← free]
  rfl

theorem Link.updSlot_congr {x : Link} {k : Nat} {f g : Slot → Slot} (same : f (x.slotAt k) = g (x.slotAt k)) :
    x.updSlot k f = x.updSlot k g := congrArg (fun y => { x with slots := tput x.slots k y }) same

theorem boardAccept_settles (h : ReqHead) (p : List Byte) (l k x : Nat) (s : State) (a : s.asks h 35 p)
    (parsed : (Codec.nat8.pair Codec.nat8).parse p = some (l, k)) (running : s.scu.phase = none) (fitted : s.linkFitted l = true)
    (low : 1 ≤ k) (high : k ≤ 8) (new : (s.slot l k).state = .NEW) (serial : (s.slot l k).serial = some x)
    (alone : ∀ n ∈ s.compsAt l k, s.hasOp n = false) :
    ∃ t v : State, exec (.boardAccept h p) s = .next t ∧
      t.passedWith v h 35 .OK (.accepted (s.compsAt l k).length) ∧
      v.links = tput s.links l ((s.link l).updSlot k fun y => { y with
        state := .PRESENT, commissioned := some x, unanswered := 0, lastStatus := none
        hatch := Vector.replicate 16 .unknown }) ∧
      (∀ n, v.comp n = if n ∈ s.compsAt l k
        then { s.comp n with causes := (s.comp n).causes.add .AUDIT_REQUIRED } else s.comp n) ∧
      v = { s.took h with links := v.links, comps := v.comps } := by
  have accepts : (s.took h).boardAccept l k = ⟨State.pass ((s.compsAt l k).foldl
      (fun s n => s.updComp n fun c => c.withCause .AUDIT_REQUIRED) ((s.took h).updSlot l k Slot.accepted)), .OK,
      .accepted (s.compsAt l k).length⟩ :=
    State.boardAccept_accepts (s := s.took h) running fitted low high new alone
  have run : exec (.boardAccept h p) s = .next (s.takeRequest h 35 p (Codec.nat8.pair Codec.nat8)
    fun x s => s.boardAccept x.1 x.2) := rfl
  have frame := State.foldl_updComp_frame (fun c => c.withCause .AUDIT_REQUIRED) (s.compsAt l k)
    ((s.took h).updSlot l k Slot.accepted)
  have comps := State.comp_foldl_updComp_mem (fun c => c.withCause .AUDIT_REQUIRED) (ns := s.compsAt l k)
    ((s.took h).updSlot l k Slot.accepted) (nodup_compNos.filter _) fun n mem => mem_compNos.mp (List.mem_filter.mp mem).1
  generalize (s.compsAt l k).foldl (fun s n => s.updComp n fun c => c.withCause .AUDIT_REQUIRED)
    ((s.took h).updSlot l k Slot.accepted) = v at accepts frame comps
  refine ⟨_, v, run.trans (congrArg Host.Outcome.next (State.takeRequest_of a parsed rfl accepts (by simp))), rfl, ?_, comps, ?_⟩
  · refine (congrArg State.links frame :).trans ?_
    have same : (s.link l).updSlot k Slot.accepted = (s.link l).updSlot k fun y => { y with
        state := .PRESENT, commissioned := some x, unanswered := 0, lastStatus := none
        hatch := Vector.replicate 16 .unknown } := Link.updSlot_congr (by
      change { s.slot l k with
        state := .PRESENT, commissioned := (s.slot l k).serial, unanswered := 0, lastStatus := none
        hatch := Vector.replicate 16 .unknown } = _
      rw [serial]
      rfl)
    rw [← same]
    rfl
  · rw [frame]
    rfl

/-! ### LINK_RESET: the slots and the strike -/

theorem Link.slotAt_resetLink (x : Link) (k : Nat) : x.resetLink.slotAt k = (x.slotAt k).reset := by
  unfold Link.slotAt Link.resetLink
  dsimp only
  rw [tget_map]
  split
  · rfl
  · rename_i out
    rw [tget_outside _ _ (by omega)]
    rfl

theorem Slot.lateMark_set_other (x : Slot) {ch j : Nat} (b : Bool) (other : ch ≠ j) :
    Slot.lateMark { x with late := x.late.setIfInBounds ch b } j = x.lateMark j := by
  unfold Slot.lateMark
  dsimp only
  rw [Vector.getElem?_setIfInBounds_ne other]

/-- A strike in flight whose duration has not run since STRIKE_ACK, on a slot's channel. -/
def Link.runningAt (x : Link) (k ch : Nat) : Prop :=
  ∃ y, x.strike = some y ∧ y.ackMinute.isSome = true ∧ y.durationRun = false ∧ y.slot = k ∧ y.channel = ch

/-- The strike of a link reset (R64): its units go back, and one that may still run leaves its late-strike mark. -/
theorem State.resetStrike_spec (s : State) {l : Nat} (known : 1 ≤ l ∧ l ≤ 4) : let t := s.resetStrike l
    t = { s with links := t.links, arb := t.arb } ∧ t.arb.granted = s.arb.granted - (s.link l).strikeUnits ∧
    (∀ m, m ≠ l → t.link m = s.link m) ∧
    t.link l = { s.link l with strike := none, slots := (t.link l).slots } ∧
    (∀ k, t.slot l k = { s.slot l k with late := (t.slot l k).late }) ∧
    (∀ k ch, 1 ≤ k → k ≤ 8 → ch < 16 → (s.link l).runningAt k ch → (t.slot l k).lateMark ch = true) ∧
    ∀ k ch, ¬ (s.link l).runningAt k ch → (t.slot l k).lateMark ch = (s.slot l k).lateMark ch := by
  unfold State.resetStrike
  cases strike : (s.link l).strike with
  | none =>
    have unstruck : s.link l = { s.link l with strike := none } := by rw [← strike]
    refine ⟨rfl, ?_, fun _ _ => rfl, unstruck, fun _ => rfl, fun k ch _ _ _ running => ?_, fun _ _ _ => rfl⟩
    · unfold Link.strikeUnits
      rw [strike]
      exact (Nat.sub_zero _).symm
    · obtain ⟨y, some_, -⟩ := running
      rw [strike] at some_
      exact nomatch some_
  | some y =>
    dsimp only
    have units : (s.link l).strikeUnits = y.units := by
      unfold Link.strikeUnits
      rw [strike]
    by_cases running : y.ackMinute.isSome = true ∧ y.durationRun = false
    · rw [if_pos running]
      have struck : ((s.setLate l y.slot y.channel true).link l).strike = some y := by
        unfold State.setLate State.updSlot
        rw [State.link_updLink, if_pos ⟨rfl, known⟩]
        exact strike
      have link := State.link_dropStrike struck
      have slot : ∀ k, ((s.setLate l y.slot y.channel true).dropStrike l).slot l k =
          (s.setLate l y.slot y.channel true).slot l k := fun k => by
        unfold State.slot
        rw [link, if_pos rfl]
        rfl
      have read : ∀ k, (s.setLate l y.slot y.channel true).slot l k = if k = y.slot ∧ 1 ≤ y.slot ∧ y.slot ≤ 8 then
          { s.slot l y.slot with late := (s.slot l y.slot).late.setIfInBounds y.channel true } else s.slot l k := fun k => by
        unfold State.setLate
        rw [State.slot_updSlot s known]
        exact if_congr ⟨fun h => h.2, fun h => ⟨rfl, h⟩⟩ rfl rfl
      refine ⟨?_, ?_, fun m other => ?_, ?_, fun k => ?_, fun k ch low high inside at_ => ?_, fun k ch not_ => ?_⟩
      · rw [State.dropStrike_eq]
        rfl
      · rw [State.granted_dropStrike struck, units]
        rfl
      · rw [link, if_neg (Ne.symm other)]
        unfold State.setLate State.updSlot
        rw [State.link_updLink, if_neg fun h => other h.1.symm]
      · rw [link, if_pos rfl]
        unfold State.setLate State.updSlot
        rw [State.link_updLink, if_pos ⟨rfl, known⟩]
        rfl
      · rw [slot, read]
        split
        · rename_i here
          rw [here.1]
        · rfl
      · obtain ⟨z, some_, -, -, rfl, rfl⟩ := at_
        obtain rfl : y = z := Option.some.inj (strike.symm.trans some_)
        rw [slot, read, if_pos ⟨rfl, low, high⟩, Slot.lateMark_set _ _ inside]
      · rw [slot, read]
        split
        · rename_i here
          rw [here.1]
          refine Slot.lateMark_set_other _ _ fun same => not_ ⟨y, strike, running.1, running.2, here.1.symm, same⟩
        · rfl
    · rw [if_neg running]
      have link := State.link_dropStrike strike
      have slot : ∀ k, (s.dropStrike l).slot l k = s.slot l k := fun k => by
        unfold State.slot
        rw [link, if_pos rfl]
        rfl
      refine ⟨s.dropStrike_eq l, ?_, fun m other => ?_, ?_, fun k => by rw [slot], fun k ch low high inside at_ => ?_,
        fun k ch _ => by rw [slot]⟩
      · rw [State.granted_dropStrike strike, units]
      · rw [link, if_neg (Ne.symm other)]
      · rw [link, if_pos rfl]
        rfl
      · obtain ⟨z, some_, acked, runs, -⟩ := at_
        obtain rfl : y = z := Option.some.inj (strike.symm.trans some_)
        exact absurd ⟨acked, runs⟩ running

/-! ### LINK_RESET: the ends -/

theorem State.mem_strikingOn {s : State} {l j : Nat} :
    j ∈ s.strikingOn l ↔ ∃ o ∈ s.hce.ops, o.link = l ∧ o.stage.striking = true ∧ o.job = j := by
  unfold State.strikingOn opsByComp
  simp only [List.mem_map, List.mem_insertionSort, List.mem_filter, Bool.and_eq_true, decide_eq_true_eq, and_assoc]

theorem State.length_strikingOn (s : State) (l : Nat) :
    (s.strikingOn l).length = s.hce.ops.countP fun o => decide (o.link = l) && o.stage.striking := by
  unfold State.strikingOn opsByComp
  rw [List.length_map, List.length_insertionSort, List.countP_eq_length_filter]

/-- The ends of a link reset, after its slots and before its strike (R64). -/
def State.resetEnds (s : State) (l : Nat) : State :=
  ((s.updLink l Link.resetLink).endJobs (s.link l).queued .ABORTED_LINK).endJobs (s.strikingOn l) .UNCONFIRMED

theorem State.resetAll_eq (s : State) (l : Nat) :
    s.resetAll l = ((s.resetEnds l).resetStrike l, (s.link l).queued.length + (s.strikingOn l).length) := rfl

theorem State.strikesKept_endJobs (s : State) (js : List Nat) (out : CycleOutcome) : s.strikesKept (s.endJobs js out) :=
  State.strikesKept_foldl (fun s j => s.strikesKept_endJob j out) js s

theorem State.resetEnds_kept (s : State) (l : Nat) : Kept (s.updLink l Link.resetLink) (s.resetEnds l) ∧
    (s.updLink l Link.resetLink).strikesKept (s.resetEnds l) :=
  ⟨(kept_endJobs _ _ _).trans (kept_endJobs _ _ _), (State.strikesKept_endJobs _ _ _).trans (State.strikesKept_endJobs _ _ _)⟩

/-- Jobs that end with one outcome: those of the table, and none stays there. -/
theorem State.endJobs_ends {s : State} (quiet : s.calm) (js : List Nat) {out : CycleOutcome} (uncompleted : out ≠ .COMPLETED) :
    ∃ es, s.Ends (s.endJobs js out) es ∧ (∀ f ∈ es, f.1 ∈ s.hce.ops ∧ f.1.job ∈ js ∧ f.2 = out) ∧
      ∀ y ∈ (s.endJobs js out).hce.ops, y.job ∉ js := by
  obtain ⟨es, ends, each, gone⟩ := State.endEach_ends (js.map fun j => (j, out)) quiet fun e mem => by
    obtain ⟨j, -, rfl⟩ := List.mem_map.mp mem
    exact uncompleted
  rw [State.endJobs_eq]
  refine ⟨es, ends, fun f mem => ?_, fun y mem at_ => gone (y.job, out) (List.mem_map.mpr ⟨_, at_, rfl⟩) y mem rfl⟩
  obtain ⟨there, job⟩ := each f mem
  obtain ⟨j, at_, same⟩ := List.mem_map.mp job
  obtain ⟨rfl, outcome⟩ := Prod.mk.inj same
  exact ⟨there, at_, outcome.symm⟩

/-- The queued operations of the link end ABORTED_LINK, those at STRIKING or later UNCONFIRMED (R64). -/
theorem State.resetAll_endsThose {s : State} {l : Nat} (quiet : s.noRun) (distinct : (s.hce.ops.map (·.job)).Nodup)
    (room : s.kli.queue.length + 2 * s.hce.ops.length ≤ 64) :
    let queued := fun (o : Op) => (s.link l).queued.contains o.job
    s.endsThose (s.resetAll l).1 (fun o => queued o || (decide (o.link = l) && o.stage.striking))
      (fun o => if queued o then .ABORTED_LINK else .UNCONFIRMED) := by
  intro queued
  generalize reset : s.updLink l Link.resetLink = w
  have ops : w.hce.ops = s.hce.ops := by rw [← reset]; rfl
  obtain ⟨es, ends, each, gone⟩ := State.endJobs_ends (s := w) (by rw [← reset]; exact .inl quiet) (s.link l).queued
    (out := .ABORTED_LINK) (by decide)
  generalize first : w.endJobs (s.link l).queued .ABORTED_LINK = x at ends each gone
  obtain ⟨fs, ends', each', gone'⟩ := State.endJobs_ends (s := x) (ends.calm (by rw [← reset]; exact .inl quiet)) (s.strikingOn l)
    (out := .UNCONFIRMED) (by decide)
  generalize second : x.endJobs (s.strikingOn l) .UNCONFIRMED = y at ends' each' gone'
  have made : s.resetEnds l = y := by
    rw [← second, ← first, ← reset]
    rfl
  have last : y.Ends (y.resetStrike l) [] := by
    have frame : y.resetStrike l = { y with links := (y.resetStrike l).links, arb := (y.resetStrike l).arb } := by
      unfold State.resetStrike
      split
      · rfl
      · dsimp only
        split
        · rw [State.dropStrike_eq]
          rfl
        · exact y.dropStrike_eq l
    rw [frame]
    exact State.Ends.silent rfl (fun _ => ⟨rfl, rfl⟩) rfl rfl rfl
  have before : s.Ends w [] := by
    rw [← reset]
    exact State.Ends.silent rfl (fun _ => ⟨rfl, rfl⟩) rfl rfl rfl
  have whole : s.Ends (s.resetAll l).1 (es ++ fs) := by
    rw [State.resetAll_eq, made]
    simpa using ((before.trans ends).trans ends').trans last
  have stays : ∀ o ∈ (s.resetAll l).1.hce.ops, o ∈ y.hce.ops := fun o mem => by
    rw [State.resetAll_eq, made, last.ops] at mem
    exact (List.mem_filter.mp mem).1
  have stayed : ∀ o ∈ y.hce.ops, o ∈ x.hce.ops := fun o mem => by
    rw [ends'.ops] at mem
    exact (List.mem_filter.mp mem).1
  have old : ∀ o ∈ x.hce.ops, o ∈ s.hce.ops := fun o mem => by
    rw [ends.ops] at mem
    exact ops ▸ (List.mem_filter.mp mem).1
  have unqueued : ∀ o ∈ x.hce.ops, queued o = false := fun o mem => Bool.eq_false_iff.mpr fun q =>
    gone o mem (List.contains_iff_mem.mp q)
  refine whole.endsThose distinct (fun f mem => ?_) (fun o mem => ?_) (by rw [quiet.runs]; exact room)
  · rcases List.mem_append.mp mem with mem | mem
    · obtain ⟨there, at_, outcome⟩ := each f mem
      have q : queued f.1 = true := List.contains_iff_mem.mpr at_
      refine ⟨ops ▸ there, by rw [q]; rfl, ?_⟩
      rw [q, if_pos rfl]
      exact outcome
    · obtain ⟨there, at_, outcome⟩ := each' f mem
      have q := unqueued f.1 there
      obtain ⟨o, mine, link, striking, job⟩ := State.mem_strikingOn.mp at_
      have : o = f.1 := List.inj_on_of_nodup_map distinct mine (old _ there) job
      rw [this] at link striking
      refine ⟨old _ there, by rw [q, link, striking, decide_eq_true rfl]; rfl, ?_⟩
      rw [q, if_neg Bool.false_ne_true]
      exact outcome
  · have there := stays o mem
    rw [unqueued o (stayed o there), Bool.false_or]
    refine Bool.eq_false_iff.mpr fun tested => ?_
    obtain ⟨link, striking⟩ := Bool.and_eq_true_iff.mp tested
    exact gone' o there (State.mem_strikingOn.mpr ⟨o, old o (stayed o there), of_decide_eq_true link, striking, rfl⟩)

theorem linkReset_settles (h : ReqHead) (p : List Byte) (l : Nat) (s : State) (a : s.asks h 36 p)
    (parsed : Codec.nat8.parse p = some l) (running : s.scu.phase = none) (fitted : s.linkFitted l = true) :
    let queued := fun (o : Op) => ((s.link l).prio ++ (s.link l).bulk).contains o.job
    ∃ t v : State, exec (.linkReset h p) s = .next t ∧
      t.passedWith v h 36 .OK (.linkEnded ((s.link l).prio.length + (s.link l).bulk.length +
        (s.hce.ops.countP fun o => decide (o.link = l) && o.stage.striking))) ∧
      (v.link l).strike = none ∧ (v.link l).enumPass = none ∧ (v.link l).rollTimer = false ∧
      (v.link l).unbindDue = true ∧ v.arb.granted = s.arb.granted - (s.link l).strikeUnits ∧
      (∀ k, (v.slot l k).state = .EMPTY ∧ (v.slot l k).commissioned = (s.slot l k).commissioned ∧
        (v.slot l k).serial = none) ∧
      (let running := fun (k ch : Nat) => ∃ y, (s.link l).strike = some y ∧ y.ackMinute.isSome = true ∧
          y.durationRun = false ∧ y.slot = k ∧ y.channel = ch
       (∀ k ch, 1 ≤ k → k ≤ 8 → ch < 16 → running k ch → (v.slot l k).lateMark ch = true) ∧
       ∀ k ch, ¬ running k ch → (v.slot l k).lateMark ch = (s.slot l k).lateMark ch) ∧
      (∀ m, m ≠ l → (v.link m).slots = (s.link m).slots ∧ (v.link m).strike = (s.link m).strike) ∧
      v.sects = s.sects ∧ v.scu = s.scu ∧
      ((s.hce.ops.map (·.job)).Nodup → s.swu.k1.run = none → s.swu.k2.run = none →
        s.kli.queue.length + 2 * s.hce.ops.length ≤ 64 →
        s.endsThose v (fun o => queued o || (decide (o.link = l) && o.stage.striking))
          (fun o => if queued o then .ABORTED_LINK else .UNCONFIRMED)) := by
  intro queued
  have known := State.linkFitted_range fitted
  have start : s.starting = false := by
    unfold State.starting
    rw [running]
    rfl
  have answer : (s.took h).linkReset l = ⟨State.pass ((s.took h).resetAll l).1, .OK, .linkEnded ((s.link l).prio.length +
      (s.link l).bulk.length + (s.hce.ops.countP fun o => decide (o.link = l) && o.stage.striking))⟩ := by
    unfold State.linkReset
    have start' : (s.took h).starting = false := start
    have fitted' : (s.took h).linkFitted l = true := fitted
    rw [start', if_neg Bool.false_ne_true, fitted', if_neg Bool.noConfusion]
    have count : ((s.took h).resetAll l).2 = (s.link l).prio.length + (s.link l).bulk.length +
        (s.hce.ops.countP fun o => decide (o.link = l) && o.stage.striking) := by
      rw [State.resetAll_eq, State.length_strikingOn, ← List.length_append]
      rfl
    rw [← count]
  have run : exec (.linkReset h p) s = .next (s.takeRequest h 36 p .nat8 fun l s => s.linkReset l) := rfl
  have ends := fun quiet distinct room => State.resetAll_endsThose (s := s.took h) (l := l) quiet distinct room
  refine ⟨_, ((s.took h).resetAll l).1, run.trans (congrArg Host.Outcome.next (State.takeRequest_of a parsed rfl answer (by simp))),
    rfl, ?_⟩
  rw [State.resetAll_eq] at ends ⊢
  obtain ⟨kept, strikes⟩ := (s.took h).resetEnds_kept l
  have link0 : ∀ m, ((s.took h).updLink l Link.resetLink).link m = if l = m then (s.link l).resetLink else s.link m := fun m => by
    rw [State.link_updLink]
    exact if_congr (and_iff_left known) rfl rfl
  have slot0 : ∀ k, ((s.took h).resetEnds l).slot l k = (s.slot l k).reset := fun k => by
    rw [kept.slot]
    unfold State.slot
    rw [link0, if_pos rfl, Link.slotAt_resetLink]
  have arb0 : ((s.took h).resetEnds l).arb = s.arb := strikes.1
  have strike0 : ∀ m, (((s.took h).resetEnds l).link m).strike = (s.link m).strike := fun m => by
    rw [strikes.2, link0]
    split
    · rename_i here
      rw [here]
      rfl
    · rfl
  have enum0 := (kept.link l).2.2.2.2
  rw [link0, if_pos rfl] at enum0
  have sects0 : ((s.took h).resetEnds l).sects = s.sects := kept.sects
  have scu0 : ((s.took h).resetEnds l).scu = s.scu := kept.scu
  have slots0 : ∀ m, m ≠ l → (((s.took h).resetEnds l).link m).slots = (s.link m).slots := fun m other => by
    rw [(kept.link m).1, link0, if_neg (Ne.symm other)]
  generalize (s.took h).resetEnds l = w at slot0 arb0 strike0 enum0 sects0 scu0 slots0 ends ⊢
  obtain ⟨frame, granted, others, own, slots, marks, unmarked⟩ := w.resetStrike_spec known
  generalize w.resetStrike l = v at frame granted others own slots marks unmarked ends ⊢
  obtain ⟨enum, roll, unbind, -⟩ := enum0
  have at_ : ∀ k ch, (w.link l).runningAt k ch ↔ (s.link l).runningAt k ch := fun k ch => by
    unfold Link.runningAt
    rw [strike0]
  refine ⟨by rw [own], by rw [own]; exact enum, by rw [own]; exact roll, by rw [own]; exact unbind, ?_, fun k => ?_,
    ⟨fun k ch low high inside runs => marks k ch low high inside ((at_ k ch).mpr runs), fun k ch not_ => ?_⟩,
    fun m other => ?_, ?_, ?_, fun distinct quiet1 quiet2 room => ends ⟨quiet1, quiet2⟩ distinct room⟩
  · rw [granted, arb0]
    unfold Link.strikeUnits
    rw [strike0]
  · rw [slots, slot0]
    exact ⟨rfl, rfl, rfl⟩
  · rw [unmarked k ch fun runs => not_ ((at_ k ch).mp runs), slot0]
    rfl
  · rw [others m other]
    exact ⟨slots0 m other, strike0 m⟩
  · exact (congrArg State.sects frame :).trans sects0
  · exact (congrArg State.scu frame :).trans scu0

/-- Settles O49. -/
theorem boardsAreAcceptedAndLinksReset : Obligations.BoardsAreAcceptedAndLinksReset :=
  ⟨boardAccept_settles, linkReset_settles⟩

end Sys2Proof.Machine
end

