-- ==== Sys2Proof/Proofs/Supply.lean ====
section
/-! The mode and what its change brings (R76, R197, R198, R180). -/

namespace Sys2Proof.Machine

open Sys2Proof

/-! ### Ends while no top-up is made -/

/-- No top-up is made in the mode (R180). -/
def State.dark (s : State) : Prop := s.scu.mode = .BATTERY ∨ s.scu.mode = .DORMANT

theorem State.handSweep_dark {s : State} (dark : s.dark) (o : Op) (out : CycleOutcome) (note : EndNote) :
    s.handSweep o out note = { s with swu := (s.handSweep o out note).swu, kli := (s.handSweep o out note).kli } := by
  cases courier : courierOf o.station with
  | none =>
    unfold State.handSweep
    rw [courier]
  | some k =>
    obtain ⟨a, b, counted⟩ : ∃ a b, s.counted o out note k = { s with swu := a, kli := b } := ⟨_, _, s.counted_frame o out note k⟩
    obtain ⟨a', b', first⟩ : ∃ a b, (s.counted o out note k).endRun k = { s.counted o out note k with swu := a, kli := b } :=
      ⟨_, _, (s.counted o out note k).endRun_frame k⟩
    obtain ⟨a'', b'', second⟩ : ∃ a b, ((s.counted o out note k).endRun k).endRun k.other =
        { (s.counted o out note k).endRun k with swu := a, kli := b } :=
      ⟨_, _, ((s.counted o out note k).endRun k).endRun_frame k.other⟩
    have scu : (s.counted o out note k).scu = s.scu := (congrArg State.scu counted :)
    have scu' : ((s.counted o out note k).endRun k).scu = s.scu := (congrArg State.scu first :).trans scu
    have handed : s.handSweep o out note = ((s.counted o out note k).endRun k).endRun k.other := by
      rw [State.handSweep_courier courier, State.topUpEnd_dark (s := s.counted o out note k) (by rw [scu]; exact dark),
        State.topUpEnd_dark (s := (s.counted o out note k).endRun k) (by rw [scu']; exact dark)]
    rw [handed, second, first, counted]

/-- An end in such a mode touches one compartment, and takes its job from its link's queues. -/
theorem State.endOp_dark {s : State} {o : Op} {out : CycleOutcome} (dark : s.dark) (unheld : out ≠ .HELD) :
    (∀ n, n ≠ o.comp → (s.endOp o out).comp n = s.comp n) ∧
    ∀ l, (s.endOp o out).link l = (s.updLink o.link fun x => x.leave o.job).link l := by
  have frame := s.endedBy_frame o out false
  have scu : ((s.endedBy o out false).posts (s.endEvents o out false)).scu = s.scu := (congrArg State.scu frame :)
  have comp := s.endedBy_others o out false (s.endEvents o out false)
  have link : ∀ l, ((s.endedBy o out false).posts (s.endEvents o out false)).link l =
      (s.updLink o.link fun x => x.leave o.job).link l := fun l =>
    congrArg (fun v => tget v Link.empty l) (congrArg State.links frame :)
  rw [s.endOp_unfold]
  dsimp only
  rw [if_neg fun h : o.stage = .AWAIT_PAYMENT ∧ out = .HELD => unheld h.2]
  generalize (s.endedBy o out false).posts (s.endEvents o out false) = t at scu comp link ⊢
  split
  · have swept := State.handSweep_dark (s := t) (by unfold State.dark; rw [scu]; exact dark) o out (s.endNote o out false)
    refine ⟨fun n other => ?_, fun l => ?_⟩
    · rw [swept]
      exact comp n other
    · rw [swept]
      exact link l
  · exact ⟨comp, link⟩

/-- Jobs have ended while no top-up is made: what else the compartments and the queues show. -/
structure State.DarkEnds (s v : State) (js : List Nat) : Prop where
  dark : v.dark
  ops : ∀ o ∈ v.hce.ops, o ∈ s.hce.ops
  comps : ∀ n, (∀ o ∈ s.hce.ops, o.job ∈ js → o.comp ≠ n) → v.comp n = s.comp n
  fewer : ∀ l j, j ∈ (v.link l).queued → j ∈ (s.link l).queued
  others : ∀ l j, j ∈ (s.link l).queued → j ∉ js → j ∈ (v.link l).queued

theorem State.DarkEnds.trans {s v w : State} {js ks : List Nat} (h : s.DarkEnds v js) (h' : v.DarkEnds w ks) :
    s.DarkEnds w (js ++ ks) where
  dark := h'.dark
  ops o mem := h.ops o (h'.ops o mem)
  comps n apart := by
    rw [h'.comps n fun o mem job => apart o (h.ops o mem) (List.mem_append_right _ job),
      h.comps n fun o mem job => apart o mem (List.mem_append_left _ job)]
  fewer l j mem := h.fewer l j (h'.fewer l j mem)
  others l j mem out := by
    rw [List.mem_append, not_or] at out
    exact h'.others l j (h.others l j mem out.1) out.2

theorem Link.mem_leave {x : Link} {i j : Nat} : j ∈ (x.leave i).queued ↔ j ∈ x.queued ∧ j ≠ i := by
  unfold Link.queued Link.leave
  simp only [List.mem_append, List.mem_filter, bne_iff_ne, ne_eq]
  tauto

theorem State.endJob_dark {s : State} (dark : s.dark) (j : Nat) : s.DarkEnds (s.endJob j .NO_POWER) [j] := by
  cases found : s.opByJob j with
  | none =>
    rw [State.endJob_none found]
    exact ⟨dark, fun _ => id, fun _ _ => rfl, fun _ _ => id, fun _ _ mem _ => mem⟩
  | some o =>
    have job := State.opByJob_job found
    have mem := State.opByJob_mem found
    have ends := State.endOp_ends (s := s) (o := o) (out := .NO_POWER) (.inr (.inr dark)) ⟨o, mem, rfl⟩ (by decide)
    obtain ⟨comp, link⟩ := State.endOp_dark (s := s) (o := o) (out := .NO_POWER) dark (by decide)
    rw [State.endJob_some found]
    refine ⟨?_, fun y there => ?_, fun n apart => comp n fun same => ?_, fun l i there => ?_, fun l i there out => ?_⟩
    · unfold State.dark
      rw [ends.scu]
      exact dark
    · rw [ends.ops] at there
      exact (List.mem_filter.mp there).1
    · exact apart o mem (List.mem_singleton.mpr job) same.symm
    · rw [link, State.link_updLink] at there
      split at there
      · rename_i here
        rw [← here.1]
        exact (Link.mem_leave.mp there).1
      · exact there
    · rw [link, State.link_updLink]
      split
      · rename_i here
        rw [← here.1] at there
        exact Link.mem_leave.mpr ⟨there, fun same => out (List.mem_singleton.mpr (same.trans job))⟩
      · exact there

theorem State.endJobs_dark (js : List Nat) : ∀ {s : State}, s.dark → s.DarkEnds (s.endJobs js .NO_POWER) js := by
  induction js with
  | nil => exact fun dark => ⟨dark, fun _ => id, fun _ _ => rfl, fun _ _ => id, fun _ _ mem _ => mem⟩
  | cons j js ih =>
    intro s dark
    have first := State.endJob_dark dark j
    exact first.trans (ih first.dark)

/-! ### Entry into DORMANT (R76) -/

/-- Every QUEUED operation ends NO_POWER: over the links `ls`. -/
def State.endQueuedOf (s : State) (ls : List Nat) : State :=
  ls.foldl (fun s l => s.endJobs (s.link l).queued .NO_POWER) s

theorem State.endQueuedOf_spec (ls : List Nat) : ∀ {s : State}, s.dark → ∃ es js, s.Ends (s.endQueuedOf ls) es ∧
    s.DarkEnds (s.endQueuedOf ls) js ∧ (∀ f ∈ es, f.1 ∈ s.hce.ops ∧ f.1.job ∈ js ∧ f.2 = .NO_POWER) ∧
    (∀ j ∈ js, ∃ l, j ∈ (s.link l).queued) ∧
    ∀ l ∈ ls, ∀ j ∈ (s.link l).queued, ∀ o ∈ (s.endQueuedOf ls).hce.ops, o.job ≠ j := by
  induction ls with
  | nil =>
    exact fun {s} dark => ⟨[], [], State.Ends.refl s, ⟨dark, fun _ => id, fun _ _ => rfl, fun _ _ => id, fun _ _ mem _ => mem⟩,
      (fun _ h => nomatch h), (fun _ h => nomatch h), fun _ h => nomatch h⟩
  | cons l ls ih =>
    intro s dark
    have dark_ := State.endJobs_dark (s.link l).queued dark
    obtain ⟨es, ends, each, gone⟩ := State.endJobs_ends (s := s) (.inr dark) (s.link l).queued (out := .NO_POWER) (by decide)
    have step : s.endQueuedOf (l :: ls) = (s.endJobs (s.link l).queued .NO_POWER).endQueuedOf ls := rfl
    rw [step]
    generalize s.endJobs (s.link l).queued .NO_POWER = v at dark_ ends each gone ⊢
    obtain ⟨fs, ks, ends', dark', each', queued', gone'⟩ := ih dark_.dark
    refine ⟨es ++ fs, (s.link l).queued ++ ks, ends.trans ends', dark_.trans dark', fun f mem => ?_, fun j mem => ?_,
      fun m mem j queued o there => ?_⟩
    · rcases List.mem_append.mp mem with mem | mem
      · obtain ⟨there, job, out⟩ := each f mem
        exact ⟨there, List.mem_append_left _ job, out⟩
      · obtain ⟨there, job, out⟩ := each' f mem
        exact ⟨dark_.ops _ there, List.mem_append_right _ job, out⟩
    · rcases List.mem_append.mp mem with mem | mem
      · exact ⟨l, mem⟩
      · obtain ⟨m, queued⟩ := queued' j mem
        exact ⟨m, dark_.fewer m j queued⟩
    · by_cases here : j ∈ (s.link l).queued
      · exact fun same => gone o (dark'.ops o there) (same ▸ here)
      · rcases List.mem_cons.mp mem with rfl | mem
        · exact absurd queued here
        · exact gone' m mem j (dark_.others m j queued here) o there

theorem State.endAllQueued_eq (s : State) : s.endAllQueued = s.endQueuedOf s.linkNos := rfl

/-- Entry into DORMANT: the QUEUED operations end NO_POWER and no other; no link is left anything to grant. -/
theorem State.dormant_ends {s : State} (dark : s.dark) (exact_ : s.grantsExact) (alone : s.oneOpEach)
    (placed : ∀ o ∈ s.hce.ops, s.linkFitted o.link = true ∧
      (o.stage = .QUEUED ↔ o.job ∈ (s.link o.link).prio ++ (s.link o.link).bulk))
    (room : s.kli.queue.length + s.runs + 2 * s.hce.ops.length ≤ 64) :
    s.endsThose s.endAllQueued.pass (fun o => decide (o.stage = .QUEUED)) (fun _ => .NO_POWER) ∧
      ∀ o ∈ s.hce.ops, o.stage ≠ .QUEUED → s.endAllQueued.pass.comp o.comp = s.comp o.comp := by
  have jobs : s.JobsOk := (s.grants_iff.mp ⟨exact_, alone⟩).2
  have kept : s.endAllQueued.JobsOk := ((acts_endAllQueued (c := .minuteTick) s).keep
    (P := fun u => u.arb.granted = u.strikeSum ∧ u.JobsOk) (fun _ _ => Act.grants) (s.grants_iff.mp ⟨exact_, alone⟩)).2
  have nos : ∀ {l : Nat}, s.linkFitted l = true → l ∈ s.linkNos := fun fitted => State.mem_linkNos.mpr fitted
  rw [State.endAllQueued_eq] at kept ⊢
  obtain ⟨es, js, ends, dark_, each, queued, gone⟩ := State.endQueuedOf_spec s.linkNos dark
  generalize s.endQueuedOf s.linkNos = v at kept ends dark_ gone ⊢
  have waits : ∀ o ∈ s.hce.ops, o.job ∈ js → o.stage = .QUEUED := fun o mem job => by
    obtain ⟨l, at_⟩ := queued o.job job
    have link := jobs.link_of_queued mem at_
    rw [← link] at at_
    exact (placed o mem).2.mpr at_
  have none_ : ∀ o ∈ v.hce.ops, o.stage ≠ .QUEUED := fun o mem stage => by
    obtain ⟨fitted, at_⟩ := placed o (dark_.ops o mem)
    exact gone o.link (nos fitted) o.job (at_.mp stage) o mem rfl
  have empty : ∀ l, (v.link l).queued = [] := fun l => List.eq_nil_iff_forall_not_mem.mpr fun j there => by
    obtain ⟨o, mem, rfl, link⟩ := kept.queued l j there
    have old := dark_.fewer l o.job there
    have stage := (placed o (dark_.ops o mem)).2.mpr (by rw [link]; exact old)
    exact none_ o mem stage
  obtain ⟨turn, idle⟩ := State.pass_idle (s := v) fun l => State.readyHead_of_empty
    (List.append_eq_nil_iff.mp (empty l)).1 (List.append_eq_nil_iff.mp (empty l)).2
  rw [idle]
  refine ⟨?_, fun o mem stage => ?_⟩
  · exact ends.endsThose jobs.distinct (fun f mem => by
      obtain ⟨there, job, out⟩ := each f mem
      exact ⟨there, decide_eq_true (waits f.1 there job), out⟩) (fun o mem => decide_eq_false (none_ o mem)) room
  · refine dark_.comps o.comp fun y there job same => stage ?_
    have : y = o := List.inj_on_of_nodup_map alone there mem same
    exact this ▸ waits y there job

/-! ### The decision of the mode -/

/-- The state at a change of the mode: the mode, its capacity and MODE_CHANGED (R73, R197). -/
def State.modeTold (s : State) (m : Mode) : State :=
  { s with
    scu := { s.scu with mode := m }
    arb := { s.arb with capacity := capacityOf s.scu.straps m }
    kli := s.kli.post { kind := .MODE_CHANGED, minute := s.now, mode := some m, prevMode := some s.scu.mode } }

theorem State.decideMode_changed {s : State} (changed : s.modeNow ≠ s.scu.mode) : s.decideMode =
    let t := (if s.modeNow = .DORMANT then (s.modeTold s.modeNow).endAllQueued else s.modeTold s.modeNow).pass
    if s.modeNow.onMains ∧ s.scu.mode.onMains = false then ((t.topUpEnd .K1).topUpEnd .K2).pass else t := by
  unfold State.decideMode
  dsimp only
  rw [if_neg changed]
  rfl

theorem State.endQueuedOf_empty (ls : List Nat) : ∀ {s : State}, (∀ l, (s.link l).queued = []) → s.endQueuedOf ls = s := by
  induction ls with
  | nil => exact fun _ => rfl
  | cons l ls ih =>
    intro s empty
    have step : s.endQueuedOf (l :: ls) = (s.endJobs (s.link l).queued .NO_POWER).endQueuedOf ls := rfl
    rw [step, empty l]
    exact ih empty

/-- With nothing queued and no run, a change of the mode posts MODE_CHANGED and at most moves the turn. -/
theorem State.decideMode_idle {s : State} (changed : s.modeNow ≠ s.scu.mode)
    (empty : ∀ l, (s.link l).prio = [] ∧ (s.link l).bulk = []) (calm : s.modeNow.onMains = true ∧ s.scu.mode.onMains = false → s.noRun) :
    ∃ turn, s.decideMode = (s.modeTold s.modeNow).turnedTo turn := by
  have queued : ∀ l, (s.link l).queued = [] := fun l => List.append_eq_nil_iff.mpr (empty l)
  have ended : (if s.modeNow = .DORMANT then (s.modeTold s.modeNow).endAllQueued else s.modeTold s.modeNow) =
      s.modeTold s.modeNow := by
    split
    · exact State.endQueuedOf_empty _ (s := s.modeTold s.modeNow) queued
    · rfl
  have idle : ∀ t, ∃ turn, (((s.modeTold s.modeNow).turnedTo t).pass) = (s.modeTold s.modeNow).turnedTo turn := fun t => by
    obtain ⟨turn, e⟩ := State.pass_idle (s := (s.modeTold s.modeNow).turnedTo t) fun l =>
      State.readyHead_of_empty (empty l).1 (empty l).2
    exact ⟨turn, e⟩
  rw [State.decideMode_changed changed]
  dsimp only
  rw [ended]
  obtain ⟨turn, first⟩ := idle (s.modeTold s.modeNow).arb.turn
  have same : (s.modeTold s.modeNow).turnedTo (s.modeTold s.modeNow).arb.turn = s.modeTold s.modeNow := rfl
  rw [same] at first
  rw [first]
  split
  · rename_i up
    have quiet := calm up
    have topped : (((s.modeTold s.modeNow).turnedTo turn).topUpEnd .K1).topUpEnd .K2 = (s.modeTold s.modeNow).turnedTo turn := by
      rw [State.topUpEnd_none (s := (s.modeTold s.modeNow).turnedTo turn) (k := .K1) quiet.1,
        State.topUpEnd_none (s := (s.modeTold s.modeNow).turnedTo turn) (k := .K2) quiet.2]
    rw [topped]
    exact idle turn
  · exact ⟨turn, rfl⟩

/-! ### MODE (R198) -/

theorem BaseMode.onMains_toMode (b : BaseMode) : b.toMode.onMains = true := by
  cases b <;> rfl

theorem mode_settles (h : ReqHead) (p : List Byte) (m : Nat) (s : State) (a : s.asks h 6 p)
    (parsed : (Codec.below 5).parse p = some m) (small : m ≤ 1) (running : s.scu.phase = none) (ok : s.supplyOk) :
    let b : BaseMode := if m = 0 then .OPEN else .NIGHT
    ∃ t, exec (.mode h p) s = .next t ∧ t.scu.base = b ∧
      t.scu.mode = (if s.scu.mainsGood then b.toMode else s.scu.mode) ∧
      t.arb.capacity = capacityOf s.scu.straps t.scu.mode ∧ t.answers h 6 .OK (.modes b t.scu.mode) ∧
      t.scu = { s.scu with base := b, mode := t.scu.mode } ∧
      (t.scu.mode = s.scu.mode →
        t = { s with scu := { s.scu with base := b }, kli := s.kli.answered h 6 .OK (.modes b s.scu.mode) }) ∧
      (t.scu.mode ≠ s.scu.mode →
        let posted := (s.kli.took h).post
          { kind := .MODE_CHANGED, minute := s.now, mode := some t.scu.mode, prevMode := some s.scu.mode }
        t.passedWith { s with
            scu := t.scu, arb := { s.arb with capacity := capacityOf s.scu.straps t.scu.mode }, kli := posted }
          h 6 .OK (.modes b t.scu.mode) ∧
        ((∀ l, (s.link l).prio = [] ∧ (s.link l).bulk = []) →
          t = { s with
            scu := t.scu, arb := t.arb
            kli := { posted with reply := some (replyTo h 6 .OK (.modes b t.scu.mode)) } } ∧
          t.arb.granted = s.arb.granted)) := by
  intro b
  obtain ⟨mode, capacity⟩ := ok
  have start : (s.took h).starting = false := by
    unfold State.starting
    rw [show (s.took h).scu.phase = none from running]
    rfl
  generalize based : (s.took h).updScu (fun u => { u with base := b }) = w
  have now_ : w.modeNow = if s.scu.mainsGood then b.toMode else s.scu.mode := by
    rw [← based]
    change modeOf s.scu.mainsGood s.scu.batteryLow b = _
    unfold modeOf at mode ⊢
    split
    · rfl
    · rename_i off
      rw [mode, if_neg off]
  have wmode : w.scu.mode = s.scu.mode := by rw [← based]; rfl
  have scu : w.decideMode.scu = { s.scu with base := b, mode := w.modeNow } := by
    rw [State.decideMode_scu, ← based]
    rfl
  have modeAt : w.decideMode.scu.mode = w.modeNow := congrArg Scu.mode scu
  have answer : (s.took h).setBase m = ⟨w.decideMode, .OK, .modes b w.decideMode.scu.mode⟩ := by
    unfold State.setBase
    rw [start, if_neg Bool.false_ne_true, if_neg (by omega), ← based]
  have run : exec (.mode h p) s = .next (s.takeRequest h 6 p (.below 5) fun m s => s.setBase m) := rfl
  rw [State.takeRequest_of a parsed rfl answer (by simp)] at run
  have capacity' : w.decideMode.arb.capacity = capacityOf s.scu.straps w.modeNow := by
    have follows := (State.decideMode_supplyOk (s := w) (by rw [← based]; exact capacity)).2
    rw [modeAt, scu] at follows
    exact follows
  have mains : w.modeNow ≠ w.scu.mode → s.scu.mainsGood = true ∧ s.scu.mode.onMains = true ∧ w.modeNow.onMains = true := fun changed => by
    have good : s.scu.mainsGood = true := by
      by_contra off
      rw [now_, if_neg off, wmode] at changed
      exact changed rfl
    refine ⟨good, ?_, ?_⟩
    · rw [mode]
      unfold modeOf
      rw [if_pos good]
      exact s.scu.base.onMains_toMode
    · rw [now_, if_pos good]
      exact b.onMains_toMode
  refine ⟨_, run, congrArg Scu.base scu, modeAt.trans now_, capacity'.trans (by rw [← modeAt]; rfl), rfl, ?_, fun same => ?_,
    fun other => ?_⟩
  · change w.decideMode.scu = { s.scu with base := b, mode := w.decideMode.scu.mode }
    rw [scu]
  · have same : w.modeNow = s.scu.mode := modeAt.symm.trans same
    rw [State.decideMode_same (same.trans wmode.symm), wmode, ← based]
    rfl
  · have changed : w.modeNow ≠ w.scu.mode := fun same => other (modeAt.trans (same.trans wmode))
    obtain ⟨-, before, after⟩ := mains changed
    have lit : w.modeNow ≠ .DORMANT := fun dormant => by
      rw [dormant] at after
      exact nomatch after
    have passed : w.decideMode = (w.modeTold w.modeNow).pass := by
      rw [State.decideMode_changed changed]
      dsimp only
      rw [if_neg lit, wmode, before]
      exact if_neg fun up => nomatch up.2
    have told : w.modeTold w.modeNow = { s with
        scu := w.decideMode.scu, arb := { s.arb with capacity := capacityOf s.scu.straps w.decideMode.scu.mode }
        kli := (s.kli.took h).post
          { kind := .MODE_CHANGED, minute := s.now, mode := some w.decideMode.scu.mode, prevMode := some s.scu.mode } } := by
      rw [modeAt, scu, ← based]
      rfl
    refine ⟨?_, fun empty => ?_⟩
    · have whole := passed.trans (congrArg State.pass told)
      exact congrArg (fun u : State => u.updKli fun k =>
        { k with reply := some (replyTo h 6 .OK (.modes b w.decideMode.scu.mode)) }) whole
    · obtain ⟨turn, idle⟩ := State.decideMode_idle (s := w) changed (fun l => by rw [← based]; exact empty l) fun up => by
        rw [wmode, before] at up
        exact nomatch up.2
      rw [told] at idle
      refine ⟨?_, (congrArg (fun u : State => u.arb.granted) idle :)⟩
      have frame : w.decideMode = { s with
          scu := w.decideMode.scu, arb := w.decideMode.arb
          kli := (s.kli.took h).post
            { kind := .MODE_CHANGED, minute := s.now, mode := some w.decideMode.scu.mode, prevMode := some s.scu.mode } } :=
        idle.trans (congrArg (fun x => { s with
          scu := w.decideMode.scu, arb := x
          kli := (s.kli.took h).post
            { kind := .MODE_CHANGED, minute := s.now, mode := some w.decideMode.scu.mode, prevMode := some s.scu.mode } })
          (congrArg State.arb idle).symm)
      exact congrArg (fun u : State => u.updKli fun k =>
        { k with reply := some (replyTo h 6 .OK (.modes b w.decideMode.scu.mode)) }) frame

/-! ### The levels (R197) -/

/-- The mode on mains comes with the base mode alone, so a level that changes it brings the mains. -/
theorem Mode.onMains_iff (m : Mode) : m.onMains = true ↔ m = .OPEN ∨ m = .NIGHT := by
  cases m <;> decide

theorem level_settles (b : Bool) (c : Instr) (u : Scu) (s : State) (ok : s.supplyOk)
    (level : (c = .mainsGoodChange b ∧ u = { s.scu with mainsGood := b }) ∨
      (c = .batteryLowChange b ∧ u = { s.scu with batteryLow := b })) :
    let m := if u.mainsGood then u.base.toMode else if u.batteryLow then .DORMANT else .BATTERY
    ∃ t, exec c s = .next t ∧ t.scu = { u with mode := m } ∧ t.arb.capacity = capacityOf s.scu.straps m ∧
      t.sects = s.sects ∧ t.hatchMap = s.hatchMap ∧ t.gates = s.gates ∧
      (m = s.scu.mode → t = { s with scu := u }) ∧
      (m ≠ s.scu.mode → (∀ l, (s.link l).prio = [] ∧ (s.link l).bulk = []) → s.swu.k1.run = none →
        s.swu.k2.run = none →
        t = { s with scu := t.scu, arb := t.arb, kli := (s.kli.post
          { kind := .MODE_CHANGED, minute := s.now, mode := some m, prevMode := some s.scu.mode }) } ∧
        t.arb.granted = s.arb.granted) ∧
      (m ≠ s.scu.mode →
        let v := { s with
          scu := { u with mode := m }
          arb := { s.arb with capacity := capacityOf s.scu.straps m }
          kli := s.kli.post { kind := .MODE_CHANGED, minute := s.now, mode := some m, prevMode := some s.scu.mode } }
        (m = .BATTERY → t = v.pass) ∧
        (m = .OPEN ∨ m = .NIGHT → t = ((v.pass.topUpEnd .K1).topUpEnd .K2).pass) ∧
        (m = .DORMANT → s.grantsExact → s.oneOpEach →
          (∀ o ∈ s.hce.ops, s.linkFitted o.link = true ∧
            (o.stage = .QUEUED ↔ o.job ∈ (s.link o.link).prio ++ (s.link o.link).bulk)) →
          s.kli.queue.length + 2 * s.hce.ops.length + 3 ≤ 64 →
          s.endsThose t (fun o => decide (o.stage = .QUEUED)) (fun _ => .NO_POWER) ∧
          ∀ o ∈ s.hce.ops, o.stage ≠ .QUEUED → t.comp o.comp = s.comp o.comp)) := by
  intro m
  obtain ⟨mode, capacity⟩ := ok
  obtain ⟨run, same, straps, minute, base⟩ : exec c s = .next ({ s with scu := u } : State).decideMode ∧ u.mode = s.scu.mode ∧
      u.straps = s.scu.straps ∧ u.minute = s.scu.minute ∧ (m.onMains = true → m ≠ s.scu.mode → s.scu.mode.onMains = false) := by
    have off : s.scu.mainsGood = false → s.scu.mode.onMains = false := fun dark => by
      rw [mode]
      unfold modeOf
      rw [dark, if_neg Bool.false_ne_true]
      split <;> rfl
    rcases level with ⟨rfl, rfl⟩ | ⟨rfl, rfl⟩
    · refine ⟨rfl, rfl, rfl, rfl, fun up changed => ?_⟩
      by_cases good : s.scu.mainsGood = true
      · have here : s.scu.mode = s.scu.base.toMode := by
          rw [mode]
          exact if_pos good
        cases b with
        | true => exact absurd here.symm changed
        | false =>
          have dark : m.onMains = false := by
            change Mode.onMains (if s.scu.batteryLow then .DORMANT else .BATTERY) = false
            split <;> rfl
          rw [dark] at up
          exact nomatch up
      · exact off (Bool.eq_false_iff.mpr good)
    · refine ⟨rfl, rfl, rfl, rfl, fun up changed => ?_⟩
      by_cases good : s.scu.mainsGood = true
      · have here : s.scu.mode = s.scu.base.toMode := by
          rw [mode]
          exact if_pos good
        have there : m = s.scu.base.toMode := if_pos good
        exact absurd (there.trans here.symm) changed
      · exact off (Bool.eq_false_iff.mpr good)
  refine ⟨_, run, ?_⟩
  generalize based : ({ s with scu := u } : State) = w
  have now_ : w.modeNow = m := by rw [← based]; rfl
  have wmode : w.scu.mode = s.scu.mode := by rw [← based]; exact same
  have follows := State.decideMode_supplyOk (s := w) (by
    unfold State.capacityFollows
    rw [← based]
    dsimp only
    rw [straps, same]
    exact capacity)
  have scu : w.decideMode.scu = { u with mode := m } := by
    rw [State.decideMode_scu, now_, ← based]
  have capacity' : w.decideMode.arb.capacity = capacityOf s.scu.straps m := by
    rw [follows.2, scu, ← straps]
  have changed : m ≠ s.scu.mode → w.modeNow ≠ w.scu.mode := fun other => by
    rw [now_, wmode]
    exact other
  have told : w.modeTold w.modeNow = { s with
      scu := { u with mode := m }
      arb := { s.arb with capacity := capacityOf s.scu.straps m }
      kli := s.kli.post { kind := .MODE_CHANGED, minute := s.now, mode := some m, prevMode := some s.scu.mode } } := by
    have minute' : w.now = s.now := by rw [← based]; exact minute
    have straps' : w.scu.straps = s.scu.straps := by rw [← based]; exact straps
    unfold State.modeTold
    rw [now_, wmode, minute', straps', ← based]
  have still : w.decideMode.sects = s.sects ∧ w.decideMode.hatchMap = s.hatchMap ∧ w.decideMode.gates = s.gates := by
    have fields : w.sects = s.sects ∧ w.hatchMap = s.hatchMap ∧ w.gates = s.gates := by
      rw [← based]
      exact ⟨rfl, rfl, rfl⟩
    by_cases stays : w.modeNow = w.scu.mode
    · rw [State.decideMode_same stays]
      exact fields
    · have kept := kept_decideMode stays
      exact ⟨kept.sects.trans fields.1, kept.hatchMap.trans fields.2.1, kept.gates.trans fields.2.2⟩
  refine ⟨scu, capacity', still.1, still.2.1, still.2.2, fun stays => ?_, fun other empty quiet1 quiet2 => ?_, fun other => ?_⟩
  · rw [State.decideMode_same (now_.trans (stays.trans wmode.symm))]
  · obtain ⟨turn, idle⟩ := State.decideMode_idle (changed other) (fun l => by rw [← based]; exact empty l)
      fun _ => by rw [← based]; exact ⟨quiet1, quiet2⟩
    rw [told] at idle
    rw [idle]
    exact ⟨rfl, rfl⟩
  · have decided := State.decideMode_changed (changed other)
    rw [told, now_, wmode] at decided
    generalize made : ({ s with
      scu := { u with mode := m }
      arb := { s.arb with capacity := capacityOf s.scu.straps m }
      kli := s.kli.post { kind := .MODE_CHANGED, minute := s.now, mode := some m, prevMode := some s.scu.mode } } : State) = v at decided
    intro v'
    have same_ : v' = v := rfl
    rw [same_]
    refine ⟨fun battery => ?_, fun lit => ?_, fun dormant exact_ alone placed room => ?_⟩
    · rw [decided, battery]
      rfl
    · have up := (Mode.onMains_iff m).mpr lit
      have lit' : m ≠ .DORMANT := fun dormant => by
        rw [dormant] at up
        exact nomatch up
      rw [decided]
      dsimp only
      rw [if_neg lit', if_pos ⟨up, base up other⟩]
    · have passed : w.decideMode = v.endAllQueued.pass := by
        rw [decided, dormant]
        rfl
      have runs : v.runs ≤ 2 := by
        unfold State.runs
        split <;> split <;> omega
      have length := s.kli.length_post_le { kind := .MODE_CHANGED, minute := s.now, mode := some m, prevMode := some s.scu.mode }
      have ends := State.dormant_ends (s := v) (by rw [← made]; exact .inr dormant) (by rw [← made]; exact exact_)
        (by rw [← made]; exact alone) (by
          rw [← made]
          intro o mem
          have fitted := (placed o mem).1
          unfold State.linkFitted State.numLinks at fitted ⊢
          dsimp only
          rw [straps]
          exact ⟨fitted, (placed o mem).2⟩) (by
          have queue : v.kli.queue.length ≤ s.kli.queue.length + 1 := by rw [← made]; exact length
          have ops : v.hce.ops = s.hce.ops := by rw [← made]
          rw [ops]
          omega)
      rw [passed]
      have ops : v.hce.ops = s.hce.ops := by rw [← made]
      have comps : v.comps = s.comps := by rw [← made]
      unfold State.endsThose at ends ⊢
      rw [ops] at ends
      refine ⟨ends.1, fun o mem stage => ?_⟩
      rw [ends.2 o mem stage, State.comp_of_comps comps]

/-- Settles O25. -/
theorem modeFollowsTheInputsAndTheBaseMode : Obligations.ModeFollowsTheInputsAndTheBaseMode := by
  refine ⟨mode_settles, fun b c u s ok level => level_settles b c u s ok level, fun k s =>
    ⟨rfl, fun off => State.topUp_off off, fun r mains run => ?_⟩⟩
  obtain ⟨gone, rest, made, pending, topped, stops, -⟩ := topUpOver_spec k r.pending s { made := 0, dropped := 0 } r run rfl
  rw [State.topUp_on mains run]
  exact ⟨gone, rest, made, State.toppedUp_of pending topped stops⟩

end Sys2Proof.Machine
end

