-- ==== Sys2Proof/Proofs/FactoryClear.lean ====
section
/-! CONFIG and FACTORY_CLEAR (R205, R206). -/

namespace Sys2Proof.Machine

open Sys2Proof

/-! ### A part with no operation and no tag -/

theorem State.opByJob_of_noOps {s : State} (none_ : s.hce.ops = []) (j : Nat) : s.opByJob j = none := by
  unfold State.opByJob
  rw [none_]
  rfl

theorem State.readyHead_of_noOps {s : State} (none_ : s.hce.ops = []) (l : Nat) : s.readyHead l = none := by
  unfold State.readyHead
  dsimp only
  split
  · rfl
  · split
    · exact State.opByJob_of_noOps none_ _
    · split
      · split
        · exact State.opByJob_of_noOps none_ _
        · rfl
      · rfl

theorem State.pass_noOps {s : State} (none_ : s.hce.ops = []) : ∃ turn, s.pass = s.turnedTo turn :=
  State.pass_idle (State.readyHead_of_noOps none_)

theorem State.endJobs_noOps {s : State} (none_ : s.hce.ops = []) (out : CycleOutcome) (js : List Nat) : s.endJobs js out = s := by
  induction js with
  | nil => rfl
  | cons j js ih =>
    have step : s.endJobs (j :: js) out = (s.endJob j out).endJobs js out := rfl
    rw [step, State.endJob_none (State.opByJob_of_noOps none_ j), ih]

theorem State.endQueuedOf_noOps {s : State} (none_ : s.hce.ops = []) (ls : List Nat) : s.endQueuedOf ls = s := by
  induction ls with
  | nil => rfl
  | cons l ls ih =>
    have step : s.endQueuedOf (l :: ls) = (s.endJobs (s.link l).queued .NO_POWER).endQueuedOf ls := rfl
    rw [step, State.endJobs_noOps none_, ih]

/-- Where no compartment is tagged, a top-up drops the whole pending list and touches its run alone. -/
theorem State.topUpOver_untagged (k : Courier) (es : List TagEntry) : ∀ {s : State} (t : TopUp), (∀ n, (s.comp n).tagOwner = none) →
    (topUpOver k es s t).1 = { s with swu := (topUpOver k es s t).1.swu } := by
  induction es with
  | nil => exact fun _ _ => rfl
  | cons e es ih =>
    intro s t untagged
    have untested : s.tested k e = false := Bool.eq_false_iff.mpr fun tested => by
      have owner := State.tested_owner tested
      rw [untagged] at owner
      exact nomatch owner
    have same : s.updComp e.comp (fun x => { x with tagOwner := none }) = s :=
      State.updComp_same (by
        have owner := untagged e.comp
        generalize s.comp e.comp = c at owner ⊢
        obtain ⟨_, _, _, _, _, _, _, _, _, _⟩ := c
        cases owner
        rfl)
    have dropped : s.dropPending k e.comp es = { s with swu := (s.dropPending k e.comp es).swu } := by
      unfold State.dropPending
      rw [same]
      exact s.updRun_frame k _
    have comps : ∀ n, (s.dropPending k e.comp es).comp n = s.comp n := fun n => by
      rw [dropped]
      rfl
    have rest := ih { t with dropped := t.dropped + 1 } (s := s.dropPending k e.comp es) fun n => by rw [comps]; exact untagged n
    rw [topUpOver_untested untested]
    obtain ⟨a, first⟩ : ∃ a, s.dropPending k e.comp es = { s with swu := a } := ⟨_, dropped⟩
    rw [rest, first]

theorem State.topUpEnd_untagged {s : State} (k : Courier) (untagged : ∀ n, (s.comp n).tagOwner = none) :
    s.topUpEnd k = { s with swu := (s.topUpEnd k).swu, kli := (s.topUpEnd k).kli } := by
  obtain ⟨a, topped⟩ : ∃ a, (s.topUp k).1 = { s with swu := a } := by
    unfold State.topUp
    split
    · exact ⟨s.swu, rfl⟩
    · split
      · exact ⟨_, State.topUpOver_untagged k _ _ untagged⟩
      · exact ⟨s.swu, rfl⟩
  obtain ⟨b, c, ended⟩ : ∃ b c, (s.topUp k).1.endRun k = { (s.topUp k).1 with swu := b, kli := c } :=
    ⟨_, _, (s.topUp k).1.endRun_frame k⟩
  unfold State.topUpEnd
  rw [ended, topped]

/-- The decision of the mode on such a part. -/
theorem State.decideMode_bare {s : State} (none_ : s.hce.ops = []) (untagged : ∀ n, (s.comp n).tagOwner = none) :
    let t := s.decideMode
    t = { s with scu := { s.scu with mode := s.modeNow }, arb := t.arb, swu := t.swu, kli := t.kli } ∧
    t.arb.granted = s.arb.granted ∧ t.kli.mask = s.kli.mask ∧
    (s.modeNow ≠ s.scu.mode → s.scu.mode.onMains = true →
      t.kli = s.kli.post { kind := .MODE_CHANGED, minute := s.now, mode := some s.modeNow, prevMode := some s.scu.mode }) := by
  intro t
  by_cases stays : s.modeNow = s.scu.mode
  · have same : t = s := State.decideMode_same stays
    rw [same]
    exact ⟨by rw [stays], rfl, rfl, fun other => absurd stays other⟩
  · have mask : t.kli.mask = s.kli.mask := (kept_decideMode stays).mask
    have changed := State.decideMode_changed stays
    have ended : (if s.modeNow = .DORMANT then (s.modeTold s.modeNow).endAllQueued else s.modeTold s.modeNow) =
        s.modeTold s.modeNow := by
      split
      · exact State.endQueuedOf_noOps (s := s.modeTold s.modeNow) none_ _
      · rfl
    obtain ⟨turn, passed⟩ := State.pass_noOps (s := s.modeTold s.modeNow) none_
    dsimp only at changed
    rw [ended, passed] at changed
    split at changed
    · rename_i up
      obtain ⟨a, b, first⟩ : ∃ a b, ((s.modeTold s.modeNow).turnedTo turn).topUpEnd .K1 =
          { (s.modeTold s.modeNow).turnedTo turn with swu := a, kli := b } :=
        ⟨_, _, State.topUpEnd_untagged (s := (s.modeTold s.modeNow).turnedTo turn) .K1 untagged⟩
      rw [first] at changed
      obtain ⟨a', b', second⟩ : ∃ a' b', ({ (s.modeTold s.modeNow).turnedTo turn with swu := a, kli := b } : State).topUpEnd .K2 =
          { (s.modeTold s.modeNow).turnedTo turn with swu := a', kli := b' } :=
        ⟨_, _, State.topUpEnd_untagged (s := { (s.modeTold s.modeNow).turnedTo turn with swu := a, kli := b }) .K2 untagged⟩
      rw [second] at changed
      obtain ⟨turn', last⟩ := State.pass_noOps (s := { (s.modeTold s.modeNow).turnedTo turn with swu := a', kli := b' }) none_
      have whole : t = _ := changed.trans last
      refine ⟨?_, ?_, mask, fun _ mains => ?_⟩
      · rw [whole]
        rfl
      · rw [whole]
        rfl
      · rw [mains] at up
        exact nomatch up.2
    · have whole : t = _ := changed
      refine ⟨?_, ?_, mask, fun _ _ => ?_⟩
      · rw [whole]
        rfl
      · rw [whole]
        rfl
      · rw [whole]
        rfl

/-! ### The slots (R48) -/

/-- A slot as FACTORY_CLEAR leaves it. -/
def Slot.forgotten (x : Slot) : Slot :=
  match x.state with
  | .PRESENT => { x with commissioned := none }.enter .NEW
  | .OFFLINE => { Slot.empty with late := x.late }
  | .EMPTY | .NEW | .CONFLICT => { x with commissioned := none }

theorem Slot.forgotten_cases (x : Slot) :
    (x.state = .PRESENT → x.forgotten = { x with commissioned := none }.enter .NEW) ∧
    (x.state = .OFFLINE → x.forgotten = { Slot.empty with late := x.late }) ∧
    (x.state = .EMPTY ∨ x.state = .NEW ∨ x.state = .CONFLICT → x.forgotten = { x with commissioned := none }) := by
  obtain ⟨st, _, _, _, _, _, _, _, _⟩ := x
  cases st <;> simp [Slot.forgotten]

/-- BOARD_CHANGED of a slot that FACTORY_CLEAR makes NEW (log entry 15). -/
def State.boardForgotten (s : State) (p : Nat × Nat) : EventRec :=
  { kind := .BOARD_CHANGED, minute := s.now, link := some p.1, slot := some p.2, slotState := some .NEW,
    serial := (s.slot p.1 p.2).serial }

/-- The BOARD_CHANGED records of the slots `ps`. -/
def State.boardsForgotten (s : State) (ps : List (Nat × Nat)) : List EventRec :=
  (ps.filter fun p => decide ((s.slot p.1 p.2).state = .PRESENT)).map s.boardForgotten

/-- The slots `ps` have been cleared. -/
structure State.Forgets (s t : State) (ps : List (Nat × Nat)) : Prop where
  frame : t = { s with links := t.links, arb := t.arb, kli := t.kli }
  granted : t.arb.granted ≤ s.arb.granted
  slots : ∀ m j, t.slot m j = if (m, j) ∈ ps then (s.slot m j).forgotten else s.slot m j
  kli : t.kli = (s.boardsForgotten ps).foldl Kli.post s.kli

theorem State.Forgets.refl (s : State) : s.Forgets s [] := ⟨rfl, Nat.le_refl _, fun _ _ => rfl, rfl⟩

theorem State.Forgets.trans {s v t : State} {ps qs : List (Nat × Nat)} (h : s.Forgets v ps) (h' : v.Forgets t qs)
    (apart : ∀ q ∈ qs, q ∉ ps) : s.Forgets t (ps ++ qs) where
  frame := by
    obtain ⟨a, b, c, e⟩ : ∃ a b c, v = { s with links := a, arb := b, kli := c } := ⟨_, _, _, h.frame⟩
    obtain ⟨a', b', c', e'⟩ : ∃ a b c, t = { v with links := a, arb := b, kli := c } := ⟨_, _, _, h'.frame⟩
    rw [e', e]
  granted := h'.granted.trans h.granted
  slots m j := by
    rw [h'.slots, h.slots]
    by_cases second : (m, j) ∈ qs
    · rw [if_pos second, if_neg (apart _ second), if_pos (List.mem_append_right _ second)]
    · rw [if_neg second]
      exact if_congr ⟨List.mem_append_left _, fun mem => (List.mem_append.mp mem).resolve_right second⟩ rfl rfl
  kli := by
    have now_ : v.now = s.now := (congrArg State.now h.frame :)
    have same : v.boardsForgotten qs = s.boardsForgotten qs := by
      have read : ∀ q ∈ qs, v.slot q.1 q.2 = s.slot q.1 q.2 := fun q mem => by
        rw [h.slots, if_neg (apart q mem)]
      unfold State.boardsForgotten
      rw [List.filter_congr fun q mem => by rw [read q mem]]
      refine List.map_congr_left fun q mem => ?_
      unfold State.boardForgotten
      rw [read q (List.mem_filter.mp mem).1, now_]
    rw [h'.kli, h.kli, same, ← List.foldl_append]
    unfold State.boardsForgotten
    rw [List.filter_append, List.map_append]

theorem State.slotLost_noOps {s : State} (none_ : s.hce.ops = []) (l k : Nat) : s.slotLost l k = s.strikeSlotLost l k := by
  have empty : s.opsAt l k = [] := List.eq_nil_iff_forall_not_mem.mpr fun o mem => by
    have := (State.mem_opsAt.mp mem).1
    rw [none_] at this
    exact nomatch this
  unfold State.slotLost
  rw [empty]
  rfl

theorem State.granted_strikeSlotLost (s : State) (l k : Nat) : (s.strikeSlotLost l k).arb.granted ≤ s.arb.granted := by
  unfold State.strikeSlotLost
  cases strike : (s.link l).strike with
  | none => exact Nat.le_refl _
  | some x =>
    dsimp only
    split
    · split
      · exact Nat.le_refl _
      · split
        · exact Nat.le_refl _
        · rw [State.granted_dropStrike strike]
          exact Nat.sub_le _ _
    · exact Nat.le_refl _

theorem State.clearSlot_forgets {s : State} (none_ : s.hce.ops = []) {l k : Nat} (known : 1 ≤ l ∧ l ≤ 4) (slot : 1 ≤ k ∧ k ≤ 8) :
    s.Forgets (s.clearSlot l k) [(l, k)] := by
  have read : ∀ f m j, (s.updSlot l k f).slot m j = if (m, j) ∈ [(l, k)] then f (s.slot l k) else s.slot m j := fun f m j => by
    rw [State.slot_updSlot s known]
    exact if_congr ⟨fun h => List.mem_singleton.mpr (Prod.ext h.1 h.2.1), fun h => by
      obtain ⟨rfl, rfl⟩ := Prod.mk.inj (List.mem_singleton.mp h)
      exact ⟨rfl, rfl, slot⟩⟩ rfl rfl
  have written : ∀ f, (s.slot l k).forgotten = f (s.slot l k) → ∀ m j, (s.updSlot l k f).slot m j =
      if (m, j) ∈ [(l, k)] then (s.slot m j).forgotten else s.slot m j := fun f same m j => by
    rw [read]
    split
    · rename_i here
      obtain ⟨rfl, rfl⟩ := Prod.mk.inj (List.mem_singleton.mp here)
      exact same.symm
    · rfl
  have quiet : (s.slot l k).state ≠ .PRESENT → s.boardsForgotten [(l, k)] = [] := fun absent => by
    unfold State.boardsForgotten
    rw [List.filter_cons_of_neg (by simpa using absent)]
    rfl
  unfold State.clearSlot
  dsimp only
  cases state : (s.slot l k).state with
  | PRESENT =>
    have forgotten := (s.slot l k).forgotten_cases.1 state
    have slots := written (fun x => { x with commissioned := none }.enter .NEW) forgotten
    generalize posted : (s.updSlot l k fun x => { x with commissioned := none }.enter .NEW).postBoardChanged l k
      (s.slot l k).serial = v
    have lost := State.slotLost_noOps (s := v) (by rw [← posted]; exact none_) l k
    have frame := v.strikeSlotLost_frame l k
    have granted := v.granted_strikeSlotLost l k
    have told : v = { s with links := v.links, kli := (s.boardsForgotten [(l, k)]).foldl Kli.post s.kli } := by
      have event : s.boardsForgotten [(l, k)] = [s.boardForgotten (l, k)] := by
        unfold State.boardsForgotten
        rw [List.filter_cons_of_pos (by simpa using state)]
        rfl
      have now : ((s.updSlot l k fun x => { x with commissioned := none }.enter .NEW).slot l k).state = .NEW := by
        rw [read, if_pos (List.mem_singleton.mpr rfl)]
        rfl
      rw [event, ← posted]
      unfold State.postBoardChanged
      rw [now]
      rfl
    have slots' : ∀ m j, v.slot m j = if (m, j) ∈ [(l, k)] then (s.slot m j).forgotten else s.slot m j := fun m j => by
      rw [← slots m j, ← posted]
      rfl
    have kept := kept_slotLost v l k
    rw [lost] at kept ⊢
    refine ⟨?_, ?_, fun m j => ?_, ?_⟩
    · obtain ⟨a, b, e⟩ : ∃ a b, v.strikeSlotLost l k = { v with links := a, arb := b } := ⟨_, _, frame⟩
      rw [e, told]
    · rw [told] at granted ⊢
      exact granted
    · rw [kept.slot, slots']
    · rw [frame, told]
  | OFFLINE =>
    have forgotten := (s.slot l k).forgotten_cases.2.1 state
    refine ⟨rfl, Nat.le_refl _, written (fun x => { Slot.empty with late := x.late }) forgotten, ?_⟩
    rw [quiet (by rw [state]; decide)]
    rfl
  | EMPTY | NEW | CONFLICT =>
    have forgotten := (s.slot l k).forgotten_cases.2.2 (by simp [state])
    refine ⟨rfl, Nat.le_refl _, written (fun x => { x with commissioned := none }) forgotten, ?_⟩
    rw [quiet (by rw [state]; decide)]
    rfl

theorem State.clearSlots_forgets (l : Nat) (known : 1 ≤ l ∧ l ≤ 4) (ks : List Nat) : ∀ {s : State}, s.hce.ops = [] → ks.Nodup →
    (∀ k ∈ ks, 1 ≤ k ∧ k ≤ 8) → s.Forgets (ks.foldl (fun s k => s.clearSlot l k) s) (ks.map fun k => (l, k)) := by
  induction ks with
  | nil => exact fun _ _ _ => State.Forgets.refl _
  | cons k ks ih =>
    intro s none_ nodup inside
    obtain ⟨out, nodup⟩ := List.nodup_cons.mp nodup
    have first := State.clearSlot_forgets none_ known (inside k List.mem_cons_self)
    have rest := ih (s := s.clearSlot l k) ((congrArg (fun u : State => u.hce.ops) first.frame :).trans none_) nodup
      fun j mem => inside j (List.mem_cons_of_mem _ mem)
    refine first.trans rest fun q mem => ?_
    obtain ⟨j, there, rfl⟩ := List.mem_map.mp mem
    exact fun same => out ((Prod.mk.inj (List.mem_singleton.mp same)).2 ▸ there)

theorem State.clearLink_forgets {s : State} (none_ : s.hce.ops = []) {l : Nat} (known : 1 ≤ l ∧ l ≤ 4) :
    s.Forgets (s.clearLink l) (slotNos.map fun k => (l, k)) := by
  have first := State.clearSlots_forgets l known slotNos none_ (by decide) fun k mem => slotNos_range.mp mem
  unfold State.clearLink
  generalize slotNos.foldl (fun s k => s.clearSlot l k) s = v at first ⊢
  have last : v.Forgets (v.updLink l fun x => { x with rollTimer := false }) [] := by
    refine ⟨rfl, Nat.le_refl _, fun m j => ?_, rfl⟩
    unfold State.slot
    rw [State.link_updLink]
    split
    · rename_i here
      rw [here.1]
      rfl
    · rfl
  simpa using first.trans last fun q mem => nomatch mem

theorem State.clearLinks_forgets (ls : List Nat) : ∀ {s : State}, s.hce.ops = [] → ls.Nodup → (∀ l ∈ ls, 1 ≤ l ∧ l ≤ 4) →
    s.Forgets (ls.foldl State.clearLink s) (ls.flatMap fun l => slotNos.map fun k => (l, k)) := by
  induction ls with
  | nil => exact fun _ _ _ => State.Forgets.refl _
  | cons l ls ih =>
    intro s none_ nodup inside
    obtain ⟨out, nodup⟩ := List.nodup_cons.mp nodup
    have first := State.clearLink_forgets none_ (inside l List.mem_cons_self)
    have rest := ih (s := s.clearLink l) ((congrArg (fun u : State => u.hce.ops) first.frame :).trans none_) nodup
      fun j mem => inside j (List.mem_cons_of_mem _ mem)
    refine first.trans rest fun q mem same => ?_
    obtain ⟨m, there, at_⟩ := List.mem_flatMap.mp mem
    obtain ⟨j, -, rfl⟩ := List.mem_map.mp at_
    obtain ⟨j', -, same⟩ := List.mem_map.mp same
    exact out ((Prod.mk.inj same).1 ▸ there)

/-- The slots of the four links. -/
def allSlots : List (Nat × Nat) := (List.range' 1 4).flatMap fun l => slotNos.map fun k => (l, k)

theorem mem_allSlots {p : Nat × Nat} : p ∈ allSlots ↔ (1 ≤ p.1 ∧ p.1 ≤ 4) ∧ 1 ≤ p.2 ∧ p.2 ≤ 8 := by
  obtain ⟨l, k⟩ := p
  unfold allSlots
  simp only [List.mem_flatMap, List.mem_map, List.mem_range'_1, slotNos_range, Prod.mk.injEq]
  constructor
  · rintro ⟨l', known, k', slot, rfl, rfl⟩
    exact ⟨⟨known.1, by omega⟩, slot⟩
  · exact fun ⟨known, slot⟩ => ⟨l, ⟨known.1, by omega⟩, k, slot, rfl, rfl⟩

/-! ### FACTORY_CLEAR (R206) -/

theorem State.slot_outside (s : State) {l k : Nat} (out : (l, k) ∉ allSlots) : s.slot l k = Slot.empty := by
  by_cases slot : 1 ≤ k ∧ k ≤ 8
  · have line : ¬ (1 ≤ l ∧ l ≤ 4) := fun known => out (mem_allSlots.mpr ⟨known, slot⟩)
    unfold State.slot
    rw [State.link_outside s line]
    obtain ⟨j, rfl⟩ : ∃ j, k = j + 1 := ⟨k - 1, by omega⟩
    change (Vector.replicate 8 Slot.empty)[j]?.getD Slot.empty = Slot.empty
    rw [Vector.getElem?_replicate]
    split <;> rfl
  · exact Link.slotAt_outside _ slot

/-- An entry of a table is one that a number names. -/
theorem exists_tget_of_mem {α : Type} {n : Nat} {v : Vector α n} {x : α} (d : α) (mem : x ∈ v.toList) : ∃ i, tget v d i = x := by
  obtain ⟨i, inside, rfl⟩ := List.mem_iff_getElem.mp mem
  refine ⟨i + 1, ?_⟩
  have inside' : i < n := by simpa using inside
  simp [tget, inside']

theorem State.holdsMoney_false {s : State} (parcels : ∀ n, (s.comp n).parcel = none)
    (charges : ∀ r, (s.reader r).charge = none) (reversals : s.pbc.reversals = []) : s.holdsMoney = false := by
  have first : s.comps.toList.any (fun c => c.parcel.isSome) = false := List.any_eq_false.mpr fun c mem => by
    obtain ⟨n, rfl⟩ := exists_tget_of_mem Compartment.factory mem
    rw [show (tget s.comps Compartment.factory n).parcel = none from parcels n]
    exact Bool.noConfusion
  have second : s.pbc.readers.toList.any (fun x => x.charge.isSome) = false := List.any_eq_false.mpr fun c mem => by
    obtain ⟨n, rfl⟩ := exists_tget_of_mem Reader.empty mem
    rw [show (tget s.pbc.readers Reader.empty n).charge = none from charges n]
    exact Bool.noConfusion
  unfold State.holdsMoney
  rw [first, second, reversals]
  rfl

/-- The part with its retained state at the factory values and its slots cleared, the mode not yet decided again. -/
def State.forgotten (s : State) : State := (List.range' 1 4).foldl State.clearLink s.factoryBlocks

theorem State.factoryClear_clears {s : State} (serves : s.serves) (parcels : ∀ n, (s.comp n).parcel = none)
    (charges : ∀ r, (s.reader r).charge = none) (reversals : s.pbc.reversals = []) (none_ : s.hce.ops = []) :
    s.factoryClear = ⟨s.forgotten.decideMode, .OK, .empty⟩ := by
  unfold State.factoryClear
  rw [State.serviceCheck_served serves]
  dsimp only
  rw [State.holdsMoney_false parcels charges reversals, none_]
  rfl

theorem State.comp_factoryBlocks_eq (s : State) (n : Nat) :
    s.factoryBlocks.comp n = { Compartment.factory with hatchCount := (s.comp n).hatchCount } := by
  have read : s.factoryBlocks.comp n = tget (s.comps.map Compartment.cleared) Compartment.factory n := rfl
  rw [read, tget_map]
  by_cases known : 1 ≤ n ∧ n ≤ 240
  · rw [if_pos known]
    rfl
  · rw [if_neg known, s.comp_outside known]

/-- What FACTORY_CLEAR leaves before the mode is decided again. -/
theorem State.forgotten_spec {s : State} (none_ : s.hce.ops = []) : s.factoryBlocks.Forgets s.forgotten allSlots :=
  State.clearLinks_forgets (List.range' 1 4) none_ (by decide) fun l mem => by
    rw [List.mem_range'_1] at mem
    omega

theorem Slot.forgotten_spec (x : Slot) : x.forgotten.commissioned = none ∧ (x.state = .PRESENT → x.forgotten.state = .NEW) ∧
    (x.state = .OFFLINE → x.forgotten.state = .EMPTY) := by
  obtain ⟨st, _, _, _, _, _, _, _, _⟩ := x
  cases st <;> simp [Slot.forgotten, Slot.enter, Slot.empty]

theorem State.length_boardsForgotten (s : State) : (s.boardsForgotten allSlots).length ≤ 32 := by
  unfold State.boardsForgotten
  rw [List.length_map]
  exact (List.length_filter_le _ _).trans (by decide)

theorem Kli.mask_posts (es : List EventRec) : ∀ k : Kli, (es.foldl Kli.post k).mask = k.mask := by
  induction es with
  | nil => exact fun _ => rfl
  | cons e es ih =>
    intro k
    have first : (k.post e).mask = k.mask := by
      unfold Kli.post
      split <;> rfl
    rw [List.foldl_cons, ih, first]

theorem factoryClear_settles (h : ReqHead) (p : List Byte) (s : State) (a : s.asks h 41 p) (blank : p.length = 1)
    (serves : s.serves) (parcels : ∀ n, (s.comp n).parcel = none) (charges : ∀ r, (s.reader r).charge = none)
    (reversals : s.pbc.reversals = []) (none_ : s.hce.ops = []) :
    ∃ t, exec (.factoryClear h p) s = .next t ∧ t.answers h 41 .OK .empty ∧
      (∀ n, t.comp n = { Compartment.factory with hatchCount := (s.comp n).hatchCount }) ∧
      (∀ i, t.sect i = Sect.factory) ∧ (∀ n, t.mapEntry n = none) ∧ t.capture = { held := none, further := 0 } ∧
      t.alloc.retired = [] ∧ (∀ i, t.page i = none ∧ t.pageRefs i = 0) ∧ t.tariff.active = 0 ∧
      t.tariff.scheduled = none ∧ t.pbc = { s.pbc with refCounter := 0 } ∧ t.scu.config = ConfigVals.factory ∧
      t.scu.base = .OPEN ∧ t.scu.wallOffset = 0 ∧ t.scu.minute = s.scu.minute ∧ t.scu.persisted = s.scu.persisted ∧
      t.scu.timeGap = s.scu.timeGap ∧ t.scu = { s.scu with
        config := ConfigVals.factory, base := .OPEN, wallOffset := 0
        mode := modeOf s.scu.mainsGood s.scu.batteryLow .OPEN } ∧ t.kli.mask = ClassSet.all ∧
      (s.supplyOk → s.kli.queue.length + 33 ≤ 64 →
        (∀ l k, (s.slot l k).state = .PRESENT →
          { kind := .BOARD_CHANGED, minute := s.now, link := some l, slot := some k, slotState := some .NEW
            serial := (s.slot l k).serial } ∈ t.kli.queue) ∧
        (s.scu.mainsGood = true → s.scu.base = .NIGHT → t.kli.queue.getLast? =
          some { kind := .MODE_CHANGED, minute := s.now, mode := some .OPEN, prevMode := some .NIGHT }) ∧
        (s.scu.mainsGood = false ∨ s.scu.base = .OPEN → t.scu.mode = s.scu.mode ∧
          ∀ e ∈ t.kli.queue, e ∈ s.kli.queue ∨ e.kind = .BOARD_CHANGED)) ∧
      t.gates = s.gates ∧ t.hce.ops = [] ∧ t.arb.granted ≤ s.arb.granted ∧
      (∀ l k, (t.slot l k).commissioned = none ∧ ((s.slot l k).state = .PRESENT → (t.slot l k).state = .NEW) ∧
        ((s.slot l k).state = .OFFLINE → (t.slot l k).state = .EMPTY)) := by
  have clears := State.factoryClear_clears (s := s.took h) serves parcels charges reversals none_
  have spec := State.forgotten_spec (s := s.took h) none_
  have run : exec (.factoryClear h p) s = .next (s.takeRequest h 41 p .blank fun _ s => s.factoryClear) := rfl
  rw [State.takeRequest_of a (Codec.parse_blank blank) rfl (owner := fun _ s => s.factoryClear) clears (by simp)] at run
  refine ⟨_, run, rfl, ?_⟩
  have comps := State.comp_factoryBlocks_eq (s.took h)
  generalize factory : (s.took h).factoryBlocks = f at spec comps
  generalize (s.took h).forgotten = v at spec run ⊢
  obtain ⟨frame, granted, slots, kli⟩ := spec
  have ops : v.hce.ops = [] := (congrArg (fun u : State => u.hce.ops) frame :).trans (by rw [← factory]; exact none_)
  have comp : ∀ n, v.comp n = { Compartment.factory with hatchCount := (s.comp n).hatchCount } := fun n =>
    (congrArg (fun x => tget x Compartment.factory n) (congrArg State.comps frame :)).trans (comps n)
  have bare := State.decideMode_bare (s := v) ops fun n => by rw [comp]; rfl
  obtain ⟨decided, units, mask, told⟩ := bare
  have kept : ∀ l k, v.decideMode.slot l k = v.slot l k := fun l k => by
    rw [decided]
    rfl
  have scu : v.scu = { s.scu with config := ConfigVals.factory, base := .OPEN, wallOffset := 0 } :=
    (congrArg State.scu frame :).trans (by rw [← factory]; rfl)
  have now_ : v.modeNow = modeOf s.scu.mainsGood s.scu.batteryLow .OPEN := by
    unfold State.modeNow
    rw [scu]
  have whole : v.decideMode = { (s.took h).factoryBlocks with
      links := v.decideMode.links, arb := v.decideMode.arb, swu := v.decideMode.swu, kli := v.decideMode.kli
      scu := { s.scu with
        config := ConfigVals.factory, base := .OPEN, wallOffset := 0
        mode := modeOf s.scu.mainsGood s.scu.batteryLow .OPEN } } := by
    obtain ⟨a, b, c, e⟩ : ∃ a b c, v = { f with links := a, arb := b, kli := c } := ⟨_, _, _, frame⟩
    obtain ⟨a', b', c', e'⟩ : ∃ a b c, v.decideMode = { v with
      scu := { v.scu with mode := v.modeNow }, arb := a, swu := b, kli := c } := ⟨_, _, _, decided⟩
    rw [e', now_, scu, e, ← factory]
  have slot0 : ∀ l k, f.slot l k = s.slot l k := fun l k => by rw [← factory]; rfl
  have minute : f.now = s.now := by rw [← factory]; rfl
  have queue0 : f.kli.queue = s.kli.queue := by rw [← factory]; rfl
  have events : f.boardsForgotten allSlots = s.boardsForgotten allSlots := by
    unfold State.boardsForgotten State.boardForgotten
    simp only [slot0, minute]
  have few := s.length_boardsForgotten
  rw [events] at kli
  refine ⟨fun n => (congrArg (fun x => tget x Compartment.factory n) (congrArg State.comps decided :)).trans (comp n),
    fun i => ?_, fun n => ?_, (congrArg State.capture whole :), (congrArg (fun u : State => u.alloc.retired) whole :),
    fun i => ⟨?_, ?_⟩, (congrArg (fun u : State => u.tariff.active) whole :), (congrArg (fun u : State => u.tariff.scheduled) whole :),
    (congrArg State.pbc whole :), ?_⟩
  · have same := (congrArg State.sects whole :)
    change v.decideMode.sects[i] = _
    rw [same]
    exact Vector.getElem_replicate ..
  · have same := (congrArg State.hatchMap whole :)
    change tget v.decideMode.hatchMap none n = none
    rw [same]
    exact (tget_replicate 240 n none none).elim id id
  · have same := (congrArg State.tariff whole :)
    change v.decideMode.tariff.pages[i] = none
    rw [same]
    exact Vector.getElem_replicate ..
  · have same := (congrArg State.tariff whole :)
    change v.decideMode.tariff.refs[i] = 0
    rw [same]
    exact Vector.getElem_replicate ..
  have scu' : v.decideMode.scu = { s.scu with
      config := ConfigVals.factory, base := .OPEN, wallOffset := 0
      mode := modeOf s.scu.mainsGood s.scu.batteryLow .OPEN } := (congrArg State.scu whole :)
  have fields : ∀ {α : Type} (g : Scu → α), g v.decideMode.scu = g { s.scu with
      config := ConfigVals.factory, base := .OPEN, wallOffset := 0
      mode := modeOf s.scu.mainsGood s.scu.batteryLow .OPEN } := fun g => congrArg g scu'
  refine ⟨fields Scu.config, fields Scu.base, fields Scu.wallOffset, fields Scu.minute, fields Scu.persisted, fields Scu.timeGap,
    scu', ?_, fun ok room => ?_, (congrArg State.gates whole :), (congrArg (fun u : State => u.hce.ops) whole :).trans none_, ?_,
    fun l k => ?_⟩
  · change v.decideMode.kli.mask = ClassSet.all
    rw [mask, kli, Kli.mask_posts, ← factory]
    rfl
  · have posted : v.kli.queue = s.kli.queue ++ s.boardsForgotten allSlots := by
      rw [kli, Kli.queue_posts _ _ (by rw [queue0]; omega), queue0]
    have wmode : v.scu.mode = s.scu.mode := by rw [scu]
    have length : v.kli.queue.length < 64 := by
      rw [posted, List.length_append]
      omega
    have modes : (v.modeNow = v.scu.mode ∧ v.decideMode = v) ∨
        (s.scu.mainsGood = true ∧ s.scu.base = .NIGHT ∧ s.scu.mode = .NIGHT ∧ v.modeNow = .OPEN ∧
          v.decideMode.kli.queue = v.kli.queue ++
            [{ kind := .MODE_CHANGED, minute := v.now, mode := some v.modeNow, prevMode := some v.scu.mode }]) := by
      by_cases stays : v.modeNow = v.scu.mode
      · exact .inl ⟨stays, State.decideMode_same stays⟩
      · have mode := ok.1
        unfold modeOf at now_ mode
        cases good : s.scu.mainsGood with
        | false =>
          rw [good] at now_ mode
          exact absurd (now_.trans (mode.symm.trans wmode.symm)) stays
        | true =>
          rw [good] at now_ mode
          cases base : s.scu.base with
          | OPEN =>
            rw [base] at mode
            exact absurd (now_.trans (mode.symm.trans wmode.symm)) stays
          | NIGHT =>
            rw [base] at mode
            have night : s.scu.mode = .NIGHT := mode
            refine .inr ⟨rfl, rfl, night, now_, ?_⟩
            rw [told stays (by rw [wmode, night]; rfl), Kli.queue_post _ (by omega)]
    have all : ∀ e ∈ v.kli.queue, e ∈ v.decideMode.kli.queue := fun e mem => by
      rcases modes with ⟨-, same⟩ | ⟨-, -, -, -, queue⟩
      · rwa [same]
      · rw [queue]
        exact List.mem_append_left _ mem
    refine ⟨fun l k present => all _ ?_, fun good base => ?_, fun still => ?_⟩
    · rw [posted]
      refine List.mem_append_right _ (List.mem_map.mpr ⟨(l, k), List.mem_filter.mpr ⟨?_, decide_eq_true present⟩, rfl⟩)
      obtain ⟨known, slot⟩ := State.known_of_present present
      exact mem_allSlots.mpr ⟨known, slot⟩
    · rcases modes with ⟨stays, -⟩ | ⟨-, -, night, open_, queue⟩
      · rw [now_, wmode, ok.1, good, base] at stays
        exact nomatch stays
      · have last : v.now = s.now := (congrArg Scu.minute scu :)
        change v.decideMode.kli.queue.getLast? = _
        rw [queue, List.getLast?_concat, last, open_, wmode, night]
    · rcases modes with ⟨stays, same⟩ | ⟨good, base, -, -, -⟩
      · refine ⟨fields Scu.mode |>.trans (now_.symm.trans (stays.trans wmode)), fun e mem => ?_⟩
        have mem : e ∈ v.decideMode.kli.queue := mem
        rw [same, posted] at mem
        refine (List.mem_append.mp mem).imp_right fun new => ?_
        obtain ⟨q, -, rfl⟩ := List.mem_map.mp new
        rfl
      · rcases still with off | open_
        · rw [good] at off
          exact nomatch off
        · rw [base] at open_
          exact nomatch open_
  · change v.decideMode.arb.granted ≤ s.arb.granted
    rw [units]
    refine granted.trans (Nat.le_of_eq ?_)
    rw [← factory]
    rfl
  · have read : (v.decideMode.slot l k) = if (l, k) ∈ allSlots then (s.slot l k).forgotten else s.slot l k := by
      rw [kept, slots, slot0]
    change (v.decideMode.slot l k).commissioned = none ∧ ((s.slot l k).state = .PRESENT → (v.decideMode.slot l k).state = .NEW) ∧
      ((s.slot l k).state = .OFFLINE → (v.decideMode.slot l k).state = .EMPTY)
    rw [read]
    split
    · exact (s.slot l k).forgotten_spec
    · rename_i out
      rw [s.slot_outside out]
      exact ⟨rfl, (fun present => nomatch present), fun offline => nomatch offline⟩

/-- Settles O47. -/
theorem configAndFactoryClearSetTheRetainedState : Obligations.ConfigAndFactoryClearSetTheRetainedState := by
  refine ⟨fun h p c s a parsed serves => ?_, factoryClear_settles⟩
  have run : exec (.config h p) s = .next (s.takeRequest h 39 p .configReq fun c s => s.configure c) := rfl
  have answer : (s.took h).configure c = ⟨(s.took h).updScu fun u => { u with config := c.clamped }, .OK,
      .configStored c.clamped (decide (c.clamped ≠ c))⟩ := by
    unfold State.configure
    rw [State.serviceCheck_served (s := s.took h) serves]
  rw [run, State.takeRequest_of a parsed rfl (owner := fun c s => s.configure c) answer (by simp)]
  rfl

end Sys2Proof.Machine
end

