-- ==== Sys2Proof/Proofs/ReaderTimers.lean ====
section
/-! Unanswered messages, the poll timer and the payment timeout (R150, R154, R156, R157, R163). -/

namespace Sys2Proof.Machine

open Sys2Proof

/-! ### What an end leaves of a reader -/

theorem State.reader_queueReversal {s : State} {v : Reversal} {r : Nat} (busy : (s.reader r).state ≠ .IDLE) :
    (s.queueReversal v).1.reader r = s.reader r := by
  unfold State.queueReversal
  dsimp only
  split
  · split
    · rename_i idle
      have other : v.reader ≠ r := fun same => busy (same ▸ idle)
      have frame : ∀ u : State, (u.restReader v.reader).reader r = u.reader r := fun u => by
        unfold State.restReader
        split <;> rw [State.reader_updReader, if_neg fun h => other h.1]
      exact frame _
    · rfl
  · rfl

/-- An end that is no hold touches a reader only to have it take a reversal, which an IDLE one does (R161). -/
theorem State.reader_endOp {s : State} {o : Op} {out : CycleOutcome} {r : Nat} (unheld : out ≠ .HELD)
    (still : (s.reader r).state ≠ .IDLE ∨ (o.stage = .AWAIT_PAYMENT ∧ out ≠ .STRIKE_FAILED)) :
    (s.endOp o out).reader r = s.reader r := by
  have effect : ∀ q, (s.endEffect o out false).1.reader q = s.reader q := fun q =>
    congrArg (fun b : Pbc => tget b.readers Reader.empty q) (congrArg State.pbc (s.endEffect_frame o out false) :)
  have after : (s.afterReversal o out false).1.reader r = s.reader r := by
    unfold State.afterReversal State.reverseDrop
    split
    · rename_i owes
      rcases still with busy | ⟨waits, given⟩
      · exact (State.reader_queueReversal (by rw [effect]; exact busy)).trans (effect r)
      · unfold Op.owesReversal at owes
        simp [waits, given] at owes
    · exact effect r
  have ended : ∀ es, ((s.endedBy o out false).posts es).reader r = s.reader r := fun es =>
    (congrArg (fun b : Pbc => tget b.readers Reader.empty r) (congrArg State.pbc (s.endedBy_frame o out false) :)).trans after
  have topped : ∀ (u : State) (k : Courier), (u.topUpEnd k).reader r = u.reader r := fun u k => by
    have first : (u.topUp k).1.pbc = u.pbc := by
      rcases u.topUp_cases k with same | ⟨x, gone, rest, made, topped⟩
      · rw [same]
      · exact (congrArg State.pbc topped.frame :)
    exact congrArg (fun b : Pbc => tget b.readers Reader.empty r) ((congrArg State.pbc ((u.topUp k).1.endRun_frame k) :).trans first)
  have swept : ∀ (u : State) (note : EndNote), (u.handSweep o out note).reader r = u.reader r := fun u note => by
    cases courier : courierOf o.station with
    | none =>
      unfold State.handSweep
      rw [courier]
    | some k =>
      rw [State.handSweep_courier courier, topped, topped]
      exact congrArg (fun b : Pbc => tget b.readers Reader.empty r) (congrArg State.pbc (u.counted_frame o out note k) :)
  rw [s.endOp_unfold]
  dsimp only
  rw [if_neg fun h : o.stage = .AWAIT_PAYMENT ∧ out = .HELD => unheld h.2]
  split
  · rw [swept, ended]
  · exact ended _

theorem State.reader_endJob {s : State} {j : Nat} {out : CycleOutcome} {r : Nat} (unheld : out ≠ .HELD)
    (still : (s.reader r).state ≠ .IDLE ∨ ((∀ o, s.opByJob j = some o → o.stage = .AWAIT_PAYMENT) ∧ out ≠ .STRIKE_FAILED)) :
    (s.endJob j out).reader r = s.reader r := by
  cases found : s.opByJob j with
  | none => rw [State.endJob_none found]
  | some o =>
    rw [State.endJob_some found]
    exact State.reader_endOp unheld (still.imp_right fun h => ⟨h.1 o found, h.2⟩)

theorem State.reader_dropParcelRef (s : State) (n ref r : Nat) : (s.dropParcelRef n ref).reader r = s.reader r := rfl

/-! ### The third unanswered message (R163) -/

/-- A charge known not to be held by its reader (R156). -/
abbrev Charge.unsent (c : Charge) : Prop := c.phase = .OFFERED ∧ c.offer = false

/-- A charge handed over to be abandoned (R157). -/
def Charge.abandoned (c : Charge) : Charge := { c with phase := .ABANDON_DUE, job := none, timeout := none }

theorem State.readerLost_spec {s : State} {r : Nat} (known : 1 ≤ r ∧ r ≤ 4) : let v := s.readerLost r
    v.pbc.line = s.pbc.line ∧ v.pbc.retry = s.pbc.retry ∧
    ((s.reader r).charge = none → v.reader r = (s.reader r).lost) ∧
    ∀ c, (s.reader r).charge = some c → (c.job = none → v.reader r = (s.reader r).lost) ∧
      ∀ j, c.job = some j →
        (c.unsent → v.reader r = { (s.reader r).lost with
          charge := none, outgoing := (s.reader r).lost.outgoing.filter fun m => !(m.isCharge || m.isAbandon) }) ∧
        (¬ c.unsent → v.reader r = { (s.reader r).lost with charge := some c.abandoned }) ∧
        (∀ o, s.opByJob j = some o → o.purpose ≠ .SWEEP → v.hce.ops = s.hce.ops.filter fun y => y.job != j) := by
  unfold State.readerLost
  dsimp only
  generalize down : (s.updReader r fun x =>
    ({ x with state := .OFFLINE, unanswered := 0, pollTimer := .running }).keepOwed) = w
  have read : w.reader r = (s.reader r).lost := by
    rw [← down, State.reader_updReader, if_pos ⟨rfl, known⟩]
    rfl
  have line : w.pbc.line = s.pbc.line := by rw [← down]; rfl
  have retry : w.pbc.retry = s.pbc.retry := by rw [← down]; rfl
  have ops : w.hce.ops = s.hce.ops := by rw [← down]; rfl
  cases charge : (s.reader r).charge with
  | none => exact ⟨line, retry, fun _ => read, fun c some_ => nomatch some_⟩
  | some c =>
    dsimp only
    cases job : c.job with
    | none =>
      refine ⟨line, retry, (fun none_ => nomatch none_), fun c' some_ => ?_⟩
      obtain rfl := Option.some.inj some_
      exact ⟨fun _ => read, fun j some_ => by rw [job] at some_; exact nomatch some_⟩
    | some j =>
      dsimp only
      have kept := kept_endJob w j .READER_OFFLINE
      have still : (w.endJob j .READER_OFFLINE).reader r = w.reader r :=
        State.reader_endJob (by decide) (.inl (by rw [read]; exact ReaderState.noConfusion))
      have gone : ∀ o, s.opByJob j = some o → o.purpose ≠ .SWEEP →
          (w.endJob j .READER_OFFLINE).hce.ops = s.hce.ops.filter fun y => y.job != j := fun o found plain => by
        have found' : w.opByJob j = some o := by
          unfold State.opByJob
          rw [ops]
          exact found
        rw [State.endJob_some found', State.ops_endOp (.inl plain), ops, State.opByJob_job found]
      generalize w.endJob j .READER_OFFLINE = x at kept still gone
      refine ⟨?_, ?_, (fun none_ => nomatch none_), fun c' some_ => ?_⟩
      · split <;> exact kept.busLine.trans line
      · split <;> exact kept.busRetry.trans retry
      · obtain rfl := Option.some.inj some_
        refine ⟨(fun none_ => by rw [job] at none_; exact nomatch none_), fun j' some_ => ?_⟩
        obtain rfl : j = j' := Option.some.inj (job.symm.trans some_)
        refine ⟨fun unsent => ?_, fun sent => ?_, fun o found plain => ?_⟩
        · rw [if_pos unsent, State.reader_dropParcelRef]
          unfold State.dropCharge
          rw [State.reader_updReader, if_pos ⟨rfl, known⟩, still, read]
        · rw [if_neg sent, State.reader_updReader, if_pos ⟨rfl, known⟩, still, read]
          rfl
        · split
          · exact gone o found plain
          · exact gone o found plain

/-! ### The payment timeout (R156, R157) -/

theorem State.abandonCharge_reader {s : State} {r : Nat} {c : Charge} (charge : (s.reader r).charge = some c) :
    let v := s.abandonCharge r
    (c.unsent → s.pbc.line ≠ some (r, .CHARGE c.ref c.amount) → (v.reader r).charge = none) ∧
    (¬ (c.unsent ∧ s.pbc.line ≠ some (r, .CHARGE c.ref c.amount)) → (v.reader r).charge = some c.abandoned ∧
      (v.reader r).state = .ABANDONING ∧ (v.reader r).outgoing.getLast? = some (.ABANDON c.ref)) := by
  have known := State.reader_known_of_charge charge
  unfold State.abandonCharge
  rw [charge]
  dsimp only
  refine ⟨fun unsent off => ?_, fun sent => ?_⟩
  · rw [if_pos ⟨unsent.1, unsent.2, off⟩, State.charge_restReader, State.reader_dropParcelRef]
    unfold State.dropCharge
    rw [State.reader_updReader, if_pos ⟨rfl, known⟩]
  · rw [if_neg fun h => sent ⟨⟨h.1, h.2.1⟩, h.2.2⟩, State.reader_updReader, if_pos ⟨rfl, known⟩]
    exact ⟨rfl, rfl, List.getLast?_concat⟩

/-! ### The commands -/

theorem State.known_of_up {s : State} {r : Nat} (up : (s.reader r).state ≠ .OFFLINE) : 1 ≤ r ∧ r ≤ 4 := by
  by_contra out
  rw [s.reader_outside out] at up
  exact up rfl

section
variable {r : Nat} {m : BusMsg} {s : State}

theorem exec_readerTimeout_up (line : s.pbc.line = some (r, m)) (up : (s.reader r).state ≠ .OFFLINE) :
    exec (.readerResponseTimeout r) s =
      if 2 ≤ (s.reader r).unanswered then .next (((s.lineFreed r).updReader r (Reader.missed · m)).readerLost r).pass
      else .next (((s.lineFreed r).updReader r (Reader.missed · m)).updPbc fun p => { p with retry := some (r, m) }) := by
  have known := State.known_of_up up
  have count : (((s.lineFreed r).updReader r (Reader.missed · m)).reader r).unanswered = (s.reader r).unanswered + 1 := by
    rw [State.reader_updReader, if_pos ⟨rfl, known⟩]
    rfl
  change execReaderResponseTimeout r s = _
  unfold execReaderResponseTimeout
  rw [State.awaited_of_line line]
  dsimp only
  rw [if_pos (State.readerUp_iff.mpr up)]
  refine if_congr ?_ rfl rfl
  change 3 ≤ (((s.lineFreed r).updReader r (Reader.missed · m)).reader r).unanswered ↔ _
  rw [count]
  omega

theorem exec_readerTimeout_down (line : s.pbc.line = some (r, m)) (down : (s.reader r).state = .OFFLINE) :
    exec (.readerResponseTimeout r) s = .next (s.lineFreed r) := by
  change execReaderResponseTimeout r s = _
  unfold execReaderResponseTimeout
  rw [State.awaited_of_line line]
  dsimp only
  rw [if_neg (by rw [State.readerUp_iff]; exact not_not.mpr down)]
  rfl

end

theorem exec_paymentTimeout {r j : Nat} {c : Charge} {s : State} (charge : (s.reader r).charge = some c) (job : c.job = some j)
    (timer : c.timeout.isSome = true) :
    exec (.paymentTimeout r) s = .next ((s.endJob j .PAYMENT_TIMEOUT).abandonCharge r).pass := by
  obtain ⟨t, timer⟩ := Option.isSome_iff_exists.mp timer
  change execPaymentTimeout r s = _
  unfold execPaymentTimeout
  rw [charge]
  dsimp only
  rw [job, timer]

/-- What the lists keep of a lost reader whose charge it never held: a REVERSE alone. -/
theorem filter_lost (ms : List BusMsg) :
    (ms.filter fun y => y.isAbandon || y.isReverse).filter (fun y => !(y.isCharge || y.isAbandon)) =
      (ms.filter fun y => y.isAbandon || y.isReverse).filter BusMsg.isReverse := by
  rw [List.filter_filter, List.filter_filter]
  exact List.filter_congr fun y _ => by cases y <;> rfl

theorem readerTimeout_settles (r : Nat) (m : BusMsg) (s : State) (line : s.pbc.line = some (r, m))
    (up : (s.reader r).state ≠ .OFFLINE) :
    let b := { s.pbc with line := none, lastReader := r }
    let x := { s.reader r with
      unanswered := (s.reader r).unanswered + 1
      charge := (s.reader r).charge.map fun c =>
        if m = .CHARGE c.ref c.amount ∧ c.phase = .OFFERED then { c with offer := true } else c }
    ((s.reader r).unanswered < 2 → exec (.readerResponseTimeout r) s = .next { s with pbc := { b with
      retry := some (r, m), readers := tput s.pbc.readers r x } }) ∧
    (2 ≤ (s.reader r).unanswered → ∃ v : State, exec (.readerResponseTimeout r) s = .next v.pass ∧
      (v.reader r).state = .OFFLINE ∧ (v.reader r).unanswered = 0 ∧ (v.reader r).pollTimer = .running ∧
      v.pbc.line = none ∧ v.pbc.retry = none ∧
      (∀ c j o, (s.reader r).charge = some c → c.job = some j → s.opByJob j = some o → o.purpose ≠ .SWEEP →
        v.hce.ops = s.hce.ops.filter (fun y => y.job != j)) ∧
      (let lost := fun c : Charge => m = .CHARGE c.ref c.amount ∧ c.phase = .OFFERED
        let kept := (s.reader r).outgoing.filter fun y => y.isAbandon || y.isReverse
        ((s.reader r).charge = none → (v.reader r).charge = none ∧ (v.reader r).outgoing = kept) ∧
        (∀ c, (s.reader r).charge = some c →
          let c' := { c with offer := c.offer || decide (lost c) }
          (c.job = none → (v.reader r).charge = some c' ∧ (v.reader r).outgoing = kept) ∧
          (c.job.isSome = true → c.phase = .OFFERED → c.offer = false → ¬ lost c →
            (v.reader r).charge = none ∧ (v.reader r).outgoing = kept.filter BusMsg.isReverse) ∧
          (c.job.isSome = true → c.phase ≠ .OFFERED ∨ c.offer = true ∨ lost c →
            (v.reader r).charge = some { c' with phase := .ABANDON_DUE, job := none, timeout := none } ∧
            (v.reader r).outgoing = kept)))) := by
  intro b x
  have known := State.known_of_up up
  have run := exec_readerTimeout_up line up
  refine ⟨fun few => ?_, fun third => ?_⟩
  · rw [run, if_neg (by omega)]
    rfl
  · rw [if_pos third] at run
    refine ⟨_, run, ?_⟩
    generalize missed : (s.lineFreed r).updReader r (Reader.missed · m) = u
    have read : u.reader r = x := by
      rw [← missed, State.reader_updReader, if_pos ⟨rfl, known⟩]
      rfl
    have free : u.pbc.line = none ∧ u.pbc.retry = none ∧ u.hce = s.hce := by
      rw [← missed]
      exact ⟨rfl, rfl, rfl⟩
    obtain ⟨line', retry', uncharged, charged⟩ := State.readerLost_spec (s := u) known
    generalize u.readerLost r = v at line' retry' uncharged charged ⊢
    rw [read] at uncharged charged
    cases charge : (s.reader r).charge with
    | none =>
      have here : x.charge = none := by
        change (s.reader r).charge.map _ = none
        rw [charge]
        rfl
      have whole := uncharged here
      rw [whole]
      exact ⟨rfl, rfl, rfl, line'.trans free.1, retry'.trans free.2.1, (fun c j o some_ => nomatch some_),
        fun _ => ⟨here, rfl⟩, fun c some_ => nomatch some_⟩
    | some c =>
      generalize marked : (if m = .CHARGE c.ref c.amount ∧ c.phase = .OFFERED then { c with offer := true } else c) = d
      have offered : d = { c with offer := c.offer || decide (m = .CHARGE c.ref c.amount ∧ c.phase = .OFFERED) } := by
        rw [← marked]
        split
        · rename_i lost
          rw [decide_eq_true lost, Bool.or_true]
        · rename_i sent
          rw [decide_eq_false sent, Bool.or_false]
      have here : x.charge = some d := by
        change (s.reader r).charge.map _ = some d
        rw [charge, ← marked]
        rfl
      have job : d.job = c.job := by rw [offered]
      have ref : d.phase = c.phase := by rw [offered]
      have offer : d.offer = (c.offer || decide (m = .CHARGE c.ref c.amount ∧ c.phase = .OFFERED)) := by rw [offered]
      obtain ⟨still, ended⟩ := charged d here
      have unsent : d.unsent ↔ c.phase = .OFFERED ∧ c.offer = false ∧ ¬ (m = .CHARGE c.ref c.amount ∧ c.phase = .OFFERED) := by
        unfold Charge.unsent
        rw [ref, offer, Bool.or_eq_false_iff, decide_eq_false_iff_not]
      have down : (v.reader r).state = .OFFLINE ∧ (v.reader r).unanswered = 0 ∧ (v.reader r).pollTimer = .running := by
        cases jobs : d.job with
        | none =>
          rw [still jobs]
          exact ⟨rfl, rfl, rfl⟩
        | some j =>
          obtain ⟨drops, keeps, -⟩ := ended j jobs
          by_cases un : d.unsent
          · rw [drops un]
            exact ⟨rfl, rfl, rfl⟩
          · rw [keeps un]
            exact ⟨rfl, rfl, rfl⟩
      refine ⟨down.1, down.2.1, down.2.2, line'.trans free.1, retry'.trans free.2.1, fun c' j o some_ jobs found plain => ?_,
        (fun none_ => nomatch none_), fun c' some_ => ?_⟩
      · obtain rfl := Option.some.inj some_
        have gone := (ended j (job.trans jobs)).2.2 o (by unfold State.opByJob; rw [free.2.2]; exact found) plain
        rw [gone, free.2.2]
      · obtain rfl := Option.some.inj some_
        refine ⟨fun jobless => ?_, fun jobs phase off sent => ?_, fun jobs held => ?_⟩
        · rw [still (job.trans jobless)]
          exact ⟨here.trans (congrArg some offered), rfl⟩
        · obtain ⟨j, jobs⟩ := Option.isSome_iff_exists.mp jobs
          rw [(ended j (job.trans jobs)).1 (unsent.mpr ⟨phase, off, sent⟩)]
          exact ⟨rfl, filter_lost _⟩
        · obtain ⟨j, jobs⟩ := Option.isSome_iff_exists.mp jobs
          have sent : ¬ d.unsent := fun un => by
            obtain ⟨phase, off, sent⟩ := unsent.mp un
            rcases held with other | on | lost
            · exact other phase
            · rw [off] at on
              exact nomatch on
            · exact sent lost
          rw [(ended j (job.trans jobs)).2.1 sent]
          exact ⟨congrArg some (congrArg Charge.abandoned offered), rfl⟩

/-- Settles O60. -/
theorem readerTimersExpire : Obligations.ReaderTimersExpire := by
  refine ⟨State.reconciled_reconcile, readerTimeout_settles, fun r s down line => ?_, fun r s down timer => ?_,
    fun r j c o s charge job timer found waits plain => ⟨_, exec_paymentTimeout charge job timer, ?_⟩⟩
  · exact exec_readerTimeout_down line down
  · change execReaderPollTimerExpiry r s = _
    unfold execReaderPollTimerExpiry
    rw [if_pos ⟨down, timer⟩]
    rfl
  · have kept := kept_endJob s j .PAYMENT_TIMEOUT
    have still : (s.endJob j .PAYMENT_TIMEOUT).reader r = s.reader r := State.reader_endJob (by decide) (.inr ⟨fun y there => by
      rw [found] at there
      rw [← Option.some.inj there]
      exact waits, by decide⟩)
    have ops : (s.endJob j .PAYMENT_TIMEOUT).hce.ops = s.hce.ops.filter fun y => y.job != j := by
      rw [State.endJob_some found, State.ops_endOp (.inl plain), State.opByJob_job found]
    generalize s.endJob j .PAYMENT_TIMEOUT = u at kept still ops ⊢
    obtain ⟨dropped, abandoned⟩ := State.abandonCharge_reader (s := u) (r := r) (c := c) (by rw [still]; exact charge)
    rw [kept.busLine] at dropped abandoned
    refine ⟨(congrArg (fun w : State => w.hce.ops) (u.abandonCharge_spec r).1 :).trans ops, fun phase off line =>
      dropped ⟨phase, off⟩ line, fun held => abandoned fun ⟨un, line⟩ => ?_⟩
    rcases held with other | on | sent
    · exact other un.1
    · rw [un.2] at on
      exact nomatch on
    · exact line sent

end Sys2Proof.Machine
end

