-- ==== Sys2Proof/Proofs/Results.lean ====
section
/-! Results, abandons and reversals: what an answer of a reader makes of its charge (R155, R158 to R162, R164). -/

namespace Sys2Proof.Machine

open Sys2Proof

/-! ### A reader whose charge is settled -/

/-- A reader whose charge a result has settled: the acknowledgement is first in its list (R155, R159). -/
structure Reader.settled (x : Reader) (ref : Nat) : Prop where
  charge : x.charge = none
  last : x.lastSettled = some ref
  ack : x.outgoing.head? = some (.RESULT_ACK ref)

/-- A message that falls due follows the acknowledgement (R150). -/
theorem Reader.ack_owe {x : Reader} {ref : Nat} (ack : x.outgoing.head? = some (.RESULT_ACK ref)) (m : BusMsg) :
    (x.owe m).outgoing.head? = some (.RESULT_ACK ref) := by
  obtain ⟨rest, list⟩ := List.head?_eq_some_iff.mp ack
  unfold Reader.owe
  rw [list]
  rfl

/-- A reader that rests changes its state, and has a REVERSE fall due to it or none (R151). -/
theorem State.restReader_cases {s : State} {r : Nat} (known : 1 ≤ r ∧ r ≤ 4) : ∃ y : ReaderState,
    (s.restReader r).reader r = { s.reader r with state := y } ∨
    ∃ m, (s.restReader r).reader r = ({ s.reader r with state := y } : Reader).owe m := by
  unfold State.restReader
  split
  · rw [State.reader_updReader, if_pos ⟨rfl, known⟩]
    exact ⟨.REVERSING, .inr ⟨_, rfl⟩⟩
  · rw [State.reader_updReader, if_pos ⟨rfl, known⟩]
    exact ⟨.IDLE, .inl rfl⟩

theorem State.ack_restReader {s : State} {r ref : Nat} (known : 1 ≤ r ∧ r ≤ 4)
    (ack : (s.reader r).outgoing.head? = some (.RESULT_ACK ref)) :
    ((s.restReader r).reader r).outgoing.head? = some (.RESULT_ACK ref) := by
  obtain ⟨y, same | ⟨m, owes⟩⟩ := State.restReader_cases (s := s) known
  · rw [same]
    exact ack
  · rw [owes]
    exact Reader.ack_owe (x := { s.reader r with state := y }) ack m

theorem State.settled_restReader {s : State} {r ref : Nat} (known : 1 ≤ r ∧ r ≤ 4) (h : (s.reader r).settled ref) :
    ((s.restReader r).reader r).settled ref := by
  refine ⟨(s.charge_restReader r r).trans h.charge, ?_, State.ack_restReader known h.ack⟩
  obtain ⟨y, same | ⟨m, owes⟩⟩ := State.restReader_cases (s := s) known
  · rw [same]
    exact h.last
  · rw [owes]
    exact h.last

theorem State.settled_queueReversal {s : State} {v : Reversal} {ref : Nat} (known : 1 ≤ v.reader ∧ v.reader ≤ 4)
    (h : (s.reader v.reader).settled ref) : ((s.queueReversal v).1.reader v.reader).settled ref := by
  unfold State.queueReversal
  dsimp only
  split
  · split
    · exact State.settled_restReader (s := s.updPbc fun p => { p with reversals := p.reversals ++ [v] }) known h
    · exact h
  · exact h

theorem State.queueReversal_frame (s : State) (v : Reversal) :
    (s.queueReversal v).1 = { s with pbc := (s.queueReversal v).1.pbc } := by
  unfold State.queueReversal
  dsimp only
  split
  · split
    · obtain ⟨rs, e⟩ : ∃ rs, (s.updPbc fun p => { p with reversals := p.reversals ++ [v] }).restReader v.reader =
        { s with pbc := { s.pbc with reversals := s.pbc.reversals ++ [v], readers := rs } } := ⟨_, State.restReader_frame _ v.reader⟩
      rw [e]
    · rfl
  · rfl

theorem State.settled_returnReader {s : State} {r ref : Nat} (known : 1 ≤ r ∧ r ≤ 4) (h : (s.reader r).settled ref) :
    ((s.returnReader r).reader r).settled ref := by
  rw [State.returnReader_uncharged known h.charge]
  refine State.settled_restReader known ?_
  rw [State.reader_updReader, if_pos ⟨rfl, known⟩]
  exact ⟨h.charge, h.last, h.ack⟩

theorem State.ack_returnReader {s : State} {r ref : Nat} (known : 1 ≤ r ∧ r ≤ 4)
    (ack : (s.reader r).outgoing.head? = some (.RESULT_ACK ref)) :
    ((s.returnReader r).reader r).outgoing.head? = some (.RESULT_ACK ref) := by
  cases charge : (s.reader r).charge with
  | some c =>
    rw [State.returnReader_charged known charge, State.reader_updReader, if_pos ⟨rfl, known⟩]
    exact Reader.ack_owe ack _
  | none =>
    rw [State.returnReader_uncharged known charge]
    refine State.ack_restReader known ?_
    rw [State.reader_updReader, if_pos ⟨rfl, known⟩]
    exact ack

/-- The state after an answer to a message has settled the charge of its reader. -/
def State.settledBy (s : State) (r : Nat) (m : BusMsg) (ref : Nat) : State := (s.busAnswered r m).settleRecord r ref

theorem State.settledBy_spec (s : State) {r : Nat} (m : BusMsg) (ref : Nat) (known : 1 ≤ r ∧ r ≤ 4) :
    let u := s.settledBy r m ref
    u = { s with pbc := { s.pbc with line := none, retry := none, lastReader := r, readers := u.pbc.readers } } ∧
    (u.reader r).settled ref ∧ ((∀ e ∈ s.pbc.reversals, e.reader ≠ r) → (u.reader r).state = .IDLE) := by
  unfold State.settledBy State.settleRecord
  dsimp only
  generalize acked : (((s.busAnswered r m).dropCharge r).updReader r fun x =>
    ({ x with lastSettled := some ref }).ackFirst ref) = w
  have frame : w = { s with pbc := { s.pbc with line := none, retry := none, lastReader := r, readers := w.pbc.readers } } := by
    rw [← acked]
    rfl
  have reversals : w.pbc.reversals = s.pbc.reversals := by rw [← acked]; rfl
  have read : (w.reader r).settled ref := by
    rw [← acked, State.reader_updReader, if_pos ⟨rfl, known⟩]
    unfold State.dropCharge
    rw [State.reader_updReader, if_pos ⟨rfl, known⟩]
    exact ⟨rfl, rfl, rfl⟩
  refine ⟨?_, State.settled_restReader known read, fun absent => ?_⟩
  · obtain ⟨rs, e⟩ : ∃ rs, w.restReader r = { w with pbc := { w.pbc with readers := rs } } := ⟨_, State.restReader_frame w r⟩
    rw [e]
    exact congrArg (fun u : State => { u with pbc := { u.pbc with readers := rs } }) frame
  · rw [(State.restReader_reader known).1 (by rw [reversals]; exact absent)]

/-! ### The commands -/

section
variable {r ref : Nat} {m : BusMsg} {res : PayResult} {app : Text} {s : State}

theorem exec_result (line : s.pbc.line = some (r, m)) (asks : m = .POLL ∨ m.isAbandon = true) :
    exec (.result r ref res app) s =
      .next (((s.busAnswered r m).takeResult r ref res app).backOnBus r (!s.readerUp r)).pass := by
  change execResult r ref res app s = _
  unfold execResult
  rw [State.awaited_of_line line]
  dsimp only
  rw [if_pos (by rcases asks with rfl | is <;> simp [*])]

theorem exec_result_up (line : s.pbc.line = some (r, m)) (asks : m = .POLL ∨ m.isAbandon = true)
    (up : (s.reader r).state ≠ .OFFLINE) :
    exec (.result r ref res app) s = .next ((s.busAnswered r m).takeResult r ref res app).pass := by
  rw [exec_result line asks, State.readerUp_iff.mpr up]
  rfl

theorem exec_result_down (line : s.pbc.line = some (r, m)) (asks : m = .POLL ∨ m.isAbandon = true)
    (down : (s.reader r).state = .OFFLINE) :
    exec (.result r ref res app) s = .next (((s.busAnswered r m).takeResult r ref res app).returnReader r).pass := by
  have gone : s.readerUp r = false := Bool.eq_false_iff.mpr fun e => State.readerUp_iff.mp e down
  rw [exec_result line asks, gone]
  rfl

theorem State.charge_busAnswered (s : State) (r : Nat) (m : BusMsg) :
    ((s.busAnswered r m).reader r).charge = (s.reader r).charge ∧
    ((s.busAnswered r m).reader r).lastSettled = (s.reader r).lastSettled := by
  by_cases known : 1 ≤ r ∧ r ≤ 4
  · rw [s.busAnswered_reader m known]
    exact ⟨rfl, rfl⟩
  · rw [State.reader_outside _ known, State.reader_outside _ known]
    exact ⟨rfl, rfl⟩

theorem State.chargeNamed_own {c : Charge} (charge : (s.reader r).charge = some c) : s.chargeNamed r c.ref = some c := by
  unfold State.chargeNamed
  rw [charge]
  exact if_pos rfl

theorem State.chargeNamed_none (other : ∀ c, (s.reader r).charge = some c → c.ref ≠ ref) : s.chargeNamed r ref = none := by
  unfold State.chargeNamed
  cases charge : (s.reader r).charge with
  | none => rfl
  | some c => exact if_neg (other c charge)

theorem State.takeResult_charged {c : Charge} (charge : (s.reader r).charge = some c) :
    (s.busAnswered r m).takeResult r c.ref res app =
      if c.phase = .ABANDON_DUE then (s.busAnswered r m).lateResult r c res app
      else (s.busAnswered r m).applyResult r c res app := by
  unfold State.takeResult
  rw [State.chargeNamed_own ((s.charge_busAnswered r m).1.trans charge)]

theorem State.takeResult_stray (other : ∀ c, (s.reader r).charge = some c → c.ref ≠ ref) :
    (s.busAnswered r m).takeResult r ref res app = (s.busAnswered r m).strayResult r ref res app := by
  unfold State.takeResult
  rw [State.chargeNamed_none fun c charge => other c ((s.charge_busAnswered r m).1.symm.trans charge)]

end

/-! ### Credits (R121, R159) -/

/-- A parcel that an amount is credited to (R121). -/
def Parcel.credited (x : Parcel) (amount grace minute : Nat) : Parcel := { x with
  paid := x.paid + amount, chargeRef := none, chargeReader := none, paidThrough := some (min (minute + grace) 4294967295) }

def Compartment.withParcel (c : Compartment) (x : Parcel) : Compartment := { c with parcel := some x }

theorem State.creditParcel_eq {s : State} {n : Nat} {x : Parcel} (a : Nat) (parcel : (s.comp n).parcel = some x) :
    s.creditParcel n a = s.updComp n fun c => c.withParcel (x.credited a (s.parcelPage x).grace s.now) := by
  refine congrArg (fun c => s.updComps fun v => tput v n c) ?_
  change ({ s.comp n with parcel := (s.comp n).parcel.map _ } : Compartment) = _
  rw [parcel]
  rfl

/-- The compartment of a late result that is not honoured (R159). -/
theorem Compartment.withoutRef_parcel {c : Compartment} {x : Parcel} (ref : Nat) (parcel : c.parcel = some x) :
    c.withoutRef ref = { c with parcel := some (if x.chargeRef = some ref then
      { x with chargeRef := none, chargeReader := none } else x) } := by
  unfold Compartment.withoutRef
  rw [parcel]
  rfl

/-! ### Late results (R159) -/

/-- The parcel that a late result of a charge is for is still there (R159). -/
def State.honoured (s : State) (c : Charge) (x : Parcel) : Prop :=
  (s.comp c.comp).state = .LOADED ∧ x.kind = .DELIVERY ∧ x.code.isSome = true ∧ x.code = c.ident.code ∧
    x.depositMinute = c.ident.depositMinute

theorem State.honours_iff {s : State} {c : Charge} {x : Parcel} (parcel : (s.comp c.comp).parcel = some x) :
    s.honours c = true ↔ s.honoured c x := by
  unfold State.honours State.honoured
  rw [parcel]
  simp only [Bool.and_eq_true, decide_eq_true_eq]
  constructor
  · rintro ⟨loaded, kind, code, same, minute⟩
    exact ⟨loaded, kind, same ▸ code, same, minute⟩
  · rintro ⟨loaded, kind, code, same, minute⟩
    exact ⟨loaded, kind, same ▸ code, same, minute⟩

/-- The reversal that a late approval asks for where its parcel is gone (R159). -/
def Charge.lateReversal (c : Charge) (r : Nat) : Reversal :=
  { ref := c.ref, amount := c.amount, reader := r, comp := c.comp, origin := .LATE_RESULT }

/-- What a late result makes of a state: the parcel `x` credited, or a reversal asked for (R159). -/
structure State.LateSettled (s v : State) (r : Nat) (c : Charge) (x : Parcel) (res : PayResult) : Prop where
  hce : v.hce = s.hce
  others : s.otherComps v c.comp
  reader : (v.reader r).settled c.ref
  credited : res = .APPROVED → s.honoured c x → v.comp c.comp = { s.comp c.comp with
    parcel := some (x.credited c.amount (s.parcelPage x).grace s.now) }
  unreversed : (res = .APPROVED → s.honoured c x ∨ 8 ≤ s.pbc.reversals.length) → v.pbc.reversals = s.pbc.reversals
  reversed : res = .APPROVED → ¬ s.honoured c x → s.pbc.reversals.length < 8 →
    v.pbc.reversals = s.pbc.reversals ++ [c.lateReversal r]
  freed : (res = .APPROVED → ¬ s.honoured c x) → v.comp c.comp = (s.comp c.comp).withoutRef c.ref
  told : s.kli.queue.length < 64 → ∃ e ∈ v.kli.queue, e.kind = .LATE_RESULT ∧ e.chargeRef = some c.ref ∧
    e.amount = some c.amount ∧ e.result = some res ∧
    (res = .APPROVED → s.honoured c x → e.flags = some { honoured := true }) ∧
    (res = .APPROVED → ¬ s.honoured c x → e.flags = some (if s.pbc.reversals.length < 8 then { reversalQueued := true }
      else { refundNotIssued := true }))

theorem State.mem_post_self {s : State} {e : EventRec} (room : s.kli.queue.length < 64) : e ∈ (s.post e).kli.queue := by
  change e ∈ (s.kli.post e).queue
  rw [Kli.queue_post e room]
  exact List.mem_append_right _ (List.mem_singleton_self e)

section
variable {s : State} {r : Nat} {m : BusMsg} {c : Charge} {x : Parcel} {res : PayResult} {app : Text}

theorem State.lateResult_honoured (parcel : (s.comp c.comp).parcel = some x) (honoured : s.honoured c x) :
    (s.busAnswered r m).lateResult r c .APPROVED app =
      let t := (s.settledBy r m c.ref).creditParcel c.comp c.amount
      t.post (t.lateEvent c .APPROVED app { honoured := true }) := by
  have test : (s.busAnswered r m).honours c = true := (State.honours_iff parcel).mpr honoured
  unfold State.lateResult
  dsimp only
  rw [if_pos rfl, if_pos test]
  rfl

theorem State.lateResult_gone (parcel : (s.comp c.comp).parcel = some x) (gone : ¬ s.honoured c x) :
    (s.busAnswered r m).lateResult r c .APPROVED app =
      let q := ((s.settledBy r m c.ref).dropParcelRef c.comp c.ref).queueReversal (c.lateReversal r)
      q.1.post (q.1.lateEvent c .APPROVED app (if q.2 then { reversalQueued := true } else { refundNotIssued := true })) := by
  have test : ¬ (s.busAnswered r m).honours c = true := mt (State.honours_iff parcel).mp gone
  unfold State.lateResult
  dsimp only
  rw [if_pos rfl, if_neg test]
  rfl

theorem State.lateResult_failed (failed : res ≠ .APPROVED) : (s.busAnswered r m).lateResult r c res app =
    let t := (s.settledBy r m c.ref).dropParcelRef c.comp c.ref
    t.post (t.lateEvent c res app {}) := if_neg failed

theorem State.lateSettled (res : PayResult) (app : Text) (known : 1 ≤ r ∧ r ≤ 4) (home : isComp c.comp)
    (parcel : (s.comp c.comp).parcel = some x) :
    s.LateSettled ((s.busAnswered r m).lateResult r c res app) r c x res := by
  obtain ⟨frame, settled, -⟩ := s.settledBy_spec m c.ref known
  have honouring := s.lateResult_honoured (r := r) (m := m) (app := app) parcel
  have going := s.lateResult_gone (r := r) (m := m) (app := app) parcel
  have failing := s.lateResult_failed (r := r) (m := m) (c := c) (res := res) (app := app)
  generalize s.settledBy r m c.ref = u at frame settled honouring going failing
  have reversals : u.pbc.reversals = s.pbc.reversals := (congrArg (fun w : State => w.pbc.reversals) frame :)
  have hce : u.hce = s.hce := (congrArg State.hce frame :)
  have kli : u.kli = s.kli := (congrArg State.kli frame :)
  have comp : ∀ n, u.comp n = s.comp n := fun n => (congrArg (fun w : State => w.comp n) frame :)
  have others : ∀ f, s.otherComps (u.updComp c.comp f) c.comp := fun f n other =>
    (State.comp_updComp_ne u f (Ne.symm other)).trans (comp n)
  have own : ∀ f, (u.updComp c.comp f).comp c.comp = f (s.comp c.comp) := fun f =>
    (State.comp_updComp_self u f home.1 home.2).trans (congrArg f (comp _))
  have minute : u.now = s.now ∧ u.parcelPage x = s.parcelPage x :=
    ⟨(congrArg State.now frame :), (congrArg (fun w : State => w.parcelPage x) frame :)⟩
  by_cases approved : res = .APPROVED
  · subst approved
    by_cases honoured : s.honoured c x
    · rw [honouring honoured, State.creditParcel_eq c.amount ((congrArg Compartment.parcel (comp c.comp)).trans parcel),
        minute.1, minute.2]
      exact {
        hce := hce
        others := others fun c' => c'.withParcel (x.credited c.amount (s.parcelPage x).grace s.now)
        reader := settled
        credited := fun _ _ => own fun c' => c'.withParcel (x.credited c.amount (s.parcelPage x).grace s.now)
        unreversed := fun _ => reversals
        reversed := fun _ gone => absurd honoured gone
        freed := fun gone => absurd honoured (gone rfl)
        told := fun room => ⟨_, State.mem_post_self (by rw [← kli] at room; exact room), rfl, rfl, rfl, rfl, fun _ _ => rfl,
          fun _ gone => absurd honoured gone⟩ }
    · rw [going honoured]
      have asked := State.queueReversal_frame (u.dropParcelRef c.comp c.ref) (c.lateReversal r)
      have rests : (((u.dropParcelRef c.comp c.ref).queueReversal (c.lateReversal r)).1.reader r).settled c.ref :=
        State.settled_queueReversal (v := c.lateReversal r) known settled
      obtain ⟨joins, full⟩ := State.pbc_queueReversal (s := u.dropParcelRef c.comp c.ref) (v := c.lateReversal r)
      generalize (u.dropParcelRef c.comp c.ref).queueReversal (c.lateReversal r) = q at asked rests joins full
      obtain ⟨w, admitted⟩ := q
      dsimp only at asked rests joins full ⊢
      change u.pbc.reversals.length < 8 → w.pbc.reversals = u.pbc.reversals ++ _ ∧ _ at joins
      change 8 ≤ u.pbc.reversals.length → _ at full
      rw [reversals] at joins full
      have wcomp : ∀ n, w.comp n = (u.dropParcelRef c.comp c.ref).comp n := fun n => (congrArg (fun w : State => w.comp n) asked :)
      have wkli : w.kli = s.kli := (congrArg State.kli asked :).trans kli
      exact {
        hce := (congrArg State.hce asked :).trans hce
        others := fun n other => (wcomp n).trans (others _ n other)
        reader := rests
        credited := fun _ honoured' => absurd honoured' honoured
        unreversed := fun only => by
          have many := (only rfl).resolve_left honoured
          exact (congrArg (fun z : State × Bool => z.1.pbc.reversals) (full many) :).trans reversals
        reversed := fun _ _ few => (joins few).1
        freed := fun _ => (wcomp _).trans (own _)
        told := fun room => ⟨_, State.mem_post_self (by rw [← wkli] at room; exact room), rfl, rfl, rfl, rfl,
          fun _ honoured' => absurd honoured' honoured, fun _ _ => by
            by_cases few : s.pbc.reversals.length < 8
            · rw [if_pos few, (joins few).2]
              rfl
            · obtain rfl : admitted = false := congrArg Prod.snd (full (by omega))
              rw [if_neg few]
              rfl⟩ }
  · rw [failing approved]
    exact {
      hce := hce
      others := others fun c' => c'.withoutRef c.ref
      reader := settled
      credited := fun is => absurd is approved
      unreversed := fun _ => reversals
      reversed := fun is => absurd is approved
      freed := fun _ => own fun c' => c'.withoutRef c.ref
      told := fun room => ⟨_, State.mem_post_self (by rw [← kli] at room; exact room), rfl, rfl, rfl, rfl,
        fun is => absurd is approved, fun is => absurd is approved⟩ }

end

/-! ### Results that match no record (R160) -/

/-- PAYMENT_RESULT of a result that no record is for (R160). -/
def State.unmatched (s : State) (r ref : Nat) (res : PayResult) (app : Text) : EventRec :=
  { kind := .PAYMENT_RESULT, minute := s.now, reader := some r, chargeRef := some ref, result := some res,
    text := if res = .APPROVED then some app else none, flags := some { unmatched := true } }

/-- A reader that has sent a result which no record is for. -/
def Reader.astray (x : Reader) (m : BusMsg) (ref : Nat) : Reader := (x.answered m).ackFirst ref

theorem State.strayResult_eq (s : State) (r : Nat) (m : BusMsg) (ref : Nat) (res : PayResult) (app : Text) :
    (s.busAnswered r m).strayResult r ref res app = { s with
      kli := if (s.reader r).lastSettled = some ref then s.kli else s.kli.post (s.unmatched r ref res app)
      pbc := { s.pbc with
        line := none, retry := none, lastReader := r
        readers := tput s.pbc.readers r ((s.reader r).astray m ref) } } := by
  have acked : (s.busAnswered r m).updReader r (fun x => x.ackFirst ref) =
      (s.lineFreed r).updReader r fun x => x.astray m ref := s.busAnswered_then r m fun x => x.ackFirst ref
  unfold State.strayResult
  dsimp only
  rw [acked, (s.charge_busAnswered r m).2]
  split <;> rfl

section
variable {r ref : Nat} {m : BusMsg} {s : State}

theorem result_unmatched (res : PayResult) (app : Text) (line : s.pbc.line = some (r, m))
    (asks : m = .POLL ∨ m.isAbandon = true) (other : ∀ c, (s.reader r).charge = some c → c.ref ≠ ref) :
    let kli := if (s.reader r).lastSettled = some ref then s.kli else s.kli.post (s.unmatched r ref res app)
    ((s.reader r).state ≠ .OFFLINE → exec (.result r ref res app) s = .next { s with
        kli := kli
        pbc := { s.pbc with
          line := none, retry := none, lastReader := r
          readers := tput s.pbc.readers r ((s.reader r).astray m ref) } }.pass) ∧
    ((s.reader r).state = .OFFLINE → 1 ≤ r → r ≤ 4 →
      ∃ v : State, exec (.result r ref res app) s = .next v.pass ∧ v = { s with kli := kli, pbc := v.pbc } ∧
        (v.reader r).pollTimer = .stopped ∧ (v.reader r).outgoing.head? = some (.RESULT_ACK ref) ∧
        (v.reader r).charge = (s.reader r).charge ∧ v.pbc.reversals = s.pbc.reversals ∧
        ((s.reader r).charge.isSome = true → (v.reader r).state = .ABANDONING ∧
          ∃ y ∈ (v.reader r).outgoing, y.isAbandon = true) ∧
        ((s.reader r).charge = none → (∀ e ∈ s.pbc.reversals, e.reader ≠ r) → (v.reader r).state = .IDLE) ∧
        ((s.reader r).charge = none → (∃ e ∈ s.pbc.reversals, e.reader = r) → (v.reader r).state = .REVERSING ∧
          ∃ y ∈ (v.reader r).outgoing, y.isReverse = true)) := by
  intro kli
  have taken := (State.takeResult_stray (m := m) (res := res) (app := app) other).trans (s.strayResult_eq r m ref res app)
  refine ⟨fun up => ?_, fun down lo hi => ?_⟩
  · rw [exec_result_up line asks up, taken]
  · have known := And.intro lo hi
    have run := exec_result_down (ref := ref) (res := res) (app := app) line asks down
    rw [taken] at run
    refine ⟨_, run, ?_⟩
    generalize eu : ({ s with
      kli := kli
      pbc := { s.pbc with
        line := none, retry := none, lastReader := r
        readers := tput s.pbc.readers r ((s.reader r).astray m ref) } } : State) = u
    have read : u.reader r = (s.reader r).astray m ref := by
      rw [← eu]
      exact tget_tput_self _ _ _ lo hi
    have same : u = { s with kli := kli, pbc := u.pbc } := by rw [← eu]
    have reversals : u.pbc.reversals = s.pbc.reversals := by rw [← eu]
    have acked : ((u.returnReader r).reader r).outgoing.head? = some (.RESULT_ACK ref) :=
      State.ack_returnReader known (by rw [read]; rfl)
    obtain ⟨frame, timer, charge, abandons, idle, reverses⟩ := State.returnReader_spec (s := u) known
    generalize u.returnReader r = v at *
    rw [read] at charge abandons idle reverses
    rw [reversals] at idle reverses
    refine ⟨?_, timer, acked, charge, (congrArg (fun w : State => w.pbc.reversals) frame :).trans reversals, fun held => ?_,
      idle, reverses⟩
    · rw [frame, same]
    · obtain ⟨c, held⟩ := Option.isSome_iff_exists.mp held
      exact abandons c held

end

/-- No reference that has left a parcel is on it. -/
theorem Compartment.withoutRef_free {c : Compartment} {ref : Nat} {x : Parcel} (parcel : (c.withoutRef ref).parcel = some x) :
    x.chargeRef ≠ some ref := by
  obtain ⟨y, -, rfl⟩ := Option.map_eq_some_iff.mp parcel
  unfold Parcel.withoutRef
  split
  · exact nofun
  · assumption

/-! ### ABANDONED, REVERSED and REVERSE_FAILED (R158, R162) -/

theorem abandoned_settles (r ref : Nat) (c : Charge) (s : State) (line : s.pbc.line = some (r, .ABANDON ref))
    (charge : (s.reader r).charge = some c) (own : c.ref = ref) :
    ∃ t, exec (.abandoned r) s = .next t ∧ (t.reader r).charge = none ∧ t.pbc.line = none ∧
      ((∀ e ∈ s.pbc.reversals, e.reader ≠ r) → (t.reader r).state = .IDLE) ∧ s.otherComps t c.comp ∧
      (∀ x, (t.comp c.comp).parcel = some x → x.chargeRef ≠ some ref) ∧ t = { s with comps := t.comps, pbc := t.pbc } := by
  subst own
  have known := State.reader_known_of_charge charge
  have run : exec (.abandoned r) s = .next ((((s.busAnswered r (.ABANDON c.ref)).dropCharge r).dropParcelRef c.comp c.ref
      ).restReader r) := by
    change execAbandoned r s = _
    unfold execAbandoned
    rw [State.awaited_of_line line]
    dsimp only
    rw [State.chargeNamed_own ((s.charge_busAnswered r _).1.trans charge)]
  refine ⟨_, run, ?_⟩
  generalize eu : ((s.busAnswered r (.ABANDON c.ref)).dropCharge r).dropParcelRef c.comp c.ref = u
  have same : u = { s with comps := u.comps, pbc := u.pbc } := by rw [← eu]; rfl
  have free : u.pbc.line = none ∧ u.pbc.reversals = s.pbc.reversals := by rw [← eu]; exact ⟨rfl, rfl⟩
  have gone : (u.reader r).charge = none := by
    rw [← eu, State.reader_dropParcelRef]
    unfold State.dropCharge
    rw [State.reader_updReader, if_pos ⟨rfl, known⟩]
  have comps : u.comps = (s.updComp c.comp fun c' => c'.withoutRef c.ref).comps := by rw [← eu]; rfl
  have frame := State.restReader_frame u r
  have idle := (State.restReader_reader (s := u) known).1
  have rested := State.charge_restReader u r r
  generalize u.restReader r = t at *
  have tcomp : ∀ n, t.comp n = u.comp n := fun n => (congrArg (fun w : State => w.comp n) frame :)
  refine ⟨by rw [rested]; exact gone, (congrArg (fun w : State => w.pbc.line) frame :).trans free.1,
    fun absent => by rw [idle (by rw [free.2]; exact absent)], fun n other => ?_, fun x parcel => ?_, ?_⟩
  · rw [tcomp, State.comp_of_updComp comps, if_neg fun h => other h.1.symm]
  · rw [tcomp, State.comp_of_updComp comps] at parcel
    exact Compartment.withoutRef_free (c := s.comp c.comp) (by
      split at parcel
      · exact parcel
      · rename_i out
        rw [s.comp_outside fun home => out ⟨rfl, home⟩] at parcel
        exact nomatch parcel)
  · rw [frame, same]

theorem reversal_ends (r ref a : Nat) (e : Reversal) (k : EventKind) (c : Instr) (s : State)
    (answer : (c = .reversed r ∧ k = .REVERSAL_DONE) ∨ (c = .reverseFailed r ∧ k = .REVERSAL_FAILED))
    (line : s.pbc.line = some (r, .REVERSE ref a)) (found : s.pbc.reversals.find? (fun v => v.ref == ref) = some e) :
    ∃ t, exec c s = .next t ∧ t.pbc.reversals = s.pbc.reversals.filter (fun v => v.ref != ref) ∧
      t.pbc.line = none ∧ t = { s with pbc := t.pbc, kli := t.kli } ∧
      (s.kli.queue.length < 64 → ∃ y, t.kli.queue = s.kli.queue ++ [y] ∧ y.kind = k ∧ y.chargeRef = some e.ref ∧
        y.amount = some e.amount ∧ y.comp = some e.comp) := by
  have run : exec c s = .next ((s.busAnswered r (.REVERSE ref a)).reversalEnd r ref k) := by
    rcases answer with ⟨rfl, rfl⟩ | ⟨rfl, rfl⟩
    · change execReversed r s = _
      unfold execReversed
      rw [State.awaited_of_line line]
    · change execReverseFailed r s = _
      unfold execReverseFailed
      rw [State.awaited_of_line line]
  have ended : (s.busAnswered r (.REVERSE ref a)).reversalEnd r ref k = ((((s.busAnswered r (.REVERSE ref a)).dropReversal ref
      ).post (s.reversalEvent k e)).restReader r) := by
    unfold State.reversalEnd
    have found' : (s.busAnswered r (.REVERSE ref a)).pbc.reversals.find? (fun v => v.ref == ref) = some e := found
    rw [found']
    rfl
  rw [ended] at run
  refine ⟨_, run, ?_⟩
  generalize eu : ((s.busAnswered r (.REVERSE ref a)).dropReversal ref).post (s.reversalEvent k e) = u
  obtain ⟨rs, frame⟩ : ∃ rs, u.restReader r = { u with pbc := { u.pbc with readers := rs } } := ⟨_, State.restReader_frame u r⟩
  rw [frame, ← eu]
  refine ⟨rfl, rfl, rfl, fun room => ⟨s.reversalEvent k e, Kli.queue_post _ room, ?_⟩⟩
  unfold State.reversalEvent
  cases e.origin <;> exact ⟨rfl, rfl, rfl, rfl⟩

/-! ### Results of a charge whose operation waits (R121, R155) -/

/-- An operation that waits for its payment asks for no reversal: its end leaves the bus as it was (R86). -/
theorem State.pbc_endedBy_waiting {s : State} {o : Op} {out : CycleOutcome} (waits : o.stage = .AWAIT_PAYMENT)
    (given : out ≠ .STRIKE_FAILED) (es : List EventRec) : ((s.endedBy o out false).posts es).pbc = s.pbc := by
  have owes : o.owesReversal out = false := by
    unfold Op.owesReversal
    simp [waits, given]
  refine (congrArg State.pbc (s.endedBy_frame o out false) :).trans ?_
  change (s.afterReversal o out false).1.pbc = s.pbc
  unfold State.afterReversal State.reverseDrop
  rw [owes]
  exact State.pbc_endEffect

theorem State.pbc_endOp_waiting {s : State} {o : Op} {out : CycleOutcome} (plain : o.purpose ≠ .SWEEP)
    (waits : o.stage = .AWAIT_PAYMENT) (given : out ≠ .STRIKE_FAILED) (unheld : out ≠ .HELD) : (s.endOp o out).pbc = s.pbc := by
  rw [State.endOp_plain (.inl plain) fun h => unheld h.2]
  exact State.pbc_endedBy_waiting waits given _

theorem State.joinQueue_waiting {s : State} {j : Nat} {o : Op} (found : s.opByJob j = some o)
    (waits : o.stage = .AWAIT_PAYMENT) (present : (s.slot o.link o.slot).state = .PRESENT) : s.joinQueue j =
      (s.updOp j fun o => { o with stage := .QUEUED }).updLink o.link fun x => { x with prio := x.prio ++ [j] } := by
  unfold State.joinQueue
  rw [found]
  dsimp only
  rw [if_neg (not_not.mpr waits), if_pos present]

/-- The operation of a charge that is approved: a collection lets go of it, a return drop keeps it (R121, R155). -/
def Charge.paidOp (c : Charge) (o : Op) : Op :=
  match c.ident.kind with
  | .DELIVERY => { o with chargeRef := none, amount := none }
  | .RETURN => o

/-- The parcel of a charge that is approved (R121, R155). -/
def Charge.paidParcel (c : Charge) (x : Parcel) (grace minute : Nat) : Parcel :=
  match c.ident.kind with
  | .DELIVERY => x.credited c.amount grace minute
  | .RETURN => { x with paid := c.amount }

theorem Charge.paidOp_waits (c : Charge) (o : Op) :
    (c.paidOp o).stage = o.stage ∧ (c.paidOp o).link = o.link ∧ (c.paidOp o).slot = o.slot := by
  unfold Charge.paidOp
  split <;> exact ⟨rfl, rfl, rfl⟩

theorem State.approve_spec {u : State} {c : Charge} {j : Nat} {o : Op} {x : Parcel} (job : c.job = some j)
    (found : u.opByJob j = some o) (parcel : (u.comp c.comp).parcel = some x) : let t := u.approve c
    t = { u with comps := t.comps, hce := t.hce } ∧ t.opByJob j = some (c.paidOp o) ∧
    t.comps = (u.updComp c.comp fun c' => c'.withParcel (c.paidParcel x (u.parcelPage x).grace u.now)).comps := by
  unfold State.approve Charge.paidOp Charge.paidParcel
  cases c.ident.kind with
  | DELIVERY =>
    dsimp only
    rw [job, State.creditParcel_eq c.amount parcel]
    exact ⟨rfl, State.opByJob_updOp (f := fun y => { y with chargeRef := none, amount := none }) found fun _ => rfl, rfl⟩
  | RETURN =>
    refine ⟨rfl, found, congrArg (fun c' => (u.updComps fun v => tput v c.comp c').comps) ?_⟩
    change ({ u.comp c.comp with parcel := (u.comp c.comp).parcel.map _ } : Compartment) = _
    rw [parcel]
    rfl

section
variable {s : State} {r ref j : Nat} {m : BusMsg} {c : Charge} {o : Op} {x : Parcel} {res : PayResult}

theorem State.paymentResult_items (u : State) (app : Text) : let e := u.paymentResult r c res app
    e.kind = .PAYMENT_RESULT ∧ e.job = c.job ∧ e.chargeRef = some c.ref ∧ e.amount = some c.amount ∧ e.result = some res :=
  ⟨rfl, rfl, rfl, rfl, rfl⟩

theorem State.applyResult_approved (app : Text) (known : 1 ≤ r ∧ r ≤ 4) (job : c.job = some j)
    (found : s.opByJob j = some o) (waits : o.stage = .AWAIT_PAYMENT) (home : isComp c.comp)
    (parcel : (s.comp c.comp).parcel = some x) (present : (s.slot o.link o.slot).state = .PRESENT) :
    let v := (s.busAnswered r m).applyResult r c .APPROVED app
    s.otherComps v c.comp ∧ v.reader r = (s.settledBy r m c.ref).reader r ∧
    v.comp c.comp = (s.comp c.comp).withParcel (c.paidParcel x (s.parcelPage x).grace s.now) ∧
    v.opByJob j = some { c.paidOp o with stage := .QUEUED } ∧ (v.link o.link).prio = (s.link o.link).prio ++ [j] ∧
    (s.kli.queue.length < 64 → ∃ e ∈ v.kli.queue, e.kind = .PAYMENT_RESULT ∧ e.job = some j ∧ e.chargeRef = some c.ref ∧
      e.amount = some c.amount ∧ e.result = some .APPROVED) := by
  obtain ⟨frame, -, -⟩ := s.settledBy_spec m c.ref known
  have applied : (s.busAnswered r m).applyResult r c .APPROVED app =
      let t := (s.settledBy r m c.ref).approve c
      (t.post (t.paymentResult r c .APPROVED app)).joinQueue j := by
    unfold State.applyResult
    dsimp only
    rw [if_pos rfl, job]
    rfl
  generalize s.settledBy r m c.ref = u at frame applied ⊢
  have slot : (u.slot o.link o.slot).state = .PRESENT := (congrArg (fun w : State => (w.slot o.link o.slot).state) frame :).trans present
  have links : u.links = s.links := (congrArg State.links frame :)
  have comp : ∀ n, u.comp n = s.comp n := fun n => (congrArg (fun w : State => w.comp n) frame :)
  have minute : u.now = s.now ∧ u.parcelPage x = s.parcelPage x :=
    ⟨(congrArg State.now frame :), (congrArg (fun w : State => w.parcelPage x) frame :)⟩
  obtain ⟨approved, paid, comps⟩ := State.approve_spec (u := u) job ((congrArg (fun w : State => w.opByJob j) frame :).trans found)
    ((congrArg Compartment.parcel (comp _)).trans parcel)
  rw [minute.1, minute.2] at comps
  generalize u.approve c = t at approved paid comps applied
  dsimp only at applied
  have items := t.paymentResult_items (r := r) (c := c) (res := .APPROVED) app
  generalize t.paymentResult r c .APPROVED app = e at items applied
  obtain ⟨stage, link, sl⟩ := c.paidOp_waits o
  have joined : (t.post e).joinQueue j = _ := State.joinQueue_waiting (o := c.paidOp o) paid (stage.trans waits) (by
    rw [link, sl]
    exact (congrArg (fun w : State => (w.slot o.link o.slot).state) approved :).trans slot)
  rw [link] at joined
  rw [joined] at applied
  dsimp only
  rw [applied]
  refine ⟨fun n other => ?_, (congrArg (fun w : State => w.reader r) approved :), ?_, ?_, ?_, fun room => ⟨e, ?_, ?_⟩⟩
  · exact (State.comp_of_updComp comps n).trans ((if_neg fun h => other h.1.symm).trans (comp n))
  · exact (State.comp_of_updComp comps c.comp).trans ((if_pos ⟨rfl, home⟩).trans
      (congrArg (fun c' => Compartment.withParcel c' _) (comp c.comp)))
  · exact State.opByJob_updOp (s := t.post e) (f := fun y => { y with stage := .QUEUED }) paid fun _ => rfl
  · rw [State.link_updLink, if_pos ⟨rfl, (State.known_of_present present).1⟩]
    exact congrArg (fun y : Link => y.prio ++ [j]) ((congrArg (fun w : State => w.link o.link) approved :).trans
      (congrArg (fun w => tget w Link.empty o.link) links))
  · have kli : t.kli = s.kli := (congrArg State.kli approved :).trans (congrArg State.kli frame :)
    exact State.mem_post_self (s := t) (by rw [kli]; exact room)
  · obtain ⟨kind, job', items⟩ := items
    exact ⟨kind, job'.trans job, items⟩

theorem State.applyResult_declined (app : Text) (declined : res ≠ .APPROVED) (known : 1 ≤ r ∧ r ≤ 4) (job : c.job = some j)
    (found : s.opByJob j = some o) (waits : o.stage = .AWAIT_PAYMENT) (plain : o.purpose ≠ .SWEEP) (own : o.comp = c.comp)
    (home : isComp c.comp) :
    let v := (s.busAnswered r m).applyResult r c res app
    s.otherComps v c.comp ∧ v.reader r = (s.settledBy r m c.ref).reader r ∧ v.pbc.reversals = s.pbc.reversals ∧
    v.comp c.comp = { ((s.comp c.comp).withoutRef c.ref).ended o.purpose .PAYMENT_DECLINED false s.now with purpose := none } ∧
    v.hce.ops = s.hce.ops.filter (fun y => y.job != j) ∧
    (s.kli.queue.length < 63 →
      (∃ e ∈ v.kli.queue, e.kind = .PAYMENT_RESULT ∧ e.job = some j ∧ e.chargeRef = some c.ref ∧
        e.amount = some c.amount ∧ e.result = some res) ∧
      ∃ e ∈ v.kli.queue, e.kind = .CYCLE_DONE ∧ e.job = some j ∧ e.outcome = some .PAYMENT_DECLINED) := by
  obtain ⟨frame, -, -⟩ := s.settledBy_spec m c.ref known
  have applied : (s.busAnswered r m).applyResult r c res app =
      let t := (s.settledBy r m c.ref).dropParcelRef c.comp c.ref
      (t.post (t.paymentResult r c res app)).endJob j .PAYMENT_DECLINED := by
    unfold State.applyResult
    dsimp only
    rw [if_neg declined, job]
    dsimp only
    rw [if_neg declined]
    rfl
  generalize s.settledBy r m c.ref = u at frame applied ⊢
  dsimp only at applied
  have items := (u.dropParcelRef c.comp c.ref).paymentResult_items (r := r) (c := c) (res := res) app
  generalize (u.dropParcelRef c.comp c.ref).paymentResult r c res app = e at items applied
  generalize et : (u.dropParcelRef c.comp c.ref).post e = t at applied
  have comps : t.comps = (s.updComp c.comp fun c' => c'.withoutRef c.ref).comps := by
    rw [← et, frame]
    rfl
  have pbc : t.pbc = u.pbc := by rw [← et]; rfl
  have hce : t.hce = s.hce := by rw [← et, frame]; rfl
  have kli : t.kli = s.kli.post e := by rw [← et, frame]; rfl
  have minute : t.now = s.now := by rw [← et, frame]; rfl
  have found' : t.opByJob j = some o := (congrArg (fun h : Hce => h.ops.find? fun o : Op => o.job == j) hce).trans found
  have number := State.opByJob_job found
  rw [State.endJob_some found'] at applied
  have bus := State.pbc_endOp_waiting (s := t) plain waits (out := .PAYMENT_DECLINED) (by decide) (by decide)
  have ops := State.ops_endOp (s := t) (o := o) (out := .PAYMENT_DECLINED) (occ := false) (.inl plain)
  have tells := State.endOp_tells (s := t) (o := o) (out := .PAYMENT_DECLINED) (occ := false) (.inl plain)
  have queue := (State.endOp_ends (s := t) (o := o) (out := .PAYMENT_DECLINED) (.inl plain)
    ⟨o, List.mem_of_find?_eq_some found', rfl⟩ (by decide)).queue
  have ended := State.endOp_plain (s := t) (o := o) (out := .PAYMENT_DECLINED) (occ := false) (.inl plain)
    fun h => CycleOutcome.noConfusion h.2
  dsimp only
  rw [applied]
  refine ⟨fun n other => ?_, (congrArg (fun b : Pbc => tget b.readers Reader.empty r) (bus.trans pbc)), ?_, ?_, ?_, fun room => ⟨⟨e, ?_, ?_⟩, ?_⟩⟩
  · rw [ended, State.endedBy_others t o _ false _ n (own ▸ other), State.comp_of_updComp comps, if_neg fun h => other h.1.symm]
  · rw [bus, pbc]
    exact (congrArg (fun w : State => w.pbc.reversals) frame :)
  · rw [← own] at home comps ⊢
    rw [ended, State.endedBy_comp _ home, minute, State.comp_of_updComp comps, if_pos ⟨rfl, home⟩]
  · rw [ops, hce, number]
  · refine queue e ?_
    rw [kli, Kli.queue_post e (by omega)]
    exact List.mem_append_right _ (List.mem_singleton_self e)
  · obtain ⟨kind, job', items⟩ := items
    exact ⟨kind, job'.trans job, items⟩
  · have length : t.kli.queue.length < 64 := by
      rw [kli]
      have := s.kli.length_post_le e
      omega
    obtain ⟨y, mem, told, -⟩ := tells length
    obtain ⟨kind, -, job', out⟩ := told
    exact ⟨y, mem, kind, number ▸ job', out⟩

end

/-- The parcel that holds a reference loses it as the charge is declined. -/
theorem Compartment.withoutRef_held {c : Compartment} {x : Parcel} {ref : Nat} (parcel : c.parcel = some x)
    (held : x.chargeRef = some ref) :
    c.withoutRef ref = c.withParcel { x with chargeRef := none, chargeReader := none } :=
  Compartment.withoutRef_holder parcel held

theorem result_settles (r ref j : Nat) (m : BusMsg) (c : Charge) (o : Op) (x : Parcel) (res : PayResult) (app : Text)
    (s : State) (line : s.pbc.line = some (r, m)) (asks : m = .POLL ∨ m.isAbandon = true)
    (up : (s.reader r).state ≠ .OFFLINE) (charge : (s.reader r).charge = some c) (named : c.ref = ref)
    (live : c.phase ≠ .ABANDON_DUE) (job : c.job = some j) (found : s.opByJob j = some o) (waits : o.stage = .AWAIT_PAYMENT)
    (plain : o.purpose ≠ .SWEEP) (own : o.comp = c.comp) (home : isComp c.comp) (parcel : (s.comp c.comp).parcel = some x)
    (held : x.chargeRef = some ref) (present : (s.slot o.link o.slot).state = .PRESENT) :
    ∃ v : State, exec (.result r ref res app) s = .next v.pass ∧ s.otherComps v c.comp ∧
      (v.reader r).charge = none ∧ (v.reader r).lastSettled = some ref ∧
      (v.reader r).outgoing.head? = some (.RESULT_ACK ref) ∧
      ((∀ e ∈ s.pbc.reversals, e.reader ≠ r) → (v.reader r).state = .IDLE) ∧
      (res = .APPROVED → c.ident.kind = .DELIVERY → o.purpose = .COLLECT →
        v.comp c.comp = { s.comp c.comp with parcel := some { x with
          paid := x.paid + c.amount, chargeRef := none, chargeReader := none
          paidThrough := some (min (s.now + (s.parcelPage x).grace) 4294967295) } } ∧
        v.opByJob j = some { o with stage := .QUEUED, chargeRef := none, amount := none } ∧
        (v.link o.link).prio = (s.link o.link).prio ++ [j]) ∧
      (res = .APPROVED → c.ident.kind = .RETURN → o.purpose = .RETURN_DROP →
        v.comp c.comp = { s.comp c.comp with parcel := some { x with paid := c.amount } } ∧
        v.opByJob j = some { o with stage := .QUEUED } ∧
        (v.link o.link).prio = (s.link o.link).prio ++ [j]) ∧
      (res ≠ .APPROVED → o.purpose = .COLLECT →
        v.comp c.comp = { s.comp c.comp with
          purpose := none, parcel := some { x with chargeRef := none, chargeReader := none } } ∧
        v.hce.ops = s.hce.ops.filter fun y => y.job != j) ∧
      (res ≠ .APPROVED → o.purpose = .RETURN_DROP →
        v.hce.ops = s.hce.ops.filter (fun y => y.job != j) ∧ v.pbc.reversals = s.pbc.reversals ∧
        (∀ w, x.prior = some (.reserved w) → s.now < w.expiry → v.comp c.comp = { s.comp c.comp with
          purpose := none, state := .RESERVED, parcel := none, reservation := some w }) ∧
        (x.prior = some .free ∨ (∃ w, x.prior = some (.reserved w) ∧ w.expiry ≤ s.now) → v.comp c.comp =
          { s.comp c.comp with purpose := none, state := .FREE, parcel := none })) ∧
      (s.kli.queue.length < 63 →
        (∃ e ∈ v.kli.queue, e.kind = .PAYMENT_RESULT ∧ e.job = some j ∧ e.chargeRef = some ref ∧
          e.amount = some c.amount ∧ e.result = some res) ∧
        (res ≠ .APPROVED → ∃ e ∈ v.kli.queue, e.kind = .CYCLE_DONE ∧ e.job = some j ∧
          e.outcome = some .PAYMENT_DECLINED)) := by
  subst named
  have known := State.known_of_up up
  obtain ⟨-, settled, idle⟩ := s.settledBy_spec m c.ref known
  have run := exec_result_up (ref := c.ref) (res := res) (app := app) line asks up
  rw [State.takeResult_charged charge, if_neg live] at run
  refine ⟨_, run, ?_⟩
  by_cases approved : res = .APPROVED
  · subst approved
    obtain ⟨others, reader, comp, op, prio, told⟩ :=
      State.applyResult_approved (m := m) app known job found waits home parcel present
    generalize (s.busAnswered r m).applyResult r c .APPROVED app = v at others reader comp op prio told ⊢
    unfold Charge.paidParcel at comp
    unfold Charge.paidOp at op
    rw [← reader] at settled idle
    refine ⟨others, settled.charge, settled.last, settled.ack, idle, fun _ delivery _ => ?_, fun _ return_ _ => ?_,
      fun failed => absurd rfl failed, fun failed => absurd rfl failed, fun room => ⟨told (by omega), fun failed => absurd rfl failed⟩⟩
    · rw [delivery] at comp op
      exact ⟨comp, op, prio⟩
    · rw [return_] at comp op
      exact ⟨comp, op, prio⟩
  · obtain ⟨others, reader, reversals, comp, ops, told⟩ :=
      State.applyResult_declined (m := m) app approved known job found waits plain own home
    generalize (s.busAnswered r m).applyResult r c res app = v at others reader reversals comp ops told ⊢
    rw [← reader] at settled idle
    rw [Compartment.withoutRef_held parcel held] at comp
    refine ⟨others, settled.charge, settled.last, settled.ack, idle, fun is => absurd is approved, fun is => absurd is approved,
      fun _ collect => ⟨?_, ops⟩, fun _ drop => ⟨ops, reversals, fun w prior later => ?_, fun prior => ?_⟩,
      fun room => ⟨(told room).1, fun _ => (told room).2⟩⟩
    · rw [Compartment.ended_kept (.inl collect) (by decide) (by decide) (by decide)] at comp
      exact comp
    · rw [Compartment.ended_undone (.inr drop) (by decide) (by decide),
        Compartment.undone_reserved (x := { x with chargeRef := none, chargeReader := none }) rfl prior, if_pos later] at comp
      exact comp
    · rw [Compartment.ended_undone (.inr drop) (by decide) (by decide),
        Compartment.undone_free (x := { x with chargeRef := none, chargeReader := none }) rfl prior] at comp
      exact comp

theorem lateResult_settles (r : Nat) (m : BusMsg) (c : Charge) (x : Parcel) (app : Text) (s : State)
    (line : s.pbc.line = some (r, m)) (asks : m = .POLL ∨ m.isAbandon = true) (up : (s.reader r).state ≠ .OFFLINE)
    (charge : (s.reader r).charge = some c) (due : c.phase = .ABANDON_DUE) (home : isComp c.comp)
    (parcel : (s.comp c.comp).parcel = some x) :
    ∃ v : State, exec (.result r c.ref .APPROVED app) s = .next v.pass ∧ s.LateSettled v r c x .APPROVED := by
  have run := exec_result_up (ref := c.ref) (res := .APPROVED) (app := app) line asks up
  rw [State.takeResult_charged charge, if_pos due] at run
  exact ⟨_, run, State.lateSettled .APPROVED app (State.known_of_up up) home parcel⟩

theorem returningResult_settles (r : Nat) (c : Charge) (x : Parcel) (res : PayResult) (app : Text) (s : State)
    (line : s.pbc.line = some (r, .POLL)) (known : 1 ≤ r ∧ r ≤ 4) (down : (s.reader r).state = .OFFLINE)
    (charge : (s.reader r).charge = some c) (due : c.phase = .ABANDON_DUE) (home : isComp c.comp)
    (parcel : (s.comp c.comp).parcel = some x) :
    ∃ v : State, exec (.result r c.ref res app) s = .next v.pass ∧ s.LateSettled v r c x res ∧
      (v.reader r).pollTimer = .stopped ∧ ((∀ e ∈ v.pbc.reversals, e.reader ≠ r) → (v.reader r).state = .IDLE) ∧
      ((∃ e ∈ v.pbc.reversals, e.reader = r) → (v.reader r).state = .REVERSING) := by
  have run := exec_result_down (ref := c.ref) (res := res) (app := app) line (.inl rfl) down
  rw [State.takeResult_charged charge, if_pos due] at run
  refine ⟨_, run, ?_⟩
  have late := State.lateSettled (m := .POLL) res app known home parcel
  generalize (s.busAnswered r .POLL).lateResult r c res app = u at late ⊢
  obtain ⟨frame, timer, -, -, idle, reverses⟩ := State.returnReader_spec (s := u) known
  have settled := State.settled_returnReader known late.reader
  generalize u.returnReader r = v at *
  have comp : ∀ n, v.comp n = u.comp n := fun n => (congrArg (fun w : State => w.comp n) frame :)
  have reversals : v.pbc.reversals = u.pbc.reversals := (congrArg (fun w : State => w.pbc.reversals) frame :)
  have kli : v.kli = u.kli := (congrArg State.kli frame :)
  exact ⟨{
    hce := (congrArg State.hce frame :).trans late.hce
    others := fun n other => (comp n).trans (late.others n other)
    reader := settled
    credited := fun is honoured => (comp _).trans (late.credited is honoured)
    unreversed := fun only => reversals.trans (late.unreversed only)
    reversed := fun is gone few => reversals.trans (late.reversed is gone few)
    freed := fun gone => (comp _).trans (late.freed gone)
    told := fun room => kli ▸ late.told room },
    timer, reversals ▸ idle late.reader.charge, fun present => (reverses late.reader.charge (reversals ▸ present)).1⟩

/-- Settles O59. -/
theorem resultsSettleTheCharges : Obligations.ResultsSettleTheCharges := by
  refine ⟨result_settles, fun r m c x app s line asks up charge due home parcel => ?_,
    fun r ref m res app s line asks other => result_unmatched res app line asks other,
    fun r c x res app s line lo hi down charge due home parcel => ?_, abandoned_settles, reversal_ends⟩
  · intro honoured
    obtain ⟨v, run, late⟩ := lateResult_settles r m c x app s line asks up charge due home parcel
    refine ⟨v, run, late.reader.charge, late.others, late.hce,
      fun is => ⟨late.credited rfl is, late.unreversed fun _ => .inl is⟩, late.reversed rfl,
      fun _ full => late.unreversed fun _ => .inr full, fun gone => ?_, fun room => ?_⟩
    · rw [late.freed fun _ => gone, Compartment.withoutRef_parcel c.ref parcel]
    · obtain ⟨e, mem, kind, ref, amount, -, flags, flags'⟩ := late.told room
      exact ⟨e, mem, kind, ref, amount, flags rfl, flags' rfl⟩
  · intro honoured
    obtain ⟨v, run, late, timer, idle, reversing⟩ := returningResult_settles r c x res app s line ⟨lo, hi⟩ down charge due home
      parcel
    refine ⟨v, run, late.reader.charge, late.reader.last, late.reader.ack, timer, late.others, late.hce, idle, reversing,
      late.credited, late.reversed, fun is gone full => ⟨late.unreversed fun _ => .inr full, fun room => ?_⟩,
      fun failed => ⟨late.unreversed fun is => absurd is failed, ?_⟩, fun room => ?_⟩
    · obtain ⟨e, mem, kind, ref, -, -, -, flags⟩ := late.told room
      exact ⟨e, mem, kind, ref, (flags is gone).trans (by rw [if_neg (by omega)])⟩
    · rw [late.freed fun is => absurd is failed, Compartment.withoutRef_parcel c.ref parcel]
    · obtain ⟨e, mem, kind, ref, amount, result, -, -⟩ := late.told room
      exact ⟨e, mem, kind, ref, amount, result⟩

end Sys2Proof.Machine
end

