-- ==== Sys2Proof/Proofs/Alike.lean ====
section
/-! Two states that differ in what the cycles never read of the links, and the same change made to both. -/

namespace Sys2Proof.Machine

open Sys2Proof

/-! ### Changes that do not look at the links -/

/-- The state with other links. -/
def State.relink (s : State) (v : Vector Link 4) : State := { s with links := v }

/-- A change that neither reads nor writes the links. -/
def Blind (f : State → State) : Prop := ∀ (s : State) (v : Vector Link 4), f (s.relink v) = (f s).relink v

theorem Blind.comp {f g : State → State} (hf : Blind f) (hg : Blind g) : Blind fun s => g (f s) := fun s v =>
  (congrArg g (hf s v)).trans (hg (f s) v)

theorem Blind.links {f : State → State} (h : Blind f) (s : State) : (f s).links = s.links :=
  (congrArg State.links (h s s.links) :)

section
variable (s : State) (v : Vector Link 4) (n : Nat)

theorem State.comp_relink : (s.relink v).comp n = s.comp n := rfl

theorem State.now_relink : (s.relink v).now = s.now := rfl

theorem confirmParcel_relink (b : Bool) : (s.relink v).confirmParcel n b = (s.confirmParcel n b).relink v := by
  unfold State.confirmParcel
  rw [s.comp_relink]
  cases (s.comp n).parcel <;> rfl

theorem retire_relink : (s.relink v).retire n = (s.retire n).relink v := by
  unfold State.retire State.releasePage
  rw [s.comp_relink]
  cases (s.comp n).parcel with
  | none => rfl
  | some p => cases code : p.code <;> cases page : p.page <;> simp only [code, page] <;> rfl

theorem undo_relink : (s.relink v).undo n = ((s.undo n).1.relink v, (s.undo n).2) := by
  unfold State.undo State.releasePage
  rw [s.comp_relink]
  cases (s.comp n).parcel with
  | none => rfl
  | some p =>
    dsimp only
    rw [s.now_relink]
    cases p.page
    all_goals
      rcases p.prior with _ | _ | r
      · rfl
      · rfl
      · dsimp only
        split <;> rfl

theorem updRun_relink (k : Courier) (f : Run → Run) : (s.relink v).updRun k f = (s.updRun k f).relink v := by
  cases k <;> rfl

/-- The end of an operation does to its compartment what it does whatever the links are (R86 to R88). -/
theorem endEffect_relink (o : Op) (out : CycleOutcome) (occ : Bool) :
    (s.relink v).endEffect o out occ = ((s.endEffect o out occ).1.relink v, (s.endEffect o out occ).2) := by
  have undone : (s.relink v).endDeposit o.comp out = ((s.endDeposit o.comp out).1.relink v, (s.endDeposit o.comp out).2) := by
    unfold State.endDeposit
    rw [s.comp_relink, undo_relink, confirmParcel_relink, confirmParcel_relink]
    cases out <;> rfl
  unfold State.endEffect
  cases o.purpose
  case DEPOSIT | RETURN_DROP => exact undone
  case SERVICE_OPEN => cases out <;> rfl
  all_goals
    dsimp only [State.endCollect, State.endSweep, State.endServiceRemove]
    rw [retire_relink]
    cases out <;> rfl

theorem restReader_relink (r : Nat) : (s.relink v).restReader r = (s.restReader r).relink v := by
  have same : (s.relink v).oldestReversal r = s.oldestReversal r := rfl
  unfold State.restReader
  rw [same]
  cases s.oldestReversal r <;> rfl

theorem queueReversal_relink (x : Reversal) :
    (s.relink v).queueReversal x = ((s.queueReversal x).1.relink v, (s.queueReversal x).2) := by
  have same : (s.relink v).pbc = s.pbc ∧ (s.relink v).reader x.reader = s.reader x.reader := ⟨rfl, rfl⟩
  have rested := restReader_relink (s.updPbc fun p => { p with reversals := p.reversals ++ [x] }) v x.reader
  unfold State.queueReversal
  rw [same.1]
  dsimp only
  by_cases few : s.pbc.reversals.length < Config.reversalPlaces
  · rw [if_pos few, if_pos few]
    by_cases idle : (s.reader x.reader).state = .IDLE
    · rw [same.2, if_pos idle, if_pos idle]
      exact congrArg (fun t => (t, true)) rested
    · rw [same.2, if_neg idle, if_neg idle]
      rfl
  · rw [if_neg few, if_neg few]

theorem reverseDrop_relink (o : Op) (out : CycleOutcome) (r : Nat) :
    (s.relink v).reverseDrop o out r = ((s.reverseDrop o out r).1.relink v, (s.reverseDrop o out r).2) := by
  unfold State.reverseDrop
  rw [queueReversal_relink]
  split <;> rfl

theorem abandonOf_relink (j : Nat) : (s.relink v).abandonOf j = (s.abandonOf j).relink v := by
  have same : (s.relink v).readerOfJob j = s.readerOfJob j := rfl
  unfold State.abandonOf
  rw [same]
  cases s.readerOfJob j with
  | none => rfl
  | some r =>
    have reader : (s.relink v).reader r = s.reader r := rfl
    have pbc : (s.relink v).pbc = s.pbc := rfl
    dsimp only
    unfold State.abandonCharge
    rw [reader, pbc]
    cases (s.reader r).charge with
    | none => rfl
    | some c =>
      dsimp only
      split
      · exact restReader_relink ((s.dropCharge r).dropParcelRef c.comp c.ref) v r
      · rfl

theorem endRun_relink (k : Courier) : (s.relink v).endRun k = (s.endRun k).relink v := by
  have same : (s.relink v).side k = s.side k ∧ (s.relink v).hce = s.hce := ⟨by cases k <;> rfl, rfl⟩
  unfold State.endRun
  rw [same.1, same.2]
  cases (s.side k).run with
  | none => rfl
  | some r =>
    dsimp only
    split
    · cases k <;> rfl
    · rfl

theorem mapFaultEffect_relink (a : Addr) : (s.relink v).mapFaultEffect n a = (s.mapFaultEffect n a).relink v := by
  have same : ((s.relink v).markCause n .MAP_CHECK).capture = s.capture := rfl
  have same' : (s.markCause n .MAP_CHECK).capture = s.capture := rfl
  unfold State.mapFaultEffect State.reportFault
  rw [same, same']
  cases s.capture.held <;> rfl

theorem dropPending_relink (k : Courier) (es : List TagEntry) :
    (s.relink v).dropPending k n es = (s.dropPending k n es).relink v := by
  cases k <;> rfl

end

/-! ### Links that the cycles cannot tell apart -/

/-- What the cycles read of a slot: not its count of unanswered polls, its last STATUS, its memory and its marks. -/
def Slot.board (x : Slot) : Slot :=
  { x with unanswered := 0, lastStatus := none, hatch := Vector.replicate 16 .unknown, late := Vector.replicate 16 false }

/-- What the cycles read of a strike: not the hatch reading it keeps. -/
def Strike.unseen (x : Strike) : Strike := { x with hatchSeen := none }

/-- Two links that agree in what the cycles read. -/
structure Link.alike (x y : Link) : Prop where
  prio : y.prio = x.prio
  bulk : y.bulk = x.bulk
  strike : y.strike.map Strike.unseen = x.strike.map Strike.unseen
  boards : ∀ j, (y.slotAt j).board = (x.slotAt j).board

/-- Two states that agree in all but what the cycles do not read of the links. -/
structure State.alike (s t : State) : Prop where
  frame : t = s.relink t.links
  links : ∀ l, (s.link l).alike (t.link l)

theorem Link.alike.refl (x : Link) : x.alike x := ⟨rfl, rfl, rfl, fun _ => rfl⟩

theorem Link.alike.trans {x y z : Link} (h : x.alike y) (h' : y.alike z) : x.alike z :=
  ⟨h'.prio.trans h.prio, h'.bulk.trans h.bulk, h'.strike.trans h.strike, fun j => (h'.boards j).trans (h.boards j)⟩

theorem State.alike.refl (s : State) : s.alike s := ⟨rfl, fun _ => .refl _⟩

theorem State.alike.trans {s t u : State} (h : s.alike t) (h' : t.alike u) : s.alike u where
  frame := by
    rw [h'.frame]
    conv_lhs => rw [h.frame]
    rfl
  links l := (h.links l).trans (h'.links l)

section
variable {s t : State}

theorem State.alike.blind (h : s.alike t) {f : State → State} (blind : Blind f) : (f s).alike (f t) := by
  have relinked : f t = (f s).relink t.links := (congrArg f h.frame).trans (blind s t.links)
  have same := blind.links s
  constructor
  · rw [relinked]
    rfl
  · intro l
    have left : (f s).link l = s.link l := congrArg (fun v => tget v Link.empty l) same
    have right : (f t).link l = t.link l := (congrArg (fun u : State => u.link l) relinked :)
    rw [left, right]
    exact h.links l

theorem State.alike.updLink (h : s.alike t) (l : Nat) {f : Link → Link} (each : ∀ x y : Link, x.alike y → (f x).alike (f y)) :
    (s.updLink l f).alike (t.updLink l f) where
  frame := by
    rw [h.frame]
    rfl
  links m := by
    rw [State.link_updLink, State.link_updLink]
    split
    · exact each _ _ (h.links l)
    · exact h.links m

/-- A change of the second state alone that the cycles cannot see. -/
theorem State.alike.unseen (h : s.alike t) (l : Nat) {f : Link → Link} (each : (t.link l).alike (f (t.link l))) :
    s.alike (t.updLink l f) := by
  refine h.trans ⟨rfl, fun m => ?_⟩
  rw [State.link_updLink]
  split
  · rename_i here
    rw [← here.1]
    exact each
  · exact .refl _

theorem State.alike.slot (h : s.alike t) (l k : Nat) : (t.slot l k).board = (s.slot l k).board := (h.links l).boards k

theorem State.alike.comp (h : s.alike t) (n : Nat) : t.comp n = s.comp n := (congrArg (fun u : State => u.comp n) h.frame :)

theorem State.alike.ops (h : s.alike t) : t.hce = s.hce := (congrArg State.hce h.frame :)

theorem State.alike.resolution (h : s.alike t) (n : Nat) : t.resolution n = s.resolution n := by
  have located : t.located n = s.located n := (congrArg (fun u : State => u.located n) h.frame :)
  have reach : ∀ a, t.reach a = s.reach a := fun a => by
    have fitted : t.linkFitted a.link = s.linkFitted a.link := (congrArg (fun u : State => u.linkFitted a.link) h.frame :)
    have board := h.slot a.link a.slot
    have state : (t.slot a.link a.slot).state = (s.slot a.link a.slot).state := (congrArg Slot.state board :)
    have channels : (t.slot a.link a.slot).channels = (s.slot a.link a.slot).channels := (congrArg Slot.channels board :)
    have units : (t.slot a.link a.slot).units = (s.slot a.link a.slot).units := (congrArg Slot.units board :)
    unfold State.reach
    rw [fitted, state, channels, units]
  unfold State.resolution
  rw [located]
  cases s.located n with
  | error r => rfl
  | ok a => exact reach a

theorem State.alike.afterResolve (h : s.alike t) (n : Nat) : (s.afterResolve n).alike (t.afterResolve n) := by
  unfold State.afterResolve
  rw [h.resolution]
  cases s.resolution n with
  | ok a u => exact h
  | unreachable => exact h
  | mapFault a => exact h.blind (f := fun s => s.mapFaultEffect n a) fun s v => mapFaultEffect_relink s v n a

theorem Link.alike.join {x y : Link} (h : x.alike y) (pu : Purpose) (j : Nat) : (x.join pu j).alike (y.join pu j) := by
  unfold Link.join
  split
  · exact ⟨h.prio, congrArg (· ++ [j]) h.bulk, h.strike, h.boards⟩
  · exact ⟨congrArg (· ++ [j]) h.prio, h.bulk, h.strike, h.boards⟩

theorem Link.alike.leave {x y : Link} (h : x.alike y) (j : Nat) : (x.leave j).alike (y.leave j) :=
  ⟨congrArg (List.filter (· != j)) h.prio, congrArg (List.filter (· != j)) h.bulk, h.strike, h.boards⟩

/-- A SWEEP operation is made of both states or of neither (R180). -/
theorem State.alike.createSweep (h : s.alike t) (st n units : Nat) (a : Addr) :
    (s.createOp .SWEEP st n a units .QUEUED = none ∧ t.createOp .SWEEP st n a units .QUEUED = none) ∨
    ∃ u w j, s.createOp .SWEEP st n a units .QUEUED = some (u, j) ∧ t.createOp .SWEEP st n a units .QUEUED = some (w, j) ∧
      u.alike w := by
  have room : t.roomFor st .SWEEP a.link = s.roomFor st .SWEEP a.link := by
    have ops : t.sweepOps = s.sweepOps := (congrArg State.sweepOps h.frame :)
    unfold State.roomFor
    rw [h.ops, (h.links a.link).bulk, ops]
  have next : t.nextJob = s.nextJob := (congrArg State.nextJob h.frame :)
  unfold State.createOp
  rw [room, next]
  split
  · exact .inr ⟨_, _, _, rfl, rfl, (h.blind (f := fun s => s.updHce fun g =>
      { ops := g.ops ++ [newOp _ .SWEEP st n a units .QUEUED], lastJob := _ }) fun _ _ => rfl).updLink a.link fun _ _ same =>
        same.join .SWEEP _⟩
  · exact .inl ⟨rfl, rfl⟩

theorem State.alike.topUpOver (k : Courier) (es : List TagEntry) : ∀ {s t : State} (n : TopUp), s.alike t →
    (topUpOver k es s n).1.alike (topUpOver k es t n).1 := by
  induction es with
  | nil => exact fun n h => h
  | cons e es ih =>
    intro s t n h
    have eligible : t.eligible e.comp e.filter e.carrier = s.eligible e.comp e.filter e.carrier :=
      (congrArg (fun u : State => u.eligible e.comp e.filter e.carrier) h.frame :)
    have dropped : ∀ {u w : State}, u.alike w → (u.dropPending k e.comp es).alike (w.dropPending k e.comp es) := fun same =>
      same.blind (f := fun s => s.dropPending k e.comp es) fun s v => dropPending_relink s v e.comp k es
    unfold Machine.topUpOver
    rw [eligible, h.comp, h.resolution]
    split
    · cases s.resolution e.comp with
      | ok a units =>
        dsimp only
        rcases h.createSweep k.station e.comp units a with ⟨none_, none'⟩ | ⟨u, w, j, made, made', same⟩
        · rw [none_, none']
          exact h
        · rw [made, made']
          exact ih _ (same.blind (f := fun s => s.updRun k fun r => { r with pending := es }) fun s v => updRun_relink s v k _)
      | unreachable => exact ih _ (dropped (h.afterResolve e.comp))
      | mapFault a => exact ih _ (dropped (h.afterResolve e.comp))
    · exact ih _ (dropped h)

theorem State.alike.topUpEnd (h : s.alike t) (k : Courier) : (s.topUpEnd k).alike (t.topUpEnd k) := by
  have topped : (s.topUp k).1.alike (t.topUp k).1 := by
    have side : t.side k = s.side k := (congrArg (fun u : State => u.side k) h.frame :)
    have mode : t.scu = s.scu := (congrArg State.scu h.frame :)
    unfold State.topUp
    rw [side, mode]
    cases (s.side k).run with
    | none => exact h
    | some r =>
      dsimp only
      split
      · exact State.alike.topUpOver k r.pending _ h
      · exact h
  exact topped.blind (f := fun s => s.endRun k) fun s v => endRun_relink s v k

theorem State.alike.handSweep (h : s.alike t) (o : Op) (out : CycleOutcome) (note : EndNote) :
    (s.handSweep o out note).alike (t.handSweep o out note) := by
  cases courier : courierOf o.station with
  | none =>
    unfold State.handSweep
    rw [courier]
    exact h
  | some k =>
    have counted : (s.counted o out note k).alike (t.counted o out note k) := h.blind (f := fun s => s.counted o out note k)
      fun s v => by
        cases swept : note.swept <;> cases k <;> rfl
    rw [State.handSweep_courier courier, State.handSweep_courier courier]
    exact (counted.topUpEnd k).topUpEnd k.other

/-- The end of an operation (R85). -/
theorem State.alike.endOp (h : s.alike t) (o : Op) (out : CycleOutcome) (occ : Bool) :
    (s.endOp o out occ).alike (t.endOp o out occ) := by
  have effect : ∀ (s : State) v, (s.relink v).afterReversal o out occ =
      ((s.afterReversal o out occ).1.relink v, (s.afterReversal o out occ).2) := fun s v => by
    have reader : (s.relink v).dropReader o = s.dropReader o := rfl
    unfold State.afterReversal
    rw [reader, endEffect_relink, reverseDrop_relink]
  have note : t.endNote o out occ = s.endNote o out occ := by
    rw [h.frame]
    unfold State.endNote
    rw [endEffect_relink]
  have events : t.endEvents o out occ = s.endEvents o out occ := by
    have refused : (t.afterReversal o out occ).2 = (s.afterReversal o out occ).2 := by
      rw [h.frame, effect]
    have done_ : ∀ b, t.cycleDone o out (s.endNote o out occ) b = s.cycleDone o out (s.endNote o out occ) b := fun b =>
      (congrArg (fun u : State => u.cycleDone o out (s.endNote o out occ) b) h.frame :)
    have expired : t.expiredEvent o.comp = s.expiredEvent o.comp :=
      (congrArg (fun u : State => u.expiredEvent o.comp) h.frame :)
    unfold State.endEvents
    rw [note, refused, done_, expired]
  have settled : (s.endedBy o out occ).alike (t.endedBy o out occ) := by
    have first := h.blind (f := fun s => (s.afterReversal o out occ).1) fun s v => congrArg Prod.fst (effect s v)
    have second := first.blind (f := fun s => s.updComp o.comp fun c => { c with purpose := none }) fun _ _ => rfl
    have third := second.updLink o.link fun _ _ same => same.leave o.job
    exact third.blind (f := fun s => s.removeOp o.job) fun _ _ => rfl
  have posted := settled.blind (f := fun u => u.posts (s.endEvents o out occ)) fun _ _ => rfl
  rw [s.endOp_unfold, t.endOp_unfold, note, events]
  dsimp only
  have swept : (if o.purpose = .SWEEP then ((s.endedBy o out occ).posts (s.endEvents o out occ)).handSweep o out
      (s.endNote o out occ) else (s.endedBy o out occ).posts (s.endEvents o out occ)).alike
      (if o.purpose = .SWEEP then ((t.endedBy o out occ).posts (s.endEvents o out occ)).handSweep o out
      (s.endNote o out occ) else (t.endedBy o out occ).posts (s.endEvents o out occ)) := by
    split
    · exact posted.handSweep o out _
    · exact posted
  split
  · exact swept.blind (f := fun u => u.abandonOf o.job) fun s v => abandonOf_relink s v o.job
  · exact swept

/-- A fault cause that joins a compartment (R19). -/
theorem State.alike.addCause (h : s.alike t) (n : Nat) (c : Cause) : (s.addCause n c).alike (t.addCause n c) := by
  have marked := h.blind (f := fun s => s.markCause n c) fun _ _ => rfl
  have found : (t.markCause n c).opOn n = (s.markCause n c).opOn n := (congrArg (fun g : Hce => g.ops.find? fun o : Op => o.comp == n) h.ops)
  unfold State.addCause
  dsimp only
  rw [h.comp, found]
  split
  · exact h
  · cases (s.markCause n c).opOn n with
    | none => exact marked
    | some o =>
      dsimp only
      split
      · exact marked.endOp _ _ _
      · exact marked

/-! ### Readings -/

theorem State.alike.acked (h : s.alike t) (o : Op) : t.acked o = s.acked o := by
  have strike := (h.links o.link).strike
  unfold State.acked
  cases left : (s.link o.link).strike <;> cases right : (t.link o.link).strike <;> rw [left, right] at strike
  · exact nomatch strike
  · exact nomatch strike
  · rename_i x y
    have same : y.unseen = x.unseen := Option.some.inj strike
    have job : y.job = x.job := (congrArg Strike.job same :)
    have ack : y.ackMinute = x.ackMinute := (congrArg Strike.ackMinute same :)
    dsimp only
    rw [job, ack]

theorem State.alike.hatchReading (h : s.alike t) (o : Op) (b : Bool) : (s.hatchReading o b).alike (t.hatchReading o b) := by
  have moved : ∀ f : Op → Op, (s.updOp o.job f).alike (t.updOp o.job f) := fun f =>
    h.blind (f := fun s => s.updOp o.job f) fun _ _ => rfl
  unfold State.hatchReading
  rw [h.acked]
  cases o.stage with
  | STRIKING =>
    dsimp only
    split
    · exact moved _
    · exact h
  | AWAIT_OPEN =>
    dsimp only
    split
    · exact h.blind (f := fun s => s.enterOpen o) fun _ _ => rfl
    · exact h
  | OPEN =>
    dsimp only
    split
    · exact h
    · exact moved _
  | AWAIT_CONFIRM =>
    dsimp only
    split
    · exact moved _
    · exact h
  | AWAIT_PAYMENT => exact h
  | QUEUED => exact h

theorem State.alike.opReading (h : s.alike t) (o : Op) (r : Reading) : (s.opReading o r).alike (t.opReading o r) := by
  have hatch := h.hatchReading o r.hatchOpen
  unfold State.opReading
  generalize s.hatchReading o r.hatchOpen = u at hatch ⊢
  generalize t.hatchReading o r.hatchOpen = w at hatch ⊢
  have found : w.opByJob o.job = u.opByJob o.job := (congrArg (fun g : Hce => g.ops.find? fun x : Op => x.job == o.job) hatch.ops)
  unfold State.occupancyReading
  rw [found]
  cases u.opByJob o.job with
  | none => exact hatch
  | some x =>
    dsimp only
    split
    · exact hatch.endOp _ _ _
    · exact hatch

/-- Two states agree in the memory and the late-strike mark of a channel. -/
def State.sameMemory (s t : State) (l k ch : Nat) : Prop :=
  (t.slot l k).memory ch = (s.slot l k).memory ch ∧ (t.slot l k).lateMark ch = (s.slot l k).lateMark ch

theorem State.sameMemory.kept {s t u w : State} {l k ch : Nat} (h : s.sameMemory t l k ch) (left : Kept s u) (right : Kept t w) :
    u.sameMemory w l k ch := by
  unfold State.sameMemory
  rw [left.slot, right.slot]
  exact h

theorem State.alike.forcedTest (h : s.alike t) {l k ch : Nat} (own : s.sameMemory t l k ch) (n : Nat) (b : Bool) :
    (s.forcedTest l k ch n b).alike (t.forcedTest l k ch n b) := by
  unfold State.forcedTest
  rw [own.1, own.2]
  split
  · exact (h.addCause n .FORCED).blind (f := fun s => s.post (EventRec.withFlags { s.event .HATCH_FORCED with comp := some n }
      { lateStrike := _ })) fun _ _ => rfl
  · exact h

theorem State.alike.cycleReading (h : s.alike t) {l k ch : Nat} (own : s.sameMemory t l k ch) (o : Op) (r : Reading) :
    (s.cycleReading l k ch o r).alike (t.cycleReading l k ch o r) := by
  have read := h.opReading o r
  have own' := own.kept (kept_opReading s o r) (kept_opReading t o r)
  unfold State.cycleReading State.lateTest
  rw [own'.2]
  split
  · exact read.forcedTest own' o.comp r.hatchOpen
  · exact read

theorem State.alike.opAtChannel (h : s.alike t) (l k ch : Nat) : t.opAtChannel l k ch = s.opAtChannel l k ch := by
  unfold State.opAtChannel
  rw [h.ops]

theorem State.alike.reverse (h : s.alike t) (a : Addr) : t.reverse a = s.reverse a :=
  (congrArg (fun u : State => u.reverse a) h.frame :)

/-- A channel's reading outside the start-up audit (R55). -/
theorem State.alike.routeReading (h : s.alike t) {l k ch : Nat} (own : s.sameMemory t l k ch) (r : Reading)
    (running : s.scu.phase ≠ some .AUDIT) : (s.routeReading l k ch r).alike (t.routeReading l k ch r) := by
  have scu : t.scu = s.scu := (congrArg State.scu h.frame :)
  have found : ∀ n, t.opOn n = s.opOn n := fun n => (congrArg (fun g : Hce => g.ops.find? fun x : Op => x.comp == n) h.ops)
  unfold State.routeReading
  rw [h.opAtChannel, h.reverse, scu]
  cases s.opAtChannel l k ch with
  | some o => exact h.cycleReading own o r
  | none =>
    dsimp only
    cases s.reverse ⟨l, k, ch⟩ with
    | none => exact h
    | some n =>
      cases phase : s.scu.phase with
      | some p =>
        cases p with
        | ENUMERATE => exact h
        | RECONCILE => exact h
        | AUDIT => exact absurd phase running
      | none =>
        dsimp only
        rw [found]
        cases s.opOn n with
        | none => exact h.forcedTest own n r.hatchOpen
        | some o =>
          dsimp only
          split
          · exact h.cycleReading own o r
          · exact h.forcedTest own n r.hatchOpen

end

end Sys2Proof.Machine
end

