-- ==== Sys2Proof/Proofs/Readings.lean ====
section
/-! What the readings of a STATUS and its strike-done do (R55, R58, R62, R63, R77 to R80). -/

namespace Sys2Proof.Machine

open Sys2Proof

/-! ### A reading that reaches an operation (R77 to R80) -/

section
variable {o : Op} {r : Reading} {s : State}

theorem State.occupancyReading_of {j : Nat} (found : s.opByJob j = some o) : s.occupancyReading j r =
    if o.stage = .AWAIT_CONFIRM ∧ r.settled = true ∧ r.hatchOpen = false then
      s.endOp o (settledOutcome o.purpose r.occupied) r.occupied else s := by
  unfold State.occupancyReading
  rw [found]

/-- A reading that leaves its operation at another stage than AWAIT_CONFIRM is its hatch reading. -/
theorem State.opReading_moved {u : State} {x : Op} (hatch : s.hatchReading o r.hatchOpen = u) (found : u.opByJob o.job = some x)
    (stage : x.stage ≠ .AWAIT_CONFIRM) : s.opReading o r = u := by
  unfold State.opReading
  rw [hatch, State.occupancyReading_of found, if_neg fun h => stage h.1]

/-- So is one whose occupancy is not settled, or with the hatch open. -/
theorem State.opReading_unsettled {u : State} {x : Op} (hatch : s.hatchReading o r.hatchOpen = u)
    (found : u.opByJob o.job = some x) (open_ : ¬ (r.settled = true ∧ r.hatchOpen = false)) : s.opReading o r = u := by
  unfold State.opReading
  rw [hatch, State.occupancyReading_of found, if_neg fun h => open_ h.2]

theorem State.opReading_settled {u : State} {x : Op} (hatch : s.hatchReading o r.hatchOpen = u)
    (found : u.opByJob o.job = some x) (stage : x.stage = .AWAIT_CONFIRM) (settled : r.settled = true) (shut : r.hatchOpen = false) :
    s.opReading o r = u.endOp x (settledOutcome x.purpose r.occupied) r.occupied := by
  unfold State.opReading
  rw [hatch, State.occupancyReading_of found, if_pos ⟨stage, settled, shut⟩]

variable (found : s.opByJob o.job = some o)
include found

theorem State.opReading_awaitOpen (stage : o.stage = .AWAIT_OPEN) :
    s.opReading o r = if r.hatchOpen = true then s.enterOpen o else s := by
  have hatch : s.hatchReading o r.hatchOpen = if r.hatchOpen = true then s.enterOpen o else s := by
    unfold State.hatchReading
    rw [stage]
  cases isOpen : r.hatchOpen with
  | true =>
    rw [if_pos isOpen] at hatch
    exact State.opReading_moved hatch (State.opByJob_enterOpen found) Stage.noConfusion
  | false =>
    rw [if_neg (by rw [isOpen]; exact Bool.false_ne_true)] at hatch
    exact State.opReading_moved hatch found (by rw [stage]; exact Stage.noConfusion)

theorem State.opReading_striking (stage : o.stage = .STRIKING) : s.opReading o r =
    if s.acked o = true ∧ r.hatchOpen = true then s.updOp o.job fun o => { o with opened := true } else s := by
  have hatch : s.hatchReading o r.hatchOpen =
      if s.acked o = true ∧ r.hatchOpen = true then s.updOp o.job fun o => { o with opened := true } else s := by
    unfold State.hatchReading
    rw [stage]
    exact if_congr Bool.and_eq_true_iff rfl rfl
  by_cases seen : s.acked o = true ∧ r.hatchOpen = true
  · rw [if_pos seen] at hatch ⊢
    exact State.opReading_moved hatch (State.opByJob_updOp found fun _ => rfl) (by
      change o.stage ≠ _
      rw [stage]
      exact Stage.noConfusion)
  · rw [if_neg seen] at hatch ⊢
    exact State.opReading_moved hatch found (by rw [stage]; exact Stage.noConfusion)

end

theorem reading_moves (o : Op) (r : Reading) (s : State) (found : s.opByJob o.job = some o) :
    let lim := s.scu.config.ajar.get (s.comp o.comp).cls
    let out : CycleOutcome := match o.purpose with
      | .DEPOSIT | .RETURN_DROP => if r.occupied then .COMPLETED else .LEFT_EMPTY
      | .COLLECT | .SWEEP | .SERVICE_REMOVE => if r.occupied then .LEFT_OCCUPIED else .COMPLETED
      | .SERVICE_OPEN => .COMPLETED
    let t := s.opReading o r
    (o.stage = .AWAIT_OPEN → r.hatchOpen = true →
      t.opByJob o.job = some { o with stage := .OPEN, openWait := none, ajar := some lim } ∧
      t.kli = s.kli.post { kind := .HATCH_OPENED, minute := s.now, job := some o.job, comp := some o.comp,
                           station := some o.station, purpose := some (some o.purpose) } ∧
      t = { s with hce := t.hce, kli := t.kli }) ∧
    (o.stage = .AWAIT_OPEN → r.hatchOpen = false → t = s) ∧
    (o.stage = .STRIKING → s.acked o = true → r.hatchOpen = true →
      t.opByJob o.job = some { o with opened := true } ∧ t = { s with hce := t.hce }) ∧
    (o.stage = .STRIKING → s.acked o = false ∨ r.hatchOpen = false → t = s) ∧
    (o.stage = .OPEN → r.hatchOpen = true → t = s) ∧
    (o.stage = .OPEN → r.hatchOpen = false → r.settled = true → ∃ w : State, w = { s with hce := w.hce } ∧
      w.opByJob o.job = some { o with stage := .AWAIT_CONFIRM, confirm := some 10 } ∧
      t = w.endOp { o with stage := .AWAIT_CONFIRM, confirm := some 10 } out r.occupied) ∧
    (o.stage = .OPEN → r.hatchOpen = false → r.settled = false →
      t.opByJob o.job = some { o with stage := .AWAIT_CONFIRM, confirm := some 10 } ∧ t = { s with hce := t.hce }) ∧
    (o.stage = .AWAIT_CONFIRM → r.hatchOpen = true →
      t.opByJob o.job = some { o with stage := .OPEN, confirm := none } ∧ t = { s with hce := t.hce }) ∧
    (o.stage = .AWAIT_CONFIRM → r.hatchOpen = false → r.settled = false → t = s) ∧
    (o.stage = .AWAIT_CONFIRM → r.hatchOpen = false → r.settled = true → t = s.endOp o out r.occupied) := by
  intro lim out t
  have outcome : out = settledOutcome o.purpose r.occupied := rfl
  have confirmed := State.opByJob_enterConfirm (s := s) (j := o.job) found
  have shutOpen : o.stage = .OPEN → r.hatchOpen = false → s.hatchReading o r.hatchOpen = s.enterConfirm o.job :=
    fun stage shut => by
      unfold State.hatchReading
      rw [stage, shut]
      rfl
  have reopened : o.stage = .AWAIT_CONFIRM → r.hatchOpen = true → s.hatchReading o r.hatchOpen =
      s.updOp o.job fun o => { o with stage := .OPEN, confirm := none } := fun stage isOpen => by
    unfold State.hatchReading
    rw [stage, isOpen]
    rfl
  have still : (o.stage = .OPEN ∧ r.hatchOpen = true) ∨ (o.stage = .AWAIT_CONFIRM ∧ r.hatchOpen = false) →
      s.hatchReading o r.hatchOpen = s := by
    rintro (⟨stage, hatch⟩ | ⟨stage, hatch⟩)
    all_goals
      unfold State.hatchReading
      rw [stage, hatch]
      rfl
  refine ⟨fun stage isOpen => ?_, fun stage shut => ?_, fun stage acked isOpen => ?_, fun stage other => ?_, fun stage isOpen => ?_,
    fun stage shut settled => ⟨_, rfl, confirmed, ?_⟩, fun stage shut unsettled => ?_, fun stage isOpen => ?_,
    fun stage shut unsettled => ?_, fun stage shut settled => ?_⟩
  · have made : t = s.enterOpen o := (State.opReading_awaitOpen found stage).trans (if_pos isOpen)
    rw [made]
    exact ⟨State.opByJob_enterOpen found, rfl, rfl⟩
  · exact (State.opReading_awaitOpen found stage).trans (if_neg (by rw [shut]; exact Bool.false_ne_true))
  · have made : t = s.updOp o.job fun o => { o with opened := true } :=
      (State.opReading_striking found stage).trans (if_pos ⟨acked, isOpen⟩)
    rw [made]
    exact ⟨State.opByJob_updOp found fun _ => rfl, rfl⟩
  · refine (State.opReading_striking found stage).trans (if_neg fun h => ?_)
    rw [h.1, h.2] at other
    exact other.elim (nomatch ·) (nomatch ·)
  · exact State.opReading_moved (still (.inl ⟨stage, isOpen⟩)) found (by rw [stage]; exact Stage.noConfusion)
  · exact State.opReading_settled (shutOpen stage shut) confirmed rfl settled shut
  · have made : t = s.enterConfirm o.job := State.opReading_unsettled (shutOpen stage shut) confirmed fun h => by
      rw [unsettled] at h
      exact nomatch h.1
    rw [made]
    exact ⟨confirmed, rfl⟩
  · have moved : (s.updOp o.job fun o => { o with stage := .OPEN, confirm := none }).opByJob o.job = _ :=
      State.opByJob_updOp found fun _ => rfl
    have made : t = _ := State.opReading_moved (reopened stage isOpen) moved Stage.noConfusion
    rw [made]
    exact ⟨moved, rfl⟩
  · exact State.opReading_unsettled (still (.inr ⟨stage, shut⟩)) found fun h => by
      rw [unsettled] at h
      exact nomatch h.1
  · exact State.opReading_settled (still (.inr ⟨stage, shut⟩)) found stage settled shut

/-! ### Whom a channel's reading goes to (R55) -/

theorem State.lateTest_after {s v : State} (kept : Kept s v) (l k ch n : Nat) (b : Bool) :
    v.lateTest l k ch n b = if (s.slot l k).lateMark ch then v.forcedTest l k ch n b else v := by
  unfold State.lateTest
  rw [kept.slot]

theorem reading_routed (l k ch : Nat) (r : Reading) (s : State) :
    let t := s.routeReading l k ch r
    let late := fun (v : State) (n : Nat) =>
      if (s.slot l k).lateMark ch then v.forcedTest l k ch n r.hatchOpen else v
    (∀ o, s.opAtChannel l k ch = some o → t = late (s.opReading o r) o.comp ∧ o ∈ s.hce.ops ∧ o.link = l ∧
      o.slot = k ∧ o.channel = ch ∧ o.stage.striking = true) ∧
    (s.opAtChannel l k ch = none →
      (∀ o ∈ s.hce.ops, o.link = l → o.slot = k → o.channel = ch → o.stage.striking = false) ∧
      (s.reverse ⟨l, k, ch⟩ = none → t = s) ∧
      (∀ n, s.reverse ⟨l, k, ch⟩ = some n →
        (s.scu.phase = some .AUDIT → t = s.auditRead n r) ∧
        (s.scu.phase = none →
          (∀ o, s.opOn n = some o → o.stage.striking = true → t = late (s.opReading o r) o.comp) ∧
          ((∀ o, s.opOn n = some o → o.stage.striking = false) → t = s.forcedTest l k ch n r.hatchOpen)))) := by
  intro t late
  have routed : t = s.routeReading l k ch r := rfl
  have cycled : ∀ o, s.cycleReading l k ch o r = late (s.opReading o r) o.comp := fun o =>
    State.lateTest_after (kept_opReading s o r) l k ch o.comp r.hatchOpen
  unfold State.routeReading at routed
  refine ⟨fun o at_ => ?_, fun none_ => ?_⟩
  · rw [at_] at routed
    have test : (decide (o.link = l ∧ o.slot = k ∧ o.channel = ch) && o.stage.striking) = true :=
      List.find?_some (p := fun o : Op => decide (o.link = l ∧ o.slot = k ∧ o.channel = ch) && o.stage.striking) at_
    obtain ⟨addr, striking⟩ := Bool.and_eq_true_iff.mp test
    obtain ⟨link, slot, channel⟩ := of_decide_eq_true addr
    exact ⟨routed.trans (cycled o), List.mem_of_find?_eq_some at_, link, slot, channel, striking⟩
  · rw [none_] at routed
    refine ⟨fun o mem link slot channel => ?_, fun nobody => ?_, fun n wired => ?_⟩
    · have test := List.find?_eq_none.mp none_ o mem
      simpa [link, slot, channel] using test
    · rw [nobody] at routed
      exact routed
    · rw [wired] at routed
      refine ⟨fun audit => ?_, fun running => ⟨fun o on striking => ?_, fun idle => ?_⟩⟩
      · rw [audit] at routed
        exact routed
      · rw [running] at routed
        dsimp only at routed
        rw [on] at routed
        exact (routed.trans (if_pos striking)).trans (cycled o)
      · rw [running] at routed
        dsimp only at routed
        cases on : s.opOn n with
        | none =>
          rw [on] at routed
          exact routed
        | some o =>
          rw [on] at routed
          exact routed.trans (if_neg (by rw [idle o on]; exact Bool.false_ne_true))

/-! ### The forced-hatch test and the late-strike mark (R58, R63) -/

theorem forcedTest_tells (l k ch n : Nat) (b : Bool) (s : State) :
    (b = false ∨ (s.slot l k).memory ch = .opened → s.forcedTest l k ch n b = s) ∧
    (b = true → (s.slot l k).memory ch ≠ .opened → s.forcedTest l k ch n b = (s.addCause n .FORCED).post
      { kind := .HATCH_FORCED, minute := s.now, comp := some n,
        flags := if (s.slot l k).lateMark ch then some { lateStrike := true } else none }) := by
  unfold State.forcedTest
  refine ⟨fun quiet => if_neg fun h => ?_, fun isOpen shut => ?_⟩
  · obtain ⟨isOpen, shut⟩ := Bool.and_eq_true_iff.mp h
    rcases quiet with closed | opened
    · rw [closed] at isOpen
      exact nomatch isOpen
    · exact of_decide_eq_true shut opened
  · have minute := State.now_of_kept (kept_addCause s n .FORCED)
    rw [if_pos (Bool.and_eq_true_iff.mpr ⟨isOpen, decide_eq_true shut⟩)]
    dsimp only
    unfold State.event
    rw [minute]
    cases (s.slot l k).lateMark ch <;> rfl

/-! ### What a reading leaves of the strikes and the slots -/

theorem State.strikesKept.refl (s : State) : s.strikesKept s := ⟨rfl, fun _ => rfl⟩

theorem State.strikesKept_hatchReading (s : State) (o : Op) (b : Bool) : s.strikesKept (s.hatchReading o b) := by
  unfold State.hatchReading
  cases o.stage with
  | STRIKING => dsimp only; split <;> exact State.strikesKept_of_eq rfl rfl
  | AWAIT_OPEN => dsimp only; split <;> exact State.strikesKept_of_eq rfl rfl
  | OPEN => dsimp only; split <;> exact State.strikesKept_of_eq rfl rfl
  | AWAIT_CONFIRM => dsimp only; split <;> exact State.strikesKept_of_eq rfl rfl
  | AWAIT_PAYMENT => exact .refl s
  | QUEUED => exact .refl s

theorem State.strikesKept_occupancyReading (s : State) (j : Nat) (r : Reading) : s.strikesKept (s.occupancyReading j r) := by
  unfold State.occupancyReading
  split
  · exact .refl s
  · split
    · exact s.strikesKept_endOp _ _ _
    · exact .refl s

theorem State.strikesKept_forcedTest (s : State) (l k ch n : Nat) (b : Bool) : s.strikesKept (s.forcedTest l k ch n b) := by
  unfold State.forcedTest
  split
  · exact (s.strikesKept_addCause n .FORCED).trans (State.strikesKept_of_eq rfl rfl)
  · exact .refl s

theorem State.strikesKept_cycleReading (s : State) (l k ch : Nat) (o : Op) (r : Reading) :
    s.strikesKept (s.cycleReading l k ch o r) := by
  refine ((s.strikesKept_hatchReading o r.hatchOpen).trans (State.strikesKept_occupancyReading _ o.job r)).trans ?_
  change (s.opReading o r).strikesKept ((s.opReading o r).lateTest l k ch o.comp r.hatchOpen)
  unfold State.lateTest
  split
  · exact State.strikesKept_forcedTest _ l k ch o.comp r.hatchOpen
  · exact .refl _

/-- The start-up audit's reading leaves the links. -/
theorem State.links_auditRead (s : State) (n : Nat) (r : Reading) : (s.auditRead n r).links = s.links := by
  unfold State.auditRead
  split
  · split
    · rfl
    · split
      · exact (congrArg State.links (s.settlesAt_settle n (if r.occupied then .occupied else .empty)).frame :)
      · rfl
  · rfl

/-- A routed reading leaves every strike and every slot. -/
theorem State.routeReading_leaves (s : State) (l k ch : Nat) (r : Reading) : let t := s.routeReading l k ch r
    (∀ m, (t.link m).strike = (s.link m).strike) ∧ ∀ m j, t.slot m j = s.slot m j := by
  have cycled : ∀ o, (∀ m, ((s.cycleReading l k ch o r).link m).strike = (s.link m).strike) ∧
      ∀ m j, (s.cycleReading l k ch o r).slot m j = s.slot m j := fun o =>
    ⟨(s.strikesKept_cycleReading l k ch o r).2, (kept_cycleReading s l k ch o r).slot⟩
  have tested : ∀ n, (∀ m, ((s.forcedTest l k ch n r.hatchOpen).link m).strike = (s.link m).strike) ∧
      ∀ m j, (s.forcedTest l k ch n r.hatchOpen).slot m j = s.slot m j := fun n =>
    ⟨(s.strikesKept_forcedTest l k ch n r.hatchOpen).2, (kept_forcedTest s l k ch n r.hatchOpen).slot⟩
  unfold State.routeReading
  split
  · exact cycled _
  · split
    · exact ⟨fun _ => rfl, fun _ _ => rfl⟩
    · split
      · exact ⟨fun m => congrArg (fun v => (tget v Link.empty m).strike) (s.links_auditRead _ r),
          fun m j => congrArg (fun v => (tget v Link.empty m).slotAt j) (s.links_auditRead _ r)⟩
      · exact ⟨fun _ => rfl, fun _ _ => rfl⟩
      · split
        · split
          · exact cycled _
          · exact tested _
        · exact tested _

/-- Outside the start-up audit it leaves all that `Kept` names, and the units granted. -/
theorem State.routeReading_kept {s : State} (l k ch : Nat) (r : Reading) (running : s.scu.phase ≠ some .AUDIT) :
    Kept s (s.routeReading l k ch r) ∧ s.strikesKept (s.routeReading l k ch r) := by
  unfold State.routeReading
  split
  · exact ⟨kept_cycleReading s l k ch _ r, s.strikesKept_cycleReading l k ch _ r⟩
  · split
    · exact ⟨.refl s, .refl s⟩
    · split
      · rename_i audit
        exact absurd audit running
      · exact ⟨.refl s, .refl s⟩
      · split
        · split
          · exact ⟨kept_cycleReading s l k ch _ r, s.strikesKept_cycleReading l k ch _ r⟩
          · exact ⟨kept_forcedTest s l k ch _ _, s.strikesKept_forcedTest l k ch _ _⟩
        · exact ⟨kept_forcedTest s l k ch _ _, s.strikesKept_forcedTest l k ch _ _⟩

theorem Slot.lateMark_empty (ch : Nat) : Slot.empty.lateMark ch = false := by
  change ((Vector.replicate 16 false)[ch]?).getD false = false
  rw [Vector.getElem?_replicate]
  split <;> rfl

theorem State.lateMark_setLate (s : State) (l k ch : Nat) : ((s.setLate l k ch false).slot l k).lateMark ch = false := by
  by_cases known : (l, k) ∈ allSlots
  · obtain ⟨link, slot⟩ := mem_allSlots.mp known
    unfold State.setLate
    rw [State.slot_updSlot s link, if_pos ⟨rfl, rfl, slot⟩]
    by_cases small : ch < 16
    · exact Slot.lateMark_set _ _ small
    · unfold Slot.lateMark
      rw [Vector.getElem?_eq_none (by omega)]
      rfl
  · rw [State.slot_outside _ known]
    exact Slot.lateMark_empty ch

/-- The hatch memory written, a strike and the marks of a slot stay (R55). -/
theorem State.setMemory_leaves (s : State) (l k ch : Nat) (b : Bool) : let t := s.setMemory l k ch b
    (∀ m, (t.link m).strike = (s.link m).strike) ∧ ∀ m j i, (t.slot m j).lateMark i = (s.slot m j).lateMark i := by
  unfold State.setMemory State.updSlot State.slot
  refine ⟨fun m => ?_, fun m j i => ?_⟩
  · rw [State.link_updLink]
    split
    · rename_i here
      rw [here.1]
      rfl
    · rfl
  · rw [State.link_updLink]
    split
    · rename_i here
      rw [here.1, Link.slotAt_updSlot]
      split
      · rename_i here'
        rw [here'.1]
        rfl
      · rfl
    · rfl

theorem lateMark_takeReading (l k ch : Nat) (r : Reading) (s : State) :
    let carried := ∃ x, (s.link l).strike = some x ∧ x.slot = k ∧ x.channel = ch ∧ x.late = true
    let m := ((s.takeReading l k ch r).slot l k).lateMark ch
    (r.hatchOpen = false → ¬ carried → m = false) ∧
    (r.hatchOpen = true ∨ carried → m = (s.slot l k).lateMark ch) := by
  intro carried m
  obtain ⟨strike, slot⟩ := s.routeReading_leaves l k ch r
  obtain ⟨strike', late⟩ := (s.routeReading l k ch r).setMemory_leaves l k ch r.hatchOpen
  have held : ((((s.routeReading l k ch r).setMemory l k ch r.hatchOpen).link l).strike.any fun x =>
      decide (x.slot = k ∧ x.channel = ch) && x.late) = true ↔ carried := by
    rw [strike', strike]
    simp only [Option.any_eq_true, Bool.and_eq_true, decide_eq_true_eq, carried, and_assoc]
  have made : m = (((s.routeReading l k ch r).setMemory l k ch r.hatchOpen |>.clearLate l k ch r).slot l k).lateMark ch := rfl
  have stays := (late l k ch).trans (congrArg (fun y : Slot => y.lateMark ch) (slot l k))
  generalize (s.routeReading l k ch r).setMemory l k ch r.hatchOpen = u at held made stays
  unfold State.clearLate at made
  dsimp only at made
  refine ⟨fun shut free => ?_, fun still => ?_⟩
  · rw [if_pos ⟨shut, Bool.eq_false_iff.mpr fun h => free (held.mp h)⟩, State.lateMark_setLate] at made
    exact made
  · rw [if_neg fun h => still.elim (fun isOpen => by rw [isOpen] at h; exact nomatch h.1) fun c => by
      rw [held.mpr c] at h
      exact nomatch h.2] at made
    exact made.trans stays

/-! ### Operations at STRIKING or later (R55) -/

/-- Every operation of `u` at STRIKING or later has the address of such an operation of `s`. -/
def State.strikesFrom (s u : State) : Prop := ∀ y ∈ u.hce.ops, y.stage.striking = true →
  ∃ z ∈ s.hce.ops, z.stage.striking = true ∧ z.link = y.link ∧ z.slot = y.slot ∧ z.channel = y.channel

theorem State.strikesFrom.refl (s : State) : s.strikesFrom s := fun y mem striking => ⟨y, mem, striking, rfl, rfl, rfl⟩

theorem State.strikesFrom.trans {s t u : State} (h : s.strikesFrom t) (h' : t.strikesFrom u) : s.strikesFrom u :=
  fun y mem striking => by
    obtain ⟨z, there, striking', link, slot, channel⟩ := h' y mem striking
    obtain ⟨w, there', striking'', link', slot', channel'⟩ := h z there striking'
    exact ⟨w, there', striking'', link'.trans link, slot'.trans slot, channel'.trans channel⟩

theorem State.strikesFrom_of_ops {s u : State} (fewer : ∀ y ∈ u.hce.ops, y ∈ s.hce.ops ∨ y.stage = .QUEUED) : s.strikesFrom u :=
  fun y mem striking => by
    rcases fewer y mem with there | queued
    · exact ⟨y, there, striking, rfl, rfl, rfl⟩
    · rw [queued] at striking
      exact nomatch striking

theorem State.strikesFrom_topUpEnd (s : State) (k : Courier) : s.strikesFrom (s.topUpEnd k) := by
  refine .trans ?_ (State.strikesFrom_of_ops fun y mem => .inl ?_ : (s.topUp k).1.strikesFrom ((s.topUp k).1.endRun k))
  · rcases s.topUp_cases k with same | ⟨r, gone, rest, made, topped⟩
    · rw [same]
      exact .refl s
    · refine State.strikesFrom_of_ops fun y mem => ?_
      rw [topped.ops] at mem
      exact (List.mem_append.mp mem).imp_right fun new => (topped.each y new).2.2.1
  · have hce : ((s.topUp k).1.endRun k).hce = (s.topUp k).1.hce := (congrArg State.hce ((s.topUp k).1.endRun_frame k) :)
    rw [hce] at mem
    exact mem

theorem State.strikesFrom_endOp (s : State) (o : Op) (out : CycleOutcome) (occ : Bool) : s.strikesFrom (s.endOp o out occ) := by
  have ended : s.strikesFrom ((s.endedBy o out occ).posts (s.endEvents o out occ)) := State.strikesFrom_of_ops fun y mem => by
    have hce : ((s.endedBy o out occ).posts (s.endEvents o out occ)).hce.ops = s.hce.ops.filter fun y => y.job != o.job :=
      (congrArg (fun u : State => u.hce.ops) (s.endedBy_frame o out occ) :)
    rw [hce] at mem
    exact .inl (List.mem_of_mem_filter mem)
  have swept : ∀ (u : State) (note : EndNote), u.strikesFrom (u.handSweep o out note) := fun u note => by
    cases courier : courierOf o.station with
    | none =>
      unfold State.handSweep
      rw [courier]
      exact .refl u
    | some k =>
      rw [State.handSweep_courier courier]
      have counted : u.strikesFrom (u.counted o out note k) := State.strikesFrom_of_ops fun y mem => by
        have hce : (u.counted o out note k).hce = u.hce := (congrArg State.hce (u.counted_frame o out note k) :)
        rw [hce] at mem
        exact .inl mem
      exact counted.trans ((State.strikesFrom_topUpEnd _ k).trans (State.strikesFrom_topUpEnd _ k.other))
  have handed : ∀ u : State, u.strikesFrom (u.abandonOf o.job) := fun u => State.strikesFrom_of_ops fun y mem => by
    have hce : (u.abandonOf o.job).hce = u.hce := (congrArg State.hce (u.abandonOf_spec o.job).1 :)
    rw [hce] at mem
    exact .inl mem
  rw [s.endOp_unfold]
  dsimp only
  have whole : s.strikesFrom (if o.purpose = .SWEEP then ((s.endedBy o out occ).posts (s.endEvents o out occ)).handSweep o out
      (s.endNote o out occ) else (s.endedBy o out occ).posts (s.endEvents o out occ)) := by
    split
    · exact ended.trans (swept _ _)
    · exact ended
  split
  · exact whole.trans (handed _)
  · exact whole

theorem State.strikesFrom_forcedTest (s : State) (l k ch n : Nat) (b : Bool) : s.strikesFrom (s.forcedTest l k ch n b) := by
  unfold State.forcedTest
  split
  · change s.strikesFrom (s.addCause n .FORCED)
    rcases s.addCause_cases n .FORCED with ⟨-, same⟩ | same | ⟨o, -, same⟩ <;> rw [same]
    · exact .refl s
    · exact .refl s
    · exact (State.strikesFrom.refl s).trans (State.strikesFrom_endOp (s.markCause n .FORCED) _ _ _)
  · exact .refl s

/-- A change of one operation that stays where it is struck. -/
theorem State.strikesFrom_updOp {s : State} {o : Op} {f : Op → Op} (there : o ∈ s.hce.ops) (striking : o.stage.striking = true)
    (distinct : (s.hce.ops.map (·.job)).Nodup) (stays : ∀ y : Op, (f y).link = y.link ∧ (f y).slot = y.slot ∧
      (f y).channel = y.channel) : s.strikesFrom (s.updOp o.job f) := fun y mem striking' => by
  obtain ⟨z, there', made⟩ := List.mem_map.mp mem
  split at made
  · rename_i job
    have same : z = o := List.inj_on_of_nodup_map distinct there' there job
    subst made same
    obtain ⟨link, slot, channel⟩ := stays z
    exact ⟨z, there, striking, link.symm, slot.symm, channel.symm⟩
  · subst made
    exact ⟨z, there', striking', rfl, rfl, rfl⟩

theorem State.strikesFrom_hatchReading {s : State} {o : Op} (b : Bool) (there : o ∈ s.hce.ops) (striking : o.stage.striking = true)
    (distinct : (s.hce.ops.map (·.job)).Nodup) : s.strikesFrom (s.hatchReading o b) := by
  have moved : ∀ f : Op → Op, (∀ y : Op, (f y).link = y.link ∧ (f y).slot = y.slot ∧ (f y).channel = y.channel) →
      s.strikesFrom (s.updOp o.job f) := fun f stays => State.strikesFrom_updOp there striking distinct stays
  unfold State.hatchReading
  split
  · split
    · exact moved _ fun _ => ⟨rfl, rfl, rfl⟩
    · exact .refl s
  · split
    · exact moved (fun y => { y with stage := .OPEN, openWait := none, ajar := some _ }) fun _ => ⟨rfl, rfl, rfl⟩
    · exact .refl s
  · split
    · exact .refl s
    · exact moved (fun y => { y with stage := .AWAIT_CONFIRM, confirm := some _ }) fun _ => ⟨rfl, rfl, rfl⟩
  · split
    · exact moved _ fun _ => ⟨rfl, rfl, rfl⟩
    · exact .refl s
  · exact .refl s
  · exact .refl s

theorem State.strikesFrom_cycleReading {s : State} {o : Op} (l k ch : Nat) (r : Reading) (there : o ∈ s.hce.ops)
    (striking : o.stage.striking = true) (distinct : (s.hce.ops.map (·.job)).Nodup) : s.strikesFrom (s.cycleReading l k ch o r) := by
  have occupied : ∀ (u : State) (j : Nat), u.strikesFrom (u.occupancyReading j r) := fun u j => by
    unfold State.occupancyReading
    split
    · exact .refl u
    · split
      · exact u.strikesFrom_endOp _ _ _
      · exact .refl u
  refine ((State.strikesFrom_hatchReading r.hatchOpen there striking distinct).trans (occupied _ o.job)).trans ?_
  change (s.opReading o r).strikesFrom ((s.opReading o r).lateTest l k ch o.comp r.hatchOpen)
  unfold State.lateTest
  split
  · exact State.strikesFrom_forcedTest _ l k ch o.comp r.hatchOpen
  · exact .refl _

theorem State.strikesFrom_routeReading {s : State} (l k ch : Nat) (r : Reading) (running : s.scu.phase ≠ some .AUDIT)
    (distinct : (s.hce.ops.map (·.job)).Nodup) : s.strikesFrom (s.routeReading l k ch r) := by
  obtain ⟨kept, wired⟩ := reading_routed l k ch r s
  unfold State.routeReading
  split
  · rename_i o found
    obtain ⟨-, there, -, -, -, striking⟩ := kept o found
    exact State.strikesFrom_cycleReading l k ch r there striking distinct
  · split
    · exact .refl s
    · split
      · rename_i audit
        exact absurd audit running
      · exact .refl s
      · split
        · rename_i o found
          split
          · exact State.strikesFrom_cycleReading l k ch r (State.opOn_mem found).1 (by assumption) distinct
          · exact s.strikesFrom_forcedTest l k ch _ _
        · exact s.strikesFrom_forcedTest l k ch _ _

theorem State.strikesFrom.opAtChannel {s u : State} (h : s.strikesFrom u) {l k ch : Nat} (none_ : s.opAtChannel l k ch = none) :
    u.opAtChannel l k ch = none := by
  refine List.find?_eq_none.mpr fun y mem at_ => ?_
  obtain ⟨addr, striking⟩ := Bool.and_eq_true_iff.mp at_
  obtain ⟨link, slot, channel⟩ := of_decide_eq_true addr
  obtain ⟨z, there, striking', link', slot', channel'⟩ := h y mem striking
  exact List.find?_eq_none.mp none_ z there (Bool.and_eq_true_iff.mpr
    ⟨decide_eq_true ⟨link'.trans link, slot'.trans slot, channel'.trans channel⟩, striking'⟩)

theorem Kept.reverse {s t : State} (h : Kept s t) (a : Addr) : t.reverse a = s.reverse a := by
  have located : ∀ n, t.located n = s.located n := fun n => by
    have entry : t.mapEntry n = s.mapEntry n := congrArg (fun m => tget m none n) h.hatchMap
    have sect : t.sect = s.sect := congrArg (fun (v : Vector Sect 8) (i : Fin 8) => v[i]) h.sects
    unfold State.located
    rw [(h.comp n).2.1, entry, sect]
  have fitted : t.linkFitted a.link = s.linkFitted a.link := by
    unfold State.linkFitted State.numLinks
    rw [h.scu]
  unfold State.reverse
  rw [fitted]
  simp only [located]

/-! ### All readings of a STATUS (R55) -/

theorem Link.alike_slot {x : Link} {k : Nat} {f : Slot → Slot} (board : (f (x.slotAt k)).board = (x.slotAt k).board) :
    x.alike (x.updSlot k f) := by
  refine ⟨rfl, rfl, rfl, fun j => ?_⟩
  rw [Link.slotAt_updSlot]
  split
  · rename_i here
    rw [← here.1]
    exact board
  · rfl

section
variable {s t : State} {l k ch : Nat}

theorem State.alike.updSlot (h : s.alike t) {f : Slot → Slot} (board : ∀ y : Slot, (f y).board = y.board) :
    s.alike (t.updSlot l k f) := h.unseen l (f := fun x => x.updSlot k f) (Link.alike_slot (board _))

theorem State.alike.setMemory (h : s.alike t) (b : Bool) : s.alike (t.setMemory l k ch b) := h.updSlot fun _ => rfl

theorem State.alike.clearLate (h : s.alike t) (r : Reading) : s.alike (t.clearLate l k ch r) := by
  unfold State.clearLate
  dsimp only
  split
  · exact h.updSlot fun _ => rfl
  · exact h

theorem State.alike.takeReading (h : s.alike t) (own : s.sameMemory t l k ch) (r : Reading)
    (running : s.scu.phase ≠ some .AUDIT) : (s.routeReading l k ch r).alike (t.takeReading l k ch r) :=
  ((h.routeReading own r running).setMemory r.hatchOpen).clearLate r

/-- Memory and mark of a channel stay where another is written. -/
theorem State.sameMemory_updSlot (t : State) (l k : Nat) (f : Slot → Slot)
    (apart : ∀ y : Slot, (f y).memory ch = y.memory ch ∧ (f y).lateMark ch = y.lateMark ch) :
    t.sameMemory (t.updSlot l k f) l k ch := by
  unfold State.sameMemory
  by_cases known : (l, k) ∈ allSlots
  · obtain ⟨link, slot⟩ := mem_allSlots.mp known
    rw [State.slot_updSlot t link, if_pos ⟨rfl, rfl, slot⟩]
    exact apart _
  · rw [State.slot_outside _ known, State.slot_outside _ known]
    exact ⟨rfl, rfl⟩

theorem State.sameMemory.trans {s t u : State} (h : s.sameMemory t l k ch) (h' : t.sameMemory u l k ch) : s.sameMemory u l k ch :=
  ⟨h'.1.trans h.1, h'.2.trans h.2⟩

/-- A reading of a channel that no compartment is wired to and no operation is at. -/
theorem State.takeReading_idle (h : s.alike t) {j : Nat} (other : j ≠ ch) (none_ : s.opAtChannel l k j = none)
    (nobody : s.reverse ⟨l, k, j⟩ = none) (r : Reading) :
    s.alike (t.takeReading l k j r) ∧ t.sameMemory (t.takeReading l k j r) l k ch := by
  have routed : t.routeReading l k j r = t := ((reading_routed l k j r t).2 ((h.opAtChannel l k j).trans none_)).2.1
    ((h.reverse _).trans nobody)
  unfold State.takeReading
  rw [routed]
  refine ⟨(h.setMemory r.hatchOpen).clearLate r, ?_⟩
  have noted : t.sameMemory (t.setMemory l k j r.hatchOpen) l k ch := State.sameMemory_updSlot t l k _ fun y =>
    ⟨congrArg (Option.getD · HatchMem.unknown) (Vector.getElem?_setIfInBounds_ne other), rfl⟩
  refine noted.trans ?_
  unfold State.clearLate
  dsimp only
  split
  · exact State.sameMemory_updSlot _ l k _ fun y => ⟨rfl, congrArg (Option.getD · false) (Vector.getElem?_setIfInBounds_ne other)⟩
  · exact ⟨rfl, rfl⟩

theorem State.takeReadings_idle (ps : List (Reading × Nat)) : ∀ {t : State}, s.alike t →
    (∀ p ∈ ps, p.2 ≠ ch ∧ s.opAtChannel l k p.2 = none ∧ s.reverse ⟨l, k, p.2⟩ = none) →
    let u := ps.foldl (fun s p => s.takeReading l k p.2 p.1) t
    s.alike u ∧ t.sameMemory u l k ch := by
  induction ps with
  | nil => exact fun h _ => ⟨h, rfl, rfl⟩
  | cons p ps ih =>
    intro t h idle
    obtain ⟨other, none_, nobody⟩ := idle p (List.mem_cons_self ..)
    obtain ⟨first, own⟩ := State.takeReading_idle h other none_ nobody p.1
    obtain ⟨rest, own'⟩ := ih first fun q mem => idle q (List.mem_cons_of_mem _ mem)
    exact ⟨rest, own.trans own'⟩

/-- The readings of a STATUS of which one channel alone concerns a compartment or an operation. -/
theorem State.alike.takeReadings {rs : List Reading} {r : Reading} (h : s.alike t) (own : s.sameMemory t l k ch)
    (there : rs[ch]? = some r) (running : s.scu.phase ≠ some .AUDIT) (distinct : (s.hce.ops.map (·.job)).Nodup)
    (idle : ∀ j, j ≠ ch → s.opAtChannel l k j = none ∧ s.reverse ⟨l, k, j⟩ = none) :
    (s.routeReading l k ch r).alike (t.takeReadings l k rs) := by
  obtain ⟨inside, rfl⟩ := List.getElem?_eq_some_iff.mp there
  have cut : rs.zipIdx = (rs.take ch).zipIdx ++ (rs[ch], ch) :: (rs.drop (ch + 1)).zipIdx (ch + 1) := by
    conv_lhs => rw [← List.take_append_drop ch rs, List.drop_eq_getElem_cons inside]
    rw [List.zipIdx_append, List.zipIdx_cons, List.length_take, Nat.min_eq_left (by omega), Nat.zero_add]
  have before := State.takeReadings_idle (ch := ch) (l := l) (k := k) (rs.take ch).zipIdx h fun p mem => by
    have low := List.snd_lt_of_mem_zipIdx mem
    rw [List.length_take] at low
    have other : p.2 ≠ ch := by omega
    exact ⟨other, idle p.2 other⟩
  have kept := (State.routeReading_kept l k ch rs[ch] running).1
  have struck := State.strikesFrom_routeReading l k ch rs[ch] running distinct
  unfold State.takeReadings
  rw [cut, List.foldl_append, List.foldl_cons]
  refine (State.takeReadings_idle (ch := ch) _ (before.1.takeReading (own.trans before.2) rs[ch] running) fun p mem => ?_).1
  have high := List.le_snd_of_mem_zipIdx mem
  have other : p.2 ≠ ch := by omega
  obtain ⟨none_, nobody⟩ := idle p.2 other
  exact ⟨other, struck.opAtChannel none_, (kept.reverse _).trans nobody⟩

end

/-! ### A STATUS (R54, R55, R62) -/

/-- A STATUS of a polled slot has been kept, and its hatch reading by the strike in flight there (R54, R62). -/
def State.noted (s : State) (l k : Nat) (rs : List Reading) (done : Bool) : State :=
  ((s.endExchange l (.poll k)).updSlot l k fun x => x.answered rs done).noteHatch l k rs

section
variable {s : State} {l k : Nat} {rs : List Reading} {done : Bool}

/-- The STATUS kept, the strike in flight is as it was. -/
theorem State.strike_answered (s : State) (l k : Nat) (f : Slot → Slot) (m : Nat) :
    (((s.endExchange l (.poll k)).updSlot l k f).link m).strike = (s.link m).strike := by
  unfold State.updSlot State.endExchange
  rw [State.updLink_updLink, State.link_updLink]
  split
  · rename_i here
    rw [here.1]
    rfl
  · rfl

/-- Keeping a STATUS is nothing that the cycles see. -/
theorem State.noted_alike (ch : Nat) : s.alike (s.noted l k rs done) ∧ s.sameMemory (s.noted l k rs done) l k ch := by
  have ended : s.alike (s.endExchange l (.poll k)) := (State.alike.refl s).unseen l ⟨rfl, rfl, rfl, fun _ => rfl⟩
  have kept : s.alike ((s.endExchange l (.poll k)).updSlot l k fun x => x.answered rs done) := ended.updSlot fun _ => rfl
  have own : s.sameMemory ((s.endExchange l (.poll k)).updSlot l k fun x => x.answered rs done) l k ch := by
    have first : s.sameMemory (s.endExchange l (.poll k)) l k ch := by
      unfold State.sameMemory
      rw [s.slot_endExchange]
      exact ⟨rfl, rfl⟩
    exact first.trans (State.sameMemory_updSlot _ l k _ fun _ => ⟨rfl, rfl⟩)
  unfold State.noted
  generalize (s.endExchange l (.poll k)).updSlot l k (fun x => x.answered rs done) = w at kept own ⊢
  refine ⟨?_, own.kept (.refl s) (kept_noteHatch w l k rs)⟩
  unfold State.noteHatch State.ackedStrike
  cases strike : (w.link l).strike with
  | none => exact kept
  | some x =>
    dsimp only
    by_cases mine : x.slot = k ∧ x.ackMinute.isSome = true
    · rw [if_pos mine]
      cases there : rs[x.channel]? with
      | none =>
        dsimp only
        rw [there]
        exact kept
      | some r =>
        dsimp only
        rw [there]
        refine kept.unseen l ⟨rfl, rfl, ?_, fun _ => rfl⟩
        rw [strike]
        rfl
    · rw [if_neg mine]
      exact kept

theorem State.ackedStrike_of {x : Strike} (strike : (s.link l).strike = some x) (slot : x.slot = k)
    (acked : x.ackMinute.isSome = true) : s.ackedStrike l k = some x := by
  unfold State.ackedStrike
  rw [strike]
  exact if_pos ⟨slot, acked⟩

/-- The strike in flight on the slot keeps its hatch reading (R62). -/
theorem State.noted_strike {x : Strike} {r : Reading} (strike : (s.link l).strike = some x) (slot : x.slot = k)
    (acked : x.ackMinute.isSome = true) (there : rs[x.channel]? = some r) : ((s.noted l k rs done).link l).strike =
      some { x with hatchSeen := some r.hatchOpen } := by
  have known := State.known_of_strike strike
  have held := (s.strike_answered l k (fun y => y.answered rs done) l).trans strike
  unfold State.noted
  generalize (s.endExchange l (.poll k)).updSlot l k (fun x => x.answered rs done) = w at held ⊢
  unfold State.noteHatch
  rw [State.ackedStrike_of held slot acked]
  dsimp only
  rw [there]
  dsimp only
  rw [State.link_updLink, if_pos ⟨rfl, known⟩]

end

/-- The state after the readings of a STATUS, its strike-done not yet taken (R55). -/
def State.readings (s : State) (l k : Nat) (rs : List Reading) (done : Bool) : State :=
  let kept := rs.take (min 16 (s.slot l k).channels)
  (s.noted l k kept done).takeReadings l k kept

section
variable {s : State} {l k ch : Nat} {rs : List Reading} {done : Bool} {r : Reading}

theorem exec_status (line : (s.link l).line = some (.poll k)) (present : (s.slot l k).state = .PRESENT)
    (running : s.scu.phase ≠ some .AUDIT) (scu : (s.readings l k rs done).scu = s.scu) :
    exec (.boardStatus l k rs done) s = .next (if done then (s.readings l k rs done).strikeDone l k
      (rs.take (min 16 (s.slot l k).channels)) else s.readings l k rs done).pass := by
  generalize taken : (if done then (s.readings l k rs done).strikeDone l k (rs.take (min 16 (s.slot l k).channels))
    else s.readings l k rs done) = v
  have phase : v.scu = s.scu := by
    rw [← taken]
    split
    · exact (kept_strikeDone _ l k _).scu.trans scu
    · exact scu
  have whole : (s.endExchange l (.poll k)).takeStatus l k rs done =
      if v.scu.phase = some .AUDIT then v.auditCheck else v := by
    rw [← taken]
    unfold State.takeStatus
    rw [s.slot_endExchange]
    rfl
  rw [exec_boardStatus line present, whole, phase, if_neg running]

theorem State.readings_alike (there : (rs.take (min 16 (s.slot l k).channels))[ch]? = some r)
    (running : s.scu.phase ≠ some .AUDIT) (distinct : (s.hce.ops.map (·.job)).Nodup)
    (idle : ∀ j, j ≠ ch → s.opAtChannel l k j = none ∧ s.reverse ⟨l, k, j⟩ = none) :
    (s.routeReading l k ch r).alike (s.readings l k rs done) ∧ (s.readings l k rs done).scu = s.scu := by
  obtain ⟨alike, own⟩ := State.noted_alike (s := s) (l := l) (k := k) (rs := rs.take (min 16 (s.slot l k).channels))
    (done := done) ch
  have read := alike.takeReadings own there running distinct idle
  exact ⟨read, (congrArg State.scu read.frame :).trans (State.routeReading_kept l k ch r running).1.scu⟩

end

theorem status_settles (l k ch : Nat) (rs : List Reading) (r : Reading) (s : State) (line : (s.link l).line = some (.poll k))
    (present : (s.slot l k).state = .PRESENT) (there : (rs.take (min 16 (s.slot l k).channels))[ch]? = some r)
    (running : s.scu.phase ≠ some .AUDIT) (distinct : (s.hce.ops.map (·.job)).Nodup)
    (idle : ∀ j, j ≠ ch → s.opAtChannel l k j = none ∧ s.reverse ⟨l, k, j⟩ = none) :
    let u := s.routeReading l k ch r
    ∃ v : State, exec (.boardStatus l k rs false) s = .next v.pass ∧ v = { u with links := v.links } ∧
      ∀ m, (v.link m).prio = (u.link m).prio ∧ (v.link m).bulk = (u.link m).bulk := by
  obtain ⟨alike, scu⟩ := State.readings_alike (done := false) there running distinct idle
  exact ⟨_, exec_status line present running scu, alike.frame, fun m => ⟨(alike.links m).prio, (alike.links m).bulk⟩⟩

/-! ### Strike-done (R62) -/

theorem State.strikesKept_updSlot (s : State) (l k : Nat) (f : Slot → Slot) : s.strikesKept (s.updSlot l k f) := by
  refine ⟨rfl, fun m => ?_⟩
  unfold State.updSlot
  rw [State.link_updLink]
  split
  · rename_i here
    rw [here.1]
    rfl
  · rfl

theorem State.strikesKept_takeReading {s : State} (l k ch : Nat) (r : Reading) (running : s.scu.phase ≠ some .AUDIT) :
    s.strikesKept (s.takeReading l k ch r) ∧ (s.takeReading l k ch r).scu = s.scu := by
  obtain ⟨kept, strikes⟩ := State.routeReading_kept l k ch r running
  have noted := strikes.trans (State.strikesKept_updSlot _ l k fun x =>
    { x with hatch := x.hatch.setIfInBounds ch (if r.hatchOpen then .opened else .closed) })
  unfold State.takeReading State.clearLate
  dsimp only
  split
  · exact ⟨noted.trans (State.strikesKept_updSlot _ l k _), kept.scu⟩
  · exact ⟨noted, kept.scu⟩

theorem State.strikesKept_takeReadings (l k : Nat) (ps : List (Reading × Nat)) : ∀ {s : State}, s.scu.phase ≠ some .AUDIT →
    s.strikesKept (ps.foldl (fun s p => s.takeReading l k p.2 p.1) s) := by
  induction ps with
  | nil => exact fun _ => .refl _
  | cons p ps ih =>
    intro s running
    obtain ⟨strikes, scu⟩ := State.strikesKept_takeReading l k p.2 p.1 running
    exact strikes.trans (ih (by rw [scu]; exact running))

section
variable {s : State} {l k : Nat} {x : Strike} {rs : List Reading} {r : Reading}

/-- The strike on a polled slot keeps the STATUS's hatch reading through all its readings. -/
theorem State.strike_readings {done : Bool} (strike : (s.link l).strike = some x) (slot : x.slot = k)
    (acked : x.ackMinute.isSome = true) (there : (rs.take (min 16 (s.slot l k).channels))[x.channel]? = some r)
    (running : s.scu.phase ≠ some .AUDIT) :
    ((s.readings l k rs done).link l).strike = some { x with hatchSeen := some r.hatchOpen } := by
  have alike := (State.noted_alike (s := s) (l := l) (k := k) (rs := rs.take (min 16 (s.slot l k).channels)) (done := done) 0).1
  have scu : (s.noted l k (rs.take (min 16 (s.slot l k).channels)) done).scu = s.scu := (congrArg State.scu alike.frame :)
  exact ((State.strikesKept_takeReadings l k _ (by rw [scu]; exact running)).2 l).trans (State.noted_strike strike slot acked there)

theorem State.strikesKept_strikeEnd (s : State) (j : Nat) (b : Bool) : s.strikesKept (s.strikeEnd j b) := by
  unfold State.strikeEnd
  split
  · exact .refl s
  · split
    · split
      · exact State.strikesKept_of_eq rfl rfl
      · split <;> exact State.strikesKept_of_eq rfl rfl
    · exact .refl s

theorem State.opByJob_of_mem {o : Op} (there : o ∈ s.hce.ops) (distinct : (s.hce.ops.map (·.job)).Nodup) :
    s.opByJob o.job = some o := by
  cases found : s.opByJob o.job with
  | none =>
    have other := List.find?_eq_none.mp found o there
    exact absurd (beq_self_eq_true o.job) other
  | some z =>
    exact congrArg some (List.inj_on_of_nodup_map distinct (State.opByJob_mem found) there (State.opByJob_job found))

/-- The state with a strike ended (R62, R75). -/
theorem State.strikeDone_ends {w : State} {kept : List Reading} {y : Strike} (strike : (w.link l).strike = some y) (slot : y.slot = k)
    (acked : y.ackMinute.isSome = true) (there : kept[y.channel]? = some r) : w.strikeDone l k kept =
      (if y.opEnded then w.dropStrike l else (w.dropStrike l).strikeEnd y.job (y.hatchSeen.getD false)).occupancyReading y.job r := by
  unfold State.strikeDone
  rw [State.ackedStrike_of strike slot acked]
  dsimp only
  rw [there]
  rfl

end

theorem Op.struck_unopened {o : Op} (c : ConfigVals) (lim : Nat) (unopened : o.opened = false) :
    o.struck c lim false = { o with stage := .AWAIT_OPEN, openWait := some c.openWait } := by
  unfold Op.struck
  rw [unopened]
  rfl

theorem Op.struck_opened {o : Op} (c : ConfigVals) (lim : Nat) (opened : o.opened = true) : o.struck c lim false =
    { o with opened := true, stage := .AWAIT_CONFIRM, openWait := none, ajar := some lim, confirm := some 10 } := by
  unfold Op.struck
  rw [if_neg Bool.false_ne_true, if_pos opened, ← opened]

/-- A strike's operation is told of its end with the hatch reading of the STATUS, and then of its occupancy (R62, R80). -/
theorem strikeTold_settles {s d : State} {o : Op} (r : Reading)
    (frame : d = { s with links := d.links, arb := d.arb, hce := d.hce })
    (found : d.opByJob o.job = some (if r.hatchOpen then { o with opened := true } else o)) (stage : o.stage = .STRIKING) :
    let v := (d.strikeEnd o.job r.hatchOpen).occupancyReading o.job r
    let op : Op := { o with opened := true, stage := .OPEN, openWait := none
                            ajar := some (s.scu.config.ajar.get (s.comp o.comp).cls) }
    let co : Op := { op with stage := .AWAIT_CONFIRM, confirm := some 10 }
    let kli := s.kli.post { kind := .HATCH_OPENED, minute := s.now, job := some o.job, comp := some o.comp,
                            station := some o.station, purpose := some (some o.purpose) }
    let only := fun (w : State) => w = { s with links := w.links, arb := w.arb, hce := w.hce, kli := w.kli }
    (r.hatchOpen = true → v.opByJob o.job = some op ∧ v.kli = kli ∧ only v) ∧
    (r.hatchOpen = false → o.opened = false → v.kli = s.kli ∧ only v ∧
      v.opByJob o.job = some { o with stage := .AWAIT_OPEN, openWait := some s.scu.config.openWait }) ∧
    (r.hatchOpen = false → o.opened = true →
      (r.settled = false → v.opByJob o.job = some co ∧ v.kli = kli ∧ only v) ∧
      (r.settled = true → ∃ w : State, w.opByJob o.job = some co ∧ w.kli = kli ∧ only w ∧
        v = w.endOp co (settledOutcome o.purpose r.occupied) r.occupied)) := by
  intro v op co kli only
  have scu : d.scu = s.scu := (congrArg State.scu frame :)
  have comp : ∀ n, d.comp n = s.comp n := fun n => (congrArg (fun w : State => w.comp n) frame :)
  have post : ∀ y : Op, d.openedPost y = s.openedPost y := fun y => (congrArg (fun w : State => w.openedPost y) frame :)
  have kli' : d.kli = s.kli := (congrArg State.kli frame :)
  obtain ⟨struck, told⟩ := State.strikeEnd_tells found (by split <;> exact stage) r.hatchOpen
  rw [scu, comp] at struck
  generalize ee : d.strikeEnd o.job r.hatchOpen = e at struck told
  have v_eq : v = e.occupancyReading o.job r := congrArg (fun w : State => w.occupancyReading o.job r) ee
  have only_e : only e := by
    change e = { s with links := e.links, arb := e.arb, hce := e.hce, kli := e.kli }
    obtain ⟨g, q, e'⟩ : ∃ g q, e = { d with hce := g, kli := q } := ⟨_, _, told⟩
    obtain ⟨ls, ar, hc, d'⟩ : ∃ ls ar hc, d = { s with links := ls, arb := ar, hce := hc } := ⟨_, _, _, frame⟩
    rw [e', d']
  have queue := (congrArg State.kli told :)
  refine ⟨fun isOpen => ?_, fun shut unopened => ?_, fun shut opened => ?_⟩
  · rw [isOpen] at struck queue
    have still : v = e := v_eq.trans ((State.occupancyReading_of struck).trans (if_neg fun h => Stage.noConfusion h.1))
    rw [still]
    exact ⟨struck, queue.trans (post _), only_e⟩
  · rw [shut] at struck queue
    change e.opByJob o.job = some (o.struck s.scu.config (s.scu.config.ajar.get (s.comp o.comp).cls) false) at struck
    have struck' := struck.trans (congrArg some (Op.struck_unopened _ _ unopened))
    have still : v = e := v_eq.trans ((State.occupancyReading_of struck').trans (if_neg fun h => Stage.noConfusion h.1))
    rw [still]
    change e.kli = if o.opened = true then d.openedPost o else d.kli at queue
    rw [if_neg (by rw [unopened]; exact Bool.false_ne_true)] at queue
    exact ⟨queue.trans kli', only_e, struck'⟩
  · rw [shut] at struck queue
    change e.opByJob o.job = some (o.struck s.scu.config (s.scu.config.ajar.get (s.comp o.comp).cls) false) at struck
    change e.kli = if o.opened = true then d.openedPost o else d.kli at queue
    have struck' : e.opByJob o.job = some co := struck.trans (congrArg some (Op.struck_opened _ _ opened))
    have queue' : e.kli = kli := queue.trans ((if_pos opened).trans (post o))
    have read := State.occupancyReading_of (r := r) struck'
    refine ⟨fun unsettled => ?_, fun settled => ⟨e, struck', queue', only_e, ?_⟩⟩
    · have still : v = e := v_eq.trans (read.trans (if_neg fun h => by
        rw [unsettled] at h
        exact nomatch h.2.1))
      rw [still]
      exact ⟨struck', queue', only_e⟩
    · exact v_eq.trans (read.trans (if_pos ⟨rfl, settled, shut⟩))

theorem strikeDone_settles (l k : Nat) (x : Strike) (rs : List Reading) (r : Reading) (s : State)
    (line : (s.link l).line = some (.poll k)) (present : (s.slot l k).state = .PRESENT) (strike : (s.link l).strike = some x)
    (slot : x.slot = k) (acked : x.ackMinute.isSome = true)
    (there : (rs.take (min 16 (s.slot l k).channels))[x.channel]? = some r) (running : s.scu.phase ≠ some .AUDIT)
    (distinct : (s.hce.ops.map (·.job)).Nodup)
    (idle : ∀ j, j ≠ x.channel → s.opAtChannel l k j = none ∧ s.reverse ⟨l, k, j⟩ = none) :
    let u := s.routeReading l k x.channel r
    ∃ v : State, exec (.boardStatus l k rs true) s = .next v.pass ∧ (v.link l).strike = none ∧
      v.arb = { s.arb with granted := s.arb.granted - x.units } ∧
      (x.opEnded = true → u.opByJob x.job = none → v = { u with links := v.links, arb := v.arb } ∧
        ∀ m, (v.link m).prio = (u.link m).prio ∧ (v.link m).bulk = (u.link m).bulk) ∧
      (∀ o, x.opEnded = false → s.opAtChannel l k x.channel = some o → o.job = x.job → o.stage = .STRIKING →
        (s.slot l k).lateMark x.channel = false →
        let op : Op := { o with opened := true, stage := .OPEN, openWait := none
                                ajar := some (s.scu.config.ajar.get (s.comp o.comp).cls) }
        let co : Op := { op with stage := .AWAIT_CONFIRM, confirm := some 10 }
        let kli := s.kli.post { kind := .HATCH_OPENED, minute := s.now, job := some o.job, comp := some o.comp,
                                station := some o.station, purpose := some (some o.purpose) }
        let only := fun (w : State) => w = { s with links := w.links, arb := w.arb, hce := w.hce, kli := w.kli }
        (r.hatchOpen = true → v.opByJob o.job = some op ∧ v.kli = kli ∧ only v) ∧
        (r.hatchOpen = false → o.opened = false → v.kli = s.kli ∧ only v ∧
          v.opByJob o.job = some { o with stage := .AWAIT_OPEN, openWait := some s.scu.config.openWait }) ∧
        (r.hatchOpen = false → o.opened = true →
          (r.settled = false → v.opByJob o.job = some co ∧ v.kli = kli ∧ only v) ∧
          (r.settled = true → ∃ w : State, w.opByJob o.job = some co ∧ w.kli = kli ∧ only w ∧
            v = w.endOp co (settledOutcome o.purpose r.occupied) r.occupied))) := by
  intro u
  obtain ⟨alike, scu⟩ := State.readings_alike (done := true) there running distinct idle
  have held := State.strike_readings (done := true) strike slot acked there running
  have run := exec_status (done := true) line present running scu
  rw [if_pos rfl, State.strikeDone_ends held slot acked there] at run
  dsimp only at run
  rw [Option.getD_some] at run
  refine ⟨_, run, ?_⟩
  generalize s.readings l k rs true = w at alike scu held ⊢
  have arb : w.arb = s.arb := (congrArg State.arb alike.frame :).trans (State.routeReading_kept l k x.channel r running).2.1
  have granted := State.granted_dropStrike held
  have links := State.link_dropStrike held
  have frame : w.dropStrike l = { w with links := (w.dropStrike l).links, arb := (w.dropStrike l).arb } := by
    rw [State.dropStrike_some held]
    rfl
  generalize w.dropStrike l = d at granted links frame ⊢
  have free : (d.link l).strike = none := by rw [links, if_pos rfl]; rfl
  have hce : d.hce = u.hce := (congrArg State.hce frame :).trans alike.ops
  have ended : d.strikesKept (if x.opEnded then d else d.strikeEnd x.job r.hatchOpen) := by
    split
    · exact .refl d
    · exact State.strikesKept_strikeEnd d x.job r.hatchOpen
  have whole := ended.trans (State.strikesKept_occupancyReading _ x.job r)
  refine ⟨(whole.2 l).trans free, whole.1.trans (by rw [granted, arb]), fun over_ gone => ?_, fun o told at_ job stage unmarked => ?_⟩
  · have nothing : (if x.opEnded then d else d.strikeEnd x.job r.hatchOpen).occupancyReading x.job r = d := by
      have gone' : d.opByJob x.job = none := (congrArg (fun g : Hce => g.ops.find? fun o : Op => o.job == x.job) hce).trans gone
      rw [if_pos over_]
      unfold State.occupancyReading
      rw [gone']
    rw [nothing]
    refine ⟨?_, fun m => ?_⟩
    · rw [frame]
      conv_lhs => rw [alike.frame]
      rfl
    · rw [links]
      split
      · rename_i here
        rw [← here]
        exact ⟨(alike.links l).prio, (alike.links l).bulk⟩
      · exact ⟨(alike.links m).prio, (alike.links m).bulk⟩
  · obtain ⟨routed, mem, link, -, -, -⟩ := (reading_routed l k x.channel r s).1 o at_
    have seen : s.acked o = true := by
      unfold State.acked
      rw [link, strike, job]
      simp [acked]
    have found := State.opByJob_of_mem mem distinct
    have read : u = s.opReading o r := by
      rw [unmarked] at routed
      exact routed
    have closed : x.opEnded = true → False := fun h => by
      rw [told] at h
      exact nomatch h
    have scene : u = { s with hce := u.hce } ∧ u.opByJob o.job = some (if r.hatchOpen then { o with opened := true } else o) := by
      rw [read]
      obtain ⟨-, -, opens, stays, -⟩ := reading_moves o r s found
      cases isOpen : r.hatchOpen with
      | true => exact ⟨(opens stage seen isOpen).2, (opens stage seen isOpen).1⟩
      | false =>
        rw [stays stage (.inr isOpen)]
        exact ⟨rfl, found⟩
    have frame' : d = { s with links := d.links, arb := d.arb, hce := d.hce } := by
      rw [frame]
      conv_lhs => rw [alike.frame]
      change ({ u with links := d.links, arb := d.arb } : State) = { s with links := d.links, arb := d.arb, hce := w.hce }
      rw [scene.1, alike.ops]
    have told' := strikeTold_settles r frame' (o := o) ((congrArg (fun g : Hce => g.ops.find? fun y : Op => y.job == o.job) hce).trans
      scene.2) stage
    rw [if_neg closed, ← job]
    exact told'

/-- Settles O55. -/
theorem readingsDriveTheStages : Obligations.ReadingsDriveTheStages :=
  ⟨reading_moves, status_settles, strikeDone_settles, reading_routed, forcedTest_tells, lateMark_takeReading⟩

end Sys2Proof.Machine
end

