-- ==== Sys2Proof/Proofs/Holds.lean ====
section
/-! Holds, their releases, and the causes that end an operation as a hold would (R14 to R19, R63, R81, R157, R178). -/

namespace Sys2Proof.Machine

open Sys2Proof

/-! ### The operation that a hold ends (R15) -/

/-- A hold ends the operation: it is not of service and has not been struck (R15). -/
def State.endsByHold (s : State) (o : Op) : Bool :=
  !o.purpose.isService && (decide (o.stage = .QUEUED ∨ o.stage = .AWAIT_PAYMENT) || (decide (o.stage = .STRIKING) && !s.acked o))

/-- The end that a hold brings an operation, with its strike settled or carried on (R15, R63). -/
def State.holdEnd (s : State) (o : Op) : State :=
  if o.stage = .STRIKING then (s.endOp o .HELD).strikeLosesOp o.link else s.endOp o .HELD

section
variable {s : State} {n : Nat}

theorem State.holdOp_stays (stays : ∀ o, s.opOn n = some o → s.endsByHold o = false) : s.holdOp n = (s, 0) := by
  unfold State.holdOp
  cases found : s.opOn n with
  | none => rfl
  | some o =>
    have kept := stays o found
    unfold State.endsByHold at kept
    dsimp only
    by_cases service : o.purpose.isService = true
    · rw [if_pos service]
    · rw [if_neg service]
      rw [Bool.not_eq_true] at service
      rw [service] at kept
      cases stage : o.stage with
      | STRIKING =>
        dsimp only
        rw [stage] at kept
        have acked : s.acked o = true := by simpa using kept
        rw [if_pos acked]
      | QUEUED => simp [stage] at kept
      | AWAIT_PAYMENT => simp [stage] at kept
      | AWAIT_OPEN => rfl
      | OPEN => rfl
      | AWAIT_CONFIRM => rfl

theorem State.endsByHold_iff {o : Op} : s.endsByHold o = true ↔ o.purpose.isService = false ∧
    (o.stage = .QUEUED ∨ o.stage = .AWAIT_PAYMENT ∨ (o.stage = .STRIKING ∧ s.acked o = false)) := by
  unfold State.endsByHold
  simp [or_assoc]

theorem State.holdOp_ends {o : Op} (found : s.opOn n = some o) (ends : s.endsByHold o = true) :
    s.holdOp n = (s.holdEnd o, 1) := by
  obtain ⟨own, stage⟩ := State.endsByHold_iff.mp ends
  unfold State.holdOp State.holdEnd
  rw [found]
  dsimp only
  rw [if_neg (by rw [own]; exact Bool.false_ne_true)]
  rcases stage with queued | waits | ⟨striking, unacked⟩
  · rw [queued]
    rfl
  · rw [waits]
    rfl
  · rw [striking]
    dsimp only
    rw [if_neg (by rw [unacked]; exact Bool.false_ne_true)]
    rfl

theorem State.holdComp_stays (stays : ∀ o, s.opOn n = some o → s.endsByHold o = false) :
    s.holdComp n = (s.clearTag n, 0) := by
  unfold State.holdComp
  rw [State.holdOp_stays stays]

theorem State.holdComp_ends {o : Op} (found : s.opOn n = some o) (ends : s.endsByHold o = true) :
    s.holdComp n = ((s.holdEnd o).clearTag n, 1) := by
  unfold State.holdComp
  rw [State.holdOp_ends found ends]

end

/-! ### A strike that loses its operation (R63) -/

section
variable {s : State} {l : Nat}

theorem State.strikeLosesOp_frame (s : State) (l : Nat) :
    s.strikeLosesOp l = { s with links := (s.strikeLosesOp l).links, arb := (s.strikeLosesOp l).arb } := by
  unfold State.strikeLosesOp
  split
  · rfl
  · exact s.dropStrike_eq l

theorem Link.striking_iff {x : Link} : x.striking = true ↔ ∃ a b c d, x.line = some (.strike a b c d) := by
  unfold Link.striking
  split
  · rename_i line
    exact iff_of_true rfl ⟨_, _, _, _, line⟩
  · rename_i other
    exact iff_of_false Bool.false_ne_true fun ⟨a, b, c, d, line⟩ => other a b c d line

/-- While its STRIKE is on the line, the strike stands without its operation and keeps its units. -/
theorem State.strikeLosesOp_onLine (line : (s.link l).striking = true) : (s.strikeLosesOp l).arb = s.arb ∧
    ((s.strikeLosesOp l).link l).strike = (s.link l).strike.map fun y => { y with opEnded := true } := by
  have known : 1 ≤ l ∧ l ≤ 4 := by
    by_contra out
    rw [State.link_outside s out] at line
    exact Bool.false_ne_true line
  unfold State.strikeLosesOp
  rw [if_pos line]
  refine ⟨rfl, ?_⟩
  rw [State.link_updLink, if_pos ⟨rfl, known⟩]

/-- With no STRIKE on the line it goes, and its units go back. -/
theorem State.strikeLosesOp_free (line : (s.link l).striking = false) :
    (s.strikeLosesOp l).arb.granted = s.arb.granted - (s.link l).strikeUnits ∧ ((s.strikeLosesOp l).link l).strike = none := by
  unfold State.strikeLosesOp Link.strikeUnits
  rw [line, if_neg Bool.false_ne_true]
  cases strike : (s.link l).strike with
  | none =>
    have same : s.dropStrike l = s := by
      unfold State.dropStrike
      rw [strike]
    rw [same]
    exact ⟨rfl, strike⟩
  | some k =>
    rw [State.granted_dropStrike strike, State.link_dropStrike strike, if_pos rfl]
    exact ⟨rfl, rfl⟩

theorem State.strikeLosesOp_others {m : Nat} (other : m ≠ l) : (s.strikeLosesOp l).link m = s.link m := by
  unfold State.strikeLosesOp
  split
  · rw [State.link_updLink, if_neg fun h => other h.1.symm]
  · cases strike : (s.link l).strike with
    | none =>
      unfold State.dropStrike
      rw [strike]
    | some k => rw [State.link_dropStrike strike, if_neg (Ne.symm other)]

end

/-! ### What the end of a hold leaves -/

section
variable {s : State} {o : Op}

/-- Beside the links and the arbiter a hold ends an operation as any other end does. -/
theorem State.holdEnd_frame (s : State) (o : Op) :
    s.holdEnd o = { s.endOp o .HELD with links := (s.holdEnd o).links, arb := (s.holdEnd o).arb } := by
  unfold State.holdEnd
  split
  · exact State.strikeLosesOp_frame _ _
  · rfl

theorem State.holdEnd_ends (alone : o.purpose ≠ .SWEEP ∨ s.calm) (there : o ∈ s.hce.ops) : s.Ends (s.holdEnd o) [(o, .HELD)] := by
  obtain ⟨a, b, e⟩ : ∃ a b, s.holdEnd o = { s.endOp o .HELD with links := a, arb := b } := ⟨_, _, s.holdEnd_frame o⟩
  have ended := State.endOp_ends alone ⟨o, there, rfl⟩ (by decide : CycleOutcome.HELD ≠ .COMPLETED)
  rw [e]
  exact ended.trans (.silent rfl (fun _ => ⟨rfl, rfl⟩) rfl rfl rfl)

/-- Of the other links an end by a hold takes no strike, and no strike at all for an operation not yet granted. -/
theorem State.holdEnd_strikes {l : Nat} (other : o.stage = .STRIKING → l ≠ o.link) :
    ((s.holdEnd o).link l).strike = (s.link l).strike := by
  have kept := (s.strikesKept_endOp o .HELD false).2 l
  unfold State.holdEnd
  split
  · rename_i striking
    rw [State.strikeLosesOp_others (other striking)]
    exact kept
  · exact kept

theorem State.holdEnd_arb (early : o.stage ≠ .STRIKING) : (s.holdEnd o).arb = s.arb := by
  unfold State.holdEnd
  rw [if_neg early]
  exact (s.strikesKept_endOp o .HELD false).1

theorem State.holdEnd_onLine (striking : o.stage = .STRIKING)
    (line : ∃ a b c d, (s.link o.link).line = some (.strike a b c d)) : (s.holdEnd o).arb = s.arb ∧
      ((s.holdEnd o).link o.link).strike = (s.link o.link).strike.map fun y => { y with opEnded := true } := by
  obtain ⟨arb, strikes⟩ := s.strikesKept_endOp o .HELD false
  obtain ⟨-, -, same, -⟩ := (kept_endOp s o .HELD false).link o.link
  have lost := State.strikeLosesOp_onLine (s := s.endOp o .HELD) (Link.striking_iff.mpr (same ▸ line))
  unfold State.holdEnd
  rw [if_pos striking]
  exact ⟨lost.1.trans arb, lost.2.trans (congrArg _ (strikes o.link))⟩

theorem State.holdEnd_free (striking : o.stage = .STRIKING)
    (line : ∀ a b c d, (s.link o.link).line ≠ some (.strike a b c d)) :
    (s.holdEnd o).arb.granted = s.arb.granted - (s.link o.link).strikeUnits ∧ ((s.holdEnd o).link o.link).strike = none := by
  obtain ⟨arb, strikes⟩ := s.strikesKept_endOp o .HELD false
  obtain ⟨-, -, same, -⟩ := (kept_endOp s o .HELD false).link o.link
  have off : ((s.endOp o .HELD).link o.link).striking = false := by
    rw [← Bool.not_eq_true, Link.striking_iff, same]
    exact fun ⟨a, b, c, d, h⟩ => line a b c d h
  have lost := State.strikeLosesOp_free off
  unfold State.holdEnd
  rw [if_pos striking]
  refine ⟨lost.1.trans ?_, lost.2⟩
  unfold Link.strikeUnits
  rw [arb, strikes]

/-- The end of an operation leaves its mark on its compartment; a charge handed over changes at most the parcel. -/
theorem State.comp_endOp {out : CycleOutcome} (alone : o.purpose ≠ .SWEEP ∨ s.noRun) (n : Nat) :
    (s.endOp o out).comp n = { (s.endedBy o out false).comp n with parcel := ((s.endOp o out).comp n).parcel } := by
  rw [State.endOp_eq alone]
  dsimp only
  split
  · exact (State.abandonOf_spec _ _).2 n
  · rfl

theorem State.comp_endOp_other {out : CycleOutcome} (alone : o.purpose ≠ .SWEEP ∨ s.noRun) {n : Nat} (other : n ≠ o.comp) :
    (s.endOp o out).comp n = { s.comp n with parcel := ((s.endOp o out).comp n).parcel } :=
  (State.comp_endOp alone n).trans (congrArg (fun c : Compartment => { c with parcel := ((s.endOp o out).comp n).parcel })
    (State.endedBy_others s o out false [] n other))

theorem State.comp_endOp_own {out : CycleOutcome} (alone : o.purpose ≠ .SWEEP ∨ s.noRun) (known : isComp o.comp) :
    (s.endOp o out).comp o.comp = { (s.comp o.comp).ended o.purpose out false s.now with
      purpose := none
      parcel := ((s.endOp o out).comp o.comp).parcel } :=
  (State.comp_endOp alone o.comp).trans (congrArg (fun c : Compartment => { c with parcel := ((s.endOp o out).comp o.comp).parcel })
    (State.endedBy_comp [] known))

end

/-- The end by a hold tags nothing. -/
theorem Compartment.ended_held_untagged {c : Compartment} {pu : Purpose} {occ : Bool} {m : Nat} (untagged : c.tagOwner = none) :
    (c.ended pu .HELD occ m).tagOwner = none := by
  have undone : (c.undone m).tagOwner = none := by
    unfold Compartment.undone
    split
    · exact untagged
    · split <;> exact untagged
    · exact untagged
  cases pu with
  | DEPOSIT => exact undone
  | RETURN_DROP => exact undone
  | COLLECT => exact untagged
  | SWEEP => rfl
  | SERVICE_OPEN => exact untagged
  | SERVICE_REMOVE => exact untagged

/-! ### The tag that a hold clears (R178) -/

section
variable {s : State} {n : Nat}

theorem State.clearTag_others (s : State) (n : Nat) : s.otherComps (s.clearTag n) n := fun m other => by
  have same : (s.clearTag n).comp m = (s.updComp n fun c => { c with tagOwner := none }).comp m :=
    (congrArg (fun v : State => v.comp m) (s.clearTag_frame n) :)
  rw [same, State.comp_updComp, if_neg fun h => other h.1.symm]

theorem State.clearTag_own (s : State) (n : Nat) : (s.clearTag n).comp n = { s.comp n with tagOwner := none } := by
  have own : (s.clearTag n).comp n = (s.updComp n fun c => { c with tagOwner := none }).comp n :=
    (congrArg (fun v : State => v.comp n) (s.clearTag_frame n) :)
  rw [own, State.comp_updComp]
  split
  · rfl
  · rename_i out
    rw [State.comp_outside s fun known => out ⟨rfl, known⟩]
    rfl

/-- With no sweep run a tag cleared posts nothing and ends nothing. -/
theorem State.clearTag_ends (quiet : s.noRun) : s.Ends (s.clearTag n) [] := by
  have swu : (s.clearTag n).swu.k1.run = s.swu.k1.run ∧ (s.clearTag n).swu.k2.run = s.swu.k2.run ∧
      (s.clearTag n).kli = s.kli := by
    cases owner : (s.comp n).tagOwner with
    | none =>
      rw [State.clearTag_none owner]
      exact ⟨rfl, rfl, rfl⟩
    | some k =>
      have run : (((s.updComp n fun x => { x with tagOwner := none }).updSide k fun x =>
          { x with tags := withoutComp x.tags n }).side k).run = none := by
        cases k with
        | K1 => exact quiet.1
        | K2 => exact quiet.2
      unfold State.clearTag
      rw [owner]
      dsimp only
      rw [run]
      cases k <;> exact ⟨rfl, rfl, rfl⟩
  obtain ⟨one, two, kli⟩ := swu
  have comps : ∀ m, ((s.clearTag n).comp m).purpose = (s.comp m).purpose ∧ ((s.clearTag n).comp m).causes = (s.comp m).causes :=
    fun m => by
      by_cases here : m = n
      · rw [here, State.clearTag_own]
        exact ⟨rfl, rfl⟩
      · rw [State.clearTag_others s n m here]
        exact ⟨rfl, rfl⟩
  have ops : (s.clearTag n).hce = s.hce := (congrArg State.hce (s.clearTag_frame n) :)
  have runs : (s.clearTag n).runs = s.runs := by
    unfold State.runs
    rw [one, two]
  exact
    { ops := (congrArg Hce.ops ops).trans (List.filter_eq_self.mpr fun _ _ => rfl).symm
      count := by rw [ops]; exact Nat.le_refl _
      idle := fun m a => (comps m).1.trans a
      audit := fun m a => by rw [(comps m).2]; exact a
      own := fun _ h => nomatch h
      queue := fun x a => by rw [kli]; exact a
      length := by rw [kli, runs]; exact Nat.le_refl _
      told := fun _ _ h => nomatch h
      noRun := fun a => ⟨one.trans a.1, two.trans a.2⟩
      scu := (congrArg State.scu (s.clearTag_frame n) :) }

theorem State.clearTag_strikes (s : State) (n l : Nat) : ((s.clearTag n).link l).strike = (s.link l).strike :=
  (congrArg (fun v : State => (v.link l).strike) (s.clearTag_frame n) :)

end

/-! ### A hold over several compartments (R16) -/

/-- What a hold over the compartments `ns` brings: `es` are the operations it ends, each by R15; none that it ends is
left, and the other compartments keep all but a parcel's reference of a charge dropped. -/
structure State.HeldOver (s v : State) (ns : List Nat) (es : List Op) : Prop where
  ends : s.Ends v (es.map fun o => (o, .HELD))
  each : ∀ o ∈ es, o ∈ s.hce.ops ∧ s.endsByHold o = true ∧ o.comp ∈ ns
  rest : ∀ y ∈ v.hce.ops, y.comp ∈ ns → s.endsByHold y = false
  same : ∀ y ∈ v.hce.ops, v.endsByHold y = s.endsByHold y
  tags : ∀ n, n ∈ ns ∨ (s.comp n).tagOwner = none → (v.comp n).tagOwner = none
  others : ∀ n, n ∉ ns → v.comp n = { s.comp n with parcel := (v.comp n).parcel }

theorem State.Ends.mem {s v : State} {es : List (Op × CycleOutcome)} (h : s.Ends v es) {y : Op} (left : y ∈ v.hce.ops) :
    y ∈ s.hce.ops := by
  rw [h.ops] at left
  exact (List.mem_filter.mp left).1

theorem State.HeldOver.refl (s : State) : s.HeldOver s [] [] where
  ends := .refl s
  each _ h := nomatch h
  rest _ _ h := nomatch h
  same _ _ := rfl
  tags _ h := h.resolve_left List.not_mem_nil
  others _ _ := rfl

theorem State.HeldOver.trans {s v w : State} {ns ms : List Nat} {es fs : List Op} (h : s.HeldOver v ns es)
    (h' : v.HeldOver w ms fs) : s.HeldOver w (ns ++ ms) (es ++ fs) where
  ends := by
    rw [List.map_append]
    exact h.ends.trans h'.ends
  each o mem := by
    rcases List.mem_append.mp mem with early | late
    · obtain ⟨there, ended, named⟩ := h.each o early
      exact ⟨there, ended, List.mem_append_left _ named⟩
    · obtain ⟨there, ended, named⟩ := h'.each o late
      exact ⟨h.ends.mem there, (h.same o there).symm.trans ended, List.mem_append_right _ named⟩
  rest y left named := by
    rcases List.mem_append.mp named with early | late
    · exact h.rest y (h'.ends.mem left) early
    · exact (h.same y (h'.ends.mem left)).symm.trans (h'.rest y left late)
  same y left := (h'.same y left).trans (h.same y (h'.ends.mem left))
  tags n held := h'.tags n (by
    rcases held with named | untagged
    · exact (List.mem_append.mp named).symm.imp_right fun early => h.tags n (.inl early)
    · exact .inr (h.tags n (.inr untagged)))
  others n out := by
    have early := h.others n fun named => out (List.mem_append_left _ named)
    have late := h'.others n fun named => out (List.mem_append_right _ named)
    rw [early] at late
    exact late

/-- Each compartment has one operation and each link one that is STRIKING, as the arbiter keeps it (R11, R75). -/
def State.oneStrikeEach (s : State) : Prop :=
  s.oneOpEach ∧ ∀ o ∈ s.hce.ops, ∀ q ∈ s.hce.ops, o.stage = .STRIKING → q.stage = .STRIKING → o.link = q.link → o = q

theorem State.Ends.oneStrikeEach {s v : State} {es : List (Op × CycleOutcome)} (h : s.Ends v es) (one : s.oneStrikeEach) :
    v.oneStrikeEach := by
  refine ⟨?_, fun o left q left' => one.2 o (h.mem left) q (h.mem left')⟩
  unfold State.oneOpEach
  rw [h.ops]
  exact one.1.sublist (List.filter_sublist.map _)

theorem State.oneOpEach.unique {s : State} (one : s.oneOpEach) {o y : Op} (there : o ∈ s.hce.ops) (left : y ∈ s.hce.ops)
    (same : y.comp = o.comp) : y = o := List.inj_on_of_nodup_map one left there same

section
variable {s : State} {n : Nat}

theorem State.endsByHold_congr {v : State} {y : Op} (strike : y.stage = .STRIKING → (v.link y.link).strike = (s.link y.link).strike) :
    v.endsByHold y = s.endsByHold y := by
  unfold State.endsByHold
  by_cases striking : y.stage = .STRIKING
  · unfold State.acked
    rw [strike striking]
  · rw [decide_eq_false striking, Bool.false_and, Bool.false_and]

/-- An operation ended and the tag of its compartment cleared, one step of a hold over several compartments. -/
theorem State.HeldOver.cleared {u : State} {es : List Op} (quiet : u.noRun) (ends : s.Ends u (es.map fun o => (o, .HELD)))
    (each : ∀ o ∈ es, o ∈ s.hce.ops ∧ s.endsByHold o = true ∧ o.comp = n)
    (rest : ∀ y ∈ u.hce.ops, y.comp = n → s.endsByHold y = false) (same : ∀ y ∈ u.hce.ops, u.endsByHold y = s.endsByHold y)
    (tags : ∀ m, (s.comp m).tagOwner = none → (u.comp m).tagOwner = none)
    (others : ∀ m, m ≠ n → u.comp m = { s.comp m with parcel := (u.comp m).parcel }) : s.HeldOver (u.clearTag n) [n] es where
  ends := by
    have clears := ends.trans (State.clearTag_ends (n := n) quiet)
    rwa [List.append_nil] at clears
  each o mem := by
    obtain ⟨there, ended, here⟩ := each o mem
    exact ⟨there, ended, List.mem_singleton.mpr here⟩
  rest y left named := rest y ((State.clearTag_ends quiet).mem left) (List.mem_singleton.mp named)
  same y left := (State.endsByHold_congr fun _ => u.clearTag_strikes n y.link).trans (same y ((State.clearTag_ends quiet).mem left))
  tags m held := by
    by_cases here : m = n
    · rw [here, State.clearTag_own]
    · rw [u.clearTag_others n m here]
      exact tags m (held.resolve_left fun named => here (List.mem_singleton.mp named))
  others m out := by
    have other : m ≠ n := fun here => out (List.mem_singleton.mpr here)
    rw [u.clearTag_others n m other]
    exact others m other

theorem State.holdComp_held (quiet : s.noRun) (one : s.oneStrikeEach) :
    ∃ es, s.HeldOver (s.holdComp n).1 [n] es ∧ (s.holdComp n).2 = es.length := by
  by_cases ended : ∃ o, s.opOn n = some o ∧ s.endsByHold o = true
  · obtain ⟨o, found, held⟩ := ended
    obtain ⟨there, here⟩ := State.opOn_mem found
    have ends := State.holdEnd_ends (.inr (.inl quiet)) there
    have comps : ∀ m, (s.holdEnd o).comp m = (s.endOp o .HELD).comp m := fun m =>
      (congrArg (fun v : State => v.comp m) (s.holdEnd_frame o) :)
    have gone : ∀ y ∈ (s.holdEnd o).hce.ops, y ≠ o := fun y left same => by
      rw [ends.ops, same] at left
      simp at left
    rw [State.holdComp_ends found held]
    refine ⟨[o], State.HeldOver.cleared (ends.noRun quiet) ends (fun q mem => ?_) (fun y left named => ?_) (fun y left => ?_)
      (fun m untagged => ?_) (fun m other => ?_), rfl⟩
    · rw [List.mem_singleton.mp mem]
      exact ⟨there, held, here⟩
    · exact absurd (one.1.unique there (ends.mem left) (named.trans here.symm)) (gone y left)
    · exact State.endsByHold_congr fun striking => State.holdEnd_strikes fun struck same =>
        gone y left (one.2 y (ends.mem left) o there striking struck same)
    · rw [comps m]
      by_cases own : m = o.comp
      · subst own
        by_cases known : isComp o.comp
        · rw [State.comp_endOp_own (.inr quiet) known]
          exact Compartment.ended_held_untagged untagged
        · rw [State.comp_outside _ known]
          rfl
      · rw [State.comp_endOp_other (.inr quiet) own]
        exact untagged
    · rw [comps m]
      exact State.comp_endOp_other (.inr quiet) (here ▸ other)
  · have stays : ∀ o, s.opOn n = some o → s.endsByHold o = false := fun o found =>
      Bool.not_eq_true _ |>.mp fun held => ended ⟨o, found, held⟩
    rw [State.holdComp_stays stays]
    refine ⟨[], State.HeldOver.cleared quiet (.refl s) (fun _ h => nomatch h) (fun y left named => ?_) (fun _ _ => rfl)
      (fun _ h => h) (fun _ _ => rfl), rfl⟩
    cases found : s.opOn n with
    | none => exact absurd (beq_iff_eq.mpr named) (List.find?_eq_none.mp found y left)
    | some o =>
      obtain ⟨there, here⟩ := State.opOn_mem found
      rw [one.1.unique there left (named.trans here.symm)]
      exact stays o found

end

theorem holdOver_held : ∀ (ns : List Nat) (s : State) (k : Nat), s.noRun → s.oneStrikeEach →
    ∃ es, s.HeldOver (holdOver ns s k).1 ns es ∧ (holdOver ns s k).2 = k + es.length
  | [], s, _, _, _ => ⟨[], .refl s, rfl⟩
  | n :: ns, s, k, quiet, one => by
    obtain ⟨es, first, count⟩ := State.holdComp_held (n := n) quiet one
    obtain ⟨fs, then_, more⟩ := holdOver_held ns (s.holdComp n).1 (k + (s.holdComp n).2) (first.ends.noRun quiet)
      (first.ends.oneStrikeEach one)
    refine ⟨es ++ fs, first.trans then_, more.trans ?_⟩
    rw [count, List.length_append]
    exact Nat.add_assoc _ _ _

theorem holdOver_quiet (ns : List Nat) (s : State) (k : Nat)
    (quiet : ∀ n ∈ ns, s.hasOp n = false ∧ (s.comp n).tagOwner = none) : holdOver ns s k = (s, k) := by
  induction ns with
  | nil => rfl
  | cons n ns ih =>
    obtain ⟨free, untagged⟩ := quiet n List.mem_cons_self
    have idle : ∀ o, s.opOn n = some o → s.endsByHold o = false := fun o found => by
      rw [State.hasOp_false free] at found
      exact nomatch found
    unfold holdOver
    rw [State.holdComp_stays idle, State.clearTag_none untagged]
    exact ih fun m mem => quiet m (List.mem_cons_of_mem _ mem)

theorem kept_holdOver : ∀ (ns : List Nat) (s : State) (k : Nat), Kept s (holdOver ns s k).1
  | [], s, _ => .refl s
  | n :: ns, s, k => (kept_holdComp s n).trans (kept_holdOver ns (s.holdComp n).1 (k + (s.holdComp n).2))

/-- The operations ended are as many as the test names. -/
theorem State.Ends.length_eq {s v : State} {es : List Op} {test : Op → Bool} (h : s.Ends v (es.map fun o => (o, .HELD)))
    (distinct : (s.hce.ops.map (·.job)).Nodup) (each : ∀ o ∈ es, o ∈ s.hce.ops) (left : v.hce.ops = s.hce.ops.filter fun o => !test o) :
    es.length = s.hce.ops.countP test := by
  have split : v.hce.ops.length + s.hce.ops.countP test = s.hce.ops.length := by
    rw [left, ← List.countP_eq_length_filter, List.length_eq_countP_add_countP test (l := s.hce.ops)]
    simp [Nat.add_comm]
  have few := h.count
  rw [List.length_map] at few
  have named : s.hce.ops.filter test ⊆ es := fun y mem => by
    obtain ⟨there, tested⟩ := List.mem_filter.mp mem
    by_contra out
    have stands : y ∈ v.hce.ops := by
      rw [h.ops]
      refine List.mem_filter.mpr ⟨there, List.all_eq_true.mpr fun e mem' => ?_⟩
      obtain ⟨o, ended, rfl⟩ := List.mem_map.mp mem'
      exact bne_iff_ne.mpr fun same => out (List.inj_on_of_nodup_map distinct there (each o ended) same ▸ ended)
    rw [left] at stands
    simp [tested] at stands
  have many := ((distinct.of_map _).filter test).subperm named |>.length_le
  rw [← List.countP_eq_length_filter] at many
  omega

/-! ### The requests (R14 to R17) -/

section
variable {s : State} {n : Nat}

theorem State.hold_one (sv : s.serves) (hn : isComp n) : s.hold (.inl n) =
    ⟨((s.setOwnHold n true).holdComp n).1.pass, .OK, .holdEnded ((s.setOwnHold n true).holdComp n).2⟩ := by
  unfold State.hold
  exact State.onComp_served _ sv hn

theorem State.hold_sect (sv : s.serves) (i : Fin 8) : s.hold (.inr i.val) =
    let w := s.updSect i fun x => { x with hold := true }
    ⟨(holdOver (w.compsOf i) w 0).1.pass, .OK, .holdEnded (holdOver (w.compsOf i) w 0).2⟩ := s.onSect_served i _ sv

theorem State.holdRelease_one (sv : s.serves) (hn : isComp n) : s.holdRelease (.inl n) =
    ⟨s.setOwnHold n false, .OK, .stillHeld (s.sectHeld (s.comp n))⟩ := by
  unfold State.holdRelease
  exact State.onComp_served _ sv hn

theorem State.holdRelease_sect (sv : s.serves) (i : Fin 8) : s.holdRelease (.inr i.val) =
    ⟨s.updSect i fun x => { x with hold := false }, .OK, .ownHolds ((s.compsOf i).filter fun n => (s.comp n).ownHold).length⟩ :=
  s.onSect_served i _ sv

theorem State.hold_starting (starting : s.scu.phase ≠ none) (x : Nat ⊕ Nat) :
    s.hold x = s.refuse .STARTING ∧ s.holdRelease x = s.refuse .STARTING := by
  have check : s.serviceCheck = some .STARTING := by
    unfold State.serviceCheck State.starting
    rw [if_pos (Option.isSome_iff_ne_none.mpr starting)]
  unfold State.hold State.holdRelease State.onComp State.onSect
  cases x <;> simp only [check, and_self]

theorem State.hold_dormant (running : s.scu.phase = none) (dormant : s.scu.mode = .DORMANT) (x : Nat ⊕ Nat) :
    s.hold x = s.refuse .NO_POWER ∧ s.holdRelease x = s.refuse .NO_POWER := by
  have check : s.serviceCheck = some .NO_POWER := by
    simp [State.serviceCheck, State.starting, running, dormant]
  unfold State.hold State.holdRelease State.onComp State.onSect
  cases x <;> simp only [check, and_self]

theorem State.hold_unknown (sv : s.serves) (out : ¬ isComp n) :
    s.hold (.inl n) = s.refuse .NOT_FOUND ∧ s.holdRelease (.inl n) = s.refuse .NOT_FOUND := by
  unfold State.hold State.holdRelease State.onComp
  rw [State.serviceCheck_served sv]
  exact ⟨if_neg out, if_neg out⟩

end

theorem exec_hold (h : ReqHead) (p : List Byte) (s : State) :
    exec (.hold h p) s = .next (s.takeRequest h 27 p .target fun t s => s.hold t) := rfl

theorem exec_holdRelease (h : ReqHead) (p : List Byte) (s : State) :
    exec (.holdRelease h p) s = .next (s.takeRequest h 28 p .target fun t s => s.holdRelease t) := rfl

theorem hold_refused (h : ReqHead) (p : List Byte) (c : Instr) (kind : Nat) (x : Nat ⊕ Nat) (s : State)
    (request : (c = .hold h p ∧ kind = 27) ∨ (c = .holdRelease h p ∧ kind = 28)) (a : s.asks h kind p)
    (parsed : Codec.target.parse p = some x) :
    (s.scu.phase ≠ none → exec c s = .next { s with kli := s.kli.answered h kind .STARTING .empty }) ∧
    (s.scu.phase = none → s.scu.mode = .DORMANT →
      exec c s = .next { s with kli := s.kli.answered h kind .NO_POWER .empty }) ∧
    (s.serves → (∃ n, x = .inl n ∧ ¬ isComp n) →
      exec c s = .next { s with kli := s.kli.answered h kind .NOT_FOUND .empty }) := by
  have refused : ∀ st : Status, st ≠ .BAD_REQUEST →
      ((s.took h).hold x = (s.took h).refuse st ∧ (s.took h).holdRelease x = (s.took h).refuse st) →
      exec c s = .next { s with kli := s.kli.answered h kind st .empty } := fun st other both => by
    rcases request with ⟨rfl, rfl⟩ | ⟨rfl, rfl⟩
    · rw [exec_hold, State.takeRequest_of a parsed rfl both.1 other]
      rfl
    · rw [exec_holdRelease, State.takeRequest_of a parsed rfl both.2 other]
      rfl
  refine ⟨fun starting => refused _ (by decide) (State.hold_starting (s := s.took h) starting x),
    fun running dormant => refused _ (by decide) (State.hold_dormant (s := s.took h) running dormant x), fun sv ⟨n, named, out⟩ => ?_⟩
  subst named
  exact refused _ (by decide) (State.hold_unknown (s := s.took h) sv out)

theorem hold_unparsed (h : ReqHead) (b : Byte) (q : List Byte) (c : Instr) (kind : Nat) (s : State)
    (request : (c = .hold h (1 :: b :: q) ∧ kind = 27) ∨ (c = .holdRelease h (1 :: b :: q) ∧ kind = 28))
    (a : s.asks h kind (1 :: b :: q)) (out : 8 ≤ b.toNat) : exec c s = .next { s with kli := s.kli.rejected h (byteOf kind) } := by
  have unparsed : Codec.target.parse (1 :: b :: q) = none := by
    have dec : Codec.target.dec (1 :: b :: q) = none := by
      unfold Codec.target
      rw [Codec.alt_dec_second, Codec.letter_outside q out]
      rfl
    unfold Codec.parse
    rw [dec]
  rcases request with ⟨rfl, rfl⟩ | ⟨rfl, rfl⟩
  · exact congrArg Host.Outcome.next (State.takeRequest_badRequest s (fun t s => s.hold t) a unparsed)
  · exact congrArg Host.Outcome.next (State.takeRequest_badRequest s (fun t s => s.holdRelease t) a unparsed)

theorem release_one (h : ReqHead) (p : List Byte) (n : Nat) (s : State) (a : s.asks h 28 p)
    (parsed : Codec.target.parse p = some (.inl n)) (sv : s.serves) (hn : isComp n) : exec (.holdRelease h p) s =
      .next { s.withComp n { s.comp n with ownHold := false } with
        kli := (s.kli.answered h 28 .OK (.stillHeld (s.sectHeld (s.comp n)))) } := by
  rw [exec_holdRelease, State.takeRequest_of a parsed rfl (State.holdRelease_one (s := s.took h) sv hn) (by decide)]
  rfl

theorem release_sect (h : ReqHead) (p : List Byte) (i : Fin 8) (s : State) (a : s.asks h 28 p)
    (parsed : Codec.target.parse p = some (.inr i.val)) (sv : s.serves) : exec (.holdRelease h p) s =
      .next { s with
        sects := s.sects.set i.val { s.sect i with hold := false }
        kli := (s.kli.answered h 28 .OK (.ownHolds
          (compNos.countP fun n => decide ((s.comp n).sect = some i) && (s.comp n).ownHold))) } := by
  have count : ((s.compsOf i).filter fun n => (s.comp n).ownHold).length =
      compNos.countP fun n => decide ((s.comp n).sect = some i) && (s.comp n).ownHold := by
    unfold State.compsOf
    rw [List.filter_filter, List.countP_eq_length_filter]
    exact congrArg List.length (List.filter_congr fun _ _ => Bool.and_comm _ _)
  rw [exec_holdRelease, State.takeRequest_of a parsed rfl (State.holdRelease_sect (s := s.took h) sv i) (by decide), ← count]
  rfl

/-! ### HOLD on a compartment (R15) -/

section
variable {h : ReqHead} {p : List Byte} {n : Nat} {s : State}

/-- The state as the hold finds it: the request taken and the own hold flag set. -/
def State.flagged (s : State) (h : ReqHead) (n : Nat) : State := (s.took h).setOwnHold n true

theorem exec_hold_one (a : s.asks h 27 p) (parsed : Codec.target.parse p = some (.inl n)) (sv : s.serves) (hn : isComp n) :
    exec (.hold h p) s = .next (((s.flagged h n).holdComp n).1.pass.updKli fun k =>
      { k with reply := some (replyTo h 27 .OK (.holdEnded ((s.flagged h n).holdComp n).2)) }) :=
  (exec_hold h p s).trans (congrArg Host.Outcome.next
    (State.takeRequest_of a parsed rfl (State.hold_one (s := s.took h) sv hn) (by decide)))

theorem State.comp_flagged (hn : isComp n) : (s.flagged h n).comp n = { s.comp n with ownHold := true } :=
  (State.comp_updComp _ _ _ _).trans (if_pos ⟨rfl, hn⟩)

theorem State.flagged_others : s.otherComps (s.flagged h n) n := fun _ other =>
  (State.comp_updComp _ _ _ _).trans (if_neg fun same => other same.1.symm)

theorem hold_stays (a : s.asks h 27 p) (parsed : Codec.target.parse p = some (.inl n)) (sv : s.serves) (hn : isComp n)
    (stays : ∀ o, s.opOn n = some o → o.purpose.isService = true ∨ o.stage = .AWAIT_OPEN ∨ o.stage = .OPEN ∨
      o.stage = .AWAIT_CONFIRM ∨ (o.stage = .STRIKING ∧ s.acked o = true)) :
    ∃ t, exec (.hold h p) s = .next t ∧
      t.passedWith (((s.took h).withComp n { s.comp n with ownHold := true }).clearTag n) h 27 .OK (.holdEnded 0) := by
  have idle : ∀ o, (s.flagged h n).opOn n = some o → (s.flagged h n).endsByHold o = false := fun o found => by
    rw [← Bool.not_eq_true]
    intro held
    obtain ⟨own, stage⟩ := State.endsByHold_iff.mp held
    have acked : (s.flagged h n).acked o = s.acked o := rfl
    rw [acked] at stage
    have late := stays o found
    rw [own] at late
    rcases stage with queued | waits | ⟨striking, unacked⟩
    · simp [queued] at late
    · simp [waits] at late
    · simp [striking, unacked] at late
  refine ⟨_, exec_hold_one a parsed sv hn, ?_⟩
  rw [State.holdComp_stays idle]
  rfl

end

/-! ### The charge that a hold hands over (R157) -/

theorem State.readerOfJob_first {s : State} {j r : Nat} {c : Charge} (low : 1 ≤ r) (high : r ≤ 4)
    (charge : (s.reader r).charge = some c) (job : c.job = some j)
    (first : ∀ q d, 1 ≤ q → q < r → (s.reader q).charge = some d → d.job ≠ some j) : s.readerOfJob j = some r := by
  unfold State.readerOfJob
  refine List.find?_range'_eq_some.mpr ⟨?_, ?_, fun q above below => ?_⟩
  · rw [charge]
    simp [job]
  · exact List.mem_range'_1.mpr ⟨low, by omega⟩
  · cases held : (s.reader q).charge with
    | none => rfl
    | some d => simpa using first q d above below held

/-- The charge of an operation that waits is dropped where it was never offered, and else to be abandoned. -/
theorem State.endOp_abandons {s : State} {o : Op} {r : Nat} {c : Charge} (plain : o.purpose ≠ .SWEEP)
    (waits : o.stage = .AWAIT_PAYMENT) (low : 1 ≤ r) (high : r ≤ 4) (charge : (s.reader r).charge = some c)
    (job : c.job = some o.job) (first : ∀ q d, 1 ≤ q → q < r → (s.reader q).charge = some d → d.job ≠ some o.job) :
    let v := s.endOp o .HELD
    (c.phase = .OFFERED → c.offer = false → s.pbc.line ≠ some (r, .CHARGE c.ref c.amount) → (v.reader r).charge = none) ∧
    (c.phase ≠ .OFFERED ∨ c.offer = true ∨ s.pbc.line = some (r, .CHARGE c.ref c.amount) →
      (v.reader r).charge = some { c with phase := .ABANDON_DUE, job := none, timeout := none } ∧
      (v.reader r).state = .ABANDONING) := by
  generalize ended : (s.endedBy o .HELD false).posts (s.allEvents o .HELD false) = u
  have pbc : u.pbc = s.pbc := ended ▸ State.pbc_endedBy_waiting waits (by decide) _
  have readers : ∀ q, u.reader q = s.reader q := fun q => by
    unfold State.reader
    rw [pbc]
  have abandons : s.endOp o .HELD = u.abandonCharge r := by
    rw [State.endOp_eq (.inl plain)]
    dsimp only
    rw [if_pos ⟨waits, rfl⟩, ended]
    unfold State.abandonOf
    rw [State.readerOfJob_first low high ((congrArg Reader.charge (readers r)).trans charge) job fun q d above below held =>
      first q d above below (by rwa [readers q] at held)]
  obtain ⟨dropped, sent⟩ := State.abandonCharge_reader ((congrArg Reader.charge (readers r)).trans charge)
  rw [pbc] at dropped sent
  dsimp only
  rw [abandons]
  refine ⟨fun offered unsent off => dropped ⟨offered, unsent⟩ off, fun either => ?_⟩
  obtain ⟨record, state, -⟩ := sent fun ⟨⟨offered, unsent⟩, off⟩ => by
    rcases either with phase | offer | line
    · exact phase offered
    · rw [unsent] at offer
      exact Bool.false_ne_true offer
    · exact off line
  exact ⟨record, state⟩

section
variable {h : ReqHead} {p : List Byte} {n : Nat} {o : Op} {s : State}

theorem hold_ends (a : s.asks h 27 p) (parsed : Codec.target.parse p = some (.inl n)) (sv : s.serves) (hn : isComp n)
    (found : s.opOn n = some o) (own : o.purpose.isService = false) (plain : o.purpose ≠ .SWEEP)
    (stage : o.stage = .QUEUED ∨ o.stage = .AWAIT_PAYMENT ∨ (o.stage = .STRIKING ∧ s.acked o = false)) :
    let x := s.link o.link
    ∃ t v, exec (.hold h p) s = .next t ∧ t.passedWith v h 27 .OK (.holdEnded 1) ∧
      v.hce.ops = s.hce.ops.filter (fun x => x.job != o.job) ∧ (v.comp n).ownHold = true ∧
      (v.comp n).purpose = none ∧ (v.comp n).tagOwner = none ∧ v.sects = s.sects ∧ v.scu = s.scu ∧
      (o.stage ≠ .STRIKING → v.arb = s.arb) ∧
      (o.stage = .STRIKING → (∃ a b c d, x.line = some (.strike a b c d)) →
        v.arb = s.arb ∧ (v.link o.link).strike = x.strike.map fun y => { y with opEnded := true }) ∧
      (o.stage = .STRIKING → (∀ a b c d, x.line ≠ some (.strike a b c d)) →
        v.arb.granted = s.arb.granted - x.strikeUnits ∧ (v.link o.link).strike = none) ∧
      (o.stage = .AWAIT_PAYMENT → ∀ r c, 1 ≤ r → r ≤ 4 → (s.reader r).charge = some c → c.job = some o.job →
        (∀ q d, 1 ≤ q → q < r → (s.reader q).charge = some d → d.job ≠ some o.job) →
        (c.phase = .OFFERED → c.offer = false → s.pbc.line ≠ some (r, .CHARGE c.ref c.amount) →
          (v.reader r).charge = none) ∧
        (c.phase ≠ .OFFERED ∨ c.offer = true ∨ s.pbc.line = some (r, .CHARGE c.ref c.amount) →
          (v.reader r).charge = some { c with phase := .ABANDON_DUE, job := none, timeout := none } ∧
          (v.reader r).state = .ABANDONING)) := by
  obtain ⟨there, here⟩ := State.opOn_mem found
  have ends := State.holdComp_ends (s := s.flagged h n) found (State.endsByHold_iff.mpr ⟨own, stage⟩)
  have kept : Kept (s.flagged h n) (((s.flagged h n).holdEnd o).clearTag n) := by
    have both := kept_holdComp (s.flagged h n) n
    rwa [ends] at both
  obtain ⟨-, -, ownHold, -⟩ := kept.comp n
  have clears := ((s.flagged h n).holdEnd o).clearTag_frame n
  have frame := (s.flagged h n).holdEnd_frame o
  have hce : (((s.flagged h n).holdEnd o).clearTag n).hce = ((s.flagged h n).endOp o .HELD).hce :=
    Eq.trans (congrArg State.hce clears :) (congrArg State.hce frame :)
  have pbc : (((s.flagged h n).holdEnd o).clearTag n).pbc = ((s.flagged h n).endOp o .HELD).pbc :=
    Eq.trans (congrArg State.pbc clears :) (congrArg State.pbc frame :)
  have ops : (((s.flagged h n).holdEnd o).clearTag n).hce.ops = s.hce.ops.filter fun y => y.job != o.job :=
    (congrArg Hce.ops hce).trans (State.ops_endOp (.inl plain))
  have ended := State.holdEnd_ends (s := s.flagged h n) (.inl plain) there
  obtain ⟨idle, -⟩ := ended.own (o, .HELD) (List.mem_singleton_self _) (here ▸ hn)
  dsimp only at idle
  rw [here] at idle
  have arb : (((s.flagged h n).holdEnd o).clearTag n).arb = ((s.flagged h n).holdEnd o).arb := (congrArg State.arb clears :)
  have strike : ((((s.flagged h n).holdEnd o).clearTag n).link o.link).strike = (((s.flagged h n).holdEnd o).link o.link).strike :=
    State.clearTag_strikes _ n o.link
  refine ⟨_, ((s.flagged h n).holdEnd o).clearTag n, exec_hold_one a parsed sv hn, ?_, ops, ?_, ?_, ?_, kept.sects, kept.scu,
    fun early => arb.trans (State.holdEnd_arb early), fun striking line => ?_, fun striking line => ?_, fun waits r c low high
    charge job first => ?_⟩
  · rw [ends]
    rfl
  · rw [ownHold, State.comp_flagged hn]
  · rw [State.clearTag_own]
    exact idle
  · rw [State.clearTag_own]
  · rw [arb, strike]
    exact State.holdEnd_onLine (s := s.flagged h n) striking line
  · rw [arb, strike]
    exact State.holdEnd_free (s := s.flagged h n) striking line
  · have reader : (((s.flagged h n).holdEnd o).clearTag n).reader r = ((s.flagged h n).endOp o .HELD).reader r := by
      unfold State.reader
      rw [pbc]
    rw [reader]
    exact State.endOp_abandons (s := s.flagged h n) plain waits low high charge job first

end

/-! ### A SWEEP that a hold ends (R182) -/

section
variable {h : ReqHead} {p : List Byte} {n : Nat} {o : Op} {k : Courier} {r : Run} {s : State}

/-- The end of a SWEEP by a hold frees no reservation and sweeps no parcel. -/
theorem State.endNote_heldSweep (sweep : o.purpose = .SWEEP) : (s.endNote o .HELD false).lapsed = none ∧
    (s.endNote o .HELD false).swept = none := by
  refine ⟨?_, State.endNote_uncompleted (by decide)⟩
  unfold State.endNote State.endEffect
  rw [sweep]
  unfold State.endSweep EndNote.of
  cases (s.comp o.comp).parcel <;> rfl

theorem State.sweepEnded_heldQueue (sweep : o.purpose = .SWEEP) (room : s.kli.queue.length ≤ 63) :
    (s.sweepEnded o .HELD false k).kli.queue =
      s.kli.queue ++ [s.cycleDone o .HELD (s.endNote o .HELD false) (s.afterReversal o .HELD false).2] := by
  obtain ⟨lapsed, swept⟩ := State.endNote_heldSweep (s := s) sweep
  have queue : (s.sweepEnded o .HELD false k).kli =
      (s.endEvents o .HELD false ++ s.sweptEvents o (s.endNote o .HELD false)).foldl Kli.post s.kli :=
    (congrArg State.kli State.sweepEnded_frame :)
  rw [queue]
  unfold State.endEvents State.sweptEvents
  rw [lapsed, swept]
  exact Kli.queue_post _ (by omega)

/-- The end by a hold counts the compartment skipped; the last of a run ends it. -/
theorem State.endOp_heldSweep (sweep : o.purpose = .SWEEP) (courier : courierOf o.station = some k)
    (early : o.stage ≠ .AWAIT_PAYMENT) (known : isComp o.comp) (run : (s.side k).run = some r) (pending : r.pending = [])
    (other : (s.side k.other).run = none) (room : s.kli.queue.length ≤ 62) :
    let others := ∃ y ∈ s.hce.ops, y.job ≠ o.job ∧ y.purpose = .SWEEP ∧ y.station = k.station
    let v := s.endOp o .HELD
    v.hce.ops = s.hce.ops.filter (fun y => y.job != o.job) ∧ s.otherComps v o.comp ∧
      v.comp o.comp = { s.comp o.comp with purpose := none, tagOwner := none } ∧
      (others → (v.side k).run = some { r with skipped := r.skipped + 1 }) ∧
      (¬ others → (v.side k).run = none ∧ ∃ e ∈ v.kli.queue, e.kind = .SWEEP_DONE ∧ e.job = some r.job ∧
        e.counts = some ⟨r.completed, r.leftOccupied, r.notOpened, r.cancelled, r.skipped + 1⟩) ∧
      ∃ e ∈ v.kli.queue, e.kind = .CYCLE_DONE ∧ e.job = some o.job ∧ e.outcome = some .HELD := by
  have unpaid : (s.endNote o .HELD false).unpaid = 0 := by
    unfold EndNote.unpaid
    rw [(State.endNote_heldSweep sweep).2]
    rfl
  obtain ⟨frame, -, -, goes, ends⟩ := State.endOp_lastSweep_frame (occ := false) sweep courier (fun _ => early) run pending other
  rw [unpaid] at goes ends
  have queue := State.sweepEnded_heldQueue (s := s) (k := k) sweep (by omega)
  have told : s.cycleDone o .HELD (s.endNote o .HELD false) (s.afterReversal o .HELD false).2 ∈
      (s.sweepEnded o .HELD false k).kli.queue := by
    rw [queue]
    exact List.mem_append_right _ (List.mem_singleton_self _)
  have comp : ∀ m, (s.endOp o .HELD).comp m = (s.sweepEnded o .HELD false k).comp m := fun m =>
    (congrArg (fun u : State => u.comp m) frame :)
  obtain ⟨kind, -, job, outcome, -⟩ := s.cycleDone_items o .HELD (s.endNote o .HELD false) (s.afterReversal o .HELD false).2
  have hce : (s.endOp o .HELD).hce = (s.sweepEnded o .HELD false k).hce := (congrArg State.hce frame :)
  refine ⟨(congrArg Hce.ops hce).trans State.sweepEnded_ops,
    fun m off => (comp m).trans (State.sweepEnded_others m off), ?_, fun c => (goes c).1, fun c => ⟨(ends c).1, ?_⟩,
    _, ?_, kind, job, outcome⟩
  · rw [comp, State.sweepEnded_comp known, sweep, Compartment.ended_swept (by decide) (by decide)]
  · refine ⟨s.sweepDone k (r.count .HELD 0), ?_, rfl, rfl, rfl⟩
    rw [(ends c).2, Kli.queue_post _ (by rw [queue]; simp; omega)]
    exact List.mem_append_right _ (List.mem_singleton_self _)
  · by_cases others : ∃ y ∈ s.hce.ops, y.job ≠ o.job ∧ y.purpose = .SWEEP ∧ y.station = k.station
    · rw [(goes others).2]
      exact told
    · rw [(ends others).2]
      exact Kli.mem_post _ told

theorem hold_endsSweep (a : s.asks h 27 p) (parsed : Codec.target.parse p = some (.inl n)) (sv : s.serves) (hn : isComp n)
    (found : s.opOn n = some o) (sweep : o.purpose = .SWEEP) (courier : courierOf o.station = some k)
    (stage : o.stage = .QUEUED ∨ (o.stage = .STRIKING ∧ s.acked o = false)) (run : (s.side k).run = some r)
    (pending : r.pending = []) (other : (s.side k.other).run = none) (room : s.kli.queue.length ≤ 62) :
    let others := ∃ y ∈ s.hce.ops, y.job ≠ o.job ∧ y.purpose = .SWEEP ∧ y.station = k.station
    ∃ t v : State, exec (.hold h p) s = .next t ∧ t.passedWith v h 27 .OK (.holdEnded 1) ∧
      v.hce.ops = s.hce.ops.filter (fun y => y.job != o.job) ∧ s.otherComps v n ∧
      v.comp n = { s.comp n with ownHold := true, purpose := none, tagOwner := none } ∧
      (others → (v.side k).run = some { r with skipped := r.skipped + 1 }) ∧
      (¬ others → (v.side k).run = none ∧ ∃ e ∈ v.kli.queue, e.kind = .SWEEP_DONE ∧ e.job = some r.job ∧
        e.counts = some ⟨r.completed, r.leftOccupied, r.notOpened, r.cancelled, r.skipped + 1⟩) ∧
      ∃ e ∈ v.kli.queue, e.kind = .CYCLE_DONE ∧ e.job = some o.job ∧ e.outcome = some .HELD := by
  obtain ⟨-, here⟩ := State.opOn_mem found
  subst here
  have held : (s.flagged h o.comp).endsByHold o = true :=
    State.endsByHold_iff.mpr ⟨by rw [sweep]; rfl, stage.imp_right .inr⟩
  have early : o.stage ≠ .AWAIT_PAYMENT := fun waits => by
    rcases stage with queued | ⟨striking, -⟩
    · exact nomatch queued.symm.trans waits
    · exact nomatch striking.symm.trans waits
  obtain ⟨ops, beside, own, goes, ends, told⟩ := State.endOp_heldSweep (s := s.flagged h o.comp) sweep courier early hn run
    pending other room
  have comp : ∀ m, ((s.flagged h o.comp).holdEnd o).comp m = ((s.flagged h o.comp).endOp o .HELD).comp m := fun m =>
    (congrArg (fun v : State => v.comp m) ((s.flagged h o.comp).holdEnd_frame o) :)
  have side : ((s.flagged h o.comp).holdEnd o).side k = ((s.flagged h o.comp).endOp o .HELD).side k :=
    (congrArg (fun v : State => v.side k) ((s.flagged h o.comp).holdEnd_frame o) :)
  have queue : ((s.flagged h o.comp).holdEnd o).kli.queue = ((s.flagged h o.comp).endOp o .HELD).kli.queue :=
    (congrArg (fun v : State => v.kli.queue) ((s.flagged h o.comp).holdEnd_frame o) :)
  have untagged : (((s.flagged h o.comp).holdEnd o).comp o.comp).tagOwner = none := by
    rw [comp, own]
  refine ⟨_, (s.flagged h o.comp).holdEnd o, exec_hold_one a parsed sv hn, ?_, ?_, fun m off => ?_, ?_, ?_, ?_, ?_⟩
  · rw [State.holdComp_ends (s := s.flagged h o.comp) found held, State.clearTag_none untagged]
    rfl
  · exact (congrArg (fun v : State => v.hce.ops) ((s.flagged h o.comp).holdEnd_frame o) :).trans ops
  · exact (comp m).trans ((beside m off).trans (State.flagged_others m off))
  · rw [comp, own, State.comp_flagged hn]
  · rw [side]
    exact goes
  · rw [side, queue]
    exact ends
  · rw [queue]
    exact told

end

/-! ### HOLD on a section (R16) -/

section
variable {h : ReqHead} {p : List Byte} {i : Fin 8} {s : State}

/-- The state as the hold finds it: the request taken and the section's hold flag set. -/
def State.sectFlagged (s : State) (h : ReqHead) (i : Fin 8) : State := (s.took h).updSect i fun x => { x with hold := true }

theorem State.mem_compsOf {n : Nat} : n ∈ s.compsOf i ↔ isComp n ∧ (s.comp n).sect = some i := by
  unfold State.compsOf
  rw [List.mem_filter, mem_compNos, decide_eq_true_iff]

theorem State.isComp_of_sect {n : Nat} (named : (s.comp n).sect = some i) : isComp n := by
  by_contra out
  rw [State.comp_outside s out] at named
  exact nomatch named

theorem exec_hold_sect (a : s.asks h 27 p) (parsed : Codec.target.parse p = some (.inr i.val)) (sv : s.serves) :
    let held := holdOver (s.compsOf i) (s.sectFlagged h i) 0
    exec (.hold h p) s = .next (held.1.pass.updKli fun k => { k with reply := some (replyTo h 27 .OK (.holdEnded held.2)) }) :=
  (exec_hold h p s).trans (congrArg Host.Outcome.next
    (State.takeRequest_of a parsed rfl (State.hold_sect (s := s.took h) sv i) (by decide)))

theorem hold_section (a : s.asks h 27 p) (parsed : Codec.target.parse p = some (.inr i.val)) (sv : s.serves) :
    ∃ k t, exec (.hold h p) s = .next t ∧ t.answers h 27 .OK (.holdEnded k) ∧
      t.sects = s.sects.set i.val { s.sect i with hold := true } ∧ t.hatchMap = s.hatchMap ∧ t.scu = s.scu ∧
      ((∀ n, (s.comp n).sect = some i → s.hasOp n = false ∧ (s.comp n).tagOwner = none) → k = 0 ∧
        t.passedWith { s.took h with sects := t.sects } h 27 .OK (.holdEnded 0)) := by
  have kept := (kept_holdOver (s.compsOf i) (s.sectFlagged h i) 0).trans (kept_pass _)
  refine ⟨_, _, exec_hold_sect a parsed sv, rfl, kept.sects, kept.hatchMap, kept.scu, fun quiet => ?_⟩
  have none_ := holdOver_quiet (s.compsOf i) (s.sectFlagged h i) 0 fun n mem => quiet n (State.mem_compsOf.mp mem).2
  have sects : ((s.sectFlagged h i).pass.updKli fun k => { k with reply := some (replyTo h 27 .OK (.holdEnded 0)) }).sects =
      (s.sectFlagged h i).sects := (kept_pass _).sects
  rw [none_]
  refine ⟨rfl, ?_⟩
  rw [sects]
  rfl

theorem hold_sectionEnds (a : s.asks h 27 p) (parsed : Codec.target.parse p = some (.inr i.val)) (sv : s.serves)
    (one : s.oneStrikeEach) (distinct : (s.hce.ops.map (·.job)).Nodup) (quiet : s.noRun)
    (room : s.kli.queue.length + 2 * s.hce.ops.length ≤ 64) :
    let ends := fun (o : Op) => decide (isComp o.comp ∧ (s.comp o.comp).sect = some i) && !o.purpose.isService &&
      (decide (o.stage = .QUEUED ∨ o.stage = .AWAIT_PAYMENT) || (decide (o.stage = .STRIKING) && !s.acked o))
    ∃ t v : State, exec (.hold h p) s = .next t ∧ t.passedWith v h 27 .OK (.holdEnded (s.hce.ops.countP ends)) ∧
      s.endsThose v ends (fun _ => .HELD) ∧ (∀ n, (s.comp n).sect = some i → (v.comp n).tagOwner = none) ∧
      (∀ n, (s.comp n).sect ≠ some i → v.comp n = { s.comp n with parcel := (v.comp n).parcel }) ∧
      v.scu = s.scu ∧ v.hatchMap = s.hatchMap := by
  intro ends
  have test : ∀ o, ends o = true ↔ o.comp ∈ s.compsOf i ∧ s.endsByHold o = true := fun o => by
    rw [State.mem_compsOf]
    show (_ && _ && _) = true ↔ _
    unfold State.endsByHold
    rw [Bool.and_assoc, Bool.and_eq_true, decide_eq_true_iff]
  obtain ⟨es, held, count⟩ := holdOver_held (s.compsOf i) (s.sectFlagged h i) 0 quiet one
  have kept := kept_holdOver (s.compsOf i) (s.sectFlagged h i) 0
  have those : s.endsThose (holdOver (s.compsOf i) (s.sectFlagged h i) 0).1 ends fun _ => .HELD :=
    held.ends.endsThose distinct (fun f mem => by
      obtain ⟨o, ended, rfl⟩ := List.mem_map.mp mem
      obtain ⟨there, holds, named⟩ := held.each o ended
      exact ⟨there, (test o).mpr ⟨named, holds⟩, rfl⟩) (fun y left => Bool.not_eq_true _ |>.mp fun ended => by
        obtain ⟨named, holds⟩ := (test y).mp ended
        exact Bool.false_ne_true ((held.rest y left named).symm.trans holds)) (by
      rw [State.noRun.runs (s := s.sectFlagged h i) quiet]
      exact room)
  have counted : 0 + es.length = s.hce.ops.countP ends := by
    rw [Nat.zero_add]
    exact held.ends.length_eq distinct (fun o ended => (held.each o ended).1) those.1
  refine ⟨_, _, exec_hold_sect a parsed sv, ?_, those, fun n named => held.tags n (.inl
    (State.mem_compsOf.mpr ⟨State.isComp_of_sect named, named⟩)), fun n other => held.others n fun mem =>
      other (State.mem_compsOf.mp mem).2, kept.scu, kept.hatchMap⟩
  rw [count, counted]
  rfl

end

/-! ### A cause that joins a compartment (R19) -/

section
variable {n : Nat} {k : Cause} {s : State}

theorem State.addCause_endsAsHold {o : Op} (hn : isComp n) (fresh : (s.comp n).causes.has k = false) (found : s.opOn n = some o)
    (own : o.purpose.isService = false) (plain : o.purpose ≠ .SWEEP) (stage : o.stage = .QUEUED ∨ o.stage = .AWAIT_PAYMENT) :
    let t := s.addCause n k
    t.hce.ops = s.hce.ops.filter (fun y => y.job != o.job) ∧ (t.comp n).purpose = none ∧
    (t.comp n).causes = (s.comp n).causes.add k ∧
    (s.kli.queue.length < 64 → ∃ e ∈ t.kli.queue, e.kind = .CYCLE_DONE ∧ e.job = some o.job ∧
      e.outcome = some .HELD ∧ ∃ f, e.flags = some f ∧ f.faulted = true) := by
  obtain ⟨-, here⟩ := State.opOn_mem found
  subst here
  have early : o.stage.striking = false := by
    rcases stage with queued | waits
    · rw [queued]
      rfl
    · rw [waits]
      rfl
  have marked : ((s.markCause o.comp k).comp o.comp).causes = (s.comp o.comp).causes.add k := by
    unfold State.markCause
    rw [State.comp_updComp, if_pos ⟨rfl, hn⟩]
  have comp := State.comp_endOp_own (s := s.markCause o.comp k) (o := { o with faulted := true }) (out := .HELD) (.inl plain) hn
  dsimp only
  rw [State.addCause_ends fresh found own early]
  refine ⟨State.ops_endOp (.inl plain), ?_, ?_, fun room => ?_⟩
  · exact congrArg Compartment.purpose comp
  · refine (congrArg Compartment.causes comp :).trans ?_
    exact (Compartment.ended_causes (by decide)).trans marked
  · obtain ⟨e, mem, ⟨kind, -, job, outcome⟩, f, flags, faulted⟩ :=
      State.endOp_tells (s := s.markCause o.comp k) (o := { o with faulted := true }) (out := .HELD) (occ := false) (.inl plain) room
    exact ⟨e, mem, kind, job, outcome, f, flags, faulted⟩

end

/-- Settles O40: a hold on a compartment by what `State.holdComp` does to its operation, a hold on a section by induction
over its compartments (`holdOver_held`), and a cause as the hold that it is. -/
theorem holdsAreSetAndReleased : Obligations.HoldsAreSetAndReleased :=
  ⟨fun _ _ _ _ a parsed sv hn stays => hold_stays a parsed sv hn stays,
    fun _ _ _ _ _ a parsed sv hn found own plain stage => hold_ends a parsed sv hn found own plain stage,
    fun _ _ _ _ a parsed sv => hold_section a parsed sv,
    fun _ _ _ _ a parsed sv one distinct quiet1 quiet2 room alone =>
      hold_sectionEnds a parsed sv ⟨one, alone⟩ distinct ⟨quiet1, quiet2⟩ room,
    fun _ _ _ _ _ _ _ a parsed sv hn found sweep courier stage run pending other room =>
      hold_endsSweep a parsed sv hn found sweep courier stage run pending other room,
    release_one, release_sect, hold_refused, hold_unparsed,
    fun _ s sv out => ⟨s.onSect_outside _ sv out, s.onSect_outside _ sv out⟩,
    fun _ _ _ hn => ⟨State.addCause_known, fun fresh => ⟨fun stays => State.addCause_quiet fresh stays,
      fun _ found own plain stage => State.addCause_endsAsHold hn fresh found own plain stage⟩⟩⟩

end Sys2Proof.Machine
end
